-- ==== Sys2Proof/Word.lean ====
section
/-! DEFINITION. The words of the PX640 and the small named sets that its instruction fields hold:
register and mask numbers, element formats, scopes, orders, rounding modes. -/

namespace Sys2Proof

/-- One byte. -/
abbrev Byte := BitVec 8
/-- A 64-bit word: a scalar register, a CSR, an address. -/
abbrev Word := BitVec 64
/-- A 32-bit instruction word (R32). -/
abbrev IWord := BitVec 32
/-- A scalar or vector register number (R15, R25). -/
abbrev Reg := BitVec 5
/-- A condition-bit number, or a mask register number (R16, R26). -/
abbrev CBit := BitVec 3
/-- A mask register number; as an operand of an instruction 0 means unmasked (R38). -/
abbrev KReg := BitVec 3
/-- A sequencer of the device: core × 4 + slot, core = cluster × 8 + core of the cluster (R3). -/
abbrev SeqId := Fin 768
/-- A core of the device. -/
abbrev CoreId := Fin 192
/-- A cluster of the device. -/
abbrev ClusterId := Fin 24
/-- A partition, which is also the PCIe function of its host (R350). -/
abbrev PartId := Fin 16

/-- A rounding mode as an instruction names it: five fixed modes, or the mode in `frm` (R47). -/
inductive RM where
  | rne | rtz | rdn | rup | rmm | dyn
  deriving DecidableEq, Repr, Inhabited

/-- The precision of a scalar floating-point instruction (R47). -/
inductive Prec where
  | s | d
  deriving DecidableEq, Repr, Inhabited

/-- The six scopes (R175), with the codes of `vtype.scope`. -/
inductive Scope where
  | sequencer | core | cluster | die | device | system
  deriving DecidableEq, Repr, Inhabited

/-- The order of an atomic (R51). -/
inductive Order where
  | rlx | acq | rel | ar
  deriving DecidableEq, Repr, Inhabited

/-- The order of a fence (R52). -/
inductive FenceOrder where
  | acq | rel | ar
  deriving DecidableEq, Repr, Inhabited

/-- The width of a scalar atomic (R51). -/
inductive AmoWidth where
  | w | d
  deriving DecidableEq, Repr, Inhabited

/-- The replication of vs2: none, or the first 1, 4, 16 or 64 elements (R39). -/
inductive Rep where
  | none | s1 | s4 | s16 | s64
  deriving DecidableEq, Repr, Inhabited

/-- The eleven element formats (R20). -/
inductive Fmt where
  | int | uint | fp32 | fp16 | bf16 | e4m3 | e5m2 | e3m2 | e2m3 | e2m1 | l6
  deriving DecidableEq, Repr, Inhabited

/-- The source format of `vcvt` and `vcvtsr`: the format codes 2 to 10 (R59). -/
inductive SrcFmt where
  | fp32 | fp16 | bf16 | e4m3 | e5m2 | e3m2 | e2m3 | e2m1 | l6
  deriving DecidableEq, Repr, Inhabited

/-- The source width of `vcvti` and `vcvtu` (R59). -/
inductive IntWidth where
  | e4 | e8 | e16 | e32 | e64
  deriving DecidableEq, Repr, Inhabited

/-- The index width of an indexed vector access: the data width, 32 or 64 bits (R61). -/
inductive IdxWidth where
  | data | x32 | x64
  deriving DecidableEq, Repr, Inhabited

/-- The address mode of a vector atomic (R61). -/
inductive VamoMode where
  | unit | strided | indexed
  deriving DecidableEq, Repr, Inhabited

/-- The allotment that `valloc` names (R54). -/
inductive AllocN where
  | n8 | n16 | n32
  deriving DecidableEq, Repr, Inhabited

namespace RM
def toBits : RM → BitVec 3
  | rne => 0 | rtz => 1 | rdn => 2 | rup => 3 | rmm => 4 | dyn => 7
end RM
namespace Prec
def toBits : Prec → BitVec 1
  | s => 0 | d => 1
end Prec
namespace Scope
def toBits : Scope → BitVec 3
  | sequencer => 0 | core => 1 | cluster => 2 | die => 3 | device => 4 | system => 5
end Scope
namespace Order
def toBits : Order → BitVec 2
  | rlx => 0 | acq => 1 | rel => 2 | ar => 3
/-- The order includes an acquire. -/
def acquires : Order → Bool
  | acq => true | ar => true | _ => false
/-- The order includes a release. -/
def releases : Order → Bool
  | rel => true | ar => true | _ => false
end Order
namespace FenceOrder
def toBits : FenceOrder → BitVec 2
  | acq => 1 | rel => 2 | ar => 3
def acquires : FenceOrder → Bool
  | rel => false | _ => true
def releases : FenceOrder → Bool
  | acq => false | _ => true
end FenceOrder
namespace AmoWidth
def toBits : AmoWidth → BitVec 1
  | w => 0 | d => 1
/-- The bytes that an atomic of this width accesses. -/
def bytes : AmoWidth → Nat
  | w => 4 | d => 8
end AmoWidth
namespace Rep
/-- The rep bit and the rsz field (R39). -/
def repBit : Rep → BitVec 1
  | none => 0 | _ => 1
def rsz : Rep → BitVec 2
  | none => 0 | s1 => 0 | s4 => 1 | s16 => 2 | s64 => 3
end Rep
namespace Fmt
/-- The code of R20. -/
def code : Fmt → BitVec 5
  | int => 0 | uint => 1 | fp32 => 2 | fp16 => 3 | bf16 => 4 | e4m3 => 5 | e5m2 => 6
  | e3m2 => 7 | e2m3 => 8 | e2m1 => 9 | l6 => 10
end Fmt
namespace SrcFmt
def toFmt : SrcFmt → Fmt
  | fp32 => .fp32 | fp16 => .fp16 | bf16 => .bf16 | e4m3 => .e4m3 | e5m2 => .e5m2
  | e3m2 => .e3m2 | e2m3 => .e2m3 | e2m1 => .e2m1 | l6 => .l6
def toBits (f : SrcFmt) : BitVec 5 := f.toFmt.code
end SrcFmt
namespace IntWidth
def toBits : IntWidth → BitVec 3
  | e4 => 0 | e8 => 2 | e16 => 3 | e32 => 4 | e64 => 5
def bits : IntWidth → Nat
  | e4 => 4 | e8 => 8 | e16 => 16 | e32 => 32 | e64 => 64
end IntWidth
namespace IdxWidth
def toBits : IdxWidth → BitVec 2
  | data => 0 | x32 => 1 | x64 => 2
end IdxWidth
namespace VamoMode
def toBits : VamoMode → BitVec 3
  | unit => 0 | strided => 1 | indexed => 2
end VamoMode
namespace AllocN
def toBits : AllocN → BitVec 2
  | n8 => 0 | n16 => 1 | n32 => 2
/-- The number of registers (R54). -/
def regs : AllocN → Nat
  | n8 => 8 | n16 => 16 | n32 => 32
end AllocN

end Sys2Proof
end

