-- ==== Sys2Proof/Syntax.lean ====
section
/-! DEFINITION. The instructions of the PX640: one constructor for each row of the opcode table. The first
part has the 306 rows with a 32-bit word; the second the 102 rows that are steps without a word of their own:
CSR writes with effects of their own, resumptions of held instructions, and the moves of schedulers, engines,
the host and the controller. -/

namespace Sys2Proof

/-- One instruction or step: one constructor per row of the opcode table. -/
inductive Instr where
  /-- R82. Writes rs1 plus rs2, modulo 2^64, to rd. -/
  | add (rd : Reg) (rs1 : Reg) (rs2 : Reg)
  /-- R82. Writes rs1 minus rs2, modulo 2^64, to rd. -/
  | sub (rd : Reg) (rs1 : Reg) (rs2 : Reg)
  /-- R82. Writes the bitwise AND of rs1 and rs2 to rd. -/
  | and (rd : Reg) (rs1 : Reg) (rs2 : Reg)
  /-- R82. Writes the bitwise OR of rs1 and rs2 to rd. -/
  | or (rd : Reg) (rs1 : Reg) (rs2 : Reg)
  /-- R82. Writes the bitwise XOR of rs1 and rs2 to rd. -/
  | xor (rd : Reg) (rs1 : Reg) (rs2 : Reg)
  /-- R82. Writes rs1 AND NOT rs2 to rd. -/
  | andn (rd : Reg) (rs1 : Reg) (rs2 : Reg)
  /-- R82. Writes rs1 shifted left by rs2[5:0] to rd. -/
  | sll (rd : Reg) (rs1 : Reg) (rs2 : Reg)
  /-- R82. Writes rs1 shifted logically right by rs2[5:0] to rd. -/
  | srl (rd : Reg) (rs1 : Reg) (rs2 : Reg)
  /-- R82. Writes rs1 shifted arithmetically right by rs2[5:0] to rd. -/
  | sra (rd : Reg) (rs1 : Reg) (rs2 : Reg)
  /-- R82. Writes the low 64 bits of rs1 times rs2 to rd. -/
  | mul (rd : Reg) (rs1 : Reg) (rs2 : Reg)
  /-- R82. Writes the high 64 bits of the signed by signed product to rd. -/
  | mulh (rd : Reg) (rs1 : Reg) (rs2 : Reg)
  /-- R82. Writes the high 64 bits of the unsigned by unsigned product to rd. -/
  | mulhu (rd : Reg) (rs1 : Reg) (rs2 : Reg)
  /-- R82. Writes the high 64 bits of signed rs1 times unsigned rs2 to rd. -/
  | mulhsu (rd : Reg) (rs1 : Reg) (rs2 : Reg)
  /-- R83. Writes the signed quotient to rd; it never traps and has defined borderline results. -/
  | div (rd : Reg) (rs1 : Reg) (rs2 : Reg)
  /-- R83. Writes the unsigned quotient to rd; a divisor of zero gives all ones. -/
  | divu (rd : Reg) (rs1 : Reg) (rs2 : Reg)
  /-- R83. Writes the signed remainder, with the sign of rs1, to rd. -/
  | rem (rd : Reg) (rs1 : Reg) (rs2 : Reg)
  /-- R83. Writes the unsigned remainder to rd. -/
  | remu (rd : Reg) (rs1 : Reg) (rs2 : Reg)
  /-- R82. Writes the signed lesser of rs1 and rs2 to rd. -/
  | min (rd : Reg) (rs1 : Reg) (rs2 : Reg)
  /-- R82. Writes the signed greater of rs1 and rs2 to rd. -/
  | max (rd : Reg) (rs1 : Reg) (rs2 : Reg)
  /-- R82. Writes the unsigned lesser of rs1 and rs2 to rd. -/
  | minu (rd : Reg) (rs1 : Reg) (rs2 : Reg)
  /-- R82. Writes the unsigned greater of rs1 and rs2 to rd. -/
  | maxu (rd : Reg) (rs1 : Reg) (rs2 : Reg)
  /-- R82. Writes the count of leading zero bits of rs1 to rd. -/
  | clz (rd : Reg) (rs1 : Reg)
  /-- R82. Writes the count of trailing zero bits of rs1 to rd. -/
  | ctz (rd : Reg) (rs1 : Reg)
  /-- R82. Writes the count of one bits of rs1 to rd. -/
  | pop (rd : Reg) (rs1 : Reg)
  /-- R82. Writes the eight bytes of rs1, in reverse order, to rd. -/
  | bswap (rd : Reg) (rs1 : Reg)
  /-- R82. Writes (rs1 shifted left by 1) plus rs2 to rd. -/
  | sh1add (rd : Reg) (rs1 : Reg) (rs2 : Reg)
  /-- R82. Writes (rs1 shifted left by 2) plus rs2 to rd. -/
  | sh2add (rd : Reg) (rs1 : Reg) (rs2 : Reg)
  /-- R82. Writes (rs1 shifted left by 3) plus rs2 to rd. -/
  | sh3add (rd : Reg) (rs1 : Reg) (rs2 : Reg)
  /-- R82. Writes rs1 rotated left by rs2[5:0] to rd. -/
  | rotl (rd : Reg) (rs1 : Reg) (rs2 : Reg)
  /-- R82. Writes rs1 rotated right by rs2[5:0] to rd. -/
  | rotr (rd : Reg) (rs1 : Reg) (rs2 : Reg)
  /-- R84. Writes rs1 plus the sign-extended imm16 to rd. -/
  | addi (rd : Reg) (rs1 : Reg) (imm : BitVec 16)
  /-- R84. Writes rs1 AND the sign-extended imm16 to rd. -/
  | andi (rd : Reg) (rs1 : Reg) (imm : BitVec 16)
  /-- R84. Writes rs1 OR the zero-extended imm16 to rd. -/
  | ori (rd : Reg) (rs1 : Reg) (imm : BitVec 16)
  /-- R84. Writes rs1 XOR the zero-extended imm16 to rd. -/
  | xori (rd : Reg) (rs1 : Reg) (imm : BitVec 16)
  /-- R84. Writes the sign-extended imm21, shifted left by 16, to rd. -/
  | ldhi (rd : Reg) (imm : BitVec 21)
  /-- R84. Writes PC plus the sign-extended imm21 shifted left by 16 to rd. -/
  | pcadd (rd : Reg) (imm : BitVec 21)
  /-- R85. Writes rs1 shifted left by shamt to rd. -/
  | slli (rd : Reg) (rs1 : Reg) (shamt : BitVec 6)
  /-- R85. Writes rs1 shifted logically right by shamt to rd. -/
  | srli (rd : Reg) (rs1 : Reg) (shamt : BitVec 6)
  /-- R85. Writes rs1 shifted arithmetically right by shamt to rd. -/
  | srai (rd : Reg) (rs1 : Reg) (shamt : BitVec 6)
  /-- R85. Writes rs1 rotated left by shamt to rd. -/
  | rotli (rd : Reg) (rs1 : Reg) (shamt : BitVec 6)
  /-- R94. Loads a sign-extended byte into rd, trapping on a fault before any effect. -/
  | ldB (rd : Reg) (rs1 : Reg) (imm : BitVec 13)
  /-- R94. Loads a sign-extended, aligned 16-bit value into rd. -/
  | ldH (rd : Reg) (rs1 : Reg) (imm : BitVec 13)
  /-- R94. Loads a sign-extended, aligned 32-bit value into rd. -/
  | ldW (rd : Reg) (rs1 : Reg) (imm : BitVec 13)
  /-- R94. Loads an aligned 64-bit value into rd. -/
  | ldD (rd : Reg) (rs1 : Reg) (imm : BitVec 13)
  /-- R94. Loads a zero-extended byte into rd. -/
  | ldBu (rd : Reg) (rs1 : Reg) (imm : BitVec 13)
  /-- R94. Loads a zero-extended, aligned 16-bit value into rd. -/
  | ldHu (rd : Reg) (rs1 : Reg) (imm : BitVec 13)
  /-- R94. Loads a zero-extended, aligned 32-bit value into rd. -/
  | ldWu (rd : Reg) (rs1 : Reg) (imm : BitVec 13)
  /-- R94. Stores the low byte of the data register. -/
  | stB (rs1 : Reg) (data : Reg) (imm : BitVec 14)
  /-- R94. Stores the low 16 bits of the data register at an aligned address. -/
  | stH (rs1 : Reg) (data : Reg) (imm : BitVec 14)
  /-- R94. Stores the low 32 bits of the data register at an aligned address. -/
  | stW (rs1 : Reg) (data : Reg) (imm : BitVec 14)
  /-- R94. Stores the 64-bit data register at an aligned address. -/
  | stD (rs1 : Reg) (data : Reg) (imm : BitVec 14)
  /-- R88. Branches when condition bit cN is 1, popping loop levels as R93 gives. -/
  | bt (n : CBit) (off : BitVec 21)
  /-- R88. Branches when condition bit cN is 0. -/
  | bf (n : CBit) (off : BitVec 21)
  /-- R90. Branches while c7 is 1 and checks strip-loop progress, raising the no-progress trap on a second pass with no decrease. -/
  | bs (off : BitVec 21)
  /-- R89. Jumps PC-relative and writes the return address to rd. -/
  | jal (rd : Reg) (imm : BitVec 21)
  /-- R89. Jumps to rs1 plus imm16 and links, trapping on a misaligned target. -/
  | jalr (rd : Reg) (rs1 : Reg) (imm : BitVec 16)
  /-- R86. Sets cN to whether rs1 equals rs2. -/
  | cmpeq (n : CBit) (rs1 : Reg) (rs2 : Reg)
  /-- R86. Sets cN to whether rs1 differs from rs2. -/
  | cmpne (n : CBit) (rs1 : Reg) (rs2 : Reg)
  /-- R86. Sets cN to whether rs1 is less than rs2, signed. -/
  | cmplt (n : CBit) (rs1 : Reg) (rs2 : Reg)
  /-- R86. Sets cN to whether rs1 is at least rs2, signed. -/
  | cmpge (n : CBit) (rs1 : Reg) (rs2 : Reg)
  /-- R86. Sets cN to whether rs1 is less than rs2, unsigned. -/
  | cmpltu (n : CBit) (rs1 : Reg) (rs2 : Reg)
  /-- R86. Sets cN to whether rs1 is at least rs2, unsigned. -/
  | cmpgeu (n : CBit) (rs1 : Reg) (rs2 : Reg)
  /-- R87. Sets cD to cA AND cB. -/
  | cand (d : CBit) (a : CBit) (b : CBit)
  /-- R87. Sets cD to cA OR cB. -/
  | cor (d : CBit) (a : CBit) (b : CBit)
  /-- R87. Sets cD to cA XOR cB. -/
  | cxor (d : CBit) (a : CBit) (b : CBit)
  /-- R87. Sets cD to cA AND NOT cB. -/
  | candn (d : CBit) (a : CBit) (b : CBit)
  /-- R87. Writes the zero-extended condition bit cN to rd. -/
  | cget (rd : Reg) (a : CBit)
  /-- R86. Sets cN to whether rs1 equals the sign-extended immediate. -/
  | cmpeqi (n : CBit) (rs1 : Reg) (imm : BitVec 16)
  /-- R86. Sets cN to whether rs1 differs from the sign-extended immediate. -/
  | cmpnei (n : CBit) (rs1 : Reg) (imm : BitVec 16)
  /-- R86. Sets cN to whether rs1 is less than the immediate, signed. -/
  | cmplti (n : CBit) (rs1 : Reg) (imm : BitVec 16)
  /-- R86. Sets cN to whether rs1 is at least the immediate, signed. -/
  | cmpgei (n : CBit) (rs1 : Reg) (imm : BitVec 16)
  /-- R86. Sets cN to whether rs1 is less than the zero-extended immediate, unsigned. -/
  | cmpltui (n : CBit) (rs1 : Reg) (imm : BitVec 16)
  /-- R86. Sets cN to whether rs1 is at least the zero-extended immediate, unsigned. -/
  | cmpgeui (n : CBit) (rs1 : Reg) (imm : BitVec 16)
  /-- R86. Sets cN to whether rs1 is greater than the immediate, signed. -/
  | cmpgti (n : CBit) (rs1 : Reg) (imm : BitVec 16)
  /-- R86. Sets cN to whether rs1 is at most the immediate, signed. -/
  | cmplei (n : CBit) (rs1 : Reg) (imm : BitVec 16)
  /-- R91. Pushes a hardware-loop level with the count in rs1, or skips the body when the count is zero. -/
  | loop (rs1 : Reg) (endOff : BitVec 13)
  /-- R91. Pushes a hardware-loop level with an immediate count. -/
  | loopi (count : BitVec 12) (endOff : BitVec 13)
  /-- R92. Retirement of the innermost level's end instruction tests and decrements or pops the level. -/
  | loopBackEdge
  /-- R96. Writes the rounded sum of two FP32 or FP64 operands. -/
  | fadd (p : Prec) (rm : RM) (rd : Reg) (rs1 : Reg) (rs2 : Reg)
  /-- R96. Writes the rounded difference. -/
  | fsub (p : Prec) (rm : RM) (rd : Reg) (rs1 : Reg) (rs2 : Reg)
  /-- R96. Writes the rounded product. -/
  | fmul (p : Prec) (rm : RM) (rd : Reg) (rs1 : Reg) (rs2 : Reg)
  /-- R96. Writes the rounded quotient, raising DZ on division of a finite nonzero value by zero. -/
  | fdiv (p : Prec) (rm : RM) (rd : Reg) (rs1 : Reg) (rs2 : Reg)
  /-- R96. Writes the rounded square root. -/
  | fsqrt (p : Prec) (rm : RM) (rd : Reg) (rs1 : Reg)
  /-- R96. Writes the lesser operand under the NaN and signed-zero rules of R75. -/
  | fmin (p : Prec) (rd : Reg) (rs1 : Reg) (rs2 : Reg)
  /-- R96. Writes the greater operand under R75. -/
  | fmax (p : Prec) (rd : Reg) (rs1 : Reg) (rs2 : Reg)
  /-- R96. Writes the magnitude of a with the sign of b. -/
  | fsgnj (p : Prec) (rd : Reg) (rs1 : Reg) (rs2 : Reg)
  /-- R96. Writes the magnitude of a with the negated sign of b. -/
  | fsgnjn (p : Prec) (rd : Reg) (rs1 : Reg) (rs2 : Reg)
  /-- R96. Writes the magnitude of a with the XOR of both signs. -/
  | fsgnjx (p : Prec) (rd : Reg) (rs1 : Reg) (rs2 : Reg)
  /-- R96. Converts an FP value to a signed 64-bit integer. -/
  | ftol (p : Prec) (rm : RM) (rd : Reg) (rs1 : Reg)
  /-- R96. Converts an FP value to an unsigned 64-bit integer. -/
  | ftolu (p : Prec) (rm : RM) (rd : Reg) (rs1 : Reg)
  /-- R96. Converts an FP value to a signed 32-bit integer, sign-extended. -/
  | ftow (p : Prec) (rm : RM) (rd : Reg) (rs1 : Reg)
  /-- R96. Converts an FP value to an unsigned 32-bit integer, zero-extended. -/
  | ftowu (p : Prec) (rm : RM) (rd : Reg) (rs1 : Reg)
  /-- R96. Converts a signed 64-bit integer to FP. -/
  | ltof (p : Prec) (rm : RM) (rd : Reg) (rs1 : Reg)
  /-- R96. Converts an unsigned 64-bit integer to FP. -/
  | lutof (p : Prec) (rm : RM) (rd : Reg) (rs1 : Reg)
  /-- R96. Converts between FP64 and FP32. -/
  | fprec (p : Prec) (rm : RM) (rd : Reg) (rs1 : Reg)
  /-- R96. Writes a 10-bit class mask of the operand. -/
  | fclass (p : Prec) (rd : Reg) (rs1 : Reg)
  /-- R96. Sets cN to whether a equals b, with NaN rules of R75. -/
  | feq (p : Prec) (n : CBit) (rs1 : Reg) (rs2 : Reg)
  /-- R96. Sets cN to whether a is less than b. -/
  | flt (p : Prec) (n : CBit) (rs1 : Reg) (rs2 : Reg)
  /-- R96. Sets cN to whether a is at most b. -/
  | fle (p : Prec) (n : CBit) (rs1 : Reg) (rs2 : Reg)
  /-- R98. Updates a paired FP32 accumulator held in one register with a new term. -/
  | fadd2 (rd : Reg) (rs1 : Reg) (rs2 : Reg)
  /-- R97. Writes a times b plus c, rounded once. -/
  | fmadd (p : Prec) (rm : RM) (rd : Reg) (rs1 : Reg) (rs2 : Reg) (rs3 : Reg)
  /-- R97. Writes a times b minus c, rounded once. -/
  | fmsub (p : Prec) (rm : RM) (rd : Reg) (rs1 : Reg) (rs2 : Reg) (rs3 : Reg)
  /-- R97. Writes minus a times b minus c, rounded once. -/
  | fnmadd (p : Prec) (rm : RM) (rd : Reg) (rs1 : Reg) (rs2 : Reg) (rs3 : Reg)
  /-- R97. Writes minus a times b plus c, rounded once. -/
  | fnmsub (p : Prec) (rm : RM) (rd : Reg) (rs1 : Reg) (rs2 : Reg) (rs3 : Reg)
  /-- R49. Reads a CSR into rd, unless rd is x0, and writes rs1 to it. -/
  | csrrw (rd : Reg) (csr : BitVec 14) (rs1 : Reg)
  /-- R49. Reads a CSR into rd and sets the bits of rs1 in it. -/
  | csrrs (rd : Reg) (csr : BitVec 14) (rs1 : Reg)
  /-- R49. Reads a CSR into rd and clears the bits of rs1 in it. -/
  | csrrc (rd : Reg) (csr : BitVec 14) (rs1 : Reg)
  /-- R102. Retires and then takes the environment-call trap. -/
  | ecall
  /-- R102. Retires and then takes the breakpoint trap. -/
  | ebreak
  /-- R102. Returns from a trap to epc and restores the privilege from ppriv. -/
  | eret
  /-- R102. Drops matching cached translations device-wide and retires when the drop is complete. -/
  | ptflush (rs1 : Reg) (rs2 : Reg)
  /-- R50. Makes observed writes visible to the instruction fetch of the core and its cluster front end. -/
  | icflush
  /-- R102. Does nothing; alignment filler. -/
  | nopSys
  /-- R207. Atomically swaps memory with rs2, returning the old value. -/
  | amoswap (sc : Scope) (o : Order) (wd : AmoWidth) (rd : Reg) (rs1 : Reg) (rs2 : Reg)
  /-- R207. Atomically adds rs2 to memory. -/
  | amoadd (sc : Scope) (o : Order) (wd : AmoWidth) (rd : Reg) (rs1 : Reg) (rs2 : Reg)
  /-- R207. Atomically ANDs rs2 into memory. -/
  | amoand (sc : Scope) (o : Order) (wd : AmoWidth) (rd : Reg) (rs1 : Reg) (rs2 : Reg)
  /-- R207. Atomically ORs rs2 into memory. -/
  | amoor (sc : Scope) (o : Order) (wd : AmoWidth) (rd : Reg) (rs1 : Reg) (rs2 : Reg)
  /-- R207. Atomically XORs rs2 into memory. -/
  | amoxor (sc : Scope) (o : Order) (wd : AmoWidth) (rd : Reg) (rs1 : Reg) (rs2 : Reg)
  /-- R207. Atomically stores the signed lesser value. -/
  | amomin (sc : Scope) (o : Order) (wd : AmoWidth) (rd : Reg) (rs1 : Reg) (rs2 : Reg)
  /-- R207. Atomically stores the signed greater value. -/
  | amomax (sc : Scope) (o : Order) (wd : AmoWidth) (rd : Reg) (rs1 : Reg) (rs2 : Reg)
  /-- R207. Atomically stores the unsigned lesser value. -/
  | amominu (sc : Scope) (o : Order) (wd : AmoWidth) (rd : Reg) (rs1 : Reg) (rs2 : Reg)
  /-- R207. Atomically stores the unsigned greater value. -/
  | amomaxu (sc : Scope) (o : Order) (wd : AmoWidth) (rd : Reg) (rs1 : Reg) (rs2 : Reg)
  /-- R207. Atomically adds an FP value to memory, rounded RNE, writing no flags. -/
  | amofadd (sc : Scope) (o : Order) (wd : AmoWidth) (rd : Reg) (rs1 : Reg) (rs2 : Reg)
  /-- R207. Atomically compares memory with rd and stores rs2 when they are equal. -/
  | amocas (sc : Scope) (o : Order) (wd : AmoWidth) (rd : Reg) (rs1 : Reg) (rs2 : Reg)
  /-- R207. Performs an atomic load at a scope, relaxed or acquire. -/
  | amold (sc : Scope) (o : Order) (wd : AmoWidth) (rd : Reg) (rs1 : Reg)
  /-- R207. Performs an atomic store at a scope, relaxed or release. -/
  | amost (sc : Scope) (o : Order) (wd : AmoWidth) (rs1 : Reg) (rs2 : Reg)
  /-- R207. Atomically keeps the lesser value under the packed weight-and-edge order. -/
  | amominp (sc : Scope) (o : Order) (rd : Reg) (rs1 : Reg) (rs2 : Reg)
  /-- R210. Stalls until the outstanding counts of the named classes fall to their limits, then acquires. -/
  | wait (ld : BitVec 4) (st : BitVec 4) (cp : BitVec 4) (tt : BitVec 4)
  /-- R211. Orders the sequencer's accesses at a scope with acquire, release or both. -/
  | fence (o : FenceOrder) (sc : Scope) (uo : BitVec 1)
  /-- R212. Orders later engine operations of the named queues after earlier ones. -/
  | qfence (queues : BitVec 4) (tt : BitVec 1)
  /-- R197. Drains the counters, unbinds streams, performs the exit decrements and frees the slot and units. -/
  | texit
  /-- R198. Enqueues a copy of a continuation record in the cluster task scheduler. -/
  | tspawn (rs1 : Reg)
  /-- R199. Continues when the join counter is 0, or otherwise yields and enqueues the parent's record as waiting. -/
  | tjoin (rs1 : Reg) (rs2 : Reg)
  /-- R200. Publishes a new high-water in a chain record with release order, closing the chain when it reaches the total. -/
  | hwpub (rs1 : Reg) (rs2 : Reg)
  /-- R203. Rejoins or holds the gang at label L and continues at L. -/
  | gjoin (off : BitVec 21)
  /-- R203. Detaches an attached gang member into private fetch. -/
  | gdetach
  /-- R204. Asks the allocator to add free units to the thread's pending share. -/
  | lgrow (rs1 : Reg)
  /-- R204. Removes units from the pending share, lowers the request and clears the elastic flag. -/
  | lshrink (rs1 : Reg)
  /-- R105. Sets the register allotment and clears all vector and mask registers. -/
  | valloc (n : AllocN)
  /-- R205. Releases at the level's scope and waits for every participant of the level instance. -/
  | bar (level : BitVec 3)
  /-- R206. Performs an atomic arrival on an arrival barrier, advancing its phase on the last arrival. -/
  | arrive (rs1 : Reg)
  /-- R206. Waits until the barrier's phase differs from the given value, then acquires. -/
  | await (rs1 : Reg) (rs2 : Reg)
  /-- R247. Checks and enqueues a Darn relocation job. -/
  | darn (rs1 : Reg)
  /-- R248. Sets cN to whether two pointers finally lead to the same byte after forwarding. -/
  | peq (n : CBit) (rs1 : Reg) (rs2 : Reg)
  /-- R249. Writes the final physical address and the hop count of a pointer's chain. -/
  | fwdres (rd : Reg) (rs1 : Reg)
  /-- R250. Shortens a forwarding chain by rewriting record targets to its end. -/
  | fwdmend (rs1 : Reg)
  /-- R251. Releases the partition's forwarded lines of a source frame to zeroed N lines. -/
  | fwdrel (rs1 : Reg)
  /-- R302. Pops a KV frame from the pool and initialises its header. -/
  | kvalloc (rd : Reg)
  /-- R303. Stages one token's K and V rows in a chain, allocating a new tail page when needed. -/
  | kvapp (vn : Reg) (rs1 : Reg) (rs2 : Reg)
  /-- R304. Publishes tokens by adding to the committed length with release order. -/
  | kvcommit (rs1 : Reg) (rs2 : Reg)
  /-- R305. Binds a stream register to side K of a KV chain and registers the reader. -/
  | sbindkvK (n : BitVec 3) (rs1 : Reg) (rs2 : Reg)
  /-- R305. Binds a stream register to side V of a KV chain and registers the reader. -/
  | sbindkvV (n : BitVec 3) (rs1 : Reg) (rs2 : Reg)
  /-- R312. Checks and enqueues a Mangle eviction job. -/
  | mangle (rs1 : Reg)
  /-- R315. Enqueues a Launder collection pass, at S only. -/
  | launder (rs1 : Reg)
  /-- R104. Waits for earlier vector work, applies the pending lane change, sets vtype and grants a strip. -/
  | setvl (rd : Reg) (rs1 : Reg) (image : BitVec 15)
  /-- R201. Applies the lane change and grants a strip from a chain record, stalling while nothing is published. -/
  | setvlc (rd : Reg) (rs1 : Reg) (image : BitVec 15)
  /-- R108. Element-wise integer add. -/
  | vadd (rep : Rep) (k : KReg) (vd : Reg) (vs1 : Reg) (vs2 : Reg)
  /-- R108. Element-wise integer subtract. -/
  | vsub (rep : Rep) (k : KReg) (vd : Reg) (vs1 : Reg) (vs2 : Reg)
  /-- R108. Element-wise reversed subtract b minus a. -/
  | vrsub (rep : Rep) (k : KReg) (vd : Reg) (vs1 : Reg) (vs2 : Reg)
  /-- R108. Element-wise low product. -/
  | vmul (rep : Rep) (k : KReg) (vd : Reg) (vs1 : Reg) (vs2 : Reg)
  /-- R108. Element-wise signed high product. -/
  | vmulh (rep : Rep) (k : KReg) (vd : Reg) (vs1 : Reg) (vs2 : Reg)
  /-- R108. Element-wise unsigned high product. -/
  | vmulhu (rep : Rep) (k : KReg) (vd : Reg) (vs1 : Reg) (vs2 : Reg)
  /-- R108. Element-wise bitwise AND. -/
  | vand (rep : Rep) (k : KReg) (vd : Reg) (vs1 : Reg) (vs2 : Reg)
  /-- R108. Element-wise bitwise OR. -/
  | vor (rep : Rep) (k : KReg) (vd : Reg) (vs1 : Reg) (vs2 : Reg)
  /-- R108. Element-wise bitwise XOR. -/
  | vxor (rep : Rep) (k : KReg) (vd : Reg) (vs1 : Reg) (vs2 : Reg)
  /-- R108. Element-wise left shift by b mod W. -/
  | vsll (rep : Rep) (k : KReg) (vd : Reg) (vs1 : Reg) (vs2 : Reg)
  /-- R108. Element-wise logical right shift. -/
  | vsrl (rep : Rep) (k : KReg) (vd : Reg) (vs1 : Reg) (vs2 : Reg)
  /-- R108. Element-wise arithmetic right shift. -/
  | vsra (rep : Rep) (k : KReg) (vd : Reg) (vs1 : Reg) (vs2 : Reg)
  /-- R108. Element-wise signed minimum. -/
  | vmin (rep : Rep) (k : KReg) (vd : Reg) (vs1 : Reg) (vs2 : Reg)
  /-- R108. Element-wise signed maximum. -/
  | vmax (rep : Rep) (k : KReg) (vd : Reg) (vs1 : Reg) (vs2 : Reg)
  /-- R108. Element-wise unsigned minimum. -/
  | vminu (rep : Rep) (k : KReg) (vd : Reg) (vs1 : Reg) (vs2 : Reg)
  /-- R108. Element-wise unsigned maximum. -/
  | vmaxu (rep : Rep) (k : KReg) (vd : Reg) (vs1 : Reg) (vs2 : Reg)
  /-- R108. Element-wise signed saturating add. -/
  | vsadd (rep : Rep) (k : KReg) (vd : Reg) (vs1 : Reg) (vs2 : Reg)
  /-- R108. Element-wise unsigned saturating add. -/
  | vsaddu (rep : Rep) (k : KReg) (vd : Reg) (vs1 : Reg) (vs2 : Reg)
  /-- R108. Element-wise signed saturating subtract. -/
  | vssub (rep : Rep) (k : KReg) (vd : Reg) (vs1 : Reg) (vs2 : Reg)
  /-- R108. Element-wise unsigned saturating subtract. -/
  | vssubu (rep : Rep) (k : KReg) (vd : Reg) (vs1 : Reg) (vs2 : Reg)
  /-- R108. Element-wise signed divide. -/
  | vdiv (rep : Rep) (k : KReg) (vd : Reg) (vs1 : Reg) (vs2 : Reg)
  /-- R108. Element-wise unsigned divide. -/
  | vdivu (rep : Rep) (k : KReg) (vd : Reg) (vs1 : Reg) (vs2 : Reg)
  /-- R108. Element-wise signed remainder. -/
  | vrem (rep : Rep) (k : KReg) (vd : Reg) (vs1 : Reg) (vs2 : Reg)
  /-- R108. Element-wise unsigned remainder. -/
  | vremu (rep : Rep) (k : KReg) (vd : Reg) (vs1 : Reg) (vs2 : Reg)
  /-- R108. Writes mask bits for equal elements. -/
  | vcmpeq (rep : Rep) (k : KReg) (kd : KReg) (vs1 : Reg) (vs2 : Reg)
  /-- R108. Writes mask bits for unequal elements. -/
  | vcmpne (rep : Rep) (k : KReg) (kd : KReg) (vs1 : Reg) (vs2 : Reg)
  /-- R108. Writes mask bits for signed less-than. -/
  | vcmplt (rep : Rep) (k : KReg) (kd : KReg) (vs1 : Reg) (vs2 : Reg)
  /-- R108. Writes mask bits for unsigned less-than. -/
  | vcmpltu (rep : Rep) (k : KReg) (kd : KReg) (vs1 : Reg) (vs2 : Reg)
  /-- R108. Writes mask bits for signed less-or-equal. -/
  | vcmple (rep : Rep) (k : KReg) (kd : KReg) (vs1 : Reg) (vs2 : Reg)
  /-- R108. Writes mask bits for unsigned less-or-equal. -/
  | vcmpleu (rep : Rep) (k : KReg) (kd : KReg) (vs1 : Reg) (vs2 : Reg)
  /-- R109. Selects each element from vs2 or vs1 by the mask. -/
  | vmerge (rep : Rep) (k : KReg) (vd : Reg) (vs1 : Reg) (vs2 : Reg)
  /-- R109. Copies vs2, optionally replicated, into vd. -/
  | vmv (rep : Rep) (k : KReg) (vd : Reg) (vs2 : Reg)
  /-- R110. Element-wise FP add rounded in frm. -/
  | vfadd (rep : Rep) (k : KReg) (vd : Reg) (vs1 : Reg) (vs2 : Reg)
  /-- R110. Element-wise FP subtract. -/
  | vfsub (rep : Rep) (k : KReg) (vd : Reg) (vs1 : Reg) (vs2 : Reg)
  /-- R110. Element-wise FP multiply. -/
  | vfmul (rep : Rep) (k : KReg) (vd : Reg) (vs1 : Reg) (vs2 : Reg)
  /-- R110. Element-wise FP divide. -/
  | vfdiv (rep : Rep) (k : KReg) (vd : Reg) (vs1 : Reg) (vs2 : Reg)
  /-- R110. Element-wise FP minimum under R75. -/
  | vfmin (rep : Rep) (k : KReg) (vd : Reg) (vs1 : Reg) (vs2 : Reg)
  /-- R110. Element-wise FP maximum under R75. -/
  | vfmax (rep : Rep) (k : KReg) (vd : Reg) (vs1 : Reg) (vs2 : Reg)
  /-- R110. Element-wise sign injection. -/
  | vfsgnj (rep : Rep) (k : KReg) (vd : Reg) (vs1 : Reg) (vs2 : Reg)
  /-- R110. Element-wise negated sign injection. -/
  | vfsgnjn (rep : Rep) (k : KReg) (vd : Reg) (vs1 : Reg) (vs2 : Reg)
  /-- R110. Element-wise XOR sign injection. -/
  | vfsgnjx (rep : Rep) (k : KReg) (vd : Reg) (vs1 : Reg) (vs2 : Reg)
  /-- R111. Element-wise correctly rounded square root. -/
  | vfsqrt (k : KReg) (vd : Reg) (vs1 : Reg)
  /-- R111. Element-wise correctly rounded reciprocal. -/
  | vfrecip (k : KReg) (vd : Reg) (vs1 : Reg)
  /-- R111. Element-wise reciprocal square root. -/
  | vfrsqrt (k : KReg) (vd : Reg) (vs1 : Reg)
  /-- R111. Element-wise base-2 exponential. -/
  | vfexp2 (k : KReg) (vd : Reg) (vs1 : Reg)
  /-- R111. Element-wise base-2 logarithm. -/
  | vflog2 (k : KReg) (vd : Reg) (vs1 : Reg)
  /-- R111. Element-wise hyperbolic tangent. -/
  | vftanh (k : KReg) (vd : Reg) (vs1 : Reg)
  /-- R111. Element-wise class mask as an integer. -/
  | vfclass (k : KReg) (vd : Reg) (vs1 : Reg)
  /-- R110. Writes mask bits for FP equality. -/
  | vfcmpeq (rep : Rep) (k : KReg) (kd : KReg) (vs1 : Reg) (vs2 : Reg)
  /-- R110. Writes mask bits for FP inequality. -/
  | vfcmpne (rep : Rep) (k : KReg) (kd : KReg) (vs1 : Reg) (vs2 : Reg)
  /-- R110. Writes mask bits for FP less-than. -/
  | vfcmplt (rep : Rep) (k : KReg) (kd : KReg) (vs1 : Reg) (vs2 : Reg)
  /-- R110. Writes mask bits for FP less-or-equal. -/
  | vfcmple (rep : Rep) (k : KReg) (kd : KReg) (vs1 : Reg) (vs2 : Reg)
  /-- R110. Writes mask bits for FP greater-than. -/
  | vfcmpgt (rep : Rep) (k : KReg) (kd : KReg) (vs1 : Reg) (vs2 : Reg)
  /-- R110. Writes mask bits for FP greater-or-equal. -/
  | vfcmpge (rep : Rep) (k : KReg) (kd : KReg) (vs1 : Reg) (vs2 : Reg)
  /-- R118. Writes one E8M0 scale byte per block of 32 elements from the block's largest magnitude. -/
  | vfmaxexp (k : KReg) (vd : Reg) (vs1 : Reg) (rs2 : Reg)
  /-- R112. Element-wise fused a times b plus the destination. -/
  | vfmacc (rep : Rep) (k : KReg) (vd : Reg) (vs1 : Reg) (vs2 : Reg)
  /-- R112. Element-wise fused minus a times b minus the destination. -/
  | vfnmacc (rep : Rep) (k : KReg) (vd : Reg) (vs1 : Reg) (vs2 : Reg)
  /-- R112. Element-wise fused a times b minus the destination. -/
  | vfmsac (rep : Rep) (k : KReg) (vd : Reg) (vs1 : Reg) (vs2 : Reg)
  /-- R112. Element-wise fused minus a times b plus the destination. -/
  | vfnmsac (rep : Rep) (k : KReg) (vd : Reg) (vs1 : Reg) (vs2 : Reg)
  /-- R113. Widening FP16 or BF16 multiply-accumulate into FP32. -/
  | vfwmacc (rep : Rep) (k : KReg) (vd : Reg) (vs1 : Reg) (vs2 : Reg)
  /-- R113. Four-element MX8 dot product accumulated as an exact-window sum into FP32. -/
  | vfdot4 (rep : Rep) (k : KReg) (vd : Reg) (vs1 : Reg) (vs2 : Reg)
  /-- R114. Element-wise L6 product stored as L6. -/
  | vl6mul (rep : Rep) (k : KReg) (vd : Reg) (vs1 : Reg) (vs2 : Reg)
  /-- R113. Four-element L6 dot product into FP32. -/
  | vl6dot (rep : Rep) (k : KReg) (vd : Reg) (vs1 : Reg) (vs2 : Reg)
  /-- R112. Element-wise integer multiply-accumulate. -/
  | vmacc (rep : Rep) (k : KReg) (vd : Reg) (vs1 : Reg) (vs2 : Reg)
  /-- R113. Widening integer multiply-accumulate. -/
  | vwmacc (rep : Rep) (k : KReg) (vd : Reg) (vs1 : Reg) (vs2 : Reg)
  /-- R116. Converts each element from a source FP format to the vtype format. -/
  | vcvt (k : KReg) (vd : Reg) (vs1 : Reg) (src : SrcFmt)
  /-- R116. Converts each signed integer element to the vtype format. -/
  | vcvti (k : KReg) (vd : Reg) (vs1 : Reg) (src : IntWidth)
  /-- R116. Converts each unsigned integer element to the vtype format. -/
  | vcvtu (k : KReg) (vd : Reg) (vs1 : Reg) (src : IntWidth)
  /-- R116. Converts with stochastic rounding from srseed and the element index. -/
  | vcvtsr (k : KReg) (vd : Reg) (vs1 : Reg) (src : SrcFmt)
  /-- R117. Quantises FP32 elements to an MX format by block scales. -/
  | vquant (k : KReg) (vd : Reg) (vs1 : Reg) (vs2 : Reg)
  /-- R117. Dequantises MX elements to FP32 by block scales. -/
  | vdequant (k : KReg) (vd : Reg) (vs1 : Reg) (vs2 : Reg)
  /-- R129. Writes mask kA AND kB. -/
  | kand (kd : KReg) (ka : KReg) (kb : KReg)
  /-- R129. Writes mask kA OR kB. -/
  | kor (kd : KReg) (ka : KReg) (kb : KReg)
  /-- R129. Writes mask kA XOR kB. -/
  | kxor (kd : KReg) (ka : KReg) (kb : KReg)
  /-- R129. Writes mask kA AND NOT kB. -/
  | kandn (kd : KReg) (ka : KReg) (kb : KReg)
  /-- R129. Writes mask NOT kA. -/
  | knot (kd : KReg) (ka : KReg)
  /-- R130. Writes the count of set mask bits below vl to a scalar register. -/
  | kpop (rd : Reg) (ka : KReg)
  /-- R130. Writes the index of the lowest set mask bit, or all ones. -/
  | kfirst (rd : Reg) (ka : KReg)
  /-- R131. Packs the selected elements into the low end of vd. -/
  | vcompress (k : KReg) (vd : Reg) (vs1 : Reg)
  /-- R132. Spreads consecutive source elements to the selected positions. -/
  | vexpand (k : KReg) (vd : Reg) (vs1 : Reg)
  /-- R133. Writes the exclusive prefix count of a mask. -/
  | vprefpop (k : KReg) (vd : Reg) (ka : KReg)
  /-- R134. Writes for each element the latest earlier active element of equal value. -/
  | vconflict (k : KReg) (vd : Reg) (vs1 : Reg)
  /-- R135. Moves elements up by a scalar amount. -/
  | vslideup (k : KReg) (vd : Reg) (vs1 : Reg) (rs2 : Reg)
  /-- R135. Moves elements down by a scalar amount, filling zeros past vl. -/
  | vslidedown (k : KReg) (vd : Reg) (vs1 : Reg) (rs2 : Reg)
  /-- R136. Gathers elements of vs1 by the indices in vs2. -/
  | vrgather (k : KReg) (vd : Reg) (vs1 : Reg) (vs2 : Reg)
  /-- R137. Writes each element's index. -/
  | vid (k : KReg) (vd : Reg)
  /-- R137. Writes a scalar register into element 0. -/
  | vmvx (d : Reg) (src : Reg)
  /-- R137. Writes element 0 into a scalar register. -/
  | vmvxs (d : Reg) (src : Reg)
  /-- R139. Folds active elements and the start value by integer sum. -/
  | vredsum (k : KReg) (vd : Reg) (vs1 : Reg) (vs2 : Reg)
  /-- R139. Folds by signed minimum. -/
  | vredmin (k : KReg) (vd : Reg) (vs1 : Reg) (vs2 : Reg)
  /-- R139. Folds by signed maximum. -/
  | vredmax (k : KReg) (vd : Reg) (vs1 : Reg) (vs2 : Reg)
  /-- R139. Folds by unsigned minimum. -/
  | vredminu (k : KReg) (vd : Reg) (vs1 : Reg) (vs2 : Reg)
  /-- R139. Folds by unsigned maximum. -/
  | vredmaxu (k : KReg) (vd : Reg) (vs1 : Reg) (vs2 : Reg)
  /-- R139. Folds by bitwise AND. -/
  | vredand (k : KReg) (vd : Reg) (vs1 : Reg) (vs2 : Reg)
  /-- R139. Folds by bitwise OR. -/
  | vredor (k : KReg) (vd : Reg) (vs1 : Reg) (vs2 : Reg)
  /-- R139. Folds by bitwise XOR. -/
  | vredxor (k : KReg) (vd : Reg) (vs1 : Reg) (vs2 : Reg)
  /-- R140. Sums active elements and the start value as one exact-window sum. -/
  | vfredsum (k : KReg) (vd : Reg) (vs1 : Reg) (vs2 : Reg)
  /-- R141. Sums active elements into a paired FP32 accumulator. -/
  | vfredsum2 (k : KReg) (vd : Reg) (vs1 : Reg) (vs2 : Reg)
  /-- R140. Folds by FP minimum. -/
  | vfredmin (k : KReg) (vd : Reg) (vs1 : Reg) (vs2 : Reg)
  /-- R140. Folds by FP maximum. -/
  | vfredmax (k : KReg) (vd : Reg) (vs1 : Reg) (vs2 : Reg)
  /-- R143. Merges a candidate block into a sorted running top list. -/
  | vtopk (k : KReg) (vd : Reg) (vs1 : Reg) (vs2 : Reg)
  /-- R142. Segmented integer inclusive scan under a head mask. -/
  | vsegscan (k : KReg) (vd : Reg) (vs1 : Reg) (kh : KReg)
  /-- R142. Segmented FP scan, each output one exact-window sum. -/
  | vfsegscan (k : KReg) (vd : Reg) (vs1 : Reg) (kh : KReg)
  /-- R144. Compares byte strings element-wise in dictionary order. -/
  | vbcmp (k : KReg) (vd : Reg) (vs1 : Reg) (vs2 : Reg)
  /-- R144. Writes mask bits for case-folded byte-string equality. -/
  | vbeq (k : KReg) (kd : KReg) (vs1 : Reg) (vs2 : Reg)
  /-- R144. Finds the first byte position matching a byte. -/
  | vbfind (k : KReg) (vd : Reg) (vs1 : Reg) (vs2 : Reg)
  /-- R145. Hashes 64-bit elements with Qmix64. -/
  | vqmix (rep : Rep) (k : KReg) (vd : Reg) (vs1 : Reg) (vs2 : Reg)
  /-- R147. Folds key-value pairs into a scratchpad hash table, stopping with the table-full trap. -/
  | vhacc (k : KReg) (vd : Reg) (vs1 : Reg) (vs2 : Reg)
  /-- R148. Advances a bit-parallel pattern automaton per element by one byte. -/
  | vnfa (k : KReg) (vd : Reg) (vs1 : Reg) (vs2 : Reg)
  /-- R309. Adds probabilities to the mass counters of the last popped KV tokens. -/
  | vkvmass (k : KReg) (vs1 : Reg) (vn : Reg)
  /-- R308. Writes the original positions or scale bytes of the last popped KV tokens. -/
  | vkvpos (k : KReg) (vd : Reg) (vn : Reg)
  /-- R122. Unit-stride vector load, stopping at the first faulting element. -/
  | vld (k : KReg) (v : Reg) (rs1 : Reg)
  /-- R122. Strided vector load. -/
  | vlds (k : KReg) (v : Reg) (rs1 : Reg) (rs2 : Reg)
  /-- R122. Ordered indexed vector load. -/
  | vldxo (iw : IdxWidth) (k : KReg) (v : Reg) (rs1 : Reg) (vs2 : Reg)
  /-- R122. Unordered indexed vector load. -/
  | vldx (iw : IdxWidth) (k : KReg) (v : Reg) (rs1 : Reg) (vs2 : Reg)
  /-- R124. Loads a mask register from memory. -/
  | vldk (kd : KReg) (rs1 : Reg)
  /-- R125. Loads one whole register of VLEN bits. -/
  | vldw (v : Reg) (rs1 : Reg)
  /-- R122. Unit-stride vector store. -/
  | vst (k : KReg) (v : Reg) (rs1 : Reg)
  /-- R122. Strided vector store. -/
  | vsts (k : KReg) (v : Reg) (rs1 : Reg) (rs2 : Reg)
  /-- R122. Ordered indexed vector store. -/
  | vstxo (iw : IdxWidth) (k : KReg) (v : Reg) (rs1 : Reg) (vs2 : Reg)
  /-- R122. Unordered indexed vector store. -/
  | vstx (iw : IdxWidth) (k : KReg) (v : Reg) (rs1 : Reg) (vs2 : Reg)
  /-- R124. Stores a mask register to memory. -/
  | vstk (kd : KReg) (rs1 : Reg)
  /-- R125. Stores one whole register of VLEN bits. -/
  | vstw (v : Reg) (rs1 : Reg)
  /-- R127. Vector atomic add, element by element in index order. -/
  | vamoadd (mode : VamoMode) (k : KReg) (vs3 : Reg) (rs1 : Reg) (rs2 : Reg)
  /-- R127. Vector atomic AND. -/
  | vamoand (mode : VamoMode) (k : KReg) (vs3 : Reg) (rs1 : Reg) (rs2 : Reg)
  /-- R127. Vector atomic OR. -/
  | vamoor (mode : VamoMode) (k : KReg) (vs3 : Reg) (rs1 : Reg) (rs2 : Reg)
  /-- R127. Vector atomic XOR. -/
  | vamoxor (mode : VamoMode) (k : KReg) (vs3 : Reg) (rs1 : Reg) (rs2 : Reg)
  /-- R127. Vector atomic signed minimum. -/
  | vamomin (mode : VamoMode) (k : KReg) (vs3 : Reg) (rs1 : Reg) (rs2 : Reg)
  /-- R127. Vector atomic signed maximum. -/
  | vamomax (mode : VamoMode) (k : KReg) (vs3 : Reg) (rs1 : Reg) (rs2 : Reg)
  /-- R127. Vector atomic unsigned minimum. -/
  | vamominu (mode : VamoMode) (k : KReg) (vs3 : Reg) (rs1 : Reg) (rs2 : Reg)
  /-- R127. Vector atomic unsigned maximum. -/
  | vamomaxu (mode : VamoMode) (k : KReg) (vs3 : Reg) (rs1 : Reg) (rs2 : Reg)
  /-- R127. Vector atomic swap. -/
  | vamoswap (mode : VamoMode) (k : KReg) (vs3 : Reg) (rs1 : Reg) (rs2 : Reg)
  /-- R127. Vector atomic FP32 add. -/
  | vamofadd (mode : VamoMode) (k : KReg) (vs3 : Reg) (rs1 : Reg) (rs2 : Reg)
  /-- R115. Unmasked element-wise fused a times b plus vs3. -/
  | vfmadd (vd : Reg) (vs1 : Reg) (vs2 : Reg) (vs3 : Reg)
  /-- R115. Unmasked element-wise fused a times b minus vs3. -/
  | vfmsub (vd : Reg) (vs1 : Reg) (vs2 : Reg) (vs3 : Reg)
  /-- R115. Unmasked element-wise fused minus a times b minus vs3. -/
  | vfnmadd (vd : Reg) (vs1 : Reg) (vs2 : Reg) (vs3 : Reg)
  /-- R115. Unmasked element-wise fused minus a times b plus vs3. -/
  | vfnmsub (vd : Reg) (vs1 : Reg) (vs2 : Reg) (vs3 : Reg)
  /-- R115. Bitwise select of a and b under c. -/
  | vbsel (vd : Reg) (vs1 : Reg) (vs2 : Reg) (vs3 : Reg)
  /-- R115. Unmasked element-wise integer a times b plus vs3. -/
  | vmadd (vd : Reg) (vs1 : Reg) (vs2 : Reg) (vs3 : Reg)
  /-- R257. Checks a tensor-copy descriptor, clears its status and enqueues it in a copy queue. -/
  | tcopy (q : BitVec 2) (rs1 : Reg)
  /-- R258. Enqueues a one-dimensional byte copy in a copy queue. -/
  | copy1d (q : BitVec 2) (rd : Reg) (rs1 : Reg) (rs2 : Reg)
  /-- R268. Binds a stream register v24 to v31 to a stream descriptor. -/
  | sbind (n : BitVec 3) (rs1 : Reg)
  /-- R273. Ends a stream binding after its writes have performed. -/
  | sunbind (n : BitVec 3)
  /-- R286. Enqueues a tile task with the record's own operation, snapshotting the tile configuration. -/
  | tqtile (rs1 : Reg)
  /-- R286. Enqueues a one-stage tile task. -/
  | mstage (rs1 : Reg)
  /-- R286. Enqueues a chained-stage tile task. -/
  | mchain (rs1 : Reg)
  /-- R286. Enqueues a dense-tile task. -/
  | mdense (rs1 : Reg)
  /-- R286. Enqueues a task loading rows into the accumulator store. -/
  | mload (rs1 : Reg)
  /-- R286. Enqueues a task storing accumulator rows to the scratchpad. -/
  | mstore (rs1 : Reg)
  /-- R286. Enqueues a task zeroing accumulator entries. -/
  | mzero (rs1 : Reg)
  /-- R347. Writes a program mark record to the trace ring when enabled. -/
  | tmark (rs1 : Reg) (imm : BitVec 16)
  /-- R329. Supervisor CSR write of vtype sets the image and derives vill, without a lane change. -/
  | vtypeWrite (v : Word)
  /-- R329. Supervisor CSR write of vl, trapping above vlmax. -/
  | vlWrite (v : Word)
  /-- R24. Write of vstart sets the resume element and marks the vector state dirty. -/
  | vstartWrite (v : Word)
  /-- R105. Supervisor CSR write of valloc acts as valloc without changing vstate. -/
  | vallocWrite (v : Word)
  /-- R27. Supervisor write of vstate sets the lazy vector-state code. -/
  | vstateWrite (v : Word)
  /-- R18. Write of lpcntN replaces an active level's remaining count. -/
  | lpcntWrite (n : Fin 6) (v : Word)
  /-- R18. Supervisor write of lpidxN replaces an active level's index. -/
  | lpidxWrite (n : Fin 6) (v : Word)
  /-- R18. Supervisor write of lpdepth restores the loop depth, trapping above 6. -/
  | lpdepthWrite (v : Word)
  /-- R18. Supervisor write of a loop start PC, trapping on misalignment. -/
  | lpbegWrite (n : Fin 6) (v : Word)
  /-- R18. Supervisor write of a loop end PC, trapping on misalignment. -/
  | lpendWrite (n : Fin 6) (v : Word)
  /-- R203. Write of the gjoin timeout, trapping on nonzero upper bits. -/
  | gjtimeoutWrite (v : Word)
  /-- R30. Write of the rounding mode, trapping on codes 5 to 7. -/
  | frmWrite (v : Word)
  /-- R28. Supervisor write of status.ppriv, trapping on values 2 and 3. -/
  | statusWrite (v : Word)
  /-- R226. Write of ptbase waits for earlier accesses and switches translation without flushing. -/
  | ptbaseWrite (v : Word)
  /-- R226. Write of asid waits for earlier accesses and switches the address space. -/
  | asidWrite (v : Word)
  /-- R233. Write of heatbase with en set reads and checks the heat descriptor. -/
  | heatbaseWrite (v : Word)
  /-- R296. Write of kvmbase with en set reads and checks the KV descriptor. -/
  | kvmbaseWrite (v : Word)
  /-- R336. Supervisor write of ones to lanemap retires lanes. -/
  | lanemapWrite (v : Word)
  /-- R274. Supervisor write of sdescN binds a stream as sbind does, or discards it when 0. -/
  | sdescWrite (n : Fin 8) (v : Word)
  /-- R274. Supervisor write of sposN drops buffered elements and sets the stream position. -/
  | sposWrite (n : Fin 8) (v : Word)
  /-- R310. Supervisor write of skvN sets a KV binding position for restore. -/
  | skvWrite (n : Fin 8) (v : Word)
  /-- R323. Supervisor posts a pre-emption request to a core and slot. -/
  | pmreqWrite (v : Word)
  /-- R331. Ends the thread, keeping its hierarchy, and requeues a bound continuation record for this core and slot. -/
  | tleaveWrite (v : Word)
  /-- R332. Supervisor write of the cluster-scope exit counter, trapping on misalignment. -/
  | xjoinWrite (v : Word)
  /-- R332. Supervisor write of the system-scope exit counter, trapping on misalignment. -/
  | xdoneWrite (v : Word)
  /-- R332. A read of ttres pops the next stopped tile-task record address. -/
  | ttresRead (rd : Reg)
  /-- R338. Write of trace control; enabling reads and checks the ring descriptor. -/
  | trctlWrite (v : Word)
  /-- R346. Write of replay control selects log or replay mode after its checks. -/
  | rpctlWrite (v : Word)
  /-- R164. A start record is admitted whole, placing and starting all its threads. -/
  | startRecordAdmission (p : PartId)
  /-- R169. The cluster task scheduler picks one ready record per cycle and places it on a core. -/
  | ctsPick (cl : ClusterId)
  /-- R169. A record that has waited 2^16 cycles moves to the next higher priority level. -/
  | recordAging (cl : ClusterId) (idx : Nat)
  /-- R170. The CTS rereads a waiting continuation's join counter and readies it at 0. -/
  | joinCounterReread (cl : ClusterId) (idx : Nat)
  /-- R159. Expiry of gjtimeout ends a gjoin hold or wait. -/
  | gjoinTimeout (q : SeqId)
  /-- R159. Detached members re-attach when the gang stream reaches the awaited label. -/
  | gjoinRejoin (cl : ClusterId) (stream : Fin 4)
  /-- R205. All participants have arrived at bar, and each acquires and continues. -/
  | barrierRelease (launch : Nat) (participant : Nat) (level : BitVec 3)
  /-- R206. A waiting await observes a new barrier phase and retires. -/
  | awaitPhaseChange (q : SeqId)
  /-- R210. A stalled wait observes its counts met and retires with acquire effect. -/
  | waitConditionMet (q : SeqId)
  /-- R172. A stalled setvlc rereads the chain record after hw changes and grants. -/
  | setvlcResume (q : SeqId)
  /-- R208. A completion frees capacity and a stalled issue of that class proceeds. -/
  | issueCapacityFreed (q : SeqId)
  /-- R168. Space frees in a spill slice and a stalled enqueue proceeds. -/
  | spillSpaceFreed (q : SeqId)
  /-- R247. A job slot frees and a stalled darn or mangle enqueues. -/
  | jobQueueRoom (q : SeqId)
  /-- R270. A stream transfer fills elements, and a stalled reading instruction proceeds. -/
  | streamFill (q : SeqId)
  /-- R325. A pending request is taken as trap 18 at the next pre-emption point, stopping the thread's tile tasks. -/
  | preemptionTaken (q : SeqId)
  /-- R264. A copy ends: writes performed, pins released, status written, signal made, failure recorded. -/
  | copyOperationEnd (c : CoreId) (idx : Nat) (upto : Nat)
  /-- R287. The CTS reads a tile task's awaits and marks it ready, or stops it on a fault. -/
  | tileTaskReady (cl : ClusterId) (idx : Nat)
  /-- R287. A ready tile task is placed on a free engine and checked. -/
  | tileTaskStart (cl : ClusterId) (idx : Nat)
  /-- R291. A tile task ends done, refused or stopped, with writes, signal and status in order. -/
  | tileTaskEnd (cl : ClusterId) (idx : Nat) (upto : Nat)
  /-- R241. An access arriving at a line's home agent is performed, held or reissued by the line's mark. -/
  | homeAgentAccess (line : Nat)
  /-- R244. Darn moves one line: marks it in transit, copies it, writes the record and sets F. -/
  | darnLineMove (p : PartId)
  /-- R245. Darn writes the job status and decrements joinctr with release order. -/
  | darnJobEnd (p : PartId)
  /-- R314. Mangle decays masses, holds a run of pages, copies survivors to fresh frames and swaps the link. -/
  | mangleRun (p : PartId)
  /-- R312. Mangle writes the job status and decrements joinctr. -/
  | mangleJobEnd (p : PartId)
  /-- R315. Launder advances the phase, marks, mends, sweeps and frees KV frames. -/
  | launderPass (p : PartId)
  /-- R228. L1 writes back the bytes its core wrote in a line, at any time. -/
  | l1Writeback (c : CoreId) (line : Nat)
  /-- R339. The ring writer publishes head with release order when records are left unpublished for too long. -/
  | traceHeadPublish (c : CoreId)
  /-- R344. The sampling counter wraps, setting ovf and, in a debug session, freezing issue and writing a sample. -/
  | sampleCounterWrap (q : SeqId)
  /-- R346. A replayed pick not made within 2^20 cycles sets div and ends replay. -/
  | replayDivergence (cl : ClusterId)
  /-- R355. The partition watchdog expires without progress and causes a partition-fatal discard. -/
  | watchdogExpiry (p : PartId)
  /-- R333. An uncorrectable error in hidden partition state discards the partition. -/
  | uncorrectableStateError (p : PartId)
  /-- R335. The management controller retires a lane after an uncorrectable or repeated corrected error. -/
  | laneRetire (c : CoreId) (lane : Fin 64)
  /-- R352. A host write of a queue producer index makes records available or is ignored and logged. -/
  | qpiWrite (p : PartId) (queue : Fin 8) (v : BitVec 32)
  /-- R355. PCTL.reset stops admission, discards work and clears the partition's state. -/
  | partitionReset (p : PartId)
  /-- R355. A PCIe function-level reset resets the partition as PCTL.reset does. -/
  | functionLevelReset (p : PartId)
  /-- R355. The reset completes and PSTAT.state returns to idle. -/
  | partitionResetDone (p : PartId)
  /-- R345. PCTL.flush spills every profile entry of the partition. -/
  | profileFlush (p : PartId)
  /-- R351. The host posts a pre-emption request to a core and slot. -/
  | hpmreqWrite (p : PartId) (v : Word)
  /-- R353. A write of FLOG reads and checks the fault-log ring descriptor. -/
  | flogWrite (p : PartId) (v : Word)
  /-- R353. A write of PROF reads and checks the profile ring descriptor. -/
  | profWrite (p : PartId) (v : Word)
  /-- R168. A write of SPILL sets the spill region, ignored unless the partition is idle and empty. -/
  | spillWrite (p : PartId) (v : Word)
  /-- R356. The PF writes a core's owner; the change waits until the core is drained. -/
  | passignWrite (c : CoreId) (v : Word)
  /-- R356. A drained core changes owner, clearing scratchpad, accumulator and trace registers. -/
  | coreOwnerChange (c : CoreId)
  /-- R357. The PF places partitions in or out of single-tenant debug sessions. -/
  | dbgsessWrite (v : Word)
  /-- R363. The PF sets the package power limit, ignoring values out of range. -/
  | pwrlimWrite (v : Word)
  /-- R360. The host asks the controller to release a capacity-tier extent. -/
  | extrelWrite (v : Word)
  /-- R360. After draining, the extent returns to the fabric and kind 4 is logged. -/
  | extentReleaseDone
  /-- R360. A fabric-manager offer of an extent is assigned to a partition or declined. -/
  | extentOffer (units : Nat) (shared : Bool)
  /-- R350. A host write of a BAR0 register with no behaviour of its own. -/
  | bar0RegisterWrite (p : PartId) (off : Nat) (dword : Bool) (v : Word)
  /-- R350. A host read through BAR2 is translated and performed at system scope or refused. -/
  | bar2HostRead (p : PartId) (addr : Word) (len : Nat)
  /-- R350. A host write through BAR2 is translated and performed at system scope or dropped. -/
  | bar2HostWrite (p : PartId) (addr : Word) (data : List Byte)
  /-- R359. A request from a peer device is admitted or refused by the PEERS mask. -/
  | peerRequest (p : PartId) (peer : Fin 32) (addr : Word) (len : Nat) (data : List Byte)
  /-- R358. A Kolnar Link port fails, failing requests that no other port carries. -/
  | kolnarPortDown (port : Nat)
  /-- R235. A host ATS invalidation request drops cached host translations. -/
  | atsInvalidation (p : PartId) (addr : Word)
  /-- R235. A PRI page response lets a waiting host-memory access proceed or fault. -/
  | priPageResponse (q : SeqId) (ok : Bool)
  /-- R235. Expiry of the PCIe completion timeout raises the access fault. -/
  | pcieCompletionTimeout (q : SeqId)
  /-- R361. Release of PERST# runs bring-up, recording progress in BSTAT. -/
  | perstRelease
  /-- R362. A firmware image staged through the PF takes effect at the next reset after checks. -/
  | firmwareUpdateStage
  /-- R362. SPDM request answered with the supported version. -/
  | getVersion
  /-- R362. SPDM request answered with the capabilities. -/
  | getCapabilities
  /-- R362. SPDM request offering ML-DSA-87 and SHA3-512 only. -/
  | negotiateAlgorithms
  /-- R362. SPDM request answered with certificate digests for slot 0. -/
  | getDigests
  /-- R362. SPDM request answered with the slot 0 certificate. -/
  | getCertificate
  /-- R362. SPDM challenge answered with a signature by the device identity key. -/
  | challenge
  /-- R362. SPDM request answered with the ROM, controller image and fuse measurements. -/
  | getMeasurements
  /-- R363. Each millisecond, package power is compared with the limit and idle cycles are inserted or removed. -/
  | powerCheck
  /-- R364. A junction temperature of 100 degrees C forces throttling. -/
  | thermalThrottle
  /-- R364. At 110 degrees C every partition is discarded and the device stops issuing. -/
  | thermalTrip
  /-- R34. A fetched word that matches no assigned instruction (major 0x00, reserved majors, unassigned function codes or nonzero reserved bits) raises the illegal-instruction trap with etval set to the word. -/
  | illegalInstruction (w : IWord)
  /-- R319. A fault on fetching the instruction word at PC raises a fetch fault (codes 7 to 11) with epc and etval set to that address. -/
  | instructionFetchFault (cause : Nat) (addr : Word)
  /-- R361. Assertion of PERST#, or removal of the rails, puts the whole device into its reset state, with every register at its Reset value and lane retirements cleared. -/
  | deviceReset
  /-- R354. A host write that unmasks an MSI-X vector sends the message whose pending bit is set. -/
  | msixVectorUnmask (p : PartId) (vec : Fin 4)
  /-- R345. In each cycle, every slot of a profiled partition adds 1 to its profile-table entry, spilling a conflicting entry or adding to lost when the buffer is full. -/
  | profileCycleCount (p : PartId)
  deriving DecidableEq, Repr, Inhabited

end Sys2Proof
end

