-- ==== Sys2Proof/WellFormed.lean ====
section
/-! DEFINITION. The well-formed instructions: those that an encoding of chapter 03 can hold. The operand types
already exclude most reserved values, so few constructors carry a check. -/

namespace Sys2Proof

/-- The checks that the operand types do not make (R45, R46, R51, R52, R58, R61). -/
def Instr.wf : Instr → Bool
  | .add .. => true
  | .sub .. => true
  | .and .. => true
  | .or .. => true
  | .xor .. => true
  | .andn .. => true
  | .sll .. => true
  | .srl .. => true
  | .sra .. => true
  | .mul .. => true
  | .mulh .. => true
  | .mulhu .. => true
  | .mulhsu .. => true
  | .div .. => true
  | .divu .. => true
  | .rem .. => true
  | .remu .. => true
  | .min .. => true
  | .max .. => true
  | .minu .. => true
  | .maxu .. => true
  | .clz .. => true
  | .ctz .. => true
  | .pop .. => true
  | .bswap .. => true
  | .sh1add .. => true
  | .sh2add .. => true
  | .sh3add .. => true
  | .rotl .. => true
  | .rotr .. => true
  | .addi .. => true
  | .andi .. => true
  | .ori .. => true
  | .xori .. => true
  | .ldhi .. => true
  | .pcadd .. => true
  | .slli .. => true
  | .srli .. => true
  | .srai .. => true
  | .rotli .. => true
  | .ldB .. => true
  | .ldH .. => true
  | .ldW .. => true
  | .ldD .. => true
  | .ldBu .. => true
  | .ldHu .. => true
  | .ldWu .. => true
  | .stB .. => true
  | .stH .. => true
  | .stW .. => true
  | .stD .. => true
  | .bt .. => true
  | .bf .. => true
  | .bs .. => true
  | .jal .. => true
  | .jalr .. => true
  | .cmpeq .. => true
  | .cmpne .. => true
  | .cmplt .. => true
  | .cmpge .. => true
  | .cmpltu .. => true
  | .cmpgeu .. => true
  | .cand .. => true
  | .cor .. => true
  | .cxor .. => true
  | .candn .. => true
  | .cget .. => true
  | .cmpeqi .. => true
  | .cmpnei .. => true
  | .cmplti .. => true
  | .cmpgei .. => true
  | .cmpltui .. => true
  | .cmpgeui .. => true
  | .cmpgti .. => true
  | .cmplei .. => true
  | .loop _ endOff => endOff != 0
  | .loopi _ endOff => endOff != 0
  | .loopBackEdge => true
  | .fadd .. => true
  | .fsub .. => true
  | .fmul .. => true
  | .fdiv .. => true
  | .fsqrt .. => true
  | .fmin .. => true
  | .fmax .. => true
  | .fsgnj .. => true
  | .fsgnjn .. => true
  | .fsgnjx .. => true
  | .ftol .. => true
  | .ftolu .. => true
  | .ftow .. => true
  | .ftowu .. => true
  | .ltof .. => true
  | .lutof .. => true
  | .fprec .. => true
  | .fclass .. => true
  | .feq .. => true
  | .flt .. => true
  | .fle .. => true
  | .fadd2 .. => true
  | .fmadd .. => true
  | .fmsub .. => true
  | .fnmadd .. => true
  | .fnmsub .. => true
  | .csrrw .. => true
  | .csrrs .. => true
  | .csrrc .. => true
  | .ecall => true
  | .ebreak => true
  | .eret => true
  | .ptflush .. => true
  | .icflush => true
  | .nopSys => true
  | .amoswap .. => true
  | .amoadd .. => true
  | .amoand .. => true
  | .amoor .. => true
  | .amoxor .. => true
  | .amomin .. => true
  | .amomax .. => true
  | .amominu .. => true
  | .amomaxu .. => true
  | .amofadd .. => true
  | .amocas .. => true
  | .amold _ o _ _ _ => !o.releases
  | .amost _ o _ _ _ => !o.acquires
  | .amominp .. => true
  | .wait .. => true
  | .fence .. => true
  | .qfence queues tt => queues != 0 || tt != 0
  | .texit => true
  | .tspawn .. => true
  | .tjoin .. => true
  | .hwpub .. => true
  | .gjoin .. => true
  | .gdetach => true
  | .lgrow .. => true
  | .lshrink .. => true
  | .valloc .. => true
  | .bar .. => true
  | .arrive .. => true
  | .await .. => true
  | .darn .. => true
  | .peq .. => true
  | .fwdres .. => true
  | .fwdmend .. => true
  | .fwdrel .. => true
  | .kvalloc .. => true
  | .kvapp .. => true
  | .kvcommit .. => true
  | .sbindkvK .. => true
  | .sbindkvV .. => true
  | .mangle .. => true
  | .launder .. => true
  | .setvl .. => true
  | .setvlc .. => true
  | .vadd .. => true
  | .vsub .. => true
  | .vrsub .. => true
  | .vmul .. => true
  | .vmulh .. => true
  | .vmulhu .. => true
  | .vand .. => true
  | .vor .. => true
  | .vxor .. => true
  | .vsll .. => true
  | .vsrl .. => true
  | .vsra .. => true
  | .vmin .. => true
  | .vmax .. => true
  | .vminu .. => true
  | .vmaxu .. => true
  | .vsadd .. => true
  | .vsaddu .. => true
  | .vssub .. => true
  | .vssubu .. => true
  | .vdiv .. => true
  | .vdivu .. => true
  | .vrem .. => true
  | .vremu .. => true
  | .vcmpeq .. => true
  | .vcmpne .. => true
  | .vcmplt .. => true
  | .vcmpltu .. => true
  | .vcmple .. => true
  | .vcmpleu .. => true
  | .vmerge _ k _ _ _ => k != 0
  | .vmv .. => true
  | .vfadd .. => true
  | .vfsub .. => true
  | .vfmul .. => true
  | .vfdiv .. => true
  | .vfmin .. => true
  | .vfmax .. => true
  | .vfsgnj .. => true
  | .vfsgnjn .. => true
  | .vfsgnjx .. => true
  | .vfsqrt .. => true
  | .vfrecip .. => true
  | .vfrsqrt .. => true
  | .vfexp2 .. => true
  | .vflog2 .. => true
  | .vftanh .. => true
  | .vfclass .. => true
  | .vfcmpeq .. => true
  | .vfcmpne .. => true
  | .vfcmplt .. => true
  | .vfcmple .. => true
  | .vfcmpgt .. => true
  | .vfcmpge .. => true
  | .vfmaxexp .. => true
  | .vfmacc .. => true
  | .vfnmacc .. => true
  | .vfmsac .. => true
  | .vfnmsac .. => true
  | .vfwmacc .. => true
  | .vfdot4 .. => true
  | .vl6mul .. => true
  | .vl6dot .. => true
  | .vmacc .. => true
  | .vwmacc .. => true
  | .vcvt .. => true
  | .vcvti .. => true
  | .vcvtu .. => true
  | .vcvtsr .. => true
  | .vquant .. => true
  | .vdequant .. => true
  | .kand .. => true
  | .kor .. => true
  | .kxor .. => true
  | .kandn .. => true
  | .knot .. => true
  | .kpop .. => true
  | .kfirst .. => true
  | .vcompress .. => true
  | .vexpand .. => true
  | .vprefpop .. => true
  | .vconflict .. => true
  | .vslideup .. => true
  | .vslidedown .. => true
  | .vrgather .. => true
  | .vid .. => true
  | .vmvx .. => true
  | .vmvxs .. => true
  | .vredsum .. => true
  | .vredmin .. => true
  | .vredmax .. => true
  | .vredminu .. => true
  | .vredmaxu .. => true
  | .vredand .. => true
  | .vredor .. => true
  | .vredxor .. => true
  | .vfredsum .. => true
  | .vfredsum2 .. => true
  | .vfredmin .. => true
  | .vfredmax .. => true
  | .vtopk .. => true
  | .vsegscan .. => true
  | .vfsegscan .. => true
  | .vbcmp .. => true
  | .vbeq .. => true
  | .vbfind .. => true
  | .vqmix .. => true
  | .vhacc .. => true
  | .vnfa .. => true
  | .vkvmass .. => true
  | .vkvpos .. => true
  | .vld .. => true
  | .vlds .. => true
  | .vldxo .. => true
  | .vldx .. => true
  | .vldk .. => true
  | .vldw .. => true
  | .vst .. => true
  | .vsts .. => true
  | .vstxo .. => true
  | .vstx .. => true
  | .vstk .. => true
  | .vstw .. => true
  | .vamoadd mode _ _ _ rs2 => mode != .unit || rs2 == 0
  | .vamoand mode _ _ _ rs2 => mode != .unit || rs2 == 0
  | .vamoor mode _ _ _ rs2 => mode != .unit || rs2 == 0
  | .vamoxor mode _ _ _ rs2 => mode != .unit || rs2 == 0
  | .vamomin mode _ _ _ rs2 => mode != .unit || rs2 == 0
  | .vamomax mode _ _ _ rs2 => mode != .unit || rs2 == 0
  | .vamominu mode _ _ _ rs2 => mode != .unit || rs2 == 0
  | .vamomaxu mode _ _ _ rs2 => mode != .unit || rs2 == 0
  | .vamoswap mode _ _ _ rs2 => mode != .unit || rs2 == 0
  | .vamofadd mode _ _ _ rs2 => mode != .unit || rs2 == 0
  | .vfmadd .. => true
  | .vfmsub .. => true
  | .vfnmadd .. => true
  | .vfnmsub .. => true
  | .vbsel .. => true
  | .vmadd .. => true
  | .tcopy .. => true
  | .copy1d .. => true
  | .sbind .. => true
  | .sunbind .. => true
  | .tqtile .. => true
  | .mstage .. => true
  | .mchain .. => true
  | .mdense .. => true
  | .mload .. => true
  | .mstore .. => true
  | .mzero .. => true
  | .tmark .. => true
  | .vtypeWrite .. => true
  | .vlWrite .. => true
  | .vstartWrite .. => true
  | .vallocWrite .. => true
  | .vstateWrite .. => true
  | .lpcntWrite .. => true
  | .lpidxWrite .. => true
  | .lpdepthWrite .. => true
  | .lpbegWrite .. => true
  | .lpendWrite .. => true
  | .gjtimeoutWrite .. => true
  | .frmWrite .. => true
  | .statusWrite .. => true
  | .ptbaseWrite .. => true
  | .asidWrite .. => true
  | .heatbaseWrite .. => true
  | .kvmbaseWrite .. => true
  | .lanemapWrite .. => true
  | .sdescWrite .. => true
  | .sposWrite .. => true
  | .skvWrite .. => true
  | .pmreqWrite .. => true
  | .tleaveWrite .. => true
  | .xjoinWrite .. => true
  | .xdoneWrite .. => true
  | .ttresRead .. => true
  | .trctlWrite .. => true
  | .rpctlWrite .. => true
  | .startRecordAdmission .. => true
  | .ctsPick .. => true
  | .recordAging .. => true
  | .joinCounterReread .. => true
  | .gjoinTimeout .. => true
  | .gjoinRejoin .. => true
  | .barrierRelease .. => true
  | .awaitPhaseChange .. => true
  | .waitConditionMet .. => true
  | .setvlcResume .. => true
  | .issueCapacityFreed .. => true
  | .spillSpaceFreed .. => true
  | .jobQueueRoom .. => true
  | .streamFill .. => true
  | .preemptionTaken .. => true
  | .copyOperationEnd .. => true
  | .tileTaskReady .. => true
  | .tileTaskStart .. => true
  | .tileTaskEnd .. => true
  | .homeAgentAccess .. => true
  | .darnLineMove .. => true
  | .darnJobEnd .. => true
  | .mangleRun .. => true
  | .mangleJobEnd .. => true
  | .launderPass .. => true
  | .l1Writeback .. => true
  | .traceHeadPublish .. => true
  | .sampleCounterWrap .. => true
  | .replayDivergence .. => true
  | .watchdogExpiry .. => true
  | .uncorrectableStateError .. => true
  | .laneRetire .. => true
  | .qpiWrite .. => true
  | .partitionReset .. => true
  | .functionLevelReset .. => true
  | .partitionResetDone .. => true
  | .profileFlush .. => true
  | .hpmreqWrite .. => true
  | .flogWrite .. => true
  | .profWrite .. => true
  | .spillWrite .. => true
  | .passignWrite .. => true
  | .coreOwnerChange .. => true
  | .dbgsessWrite .. => true
  | .pwrlimWrite .. => true
  | .extrelWrite .. => true
  | .extentReleaseDone => true
  | .extentOffer .. => true
  | .bar0RegisterWrite .. => true
  | .bar2HostRead _ _ len => 0 < len
  | .bar2HostWrite .. => true
  | .peerRequest .. => true
  | .kolnarPortDown .. => true
  | .atsInvalidation .. => true
  | .priPageResponse .. => true
  | .pcieCompletionTimeout .. => true
  | .perstRelease => true
  | .firmwareUpdateStage => true
  | .getVersion => true
  | .getCapabilities => true
  | .negotiateAlgorithms => true
  | .getDigests => true
  | .getCertificate => true
  | .challenge => true
  | .getMeasurements => true
  | .powerCheck => true
  | .thermalThrottle => true
  | .thermalTrip => true
  | .illegalInstruction .. => true
  | .instructionFetchFault .. => true
  | .deviceReset => true
  | .msixVectorUnmask .. => true
  | .profileCycleCount .. => true

/-- The constructors that have a 32-bit word. The others are steps of the scheduler, the engines and the host. -/
def Instr.hasWord : Instr → Bool
  | .add .. => true
  | .sub .. => true
  | .and .. => true
  | .or .. => true
  | .xor .. => true
  | .andn .. => true
  | .sll .. => true
  | .srl .. => true
  | .sra .. => true
  | .mul .. => true
  | .mulh .. => true
  | .mulhu .. => true
  | .mulhsu .. => true
  | .div .. => true
  | .divu .. => true
  | .rem .. => true
  | .remu .. => true
  | .min .. => true
  | .max .. => true
  | .minu .. => true
  | .maxu .. => true
  | .clz .. => true
  | .ctz .. => true
  | .pop .. => true
  | .bswap .. => true
  | .sh1add .. => true
  | .sh2add .. => true
  | .sh3add .. => true
  | .rotl .. => true
  | .rotr .. => true
  | .addi .. => true
  | .andi .. => true
  | .ori .. => true
  | .xori .. => true
  | .ldhi .. => true
  | .pcadd .. => true
  | .slli .. => true
  | .srli .. => true
  | .srai .. => true
  | .rotli .. => true
  | .ldB .. => true
  | .ldH .. => true
  | .ldW .. => true
  | .ldD .. => true
  | .ldBu .. => true
  | .ldHu .. => true
  | .ldWu .. => true
  | .stB .. => true
  | .stH .. => true
  | .stW .. => true
  | .stD .. => true
  | .bt .. => true
  | .bf .. => true
  | .bs .. => true
  | .jal .. => true
  | .jalr .. => true
  | .cmpeq .. => true
  | .cmpne .. => true
  | .cmplt .. => true
  | .cmpge .. => true
  | .cmpltu .. => true
  | .cmpgeu .. => true
  | .cand .. => true
  | .cor .. => true
  | .cxor .. => true
  | .candn .. => true
  | .cget .. => true
  | .cmpeqi .. => true
  | .cmpnei .. => true
  | .cmplti .. => true
  | .cmpgei .. => true
  | .cmpltui .. => true
  | .cmpgeui .. => true
  | .cmpgti .. => true
  | .cmplei .. => true
  | .loop .. => true
  | .loopi .. => true
  | .loopBackEdge => false
  | .fadd .. => true
  | .fsub .. => true
  | .fmul .. => true
  | .fdiv .. => true
  | .fsqrt .. => true
  | .fmin .. => true
  | .fmax .. => true
  | .fsgnj .. => true
  | .fsgnjn .. => true
  | .fsgnjx .. => true
  | .ftol .. => true
  | .ftolu .. => true
  | .ftow .. => true
  | .ftowu .. => true
  | .ltof .. => true
  | .lutof .. => true
  | .fprec .. => true
  | .fclass .. => true
  | .feq .. => true
  | .flt .. => true
  | .fle .. => true
  | .fadd2 .. => true
  | .fmadd .. => true
  | .fmsub .. => true
  | .fnmadd .. => true
  | .fnmsub .. => true
  | .csrrw .. => true
  | .csrrs .. => true
  | .csrrc .. => true
  | .ecall => true
  | .ebreak => true
  | .eret => true
  | .ptflush .. => true
  | .icflush => true
  | .nopSys => true
  | .amoswap .. => true
  | .amoadd .. => true
  | .amoand .. => true
  | .amoor .. => true
  | .amoxor .. => true
  | .amomin .. => true
  | .amomax .. => true
  | .amominu .. => true
  | .amomaxu .. => true
  | .amofadd .. => true
  | .amocas .. => true
  | .amold .. => true
  | .amost .. => true
  | .amominp .. => true
  | .wait .. => true
  | .fence .. => true
  | .qfence .. => true
  | .texit => true
  | .tspawn .. => true
  | .tjoin .. => true
  | .hwpub .. => true
  | .gjoin .. => true
  | .gdetach => true
  | .lgrow .. => true
  | .lshrink .. => true
  | .valloc .. => true
  | .bar .. => true
  | .arrive .. => true
  | .await .. => true
  | .darn .. => true
  | .peq .. => true
  | .fwdres .. => true
  | .fwdmend .. => true
  | .fwdrel .. => true
  | .kvalloc .. => true
  | .kvapp .. => true
  | .kvcommit .. => true
  | .sbindkvK .. => true
  | .sbindkvV .. => true
  | .mangle .. => true
  | .launder .. => true
  | .setvl .. => true
  | .setvlc .. => true
  | .vadd .. => true
  | .vsub .. => true
  | .vrsub .. => true
  | .vmul .. => true
  | .vmulh .. => true
  | .vmulhu .. => true
  | .vand .. => true
  | .vor .. => true
  | .vxor .. => true
  | .vsll .. => true
  | .vsrl .. => true
  | .vsra .. => true
  | .vmin .. => true
  | .vmax .. => true
  | .vminu .. => true
  | .vmaxu .. => true
  | .vsadd .. => true
  | .vsaddu .. => true
  | .vssub .. => true
  | .vssubu .. => true
  | .vdiv .. => true
  | .vdivu .. => true
  | .vrem .. => true
  | .vremu .. => true
  | .vcmpeq .. => true
  | .vcmpne .. => true
  | .vcmplt .. => true
  | .vcmpltu .. => true
  | .vcmple .. => true
  | .vcmpleu .. => true
  | .vmerge .. => true
  | .vmv .. => true
  | .vfadd .. => true
  | .vfsub .. => true
  | .vfmul .. => true
  | .vfdiv .. => true
  | .vfmin .. => true
  | .vfmax .. => true
  | .vfsgnj .. => true
  | .vfsgnjn .. => true
  | .vfsgnjx .. => true
  | .vfsqrt .. => true
  | .vfrecip .. => true
  | .vfrsqrt .. => true
  | .vfexp2 .. => true
  | .vflog2 .. => true
  | .vftanh .. => true
  | .vfclass .. => true
  | .vfcmpeq .. => true
  | .vfcmpne .. => true
  | .vfcmplt .. => true
  | .vfcmple .. => true
  | .vfcmpgt .. => true
  | .vfcmpge .. => true
  | .vfmaxexp .. => true
  | .vfmacc .. => true
  | .vfnmacc .. => true
  | .vfmsac .. => true
  | .vfnmsac .. => true
  | .vfwmacc .. => true
  | .vfdot4 .. => true
  | .vl6mul .. => true
  | .vl6dot .. => true
  | .vmacc .. => true
  | .vwmacc .. => true
  | .vcvt .. => true
  | .vcvti .. => true
  | .vcvtu .. => true
  | .vcvtsr .. => true
  | .vquant .. => true
  | .vdequant .. => true
  | .kand .. => true
  | .kor .. => true
  | .kxor .. => true
  | .kandn .. => true
  | .knot .. => true
  | .kpop .. => true
  | .kfirst .. => true
  | .vcompress .. => true
  | .vexpand .. => true
  | .vprefpop .. => true
  | .vconflict .. => true
  | .vslideup .. => true
  | .vslidedown .. => true
  | .vrgather .. => true
  | .vid .. => true
  | .vmvx .. => true
  | .vmvxs .. => true
  | .vredsum .. => true
  | .vredmin .. => true
  | .vredmax .. => true
  | .vredminu .. => true
  | .vredmaxu .. => true
  | .vredand .. => true
  | .vredor .. => true
  | .vredxor .. => true
  | .vfredsum .. => true
  | .vfredsum2 .. => true
  | .vfredmin .. => true
  | .vfredmax .. => true
  | .vtopk .. => true
  | .vsegscan .. => true
  | .vfsegscan .. => true
  | .vbcmp .. => true
  | .vbeq .. => true
  | .vbfind .. => true
  | .vqmix .. => true
  | .vhacc .. => true
  | .vnfa .. => true
  | .vkvmass .. => true
  | .vkvpos .. => true
  | .vld .. => true
  | .vlds .. => true
  | .vldxo .. => true
  | .vldx .. => true
  | .vldk .. => true
  | .vldw .. => true
  | .vst .. => true
  | .vsts .. => true
  | .vstxo .. => true
  | .vstx .. => true
  | .vstk .. => true
  | .vstw .. => true
  | .vamoadd .. => true
  | .vamoand .. => true
  | .vamoor .. => true
  | .vamoxor .. => true
  | .vamomin .. => true
  | .vamomax .. => true
  | .vamominu .. => true
  | .vamomaxu .. => true
  | .vamoswap .. => true
  | .vamofadd .. => true
  | .vfmadd .. => true
  | .vfmsub .. => true
  | .vfnmadd .. => true
  | .vfnmsub .. => true
  | .vbsel .. => true
  | .vmadd .. => true
  | .tcopy .. => true
  | .copy1d .. => true
  | .sbind .. => true
  | .sunbind .. => true
  | .tqtile .. => true
  | .mstage .. => true
  | .mchain .. => true
  | .mdense .. => true
  | .mload .. => true
  | .mstore .. => true
  | .mzero .. => true
  | .tmark .. => true
  | .vtypeWrite .. => false
  | .vlWrite .. => false
  | .vstartWrite .. => false
  | .vallocWrite .. => false
  | .vstateWrite .. => false
  | .lpcntWrite .. => false
  | .lpidxWrite .. => false
  | .lpdepthWrite .. => false
  | .lpbegWrite .. => false
  | .lpendWrite .. => false
  | .gjtimeoutWrite .. => false
  | .frmWrite .. => false
  | .statusWrite .. => false
  | .ptbaseWrite .. => false
  | .asidWrite .. => false
  | .heatbaseWrite .. => false
  | .kvmbaseWrite .. => false
  | .lanemapWrite .. => false
  | .sdescWrite .. => false
  | .sposWrite .. => false
  | .skvWrite .. => false
  | .pmreqWrite .. => false
  | .tleaveWrite .. => false
  | .xjoinWrite .. => false
  | .xdoneWrite .. => false
  | .ttresRead .. => false
  | .trctlWrite .. => false
  | .rpctlWrite .. => false
  | .startRecordAdmission .. => false
  | .ctsPick .. => false
  | .recordAging .. => false
  | .joinCounterReread .. => false
  | .gjoinTimeout .. => false
  | .gjoinRejoin .. => false
  | .barrierRelease .. => false
  | .awaitPhaseChange .. => false
  | .waitConditionMet .. => false
  | .setvlcResume .. => false
  | .issueCapacityFreed .. => false
  | .spillSpaceFreed .. => false
  | .jobQueueRoom .. => false
  | .streamFill .. => false
  | .preemptionTaken .. => false
  | .copyOperationEnd .. => false
  | .tileTaskReady .. => false
  | .tileTaskStart .. => false
  | .tileTaskEnd .. => false
  | .homeAgentAccess .. => false
  | .darnLineMove .. => false
  | .darnJobEnd .. => false
  | .mangleRun .. => false
  | .mangleJobEnd .. => false
  | .launderPass .. => false
  | .l1Writeback .. => false
  | .traceHeadPublish .. => false
  | .sampleCounterWrap .. => false
  | .replayDivergence .. => false
  | .watchdogExpiry .. => false
  | .uncorrectableStateError .. => false
  | .laneRetire .. => false
  | .qpiWrite .. => false
  | .partitionReset .. => false
  | .functionLevelReset .. => false
  | .partitionResetDone .. => false
  | .profileFlush .. => false
  | .hpmreqWrite .. => false
  | .flogWrite .. => false
  | .profWrite .. => false
  | .spillWrite .. => false
  | .passignWrite .. => false
  | .coreOwnerChange .. => false
  | .dbgsessWrite .. => false
  | .pwrlimWrite .. => false
  | .extrelWrite .. => false
  | .extentReleaseDone => false
  | .extentOffer .. => false
  | .bar0RegisterWrite .. => false
  | .bar2HostRead .. => false
  | .bar2HostWrite .. => false
  | .peerRequest .. => false
  | .kolnarPortDown .. => false
  | .atsInvalidation .. => false
  | .priPageResponse .. => false
  | .pcieCompletionTimeout .. => false
  | .perstRelease => false
  | .firmwareUpdateStage => false
  | .getVersion => false
  | .getCapabilities => false
  | .negotiateAlgorithms => false
  | .getDigests => false
  | .getCertificate => false
  | .challenge => false
  | .getMeasurements => false
  | .powerCheck => false
  | .thermalThrottle => false
  | .thermalTrip => false
  | .illegalInstruction .. => false
  | .instructionFetchFault .. => false
  | .deviceReset => false
  | .msixVectorUnmask .. => false
  | .profileCycleCount .. => false

end Sys2Proof
end

