-- ==== Sys2Proof/Decode.lean ====
section
/-! DEFINITION. The decoder, total on every 32-bit word, and after it the encoder (chapter 03).
Lean's compiled runtime has no tag for a constructor with fields beyond the 245th of a type, so the decoders of the
later majors are marked noncomputable: the kernel evaluates them as it does every other definition; only compiled
code cannot build their results. -/

namespace Sys2Proof

/-- Why a word is no instruction; each of these is the illegal-instruction trap of R34. -/
inductive DecodeError where
  /-- The major opcode is not assigned. -/
  | reservedMajor
  /-- The function code is not assigned. -/
  | reservedFunction
  /-- A coded field holds a reserved value. -/
  | reservedValue
  /-- A reserved bit is not 0. -/
  | reservedBits
  deriving DecidableEq, Repr

/-! Fields of the word (R33). -/

def op (w : IWord) : BitVec 6 := w.extractLsb' 0 6
def rd (w : IWord) : Reg := w.extractLsb' 6 5
def rs1 (w : IWord) : Reg := w.extractLsb' 11 5
def rs2 (w : IWord) : Reg := w.extractLsb' 16 5
def f11 (w : IWord) : BitVec 11 := w.extractLsb' 21 11
/-- The immediate of the I and CI formats, bits [31:16]. -/
def imm16 (w : IWord) : BitVec 16 := f11 w ++ rs2 w
/-- The immediate of the M format and end13 of LOOP, bits [31:19]. -/
def imm13 (w : IWord) : BitVec 13 := f11 w ++ (rs2 w).extractLsb' 3 2
/-- The immediate of the S format, bits [31:18]. -/
def imm14 (w : IWord) : BitVec 14 := f11 w ++ (rs2 w).extractLsb' 2 3
/-- The offset of the B and J formats and the immediate of the U format, bits [31:11]. -/
def off21 (w : IWord) : BitVec 21 := f11 w ++ (rs2 w ++ rs1 w)
/-- The bits [21:6] of the W format. -/
def wBits (w : IWord) : BitVec 16 := (f11 w).extractLsb' 0 1 ++ (rs2 w ++ (rs1 w ++ rd w))
/-- A condition-bit or mask number in the low three bits of a register field, and the bits above it. -/
def cD (w : IWord) : BitVec 3 := (rd w).extractLsb' 0 3
def cA (w : IWord) : BitVec 3 := (rs1 w).extractLsb' 0 3
def cB (w : IWord) : BitVec 3 := (rs2 w).extractLsb' 0 3
def dHi (w : IWord) : BitVec 2 := (rd w).extractLsb' 3 2
def aHi (w : IWord) : BitVec 2 := (rs1 w).extractLsb' 3 2
def bHi (w : IWord) : BitVec 2 := (rs2 w).extractLsb' 3 2
/-- The rm and prec fields of FP scalar (R47). -/
def fpRm (w : IWord) : BitVec 3 := (f11 w).extractLsb' 1 3
def fpPrec (w : IWord) : BitVec 1 := (f11 w).extractLsb' 0 1
/-- The CSR number (R49). -/
def csrNo (w : IWord) : BitVec 14 := (f11 w).extractLsb' 0 9 ++ rs2 w
/-- The fields of the V and VM formats. -/
def vF5 (w : IWord) : BitVec 5 := (f11 w).extractLsb' 6 5
def vRsz (w : IWord) : BitVec 2 := (f11 w).extractLsb' 4 2
def vRep (w : IWord) : BitVec 1 := (f11 w).extractLsb' 3 1
def vK (w : IWord) : BitVec 3 := (f11 w).extractLsb' 0 3
/-- rsz and rep together, which most vector instructions require to be 0. -/
def vMode (w : IWord) : BitVec 3 := (f11 w).extractLsb' 3 3
/-- The mode field of the VM format, which has the same place. -/
def vmMode (w : IWord) : BitVec 3 := (f11 w).extractLsb' 3 3
/-- The queue field of COPY/STREAM (R56). -/
def cpQ (w : IWord) : BitVec 2 := (f11 w).extractLsb' 0 2

/-! Coded field values. -/

/-- R47: 5 and 6 are reserved. -/
def RM.ofBits (b : BitVec 3) : Option RM :=
  match b.toNat with
  | 0 => some .rne | 1 => some .rtz | 2 => some .rdn | 3 => some .rup | 4 => some .rmm | 7 => some .dyn | _ => none
def Prec.ofBits (b : BitVec 1) : Prec := if b = 0 then .s else .d
/-- R51, R52: 6 and 7 are reserved. -/
def Scope.ofBits (b : BitVec 3) : Option Scope :=
  match b.toNat with
  | 0 => some .sequencer | 1 => some .core | 2 => some .cluster | 3 => some .die | 4 => some .device
  | 5 => some .system | _ => none
def Order.ofBits (b : BitVec 2) : Order :=
  match b.toNat with
  | 0 => .rlx | 1 => .acq | 2 => .rel | _ => .ar
/-- R52: 0 is reserved. -/
def FenceOrder.ofBits (b : BitVec 2) : Option FenceOrder :=
  match b.toNat with
  | 1 => some .acq | 2 => some .rel | 3 => some .ar | _ => none
def AmoWidth.ofBits (b : BitVec 1) : AmoWidth := if b = 0 then .w else .d
/-- R39: with rep 0, rsz is reserved. -/
def Rep.ofBits (bit : BitVec 1) (rsz : BitVec 2) : Option Rep :=
  if bit = 0 then (if rsz = 0 then some .none else Option.none)
  else match rsz.toNat with
    | 0 => some .s1 | 1 => some .s4 | 2 => some .s16 | _ => some .s64
/-- R20: the format codes 0 to 10. -/
def Fmt.ofCode (b : BitVec 5) : Option Fmt :=
  match b.toNat with
  | 0 => some .int | 1 => some .uint | 2 => some .fp32 | 3 => some .fp16 | 4 => some .bf16 | 5 => some .e4m3
  | 6 => some .e5m2 | 7 => some .e3m2 | 8 => some .e2m3 | 9 => some .e2m1 | 10 => some .l6 | _ => none
/-- R59: the source formats are the codes 2 to 10. -/
def SrcFmt.ofBits (b : BitVec 5) : Option SrcFmt :=
  match b.toNat with
  | 2 => some .fp32 | 3 => some .fp16 | 4 => some .bf16 | 5 => some .e4m3 | 6 => some .e5m2 | 7 => some .e3m2
  | 8 => some .e2m3 | 9 => some .e2m1 | 10 => some .l6 | _ => none
/-- R59: the codes 1, 6 and 7 are reserved. -/
def IntWidth.ofBits (b : BitVec 3) : Option IntWidth :=
  match b.toNat with
  | 0 => some .e4 | 2 => some .e8 | 3 => some .e16 | 4 => some .e32 | 5 => some .e64 | _ => none
/-- R61: 3 is reserved. -/
def IdxWidth.ofBits (b : BitVec 2) : Option IdxWidth :=
  match b.toNat with
  | 0 => some .data | 1 => some .x32 | 2 => some .x64 | _ => none
/-- R61: the modes of VAMO are 0, 1 and 2. -/
def VamoMode.ofBits (b : BitVec 3) : Option VamoMode :=
  match b.toNat with
  | 0 => some .unit | 1 => some .strided | 2 => some .indexed | _ => none
/-- R54: 3 is reserved. -/
def AllocN.ofBits (b : BitVec 2) : Option AllocN :=
  match b.toNat with
  | 0 => some .n8 | 1 => some .n16 | 2 => some .n32 | _ => none

/-! The words built from their fields. -/

/-- A word from the five fields at the places that every format shares (R33). -/
def pack (f : BitVec 11) (c b a : Reg) (o : BitVec 6) : IWord := f ++ (c ++ (b ++ (a ++ o)))
/-- A word of the W format. -/
def packW (f : BitVec 10) (m : BitVec 16) (o : BitVec 6) : IWord := f ++ (m ++ o)
def immHi16 (i : BitVec 16) : BitVec 11 := i.extractLsb' 5 11
def immLo16 (i : BitVec 16) : BitVec 5 := i.extractLsb' 0 5

/-- Goes on with a coded field's value, or refuses the word. -/
def orReject {α : Type} (o : Option α) (e : DecodeError) (k : α → Except DecodeError Instr) :
    Except DecodeError Instr :=
  match o with
  | some a => k a
  | none => .error e

/-- Major 0x01 (R41). -/
def decodeAlu (w : IWord) : Except DecodeError Instr :=
  match (f11 w).toNat with
  | 0 => .ok (.add (rd w) (rs1 w) (rs2 w))
  | 1 => .ok (.sub (rd w) (rs1 w) (rs2 w))
  | 2 => .ok (.and (rd w) (rs1 w) (rs2 w))
  | 3 => .ok (.or (rd w) (rs1 w) (rs2 w))
  | 4 => .ok (.xor (rd w) (rs1 w) (rs2 w))
  | 5 => .ok (.andn (rd w) (rs1 w) (rs2 w))
  | 6 => .ok (.sll (rd w) (rs1 w) (rs2 w))
  | 7 => .ok (.srl (rd w) (rs1 w) (rs2 w))
  | 8 => .ok (.sra (rd w) (rs1 w) (rs2 w))
  | 9 => .ok (.mul (rd w) (rs1 w) (rs2 w))
  | 10 => .ok (.mulh (rd w) (rs1 w) (rs2 w))
  | 11 => .ok (.mulhu (rd w) (rs1 w) (rs2 w))
  | 12 => .ok (.mulhsu (rd w) (rs1 w) (rs2 w))
  | 13 => .ok (.div (rd w) (rs1 w) (rs2 w))
  | 14 => .ok (.divu (rd w) (rs1 w) (rs2 w))
  | 15 => .ok (.rem (rd w) (rs1 w) (rs2 w))
  | 16 => .ok (.remu (rd w) (rs1 w) (rs2 w))
  | 17 => .ok (.min (rd w) (rs1 w) (rs2 w))
  | 18 => .ok (.max (rd w) (rs1 w) (rs2 w))
  | 19 => .ok (.minu (rd w) (rs1 w) (rs2 w))
  | 20 => .ok (.maxu (rd w) (rs1 w) (rs2 w))
  | 21 => if rs2 w = 0 then .ok (.clz (rd w) (rs1 w)) else .error .reservedBits
  | 22 => if rs2 w = 0 then .ok (.ctz (rd w) (rs1 w)) else .error .reservedBits
  | 23 => if rs2 w = 0 then .ok (.pop (rd w) (rs1 w)) else .error .reservedBits
  | 24 => if rs2 w = 0 then .ok (.bswap (rd w) (rs1 w)) else .error .reservedBits
  | 25 => .ok (.sh1add (rd w) (rs1 w) (rs2 w))
  | 26 => .ok (.sh2add (rd w) (rs1 w) (rs2 w))
  | 27 => .ok (.sh3add (rd w) (rs1 w) (rs2 w))
  | 28 => .ok (.rotl (rd w) (rs1 w) (rs2 w))
  | 29 => .ok (.rotr (rd w) (rs1 w) (rs2 w))
  | _ => .error .reservedFunction

/-- Major 0x08 (R43). -/
def decodeLoad (w : IWord) : Except DecodeError Instr :=
  match ((rs2 w).extractLsb' 0 3).toNat with
  | 0 => .ok (.ldB (rd w) (rs1 w) (imm13 w))
  | 1 => .ok (.ldH (rd w) (rs1 w) (imm13 w))
  | 2 => .ok (.ldW (rd w) (rs1 w) (imm13 w))
  | 3 => .ok (.ldD (rd w) (rs1 w) (imm13 w))
  | 4 => .ok (.ldBu (rd w) (rs1 w) (imm13 w))
  | 5 => .ok (.ldHu (rd w) (rs1 w) (imm13 w))
  | 6 => .ok (.ldWu (rd w) (rs1 w) (imm13 w))
  | _ => .error .reservedFunction

/-- Major 0x09 (R43). -/
def decodeStore (w : IWord) : Except DecodeError Instr :=
  match ((rs2 w).extractLsb' 0 2).toNat with
  | 0 => .ok (.stB (rs1 w) (rd w) (imm14 w))
  | 1 => .ok (.stH (rs1 w) (rd w) (imm14 w))
  | 2 => .ok (.stW (rs1 w) (rd w) (imm14 w))
  | 3 => .ok (.stD (rs1 w) (rd w) (imm14 w))
  | _ => .error .reservedFunction

/-- Major 0x0A (R45). -/
def decodeBranch (w : IWord) : Except DecodeError Instr :=
  match (dHi w).toNat with
  | 0 => .ok (.bf (cD w) (off21 w))
  | 1 => .ok (.bt (cD w) (off21 w))
  | _ => .error .reservedFunction

/-- Major 0x0E (R44). -/
def decodeCmp (w : IWord) : Except DecodeError Instr :=
  match (f11 w).toNat with
  | 0 => if dHi w = 0 then .ok (.cmpeq (cD w) (rs1 w) (rs2 w)) else .error .reservedBits
  | 1 => if dHi w = 0 then .ok (.cmpne (cD w) (rs1 w) (rs2 w)) else .error .reservedBits
  | 2 => if dHi w = 0 then .ok (.cmplt (cD w) (rs1 w) (rs2 w)) else .error .reservedBits
  | 3 => if dHi w = 0 then .ok (.cmpge (cD w) (rs1 w) (rs2 w)) else .error .reservedBits
  | 4 => if dHi w = 0 then .ok (.cmpltu (cD w) (rs1 w) (rs2 w)) else .error .reservedBits
  | 5 => if dHi w = 0 then .ok (.cmpgeu (cD w) (rs1 w) (rs2 w)) else .error .reservedBits
  | 16 => if dHi w = 0 ∧ aHi w = 0 ∧ bHi w = 0 then .ok (.cand (cD w) (cA w) (cB w)) else .error .reservedBits
  | 17 => if dHi w = 0 ∧ aHi w = 0 ∧ bHi w = 0 then .ok (.cor (cD w) (cA w) (cB w)) else .error .reservedBits
  | 18 => if dHi w = 0 ∧ aHi w = 0 ∧ bHi w = 0 then .ok (.cxor (cD w) (cA w) (cB w)) else .error .reservedBits
  | 19 => if dHi w = 0 ∧ aHi w = 0 ∧ bHi w = 0 then .ok (.candn (cD w) (cA w) (cB w)) else .error .reservedBits
  | 24 => if rs2 w = 0 ∧ aHi w = 0 then .ok (.cget (rd w) (cA w)) else .error .reservedBits
  | _ => .error .reservedFunction

/-- Major 0x0F (R44). -/
def decodeCmpiA (w : IWord) : Except DecodeError Instr :=
  match (dHi w).toNat with
  | 0 => .ok (.cmpeqi (cD w) (rs1 w) (imm16 w))
  | 1 => .ok (.cmpnei (cD w) (rs1 w) (imm16 w))
  | 2 => .ok (.cmplti (cD w) (rs1 w) (imm16 w))
  | 3 => .ok (.cmpgei (cD w) (rs1 w) (imm16 w))
  | _ => .error .reservedFunction

/-- Major 0x10 (R44). -/
def decodeCmpiB (w : IWord) : Except DecodeError Instr :=
  match (dHi w).toNat with
  | 0 => .ok (.cmpltui (cD w) (rs1 w) (imm16 w))
  | 1 => .ok (.cmpgeui (cD w) (rs1 w) (imm16 w))
  | 2 => .ok (.cmpgti (cD w) (rs1 w) (imm16 w))
  | 3 => .ok (.cmplei (cD w) (rs1 w) (imm16 w))
  | _ => .error .reservedFunction

/-- Major 0x11 (R42). -/
def decodeShiftImm (w : IWord) : Except DecodeError Instr :=
  match ((f11 w).extractLsb' 6 5).toNat with
  | 0 => if rs2 w = 0 then .ok (.slli (rd w) (rs1 w) ((f11 w).extractLsb' 0 6)) else .error .reservedBits
  | 1 => if rs2 w = 0 then .ok (.srli (rd w) (rs1 w) ((f11 w).extractLsb' 0 6)) else .error .reservedBits
  | 2 => if rs2 w = 0 then .ok (.srai (rd w) (rs1 w) ((f11 w).extractLsb' 0 6)) else .error .reservedBits
  | 3 => if rs2 w = 0 then .ok (.rotli (rd w) (rs1 w) ((f11 w).extractLsb' 0 6)) else .error .reservedBits
  | _ => .error .reservedFunction

/-- Major 0x15 (R46). -/
def decodeLoop (w : IWord) : Except DecodeError Instr :=
  match ((rd w).extractLsb' 0 1).toNat with
  | 0 => if (rs2 w).extractLsb' 0 3 = 0 ∧ rd w = 0 ∧ imm13 w ≠ 0 then .ok (.loop (rs1 w) (imm13 w)) else .error .reservedBits
  | 1 => if imm13 w ≠ 0 then .ok (.loopi ((rs2 w).extractLsb' 0 3 ++ rs1 w ++ (rd w).extractLsb' 1 4) (imm13 w)) else .error .reservedBits
  | _ => .error .reservedFunction

/-- Major 0x16 (R47). -/
def decodeFp (w : IWord) : Except DecodeError Instr :=
  match ((f11 w).extractLsb' 4 7).toNat with
  | 0 => orReject (RM.ofBits (fpRm w)) .reservedValue fun m => .ok (.fadd (Prec.ofBits (fpPrec w)) m (rd w) (rs1 w) (rs2 w))
  | 1 => orReject (RM.ofBits (fpRm w)) .reservedValue fun m => .ok (.fsub (Prec.ofBits (fpPrec w)) m (rd w) (rs1 w) (rs2 w))
  | 2 => orReject (RM.ofBits (fpRm w)) .reservedValue fun m => .ok (.fmul (Prec.ofBits (fpPrec w)) m (rd w) (rs1 w) (rs2 w))
  | 3 => orReject (RM.ofBits (fpRm w)) .reservedValue fun m => .ok (.fdiv (Prec.ofBits (fpPrec w)) m (rd w) (rs1 w) (rs2 w))
  | 4 => orReject (RM.ofBits (fpRm w)) .reservedValue fun m => if rs2 w = 0 then .ok (.fsqrt (Prec.ofBits (fpPrec w)) m (rd w) (rs1 w)) else .error .reservedBits
  | 5 => if fpRm w = 0 then .ok (.fmin (Prec.ofBits (fpPrec w)) (rd w) (rs1 w) (rs2 w)) else .error .reservedBits
  | 6 => if fpRm w = 0 then .ok (.fmax (Prec.ofBits (fpPrec w)) (rd w) (rs1 w) (rs2 w)) else .error .reservedBits
  | 7 => if fpRm w = 0 then .ok (.fsgnj (Prec.ofBits (fpPrec w)) (rd w) (rs1 w) (rs2 w)) else .error .reservedBits
  | 8 => if fpRm w = 0 then .ok (.fsgnjn (Prec.ofBits (fpPrec w)) (rd w) (rs1 w) (rs2 w)) else .error .reservedBits
  | 9 => if fpRm w = 0 then .ok (.fsgnjx (Prec.ofBits (fpPrec w)) (rd w) (rs1 w) (rs2 w)) else .error .reservedBits
  | 10 => orReject (RM.ofBits (fpRm w)) .reservedValue fun m => if rs2 w = 0 then .ok (.ftol (Prec.ofBits (fpPrec w)) m (rd w) (rs1 w)) else .error .reservedBits
  | 11 => orReject (RM.ofBits (fpRm w)) .reservedValue fun m => if rs2 w = 0 then .ok (.ftolu (Prec.ofBits (fpPrec w)) m (rd w) (rs1 w)) else .error .reservedBits
  | 12 => orReject (RM.ofBits (fpRm w)) .reservedValue fun m => if rs2 w = 0 then .ok (.ftow (Prec.ofBits (fpPrec w)) m (rd w) (rs1 w)) else .error .reservedBits
  | 13 => orReject (RM.ofBits (fpRm w)) .reservedValue fun m => if rs2 w = 0 then .ok (.ftowu (Prec.ofBits (fpPrec w)) m (rd w) (rs1 w)) else .error .reservedBits
  | 14 => orReject (RM.ofBits (fpRm w)) .reservedValue fun m => if rs2 w = 0 then .ok (.ltof (Prec.ofBits (fpPrec w)) m (rd w) (rs1 w)) else .error .reservedBits
  | 15 => orReject (RM.ofBits (fpRm w)) .reservedValue fun m => if rs2 w = 0 then .ok (.lutof (Prec.ofBits (fpPrec w)) m (rd w) (rs1 w)) else .error .reservedBits
  | 16 => orReject (RM.ofBits (fpRm w)) .reservedValue fun m => if rs2 w = 0 then .ok (.fprec (Prec.ofBits (fpPrec w)) m (rd w) (rs1 w)) else .error .reservedBits
  | 17 => if fpRm w = 0 ∧ rs2 w = 0 then .ok (.fclass (Prec.ofBits (fpPrec w)) (rd w) (rs1 w)) else .error .reservedBits
  | 18 => if fpRm w = 0 ∧ dHi w = 0 then .ok (.feq (Prec.ofBits (fpPrec w)) (cD w) (rs1 w) (rs2 w)) else .error .reservedBits
  | 19 => if fpRm w = 0 ∧ dHi w = 0 then .ok (.flt (Prec.ofBits (fpPrec w)) (cD w) (rs1 w) (rs2 w)) else .error .reservedBits
  | 20 => if fpRm w = 0 ∧ dHi w = 0 then .ok (.fle (Prec.ofBits (fpPrec w)) (cD w) (rs1 w) (rs2 w)) else .error .reservedBits
  | 21 => if fpRm w = 0 ∧ fpPrec w = 0 then .ok (.fadd2 (rd w) (rs1 w) (rs2 w)) else .error .reservedBits
  | _ => .error .reservedFunction

/-- Major 0x17 (R47). -/
def decodeFma (w : IWord) : Except DecodeError Instr :=
  match ((f11 w).extractLsb' 6 2).toNat with
  | 0 => orReject (RM.ofBits ((f11 w).extractLsb' 8 3)) .reservedValue fun m => .ok (.fmadd (Prec.ofBits ((f11 w).extractLsb' 5 1)) m (rd w) (rs1 w) (rs2 w) ((f11 w).extractLsb' 0 5))
  | 1 => orReject (RM.ofBits ((f11 w).extractLsb' 8 3)) .reservedValue fun m => .ok (.fmsub (Prec.ofBits ((f11 w).extractLsb' 5 1)) m (rd w) (rs1 w) (rs2 w) ((f11 w).extractLsb' 0 5))
  | 2 => orReject (RM.ofBits ((f11 w).extractLsb' 8 3)) .reservedValue fun m => .ok (.fnmadd (Prec.ofBits ((f11 w).extractLsb' 5 1)) m (rd w) (rs1 w) (rs2 w) ((f11 w).extractLsb' 0 5))
  | 3 => orReject (RM.ofBits ((f11 w).extractLsb' 8 3)) .reservedValue fun m => .ok (.fnmsub (Prec.ofBits ((f11 w).extractLsb' 5 1)) m (rd w) (rs1 w) (rs2 w) ((f11 w).extractLsb' 0 5))
  | _ => .error .reservedFunction

/-- Major 0x18 (R49). -/
def decodeCsr (w : IWord) : Except DecodeError Instr :=
  match ((f11 w).extractLsb' 9 2).toNat with
  | 0 => .ok (.csrrw (rd w) (csrNo w) (rs1 w))
  | 1 => .ok (.csrrs (rd w) (csrNo w) (rs1 w))
  | 2 => .ok (.csrrc (rd w) (csrNo w) (rs1 w))
  | _ => .error .reservedFunction

/-- Major 0x19 (R50). -/
def decodeSystem (w : IWord) : Except DecodeError Instr :=
  match (f11 w).toNat with
  | 0 => if rs2 w = 0 ∧ rs1 w = 0 ∧ rd w = 0 then .ok (.ecall) else .error .reservedBits
  | 1 => if rs2 w = 0 ∧ rs1 w = 0 ∧ rd w = 0 then .ok (.ebreak) else .error .reservedBits
  | 2 => if rs2 w = 0 ∧ rs1 w = 0 ∧ rd w = 0 then .ok (.eret) else .error .reservedBits
  | 3 => if rd w = 0 then .ok (.ptflush (rs1 w) (rs2 w)) else .error .reservedBits
  | 4 => if rs2 w = 0 ∧ rs1 w = 0 ∧ rd w = 0 then .ok (.icflush) else .error .reservedBits
  | 5 => if rs2 w = 0 ∧ rs1 w = 0 ∧ rd w = 0 then .ok (.nopSys) else .error .reservedBits
  | _ => .error .reservedFunction

/-- Major 0x1A (R51). -/
def decodeAtomic (w : IWord) : Except DecodeError Instr :=
  match ((f11 w).extractLsb' 0 5).toNat with
  | 0 => orReject (Scope.ofBits ((f11 w).extractLsb' 8 3)) .reservedValue fun sc => .ok (.amoswap sc (Order.ofBits ((f11 w).extractLsb' 6 2)) (AmoWidth.ofBits ((f11 w).extractLsb' 5 1)) (rd w) (rs1 w) (rs2 w))
  | 1 => orReject (Scope.ofBits ((f11 w).extractLsb' 8 3)) .reservedValue fun sc => .ok (.amoadd sc (Order.ofBits ((f11 w).extractLsb' 6 2)) (AmoWidth.ofBits ((f11 w).extractLsb' 5 1)) (rd w) (rs1 w) (rs2 w))
  | 2 => orReject (Scope.ofBits ((f11 w).extractLsb' 8 3)) .reservedValue fun sc => .ok (.amoand sc (Order.ofBits ((f11 w).extractLsb' 6 2)) (AmoWidth.ofBits ((f11 w).extractLsb' 5 1)) (rd w) (rs1 w) (rs2 w))
  | 3 => orReject (Scope.ofBits ((f11 w).extractLsb' 8 3)) .reservedValue fun sc => .ok (.amoor sc (Order.ofBits ((f11 w).extractLsb' 6 2)) (AmoWidth.ofBits ((f11 w).extractLsb' 5 1)) (rd w) (rs1 w) (rs2 w))
  | 4 => orReject (Scope.ofBits ((f11 w).extractLsb' 8 3)) .reservedValue fun sc => .ok (.amoxor sc (Order.ofBits ((f11 w).extractLsb' 6 2)) (AmoWidth.ofBits ((f11 w).extractLsb' 5 1)) (rd w) (rs1 w) (rs2 w))
  | 5 => orReject (Scope.ofBits ((f11 w).extractLsb' 8 3)) .reservedValue fun sc => .ok (.amomin sc (Order.ofBits ((f11 w).extractLsb' 6 2)) (AmoWidth.ofBits ((f11 w).extractLsb' 5 1)) (rd w) (rs1 w) (rs2 w))
  | 6 => orReject (Scope.ofBits ((f11 w).extractLsb' 8 3)) .reservedValue fun sc => .ok (.amomax sc (Order.ofBits ((f11 w).extractLsb' 6 2)) (AmoWidth.ofBits ((f11 w).extractLsb' 5 1)) (rd w) (rs1 w) (rs2 w))
  | 7 => orReject (Scope.ofBits ((f11 w).extractLsb' 8 3)) .reservedValue fun sc => .ok (.amominu sc (Order.ofBits ((f11 w).extractLsb' 6 2)) (AmoWidth.ofBits ((f11 w).extractLsb' 5 1)) (rd w) (rs1 w) (rs2 w))
  | 8 => orReject (Scope.ofBits ((f11 w).extractLsb' 8 3)) .reservedValue fun sc => .ok (.amomaxu sc (Order.ofBits ((f11 w).extractLsb' 6 2)) (AmoWidth.ofBits ((f11 w).extractLsb' 5 1)) (rd w) (rs1 w) (rs2 w))
  | 9 => orReject (Scope.ofBits ((f11 w).extractLsb' 8 3)) .reservedValue fun sc => .ok (.amofadd sc (Order.ofBits ((f11 w).extractLsb' 6 2)) (AmoWidth.ofBits ((f11 w).extractLsb' 5 1)) (rd w) (rs1 w) (rs2 w))
  | 10 => orReject (Scope.ofBits ((f11 w).extractLsb' 8 3)) .reservedValue fun sc => .ok (.amocas sc (Order.ofBits ((f11 w).extractLsb' 6 2)) (AmoWidth.ofBits ((f11 w).extractLsb' 5 1)) (rd w) (rs1 w) (rs2 w))
  | 11 => orReject (Scope.ofBits ((f11 w).extractLsb' 8 3)) .reservedValue fun sc => if rs2 w = 0 ∧ (Order.ofBits ((f11 w).extractLsb' 6 2)).releases = false then .ok (.amold sc (Order.ofBits ((f11 w).extractLsb' 6 2)) (AmoWidth.ofBits ((f11 w).extractLsb' 5 1)) (rd w) (rs1 w)) else .error .reservedBits
  | 12 => orReject (Scope.ofBits ((f11 w).extractLsb' 8 3)) .reservedValue fun sc => if rd w = 0 ∧ (Order.ofBits ((f11 w).extractLsb' 6 2)).acquires = false then .ok (.amost sc (Order.ofBits ((f11 w).extractLsb' 6 2)) (AmoWidth.ofBits ((f11 w).extractLsb' 5 1)) (rs1 w) (rs2 w)) else .error .reservedBits
  | 13 => orReject (Scope.ofBits ((f11 w).extractLsb' 8 3)) .reservedValue fun sc => if (f11 w).extractLsb' 5 1 = 1#1 then .ok (.amominp sc (Order.ofBits ((f11 w).extractLsb' 6 2)) (rd w) (rs1 w) (rs2 w)) else .error .reservedBits
  | _ => .error .reservedFunction

/-- Major 0x1B (R52). -/
def decodeSync (w : IWord) : Except DecodeError Instr :=
  match ((f11 w).extractLsb' 1 10).toNat with
  | 0 => .ok (.wait ((wBits w).extractLsb' 0 4) ((wBits w).extractLsb' 4 4) ((wBits w).extractLsb' 8 4) ((wBits w).extractLsb' 12 4))
  | 1 => orReject (FenceOrder.ofBits ((wBits w).extractLsb' 3 2)) .reservedValue fun o => orReject (Scope.ofBits ((wBits w).extractLsb' 0 3)) .reservedValue fun sc => if (wBits w).extractLsb' 6 10 = 0 then .ok (.fence o sc ((wBits w).extractLsb' 5 1)) else .error .reservedBits
  | 2 => if (wBits w).extractLsb' 5 11 = 0 ∧ (wBits w).extractLsb' 0 5 ≠ 0 then .ok (.qfence ((wBits w).extractLsb' 0 4) ((wBits w).extractLsb' 4 1)) else .error .reservedBits
  | _ => .error .reservedFunction

/-- Major 0x1C (R53). -/
def decodeTask (w : IWord) : Except DecodeError Instr :=
  match (f11 w).toNat with
  | 0 => if rs2 w = 0 ∧ rs1 w = 0 ∧ rd w = 0 then .ok (.texit) else .error .reservedBits
  | 1 => if rs2 w = 0 ∧ rd w = 0 then .ok (.tspawn (rs1 w)) else .error .reservedBits
  | 2 => if rd w = 0 then .ok (.tjoin (rs1 w) (rs2 w)) else .error .reservedBits
  | 3 => if rd w = 0 then .ok (.hwpub (rs1 w) (rs2 w)) else .error .reservedBits
  | _ => .error .reservedFunction

/-- Major 0x1D (R54). -/
def decodeGang (w : IWord) : Except DecodeError Instr :=
  match (rd w).toNat with
  | 0 => .ok (.gjoin (off21 w))
  | 1 => if f11 w = 0 ∧ rs2 w = 0 ∧ rs1 w = 0 then .ok (.gdetach) else .error .reservedBits
  | 2 => if f11 w = 0 ∧ rs2 w = 0 then .ok (.lgrow (rs1 w)) else .error .reservedBits
  | 3 => if f11 w = 0 ∧ rs2 w = 0 then .ok (.lshrink (rs1 w)) else .error .reservedBits
  | 4 => orReject (AllocN.ofBits ((rs2 w).extractLsb' 0 2)) .reservedValue fun n => if f11 w = 0 ∧ (rs2 w).extractLsb' 2 3 = 0 ∧ rs1 w = 0 then .ok (.valloc n) else .error .reservedBits
  | 5 => if f11 w = 0 ∧ rs2 w = 0 ∧ aHi w = 0 then .ok (.bar (cA w)) else .error .reservedBits
  | 6 => if f11 w = 0 ∧ rs2 w = 0 then .ok (.arrive (rs1 w)) else .error .reservedBits
  | 7 => if f11 w = 0 then .ok (.await (rs1 w) (rs2 w)) else .error .reservedBits
  | _ => .error .reservedFunction

/-- Major 0x1E (R55). -/
def decodeFwd (w : IWord) : Except DecodeError Instr :=
  match (f11 w).toNat with
  | 0 => if rs2 w = 0 ∧ rd w = 0 then .ok (.darn (rs1 w)) else .error .reservedBits
  | 1 => if dHi w = 0 then .ok (.peq (cD w) (rs1 w) (rs2 w)) else .error .reservedBits
  | 2 => if rs2 w = 0 then .ok (.fwdres (rd w) (rs1 w)) else .error .reservedBits
  | 3 => if rs2 w = 0 ∧ rd w = 0 then .ok (.fwdmend (rs1 w)) else .error .reservedBits
  | 4 => if rs2 w = 0 ∧ rd w = 0 then .ok (.fwdrel (rs1 w)) else .error .reservedBits
  | _ => .error .reservedFunction

/-- Major 0x1F (R55). -/
def decodeKv (w : IWord) : Except DecodeError Instr :=
  match (f11 w).toNat with
  | 0 => if rs2 w = 0 ∧ rs1 w = 0 then .ok (.kvalloc (rd w)) else .error .reservedBits
  | 1 => .ok (.kvapp (rd w) (rs1 w) (rs2 w))
  | 2 => if rd w = 0 then .ok (.kvcommit (rs1 w) (rs2 w)) else .error .reservedBits
  | 3 => if dHi w = 3 then .ok (.sbindkvK (cD w) (rs1 w) (rs2 w)) else .error .reservedBits
  | 4 => if dHi w = 3 then .ok (.sbindkvV (cD w) (rs1 w) (rs2 w)) else .error .reservedBits
  | 5 => if rs2 w = 0 ∧ rd w = 0 then .ok (.mangle (rs1 w)) else .error .reservedBits
  | 6 => if rs2 w = 0 ∧ rd w = 0 then .ok (.launder (rs1 w)) else .error .reservedBits
  | _ => .error .reservedFunction

/-- Major 0x20 (R57). -/
def decodeVcfg (w : IWord) : Except DecodeError Instr :=
  match ((f11 w).extractLsb' 10 1).toNat with
  | 0 => .ok (.setvl (rd w) (rs1 w) ((f11 w).extractLsb' 0 10 ++ rs2 w))
  | 1 => .ok (.setvlc (rd w) (rs1 w) ((f11 w).extractLsb' 0 10 ++ rs2 w))
  | _ => .error .reservedFunction

/-- Major 0x21 (R58). -/
def decodeVint (w : IWord) : Except DecodeError Instr :=
  match (vF5 w).toNat with
  | 0 => orReject (Rep.ofBits (vRep w) (vRsz w)) .reservedValue fun rep => .ok (.vadd rep (vK w) (rd w) (rs1 w) (rs2 w))
  | 1 => orReject (Rep.ofBits (vRep w) (vRsz w)) .reservedValue fun rep => .ok (.vsub rep (vK w) (rd w) (rs1 w) (rs2 w))
  | 2 => orReject (Rep.ofBits (vRep w) (vRsz w)) .reservedValue fun rep => .ok (.vrsub rep (vK w) (rd w) (rs1 w) (rs2 w))
  | 3 => orReject (Rep.ofBits (vRep w) (vRsz w)) .reservedValue fun rep => .ok (.vmul rep (vK w) (rd w) (rs1 w) (rs2 w))
  | 4 => orReject (Rep.ofBits (vRep w) (vRsz w)) .reservedValue fun rep => .ok (.vmulh rep (vK w) (rd w) (rs1 w) (rs2 w))
  | 5 => orReject (Rep.ofBits (vRep w) (vRsz w)) .reservedValue fun rep => .ok (.vmulhu rep (vK w) (rd w) (rs1 w) (rs2 w))
  | 6 => orReject (Rep.ofBits (vRep w) (vRsz w)) .reservedValue fun rep => .ok (.vand rep (vK w) (rd w) (rs1 w) (rs2 w))
  | 7 => orReject (Rep.ofBits (vRep w) (vRsz w)) .reservedValue fun rep => .ok (.vor rep (vK w) (rd w) (rs1 w) (rs2 w))
  | 8 => orReject (Rep.ofBits (vRep w) (vRsz w)) .reservedValue fun rep => .ok (.vxor rep (vK w) (rd w) (rs1 w) (rs2 w))
  | 9 => orReject (Rep.ofBits (vRep w) (vRsz w)) .reservedValue fun rep => .ok (.vsll rep (vK w) (rd w) (rs1 w) (rs2 w))
  | 10 => orReject (Rep.ofBits (vRep w) (vRsz w)) .reservedValue fun rep => .ok (.vsrl rep (vK w) (rd w) (rs1 w) (rs2 w))
  | 11 => orReject (Rep.ofBits (vRep w) (vRsz w)) .reservedValue fun rep => .ok (.vsra rep (vK w) (rd w) (rs1 w) (rs2 w))
  | 12 => orReject (Rep.ofBits (vRep w) (vRsz w)) .reservedValue fun rep => .ok (.vmin rep (vK w) (rd w) (rs1 w) (rs2 w))
  | 13 => orReject (Rep.ofBits (vRep w) (vRsz w)) .reservedValue fun rep => .ok (.vmax rep (vK w) (rd w) (rs1 w) (rs2 w))
  | 14 => orReject (Rep.ofBits (vRep w) (vRsz w)) .reservedValue fun rep => .ok (.vminu rep (vK w) (rd w) (rs1 w) (rs2 w))
  | 15 => orReject (Rep.ofBits (vRep w) (vRsz w)) .reservedValue fun rep => .ok (.vmaxu rep (vK w) (rd w) (rs1 w) (rs2 w))
  | 16 => orReject (Rep.ofBits (vRep w) (vRsz w)) .reservedValue fun rep => .ok (.vsadd rep (vK w) (rd w) (rs1 w) (rs2 w))
  | 17 => orReject (Rep.ofBits (vRep w) (vRsz w)) .reservedValue fun rep => .ok (.vsaddu rep (vK w) (rd w) (rs1 w) (rs2 w))
  | 18 => orReject (Rep.ofBits (vRep w) (vRsz w)) .reservedValue fun rep => .ok (.vssub rep (vK w) (rd w) (rs1 w) (rs2 w))
  | 19 => orReject (Rep.ofBits (vRep w) (vRsz w)) .reservedValue fun rep => .ok (.vssubu rep (vK w) (rd w) (rs1 w) (rs2 w))
  | 20 => orReject (Rep.ofBits (vRep w) (vRsz w)) .reservedValue fun rep => .ok (.vdiv rep (vK w) (rd w) (rs1 w) (rs2 w))
  | 21 => orReject (Rep.ofBits (vRep w) (vRsz w)) .reservedValue fun rep => .ok (.vdivu rep (vK w) (rd w) (rs1 w) (rs2 w))
  | 22 => orReject (Rep.ofBits (vRep w) (vRsz w)) .reservedValue fun rep => .ok (.vrem rep (vK w) (rd w) (rs1 w) (rs2 w))
  | 23 => orReject (Rep.ofBits (vRep w) (vRsz w)) .reservedValue fun rep => .ok (.vremu rep (vK w) (rd w) (rs1 w) (rs2 w))
  | 24 => orReject (Rep.ofBits (vRep w) (vRsz w)) .reservedValue fun rep => if dHi w = 0 then .ok (.vcmpeq rep (vK w) (cD w) (rs1 w) (rs2 w)) else .error .reservedBits
  | 25 => orReject (Rep.ofBits (vRep w) (vRsz w)) .reservedValue fun rep => if dHi w = 0 then .ok (.vcmpne rep (vK w) (cD w) (rs1 w) (rs2 w)) else .error .reservedBits
  | 26 => orReject (Rep.ofBits (vRep w) (vRsz w)) .reservedValue fun rep => if dHi w = 0 then .ok (.vcmplt rep (vK w) (cD w) (rs1 w) (rs2 w)) else .error .reservedBits
  | 27 => orReject (Rep.ofBits (vRep w) (vRsz w)) .reservedValue fun rep => if dHi w = 0 then .ok (.vcmpltu rep (vK w) (cD w) (rs1 w) (rs2 w)) else .error .reservedBits
  | 28 => orReject (Rep.ofBits (vRep w) (vRsz w)) .reservedValue fun rep => if dHi w = 0 then .ok (.vcmple rep (vK w) (cD w) (rs1 w) (rs2 w)) else .error .reservedBits
  | 29 => orReject (Rep.ofBits (vRep w) (vRsz w)) .reservedValue fun rep => if dHi w = 0 then .ok (.vcmpleu rep (vK w) (cD w) (rs1 w) (rs2 w)) else .error .reservedBits
  | 30 => orReject (Rep.ofBits (vRep w) (vRsz w)) .reservedValue fun rep => if vK w ≠ 0 then .ok (.vmerge rep (vK w) (rd w) (rs1 w) (rs2 w)) else .error .reservedBits
  | 31 => orReject (Rep.ofBits (vRep w) (vRsz w)) .reservedValue fun rep => if rs1 w = 0 then .ok (.vmv rep (vK w) (rd w) (rs2 w)) else .error .reservedBits
  | _ => .error .reservedFunction

/-- Major 0x22 (R58). -/
def decodeVfp (w : IWord) : Except DecodeError Instr :=
  match (vF5 w).toNat with
  | 0 => orReject (Rep.ofBits (vRep w) (vRsz w)) .reservedValue fun rep => .ok (.vfadd rep (vK w) (rd w) (rs1 w) (rs2 w))
  | 1 => orReject (Rep.ofBits (vRep w) (vRsz w)) .reservedValue fun rep => .ok (.vfsub rep (vK w) (rd w) (rs1 w) (rs2 w))
  | 2 => orReject (Rep.ofBits (vRep w) (vRsz w)) .reservedValue fun rep => .ok (.vfmul rep (vK w) (rd w) (rs1 w) (rs2 w))
  | 3 => orReject (Rep.ofBits (vRep w) (vRsz w)) .reservedValue fun rep => .ok (.vfdiv rep (vK w) (rd w) (rs1 w) (rs2 w))
  | 4 => orReject (Rep.ofBits (vRep w) (vRsz w)) .reservedValue fun rep => .ok (.vfmin rep (vK w) (rd w) (rs1 w) (rs2 w))
  | 5 => orReject (Rep.ofBits (vRep w) (vRsz w)) .reservedValue fun rep => .ok (.vfmax rep (vK w) (rd w) (rs1 w) (rs2 w))
  | 6 => orReject (Rep.ofBits (vRep w) (vRsz w)) .reservedValue fun rep => .ok (.vfsgnj rep (vK w) (rd w) (rs1 w) (rs2 w))
  | 7 => orReject (Rep.ofBits (vRep w) (vRsz w)) .reservedValue fun rep => .ok (.vfsgnjn rep (vK w) (rd w) (rs1 w) (rs2 w))
  | 8 => orReject (Rep.ofBits (vRep w) (vRsz w)) .reservedValue fun rep => .ok (.vfsgnjx rep (vK w) (rd w) (rs1 w) (rs2 w))
  | 9 => if vMode w = 0 ∧ rs2 w = 0 then .ok (.vfsqrt (vK w) (rd w) (rs1 w)) else .error .reservedBits
  | 10 => if vMode w = 0 ∧ rs2 w = 0 then .ok (.vfrecip (vK w) (rd w) (rs1 w)) else .error .reservedBits
  | 11 => if vMode w = 0 ∧ rs2 w = 0 then .ok (.vfrsqrt (vK w) (rd w) (rs1 w)) else .error .reservedBits
  | 12 => if vMode w = 0 ∧ rs2 w = 0 then .ok (.vfexp2 (vK w) (rd w) (rs1 w)) else .error .reservedBits
  | 13 => if vMode w = 0 ∧ rs2 w = 0 then .ok (.vflog2 (vK w) (rd w) (rs1 w)) else .error .reservedBits
  | 14 => if vMode w = 0 ∧ rs2 w = 0 then .ok (.vftanh (vK w) (rd w) (rs1 w)) else .error .reservedBits
  | 15 => if vMode w = 0 ∧ rs2 w = 0 then .ok (.vfclass (vK w) (rd w) (rs1 w)) else .error .reservedBits
  | 16 => orReject (Rep.ofBits (vRep w) (vRsz w)) .reservedValue fun rep => if dHi w = 0 then .ok (.vfcmpeq rep (vK w) (cD w) (rs1 w) (rs2 w)) else .error .reservedBits
  | 17 => orReject (Rep.ofBits (vRep w) (vRsz w)) .reservedValue fun rep => if dHi w = 0 then .ok (.vfcmpne rep (vK w) (cD w) (rs1 w) (rs2 w)) else .error .reservedBits
  | 18 => orReject (Rep.ofBits (vRep w) (vRsz w)) .reservedValue fun rep => if dHi w = 0 then .ok (.vfcmplt rep (vK w) (cD w) (rs1 w) (rs2 w)) else .error .reservedBits
  | 19 => orReject (Rep.ofBits (vRep w) (vRsz w)) .reservedValue fun rep => if dHi w = 0 then .ok (.vfcmple rep (vK w) (cD w) (rs1 w) (rs2 w)) else .error .reservedBits
  | 20 => orReject (Rep.ofBits (vRep w) (vRsz w)) .reservedValue fun rep => if dHi w = 0 then .ok (.vfcmpgt rep (vK w) (cD w) (rs1 w) (rs2 w)) else .error .reservedBits
  | 21 => orReject (Rep.ofBits (vRep w) (vRsz w)) .reservedValue fun rep => if dHi w = 0 then .ok (.vfcmpge rep (vK w) (cD w) (rs1 w) (rs2 w)) else .error .reservedBits
  | 22 => if vMode w = 0 then .ok (.vfmaxexp (vK w) (rd w) (rs1 w) (rs2 w)) else .error .reservedBits
  | _ => .error .reservedFunction

/-- Major 0x23 (R58). -/
def decodeVfma (w : IWord) : Except DecodeError Instr :=
  match (vF5 w).toNat with
  | 0 => orReject (Rep.ofBits (vRep w) (vRsz w)) .reservedValue fun rep => .ok (.vfmacc rep (vK w) (rd w) (rs1 w) (rs2 w))
  | 1 => orReject (Rep.ofBits (vRep w) (vRsz w)) .reservedValue fun rep => .ok (.vfnmacc rep (vK w) (rd w) (rs1 w) (rs2 w))
  | 2 => orReject (Rep.ofBits (vRep w) (vRsz w)) .reservedValue fun rep => .ok (.vfmsac rep (vK w) (rd w) (rs1 w) (rs2 w))
  | 3 => orReject (Rep.ofBits (vRep w) (vRsz w)) .reservedValue fun rep => .ok (.vfnmsac rep (vK w) (rd w) (rs1 w) (rs2 w))
  | 4 => orReject (Rep.ofBits (vRep w) (vRsz w)) .reservedValue fun rep => .ok (.vfwmacc rep (vK w) (rd w) (rs1 w) (rs2 w))
  | 5 => orReject (Rep.ofBits (vRep w) (vRsz w)) .reservedValue fun rep => .ok (.vfdot4 rep (vK w) (rd w) (rs1 w) (rs2 w))
  | 6 => orReject (Rep.ofBits (vRep w) (vRsz w)) .reservedValue fun rep => .ok (.vl6mul rep (vK w) (rd w) (rs1 w) (rs2 w))
  | 7 => orReject (Rep.ofBits (vRep w) (vRsz w)) .reservedValue fun rep => .ok (.vl6dot rep (vK w) (rd w) (rs1 w) (rs2 w))
  | 8 => orReject (Rep.ofBits (vRep w) (vRsz w)) .reservedValue fun rep => .ok (.vmacc rep (vK w) (rd w) (rs1 w) (rs2 w))
  | 9 => orReject (Rep.ofBits (vRep w) (vRsz w)) .reservedValue fun rep => .ok (.vwmacc rep (vK w) (rd w) (rs1 w) (rs2 w))
  | _ => .error .reservedFunction

/-- Major 0x24 (R59). -/
def decodeVcvt (w : IWord) : Except DecodeError Instr :=
  match (vF5 w).toNat with
  | 0 => orReject (SrcFmt.ofBits (rs2 w)) .reservedValue fun fm => if vMode w = 0 then .ok (.vcvt (vK w) (rd w) (rs1 w) fm) else .error .reservedBits
  | 1 => orReject (IntWidth.ofBits (cB w)) .reservedValue fun iw => if vMode w = 0 ∧ bHi w = 0 then .ok (.vcvti (vK w) (rd w) (rs1 w) iw) else .error .reservedBits
  | 2 => orReject (IntWidth.ofBits (cB w)) .reservedValue fun iw => if vMode w = 0 ∧ bHi w = 0 then .ok (.vcvtu (vK w) (rd w) (rs1 w) iw) else .error .reservedBits
  | 3 => orReject (SrcFmt.ofBits (rs2 w)) .reservedValue fun fm => if vMode w = 0 then .ok (.vcvtsr (vK w) (rd w) (rs1 w) fm) else .error .reservedBits
  | 4 => if vMode w = 0 then .ok (.vquant (vK w) (rd w) (rs1 w) (rs2 w)) else .error .reservedBits
  | 5 => if vMode w = 0 then .ok (.vdequant (vK w) (rd w) (rs1 w) (rs2 w)) else .error .reservedBits
  | _ => .error .reservedFunction

/-- Major 0x25 (R60). -/
def decodeVmask (w : IWord) : Except DecodeError Instr :=
  match (vF5 w).toNat with
  | 0 => if vMode w = 0 ∧ vK w = 0 ∧ dHi w = 0 ∧ aHi w = 0 ∧ bHi w = 0 then .ok (.kand (cD w) (cA w) (cB w)) else .error .reservedBits
  | 1 => if vMode w = 0 ∧ vK w = 0 ∧ dHi w = 0 ∧ aHi w = 0 ∧ bHi w = 0 then .ok (.kor (cD w) (cA w) (cB w)) else .error .reservedBits
  | 2 => if vMode w = 0 ∧ vK w = 0 ∧ dHi w = 0 ∧ aHi w = 0 ∧ bHi w = 0 then .ok (.kxor (cD w) (cA w) (cB w)) else .error .reservedBits
  | 3 => if vMode w = 0 ∧ vK w = 0 ∧ dHi w = 0 ∧ aHi w = 0 ∧ bHi w = 0 then .ok (.kandn (cD w) (cA w) (cB w)) else .error .reservedBits
  | 4 => if vMode w = 0 ∧ vK w = 0 ∧ rs2 w = 0 ∧ dHi w = 0 ∧ aHi w = 0 then .ok (.knot (cD w) (cA w)) else .error .reservedBits
  | 5 => if vMode w = 0 ∧ vK w = 0 ∧ rs2 w = 0 ∧ aHi w = 0 then .ok (.kpop (rd w) (cA w)) else .error .reservedBits
  | 6 => if vMode w = 0 ∧ vK w = 0 ∧ rs2 w = 0 ∧ aHi w = 0 then .ok (.kfirst (rd w) (cA w)) else .error .reservedBits
  | 7 => if vMode w = 0 ∧ rs2 w = 0 then .ok (.vcompress (vK w) (rd w) (rs1 w)) else .error .reservedBits
  | 8 => if vMode w = 0 ∧ rs2 w = 0 then .ok (.vexpand (vK w) (rd w) (rs1 w)) else .error .reservedBits
  | 9 => if vMode w = 0 ∧ rs2 w = 0 ∧ aHi w = 0 then .ok (.vprefpop (vK w) (rd w) (cA w)) else .error .reservedBits
  | 10 => if vMode w = 0 ∧ rs2 w = 0 then .ok (.vconflict (vK w) (rd w) (rs1 w)) else .error .reservedBits
  | 11 => if vMode w = 0 then .ok (.vslideup (vK w) (rd w) (rs1 w) (rs2 w)) else .error .reservedBits
  | 12 => if vMode w = 0 then .ok (.vslidedown (vK w) (rd w) (rs1 w) (rs2 w)) else .error .reservedBits
  | 13 => if vMode w = 0 then .ok (.vrgather (vK w) (rd w) (rs1 w) (rs2 w)) else .error .reservedBits
  | 14 => if vMode w = 0 ∧ rs2 w = 0 ∧ rs1 w = 0 then .ok (.vid (vK w) (rd w)) else .error .reservedBits
  | 15 => if vMode w = 0 ∧ vK w = 0 ∧ rs2 w = 0 then .ok (.vmvx (rd w) (rs1 w)) else .error .reservedBits
  | 16 => if vMode w = 0 ∧ vK w = 0 ∧ rs2 w = 0 then .ok (.vmvxs (rd w) (rs1 w)) else .error .reservedBits
  | _ => .error .reservedFunction

/-- Major 0x26 (R60). -/
noncomputable def decodeVred (w : IWord) : Except DecodeError Instr :=
  match (vF5 w).toNat with
  | 0 => if vMode w = 0 then .ok (.vredsum (vK w) (rd w) (rs1 w) (rs2 w)) else .error .reservedBits
  | 1 => if vMode w = 0 then .ok (.vredmin (vK w) (rd w) (rs1 w) (rs2 w)) else .error .reservedBits
  | 2 => if vMode w = 0 then .ok (.vredmax (vK w) (rd w) (rs1 w) (rs2 w)) else .error .reservedBits
  | 3 => if vMode w = 0 then .ok (.vredminu (vK w) (rd w) (rs1 w) (rs2 w)) else .error .reservedBits
  | 4 => if vMode w = 0 then .ok (.vredmaxu (vK w) (rd w) (rs1 w) (rs2 w)) else .error .reservedBits
  | 5 => if vMode w = 0 then .ok (.vredand (vK w) (rd w) (rs1 w) (rs2 w)) else .error .reservedBits
  | 6 => if vMode w = 0 then .ok (.vredor (vK w) (rd w) (rs1 w) (rs2 w)) else .error .reservedBits
  | 7 => if vMode w = 0 then .ok (.vredxor (vK w) (rd w) (rs1 w) (rs2 w)) else .error .reservedBits
  | 8 => if vMode w = 0 then .ok (.vfredsum (vK w) (rd w) (rs1 w) (rs2 w)) else .error .reservedBits
  | 9 => if vMode w = 0 then .ok (.vfredsum2 (vK w) (rd w) (rs1 w) (rs2 w)) else .error .reservedBits
  | 10 => if vMode w = 0 then .ok (.vfredmin (vK w) (rd w) (rs1 w) (rs2 w)) else .error .reservedBits
  | 11 => if vMode w = 0 then .ok (.vfredmax (vK w) (rd w) (rs1 w) (rs2 w)) else .error .reservedBits
  | 12 => if vMode w = 0 then .ok (.vtopk (vK w) (rd w) (rs1 w) (rs2 w)) else .error .reservedBits
  | 13 => if vMode w = 0 ∧ bHi w = 0 then .ok (.vsegscan (vK w) (rd w) (rs1 w) (cB w)) else .error .reservedBits
  | 14 => if vMode w = 0 ∧ bHi w = 0 then .ok (.vfsegscan (vK w) (rd w) (rs1 w) (cB w)) else .error .reservedBits
  | _ => .error .reservedFunction

/-- Major 0x27 (R60). -/
noncomputable def decodeVstr (w : IWord) : Except DecodeError Instr :=
  match (vF5 w).toNat with
  | 0 => if vMode w = 0 then .ok (.vbcmp (vK w) (rd w) (rs1 w) (rs2 w)) else .error .reservedBits
  | 1 => if vMode w = 0 ∧ dHi w = 0 then .ok (.vbeq (vK w) (cD w) (rs1 w) (rs2 w)) else .error .reservedBits
  | 2 => if vMode w = 0 then .ok (.vbfind (vK w) (rd w) (rs1 w) (rs2 w)) else .error .reservedBits
  | 3 => orReject (Rep.ofBits (vRep w) (vRsz w)) .reservedValue fun rep => .ok (.vqmix rep (vK w) (rd w) (rs1 w) (rs2 w))
  | 4 => if vMode w = 0 then .ok (.vhacc (vK w) (rd w) (rs1 w) (rs2 w)) else .error .reservedBits
  | 5 => if vMode w = 0 then .ok (.vnfa (vK w) (rd w) (rs1 w) (rs2 w)) else .error .reservedBits
  | 6 => if vMode w = 0 ∧ rd w = 0 then .ok (.vkvmass (vK w) (rs1 w) (rs2 w)) else .error .reservedBits
  | 7 => if vMode w = 0 ∧ rs2 w = 0 then .ok (.vkvpos (vK w) (rd w) (rs1 w)) else .error .reservedBits
  | _ => .error .reservedFunction

/-- Major 0x28 (R61). -/
noncomputable def decodeVload (w : IWord) : Except DecodeError Instr :=
  match ((vF5 w).extractLsb' 0 3).toNat, (vmMode w).toNat with
  | 0, 0 => if (vF5 w).extractLsb' 3 2 = 0 ∧ rs2 w = 0 then .ok (.vld (vK w) (rd w) (rs1 w)) else .error .reservedBits
  | 0, 1 => if (vF5 w).extractLsb' 3 2 = 0 then .ok (.vlds (vK w) (rd w) (rs1 w) (rs2 w)) else .error .reservedBits
  | 0, 2 => orReject (IdxWidth.ofBits ((vF5 w).extractLsb' 3 2)) .reservedValue fun ix => .ok (.vldxo ix (vK w) (rd w) (rs1 w) (rs2 w))
  | 0, 3 => orReject (IdxWidth.ofBits ((vF5 w).extractLsb' 3 2)) .reservedValue fun ix => .ok (.vldx ix (vK w) (rd w) (rs1 w) (rs2 w))
  | 1, 0 => if (vF5 w).extractLsb' 3 2 = 0 ∧ vK w = 0 ∧ rs2 w = 0 ∧ dHi w = 0 then .ok (.vldk (cD w) (rs1 w)) else .error .reservedBits
  | 2, 0 => if (vF5 w).extractLsb' 3 2 = 0 ∧ vK w = 0 ∧ rs2 w = 0 then .ok (.vldw (rd w) (rs1 w)) else .error .reservedBits
  | _, _ => .error .reservedFunction

/-- Major 0x29 (R61). -/
noncomputable def decodeVstore (w : IWord) : Except DecodeError Instr :=
  match ((vF5 w).extractLsb' 0 3).toNat, (vmMode w).toNat with
  | 0, 0 => if (vF5 w).extractLsb' 3 2 = 0 ∧ rs2 w = 0 then .ok (.vst (vK w) (rd w) (rs1 w)) else .error .reservedBits
  | 0, 1 => if (vF5 w).extractLsb' 3 2 = 0 then .ok (.vsts (vK w) (rd w) (rs1 w) (rs2 w)) else .error .reservedBits
  | 0, 2 => orReject (IdxWidth.ofBits ((vF5 w).extractLsb' 3 2)) .reservedValue fun ix => .ok (.vstxo ix (vK w) (rd w) (rs1 w) (rs2 w))
  | 0, 3 => orReject (IdxWidth.ofBits ((vF5 w).extractLsb' 3 2)) .reservedValue fun ix => .ok (.vstx ix (vK w) (rd w) (rs1 w) (rs2 w))
  | 1, 0 => if (vF5 w).extractLsb' 3 2 = 0 ∧ vK w = 0 ∧ rs2 w = 0 ∧ dHi w = 0 then .ok (.vstk (cD w) (rs1 w)) else .error .reservedBits
  | 2, 0 => if (vF5 w).extractLsb' 3 2 = 0 ∧ vK w = 0 ∧ rs2 w = 0 then .ok (.vstw (rd w) (rs1 w)) else .error .reservedBits
  | _, _ => .error .reservedFunction

/-- Major 0x2A (R61). -/
noncomputable def decodeVamo (w : IWord) : Except DecodeError Instr :=
  match (vF5 w).toNat with
  | 0 => orReject (VamoMode.ofBits (vmMode w)) .reservedValue fun mo => if mo ≠ .unit ∨ rs2 w = 0 then .ok (.vamoadd mo (vK w) (rd w) (rs1 w) (rs2 w)) else .error .reservedBits
  | 1 => orReject (VamoMode.ofBits (vmMode w)) .reservedValue fun mo => if mo ≠ .unit ∨ rs2 w = 0 then .ok (.vamoand mo (vK w) (rd w) (rs1 w) (rs2 w)) else .error .reservedBits
  | 2 => orReject (VamoMode.ofBits (vmMode w)) .reservedValue fun mo => if mo ≠ .unit ∨ rs2 w = 0 then .ok (.vamoor mo (vK w) (rd w) (rs1 w) (rs2 w)) else .error .reservedBits
  | 3 => orReject (VamoMode.ofBits (vmMode w)) .reservedValue fun mo => if mo ≠ .unit ∨ rs2 w = 0 then .ok (.vamoxor mo (vK w) (rd w) (rs1 w) (rs2 w)) else .error .reservedBits
  | 4 => orReject (VamoMode.ofBits (vmMode w)) .reservedValue fun mo => if mo ≠ .unit ∨ rs2 w = 0 then .ok (.vamomin mo (vK w) (rd w) (rs1 w) (rs2 w)) else .error .reservedBits
  | 5 => orReject (VamoMode.ofBits (vmMode w)) .reservedValue fun mo => if mo ≠ .unit ∨ rs2 w = 0 then .ok (.vamomax mo (vK w) (rd w) (rs1 w) (rs2 w)) else .error .reservedBits
  | 6 => orReject (VamoMode.ofBits (vmMode w)) .reservedValue fun mo => if mo ≠ .unit ∨ rs2 w = 0 then .ok (.vamominu mo (vK w) (rd w) (rs1 w) (rs2 w)) else .error .reservedBits
  | 7 => orReject (VamoMode.ofBits (vmMode w)) .reservedValue fun mo => if mo ≠ .unit ∨ rs2 w = 0 then .ok (.vamomaxu mo (vK w) (rd w) (rs1 w) (rs2 w)) else .error .reservedBits
  | 8 => orReject (VamoMode.ofBits (vmMode w)) .reservedValue fun mo => if mo ≠ .unit ∨ rs2 w = 0 then .ok (.vamoswap mo (vK w) (rd w) (rs1 w) (rs2 w)) else .error .reservedBits
  | 9 => orReject (VamoMode.ofBits (vmMode w)) .reservedValue fun mo => if mo ≠ .unit ∨ rs2 w = 0 then .ok (.vamofadd mo (vK w) (rd w) (rs1 w) (rs2 w)) else .error .reservedBits
  | _ => .error .reservedFunction

/-- Major 0x2B (R58). -/
noncomputable def decodeVquad (w : IWord) : Except DecodeError Instr :=
  match ((f11 w).extractLsb' 5 6).toNat with
  | 0 => .ok (.vfmadd (rd w) (rs1 w) (rs2 w) ((f11 w).extractLsb' 0 5))
  | 1 => .ok (.vfmsub (rd w) (rs1 w) (rs2 w) ((f11 w).extractLsb' 0 5))
  | 2 => .ok (.vfnmadd (rd w) (rs1 w) (rs2 w) ((f11 w).extractLsb' 0 5))
  | 3 => .ok (.vfnmsub (rd w) (rs1 w) (rs2 w) ((f11 w).extractLsb' 0 5))
  | 4 => .ok (.vbsel (rd w) (rs1 w) (rs2 w) ((f11 w).extractLsb' 0 5))
  | 5 => .ok (.vmadd (rd w) (rs1 w) (rs2 w) ((f11 w).extractLsb' 0 5))
  | _ => .error .reservedFunction

/-- Major 0x2C (R56). -/
noncomputable def decodeCopy (w : IWord) : Except DecodeError Instr :=
  match ((f11 w).extractLsb' 2 9).toNat with
  | 0 => if rs2 w = 0 ∧ rd w = 0 then .ok (.tcopy (cpQ w) (rs1 w)) else .error .reservedBits
  | 1 => .ok (.copy1d (cpQ w) (rd w) (rs1 w) (rs2 w))
  | 2 => if cpQ w = 0 ∧ rs2 w = 0 ∧ dHi w = 3 then .ok (.sbind (cD w) (rs1 w)) else .error .reservedBits
  | 3 => if cpQ w = 0 ∧ rs2 w = 0 ∧ rs1 w = 0 ∧ dHi w = 3 then .ok (.sunbind (cD w)) else .error .reservedBits
  | _ => .error .reservedFunction

/-- Major 0x2D (R56). -/
noncomputable def decodeStage (w : IWord) : Except DecodeError Instr :=
  match (f11 w).toNat with
  | 0 => if rs2 w = 0 ∧ rd w = 0 then .ok (.tqtile (rs1 w)) else .error .reservedBits
  | 1 => if rs2 w = 0 ∧ rd w = 0 then .ok (.mstage (rs1 w)) else .error .reservedBits
  | 2 => if rs2 w = 0 ∧ rd w = 0 then .ok (.mchain (rs1 w)) else .error .reservedBits
  | 3 => if rs2 w = 0 ∧ rd w = 0 then .ok (.mdense (rs1 w)) else .error .reservedBits
  | 4 => if rs2 w = 0 ∧ rd w = 0 then .ok (.mload (rs1 w)) else .error .reservedBits
  | 5 => if rs2 w = 0 ∧ rd w = 0 then .ok (.mstore (rs1 w)) else .error .reservedBits
  | 6 => if rs2 w = 0 ∧ rd w = 0 then .ok (.mzero (rs1 w)) else .error .reservedBits
  | _ => .error .reservedFunction

/-- The instruction that a word holds, or the reason why it is none (R34, R40). -/
noncomputable def decode (w : IWord) : Except DecodeError Instr :=
  match (op w).toNat with
  | 1 => decodeAlu w
  | 2 => .ok (.addi (rd w) (rs1 w) (imm16 w))
  | 3 => .ok (.andi (rd w) (rs1 w) (imm16 w))
  | 4 => .ok (.ori (rd w) (rs1 w) (imm16 w))
  | 5 => .ok (.xori (rd w) (rs1 w) (imm16 w))
  | 6 => .ok (.ldhi (rd w) (off21 w))
  | 7 => .ok (.pcadd (rd w) (off21 w))
  | 8 => decodeLoad w
  | 9 => decodeStore w
  | 10 => decodeBranch w
  | 11 => if rd w = 15 then .ok (.bs (off21 w)) else .error .reservedValue
  | 12 => .ok (.jal (rd w) (off21 w))
  | 13 => .ok (.jalr (rd w) (rs1 w) (imm16 w))
  | 14 => decodeCmp w
  | 15 => decodeCmpiA w
  | 16 => decodeCmpiB w
  | 17 => decodeShiftImm w
  | 21 => decodeLoop w
  | 22 => decodeFp w
  | 23 => decodeFma w
  | 24 => decodeCsr w
  | 25 => decodeSystem w
  | 26 => decodeAtomic w
  | 27 => decodeSync w
  | 28 => decodeTask w
  | 29 => decodeGang w
  | 30 => decodeFwd w
  | 31 => decodeKv w
  | 32 => decodeVcfg w
  | 33 => decodeVint w
  | 34 => decodeVfp w
  | 35 => decodeVfma w
  | 36 => decodeVcvt w
  | 37 => decodeVmask w
  | 38 => decodeVred w
  | 39 => decodeVstr w
  | 40 => decodeVload w
  | 41 => decodeVstore w
  | 42 => decodeVamo w
  | 43 => decodeVquad w
  | 44 => decodeCopy w
  | 45 => decodeStage w
  | 46 => if rd w = 0 then .ok (.tmark (rs1 w) (imm16 w)) else .error .reservedBits
  | _ => .error .reservedMajor

/-- The word of an instruction, by the same encoding tables; the steps without a word have none. -/
def encode : Instr → Option IWord
  | .add rd rs1 rs2 => some (pack 0#11 rs2 rs1 rd 1#6)
  | .sub rd rs1 rs2 => some (pack 1#11 rs2 rs1 rd 1#6)
  | .and rd rs1 rs2 => some (pack 2#11 rs2 rs1 rd 1#6)
  | .or rd rs1 rs2 => some (pack 3#11 rs2 rs1 rd 1#6)
  | .xor rd rs1 rs2 => some (pack 4#11 rs2 rs1 rd 1#6)
  | .andn rd rs1 rs2 => some (pack 5#11 rs2 rs1 rd 1#6)
  | .sll rd rs1 rs2 => some (pack 6#11 rs2 rs1 rd 1#6)
  | .srl rd rs1 rs2 => some (pack 7#11 rs2 rs1 rd 1#6)
  | .sra rd rs1 rs2 => some (pack 8#11 rs2 rs1 rd 1#6)
  | .mul rd rs1 rs2 => some (pack 9#11 rs2 rs1 rd 1#6)
  | .mulh rd rs1 rs2 => some (pack 10#11 rs2 rs1 rd 1#6)
  | .mulhu rd rs1 rs2 => some (pack 11#11 rs2 rs1 rd 1#6)
  | .mulhsu rd rs1 rs2 => some (pack 12#11 rs2 rs1 rd 1#6)
  | .div rd rs1 rs2 => some (pack 13#11 rs2 rs1 rd 1#6)
  | .divu rd rs1 rs2 => some (pack 14#11 rs2 rs1 rd 1#6)
  | .rem rd rs1 rs2 => some (pack 15#11 rs2 rs1 rd 1#6)
  | .remu rd rs1 rs2 => some (pack 16#11 rs2 rs1 rd 1#6)
  | .min rd rs1 rs2 => some (pack 17#11 rs2 rs1 rd 1#6)
  | .max rd rs1 rs2 => some (pack 18#11 rs2 rs1 rd 1#6)
  | .minu rd rs1 rs2 => some (pack 19#11 rs2 rs1 rd 1#6)
  | .maxu rd rs1 rs2 => some (pack 20#11 rs2 rs1 rd 1#6)
  | .clz rd rs1 => some (pack 21#11 0#5 rs1 rd 1#6)
  | .ctz rd rs1 => some (pack 22#11 0#5 rs1 rd 1#6)
  | .pop rd rs1 => some (pack 23#11 0#5 rs1 rd 1#6)
  | .bswap rd rs1 => some (pack 24#11 0#5 rs1 rd 1#6)
  | .sh1add rd rs1 rs2 => some (pack 25#11 rs2 rs1 rd 1#6)
  | .sh2add rd rs1 rs2 => some (pack 26#11 rs2 rs1 rd 1#6)
  | .sh3add rd rs1 rs2 => some (pack 27#11 rs2 rs1 rd 1#6)
  | .rotl rd rs1 rs2 => some (pack 28#11 rs2 rs1 rd 1#6)
  | .rotr rd rs1 rs2 => some (pack 29#11 rs2 rs1 rd 1#6)
  | .addi rd rs1 imm => some (pack (immHi16 imm) (immLo16 imm) rs1 rd 2#6)
  | .andi rd rs1 imm => some (pack (immHi16 imm) (immLo16 imm) rs1 rd 3#6)
  | .ori rd rs1 imm => some (pack (immHi16 imm) (immLo16 imm) rs1 rd 4#6)
  | .xori rd rs1 imm => some (pack (immHi16 imm) (immLo16 imm) rs1 rd 5#6)
  | .ldhi rd imm => some (pack (imm.extractLsb' 10 11) (imm.extractLsb' 5 5) (imm.extractLsb' 0 5) rd 6#6)
  | .pcadd rd imm => some (pack (imm.extractLsb' 10 11) (imm.extractLsb' 5 5) (imm.extractLsb' 0 5) rd 7#6)
  | .slli rd rs1 shamt => some (pack (0#5 ++ shamt) 0#5 rs1 rd 17#6)
  | .srli rd rs1 shamt => some (pack (1#5 ++ shamt) 0#5 rs1 rd 17#6)
  | .srai rd rs1 shamt => some (pack (2#5 ++ shamt) 0#5 rs1 rd 17#6)
  | .rotli rd rs1 shamt => some (pack (3#5 ++ shamt) 0#5 rs1 rd 17#6)
  | .ldB rd rs1 imm => some (pack (imm.extractLsb' 2 11) (imm.extractLsb' 0 2 ++ 0#3) rs1 rd 8#6)
  | .ldH rd rs1 imm => some (pack (imm.extractLsb' 2 11) (imm.extractLsb' 0 2 ++ 1#3) rs1 rd 8#6)
  | .ldW rd rs1 imm => some (pack (imm.extractLsb' 2 11) (imm.extractLsb' 0 2 ++ 2#3) rs1 rd 8#6)
  | .ldD rd rs1 imm => some (pack (imm.extractLsb' 2 11) (imm.extractLsb' 0 2 ++ 3#3) rs1 rd 8#6)
  | .ldBu rd rs1 imm => some (pack (imm.extractLsb' 2 11) (imm.extractLsb' 0 2 ++ 4#3) rs1 rd 8#6)
  | .ldHu rd rs1 imm => some (pack (imm.extractLsb' 2 11) (imm.extractLsb' 0 2 ++ 5#3) rs1 rd 8#6)
  | .ldWu rd rs1 imm => some (pack (imm.extractLsb' 2 11) (imm.extractLsb' 0 2 ++ 6#3) rs1 rd 8#6)
  | .stB rs1 data imm => some (pack (imm.extractLsb' 3 11) (imm.extractLsb' 0 3 ++ 0#2) rs1 data 9#6)
  | .stH rs1 data imm => some (pack (imm.extractLsb' 3 11) (imm.extractLsb' 0 3 ++ 1#2) rs1 data 9#6)
  | .stW rs1 data imm => some (pack (imm.extractLsb' 3 11) (imm.extractLsb' 0 3 ++ 2#2) rs1 data 9#6)
  | .stD rs1 data imm => some (pack (imm.extractLsb' 3 11) (imm.extractLsb' 0 3 ++ 3#2) rs1 data 9#6)
  | .bt n off => some (pack (off.extractLsb' 10 11) (off.extractLsb' 5 5) (off.extractLsb' 0 5) (1#2 ++ n) 10#6)
  | .bf n off => some (pack (off.extractLsb' 10 11) (off.extractLsb' 5 5) (off.extractLsb' 0 5) (0#2 ++ n) 10#6)
  | .bs off => some (pack (off.extractLsb' 10 11) (off.extractLsb' 5 5) (off.extractLsb' 0 5) 15#5 11#6)
  | .jal rd imm => some (pack (imm.extractLsb' 10 11) (imm.extractLsb' 5 5) (imm.extractLsb' 0 5) rd 12#6)
  | .jalr rd rs1 imm => some (pack (immHi16 imm) (immLo16 imm) rs1 rd 13#6)
  | .cmpeq n rs1 rs2 => some (pack 0#11 rs2 rs1 (0#2 ++ n) 14#6)
  | .cmpne n rs1 rs2 => some (pack 1#11 rs2 rs1 (0#2 ++ n) 14#6)
  | .cmplt n rs1 rs2 => some (pack 2#11 rs2 rs1 (0#2 ++ n) 14#6)
  | .cmpge n rs1 rs2 => some (pack 3#11 rs2 rs1 (0#2 ++ n) 14#6)
  | .cmpltu n rs1 rs2 => some (pack 4#11 rs2 rs1 (0#2 ++ n) 14#6)
  | .cmpgeu n rs1 rs2 => some (pack 5#11 rs2 rs1 (0#2 ++ n) 14#6)
  | .cand d a b => some (pack 16#11 (0#2 ++ b) (0#2 ++ a) (0#2 ++ d) 14#6)
  | .cor d a b => some (pack 17#11 (0#2 ++ b) (0#2 ++ a) (0#2 ++ d) 14#6)
  | .cxor d a b => some (pack 18#11 (0#2 ++ b) (0#2 ++ a) (0#2 ++ d) 14#6)
  | .candn d a b => some (pack 19#11 (0#2 ++ b) (0#2 ++ a) (0#2 ++ d) 14#6)
  | .cget rd a => some (pack 24#11 0#5 (0#2 ++ a) rd 14#6)
  | .cmpeqi n rs1 imm => some (pack (immHi16 imm) (immLo16 imm) rs1 (0#2 ++ n) 15#6)
  | .cmpnei n rs1 imm => some (pack (immHi16 imm) (immLo16 imm) rs1 (1#2 ++ n) 15#6)
  | .cmplti n rs1 imm => some (pack (immHi16 imm) (immLo16 imm) rs1 (2#2 ++ n) 15#6)
  | .cmpgei n rs1 imm => some (pack (immHi16 imm) (immLo16 imm) rs1 (3#2 ++ n) 15#6)
  | .cmpltui n rs1 imm => some (pack (immHi16 imm) (immLo16 imm) rs1 (0#2 ++ n) 16#6)
  | .cmpgeui n rs1 imm => some (pack (immHi16 imm) (immLo16 imm) rs1 (1#2 ++ n) 16#6)
  | .cmpgti n rs1 imm => some (pack (immHi16 imm) (immLo16 imm) rs1 (2#2 ++ n) 16#6)
  | .cmplei n rs1 imm => some (pack (immHi16 imm) (immLo16 imm) rs1 (3#2 ++ n) 16#6)
  | .loop rs1 endOff => some (pack (endOff.extractLsb' 2 11) (endOff.extractLsb' 0 2 ++ 0#3) rs1 0#5 21#6)
  | .loopi count endOff => some (pack (endOff.extractLsb' 2 11) (endOff.extractLsb' 0 2 ++ count.extractLsb' 9 3) (count.extractLsb' 4 5) (count.extractLsb' 0 4 ++ 1#1) 21#6)
  | .loopBackEdge => none
  | .fadd p rm rd rs1 rs2 => some (pack (0#7 ++ rm.toBits ++ p.toBits) rs2 rs1 rd 22#6)
  | .fsub p rm rd rs1 rs2 => some (pack (1#7 ++ rm.toBits ++ p.toBits) rs2 rs1 rd 22#6)
  | .fmul p rm rd rs1 rs2 => some (pack (2#7 ++ rm.toBits ++ p.toBits) rs2 rs1 rd 22#6)
  | .fdiv p rm rd rs1 rs2 => some (pack (3#7 ++ rm.toBits ++ p.toBits) rs2 rs1 rd 22#6)
  | .fsqrt p rm rd rs1 => some (pack (4#7 ++ rm.toBits ++ p.toBits) 0#5 rs1 rd 22#6)
  | .fmin p rd rs1 rs2 => some (pack (5#7 ++ 0#3 ++ p.toBits) rs2 rs1 rd 22#6)
  | .fmax p rd rs1 rs2 => some (pack (6#7 ++ 0#3 ++ p.toBits) rs2 rs1 rd 22#6)
  | .fsgnj p rd rs1 rs2 => some (pack (7#7 ++ 0#3 ++ p.toBits) rs2 rs1 rd 22#6)
  | .fsgnjn p rd rs1 rs2 => some (pack (8#7 ++ 0#3 ++ p.toBits) rs2 rs1 rd 22#6)
  | .fsgnjx p rd rs1 rs2 => some (pack (9#7 ++ 0#3 ++ p.toBits) rs2 rs1 rd 22#6)
  | .ftol p rm rd rs1 => some (pack (10#7 ++ rm.toBits ++ p.toBits) 0#5 rs1 rd 22#6)
  | .ftolu p rm rd rs1 => some (pack (11#7 ++ rm.toBits ++ p.toBits) 0#5 rs1 rd 22#6)
  | .ftow p rm rd rs1 => some (pack (12#7 ++ rm.toBits ++ p.toBits) 0#5 rs1 rd 22#6)
  | .ftowu p rm rd rs1 => some (pack (13#7 ++ rm.toBits ++ p.toBits) 0#5 rs1 rd 22#6)
  | .ltof p rm rd rs1 => some (pack (14#7 ++ rm.toBits ++ p.toBits) 0#5 rs1 rd 22#6)
  | .lutof p rm rd rs1 => some (pack (15#7 ++ rm.toBits ++ p.toBits) 0#5 rs1 rd 22#6)
  | .fprec p rm rd rs1 => some (pack (16#7 ++ rm.toBits ++ p.toBits) 0#5 rs1 rd 22#6)
  | .fclass p rd rs1 => some (pack (17#7 ++ 0#3 ++ p.toBits) 0#5 rs1 rd 22#6)
  | .feq p n rs1 rs2 => some (pack (18#7 ++ 0#3 ++ p.toBits) rs2 rs1 (0#2 ++ n) 22#6)
  | .flt p n rs1 rs2 => some (pack (19#7 ++ 0#3 ++ p.toBits) rs2 rs1 (0#2 ++ n) 22#6)
  | .fle p n rs1 rs2 => some (pack (20#7 ++ 0#3 ++ p.toBits) rs2 rs1 (0#2 ++ n) 22#6)
  | .fadd2 rd rs1 rs2 => some (pack (21#7 ++ 0#3 ++ 0#1) rs2 rs1 rd 22#6)
  | .fmadd p rm rd rs1 rs2 rs3 => some (pack (rm.toBits ++ 0#2 ++ p.toBits ++ rs3) rs2 rs1 rd 23#6)
  | .fmsub p rm rd rs1 rs2 rs3 => some (pack (rm.toBits ++ 1#2 ++ p.toBits ++ rs3) rs2 rs1 rd 23#6)
  | .fnmadd p rm rd rs1 rs2 rs3 => some (pack (rm.toBits ++ 2#2 ++ p.toBits ++ rs3) rs2 rs1 rd 23#6)
  | .fnmsub p rm rd rs1 rs2 rs3 => some (pack (rm.toBits ++ 3#2 ++ p.toBits ++ rs3) rs2 rs1 rd 23#6)
  | .csrrw rd csr rs1 => some (pack (0#2 ++ csr.extractLsb' 5 9) (csr.extractLsb' 0 5) rs1 rd 24#6)
  | .csrrs rd csr rs1 => some (pack (1#2 ++ csr.extractLsb' 5 9) (csr.extractLsb' 0 5) rs1 rd 24#6)
  | .csrrc rd csr rs1 => some (pack (2#2 ++ csr.extractLsb' 5 9) (csr.extractLsb' 0 5) rs1 rd 24#6)
  | .ecall => some (pack 0#11 0#5 0#5 0#5 25#6)
  | .ebreak => some (pack 1#11 0#5 0#5 0#5 25#6)
  | .eret => some (pack 2#11 0#5 0#5 0#5 25#6)
  | .ptflush rs1 rs2 => some (pack 3#11 rs2 rs1 0#5 25#6)
  | .icflush => some (pack 4#11 0#5 0#5 0#5 25#6)
  | .nopSys => some (pack 5#11 0#5 0#5 0#5 25#6)
  | .amoswap sc o wd rd rs1 rs2 => some (pack (sc.toBits ++ o.toBits ++ wd.toBits ++ 0#5) rs2 rs1 rd 26#6)
  | .amoadd sc o wd rd rs1 rs2 => some (pack (sc.toBits ++ o.toBits ++ wd.toBits ++ 1#5) rs2 rs1 rd 26#6)
  | .amoand sc o wd rd rs1 rs2 => some (pack (sc.toBits ++ o.toBits ++ wd.toBits ++ 2#5) rs2 rs1 rd 26#6)
  | .amoor sc o wd rd rs1 rs2 => some (pack (sc.toBits ++ o.toBits ++ wd.toBits ++ 3#5) rs2 rs1 rd 26#6)
  | .amoxor sc o wd rd rs1 rs2 => some (pack (sc.toBits ++ o.toBits ++ wd.toBits ++ 4#5) rs2 rs1 rd 26#6)
  | .amomin sc o wd rd rs1 rs2 => some (pack (sc.toBits ++ o.toBits ++ wd.toBits ++ 5#5) rs2 rs1 rd 26#6)
  | .amomax sc o wd rd rs1 rs2 => some (pack (sc.toBits ++ o.toBits ++ wd.toBits ++ 6#5) rs2 rs1 rd 26#6)
  | .amominu sc o wd rd rs1 rs2 => some (pack (sc.toBits ++ o.toBits ++ wd.toBits ++ 7#5) rs2 rs1 rd 26#6)
  | .amomaxu sc o wd rd rs1 rs2 => some (pack (sc.toBits ++ o.toBits ++ wd.toBits ++ 8#5) rs2 rs1 rd 26#6)
  | .amofadd sc o wd rd rs1 rs2 => some (pack (sc.toBits ++ o.toBits ++ wd.toBits ++ 9#5) rs2 rs1 rd 26#6)
  | .amocas sc o wd rd rs1 rs2 => some (pack (sc.toBits ++ o.toBits ++ wd.toBits ++ 10#5) rs2 rs1 rd 26#6)
  | .amold sc o wd rd rs1 => some (pack (sc.toBits ++ o.toBits ++ wd.toBits ++ 11#5) 0#5 rs1 rd 26#6)
  | .amost sc o wd rs1 rs2 => some (pack (sc.toBits ++ o.toBits ++ wd.toBits ++ 12#5) rs2 rs1 0#5 26#6)
  | .amominp sc o rd rs1 rs2 => some (pack (sc.toBits ++ o.toBits ++ 1#1 ++ 13#5) rs2 rs1 rd 26#6)
  | .wait ld st cp tt => some (packW 0#10 (tt ++ cp ++ st ++ ld) 27#6)
  | .fence o sc uo => some (packW 1#10 (0#10 ++ uo ++ o.toBits ++ sc.toBits) 27#6)
  | .qfence queues tt => some (packW 2#10 (0#11 ++ tt ++ queues) 27#6)
  | .texit => some (pack 0#11 0#5 0#5 0#5 28#6)
  | .tspawn rs1 => some (pack 1#11 0#5 rs1 0#5 28#6)
  | .tjoin rs1 rs2 => some (pack 2#11 rs2 rs1 0#5 28#6)
  | .hwpub rs1 rs2 => some (pack 3#11 rs2 rs1 0#5 28#6)
  | .gjoin off => some (pack (off.extractLsb' 10 11) (off.extractLsb' 5 5) (off.extractLsb' 0 5) 0#5 29#6)
  | .gdetach => some (pack 0#11 0#5 0#5 1#5 29#6)
  | .lgrow rs1 => some (pack 0#11 0#5 rs1 2#5 29#6)
  | .lshrink rs1 => some (pack 0#11 0#5 rs1 3#5 29#6)
  | .valloc n => some (pack 0#11 (0#3 ++ n.toBits) 0#5 4#5 29#6)
  | .bar level => some (pack 0#11 0#5 (0#2 ++ level) 5#5 29#6)
  | .arrive rs1 => some (pack 0#11 0#5 rs1 6#5 29#6)
  | .await rs1 rs2 => some (pack 0#11 rs2 rs1 7#5 29#6)
  | .darn rs1 => some (pack 0#11 0#5 rs1 0#5 30#6)
  | .peq n rs1 rs2 => some (pack 1#11 rs2 rs1 (0#2 ++ n) 30#6)
  | .fwdres rd rs1 => some (pack 2#11 0#5 rs1 rd 30#6)
  | .fwdmend rs1 => some (pack 3#11 0#5 rs1 0#5 30#6)
  | .fwdrel rs1 => some (pack 4#11 0#5 rs1 0#5 30#6)
  | .kvalloc rd => some (pack 0#11 0#5 0#5 rd 31#6)
  | .kvapp vn rs1 rs2 => some (pack 1#11 rs2 rs1 vn 31#6)
  | .kvcommit rs1 rs2 => some (pack 2#11 rs2 rs1 0#5 31#6)
  | .sbindkvK n rs1 rs2 => some (pack 3#11 rs2 rs1 (3#2 ++ n) 31#6)
  | .sbindkvV n rs1 rs2 => some (pack 4#11 rs2 rs1 (3#2 ++ n) 31#6)
  | .mangle rs1 => some (pack 5#11 0#5 rs1 0#5 31#6)
  | .launder rs1 => some (pack 6#11 0#5 rs1 0#5 31#6)
  | .setvl rd rs1 image => some (pack (0#1 ++ image.extractLsb' 5 10) (image.extractLsb' 0 5) rs1 rd 32#6)
  | .setvlc rd rs1 image => some (pack (1#1 ++ image.extractLsb' 5 10) (image.extractLsb' 0 5) rs1 rd 32#6)
  | .vadd rep k vd vs1 vs2 => some (pack (0#5 ++ rep.rsz ++ rep.repBit ++ k) vs2 vs1 vd 33#6)
  | .vsub rep k vd vs1 vs2 => some (pack (1#5 ++ rep.rsz ++ rep.repBit ++ k) vs2 vs1 vd 33#6)
  | .vrsub rep k vd vs1 vs2 => some (pack (2#5 ++ rep.rsz ++ rep.repBit ++ k) vs2 vs1 vd 33#6)
  | .vmul rep k vd vs1 vs2 => some (pack (3#5 ++ rep.rsz ++ rep.repBit ++ k) vs2 vs1 vd 33#6)
  | .vmulh rep k vd vs1 vs2 => some (pack (4#5 ++ rep.rsz ++ rep.repBit ++ k) vs2 vs1 vd 33#6)
  | .vmulhu rep k vd vs1 vs2 => some (pack (5#5 ++ rep.rsz ++ rep.repBit ++ k) vs2 vs1 vd 33#6)
  | .vand rep k vd vs1 vs2 => some (pack (6#5 ++ rep.rsz ++ rep.repBit ++ k) vs2 vs1 vd 33#6)
  | .vor rep k vd vs1 vs2 => some (pack (7#5 ++ rep.rsz ++ rep.repBit ++ k) vs2 vs1 vd 33#6)
  | .vxor rep k vd vs1 vs2 => some (pack (8#5 ++ rep.rsz ++ rep.repBit ++ k) vs2 vs1 vd 33#6)
  | .vsll rep k vd vs1 vs2 => some (pack (9#5 ++ rep.rsz ++ rep.repBit ++ k) vs2 vs1 vd 33#6)
  | .vsrl rep k vd vs1 vs2 => some (pack (10#5 ++ rep.rsz ++ rep.repBit ++ k) vs2 vs1 vd 33#6)
  | .vsra rep k vd vs1 vs2 => some (pack (11#5 ++ rep.rsz ++ rep.repBit ++ k) vs2 vs1 vd 33#6)
  | .vmin rep k vd vs1 vs2 => some (pack (12#5 ++ rep.rsz ++ rep.repBit ++ k) vs2 vs1 vd 33#6)
  | .vmax rep k vd vs1 vs2 => some (pack (13#5 ++ rep.rsz ++ rep.repBit ++ k) vs2 vs1 vd 33#6)
  | .vminu rep k vd vs1 vs2 => some (pack (14#5 ++ rep.rsz ++ rep.repBit ++ k) vs2 vs1 vd 33#6)
  | .vmaxu rep k vd vs1 vs2 => some (pack (15#5 ++ rep.rsz ++ rep.repBit ++ k) vs2 vs1 vd 33#6)
  | .vsadd rep k vd vs1 vs2 => some (pack (16#5 ++ rep.rsz ++ rep.repBit ++ k) vs2 vs1 vd 33#6)
  | .vsaddu rep k vd vs1 vs2 => some (pack (17#5 ++ rep.rsz ++ rep.repBit ++ k) vs2 vs1 vd 33#6)
  | .vssub rep k vd vs1 vs2 => some (pack (18#5 ++ rep.rsz ++ rep.repBit ++ k) vs2 vs1 vd 33#6)
  | .vssubu rep k vd vs1 vs2 => some (pack (19#5 ++ rep.rsz ++ rep.repBit ++ k) vs2 vs1 vd 33#6)
  | .vdiv rep k vd vs1 vs2 => some (pack (20#5 ++ rep.rsz ++ rep.repBit ++ k) vs2 vs1 vd 33#6)
  | .vdivu rep k vd vs1 vs2 => some (pack (21#5 ++ rep.rsz ++ rep.repBit ++ k) vs2 vs1 vd 33#6)
  | .vrem rep k vd vs1 vs2 => some (pack (22#5 ++ rep.rsz ++ rep.repBit ++ k) vs2 vs1 vd 33#6)
  | .vremu rep k vd vs1 vs2 => some (pack (23#5 ++ rep.rsz ++ rep.repBit ++ k) vs2 vs1 vd 33#6)
  | .vcmpeq rep k kd vs1 vs2 => some (pack (24#5 ++ rep.rsz ++ rep.repBit ++ k) vs2 vs1 (0#2 ++ kd) 33#6)
  | .vcmpne rep k kd vs1 vs2 => some (pack (25#5 ++ rep.rsz ++ rep.repBit ++ k) vs2 vs1 (0#2 ++ kd) 33#6)
  | .vcmplt rep k kd vs1 vs2 => some (pack (26#5 ++ rep.rsz ++ rep.repBit ++ k) vs2 vs1 (0#2 ++ kd) 33#6)
  | .vcmpltu rep k kd vs1 vs2 => some (pack (27#5 ++ rep.rsz ++ rep.repBit ++ k) vs2 vs1 (0#2 ++ kd) 33#6)
  | .vcmple rep k kd vs1 vs2 => some (pack (28#5 ++ rep.rsz ++ rep.repBit ++ k) vs2 vs1 (0#2 ++ kd) 33#6)
  | .vcmpleu rep k kd vs1 vs2 => some (pack (29#5 ++ rep.rsz ++ rep.repBit ++ k) vs2 vs1 (0#2 ++ kd) 33#6)
  | .vmerge rep k vd vs1 vs2 => some (pack (30#5 ++ rep.rsz ++ rep.repBit ++ k) vs2 vs1 vd 33#6)
  | .vmv rep k vd vs2 => some (pack (31#5 ++ rep.rsz ++ rep.repBit ++ k) vs2 0#5 vd 33#6)
  | .vfadd rep k vd vs1 vs2 => some (pack (0#5 ++ rep.rsz ++ rep.repBit ++ k) vs2 vs1 vd 34#6)
  | .vfsub rep k vd vs1 vs2 => some (pack (1#5 ++ rep.rsz ++ rep.repBit ++ k) vs2 vs1 vd 34#6)
  | .vfmul rep k vd vs1 vs2 => some (pack (2#5 ++ rep.rsz ++ rep.repBit ++ k) vs2 vs1 vd 34#6)
  | .vfdiv rep k vd vs1 vs2 => some (pack (3#5 ++ rep.rsz ++ rep.repBit ++ k) vs2 vs1 vd 34#6)
  | .vfmin rep k vd vs1 vs2 => some (pack (4#5 ++ rep.rsz ++ rep.repBit ++ k) vs2 vs1 vd 34#6)
  | .vfmax rep k vd vs1 vs2 => some (pack (5#5 ++ rep.rsz ++ rep.repBit ++ k) vs2 vs1 vd 34#6)
  | .vfsgnj rep k vd vs1 vs2 => some (pack (6#5 ++ rep.rsz ++ rep.repBit ++ k) vs2 vs1 vd 34#6)
  | .vfsgnjn rep k vd vs1 vs2 => some (pack (7#5 ++ rep.rsz ++ rep.repBit ++ k) vs2 vs1 vd 34#6)
  | .vfsgnjx rep k vd vs1 vs2 => some (pack (8#5 ++ rep.rsz ++ rep.repBit ++ k) vs2 vs1 vd 34#6)
  | .vfsqrt k vd vs1 => some (pack (9#5 ++ 0#3 ++ k) 0#5 vs1 vd 34#6)
  | .vfrecip k vd vs1 => some (pack (10#5 ++ 0#3 ++ k) 0#5 vs1 vd 34#6)
  | .vfrsqrt k vd vs1 => some (pack (11#5 ++ 0#3 ++ k) 0#5 vs1 vd 34#6)
  | .vfexp2 k vd vs1 => some (pack (12#5 ++ 0#3 ++ k) 0#5 vs1 vd 34#6)
  | .vflog2 k vd vs1 => some (pack (13#5 ++ 0#3 ++ k) 0#5 vs1 vd 34#6)
  | .vftanh k vd vs1 => some (pack (14#5 ++ 0#3 ++ k) 0#5 vs1 vd 34#6)
  | .vfclass k vd vs1 => some (pack (15#5 ++ 0#3 ++ k) 0#5 vs1 vd 34#6)
  | .vfcmpeq rep k kd vs1 vs2 => some (pack (16#5 ++ rep.rsz ++ rep.repBit ++ k) vs2 vs1 (0#2 ++ kd) 34#6)
  | .vfcmpne rep k kd vs1 vs2 => some (pack (17#5 ++ rep.rsz ++ rep.repBit ++ k) vs2 vs1 (0#2 ++ kd) 34#6)
  | .vfcmplt rep k kd vs1 vs2 => some (pack (18#5 ++ rep.rsz ++ rep.repBit ++ k) vs2 vs1 (0#2 ++ kd) 34#6)
  | .vfcmple rep k kd vs1 vs2 => some (pack (19#5 ++ rep.rsz ++ rep.repBit ++ k) vs2 vs1 (0#2 ++ kd) 34#6)
  | .vfcmpgt rep k kd vs1 vs2 => some (pack (20#5 ++ rep.rsz ++ rep.repBit ++ k) vs2 vs1 (0#2 ++ kd) 34#6)
  | .vfcmpge rep k kd vs1 vs2 => some (pack (21#5 ++ rep.rsz ++ rep.repBit ++ k) vs2 vs1 (0#2 ++ kd) 34#6)
  | .vfmaxexp k vd vs1 rs2 => some (pack (22#5 ++ 0#3 ++ k) rs2 vs1 vd 34#6)
  | .vfmacc rep k vd vs1 vs2 => some (pack (0#5 ++ rep.rsz ++ rep.repBit ++ k) vs2 vs1 vd 35#6)
  | .vfnmacc rep k vd vs1 vs2 => some (pack (1#5 ++ rep.rsz ++ rep.repBit ++ k) vs2 vs1 vd 35#6)
  | .vfmsac rep k vd vs1 vs2 => some (pack (2#5 ++ rep.rsz ++ rep.repBit ++ k) vs2 vs1 vd 35#6)
  | .vfnmsac rep k vd vs1 vs2 => some (pack (3#5 ++ rep.rsz ++ rep.repBit ++ k) vs2 vs1 vd 35#6)
  | .vfwmacc rep k vd vs1 vs2 => some (pack (4#5 ++ rep.rsz ++ rep.repBit ++ k) vs2 vs1 vd 35#6)
  | .vfdot4 rep k vd vs1 vs2 => some (pack (5#5 ++ rep.rsz ++ rep.repBit ++ k) vs2 vs1 vd 35#6)
  | .vl6mul rep k vd vs1 vs2 => some (pack (6#5 ++ rep.rsz ++ rep.repBit ++ k) vs2 vs1 vd 35#6)
  | .vl6dot rep k vd vs1 vs2 => some (pack (7#5 ++ rep.rsz ++ rep.repBit ++ k) vs2 vs1 vd 35#6)
  | .vmacc rep k vd vs1 vs2 => some (pack (8#5 ++ rep.rsz ++ rep.repBit ++ k) vs2 vs1 vd 35#6)
  | .vwmacc rep k vd vs1 vs2 => some (pack (9#5 ++ rep.rsz ++ rep.repBit ++ k) vs2 vs1 vd 35#6)
  | .vcvt k vd vs1 src => some (pack (0#5 ++ 0#3 ++ k) src.toBits vs1 vd 36#6)
  | .vcvti k vd vs1 src => some (pack (1#5 ++ 0#3 ++ k) (0#2 ++ src.toBits) vs1 vd 36#6)
  | .vcvtu k vd vs1 src => some (pack (2#5 ++ 0#3 ++ k) (0#2 ++ src.toBits) vs1 vd 36#6)
  | .vcvtsr k vd vs1 src => some (pack (3#5 ++ 0#3 ++ k) src.toBits vs1 vd 36#6)
  | .vquant k vd vs1 vs2 => some (pack (4#5 ++ 0#3 ++ k) vs2 vs1 vd 36#6)
  | .vdequant k vd vs1 vs2 => some (pack (5#5 ++ 0#3 ++ k) vs2 vs1 vd 36#6)
  | .kand kd ka kb => some (pack (0#5 ++ 0#3 ++ 0#3) (0#2 ++ kb) (0#2 ++ ka) (0#2 ++ kd) 37#6)
  | .kor kd ka kb => some (pack (1#5 ++ 0#3 ++ 0#3) (0#2 ++ kb) (0#2 ++ ka) (0#2 ++ kd) 37#6)
  | .kxor kd ka kb => some (pack (2#5 ++ 0#3 ++ 0#3) (0#2 ++ kb) (0#2 ++ ka) (0#2 ++ kd) 37#6)
  | .kandn kd ka kb => some (pack (3#5 ++ 0#3 ++ 0#3) (0#2 ++ kb) (0#2 ++ ka) (0#2 ++ kd) 37#6)
  | .knot kd ka => some (pack (4#5 ++ 0#3 ++ 0#3) 0#5 (0#2 ++ ka) (0#2 ++ kd) 37#6)
  | .kpop rd ka => some (pack (5#5 ++ 0#3 ++ 0#3) 0#5 (0#2 ++ ka) rd 37#6)
  | .kfirst rd ka => some (pack (6#5 ++ 0#3 ++ 0#3) 0#5 (0#2 ++ ka) rd 37#6)
  | .vcompress k vd vs1 => some (pack (7#5 ++ 0#3 ++ k) 0#5 vs1 vd 37#6)
  | .vexpand k vd vs1 => some (pack (8#5 ++ 0#3 ++ k) 0#5 vs1 vd 37#6)
  | .vprefpop k vd ka => some (pack (9#5 ++ 0#3 ++ k) 0#5 (0#2 ++ ka) vd 37#6)
  | .vconflict k vd vs1 => some (pack (10#5 ++ 0#3 ++ k) 0#5 vs1 vd 37#6)
  | .vslideup k vd vs1 rs2 => some (pack (11#5 ++ 0#3 ++ k) rs2 vs1 vd 37#6)
  | .vslidedown k vd vs1 rs2 => some (pack (12#5 ++ 0#3 ++ k) rs2 vs1 vd 37#6)
  | .vrgather k vd vs1 vs2 => some (pack (13#5 ++ 0#3 ++ k) vs2 vs1 vd 37#6)
  | .vid k vd => some (pack (14#5 ++ 0#3 ++ k) 0#5 0#5 vd 37#6)
  | .vmvx d src => some (pack (15#5 ++ 0#3 ++ 0#3) 0#5 src d 37#6)
  | .vmvxs d src => some (pack (16#5 ++ 0#3 ++ 0#3) 0#5 src d 37#6)
  | .vredsum k vd vs1 vs2 => some (pack (0#5 ++ 0#3 ++ k) vs2 vs1 vd 38#6)
  | .vredmin k vd vs1 vs2 => some (pack (1#5 ++ 0#3 ++ k) vs2 vs1 vd 38#6)
  | .vredmax k vd vs1 vs2 => some (pack (2#5 ++ 0#3 ++ k) vs2 vs1 vd 38#6)
  | .vredminu k vd vs1 vs2 => some (pack (3#5 ++ 0#3 ++ k) vs2 vs1 vd 38#6)
  | .vredmaxu k vd vs1 vs2 => some (pack (4#5 ++ 0#3 ++ k) vs2 vs1 vd 38#6)
  | .vredand k vd vs1 vs2 => some (pack (5#5 ++ 0#3 ++ k) vs2 vs1 vd 38#6)
  | .vredor k vd vs1 vs2 => some (pack (6#5 ++ 0#3 ++ k) vs2 vs1 vd 38#6)
  | .vredxor k vd vs1 vs2 => some (pack (7#5 ++ 0#3 ++ k) vs2 vs1 vd 38#6)
  | .vfredsum k vd vs1 vs2 => some (pack (8#5 ++ 0#3 ++ k) vs2 vs1 vd 38#6)
  | .vfredsum2 k vd vs1 vs2 => some (pack (9#5 ++ 0#3 ++ k) vs2 vs1 vd 38#6)
  | .vfredmin k vd vs1 vs2 => some (pack (10#5 ++ 0#3 ++ k) vs2 vs1 vd 38#6)
  | .vfredmax k vd vs1 vs2 => some (pack (11#5 ++ 0#3 ++ k) vs2 vs1 vd 38#6)
  | .vtopk k vd vs1 vs2 => some (pack (12#5 ++ 0#3 ++ k) vs2 vs1 vd 38#6)
  | .vsegscan k vd vs1 kh => some (pack (13#5 ++ 0#3 ++ k) (0#2 ++ kh) vs1 vd 38#6)
  | .vfsegscan k vd vs1 kh => some (pack (14#5 ++ 0#3 ++ k) (0#2 ++ kh) vs1 vd 38#6)
  | .vbcmp k vd vs1 vs2 => some (pack (0#5 ++ 0#3 ++ k) vs2 vs1 vd 39#6)
  | .vbeq k kd vs1 vs2 => some (pack (1#5 ++ 0#3 ++ k) vs2 vs1 (0#2 ++ kd) 39#6)
  | .vbfind k vd vs1 vs2 => some (pack (2#5 ++ 0#3 ++ k) vs2 vs1 vd 39#6)
  | .vqmix rep k vd vs1 vs2 => some (pack (3#5 ++ rep.rsz ++ rep.repBit ++ k) vs2 vs1 vd 39#6)
  | .vhacc k vd vs1 vs2 => some (pack (4#5 ++ 0#3 ++ k) vs2 vs1 vd 39#6)
  | .vnfa k vd vs1 vs2 => some (pack (5#5 ++ 0#3 ++ k) vs2 vs1 vd 39#6)
  | .vkvmass k vs1 vn => some (pack (6#5 ++ 0#3 ++ k) vn vs1 0#5 39#6)
  | .vkvpos k vd vn => some (pack (7#5 ++ 0#3 ++ k) 0#5 vn vd 39#6)
  | .vld k v rs1 => some (pack (0#2 ++ 0#3 ++ 0#3 ++ k) 0#5 rs1 v 40#6)
  | .vlds k v rs1 rs2 => some (pack (0#2 ++ 0#3 ++ 1#3 ++ k) rs2 rs1 v 40#6)
  | .vldxo iw k v rs1 vs2 => some (pack (iw.toBits ++ 0#3 ++ 2#3 ++ k) vs2 rs1 v 40#6)
  | .vldx iw k v rs1 vs2 => some (pack (iw.toBits ++ 0#3 ++ 3#3 ++ k) vs2 rs1 v 40#6)
  | .vldk kd rs1 => some (pack (0#2 ++ 1#3 ++ 0#3 ++ 0#3) 0#5 rs1 (0#2 ++ kd) 40#6)
  | .vldw v rs1 => some (pack (0#2 ++ 2#3 ++ 0#3 ++ 0#3) 0#5 rs1 v 40#6)
  | .vst k v rs1 => some (pack (0#2 ++ 0#3 ++ 0#3 ++ k) 0#5 rs1 v 41#6)
  | .vsts k v rs1 rs2 => some (pack (0#2 ++ 0#3 ++ 1#3 ++ k) rs2 rs1 v 41#6)
  | .vstxo iw k v rs1 vs2 => some (pack (iw.toBits ++ 0#3 ++ 2#3 ++ k) vs2 rs1 v 41#6)
  | .vstx iw k v rs1 vs2 => some (pack (iw.toBits ++ 0#3 ++ 3#3 ++ k) vs2 rs1 v 41#6)
  | .vstk kd rs1 => some (pack (0#2 ++ 1#3 ++ 0#3 ++ 0#3) 0#5 rs1 (0#2 ++ kd) 41#6)
  | .vstw v rs1 => some (pack (0#2 ++ 2#3 ++ 0#3 ++ 0#3) 0#5 rs1 v 41#6)
  | .vamoadd mode k vs3 rs1 rs2 => some (pack (0#5 ++ mode.toBits ++ k) rs2 rs1 vs3 42#6)
  | .vamoand mode k vs3 rs1 rs2 => some (pack (1#5 ++ mode.toBits ++ k) rs2 rs1 vs3 42#6)
  | .vamoor mode k vs3 rs1 rs2 => some (pack (2#5 ++ mode.toBits ++ k) rs2 rs1 vs3 42#6)
  | .vamoxor mode k vs3 rs1 rs2 => some (pack (3#5 ++ mode.toBits ++ k) rs2 rs1 vs3 42#6)
  | .vamomin mode k vs3 rs1 rs2 => some (pack (4#5 ++ mode.toBits ++ k) rs2 rs1 vs3 42#6)
  | .vamomax mode k vs3 rs1 rs2 => some (pack (5#5 ++ mode.toBits ++ k) rs2 rs1 vs3 42#6)
  | .vamominu mode k vs3 rs1 rs2 => some (pack (6#5 ++ mode.toBits ++ k) rs2 rs1 vs3 42#6)
  | .vamomaxu mode k vs3 rs1 rs2 => some (pack (7#5 ++ mode.toBits ++ k) rs2 rs1 vs3 42#6)
  | .vamoswap mode k vs3 rs1 rs2 => some (pack (8#5 ++ mode.toBits ++ k) rs2 rs1 vs3 42#6)
  | .vamofadd mode k vs3 rs1 rs2 => some (pack (9#5 ++ mode.toBits ++ k) rs2 rs1 vs3 42#6)
  | .vfmadd vd vs1 vs2 vs3 => some (pack (0#6 ++ vs3) vs2 vs1 vd 43#6)
  | .vfmsub vd vs1 vs2 vs3 => some (pack (1#6 ++ vs3) vs2 vs1 vd 43#6)
  | .vfnmadd vd vs1 vs2 vs3 => some (pack (2#6 ++ vs3) vs2 vs1 vd 43#6)
  | .vfnmsub vd vs1 vs2 vs3 => some (pack (3#6 ++ vs3) vs2 vs1 vd 43#6)
  | .vbsel vd vs1 vs2 vs3 => some (pack (4#6 ++ vs3) vs2 vs1 vd 43#6)
  | .vmadd vd vs1 vs2 vs3 => some (pack (5#6 ++ vs3) vs2 vs1 vd 43#6)
  | .tcopy q rs1 => some (pack (0#9 ++ q) 0#5 rs1 0#5 44#6)
  | .copy1d q rd rs1 rs2 => some (pack (1#9 ++ q) rs2 rs1 rd 44#6)
  | .sbind n rs1 => some (pack (2#9 ++ 0#2) 0#5 rs1 (3#2 ++ n) 44#6)
  | .sunbind n => some (pack (3#9 ++ 0#2) 0#5 0#5 (3#2 ++ n) 44#6)
  | .tqtile rs1 => some (pack 0#11 0#5 rs1 0#5 45#6)
  | .mstage rs1 => some (pack 1#11 0#5 rs1 0#5 45#6)
  | .mchain rs1 => some (pack 2#11 0#5 rs1 0#5 45#6)
  | .mdense rs1 => some (pack 3#11 0#5 rs1 0#5 45#6)
  | .mload rs1 => some (pack 4#11 0#5 rs1 0#5 45#6)
  | .mstore rs1 => some (pack 5#11 0#5 rs1 0#5 45#6)
  | .mzero rs1 => some (pack 6#11 0#5 rs1 0#5 45#6)
  | .tmark rs1 imm => some (pack (immHi16 imm) (immLo16 imm) rs1 0#5 46#6)
  | .vtypeWrite .. => none
  | .vlWrite .. => none
  | .vstartWrite .. => none
  | .vallocWrite .. => none
  | .vstateWrite .. => none
  | .lpcntWrite .. => none
  | .lpidxWrite .. => none
  | .lpdepthWrite .. => none
  | .lpbegWrite .. => none
  | .lpendWrite .. => none
  | .gjtimeoutWrite .. => none
  | .frmWrite .. => none
  | .statusWrite .. => none
  | .ptbaseWrite .. => none
  | .asidWrite .. => none
  | .heatbaseWrite .. => none
  | .kvmbaseWrite .. => none
  | .lanemapWrite .. => none
  | .sdescWrite .. => none
  | .sposWrite .. => none
  | .skvWrite .. => none
  | .pmreqWrite .. => none
  | .tleaveWrite .. => none
  | .xjoinWrite .. => none
  | .xdoneWrite .. => none
  | .ttresRead .. => none
  | .trctlWrite .. => none
  | .rpctlWrite .. => none
  | .startRecordAdmission .. => none
  | .ctsPick .. => none
  | .recordAging .. => none
  | .joinCounterReread .. => none
  | .gjoinTimeout .. => none
  | .gjoinRejoin .. => none
  | .barrierRelease .. => none
  | .awaitPhaseChange .. => none
  | .waitConditionMet .. => none
  | .setvlcResume .. => none
  | .issueCapacityFreed .. => none
  | .spillSpaceFreed .. => none
  | .jobQueueRoom .. => none
  | .streamFill .. => none
  | .preemptionTaken .. => none
  | .copyOperationEnd .. => none
  | .tileTaskReady .. => none
  | .tileTaskStart .. => none
  | .tileTaskEnd .. => none
  | .homeAgentAccess .. => none
  | .darnLineMove .. => none
  | .darnJobEnd .. => none
  | .mangleRun .. => none
  | .mangleJobEnd .. => none
  | .launderPass .. => none
  | .l1Writeback .. => none
  | .traceHeadPublish .. => none
  | .sampleCounterWrap .. => none
  | .replayDivergence .. => none
  | .watchdogExpiry .. => none
  | .uncorrectableStateError .. => none
  | .laneRetire .. => none
  | .qpiWrite .. => none
  | .partitionReset .. => none
  | .functionLevelReset .. => none
  | .partitionResetDone .. => none
  | .profileFlush .. => none
  | .hpmreqWrite .. => none
  | .flogWrite .. => none
  | .profWrite .. => none
  | .spillWrite .. => none
  | .passignWrite .. => none
  | .coreOwnerChange .. => none
  | .dbgsessWrite .. => none
  | .pwrlimWrite .. => none
  | .extrelWrite .. => none
  | .extentReleaseDone => none
  | .extentOffer .. => none
  | .bar0RegisterWrite .. => none
  | .bar2HostRead .. => none
  | .bar2HostWrite .. => none
  | .peerRequest .. => none
  | .kolnarPortDown .. => none
  | .atsInvalidation .. => none
  | .priPageResponse .. => none
  | .pcieCompletionTimeout .. => none
  | .perstRelease => none
  | .firmwareUpdateStage => none
  | .getVersion => none
  | .getCapabilities => none
  | .negotiateAlgorithms => none
  | .getDigests => none
  | .getCertificate => none
  | .challenge => none
  | .getMeasurements => none
  | .powerCheck => none
  | .thermalThrottle => none
  | .thermalTrip => none
  | .illegalInstruction .. => none
  | .instructionFetchFault .. => none
  | .deviceReset => none
  | .msixVectorUnmask .. => none
  | .profileCycleCount .. => none

/-- A word from its bytes, the first at the lowest address: little-endian (R32). -/
def wordOfBytes (b0 b1 b2 b3 : Byte) : IWord := b3 ++ (b2 ++ (b1 ++ b0))

/-- Byte `i` of a word as it is stored. -/
def byteOfWord (w : IWord) (i : Nat) : Byte := w.extractLsb' (8 * i) 8

/-- The instruction that the decoder reads from an instruction whose bits, numbered as the opcode table numbers
them, are `w`: the word is stored little-endian and read back through its bytes. -/
noncomputable def decodeTableWord (nbits w : Nat) : Option Instr :=
  if nbits ≤ 32 ∧ w < 2 ^ nbits then
    let x : IWord := BitVec.ofNat 32 w
    match decode (wordOfBytes (byteOfWord x 0) (byteOfWord x 1) (byteOfWord x 2) (byteOfWord x 3)) with
    | .ok i => some i
    | .error _ => none
  else none

end Sys2Proof
end

