-- ==== Sys2Proof/Config.lean ====
section
/-! DEFINITION. What the spec leaves open: the free values. Each is an opaque constant without a body applied to a
counter of the state (`State.ticks`), so nothing can be proved of its value, and a claim holds whatever it is. -/

namespace Sys2Proof

/-- A register of a sequencer that an uncorrectable error can strike (R334). -/
inductive BadReg where
  | x (r : Fin 32)
  | v (r : Fin 32)
  | k (r : Fin 8)
  | loop (level : Fin 6)
  /-- A control and status register, by its number. -/
  | csr (number : BitVec 14)
  deriving DecidableEq, Repr, Inhabited

/-- Whose move comes next: a sequencer issues one instruction, or one of the machine's other agents, or the world
outside, makes a move. The order of moves is not fixed by the spec (assumption 1). -/
inductive Turn where
  | seq (q : SeqId)
  | event (i : Instr)
  /-- The cells of a line of memory, of a scratchpad line, or of an accumulator entry lose their data beyond
  correction (R237). -/
  | lineError (line : Nat)
  | padError (c : CoreId) (line : Nat)
  | accError (c : CoreId) (entry : Nat)
  /-- A register of a sequencer loses its data beyond correction (R334). -/
  | registerError (q : SeqId) (r : BadReg)
  /-- The slice of a core's lane loses the data of a vector register beyond correction (R334, R335). -/
  | sliceError (c : CoreId) (lane : Fin 64) (r : Fin 32)
  /-- The slice of a lane corrects an error at one of its locations (R335). -/
  | correctedError (c : CoreId) (lane : Fin 64) (location : Nat)
  /-- A line of a core's L1 loses its data beyond correction (R237). -/
  | l1Error (c : CoreId) (line : Nat)
  /-- A sequencer's store queue empties into its core's L1 (R177, R194). -/
  | storeDrain (q : SeqId)
  /-- A core's instruction cache, or the cache of a cluster front end, takes a line of memory (R50). -/
  | prefetch (c : CoreId) (line : Nat)
  | streamPrefetch (cl : ClusterId) (line : Nat)
  /-- The host reads 4 or 8 bytes, or another number, of a function's BAR0 (R350). -/
  | registerRead (p : PartId) (off len : Nat)
  deriving DecidableEq, Repr, Inhabited

/-- The values that the spec leaves open, by name. -/
inductive Free where
  /-- Core-clock cycles that pass in one step, and those that a vector instruction takes (assumption 6). -/
  | elapsed
  /-- The stall reason of a cycle in which a slot neither issues nor waits, and whether a core's buffered profile spills
  have been written (R344, R345; assumption 6). -/
  | stall
  /-- A loop CSR of a level at or above `lpdepth` (R18, R93; assumption 9). -/
  | loopCsr
  /-- An accumulator row that a dropped tile task was writing (R293; assumption 9). -/
  | accRow
  /-- A byte of host memory (assumption 12). -/
  | hostByte
  /-- A byte of a peer device's memory (assumption 12). -/
  | peerByte
  /-- A peer's answer to a request (R236, R359; assumption 12). -/
  | peerAdmits
  /-- A page request of ATS that the host must answer first (R235; assumption 12). -/
  | atsMiss
  /-- Whether what a core wrote is written back before its own walk or fetch reads the line, and whether its copies
  take the bits that its walk sets (R177; assumption 62). -/
  | earlyBack
  /-- What a unit of the device reads where a chain of records is longer than it follows (R242; assumption 63). -/
  | unitQuad
  /-- The old or the new contents of a changed page-table entry (R225; assumption 4). -/
  | cachedEntry
  /-- The old or the new word of changed code (R50; assumption 5). -/
  | cachedWord
  /-- The order of two unordered stores of one instruction to one byte (R123; assumption 10). -/
  | storeOrder
  /-- Whether an element above the stop of an unordered store was performed (R122; assumption 10). -/
  | aboveStop
  /-- What an element of a copy obtains from a byte that the copy also writes (R260), and which of two elements
  with one destination is left (R259); the order of the rows of a tile task (R292; assumption 11). -/
  | copyOrder
  /-- Whether a write in flight at a partition-fatal discard performs (R333; assumption 82). -/
  | discardWrite
  /-- Whether a bring-up check or a link training passes (R361, R362; assumption 23). -/
  | bringUp
  /-- A byte of a spill entry, whose format is the scheduler's own (R168; assumption 18). -/
  | spillByte
  /-- A measurement: package power, junction temperature (R363, R364; assumption 23). -/
  | measure
  /-- What an SPDM response holds (R362; assumption 22). -/
  | spdm
  deriving DecidableEq, Repr, Inhabited

namespace Config

/-- The next move when the script of the state is empty. -/
opaque nextTurn : Nat → Turn

/-- A free value: its name, the step counter, and an index that tells several values of one step apart. -/
opaque free : Free → Nat → Nat → Nat

/-- The signature of a message under a secret key of ML-DSA-87 (R362; assumption 22). -/
opaque mlDsa87 : Nat → Nat → Nat

/-- What a masked-off stream element holds whose fill met a fault, when an instruction takes it for the result of
another element (R270; assumption 28): from the address and the index of the element. -/
opaque faultedElement : BitVec 64 → Nat → Nat

end Config

end Sys2Proof
end

