-- ==== Sys2Proof/Machine/State.lean ====
section
/-! DEFINITION. The state of a PX640 as plain data, its fault and refusal reasons, and the state after reset. -/

namespace Sys2Proof.Machine

/-- Why a step stops the machine. -/
inductive Fault where
  /-- Raised by `step` alone, when a sequencer is asked to issue on a device that does not issue: one that has
  tripped (R364), or halted in bring-up (R361). Safe: the spec gives no next instruction until a reset. -/
  | deviceStopped
  deriving DecidableEq, Repr

/-- Why an instruction has no meaning. -/
inductive Refusal where
  /-- Raised by an arm of `exec` whose instruction is not modelled. Safe: nothing is claimed of it. -/
  | notModelled (mnemonic : String)
  deriving DecidableEq, Repr

/-! ## A sequencer slot -/

/-- One level of the loop stack (R17). -/
structure LoopLevel where
  beg : Word := 0
  fin : Word := 0
  cnt : BitVec 32 := 0
  idx : BitVec 32 := 0
  deriving DecidableEq, Repr

/-- An entry of the strip-progress table (R90). -/
structure SptEntry where
  addr : Word
  count : Word
  strikes : Nat
  deriving DecidableEq, Repr

/-- The translation context that an access carries (R222, R227): the registers of the issuing sequencer. -/
structure Ctx where
  part : PartId := 0
  ptbase : Word := 0
  asid : Word := 0
  hpasid : Word := 0
  /-- True at S. -/
  sup : Bool := false
  deriving DecidableEq, Repr

/-- What a waiting instruction waits for (R173). -/
inductive HoldKind where
  /-- `wait` (R210). -/
  | counts
  /-- `await` (R206). -/
  | phase
  /-- `bar` (R205). -/
  | barrier
  /-- `setvlc` on a chain (R172). -/
  | chain
  /-- `gjoin` (R159). -/
  | gang
  /-- A full copy or stage engine (R252, R286). -/
  | capacity
  /-- A full queue of the cluster task scheduler (R167, R168). -/
  | spill
  /-- Sixteen jobs queued (R247). -/
  | jobs
  /-- A stream element not yet filled (R270). -/
  | stream
  /-- A lane unit that the allocator has not found (R155). -/
  | lane
  /-- Outstanding operations of `texit`, `tjoin`, `tleave` (R197, R199, R331). -/
  | drain
  /-- An access held behind a moving line (R241). -/
  | transit
  /-- A page request to the host (R235). -/
  | page
  deriving DecidableEq, Repr

/-- An instruction that has issued and waits: its word, why, and the cycle at which its wait began. -/
structure Held where
  word : IWord
  kind : HoldKind
  since : Nat
  deriving DecidableEq, Repr

/-- A stream descriptor as read at `sbind` (R267). -/
structure StreamDesc where
  addr : Word
  base : Word
  /-- Count and byte stride of each dimension, the fastest first. -/
  dims : List (Nat × Word)
  total : Nat
  ew : Nat
  scope : Scope
  write : Bool
  /-- An instruction has stopped on the stream, whose fetching waits until it resumes (R272). -/
  held : Bool := false
  deriving DecidableEq, Repr

/-- A token of a KV chain as the prefetcher has found it (R306): its page, frame, slot, position, its row, and its
scale bytes; or the fault met on the way to it. -/
structure Token where
  page : Word
  frame : Nat
  slot : Nat
  pos : Nat
  row : List Byte
  scales : List Byte
  /-- A deferred fault: its cause and address (R270, R306). -/
  fault : Option (Nat × Word)
  deriving DecidableEq, Repr

/-- A token that a pop delivered (R307): its frame and slot, with the position and the scale bytes found there. -/
structure Popped where
  frame : Nat
  slot : Nat
  pos : Nat
  scales : List Byte
  deriving DecidableEq, Repr

/-- A KV binding (R305 to R310). -/
structure KvBinding where
  table : Word
  /-- True for the V side. -/
  vSide : Bool
  limit : Nat
  delivered : Nat
  page : Word
  slot : Nat
  phase : Nat
  hd : Nat
  ew : Nat
  scaled : Bool
  /-- Tokens fetched and not yet delivered. -/
  ahead : List Token
  /-- The prefetcher has met the end of the chain, or the limit, after the tokens ahead. -/
  ended : Bool
  /-- The tokens of the last pop (R307): none past the end. -/
  lastPop : List (Option Popped)
  /-- An instruction has stopped on the stream, whose fetching waits until it resumes (R272). -/
  held : Bool := false
  deriving DecidableEq, Repr

/-- What a bindable register v24 to v31 is bound to (R268, R305). -/
inductive Binding where
  | unbound
  | mem (d : StreamDesc) (ctx : Ctx) (pos : Nat)
      /- Filled elements from the position on: the value, or the deferred fault and its address (R270). -/
      (buf : List (Nat ⊕ (Nat × Word)))
  | kv (b : KvBinding) (ctx : Ctx) (kvm : Word)
  deriving DecidableEq, Repr

/-- A copy or tile-task fence of `qfence` (R190): its mask (queues 0 to 3, tile tasks 4) and the number of the next
operation when it was executed. -/
structure QFence where
  mask : BitVec 5
  before : Nat
  deriving DecidableEq, Repr

/-- Who asked for a pre-emption: a sequencer, or the host through a function (R323). -/
inductive Requester where
  | seq (q : SeqId)
  | host (p : PartId)
  deriving DecidableEq, Repr

/-- Where a vector instruction stopped that reads or writes a stream (R320): its address, the `vstart` it left, and whether
it stopped at a store of its write stream. -/
structure StreamStop where
  pc : Word
  place : Nat
  stored : Bool
  deriving DecidableEq, Repr

/-- One of the 768 sequencer slots and the thread that it holds (R149). -/
structure Slot where
  /-- The slot holds a thread. -/
  busy : Bool := false
  part : PartId := 0
  pc : Word := 0
  x : Vector Word 32 := Vector.replicate 32 0
  cond : BitVec 8 := 1
  lpdepth : Nat := 0
  loops : Vector LoopLevel 6 := Vector.replicate 6 {}
  -- vector configuration and state (R19 to R27)
  vstate : BitVec 2 := 0
  vtype : Word := 0x8000000000000000
  vl : Nat := 0
  vstart : Nat := 0
  valloc : Nat := 0
  vceil : Nat := 0
  /-- The register slices of the owned lanes, by ordinal of the lane in `lanemap` order (R22, R25, R103). -/
  lanes : Vector (BitVec 32768) 64 := Vector.replicate 64 0
  /-- k0 to k7; k0 is not stored (R26). -/
  masks : Vector (BitVec 524288) 8 := Vector.replicate 8 0
  streams : Vector Binding 8 := Vector.replicate 8 .unbound
  /-- `skvN` as written for a register that is not bound yet (R310). -/
  skv : Vector Word 8 := Vector.replicate 8 0
  /-- Registrations that a thread resumed after `tleave` inherits and has not taken up: the phase, and the `kvmbase` they
  were made under (R331, R310, R316). -/
  kvRegs : List (Nat × Word) := []
  -- floating point
  fflags : BitVec 5 := 0
  frm : BitVec 4 := 0
  srseed : BitVec 32 := 0
  -- the lane share (R22, R151)
  lpart : Word := 0
  pending : Word := 0
  /-- Units that the allocator's shrink has taken from P and may give back before they are applied (R152). -/
  shrunk : Word := 0
  request : Nat := 0
  elastic : Bool := false
  prio : Nat := 0
  started : Nat := 0
  -- gangs (R156 to R159)
  gslot : BitVec 2 := 0
  gmember : Bool := false
  /-- The position in the gang's stream of the next instruction, while attached. -/
  gpos : Option Nat := none
  gjtimeout : BitVec 32 := 4096
  -- tile configuration (R282), engine failures (R265, R293)
  tcfg : Vector Word 4 := Vector.replicate 4 0
  tsr : Vector Word 16 := Vector.replicate 16 0
  cpstat : Word := 0
  cpaddr : Word := 0
  ttstat : Word := 0
  ttaddr : Word := 0
  -- privilege and traps (R28, R101)
  status : Word := 0
  epc : Word := 0
  ecause : Word := 0
  etval : Word := 0
  evec : Word := 0
  -- address spaces (R220, R233, R235, R296)
  asid : Word := 0
  ptbase : Word := 0
  heatbase : Word := 0
  kvmbase : Word := 0
  hpasid : Word := 0
  -- chains, hierarchy, exits (R164, R201, R332)
  chidx : Word := 0
  hidx : Vector Word 8 := Vector.replicate 8 0
  xjoin : Word := 0
  xdone : Word := 0
  launch : Option (Nat × Nat) := none
  -- pre-emption (R323 to R325)
  ttres : List Word := []
  pmstat : BitVec 2 := 0
  pmTarget : Option SeqId := none
  pmPending : List Requester := []
  /-- The last retirement was one of the pre-emption points of R324. -/
  pmPoint : Bool := false
  -- debug (R342 to R344)
  strip : BitVec 32 := 0
  bpctl : Word := 0
  bpaddr : Word := 0
  smpctl : Word := 0
  smpcnt : Word := 0
  -- the strip-progress check (R90): most recently used first
  spt : List SptEntry := []
  setvlAddr : Word := 0
  captured : Word := 0
  /-- Registers that hold an uncorrectable error (R334). -/
  bad : List BadReg := []
  /-- Of those, the ones that the instruction at hand writes in full when it retires. -/
  overwrites : List BadReg := []
  /-- The step in which the vector instruction at hand began; a begin record stands for it (R341). -/
  vbegun : Option Nat := none
  /-- The last stop of an instruction on a stream, which its re-execution resumes (R320; assumption 49). -/
  vstop : Option StreamStop := none
  -- waiting and engine order
  waiting : Option Held := none
  opNext : Nat := 0
  /-- How far the scopes of copies and of tile tasks that have ended, and that no `wait` has observed, reach, as a level
  of R194: 0 none, 1 core, 2 cluster, 3 beyond (R189, R210). -/
  doneCp : Nat := 0
  doneTt : Nat := 0
  fences : List QFence := []
  deriving DecidableEq, Repr

/-! ## A core -/

/-- A line held by a store queue, an L1 or a cluster buffer: its bytes, those it holds, and those its sequencer, core or
cluster wrote (R194, R228). It is named by the address it was reached at, before forwarding (R238). -/
structure Line where
  data : BitVec 512 := 0
  valid : BitVec 64 := 0
  dirty : BitVec 64 := 0
  /-- The bytes that were last read or written through a UO page (R178, R184). -/
  uo : BitVec 64 := 0
  /-- The line holds an uncorrectable error: the bytes written since (R237). -/
  bad : Option (BitVec 64) := none
  deriving DecidableEq, Repr

/-- A copy operation (R252 to R265). -/
structure CopyOp where
  seq : SeqId
  queue : Nat
  number : Nat
  fences : List QFence
  ctx : Ctx
  scope : Scope
  /-- Operation code of R254. -/
  op : Nat
  esize : Nat
  src : Word
  dst : Word
  /-- Count, source stride and destination stride of each dimension. -/
  dims : List (Nat × Word × Word)
  total : Nat
  /-- First element not yet performed. -/
  next : Nat
  mcast : BitVec 8
  sig : Nat
  sigaddr : Word
  /-- True for `tcopy`, whose descriptor is at `desc`. -/
  isTcopy : Bool
  desc : Word
  /-- Frames pinned (R263), with their KV metadata base. -/
  pins : List Word
  kvm : Word
  strip : BitVec 32
  /-- When its first access began (R340). -/
  begun : Option Nat
  deriving DecidableEq, Repr

/-- What a thread is started with, from a start record or a continuation record (R31, R166). -/
structure ThreadInit where
  part : PartId
  entry : Word
  arg : Word
  x5 : Word
  request : Nat
  alloc : Nat
  vceil : Nat
  prio : Nat
  elastic : Bool
  sup : Bool
  hidx : List Nat
  xjoin : Word
  xdone : Word
  launch : Option (Nat × Nat)
  gmember : Bool
  attached : Bool
  strip : BitVec 32
  kvRegs : List (Nat × Word)
  deriving DecidableEq, Repr

/-- The record that waits on a core under step 2 of R153: its partition, the slots it has reserved, the units it needs,
and the thread it starts; a start record, which starts as a whole (R164), is named by its queue instead. -/
structure CoreWait where
  part : PartId
  slots : List Nat
  need : Nat
  init : Option ThreadInit
  queue : Option (Fin 8)
  deriving DecidableEq, Repr

/-- The writer of a ring (R339). -/
structure Ring where
  desc : Nat := 0
  base : Nat := 0
  size : Nat := 0
  head : Nat := 0
  lost : Nat := 0
  /-- Records lost since the last lost record. -/
  lostSince : Nat := 0
  /-- Time of the last record. -/
  last : Nat := 0
  /-- Records written since head was published, and the time of the first of them. -/
  unpub : Nat := 0
  unpubSince : Nat := 0
  /-- Records made and not yet written to the ring: the time and the quads of each (R339, R348). -/
  queue : List (Nat × List Word) := []
  deriving DecidableEq, Repr

/-- An entry of a profile table (R345). -/
structure ProfEntry where
  part : PartId
  reason : Nat
  pc : Word
  count : Nat
  deriving DecidableEq, Repr

/-- One of the 192 cores. -/
structure Core where
  owner : Option PartId := none
  /-- PASSIGN as last written: v and part (R356). -/
  passign : BitVec 5 := 0
  /-- The owner that an owner change of PASSIGN gives the core once it has drained (R356). -/
  newOwner : Option (Option PartId) := none
  lanemap : Word := 0
  /-- Lanes whose slice has reported an uncorrectable error, and corrected errors: lane, location and time (R335). -/
  laneErrors : List Nat := []
  corrected : List (Nat × Nat × Nat) := []
  /-- The scratchpad: bytes that are not 0, by offset. -/
  pad : List Host.Cell := []
  /-- The accumulator store: entries that are not +0 (R280). -/
  acc : List (Nat × BitVec 32) := []
  /-- Scratchpad lines that hold an uncorrectable error, each with the bytes written since, and accumulator entries
  that hold one (R237). -/
  badPad : List (Nat × BitVec 64) := []
  badAcc : List Nat := []
  l1 : List (Nat × Line) := []
  /-- The store queues of the four sequencers (R194). -/
  stq : Vector (List (Nat × Line)) 4 := Vector.replicate 4 []
  /-- Copies of instruction words that the core's instruction cache may still hold (R50, R158, R228). -/
  icache : List (Nat × IWord) := []
  copies : List CopyOp := []
  coreWait : Option CoreWait := none
  trctl : Word := 0
  trbase : Word := 0
  trace : Ring := {}
  profile : List (Nat × ProfEntry) := []
  profBuf : List ProfEntry := []
  /-- The cycle in which no slot of the core issues, for a sample (R344). -/
  frozen : Option Nat := none
  /-- The times at which the last vector instructions of the slots end, of those whose end is recorded (R104, R341). -/
  vecEnds : Vector Nat 4 := Vector.replicate 4 0
  /-- The present load has taken a byte that the L1 did not hold (R344). -/
  missed : Bool := false
  deriving DecidableEq, Repr

/-! ## A cluster -/

/-- Why a queued continuation record is not ready (R170): the counter awaited. -/
structure Awaited where
  ctr : Word
  ctx : Ctx
  /-- The core of the thread that yielded. -/
  core : CoreId
  /-- Time of the last reread. -/
  last : Nat
  /-- An exit of the cluster has brought a counter to 0 since. -/
  poked : Bool
  /-- A failed reread has been logged (R365). -/
  logged : Bool
  deriving DecidableEq, Repr

/-- What a bound record of `tleave` keeps beside its 32 bytes (R331). -/
structure Bound where
  core : Nat
  slot : Nat
  hidx : List Nat
  launch : Option (Nat × Nat)
  xjoin : Word
  xdone : Word
  strip : BitVec 32
  gmember : Bool
  kvRegs : List (Nat × Word)
  deriving DecidableEq, Repr

/-- A continuation record in a queue of the cluster task scheduler (R165 to R170). -/
structure ContRec where
  addr : Word
  code : Word
  frame : Word
  joinctr : Word
  request : Nat
  alloc : Nat
  elastic : Bool
  vceil : Nat
  /-- Priority level of the queue it stands in. -/
  level : Nat
  /-- Priority of the record. -/
  prio : Nat
  part : PartId
  /-- Launch values of the thread's address-space registers are the partition's; this keeps the passed `xdone`. -/
  xdone : Word
  awaited : Option Awaited
  bound : Option Bound
  /-- Time at which its present wait began. -/
  since : Nat
  /-- The entry of the spill region that holds it (R167, R168): its physical address. -/
  spilled : Option Nat
  deriving DecidableEq, Repr

/-- A tile task (R283 to R293). -/
structure TileTask where
  seq : SeqId
  number : Nat
  fences : List QFence
  ctx : Ctx
  kvm : Word
  record : Word
  /-- Q0 to Q7 of the record and the snapshot Q8 to Q15. -/
  q : Vector Word 16
  /-- Entries of the pointer table that the task uses, as read at issue (R279, R284). -/
  ptab : List Word
  met0 : Bool
  met1 : Bool
  /-- The awaits are to be read: at enqueue, and when a counter or an awaited line may have changed since the last read,
  whose time is kept (R287). -/
  due : Bool
  lastRead : Nat
  /-- The engines it runs on once started, as cores of the cluster. -/
  engines : List Nat
  running : Bool
  /-- When it started (R340). -/
  began : Nat
  row : Nat
  ofl : Bool
  nv : Bool
  /-- A stop has been requested (R325). -/
  stop : Bool
  pins : List Word
  strip : BitVec 32
  deriving DecidableEq, Repr

/-- A stream that holds at a `gjoin` (R159): its label, the cycle at which the hold began, and its position. -/
structure GangHold where
  label : Word
  since : Nat
  pos : Nat
  deriving DecidableEq, Repr

/-- The gang in a stream slot of a cluster (R156 to R159). -/
structure Gang where
  /-- Cores of the cluster that hold a member. -/
  members : BitVec 8
  /-- The program counters of the stream from position `base` on, as far as the stream is resolved, each with the word
  that the front end fetched there once a member has taken it (R156). -/
  path : List (Word × Option IWord)
  base : Nat
  hold : Option GangHold
  deriving DecidableEq, Repr

/-- One of the 24 clusters. -/
structure Cluster where
  queue : List ContRec := []
  /-- The next entry of each slice of the spill regions, by partition and level (R168). -/
  spillAt : Vector Nat 64 := Vector.replicate 64 0
  /-- The partition served last at each level (R169). -/
  served : Vector Nat 4 := Vector.replicate 4 15
  tasks : List TileTask := []
  gangs : Vector (Option Gang) 4 := Vector.replicate 4 none
  rpctl : Word := 0
  rpbase : Word := 0
  replay : Ring := {}
  /-- Index of the next record of a replayed log, and the time since which its pick has waited. -/
  rpTail : Nat := 0
  rpSince : Nat := 0
  /-- Copies of instruction words that the cache of the cluster front end may still hold (R50, R156). -/
  icache : List (Nat × IWord) := []
  /-- The cluster write buffer (R194). -/
  buffer : List (Nat × Line) := []
  deriving DecidableEq, Repr

/-! ## A partition and its PCIe function -/

/-- An entry of the MSI-X table (R354). -/
structure MsixEntry where
  addr : Word := 0
  data : BitVec 32 := 0
  masked : Bool := true
  deriving DecidableEq, Repr

/-- A relocation job (R243 to R245). -/
structure DarnJob where
  desc : Word
  src : Word
  dst : Word
  count : Nat
  joinctr : Word
  ctx : Ctx
  moved : Nat
  /-- While a line moves: its physical line, the target's, and how many of its quads have been copied. -/
  line : Option (Nat × Nat × Nat)
  /-- The failure code once the job has failed. -/
  failed : Option Nat
  deriving DecidableEq, Repr

/-- A run of pages with selected tokens (R314): the page before it, 0 for the entry's head, and each page with its
selected slots. -/
structure MangleRun where
  pred : Word
  pages : List (Word × List Nat)
  deriving DecidableEq, Repr

/-- An eviction job (R311 to R314). -/
structure MangleJob where
  desc : Word
  table : Word
  ch0 : Nat
  nch : Nat
  joinctr : Word
  ctx : Ctx
  kvm : Word
  /-- Chains finished. -/
  chain : Nat
  /-- The runs of the present chain still to compact, once it has been walked. -/
  runs : Option (List MangleRun)
  evicted : Nat
  compacted : Nat
  failed : Option Nat
  deriving DecidableEq, Repr

/-- A collection pass (R315): its stage counts the steps of the rule that are done. -/
structure LaunderJob where
  desc : Word
  joinctr : Word
  ctx : Ctx
  kvm : Word
  stage : Nat
  phase : Nat
  /-- Source frames whose leaf has been mended and whose lines are still to be released. -/
  mendedFrames : List Nat
  mended : Nat
  freed : Nat
  failed : Option Nat
  deriving DecidableEq, Repr

/-- A host queue as the device's queue unit sees it (R351, R352). -/
structure HostQueue where
  /-- Records made available and not yet consumed. -/
  avail : Nat := 0
  ci : BitVec 32 := 0
  /-- The descriptor as read at the last write of the producer index. -/
  base : Word := 0
  size : Nat := 0
  irq : Bool := false
  sup : Bool := false
  deriving DecidableEq, Repr

/-- One of the 16 partitions with its function's registers (R351). -/
structure Part where
  /-- PSTAT.state: 0 idle, 1 running, 2 resetting. -/
  pstate : BitVec 2 := 0
  prof : Bool := false
  qtab : Word := 0
  qpi : Vector (BitVec 32) 8 := Vector.replicate 8 0
  queues : Vector HostQueue 8 := Vector.replicate 8 {}
  /-- The queue served last. -/
  served : Nat := 7
  flog : Word := 0
  flogRing : Ring := {}
  profReg : Word := 0
  profRing : Ring := {}
  spill : Word := 0
  wdog : BitVec 32 := 0
  hpmResult : BitVec 2 := 0
  hpmTarget : Option SeqId := none
  peers : BitVec 32 := 0
  lptb : Word := 0
  lasid : Word := 0
  lheat : Word := 0
  lkvm : Word := 0
  lhpas : Word := 0
  msix : Vector MsixEntry 4 := Vector.replicate 4 {}
  pba : BitVec 4 := 0
  darn : List DarnJob := []
  mangle : List MangleJob := []
  launder : List LaunderJob := []
  /-- Time of the last progress that the watchdog counts (R355). -/
  progress : Nat := 0
  deriving DecidableEq, Repr

/-! ## The device -/

/-- The forwarding mark of a line other than N (R238). -/
inductive Mark where
  | transit
  | forwarded
  deriving DecidableEq, Repr

/-- Who, of those that act for a sequencer, makes an access (R174). -/
inductive Source where
  /-- An instruction that is no vector instruction. -/
  | scalar
  /-- A vector instruction. -/
  | vector
  /-- A copy operation or a tile task of the sequencer, by its number. -/
  | copy (number : Nat)
  | tile (number : Nat)
  /-- The stream transfer of a register v24 to v31. -/
  | stream (reg : Nat)
  /-- Anything else: caches, schedulers, engines of the device, the host. -/
  | unit
  deriving DecidableEq, Repr

/-- What an access that a home agent holds will do (R241). -/
inductive HeldAct where
  | write (bytes : List Byte)
  /-- A counter of `n` bytes changes by a number; a saturating one stays at its top. -/
  | add (n : Nat) (delta : Int) (saturates : Bool)
  /-- A load or an atomic of a sequencer keeps its place in the order; its instruction performs it in its turn. -/
  | turn
  deriving DecidableEq, Repr

/-- An access that a home agent holds behind a moving line (R241). -/
structure HeldAccess where
  part : Option PartId
  /-- The sequencer on whose behalf it was made, when there is one. -/
  owner : Option SeqId
  core : Option CoreId
  src : Source
  /-- The step in which the instruction that made it began: the accesses of one instruction have one. -/
  tick : Nat
  /-- The kind of its page (R178): 0 RC, 1 SO, 2 UO. -/
  ord : Nat
  addr : Nat
  act : HeldAct
  deriving DecidableEq, Repr

/-- A page request to the host (R235): the page of an address space, who waits for it, and whether it has failed. -/
structure PageReq where
  part : PartId
  pasid : BitVec 20
  page : Nat
  owner : Option SeqId
  src : Source
  failed : Bool
  deriving DecidableEq, Repr

/-- A cached entry of the page tables (R225), leaf or not: its level and tags, where it stands, and its contents. -/
structure Cached where
  part : PartId
  asid : Option (BitVec 16)
  vpage : Nat
  level : Nat
  place : Nat
  entry : Word
  deriving DecidableEq, Repr

/-- A capacity-tier extent (R234, R360), in units of 256 MiB. -/
structure Extent where
  base : Nat
  units : Nat
  part : PartId
  shared : Bool
  releasing : Bool
  deriving DecidableEq, Repr

/-- The algorithms that the root of trust offers (R362). -/
inductive SignAlg where
  | mlDsa87
  deriving DecidableEq, Repr
inductive HashAlg where
  | sha3_512
  deriving DecidableEq, Repr

/-- The device identity key pair (R362). -/
structure KeyPair where
  pub : Nat := 0
  sec : Nat := 0
  deriving DecidableEq, Repr

/-- An answer to an SPDM request (R362). -/
inductive SpdmReply where
  | version (major minor : Nat)
  | capabilities (flags : Nat)
  | algorithms (sign : List SignAlg) (hash : List HashAlg)
  /-- A digest for each slot of the certificate store. -/
  | digests (slots : List (Nat × Nat))
  | certificate (slot : Nat) (key chain : Nat)
  | challengeAuth (slot : Nat) (nonce signature : Nat)
  /-- A measurement for each index. -/
  | measurements (values : List (Nat × Nat))
  deriving DecidableEq, Repr

/-- What the device sends to the outside (R235, R350, R354, R362). -/
inductive Message where
  | msix (p : PartId) (vec : Nat) (addr : Word) (data : BitVec 32)
  | readData (p : PartId) (data : List Byte)
  | readAbort (p : PartId)
  | peerAdmitted (r : PartId) (peer : Nat)
  | peerRefused (r : PartId) (peer : Nat)
  | registerData (p : PartId) (v : Word)
  | spdm (reply : SpdmReply)
  | declined (units : Nat)
  | tripReport
  deriving DecidableEq, Repr

/-- One thread's place among the participants of `bar` (R205). -/
structure Participant where
  hidx : List Nat
  /-- How often it has executed `bar` at each level. -/
  arrived : List Nat
  /-- It has exited, or yielded with `tjoin`. -/
  gone : Bool
  deriving DecidableEq, Repr

/-- A launch: the scope of each level of its hierarchy, and its participants (R162, R205). -/
structure Launch where
  levels : List (Option Scope)
  parts : List Participant
  deriving DecidableEq, Repr

/-- The whole machine. -/
structure State where
  slots : Vector Slot 768 := Vector.replicate 768 {}
  cores : Vector Core 192 := Vector.replicate 192 {}
  clusters : Vector Cluster 24 := Vector.replicate 24 {}
  parts : Vector Part 16 := Vector.replicate 16 {}
  /-- HBM and capacity-tier bytes that are not 0, by physical address (R218). -/
  mem : List Host.Cell := []
  /-- Lines whose mark is not N, by line number (R238). -/
  marks : List (Nat × Mark) := []
  /-- The transit queues, all lines together, in arrival order (R241). -/
  transit : List HeldAccess := []
  /-- Lines whose cells hold an uncorrectable error, each with the bytes written since (R237). -/
  bad : List (Nat × BitVec 64) := []
  cached : List Cached := []
  /-- Cached host translations: partition, PASID and host page (R235). -/
  atc : List (PartId × BitVec 20 × Nat) := []
  /-- Page requests that the host has not answered, or whose failure their access has not met yet (R235). -/
  pri : List PageReq := []
  launches : List Launch := []
  darnServed : Nat := 15
  mangleServed : Nat := 15
  /-- `cycle` (R30, R338). -/
  cycle : Nat := 0
  peertab : Vector Word 32 := Vector.replicate 32 0
  /-- The partner that each trained Kolnar port reported, while it is up (R358). -/
  klPorts : Vector (Option (BitVec 32)) 16 := Vector.replicate 16 none
  bstat : Word := 0
  pwrlim : Word := 2800
  pwrstat : Word := 0
  /-- Idle cycles inserted: 0 none, then stage engines, memory requests, vector arithmetic (R363). -/
  throttle : Nat := 0
  extasgn : Word := 0
  extents : List Extent := []
  dbgsess : Word := 0
  /-- A firmware image is staged; the security versions of the fuses and of the image in force (R362). -/
  fwStaged : Bool := false
  fuseVersion : Nat := 0
  fwVersion : Nat := 0
  /-- The key pair of the root of trust (R362). -/
  identity : KeyPair := {}
  tripped : Bool := false
  outbox : List Message := []
  -- the model's own fields (assumptions 1 and 7)
  /-- The moves to come; when it is empty the next move is a free value. -/
  script : List Turn := []
  /-- The sequencer that the present instruction belongs to. -/
  cur : SeqId := 0
  /-- Counts steps, so that each takes free values of its own. -/
  ticks : Nat := 0
  deriving DecidableEq, Repr

/-- The state after device reset: every register at the Reset value of the tables of the spec, and those for which
the spec gives none at the value that assumption 7 names. -/
def State.reset : State := {}

end Sys2Proof.Machine
end

