-- ==== Sys2Proof/Machine/Store.lean ====
section
/-! DEFINITION. Sparse stores in their one canonical form, and plain reads and writes of physical bytes. A store lists
its entries by strictly rising key and lists none that equals what an unlisted key reads as. -/

namespace Sys2Proof.Machine

section
variable {α : Type}

/-- What a key reads as. -/
def Sparse.get (d : α) : List (Nat × α) → Nat → α
  | [], _ => d
  | (k, v) :: r, a => if k = a then v else Sparse.get d r a

/-- Removes a key. -/
def Sparse.erase (l : List (Nat × α)) (a : Nat) : List (Nat × α) := l.filter fun e => e.1 != a

/-- Puts an entry at its place. -/
def Sparse.insert (a : Nat) (v : α) : List (Nat × α) → List (Nat × α)
  | [] => [(a, v)]
  | (k, w) :: r =>
    if a < k then (a, v) :: (k, w) :: r
    else if a = k then (a, v) :: r
    else (k, w) :: Sparse.insert a v r

/-- Writes a key; writing what an unlisted key reads as removes the entry. -/
def Sparse.set [DecidableEq α] (d : α) (l : List (Nat × α)) (a : Nat) (v : α) : List (Nat × α) :=
  if v = d then Sparse.erase l a else Sparse.insert a v l

/-- Every key of the list is above `lo`, the keys rise, and no entry equals the default. -/
def Sparse.wfFrom [DecidableEq α] (d : α) : Option Nat → List (Nat × α) → Bool
  | _, [] => true
  | lo, (k, v) :: r => (match lo with | none => true | some b => b < k) && v != d && Sparse.wfFrom d (some k) r

/-- The canonical form. -/
def Sparse.wf [DecidableEq α] (d : α) (l : List (Nat × α)) : Bool := Sparse.wfFrom d none l

end

/-- The canonical form of a memory: addresses strictly rising, no listed byte equal to 0 (assumption 8). -/
def Memory.wf (m : List Host.Cell) : Bool := Sparse.wf (0 : Byte) m

/-- The byte at a physical address; an unlisted byte of HBM or of the tier reads 0 (R361 step 4). -/
def Memory.read (m : List Host.Cell) (a : Nat) : Byte := Sparse.get 0 m a

/-- A memory with one byte written. -/
def Memory.write (m : List Host.Cell) (a : Nat) (b : Byte) : List Host.Cell := Sparse.set 0 m a b

/-- Little-endian: the number that a list of bytes holds, the first byte lowest (R95, chapter 01). -/
def natOfBytes : List Byte → Nat
  | [] => 0
  | b :: r => b.toNat + 256 * natOfBytes r

/-- The `n` low bytes of a number, the lowest first. -/
def bytesOfNat : Nat → Nat → List Byte
  | 0, _ => []
  | n + 1, v => BitVec.ofNat 8 v :: bytesOfNat n (v / 256)

/-- Reads `n` consecutive bytes of a memory as a number. -/
def Memory.readNat (m : List Host.Cell) (a n : Nat) : Nat :=
  natOfBytes ((List.range n).map fun i => Memory.read m (a + i))

/-- Writes consecutive bytes. -/
def Memory.writeBytes (m : List Host.Cell) (a : Nat) : List Byte → List Host.Cell
  | [] => m
  | b :: r => Memory.writeBytes (Memory.write m a b) (a + 1) r

/-- Bits `lo` to `lo + n - 1` of a word, as a number. -/
def Word.field (w : Word) (lo n : Nat) : Nat := (w.toNat >>> lo) % 2 ^ n

/-- Bit `i` of a word. -/
def Word.bit (w : Word) (i : Nat) : Bool := w.getLsbD i

/-- The sign-extended value of the low `n` bits of a number. -/
def sextNat (n v : Nat) : Int := let u := v % 2 ^ n; if u < 2 ^ (n - 1) then (u : Int) else (u : Int) - 2 ^ n

/-- A number of two's complement form. -/
def wordOfInt (i : Int) : Word := BitVec.ofInt 64 i

/-- The number of one bits among the low `n` of a number. -/
def popNat : Nat → Nat → Nat
  | 0, _ => 0
  | n + 1, v => v % 2 + popNat n (v / 2)

/-- The lanes of a mask in ascending order (R336). -/
def lanesOf (m : Word) : List Nat := (List.range 64).filter fun i => m.getLsbD i

/-- The first element of a list that meets a condition, with its place. -/
def findIdxFrom {α : Type} (p : α → Bool) : Nat → List α → Option (Nat × α)
  | _, [] => none
  | i, a :: r => if p a then some (i, a) else findIdxFrom p (i + 1) r

/-! ## Lines with an uncorrectable error (R237) -/

/-- A line that holds an error. -/
def isBad (l : List (Nat × BitVec 64)) (line : Nat) : Bool := l.any fun e => e.1 == line

/-- A line takes an error: none of its bytes has been written since. -/
def markBad (line : Nat) (l : List (Nat × BitVec 64)) : List (Nat × BitVec 64) :=
  (line, 0) :: l.filter fun e => e.1 != line

/-- Bytes of a line are written; once all of them are, the error is gone. -/
def overwritten (line off len : Nat) (l : List (Nat × BitVec 64)) : List (Nat × BitVec 64) :=
  l.filterMap fun e =>
    if e.1 = line then
      let m := e.2 ||| (BitVec.ofNat 64 (2 ^ len - 1) <<< off)
      if m = BitVec.allOnes 64 then none else some (line, m)
    else some e

/-- A list without the element at a place. -/
def dropAt {α : Type} (l : List α) (i : Nat) : List α := l.eraseIdx i

end Sys2Proof.Machine
end

