-- ==== Sys2Proof/Machine/Ops.lean ====
section
/-! DEFINITION. The named operations that every meaning is built from: registers, condition bits, the loop stack, how
an instruction ends, taking a trap and returning from one. -/

namespace Sys2Proof.Machine

/-- Why an instruction does not retire: it raises a trap (cause and trap value, R317), it waits (R173), or it meets a
fault that is fatal to the whole partition. -/
inductive Stop where
  | trap (cause : Nat) (etval : Word)
  | wait (kind : HoldKind)
  /-- A fatal translation fault: the partition's work is discarded (R222, R333). -/
  | fatal (p : PartId) (addr : Word)
  deriving DecidableEq, Repr

/-- What an instruction does to the state until it is done or stops. -/
abbrev M := EStateM Stop State

/-- How an instruction that retires goes on. -/
inductive Flow where
  /-- At the next instruction, the back-edge applied (R92). -/
  | next
  /-- As if the instruction at an address had retired (R91, a loop with a zero count). -/
  | edgeAt (e : Word)
  /-- At a target; `pops` says that R93 applies, as for every transfer but a call. -/
  | goto (t : Word) (pops : Bool)
  /-- At an address, with the loop stack left alone (`eret`). -/
  | resumeAt (t : Word)
  /-- As `next`, and then a trap with the instruction's own address as its value (R102, R343). -/
  | thenTrap (cause : Nat)
  /-- The thread has ended. -/
  | ended
  deriving DecidableEq, Repr

/-! ## Causes (R317) -/

def causeIllegal : Nat := 1
def causeOperand : Nat := 2
def causePrivilege : Nat := 3
def causeFirstUse : Nat := 4
def causeMisaligned : Nat := 5
def causeAlignment : Nat := 6
def causePage : Nat := 7
def causePermission : Nat := 8
def causeAccess : Nat := 9
def causeChain : Nat := 10
def causeData : Nat := 11
def causeLoop : Nat := 12
def causeNoProgress : Nat := 13
def causeTable : Nat := 14
def causeKvPool : Nat := 15
def causeCall : Nat := 16
def causeBreak : Nat := 17
def causePreempt : Nat := 18

/-! ## Places -/

/-- Core of a sequencer (R3). -/
def coreOf (q : SeqId) : CoreId := ⟨q.val / 4, by omega⟩
/-- Slot of a sequencer in its core. -/
def slotOf (q : SeqId) : Nat := q.val % 4
/-- Cluster of a core. -/
def clusterOfCore (c : CoreId) : ClusterId := ⟨c.val / 8, by omega⟩
/-- Cluster of a sequencer. -/
def clusterOf (q : SeqId) : ClusterId := clusterOfCore (coreOf q)
/-- The sequencer in a slot of a core. -/
def seqOf (c : CoreId) (k : Fin 4) : SeqId := ⟨c.val * 4 + k.val, by omega⟩
/-- A core of a cluster. -/
def coreIn (cl : ClusterId) (i : Fin 8) : CoreId := ⟨cl.val * 8 + i.val, by omega⟩

/-! ## Reading and replacing parts of the state -/

def State.slot (s : State) (q : SeqId) : Slot := s.slots[q]
def State.setSlot (s : State) (q : SeqId) (v : Slot) : State := { s with slots := s.slots.set q v }
def State.core (s : State) (c : CoreId) : Core := s.cores[c]
def State.setCore (s : State) (c : CoreId) (v : Core) : State := { s with cores := s.cores.set c v }
def State.cluster (s : State) (c : ClusterId) : Cluster := s.clusters[c]
def State.setCluster (s : State) (c : ClusterId) (v : Cluster) : State := { s with clusters := s.clusters.set c v }
def State.part (s : State) (p : PartId) : Part := s.parts[p]
def State.setPart (s : State) (p : PartId) (v : Part) : State := { s with parts := s.parts.set p v }
/-- The slot whose turn it is. -/
def State.me (s : State) : Slot := s.slot s.cur
def State.setMe (s : State) (v : Slot) : State := s.setSlot s.cur v

def mapSlot (q : SeqId) (f : Slot → Slot) (s : State) : State := s.setSlot q (f (s.slot q))
def mapMe (f : Slot → Slot) (s : State) : State := s.setMe (f s.me)
def mapCore (c : CoreId) (f : Core → Core) (s : State) : State := s.setCore c (f (s.core c))
def mapCluster (c : ClusterId) (f : Cluster → Cluster) (s : State) : State := s.setCluster c (f (s.cluster c))
def mapPart (p : PartId) (f : Part → Part) (s : State) : State := s.setPart p (f (s.part p))

/-- A free value of this step (assumption 1); `i` tells several of one step apart. -/
def State.free (s : State) (k : Free) (i : Nat) : Nat := Config.free k s.ticks i

/-- All sequencers, cores, clusters and partitions in ascending number. -/
def allSeqs : List SeqId := List.finRange 768
def allCores : List CoreId := List.finRange 192
def allClusters : List ClusterId := List.finRange 24
def allParts : List PartId := List.finRange 16
def coresOf (cl : ClusterId) : List CoreId := (List.finRange 8).map (coreIn cl)
def seqsOf (c : CoreId) : List SeqId := (List.finRange 4).map (seqOf c)

/-! ## Scalar registers and condition bits (R15, R16) -/

/-- X[r]; x0 reads 0. -/
def Slot.readX (t : Slot) (r : Reg) : Word := if r = 0 then 0 else t.x[r.toFin]
/-- X[r] ← v; x0 ignores the write. -/
def Slot.writeX (t : Slot) (r : Reg) (v : Word) : Slot := if r = 0 then t else { t with x := t.x.set r.toFin v }
/-- C[n]; c0 reads 1. -/
def Slot.readC (t : Slot) (n : CBit) : Bool := if n = 0 then true else t.cond.getLsbD n.toNat
/-- C[n] ← b; c0 ignores the write. -/
def Slot.writeC (t : Slot) (n : CBit) (b : Bool) : Slot :=
  if n = 0 then t
  else { t with cond := (t.cond &&& ~~~((1#8) <<< n.toNat)) ||| ((if b then 1#8 else 0#8) <<< n.toNat) }

def getX (r : Reg) : M Word := fun s => .ok (s.me.readX r) s
def setX (r : Reg) (v : Word) : M Unit := fun s => .ok () (mapMe (·.writeX r v) s)
def getC (n : CBit) : M Bool := fun s => .ok (s.me.readC n) s
def setC (n : CBit) (b : Bool) : M Unit := fun s => .ok () (mapMe (·.writeC n b) s)
def getMe : M Slot := fun s => .ok s.me s
def getS : M State := fun s => .ok s s
def modS (f : State → State) : M Unit := fun s => .ok () (f s)
def modMe (f : Slot → Slot) : M Unit := fun s => .ok () (mapMe f s)
def trap {α : Type} (cause : Nat) (etval : Word) : M α := fun s => .error (.trap cause etval) s
def waitFor {α : Type} (k : HoldKind) : M α := fun s => .error (.wait k) s
/-- Raises a trap unless a condition holds. -/
def check (c : Bool) (cause : Nat) (etval : Word) : M Unit := fun s => if c then .ok () s else .error (.trap cause etval) s

/-- The waits of an action count as of one kind. -/
def waitAs {α : Type} (k : HoldKind) (m : M α) : M α := fun s =>
  match m s with
  | .error (.wait _) s' => .error (.wait k) s'
  | r => r

/-- Runs an action for each element of a list in order. -/
def forList {α : Type} (l : List α) (f : α → M Unit) : M Unit :=
  match l with
  | [] => fun s => .ok () s
  | a :: r => fun s => match f a s with
    | .ok _ s' => forList r f s'
    | .error e s' => .error e s'

/-- Collects the results of an action over a list. -/
def collect {α β : Type} (l : List α) (f : α → M β) : M (List β) :=
  match l with
  | [] => fun s => .ok [] s
  | a :: r => fun s => match f a s with
    | .ok b s' => match collect r f s' with
      | .ok bs s'' => .ok (b :: bs) s''
      | .error e s'' => .error e s''
    | .error e s' => .error e s'

/-! ## Privilege and vector state (R27, R28, R35) -/

/-- The sequencer runs at S. -/
def Slot.sup (t : Slot) : Bool := t.status.getLsbD 0
/-- `vtype.vill` (R19). -/
def Slot.vill (t : Slot) : Bool := t.vtype.getLsbD 63

/-- Step 2 of R35 for an instruction that requires S. -/
def guardS (w : IWord) : M Unit := fun s => check s.me.sup causePrivilege (w.zeroExtend 64) s
/-- Step 3 of R35 for a vector instruction. -/
def guardVecOn (w : IWord) : M Unit := fun s => check (s.me.vstate != 0) causeFirstUse (w.zeroExtend 64) s
/-- Steps 3 and 4 of R35 for a vector instruction that needs a valid `vtype`. -/
def guardVec (w : IWord) : M Unit := do
  guardVecOn w
  fun s => check (!s.me.vill) causeIllegal (w.zeroExtend 64) s

/-- An instruction that writes vector state makes it dirty (R27). -/
def Slot.dirtyVec (t : Slot) : Slot := if t.vstate = 1 ∨ t.vstate = 2 then { t with vstate := 3 } else t

/-! ## The loop stack (R17, R91 to R93) -/

def Slot.level (t : Slot) (n : Nat) : LoopLevel := t.loops.getD n {}
def Slot.setLevel (t : Slot) (n : Nat) (l : LoopLevel) : Slot := { t with loops := t.loops.setIfInBounds n l }

/-- The back-edge tests at an end address, from level `d - 1` outward (R92): the loop levels, the depth and the
program counter afterwards. -/
def backEdge (loops : Vector LoopLevel 6) (e : Word) : Nat → Vector LoopLevel 6 × Nat × Word
  | 0 => (loops, 0, e + 4)
  | d + 1 =>
    let l := loops.getD d {}
    if l.fin ≠ e then (loops, d + 1, e + 4)
    else if l.cnt ≠ 0 then (loops.setIfInBounds d { l with cnt := l.cnt - 1, idx := l.idx + 1 }, d + 1, l.beg)
    else backEdge loops e d

/-- The depth after the pops of R93: levels whose body does not hold the target are popped. -/
def popTo (loops : Vector LoopLevel 6) (t : Word) : Nat → Nat
  | 0 => 0
  | d + 1 =>
    let l := loops.getD d {}
    if l.beg.toNat ≤ t.toNat ∧ t.toNat ≤ l.fin.toNat then d + 1 else popTo loops t d

/-- The retirement of an instruction at `e` that does not transfer control. -/
def Slot.edge (t : Slot) (e : Word) : Slot :=
  let r := backEdge t.loops e t.lpdepth
  { t with loops := r.1, lpdepth := r.2.1, pc := r.2.2
           pmPoint := decide (0 < t.lpdepth ∧ (t.level (t.lpdepth - 1)).fin = e) }

/-- A transfer of control to `a` (R93, and the pre-emption points of R324). -/
def Slot.transfer (t : Slot) (a : Word) (pops : Bool) : Slot :=
  { t with lpdepth := if pops then popTo t.loops a t.lpdepth else t.lpdepth
           pc := a
           pmPoint := pops && decide (a.toNat ≤ t.pc.toNat) }

/-! ## Trace records and sampling counters (R339 to R344) -/

/-- A trace record without its delta: kind, pipe, slot, ordinal, address, two payload quads. -/
def traceQuads (kind pipe slot : Nat) (ordinal : BitVec 32) (addr q2 q3 : Word) : List Word :=
  [BitVec.ofNat 64 (kind <<< 60 + pipe <<< 57 + slot <<< 55 + ordinal.toNat), addr, q2, q3]

/-- The place of a record among those of its cycle (R341): sync, lost, the pipes with end before begin, and then the
records without a pipe by slot. -/
def recordRank (rec : List Word) : Nat :=
  let q := rec.headD 0
  let kind := Word.field q 60 4
  let pipe := Word.field q 57 3
  if kind = 6 then 0 else if kind = 5 then 1
  else if pipe < 7 then 2 + 2 * pipe + (if kind = 0 then 1 else 0)
  else 16 + Word.field q 55 2

/-- Puts a record behind those that come no later. -/
def insertRecord (time : Nat) (rec : List Word) : List (Nat × List Word) → List (Nat × List Word)
  | [] => [(time, rec)]
  | e :: r =>
    if time < e.1 ∨ (time = e.1 ∧ recordRank rec < recordRank e.2) then (time, rec) :: e :: r
    else e :: insertRecord time rec r

/-- A record of an event at a time joins those that a core's trace unit writes when the cycle is over (R341). -/
def traceAt (c : CoreId) (time : Nat) (rec : List Word) : State → State :=
  mapCore c fun k => { k with trace := { k.trace with queue := insertRecord time rec k.trace.queue } }

/-- A record of an event of the present cycle. -/
def pushTrace (c : CoreId) (rec : List Word) (s : State) : State := traceAt c s.cycle rec s

/-- Tracing is on for a slot, and the bit `b` of `trctl` is set (R338). -/
def traced (s : State) (q : SeqId) (b : Nat) : Bool :=
  let k := s.core (coreOf q)
  k.trctl.getLsbD 0 && k.trctl.getLsbD b && k.trctl.getLsbD (8 + slotOf q)

/-- `dbginfo.sess` of a partition (R344, R357). -/
def inSession (s : State) (p : PartId) : Bool := s.dbgsess.getLsbD p.val

/-- The sampling counter of a slot counts `n` occurrences of an event (R344); at a wrap it sets ovf and, in a traced
debug session, the core issues nothing in the following cycle, whose sample record names `pc` and a stall reason. -/
def countEventAs (q : SeqId) (event n reason : Nat) (pc : Word) (s : State) : State :=
  let t := s.slot q
  if t.smpctl.getLsbD 7 && t.busy && Word.field t.smpctl 0 4 == event then
    let sum := t.smpcnt.toNat + n
    let s' := s.setSlot q { t with smpcnt := BitVec.ofNat 64 sum
                                   smpctl := if sum < 2 ^ 64 then t.smpctl else t.smpctl ||| 0x100 }
    if 2 ^ 64 ≤ sum ∧ inSession s t.part ∧ traced s q 4 then
      traceAt (coreOf q) (s.cycle + 1) (traceQuads 4 7 (slotOf q) t.strip pc (BitVec.ofNat 64 (event <<< 8 + reason)) 0)
        (mapCore (coreOf q) (fun k => { k with frozen := some (s.cycle + 1) }) s')
    else s'
  else s

/-- An event of an instruction that issues: the reason is 0. -/
def countEvent (q : SeqId) (event n : Nat) (pc : Word) : State → State := countEventAs q event n 0 pc

/-! ## Gang streams (R156 to R158) -/

/-- The slot of the member of a gang on core `i` of a cluster. -/
def gangSeq (cl : ClusterId) (k : Fin 4) (i : Fin 8) : SeqId := seqOf (coreIn cl i) k

def slotFin (q : SeqId) : Fin 4 := ⟨q.val % 4, Nat.mod_lt _ (by omega)⟩

def State.gangOf (s : State) (q : SeqId) : Option Gang := (s.cluster (clusterOf q)).gangs[slotFin q]
def State.setGang (s : State) (cl : ClusterId) (k : Fin 4) (g : Option Gang) : State :=
  mapCluster cl (fun c => { c with gangs := c.gangs.set k g }) s

/-- The members of the gang in a stream slot that are attached, in ascending core number. -/
def attachedIn (s : State) (cl : ClusterId) (k : Fin 4) : List SeqId :=
  ((List.finRange 8).map (gangSeq cl k)).filter fun q => (s.slot q).busy && (s.slot q).gmember && (s.slot q).gpos.isSome

/-- The members that are detached, as cores of the cluster: those that left with `tleave` among them (R158, R331). -/
def detachedIn (s : State) (cl : ClusterId) (k : Fin 4) : List (Fin 8) :=
  match (s.cluster cl).gangs[k] with
  | none => []
  | some g => (List.finRange 8).filter fun i => g.members.getLsbD i.val && !(attachedIn s cl k).contains (gangSeq cl k i)

/-- The lead: the lowest-numbered attached core (R158). -/
def leadOf (s : State) (q : SeqId) : Option SeqId := (attachedIn s (clusterOf q) (slotFin q)).head?

/-- A member leaves the stream and goes on by private fetch (R158). -/
def detach (q : SeqId) (s : State) : State := mapSlot q (fun t => { t with gpos := none }) s

/-- Drops the part of a gang's path that every attached member has passed. -/
def trimPath (cl : ClusterId) (k : Fin 4) (s : State) : State :=
  match (s.cluster cl).gangs[k] with
  | none => s
  | some g =>
    match ((attachedIn s cl k).filterMap fun q => (s.slot q).gpos).min? with
    | none => s
    | some m => s.setGang cl k (some { g with path := g.path.drop (m - g.base), base := max g.base m })

/-- The label that a held `gjoin` names. -/
def heldLabel (t : Slot) : Option Word :=
  match t.waiting with
  | some h => if h.kind = .gang then some (t.pc + (off21 h.word).signExtend 64 * 4) else none
  | none => none

/-- A waiting `gjoin` has waited for less than its own `gjtimeout` (R159). -/
def withinTimeout (s : State) (q : SeqId) : Bool :=
  match (s.slot q).waiting with
  | some h => decide (s.cycle - h.since < (s.slot q).gjtimeout.toNat)
  | none => false

/-- The detached members that wait at a `gjoin` for a label, within their T cycles (R159). -/
def awaitingLabel (s : State) (cl : ClusterId) (k : Fin 4) (l : Word) : List SeqId :=
  ((detachedIn s cl k).map (gangSeq cl k)).filter fun q =>
    (s.slot q).busy && (s.slot q).gmember && heldLabel (s.slot q) == some l && withinTimeout s q

/-- A detached member whose label the stream delivers re-attaches there, and its `gjoin` has retired (R159). -/
def reattach (q : SeqId) (l : Word) (pos : Nat) (s : State) : State :=
  mapSlot q (fun t => { t.transfer l true with waiting := none, gpos := some pos }) (countEvent q 1 1 (s.slot q).pc s)

/-- The stream goes on at an address: the position after the last one has it, and the members that wait for it there
re-attach. -/
def extendStream (cl : ClusterId) (k : Fin 4) (next : Word) (s : State) : State :=
  match (s.cluster cl).gangs[k] with
  | none => s
  | some g =>
    let pos := g.base + g.path.length
    let s := s.setGang cl k (some { g with path := g.path ++ [(next, none)] })
    (awaitingLabel s cl k next).foldl (fun s q => reattach q next pos s) s

/-- An attached member has computed its next program counter: at the front of the stream it extends the stream, and
elsewhere it detaches when the stream goes on somewhere else (R158). -/
def gangAdvance (q : SeqId) (s : State) : State :=
  match (s.slot q).gpos, s.gangOf q with
  | some p, some g =>
    let next := (s.slot q).pc
    let cl := clusterOf q
    let k := slotFin q
    match g.path[p + 1 - g.base]? with
    | some n =>
      if n.1 = next then trimPath cl k (mapSlot q (fun t => { t with gpos := some (p + 1) }) s)
      else detach q s
    | none => trimPath cl k (extendStream cl k next (mapSlot q (fun t => { t with gpos := some (p + 1) }) s))
  | _, _ => s

/-! ## Taking a trap, and how an instruction ends -/

/-- Trap entry (R101, R318): the registers saved, the level, the handler's address; a gang member detaches, and the
strip-progress table is emptied. -/
def takeTrap (cause : Nat) (etval epc : Word) (s : State) : State :=
  mapMe (fun t => { t with
    epc := epc
    ecause := BitVec.ofNat 64 cause
    etval := etval
    status := (if t.sup then 4#64 else 0#64) ||| 1#64
    spt := []
    pc := t.evec &&& ~~~3#64
    gpos := none
    waiting := none
    vbegun := none
    overwrites := []
    pmPoint := false }) s

/-- What every retirement does: nothing waits any more, registers written in full hold no error any more (R334), progress is
noted (R355), the retirement is counted (R344), and a gang member goes on in its stream. -/
def retired (pc : Word) (s : State) : State :=
  let s := mapMe (fun t => { t with
    waiting := none, bad := t.bad.filter fun r => !t.overwrites.contains r, overwrites := [] }) s
  let s := mapPart s.me.part (fun p => { p with progress := s.cycle }) s
  gangAdvance s.cur (countEvent s.cur 1 1 pc s)

/-- The end of an instruction that retires. -/
def retire (f : Flow) (s : State) : State :=
  let pc := s.me.pc
  match f with
  | .next => retired pc (mapMe (·.edge pc) s)
  | .edgeAt e => retired pc (mapMe (·.edge e) s)
  | .goto t pops => retired pc (mapMe (·.transfer t pops) s)
  | .resumeAt t => retired pc (mapMe (fun m => { m with pc := t, pmPoint := false }) s)
  | .thenTrap cause =>
    let s' := retired pc (mapMe (·.edge pc) s)
    takeTrap cause pc s'.me.pc s'
  | .ended => s

/-- An instruction that waits stays where it is; its wait is counted from its first stop (R159, R173). -/
def hold (w : IWord) (k : HoldKind) (s : State) : State :=
  mapMe (fun t => { t with waiting := some (match t.waiting with
    | some h => if h.word = w then { h with kind := k } else { word := w, kind := k, since := s.cycle }
    | none => { word := w, kind := k, since := s.cycle }) }) s

/-- The return from a trap (R102). -/
def returnFromTrap : M Flow := do
  let t ← getMe
  check (t.epc.extractLsb' 0 2 == 0) causeMisaligned t.epc
  modMe fun t => { t with status := t.status >>> 2 &&& 3 }
  pure (.resumeAt t.epc)

end Sys2Proof.Machine
end

