-- ==== Sys2Proof/Machine/Home.lean ====
section
/-! DEFINITION. Physical memory at the home agents: the physical map, forwarding marks and transit queues, and the
reads and writes that perform there; and the lines that store queues, L1s and cluster buffers hold (R194, R218, R228,
R237 to R242). -/

namespace Sys2Proof.Machine

/-- What a physical address names (R218). -/
inductive Region where
  | hbm
  | tier
  | host
  | peer (p : Nat)
  | nothing
  deriving DecidableEq, Repr

/-- The first address above HBM. -/
def hbmTop : Nat := 0xA000000000

def regionOf (pa : Nat) : Region :=
  if pa < hbmTop then .hbm
  else if 0x4000000000000 ≤ pa ∧ pa < 0x8000000000000 then .tier
  else if 0x8000000000000 ≤ pa ∧ pa < 0xC000000000000 then .host
  else if 0xC000000000000 ≤ pa ∧ pa < 0xE000000000000 then
    let p := (pa - 0xC000000000000) / 2 ^ 44
    if (pa - 0xC000000000000) % 2 ^ 44 < hbmTop then .peer p else .nothing
  else .nothing

/-- A capacity-tier address is covered by a present extent (R234). -/
def tierPresent (s : State) (pa : Nat) : Bool :=
  s.extents.any fun x => decide (x.base ≤ pa) && decide (pa < x.base + x.units * 2 ^ 28)

/-- The quad at a physical address as the cells hold it. -/
def rawQuad (s : State) (pa : Nat) : Nat := Memory.readNat s.mem pa 8

/-- The mark of a line (R238). -/
def markOf (s : State) (line : Nat) : Option Mark := (s.marks.find? fun e => e.1 == line).map (·.2)
def setMark (line : Nat) (m : Option Mark) (s : State) : State :=
  { s with marks := match m with
      | none => s.marks.filter fun e => e.1 != line
      | some k => Sparse.insert line k s.marks }

/-- The line that the record of an F line names (R239). -/
def recordTarget (s : State) (line : Nat) : Nat := (rawQuad s (64 * line) >>> 6) % 2 ^ 46

/-- The line at which an access performs, following at most `hops` records, and how many it followed (R242). -/
def follow (s : State) : Nat → Nat → Nat → Option (Nat × Nat)
  | hops, n, line =>
    match markOf s line with
    | some .forwarded =>
      match hops with
      | 0 => none
      | h + 1 => follow s h (n + 1) (recordTarget s line)
    | _ => some (line, n)

/-! ## Who accesses -/

/-- Who makes an access, as far as waits and discards ask (R208, R241, R333), and the kind of its page. -/
structure Writer where
  part : Option PartId := none
  seq : Option SeqId := none
  core : Option CoreId := none
  src : Source := .unit
  ord : Nat := 0
  deriving DecidableEq, Repr

/-- An instruction of a sequencer, for whose loads and atomics a home agent keeps a place. -/
def Writer.instr (w : Writer) : Option SeqId :=
  match w.src with | .scalar => w.seq | .vector => w.seq | _ => none

def HeldAccess.isTurn (h : HeldAccess) : Bool := h.act == .turn
/-- A held write counts as a store of its sequencer (R208). -/
def HeldAccess.isStore (h : HeldAccess) : Bool :=
  !h.isTurn && match h.src with | .scalar | .vector | .stream _ => true | _ => false

/-! ## Transit queues (R241) -/

/-- The accesses that a line's transit queue holds, in arrival order. -/
def queueOf (s : State) (line : Nat) : List HeldAccess := s.transit.filter fun h => h.addr / 64 == line
def queued (s : State) (line : Nat) : Bool := s.transit.any fun h => h.addr / 64 == line

/-- An access that writes is held at a line: it is in transit, or earlier accesses are still held there. -/
def blocked (s : State) (line : Nat) : Bool := markOf s line == some .transit || queued s line

/-- Bytes written at a line that is not F. -/
def cellWrite (pa : Nat) (bytes : List Byte) (s : State) : State :=
  { s with mem := Memory.writeBytes s.mem pa bytes
           bad := overwritten (pa / 64) (pa % 64) bytes.length s.bad }

/-- A counter of `n` bytes after a change. -/
def bump (n old : Nat) (delta : Int) (saturates : Bool) : Nat :=
  let top : Nat := 2 ^ (8 * n)
  let v := (old : Int) + delta
  if saturates ∧ (top : Int) ≤ v then top - 1 else (v % (top : Int)).toNat

/-- An access performs at its address. -/
def performAct (pa : Nat) (a : HeldAct) (s : State) : State :=
  match a with
  | .write bs => cellWrite pa bs s
  | .add n d sat => cellWrite pa (bytesOfNat n (bump n (Memory.readNat s.mem pa n) d sat)) s
  | .turn => s

/-- Held accesses perform in order, up to a load or an atomic whose instruction has still to make it; the rest is
held again. -/
def performHeld : List HeldAccess → State → State
  | [], s => s
  | h :: r, s => if h.isTurn then { s with transit := s.transit ++ h :: r } else performHeld r (performAct h.addr h.act s)

/-- What a line that is not in transit holds performs. -/
def drain (line : Nat) (s : State) : State :=
  performHeld (queueOf s line) { s with transit := s.transit.filter fun h => h.addr / 64 != line }

/-- Replays what a line holds at another line, or at itself, in arrival order; a target that moves holds it in turn. -/
def replay (line target : Nat) (s : State) : State :=
  let s' := { s with transit := s.transit.map fun h =>
    if h.addr / 64 == line then { h with addr := 64 * target + h.addr % 64 } else h }
  if markOf s target = some .transit then s' else drain target s'

/-- The step in which the instruction of an access began: a vector instruction may have begun in an earlier one. -/
def Writer.began (w : Writer) (s : State) : Nat :=
  match w.src, w.seq with
  | .scalar, _ => s.ticks
  | _, some q => ((s.slot q).vbegun).getD s.ticks
  | _, none => s.ticks

/-- An access as a transit queue holds it. -/
def Writer.held (w : Writer) (pa : Nat) (a : HeldAct) (s : State) : HeldAccess :=
  { part := w.part, owner := w.seq, core := w.core, src := w.src, tick := w.began s, ord := w.ord, addr := pa, act := a }

/-- An access arrives at a line after the records: it performs, or is held. -/
def arrive (w : Writer) (pa : Nat) (a : HeldAct) (s : State) : State :=
  if blocked s (pa / 64) then { s with transit := s.transit ++ [w.held pa a s] } else performAct pa a s

/-- The home agent of a line: the slice of its pseudo-channel, by the placement of skew 00 (R230, R238; assumption 63);
the lines of the capacity tier have one. -/
def homeAgent (line : Nat) : Nat :=
  if regionOf (64 * line) = .hbm then
    let f := line / 512
    ((f >>> 2) % 4 ^^^ (f >>> 10) % 4 ^^^ (f >>> 18) % 4) * 128 + line / 4 % 128
  else 512

/-- The 256 transit entries of a line's home agent are taken: a further access is refused, and retried (R241). -/
def agentFull (s : State) (line : Nat) : Bool :=
  decide (256 ≤ (s.transit.filter fun h => homeAgent (h.addr / 64) == homeAgent line).length)

/-- Keeps the place of an instruction's load or atomic at a line, its only one. -/
def takeTurn (w : Writer) (pa : Nat) (s : State) : State :=
  match w.instr with
  | none => s
  | some q =>
    if s.transit.any (fun h => h.isTurn && h.owner == some q && h.addr / 64 == pa / 64) || agentFull s (pa / 64) then s
    else
      arrive w pa .turn { s with transit := s.transit.filter fun h => !(h.isTurn && h.owner == some q) }

/-- The first access that a line holds is the load or atomic of this instruction. -/
def myTurn (w : Writer) (s : State) (line : Nat) : Bool :=
  markOf s line != some .transit && match queueOf s line with
    | h :: _ => h.isTurn && h.owner == w.instr && h.owner.isSome
    | [] => false

/-- A sequencer gives up its places: what stood behind them performs. -/
def dropTurns (q : SeqId) (s : State) : State :=
  let mine := s.transit.filter fun h => h.isTurn && h.owner == some q
  mine.foldl (fun s h => if markOf s (h.addr / 64) = some .transit then s else drain (h.addr / 64) s)
    { s with transit := s.transit.filter fun h => !(h.isTurn && h.owner == some q) }

/-- What an instruction that began in `s` leaves when it ends: if it has waited, it gives up its places (R241). -/
def turnsOver (s s' : State) : State := if s.me.waiting.isSome then dropTurns s.cur s' else s'

/-! ## What waits for held accesses (R208, R241) -/

/-- A held write that a wait for a release covers: those of UO pages only with `uo` (R184). -/
def HeldAccess.counts (h : HeldAccess) (uo : Bool) : Bool := !h.isTurn && (uo || h.ord != 2)

/-- Held writes of a cluster's cores. -/
def heldIn (s : State) (cl : ClusterId) (uo : Bool) : Bool :=
  s.transit.any fun h => h.counts uo && match h.core with | some c => clusterOfCore c == cl | none => false

/-- Stores of a sequencer of which a part is held. -/
def heldStores (s : State) (q : SeqId) : List HeldAccess := s.transit.filter fun h => h.isStore && h.owner == some q

/-- How many instructions of a sequencer have stores that have not performed (R208). -/
def heldBy (s : State) (q : SeqId) : Nat := ((heldStores s q).map (·.tick)).eraseDups.length

/-- An earlier vector store of a sequencer has not performed (R104, R105). -/
def heldVector (s : State) (q : SeqId) : Bool := (heldStores s q).any fun h => h.src != .scalar

/-- A write of one copy, tile task or stream transfer of a sequencer is held. -/
def heldOp (s : State) (q : SeqId) (src : Source) : Bool := s.transit.any fun h => h.owner == some q && h.src == src

/-- A store of a sequencer to an SO page is held: its later accesses follow it (R178, R241, R271). -/
def heldStrong (s : State) (w : Writer) : Bool :=
  match w.src with
  | .scalar | .vector | .stream _ => (s.transit.any fun h => h.isStore && h.owner == w.seq && h.ord == 1) && w.seq.isSome
  | _ => false

/-- The memory requests of a core that are outstanding (R208). -/
def requestsOf (s : State) (c : CoreId) : Nat :=
  ((seqsOf c).map fun q => heldBy s q).sum

/-! ## Accesses at the home agents -/

/-- Reads bytes of one line at its home agent for an access to `va`. Behind held accesses a load is held too; its place is
given up when its instruction ends (`turnsOver`). -/
def homeRead (w : Writer) (pa n : Nat) (va : Word) : M (List Byte) := fun s =>
  match follow s 2 0 (pa / 64) with
  | none => .error (.trap causeChain va) s
  | some (l, _) =>
    if queued s l && !myTurn w s l then .error (.wait .transit) (takeTurn w (64 * l + pa % 64) s)
    else if isBad s.bad l then .error (.trap causeData va) s
    else .ok ((List.range n).map fun i => Memory.read s.mem (64 * l + pa % 64 + i)) s

/-- A write of one line at its home agent, for an access to `va`. -/
def homeWrite (w : Writer) (pa : Nat) (bytes : List Byte) (va : Word) : M Unit := fun s =>
  match follow s 2 0 (pa / 64) with
  | none => .error (.trap causeChain va) s
  | some (l, _) =>
    if blocked s l && agentFull s l then .error (.wait .transit) s
    else match w.instr with
      | some q =>
        if 4096 ≤ requestsOf s (coreOf q) then .error (.wait .capacity) s
        else .ok () (arrive w (64 * l + pa % 64) (.write bytes) s)
      | none => .ok () (arrive w (64 * l + pa % 64) (.write bytes) s)

/-- A read-modify-write can be made at once at its home agent: nothing holds it, or its turn has come. -/
def homeSettled (w : Writer) (pa : Nat) (va : Word) : M Unit := fun s =>
  match follow s 2 0 (pa / 64) with
  | none => .error (.trap causeChain va) s
  | some (l, _) =>
    if blocked s l && !myTurn w s l then .error (.wait .transit) (takeTurn w (64 * l + pa % 64) s) else .ok () s

/-- Makes a read-modify-write at the home agent as one action: what is held behind it performs after it. -/
def asOne {α : Type} (w : Writer) (pa : Nat) (va : Word) (m : M α) : M α := fun s =>
  match homeSettled w pa va s with
  | .error e s' => .error e s'
  | .ok _ s1 =>
    match follow s1 2 0 (pa / 64) with
    | none => m s1
    | some (l, _) =>
      let rest := (queueOf s1 l).drop 1
      let close (s : State) : State := drain l { s with transit := s.transit ++ rest }
      match m { s1 with transit := s1.transit.filter fun h => h.addr / 64 != l } with
      | .ok a s2 => .ok a (close s2)
      | .error e s2 => .error e (close s2)

/-- A quad read at device scope. -/
def homeQuad (w : Writer) (pa : Nat) (va : Word) : M Word := fun s =>
  match homeRead w pa 8 va s with
  | .ok b s' => .ok (BitVec.ofNat 64 (natOfBytes b)) s'
  | .error e s' => .error e s'

/-- The place of a load or atomic of a cluster's core at a line. -/
def HeldAccess.turnOf (h : HeldAccess) (cl : ClusterId) (line : Nat) : Bool :=
  h.isTurn && h.addr / 64 == line && match h.owner with | some q => clusterOf q == cl | none => false

/-- A write-back arrives at the home: it follows every record it meets (assumption 3), and a full agent refuses it. It
stands before the loads of its cluster that are held there already, which saw its bytes in their caches (R95; assumption
80). -/
def homeBack (w : Writer) (cl : ClusterId) (pa : Nat) (bytes : List Byte) (s : State) : Option State :=
  match follow s 64 0 (pa / 64) with
  | none => none
  | some (l, _) =>
    if !blocked s l then some (performAct (64 * l + pa % 64) (.write bytes) s)
    else if agentFull s l then none
    else
      let ahead := s.transit.takeWhile fun h => !h.turnOf cl l
      let s' := { s with transit := ahead ++ w.held (64 * l + pa % 64) (.write bytes) s :: s.transit.drop ahead.length }
      some (if markOf s l = some .transit then s' else drain l s')

/-! ## The units of the device (assumption 63) -/

/-- A line after what it holds: what a read that is held there will return. -/
def settledLine (s : State) (line : Nat) : State :=
  (queueOf s line).foldl (fun s h => performAct h.addr h.act s) s

/-- A quad that a unit of the device reads: a queue descriptor, a ring's descriptor, a heat or KV descriptor. -/
def deviceQuad (s : State) (pa : Nat) : Nat :=
  match follow s 2 0 (pa / 64) with
  | none => s.free .unitQuad pa % 2 ^ 64
  | some (l, _) => if queued s l then rawQuad (settledLine s l) (64 * l + pa % 64) else rawQuad s (64 * l + pa % 64)

/-- An access that writes of a unit of the device: rings, descriptors, counters. -/
def deviceAct (pa : Nat) (a : HeldAct) (s : State) : State :=
  match follow s 2 0 (pa / 64) with
  | none => s
  | some (l, _) => arrive {} (64 * l + pa % 64) a s

def deviceWrite (pa : Nat) (bytes : List Byte) (s : State) : State := deviceAct pa (.write bytes) s

/-! ## Lines of caches -/

def Line.byte (l : Line) (i : Nat) : Byte := l.data.extractLsb' (8 * i) 8
def Line.has (l : Line) (i : Nat) : Bool := l.valid.getLsbD i
def Line.isDirty (l : Line) (i : Nat) : Bool := l.dirty.getLsbD i
def Line.isUo (l : Line) (i : Nat) : Bool := l.uo.getLsbD i

/-- A bit of a mask set or cleared. -/
def withBit (m : BitVec 64) (i : Nat) (b : Bool) : BitVec 64 := if b then m ||| (1#64 <<< i) else m &&& ~~~(1#64 <<< i)

/-- A line with one byte set; `d` says whether it counts as written here, `u` whether through a UO page. -/
def Line.put (l : Line) (i : Nat) (b : Byte) (d u : Bool) : Line :=
  { data := (l.data &&& ~~~(0xFF#512 <<< (8 * i))) ||| (b.zeroExtend 512 <<< (8 * i))
    valid := withBit l.valid i true
    dirty := withBit l.dirty i d
    uo := withBit l.uo i u
    bad := match l.bad with
      | none => none
      | some m => if withBit m i true = BitVec.allOnes 64 then none else some (withBit m i true) }

/-- A line with consecutive bytes set. -/
def Line.putAll (l : Line) (i : Nat) (bs : List Byte) (d u : Bool) : Line :=
  bs.zipIdx.foldl (fun l e => l.put (i + e.2) e.1 d u) l

/-- A copy that a cache holds takes written bytes as clean; a copy without them stays as it is. -/
def Line.refresh (l : Line) (i : Nat) (bs : List Byte) : Line :=
  bs.zipIdx.foldl (fun l e => if l.has (i + e.2) then l.put (i + e.2) e.1 false (l.isUo (i + e.2)) else l) l

/-- A line without the bytes of a mask; without any byte it is no line. -/
def Line.without (l : Line) (m : BitVec 64) : Line :=
  if l.valid &&& ~~~m = 0 then {} else { l with valid := l.valid &&& ~~~m, dirty := l.dirty &&& ~~~m }

/-- The mask of `n` bytes from `i` up. -/
def byteMask (i n : Nat) : BitVec 64 := BitVec.ofNat 64 (2 ^ n - 1) <<< i

def lineIn (ls : List (Nat × Line)) (n : Nat) : Line := Sparse.get {} ls n
def putLine (ls : List (Nat × Line)) (n : Nat) (l : Line) : List (Nat × Line) := Sparse.set {} ls n l

def l1Line (s : State) (c : CoreId) (n : Nat) : Line := lineIn (s.core c).l1 n
def bufLine (s : State) (cl : ClusterId) (n : Nat) : Line := lineIn (s.cluster cl).buffer n
def stqLine (s : State) (q : SeqId) (n : Nat) : Line := lineIn (s.core (coreOf q)).stq[slotFin q] n
def setL1 (c : CoreId) (n : Nat) (l : Line) (s : State) : State := mapCore c (fun k => { k with l1 := putLine k.l1 n l }) s
def setBuf (cl : ClusterId) (n : Nat) (l : Line) (s : State) : State :=
  mapCluster cl (fun k => { k with buffer := putLine k.buffer n l }) s
def setStq (q : SeqId) (n : Nat) (l : Line) (s : State) : State :=
  mapCore (coreOf q) (fun k => { k with stq := k.stq.set (slotFin q) (putLine k.stq[slotFin q] n l) }) s

/-! ## Names of one location (R238, R240) -/

/-- Two line addresses lead to one line. -/
def sameLine (s : State) (m n : Nat) : Bool := m == n || (follow s 64 0 m).map (·.1) == (follow s 64 0 n).map (·.1)

/-- What a cache wrote under other names of a line joins its line of this name, and its copies under them are dropped:
the names are one location, of which it keeps one copy. -/
def gather (s : State) (n : Nat) (ls : List (Nat × Line)) : List (Nat × Line) :=
  if s.marks.isEmpty then ls
  else
    let others := ls.filter fun e => e.1 != n && sameLine s e.1 n
    if others.isEmpty then ls
    else
      let l := others.foldl (fun (l : Line) e => (List.range 64).foldl (fun (l : Line) i =>
        if e.2.isDirty i && !l.isDirty i then l.put i (e.2.byte i) true (e.2.isUo i) else l) l) (lineIn ls n)
      putLine (ls.filter fun e => !(others.any fun o => o.1 == e.1)) n l

/-- The same for each cache of a core's position. -/
def gatherAt (core : Option CoreId) (cluster : Option ClusterId) (n : Nat) (s : State) : State :=
  if s.marks.isEmpty then s
  else
    let s1 := match core with
      | none => s
      | some c => mapCore c (fun k => { k with l1 := gather s n k.l1, stq := k.stq.map (gather s n) }) s
    match cluster with
    | none => s1
    | some cl => mapCluster cl (fun k => { k with buffer := gather s n k.buffer }) s1

/-! ## Writing one line back (R177, R228) -/

/-- The bytes of a mask that a line wrote join the line of the next level. A byte that either wrote through an RC page
stays one that a release without `uo` covers (R184). -/
def Line.give (l b : Line) (m : BitVec 64) : Line :=
  let b' := (List.range 64).foldl (fun (b : Line) i =>
    if m.getLsbD i && l.isDirty i then b.put i (l.byte i) true (l.isUo i && !(b.isDirty i && !b.isUo i)) else b) b
  if l.bad.isSome && m &&& l.dirty != 0 then { b' with bad := some 0 } else b'

/-- The bytes of a line that a write-back takes: those of UO pages only when `uo`. -/
def Line.toBack (l : Line) (uo : Bool) : BitVec 64 := if uo then l.dirty else l.dirty &&& ~~~l.uo

/-- A sequencer's store queue empties a line into its core's L1, whose copies under other names of it are older now. -/
def stqBack (q : SeqId) (n : Nat) (uo : Bool) (s0 : State) : State :=
  let l := stqLine s0 q n
  let m := l.toBack uo
  if m = 0 then s0
  else
    let s := mapCore (coreOf q) (fun k => { k with l1 := gather s0 n k.l1 }) s0
    setStq q n (l.without m) (setL1 (coreOf q) n (l.give (l1Line s (coreOf q) n) m) s)

/-- A core's L1 writes the written bytes of a line to the cluster buffer. -/
def l1Back (c : CoreId) (n : Nat) (uo : Bool) (s0 : State) : State :=
  let l := l1Line s0 c n
  let m := l.toBack uo
  if m = 0 then s0
  else
    let s := mapCluster (clusterOfCore c) (fun k => { k with buffer := gather s0 n k.buffer }) s0
    setL1 c n { l with dirty := l.dirty &&& ~~~m } (setBuf (clusterOfCore c) n (l.give (bufLine s (clusterOfCore c) n) m) s)

/-- One byte of a cluster's buffer goes to the home; a refused one stays written here. -/
def bufByteBack (cl : ClusterId) (n i : Nat) (s : State) : State :=
  let b := bufLine s cl n
  let w : Writer := { core := some (coreIn cl 0), ord := if b.isUo i then 2 else 0 }
  let clean := setBuf cl n { b with dirty := withBit b.dirty i false }
  match regionOf (64 * n) with
  | .hbm | .tier => match homeBack w cl (64 * n + i) [b.byte i] s with
    | some s' => clean s'
    | none => s
  | _ => clean s

/-- A cluster's buffer writes the written bytes of a line to the home. -/
def bufBack (cl : ClusterId) (n : Nat) (uo : Bool) (s : State) : State :=
  let b := bufLine s cl n
  let m := b.toBack uo
  if m = 0 then s
  else
    let s' := (List.range 64).foldl (fun s i => if m.getLsbD i then bufByteBack cl n i s else s) s
    if b.bad.isSome then { s' with bad := markBad (((follow s' 64 0 n).map (·.1)).getD n) s'.bad } else s'

/-- A core's written bytes of a line, and its sequencer's, go down to the home. -/
def pushDown (core : Option CoreId) (cluster : Option ClusterId) (seq : Option SeqId) (n : Nat) (s : State) : State :=
  let s := gatherAt core cluster n s
  let s := match seq with | some q => stqBack q n true s | none => s
  let s := match core with | some c => l1Back c n true s | none => s
  match cluster with | some cl => bufBack cl n true s | none => s

/-- The byte that the caches of a position hold written: a sequencer's store queue first, then the L1 and the cluster
buffer, as far as the access at level `lvl` passes them (R95, R176). -/
def nearByte (core : Option CoreId) (cluster : Option ClusterId) (seq : Option SeqId) (lvl n i : Nat) (s : State) :
    Option Byte :=
  let q : Option Byte := match seq with
    | some q => if (stqLine s q n).isDirty i then some ((stqLine s q n).byte i) else none
    | none => none
  let l (r : Option Byte) : Option Byte := match core with
    | some c => if r.isNone && decide (1 ≤ lvl) && (l1Line s c n).isDirty i then some ((l1Line s c n).byte i) else r
    | none => r
  let b (r : Option Byte) : Option Byte := match cluster with
    | some cl => if r.isNone && decide (2 ≤ lvl) && (bufLine s cl n).isDirty i then some ((bufLine s cl n).byte i) else r
    | none => r
  b (l q)

end Sys2Proof.Machine
end

