-- ==== Sys2Proof/Machine/Translate.lean ====
section
/-! DEFINITION. From a virtual address to a place: the local region, the page-table walk, permissions, the accessed and
dirty bits, cached translations, and what each kind of access may reach (R214 to R227, R235). -/

namespace Sys2Proof.Machine

/-- What an access is, for the checks of R218 and R223. -/
inductive AccKind where
  /-- A load, a stream fill, a stage-engine read: R. -/
  | load
  /-- A store or a stage-engine write: W. -/
  | store
  /-- An atomic or an element of `vhacc`: R and W. -/
  | atomic
  /-- `amold`: R. -/
  | atomicLoad
  /-- An instruction fetch: X. -/
  | fetch
  /-- A read, a write, or a read-modify-write of the copy engine. -/
  | copyRead
  | copyWrite
  | copyAdd
  /-- Translation with no permission checked (`fwdmend`). -/
  | plain
  /-- Both R and W checked, for a relocation (R243). -/
  | relocate
  deriving DecidableEq, Repr

namespace AccKind
def needsR : AccKind → Bool
  | load | atomic | atomicLoad | copyRead | copyAdd | relocate => true
  | _ => false
def needsW : AccKind → Bool
  | store | atomic | copyWrite | copyAdd | relocate => true
  | _ => false
def needsX : AccKind → Bool
  | fetch => true
  | _ => false
/-- The access writes, for the dirty bit (R224). -/
def dirties : AccKind → Bool
  | store | atomic | copyWrite | copyAdd | relocate => true
  | _ => false
end AccKind

/-- An agent of R174 as far as an access needs it: its translation context, the core or cluster of its position, the
sequencer on whose behalf it acts, and what of that sequencer it is. -/
structure Agent where
  ctx : Ctx
  core : Option CoreId
  cluster : Option ClusterId
  seq : Option SeqId
  src : Source := .unit
  deriving DecidableEq, Repr

def Agent.writer (a : Agent) : Writer :=
  { part := some a.ctx.part, seq := a.seq, core := a.core, src := a.src }

/-- The sequencer whose store queue an access passes: that of an instruction (R194). -/
def Agent.queue (a : Agent) : Option SeqId :=
  match a.src with | .scalar => a.seq | .vector => a.seq | _ => none

/-- The context of a sequencer as it stands (R227). -/
def Slot.ctx (t : Slot) : Ctx :=
  { part := t.part, ptbase := t.ptbase, asid := t.asid, hpasid := t.hpasid, sup := t.sup }

/-- The sequencer whose turn it is, as an agent. -/
def State.agent (s : State) : Agent :=
  { ctx := s.me.ctx, core := some (coreOf s.cur), cluster := some (clusterOf s.cur), seq := some s.cur, src := .scalar }

/-- The same for the accesses of a vector instruction. -/
def State.vagent (s : State) : Agent := { s.agent with src := .vector }

/-- An engine of a core that acts for a sequencer (R174): a copy, a tile task, a stream transfer. -/
def engineAgent (x : Ctx) (c : CoreId) (q : SeqId) (src : Source) : Agent :=
  { ctx := x, core := some c, cluster := some (clusterOfCore c), seq := some q, src := src }

/-- Where an access goes. -/
inductive Place where
  /-- A byte of a scratchpad. -/
  | pad (c : CoreId) (off : Nat)
  /-- A physical address. -/
  | phys (pa : Nat)
  deriving DecidableEq, Repr

/-- A translated address: the place, the page kind (R178), and the leaf's bits. -/
structure Loc where
  place : Place
  /-- 0 RC, 1 SO, 2 UO. -/
  ord : Nat := 0
  skew : Nat := 0
  nofwd : Bool := false
  kv : Bool := false
  /-- Physical address of the leaf entry, for `Launder`'s mend (R315). -/
  leaf : Nat := 0
  deriving DecidableEq, Repr

/-- The place `i` bytes further on in the same page. -/
def Loc.plus (l : Loc) (i : Nat) : Loc :=
  { l with place := match l.place with
      | .pad c o => .pad c (o + i)
      | .phys pa => .phys (pa + i) }

/-- The first address of the local region (R214). -/
def localBase : Nat := 0x01FFFFFFE0000000

/-- The scratchpad byte that an address of the local region reaches (R215). -/
def localPlace (s : State) (a : Agent) (k : AccKind) (va : Nat) : Option Place :=
  match k, a.core with
  | .fetch, _ => none
  | _, none => none
  | _, some c =>
    let o := va - localBase
    if o < 0x2000000 then
      let t := coreIn (clusterOfCore c) ⟨o / 0x400000 % 8, Nat.mod_lt _ (by omega)⟩
      if (s.core t).owner = some a.ctx.part then some (.pad t (o % 0x400000)) else none
    else if 0x10000000 ≤ o ∧ o < 0x10400000 then some (.pad c (o - 0x10000000))
    else none

/-- Whether a kind of access is allowed at a physical address (R218). -/
def allowedAt (s : State) (k : AccKind) (pa : Nat) : Bool :=
  match regionOf pa with
  | .hbm => true
  | .tier => tierPresent s pa
  | .host => k != .fetch
  | .peer _ => match k with
    | .atomic | .atomicLoad | .copyRead | .copyWrite | .copyAdd | .plain => true
    | _ => false
  | .nothing => false

/-! ## Page-table entries (R221) -/

def pteV (e : Word) : Bool := e.getLsbD 0
def pteLeaf (e : Word) : Bool := e.getLsbD 1
def pteR (e : Word) : Bool := e.getLsbD 2
def pteW (e : Word) : Bool := e.getLsbD 3
def pteX (e : Word) : Bool := e.getLsbD 4
def pteU (e : Word) : Bool := e.getLsbD 5
def pteA (e : Word) : Bool := e.getLsbD 6
def pteD (e : Word) : Bool := e.getLsbD 7
def pteOrd (e : Word) : Nat := Word.field e 8 2
def pteSkew (e : Word) : Nat := Word.field e 10 2
def pteTier (e : Word) : Bool := e.getLsbD 12
def pteKv (e : Word) : Bool := e.getLsbD 13
def pteNofwd (e : Word) : Bool := e.getLsbD 14
def pteG (e : Word) : Bool := e.getLsbD 15
def pteFrame (e : Word) : Nat := Word.field e 17 37

/-- The index of an address at a level of the tree (R219). -/
def vaIndex (va : Nat) (lvl : Nat) : Nat :=
  if lvl = 3 then (va >>> 51) % 64 else (va >>> (15 + 12 * lvl)) % 4096

/-- The caches of an agent's position hold one of `n` bytes written, under some name. -/
def nearDirty (a : Agent) (pa n : Nat) (s : State) : Bool :=
  let s' := gatherAt a.core a.cluster (pa / 64) s
  (List.range n).any fun i => (nearByte a.core a.cluster a.queue 2 (pa / 64) (pa % 64 + i) s').isSome

/-- What an agent's caches wrote may be written back before its own walk or fetch reads the line (R177; assumption 62). -/
def settleLine (a : Agent) (pa n : Nat) (s : State) : State :=
  if nearDirty a pa n s && s.free .earlyBack (pa / 8) % 2 == 0 then pushDown a.core a.cluster a.queue (pa / 64) s else s

/-- An L1 or a buffer holds a byte of a quad. -/
def Line.holdsQuad (l : Line) (i : Nat) : Bool := (List.range 8).any fun j => l.has (i + j)

/-- The copies of an entry that the walking core and its cluster hold may take the bits that the walk has set (R176;
assumption 62). -/
def showEntry (a : Agent) (pa : Nat) (bs : List Byte) (s : State) : State :=
  let n := pa / 64
  let held := (match a.core with | some c => (l1Line s c n).holdsQuad (pa % 64) | none => false)
    || (match a.cluster with | some cl => (bufLine s cl n).holdsQuad (pa % 64) | none => false)
  if held && s.free .earlyBack (pa / 8) % 2 == 0 then
    let s := match a.cluster with | some cl => setBuf cl n ((bufLine s cl n).refresh (pa % 64) bs) s | none => s
    match a.core with | some c => setL1 c n ((l1Line s c n).refresh (pa % 64) bs) s | none => s
  else s

/-- An uncorrectable error in a table entry is fatal to the partition (R222). -/
def entryFault {α : Type} (a : Agent) (va : Word) (m : M α) : M α := fun s =>
  match m s with
  | .error (.trap c v) s' => if c = causeData then .error (.fatal a.ctx.part va) s' else .error (.trap c v) s'
  | r => r

/-- Reads a table entry at device scope. -/
def readEntry (a : Agent) (pa : Nat) (va : Word) : M Word := fun s =>
  entryFault a va (homeQuad a.writer pa va) (settleLine a pa 8 s)

/-- A cached entry matches an access (R225). -/
def Cached.hits (c : Cached) (a : Agent) (va : Nat) : Bool :=
  c.part == a.ctx.part && (match c.asid with | none => true | some x => x == a.ctx.asid.extractLsb' 0 16)
    && c.vpage == va >>> (15 + 12 * c.level)

/-- The entry that a walk takes at a level from the caches: one that stands there still, or, as a free value says, an
old one (R225; assumption 4). -/
def cachedNode (s : State) (a : Agent) (va : Word) (lvl pa : Nat) : Option Word :=
  match s.cached.find? fun c => c.level == lvl && !pteLeaf c.entry && c.hits a va.toNat with
  | none => none
  | some c =>
    if (c.place == pa && deviceQuad s pa == c.entry.toNat) || s.free .cachedEntry (768 + lvl) % 2 == 1 then some c.entry
    else none

/-- What a walk finds: the leaf's level, where it stands, its contents, and the entries above it. -/
structure Walked where
  lvl : Nat
  leaf : Nat
  entry : Word
  nodes : List Cached
  deriving DecidableEq, Repr

/-- An entry as the caches keep it. -/
def cachedOf (a : Agent) (va lvl pa : Nat) (e : Word) : Cached :=
  { part := a.ctx.part, asid := if pteLeaf e && pteG e then none else some (a.ctx.asid.extractLsb' 0 16)
    vpage := va >>> (15 + 12 * lvl), level := lvl, place := pa, entry := e }

/-- The entry that a walk takes at a level: a cached one, or the table's. -/
def nodeAt (a : Agent) (va : Word) (lvl pa : Nat) : M Word := fun s =>
  match cachedNode s a va lvl pa with
  | some e => .ok e s
  | none => readEntry a pa va s

/-- Walks from the table at `t` of level `lvl` down to a leaf (R222). -/
def walk (a : Agent) (va : Word) : Nat → Nat → M Walked
  | lvl, t => fun s =>
    let pa := t + 8 * vaIndex va.toNat lvl
    match nodeAt a va lvl pa s with
    | .error e s' => .error e s'
    | .ok e s' =>
      if pteV e = false then .error (.trap causePage va) s'
      else if pteLeaf e then .ok { lvl := lvl, leaf := pa, entry := e, nodes := [] } s'
      else match lvl with
        | 0 => .error (.trap causePage va) s'
        | l + 1 =>
          if Word.field e 2 15 ≠ 0 ∨ 0x13FFFFF < pteFrame e then .error (.trap causePage va) s'
          else match walk a va l (pteFrame e * 32768) s' with
            | .error e' s'' => .error e' s''
            | .ok w s'' => .ok { w with nodes := cachedOf a va.toNat (l + 1) pa e :: w.nodes } s''

/-- The leaf to which the tables as they stand lead (R222): its level, its place and its contents. -/
def leafNow (s : State) (va : Nat) : Nat → Nat → Option (Nat × Nat × Word)
  | lvl, t =>
    let pa := t + 8 * vaIndex va lvl
    let e := BitVec.ofNat 64 (deviceQuad s pa)
    if pteV e = false then none
    else if pteLeaf e then some (lvl, pa, e)
    else match lvl with
      | 0 => none
      | l + 1 => if Word.field e 2 15 ≠ 0 ∨ 0x13FFFFF < pteFrame e then none else leafNow s va l (pteFrame e * 32768)

/-- The address of the top table (R220). -/
def topTable (a : Agent) : Nat := Word.field a.ctx.ptbase 9 43 * 512

/-- The checks on a leaf of level `lvl`, before the permissions (R222). -/
def leafOk (lvl : Nat) (e : Word) : Bool :=
  lvl != 3 && !e.getLsbD 16 && pteOrd e != 3 && pteSkew e != 3 && !(pteW e && !pteR e)
    && pteFrame e % 2 ^ (12 * lvl) == 0
    && pteTier e == (regionOf (pteFrame e * 32768) == .tier)
    && !(pteKv e && regionOf (pteFrame e * 32768) != .hbm)

/-- The permissions of R223. -/
def leafPermits (a : Agent) (k : AccKind) (e : Word) : Bool :=
  (!k.needsR || pteR e) && (!k.needsW || pteW e) && (!k.needsX || pteX e) && (a.ctx.sup || k == .plain || pteU e)

/-- The physical address of an access through a leaf. -/
def leafPa (lvl : Nat) (e : Word) (va : Nat) : Nat := pteFrame e * 32768 + va % 2 ^ (15 + 12 * lvl)

/-- The entry with A set, and D for an access that writes (R224). -/
def withAD (k : AccKind) (e : Word) : Word := e ||| 0x40#64 ||| (if k.dirties then 0x80#64 else 0#64)

/-- The tables as they stand lead to the leaf that an entry was made from. -/
def Cached.current (c : Cached) (a : Agent) (va : Word) (s : State) : Bool :=
  leafNow s va.toNat 3 (topTable a) == some (c.level, c.place, c.entry)

/-- The cached leaf that an access uses. Whether it uses one that the tables no longer give is not fixed
(assumption 4). -/
def cachedFor (s : State) (a : Agent) (va : Word) : Option Cached :=
  match findIdxFrom (fun c => pteLeaf c.entry && c.hits a va.toNat) 0 s.cached with
  | none => none
  | some (i, c) => if c.current a va s || s.free .cachedEntry i % 2 == 1 then some c else none

/-- Keeps an entry in the caches, in place of one for the same page and level. -/
def keepEntry (c : Cached) (s : State) : State :=
  { s with cached := c :: s.cached.filter fun d =>
      !(d.part == c.part && d.asid == c.asid && d.vpage == c.vpage && d.level == c.level) }

/-- Keeps what a walk that did not fault has read (R225). -/
def remember (a : Agent) (va : Nat) (w : Walked) (e : Word) (s : State) : State :=
  keepEntry (cachedOf a va w.lvl w.leaf e) (w.nodes.foldr keepEntry s)

/-- A page request belongs to an access. -/
def PageReq.isOf (r : PageReq) (a : Agent) (page : Nat) : Bool :=
  r.part == a.ctx.part && r.pasid == a.ctx.hpasid.extractLsb' 0 20 && r.page == page && r.owner == a.seq && r.src == a.src

/-- A host access through ATS: a page that is not in the address-translation cache may have to be requested from the
host first; a request that failed is an access fault (R235; assumption 12). -/
def hostPage (a : Agent) (pa : Nat) (va : Word) : M Unit := fun s =>
  if regionOf pa = .host ∧ a.ctx.hpasid.getLsbD 31 = true then
    let page := (pa - 0x8000000000000) / 4096
    let pasid := a.ctx.hpasid.extractLsb' 0 20
    if s.atc.contains (a.ctx.part, pasid, page) then .ok () s
    else match s.pri.find? (·.isOf a page) with
      | some r =>
        if r.failed then .error (.trap causeAccess va) { s with pri := s.pri.filter fun x => !x.isOf a page }
        else .error (.wait .page) s
      | none =>
        if s.free .atsMiss page % 2 = 1 then
          .error (.wait .page) { s with pri := s.pri ++ [{ part := a.ctx.part, pasid := pasid, page := page
                                                           owner := a.seq, src := a.src, failed := false }] }
        else .ok () { s with atc := (a.ctx.part, pasid, page) :: s.atc }
  else .ok () s

/-- A port of the mask that is up and whose partner reported the expected identifier reaches the peer (R358), and the
peer admits the partition (R236, R359; assumption 12). -/
def peerPage (pa : Nat) (va : Word) : M Unit := fun s =>
  match regionOf pa with
  | .peer p =>
    let r := s.peertab.toList.getD p 0
    let reachable := (List.range 16).any fun i => r.getLsbD i &&
      (match s.klPorts.toList.getD i none with | some id => id == r.extractLsb' 32 32 | none => false)
    if reachable ∧ s.free .peerAdmits pa % 2 = 1 then .ok () s else .error (.trap causeAccess va) s
  | _ => .ok () s

/-- What a translation that has passed its checks gives. -/
def locOf (a : Agent) (pa : Nat) (va : Word) (leaf : Nat) (e : Word) : M Loc := do
  hostPage a pa va
  peerPage pa va
  pure { place := .phys pa, ord := pteOrd e, skew := pteSkew e, nofwd := pteNofwd e, kv := pteKv e, leaf := leaf }

/-- Sets missing A and D bits, by a compare-and-set of the leaf at device scope: whether the entry still stood (R224). -/
def setBits (a : Agent) (leaf : Nat) (old new : Word) (va : Word) : M Bool :=
  if new = old then pure true
  else entryFault a va (asOne a.writer leaf va (do
    let q ← homeQuad a.writer leaf va
    if q = old then do
      homeWrite { a.writer with src := .unit } leaf (bytesOfNat 8 new.toNat) va
      modS (showEntry a leaf (bytesOfNat 8 new.toNat))
      pure true
    else pure false))

/-- Translates by a walk from the top table, which repeats while the leaf has changed before its bits are set (R222,
R224). -/
def walkTranslate (a : Agent) (k : AccKind) (va : Word) : Nat → M Loc
  | 0 => waitFor .transit
  | n + 1 => do
    let w ← walk a va 3 (topTable a)
    check (leafOk w.lvl w.entry) causePage va
    check (leafPermits a k w.entry) causePermission va
    let e := withAD k w.entry
    if ← setBits a w.leaf w.entry e va then do
      let pa := leafPa w.lvl e va.toNat
      let s ← getS
      check (allowedAt s k pa) causeAccess va
      modS (remember a va.toNat w e)
      locOf a pa va w.leaf e
    else walkTranslate a k va n

/-- Translates through a cached leaf; its missing bits are set as by a walk (R224). -/
def cachedTranslate (a : Agent) (k : AccKind) (va : Word) (c : Cached) : M Loc := do
  check (leafPermits a k c.entry) causePermission va
  let e := withAD k c.entry
  if ← setBits a c.place c.entry e va then do
    let pa := leafPa c.level e va.toNat
    let s ← getS
    check (allowedAt s k pa) causeAccess va
    modS (fun s => if e = c.entry then s else keepEntry { c with entry := e } s)
    locOf a pa va c.place e
  else walkTranslate a k va 2

/-- Translates an access (R214, R215, R222 to R225). -/
def translate (a : Agent) (k : AccKind) (va : Word) : M Loc := fun s =>
  if va.toNat / 2 ^ 57 ≠ 0 then .error (.trap causePage va) s
  else if localBase ≤ va.toNat then
    match localPlace s a k va.toNat with
    | none => .error (.trap causeAccess va) s
    | some p => .ok { place := p } s
  else match cachedFor s a va with
    | some c => cachedTranslate a k va c s
    | none => walkTranslate a k va 2 s

/-- Drops the cached translations of a partition that match an address and an ASID; none matches all (R102, R225). -/
def dropCached (p : PartId) (va : Option Word) (asid : Option Word) (s : State) : State :=
  { s with cached := s.cached.filter fun c => !(c.part == p
      && (match va with | none => true | some v => c.vpage == v.toNat >>> (15 + 12 * c.level))
      && (match asid, c.asid with | some x, some y => y == x.extractLsb' 0 16 | _, _ => true)) }

end Sys2Proof.Machine
end

