-- ==== Sys2Proof/Machine/Memory.lean ====
section
/-! DEFINITION. Reads and writes of translated places through the caches, and the cache actions of acquire and release
(R175 to R195, R228). Level 0 is a sequencer's store queue, 1 its core's L1, 2 the cluster write buffer, 3 the home
(R194; assumption 3). An access is made in granules of at most 8 aligned bytes, each as one (R181). -/

namespace Sys2Proof.Machine

/-- The level at which an access of a scope performs (R194). -/
def scopeLevel : Scope → Nat
  | .sequencer => 0 | .core => 1 | .cluster => 2 | _ => 3

/-- The nearest level of an agent's position (R174, R175). -/
def Agent.near (a : Agent) : Nat :=
  match a.core, a.cluster with
  | some _, _ => if a.queue.isSome then 0 else 1
  | none, some _ => 2
  | none, none => 3

/-- The level of an access to a place: pages of kind SO and memory of peers perform at the home (R179, R228, R236). -/
def levelFor (a : Agent) (sc : Scope) (l : Loc) (pa : Nat) : Nat :=
  if l.ord = 1 then 3
  else match regionOf pa with
    | .peer _ => 3
    | _ => max a.near (scopeLevel sc)

/-! ## One granule -/

/-- A copy of a byte can serve an access to a page of a kind: one that was made through a UO page serves only those
pages, since an acquire leaves it (R184). -/
def Line.hit (l : Line) (ord i : Nat) : Bool := l.isDirty i || (l.has i && (ord == 2 || !l.isUo i))

def Line.hits (l : Line) (ord i n : Nat) : Bool := (List.range n).all fun j => l.hit ord (i + j)
def Line.bytesAt (l : Line) (i n : Nat) : List Byte := (List.range n).map fun j => l.byte (i + j)

/-- The bytes of a line that were not written here take new values from below; `fill` also takes those that the line does
not hold. -/
def Line.update (l : Line) (fill : Bool) (ord i : Nat) (bs : List Byte) : Line :=
  bs.zipIdx.foldl (fun l e =>
    if l.isDirty (i + e.2) then l
    else if l.has (i + e.2) then l.put (i + e.2) e.1 false (l.isUo (i + e.2) && (!fill || ord == 2))
    else if fill then l.put (i + e.2) e.1 false (ord == 2) else l) l

/-- Eight bytes at the home: cells, or bytes of host or peer memory, which are free (assumption 12). -/
def homeGran (w : Writer) (pa : Nat) (va : Word) : M (List Byte) := fun s =>
  match regionOf pa with
  | .host => .ok ((List.range 8).map fun i => BitVec.ofNat 8 (s.free .hostByte (pa + i))) s
  | .peer _ => .ok ((List.range 8).map fun i => BitVec.ofNat 8 (s.free .peerByte (pa + i))) s
  | _ => homeRead w pa 8 va s

/-- The granule at byte `g` of line `n` as a cluster's buffer has it: copies that make up the whole granule, or what
stands at the home with the bytes written here. -/
def bufGran (w : Writer) (cl : ClusterId) (ord n g : Nat) (va : Word) : M (List Byte) := fun s =>
  let b := bufLine s cl n
  if b.hits ord g 8 then
    if b.bad.isSome then .error (.trap causeData va) s else .ok (b.bytesAt g 8) s
  else match homeGran w (64 * n + g) va s with
    | .error e s' => .error e s'
    | .ok hs s' =>
      let b' := (bufLine s' cl n).update false ord g hs
      let out := hs.zipIdx.map fun e => if b'.isDirty (g + e.2) then b'.byte (g + e.2) else e.1
      .ok out (setBuf cl n b' s')

/-- A load of a core has taken a byte that its L1 did not hold (R344). -/
def noteMiss (c : CoreId) (s : State) : State := mapCore c (fun k => { k with missed := true }) s

/-- An L1 fills a line: each granule of which it lacks a byte is taken whole, but for the bytes written here (R181,
R228). -/
def fillL1 (w : Writer) (c : CoreId) (ord n : Nat) (va : Word) : M Unit :=
  forList ((List.range 8).map (8 * ·)) fun g => fun s =>
    if (l1Line s c n).hits ord g 8 then .ok () s
    else match bufGran w (clusterOfCore c) ord n g va s with
      | .error e s' => .error e s'
      | .ok bs s' => .ok () (noteMiss c (setL1 c n ((l1Line s' c n).update true ord g bs) s'))

/-- An access at a level would take a byte from a line with an uncorrectable error (R237). -/
def badByte (a : Agent) (lvl ord n i : Nat) (s : State) : Bool :=
  let below : Bool := match a.cluster with
    | some cl => let b := bufLine s cl n
      b.bad.isSome && decide (2 ≤ lvl) && (b.isDirty i || (lvl == 2 && b.hit ord i))
    | none => false
  (match a.queue with | some q => !(stqLine s q n).isDirty i | none => true)
    && match a.core with
      | some c => let l := l1Line s c n
        if l.isDirty i || (decide (lvl ≤ 1) && l.hit ord i) then l.bad.isSome else below
      | none => below

/-- One of the bytes of an access would be taken from such a line. -/
def badNear (a : Agent) (lvl ord n i k : Nat) (s : State) : Bool := (List.range k).any fun j => badByte a lvl ord n (i + j) s

/-- Copies nearer than the level of an access take what it has read (R176). -/
def showRead (a : Agent) (lvl ord n g : Nat) (bs : List Byte) (s : State) : State :=
  let s := match a.core with
    | some c => if 2 ≤ lvl then noteMiss c (setL1 c n ((l1Line s c n).update false ord g bs) s) else s
    | none => s
  match a.cluster with
  | some cl => if 3 ≤ lvl then setBuf cl n ((bufLine s cl n).update false ord g bs) s else s
  | none => s

/-- Reads the granule that holds a byte of line `n` from a level, past what was written nearer. -/
def levelGran (a : Agent) (lvl ord n g : Nat) (va : Word) : M (List Byte) :=
  let home : M (List Byte) := fun s => match homeGran { a.writer with ord := ord } (64 * n + g) va s with
    | .ok bs s' => .ok bs (showRead a lvl ord n g bs s')
    | .error e s' => .error e s'
  match lvl, a.core, a.cluster with
  | 3, _, _ => home
  | 2, _, some cl => fun s => match bufGran a.writer cl ord n g va s with
    | .ok bs s' => .ok bs (showRead a lvl ord n g bs s')
    | .error e s' => .error e s'
  | _, some c, _ => fun s => match fillL1 a.writer c ord n va s with
    | .ok _ s' => .ok ((l1Line s' c n).bytesAt g 8) s'
    | .error e s' => .error e s'
  | _, _, _ => home

/-- Reads `k` bytes of one granule at a level. What the agent's own caches wrote nearer is seen (R95, R176); an access to
an SO page has it written back first, and reads no copy nearer than the home (R179). -/
def readGran (a : Agent) (lvl ord pa k : Nat) (va : Word) : M (List Byte) := fun s0 =>
  let n := pa / 64
  let i := pa % 64
  let g := i / 8 * 8
  let s1 := gatherAt a.core a.cluster n s0
  let s := if ord = 1 then pushDown a.core a.cluster a.queue n s1 else s1
  let near := (List.range k).map fun j => nearByte a.core a.cluster a.queue lvl n (i + j) s
  if ord = 1 ∧ near.any Option.isSome = true then .error (.wait .transit) s
  else if badNear a lvl ord n i k s then .error (.trap causeData va) s
  else if near.all Option.isSome then .ok (near.map (·.getD 0)) s
  else match levelGran a lvl ord n g va s with
    | .error e s' => .error e s'
    | .ok bs s' => .ok (near.zipIdx.map fun e => e.1.getD (bs.getD (i - g + e.2) 0)) s'

/-- The caches of a position hold a byte that was written through an RC page: it stays one that a release covers. -/
def rcDirty (a : Agent) (n i : Nat) (s : State) : Bool :=
  let f (l : Line) := l.isDirty i && !l.isUo i
  (match a.queue with | some q => f (stqLine s q n) | none => false)
    || (match a.core with | some c => f (l1Line s c n) | none => false)
    || (match a.cluster with | some cl => f (bufLine s cl n) | none => false)

/-- A line with bytes written here. -/
def Line.write (l : Line) (a : Agent) (ord n i : Nat) (bs : List Byte) (s : State) : Line :=
  bs.zipIdx.foldl (fun l e => l.put (i + e.2) e.1 true (ord == 2 && !rcDirty a n (i + e.2) s)) l

/-- The store queue of the agent gives up bytes that a later write of its own replaces. -/
def queueWithout (a : Agent) (n i k : Nat) (s : State) : State :=
  match a.queue with
  | some q => setStq q n ((stqLine s q n).without (byteMask i k)) s
  | none => s

/-- Copies nearer than the level of a write take its bytes, as clean. -/
def showWrite (a : Agent) (lvl n i : Nat) (bs : List Byte) (s : State) : State :=
  let s := queueWithout a n i bs.length s
  let s := match a.core with
    | some c => if 2 ≤ lvl then setL1 c n ((l1Line s c n).refresh i bs) s else s
    | none => s
  match a.cluster with
  | some cl => if 3 ≤ lvl then setBuf cl n ((bufLine s cl n).refresh i bs) s else s
  | none => s

/-- No copy of bytes whose write is held: a later load goes to the home, behind it (R241). -/
def dropNear (a : Agent) (n i k : Nat) (s : State) : State :=
  let s := queueWithout a n i k s
  let s := match a.core with
    | some c => setL1 c n ((l1Line s c n).without (byteMask i k)) s
    | none => s
  match a.cluster with
  | some cl => setBuf cl n ((bufLine s cl n).without (byteMask i k)) s
  | none => s

/-- The home agent of an address would hold a write to it. -/
def homeHolds (s : State) (pa : Nat) : Bool :=
  match regionOf pa with
  | .hbm | .tier => match follow s 2 0 (pa / 64) with | some (l, _) => blocked s l | none => false
  | _ => false

/-- Bytes of one granule written at the home: cells; writes to host and peer memory leave the device. -/
def homePut (w : Writer) (pa : Nat) (bs : List Byte) (va : Word) : M Unit := fun s =>
  match regionOf pa with
  | .host => .ok () s
  | .peer _ => .ok () s
  | _ => homeWrite w pa bs va s

/-- Writes bytes of one granule at a level. A write that the home holds is shown to nobody; what the agent's caches wrote
before it stands before it in the queue (R241). -/
def writeGran (a : Agent) (lvl ord pa : Nat) (bs : List Byte) (va : Word) : M Unit := fun s0 =>
  let n := pa / 64
  let i := pa % 64
  let s := gatherAt a.core a.cluster n s0
  let home : M Unit := fun s =>
    let w := { a.writer with ord := ord }
    if homeHolds s pa then
      match homePut w pa bs va (pushDown a.core a.cluster a.queue n s) with
      | .ok _ s' => .ok () (dropNear a n i bs.length s')
      | .error e s' => .error e s'
    else match homePut w pa bs va s with
      | .ok _ s' => .ok () (showWrite a 3 n i bs s')
      | .error e s' => .error e s'
  match lvl, a.queue, a.core, a.cluster with
  | 0, some q, _, _ => .ok () (setStq q n ((stqLine s q n).write a ord n i bs s) s)
  | 1, _, some c, _ => .ok () (showWrite a 1 n i bs (setL1 c n ((l1Line s c n).write a ord n i bs s) s))
  | 2, _, _, some cl => .ok () (showWrite a 2 n i bs (setBuf cl n ((bufLine s cl n).write a ord n i bs s) s))
  | _, _, _, _ => home s

/-- A byte of a scratchpad. -/
def padByte (s : State) (c : CoreId) (o : Nat) : Byte := Sparse.get 0 (s.core c).pad o
def padPut (c : CoreId) (o : Nat) (b : Byte) (s : State) : State :=
  mapCore c (fun k => { k with pad := Sparse.set 0 k.pad o b, badPad := overwritten (o / 64) (o % 64) 1 k.badPad }) s

/-! ## Several bytes of one page -/

/-- Lengths of the runs of `n` bytes from an address that end at multiples of 8, each with its distance from the start:
the granules of one access (R181). -/
def granules : Nat → Nat → Nat → List (Nat × Nat)
  | 0, _, _ => []
  | f + 1, pa, n =>
    if n = 0 then []
    else
      let k := min n (8 - pa % 8)
      (0, k) :: (granules f (pa + k) (n - k)).map fun e => (e.1 + k, e.2)

/-- An access of an instruction to an SO page follows its earlier ones (R178, R241). -/
def strongOrder (a : Agent) (ord : Nat) : M Unit := fun s =>
  if ord = 1 ∧ heldStrong s a.writer = true then .error (.wait .transit) s else .ok () s

/-- Reads `n` bytes from a translated place for an access to `va`. -/
def readBytes (a : Agent) (sc : Scope) (l : Loc) (n : Nat) (va : Word) : M (List Byte) :=
  match l.place with
  | .pad c o => fun s =>
    if (List.range n).any fun i => isBad (s.core c).badPad ((o + i) / 64) then .error (.trap causeData va) s
    else .ok ((List.range n).map fun i => padByte s c (o + i)) s
  | .phys pa => do
    strongOrder a l.ord
    let gs ← collect (granules n pa n) fun e =>
      readGran a (levelFor a sc l pa) l.ord (pa + e.1) e.2 (va + BitVec.ofNat 64 e.1)
    pure gs.flatten

/-- Reads a byte. -/
def readByte (a : Agent) (sc : Scope) (l : Loc) (va : Word) : M Byte := do
  let bs ← readBytes a sc l 1 va
  pure (bs.headD 0)

/-- Reads `n` bytes as a number. -/
def readLoc (a : Agent) (sc : Scope) (l : Loc) (n : Nat) (va : Word) : M Nat := do
  let bs ← readBytes a sc l n va
  pure (natOfBytes bs)

/-- Writes bytes to a translated place, granule by granule. -/
def writeBytesAt (a : Agent) (sc : Scope) (l : Loc) (bs : List Byte) (va : Word) : M Unit :=
  match l.place with
  | .pad c o => modS fun s => bs.zipIdx.foldl (fun s e => padPut c (o + e.2) e.1 s) s
  | .phys pa => do
    strongOrder a l.ord
    forList (granules bs.length pa bs.length) fun e =>
      writeGran a (levelFor a sc l pa) l.ord (pa + e.1) ((bs.drop e.1).take e.2) (va + BitVec.ofNat 64 e.1)

/-- Checks that a write can perform, before any of its bytes does: its line's chain is short enough (R94, R242). -/
def canWrite (l : Loc) (va : Word) : M Unit := fun s =>
  match l.place with
  | .pad _ _ => .ok () s
  | .phys pa => match regionOf pa with
    | .hbm | .tier => if (follow s 2 0 (pa / 64)).isSome then .ok () s else .error (.trap causeChain va) s
    | _ => .ok () s

def writeLocBytes (a : Agent) (sc : Scope) (l : Loc) (bs : List Byte) (va : Word) : M Unit := do
  canWrite l va
  writeBytesAt a sc l bs va

/-- Writes the low `n` bytes of a value to a translated place. -/
def writeLoc (a : Agent) (sc : Scope) (l : Loc) (n v : Nat) (va : Word) : M Unit :=
  writeLocBytes a sc l (bytesOfNat n v) va

/-- Loads `n` bytes, which lie in one page. -/
def loadN (a : Agent) (sc : Scope) (va : Word) (n : Nat) : M Nat := do
  let l ← translate a .load va
  readLoc a sc l n va

/-- Stores `n` bytes, which lie in one page. -/
def storeN (a : Agent) (sc : Scope) (va : Word) (n v : Nat) : M Unit := do
  let l ← translate a .store va
  writeLoc a sc l n v va

/-! ## Cleaning and invalidating (R184, R187, R194) -/

/-- A sequencer's store queue empties into the L1 of its core; lines of UO pages only when `uo`. -/
def drainQueue (q : SeqId) (uo : Bool) (s : State) : State :=
  ((s.core (coreOf q)).stq[slotFin q]).foldl (fun s e => stqBack q e.1 uo s) s

/-- Writes the dirty bytes of a core's L1 back to the cluster buffer. -/
def cleanL1 (c : CoreId) (uo : Bool) (s : State) : State :=
  (s.core c).l1.foldl (fun s e => l1Back c e.1 uo s) s

/-- Writes the dirty bytes of a cluster's buffer back to the home. -/
def cleanBuffer (cl : ClusterId) (uo : Bool) (s : State) : State :=
  (s.cluster cl).buffer.foldl (fun s e => bufBack cl e.1 uo s) s

/-- A line without its copies of what others may have written; those of UO pages stay but with `uo`. -/
def Line.dropClean (l : Line) (uo : Bool) : Line :=
  l.without (l.valid &&& ~~~l.dirty &&& (if uo then BitVec.allOnes 64 else ~~~l.uo))

def dropLines (uo : Bool) (ls : List (Nat × Line)) : List (Nat × Line) :=
  (ls.map fun e => (e.1, e.2.dropClean uo)).filter fun e => e.2 != {}

/-- Drops the clean bytes of a core's L1. -/
def dropL1 (c : CoreId) (uo : Bool) (s : State) : State := mapCore c (fun k => { k with l1 := dropLines uo k.l1 }) s
/-- Drops the clean bytes of a cluster's buffer. -/
def dropBuffer (cl : ClusterId) (uo : Bool) (s : State) : State :=
  mapCluster cl (fun k => { k with buffer := dropLines uo k.buffer }) s

/-- The cache action of a release at a level of an agent in core `c`, of sequencer `q` if it is an instruction: what
those caches hold written is cleaned to it (R184, R194). -/
def cleanTo (q : Option SeqId) (c : CoreId) (lvl : Nat) (uo : Bool) (s : State) : State :=
  if lvl = 0 then s
  else
    let s := match q with | some q => drainQueue q uo s | none => s
    if lvl = 1 then s
    else
      let s := cleanL1 c uo s
      if lvl = 2 then s else cleanBuffer (clusterOfCore c) uo s

/-- The cache action of an acquire (R184): dirty copies are written back first, and then nearer copies are dropped. -/
def refreshTo (c : CoreId) (lvl : Nat) (uo : Bool) (s : State) : State :=
  if lvl ≤ 1 then s
  else
    let s := dropL1 c uo (cleanL1 c uo s)
    if lvl = 2 then s
    else dropBuffer (clusterOfCore c) uo (cleanBuffer (clusterOfCore c) uo s)

/-- A release at a level by an agent of core `c` has to wait: a write of its own is held, or, beyond the cluster, a write
of the cluster is held or could not be written back (R184, R241). -/
def releaseWaits (own : HeldAccess → Bool) (c : CoreId) (lvl : Nat) (uo : Bool) (s : State) : Bool :=
  (s.transit.any fun h => own h && h.counts uo)
    || (decide (3 ≤ lvl) && (heldIn s (clusterOfCore c) uo
        || (s.cluster (clusterOfCore c)).buffer.any fun e => e.2.toBack uo != 0))

/-- A release by the running sequencer at a scope (R184, R187). -/
def releaseAt (sc : Scope) (uo : Bool) : M Unit := fun s =>
  let s' := cleanTo (some s.cur) (coreOf s.cur) (scopeLevel sc) uo s
  if releaseWaits (fun h => h.isStore && h.owner == some s.cur) (coreOf s.cur) (scopeLevel sc) uo s' then
    .error (.wait .transit) s'
  else .ok () s'

/-- An acquire by the running sequencer at a scope. -/
def acquireAt (sc : Scope) (uo : Bool) : M Unit := fun s => .ok () (refreshTo (coreOf s.cur) (scopeLevel sc) uo s)

/-! ## Atomics at a place (R188, R207) -/

/-- The access performs at a home agent, which may hold it. -/
def atHome (a : Agent) (sc : Scope) (l : Loc) : Option Nat :=
  match l.place with
  | .pad _ _ => none
  | .phys pa => match regionOf pa with
    | .hbm | .tier => if levelFor a sc l pa = 3 then some pa else none
    | _ => none

/-- Reads `n` bytes, and writes what `f` makes of them, as one action at a scope; gives the old value. -/
def rmwLoc (a : Agent) (sc : Scope) (l : Loc) (n : Nat) (va : Word) (f : Nat → Option Nat) : M Nat :=
  let act : M Nat := do
    let old ← readLoc a sc l n va
    match f old with
    | none => pure old
    | some v => do
      writeLoc a sc l n v va
      pure old
  match atHome a sc l with
  | some pa => do
    strongOrder a l.ord
    asOne a.writer pa va act
  | none => act

/-- The place lies in host memory or the capacity tier, where few atomics are supported (R207). -/
def farPlace (l : Loc) : Bool :=
  match l.place with
  | .pad _ _ => false
  | .phys pa => match regionOf pa with | .host | .tier => true | _ => false

/-! ## Heat (R233) -/

/-- The kinds of vector element access that heat counting tells apart (R120). -/
inductive HeatKind where
  | unit | strided | indexed
  deriving DecidableEq, Repr

def HeatKind.offset : HeatKind → Nat
  | unit => 0 | strided => 4 | indexed => 8

/-- Counts one element access to a place: the entry of the frame that its translation names, saturating. The descriptor is
read at each count (assumption 64). -/
def countHeat (k : HeatKind) (l : Loc) (s : State) : State :=
  let h := s.me.heatbase
  match l.place with
  | .pad _ _ => s
  | .phys pa =>
    if h.getLsbD 0 = false then s
    else
      let d := Word.field h 6 46 * 64
      let first := deviceQuad s (d + 8)
      let count := deviceQuad s (d + 16)
      let f := pa / 32768
      if f < first ∨ first + count ≤ f then s
      else deviceAct (deviceQuad s d + 16 * (f - first) + k.offset) (.add 4 1 true) s

end Sys2Proof.Machine
end

