-- ==== Sys2Proof/Machine/Rings.lean ====
section
/-! DEFINITION. The rings in HBM that the device writes and the host reads: the fault log, the trace, the profile and
the replay log; and MSI-X messages (R339 to R348, R353, R354). -/

namespace Sys2Proof.Machine

/-! ## Ring descriptors (R339) -/

/-- Eight quads keep the map of a descriptor that lies at a physical address. -/
def ringMap (desc : Nat) (q : Nat → Nat) : Bool :=
  decide (desc < hbmTop) && q 5 == 0 && q 6 == 0 && q 7 == 0 && (List.range 20).any (fun k => q 1 == 2 ^ (k + 7))
    && q 0 % 4096 == 0 && decide (q 0 < hbmTop)

/-- The descriptor at a physical address keeps its map. -/
def ringOk (s : State) (desc : Nat) : Bool := ringMap desc fun i => deviceQuad s (desc + 8 * i)

/-- The writer's view of a ring, as a descriptor gives it. -/
def openRing (s : State) (desc : Nat) : Ring :=
  { desc := desc, base := deviceQuad s desc, size := deviceQuad s (desc + 8), head := deviceQuad s (desc + 16)
    lost := deviceQuad s (desc + 32) }

/-- The descriptor that `trbase`, `rpbase`, FLOG or PROF names (R338, R353). -/
def ringDesc (v : Word) : Nat := Word.field v 6 46 * 64

def ringTail (s : State) (r : Ring) : Nat := deviceQuad s (r.desc + 24)

/-- The ring holds as many unconsumed records as it has places. -/
def ringFull (s : State) (r : Ring) : Bool := (r.head + 2 ^ 64 - ringTail s r) % 2 ^ 64 == r.size

/-- Publishes head with release order at system scope (R339). -/
def ringPublish (r : Ring) (s : State) : Ring × State :=
  ({ r with unpub := 0 }, deviceWrite (r.desc + 16) (bytesOfNat 8 r.head) s)

/-- Writes one record of quads at the head; head is published after every 64. -/
def ringStore (z : Nat) (r : Ring) (time : Nat) (quads : List Word) (s : State) : Ring × State :=
  let s' := deviceWrite (r.base + z * (r.head % r.size)) (quads.flatMap fun w => bytesOfNat 8 w.toNat) s
  let r' := { r with head := (r.head + 1) % 2 ^ 64, last := time, unpub := r.unpub + 1
                     unpubSince := if r.unpub = 0 then time else r.unpubSince }
  if 64 ≤ r'.unpub then ringPublish r' s' else (r', s')

/-- Counts what finds no space: `lost` saturates. -/
def ringDrop (n : Nat) (r : Ring) (s : State) : Ring × State :=
  let l := min (r.lost + n) (2 ^ 64 - 1)
  ({ r with lost := l, lostSince := r.lostSince + n }, deviceWrite (r.desc + 32) (bytesOfNat 8 l) s)

/-- Appends a record, or drops it and counts `n`. -/
def ringPut (z n : Nat) (r : Ring) (time : Nat) (quads : List Word) (s : State) : Ring × State :=
  if ringFull s r then ringDrop n r s else ringStore z r time quads s

/-! ## MSI-X (R354) -/

/-- Raises a vector of a function; a masked vector sets its pending bit. -/
def raiseVector (p : PartId) (vec : Fin 4) (s : State) : State :=
  let e := (s.part p).msix[vec]
  if e.masked then mapPart p (fun t => { t with pba := t.pba ||| (1#4 <<< vec.val) }) s
  else { s with outbox := s.outbox ++ [.msix p vec.val e.addr e.data] }

/-! ## The fault log (R353) -/

/-- Appends an event to a partition's fault log, publishes head, and raises vector 0. Only the descriptor's `lost`
counts what a full ring drops: the log has no record for it. -/
def logFault (p : PartId) (kind code core slot : Nat) (addr extra : Word) (s : State) : State :=
  if (s.part p).flog = 0 then s
  else
    let r := (s.part p).flogRing
    if ringFull s r then
      let (r', s') := ringDrop 1 r s
      mapPart p (fun t => { t with flogRing := r' }) s'
    else
      let q0 := BitVec.ofNat 64 (kind <<< 60 + code <<< 52 + core <<< 44 + slot <<< 42)
      let (r1, s1) := ringStore 32 r s.cycle [q0, addr, BitVec.ofNat 64 s.cycle, extra] s
      let (r2, s2) := ringPublish r1 s1
      raiseVector p 0 (mapPart p (fun t => { t with flogRing := r2 }) s2)

/-- An event that no core and slot belongs to. -/
def logEvent (p : PartId) (kind code : Nat) (addr extra : Word) (s : State) : State :=
  logFault p kind code 0xFF 0 addr extra s

/-- The failure code of R265 for a trap cause: 1 page or permission, 2 access, 3 chain, 4 uncorrectable. -/
def failureCode (cause : Nat) : Nat :=
  if cause = causePage ∨ cause = causePermission then 1
  else if cause = causeChain then 3
  else if cause = causeData then 4
  else 2

/-! ## The trace ring (R339 to R341) -/

/-- A record with its delta filled in. -/
def withDelta (d : Nat) (quads : List Word) : List Word :=
  match quads with
  | [] => []
  | q :: r => (q + BitVec.ofNat 64 (d <<< 32)) :: r

/-- A record whose delta would not fit has a sync record before it. -/
def syncFirst (r : Ring) (time : Nat) (s : State) : Ring × State :=
  if 2 ^ 23 ≤ time - r.last then ringStore 32 r time (traceQuads 6 7 0 0 0 (BitVec.ofNat 64 time) 0) s else (r, s)

/-- Writes one trace record at its time, or drops it where the ring is full. -/
def traceWrite (r : Ring) (time : Nat) (quads : List Word) (s : State) : Ring × State :=
  if ringFull s r then ringDrop 1 r s
  else
    let (r1, s1) := syncFirst r time s
    if ringFull s1 r1 then ringDrop 1 r1 s1 else ringStore 32 r1 time (withDelta (time - r1.last) quads) s1

/-- Space has returned to a ring that dropped records: a lost record tells how many (R339, R340). -/
def traceLost (r : Ring) (time : Nat) (s : State) : Ring × State :=
  if r.lostSince = 0 ∨ ringFull s r then (r, s)
  else
    let (r1, s1) := syncFirst r time s
    if ringFull s1 r1 then (r1, s1)
    else
      let (r2, s2) := ringStore 32 r1 time
        (withDelta (time - r1.last) (traceQuads 5 7 0 0 0 (BitVec.ofNat 64 r1.lostSince) 0)) s1
      ({ r2 with lostSince := 0 }, s2)

/-- A cycle of a ring's writer ends: the lost record that is due, and the records of events up to that cycle (R339,
R341). -/
def closeRing (time : Nat) (r0 : Ring) (s0 : State) : Ring × State :=
  let due := r0.queue.takeWhile fun e => decide (e.1 ≤ time)
  let (r1, s1) := traceLost { r0 with queue := r0.queue.drop due.length } time s0
  due.foldl (fun a e => traceWrite a.1 e.1 e.2 a.2) (r1, s1)

/-- Head is to be published: a record has waited 2^16 cycles for it (R339). -/
def Ring.overdue (r : Ring) (now : Nat) : Bool := r.unpub != 0 && decide (2 ^ 16 ≤ now - r.unpubSince)

/-- The trace unit of a core writes the records of the cycle that ends (R341). -/
def closeTrace (c : CoreId) (s : State) : State :=
  let r := (s.core c).trace
  if r.size = 0 then mapCore c (fun k => { k with trace := { r with queue := [] } }) s
  else
    let (r1, s1) := closeRing s.cycle r s
    let (r2, s2) := if r1.overdue s.cycle then ringPublish r1 s1 else (r1, s1)
    mapCore c (fun k => { k with trace := r2 }) s2

/-- Publishes the head of a core's trace ring. -/
def publishTrace (c : CoreId) (s : State) : State :=
  if (s.core c).trace.size = 0 then s
  else
    let (r, s') := ringPublish (s.core c).trace s
    mapCore c (fun k => { k with trace := r }) s'

/-- Tracing ends on a core: the records of what has happened are written and published, and of what has not happened
none will be (assumption 73). -/
def traceFlush (c : CoreId) (s : State) : State :=
  publishTrace c (mapCore c (fun k => { k with trace := { k.trace with queue := [] } }) (closeTrace c s))

/-! ## Profiling (R345) -/

/-- Qmix64 (R145). -/
def qmix64 (a s : Word) : Word :=
  let h := a ^^^ (s * 0xA24BAED4963EE407)
  let h := (h ^^^ (h >>> 31)) * 0x9FB21C651E98DF25
  let h := (h ^^^ (h >>> 27)) * 0xD6E8FEB86659FD93
  h ^^^ (h >>> 33)

/-- Q0 of a profile entry without its valid bit. -/
def ProfEntry.key (e : ProfEntry) : Nat := e.part.val <<< 59 + e.reason <<< 55 + e.pc.toNat / 4

/-- Its place in the table. -/
def ProfEntry.index (e : ProfEntry) : Nat := (qmix64 (BitVec.ofNat 64 e.key) 0).toNat % 1024

/-- Writes a spilled entry to its partition's profile ring; without a ring it goes nowhere. -/
def spillEntry (e : ProfEntry) (s : State) : State :=
  if (s.part e.part).profReg = 0 then s
  else
    let (r, s') := ringPut 16 e.count (s.part e.part).profRing s.cycle
      [BitVec.ofNat 64 (2 ^ 63 + e.key), BitVec.ofNat 64 e.count] s
    mapPart e.part (fun t => { t with profRing := r }) s'

/-- Writes the buffered spills of a core out. -/
def drainProfile (c : CoreId) (s : State) : State :=
  (s.core c).profBuf.foldl (fun s e => spillEntry e s) (mapCore c (fun k => { k with profBuf := [] }) s)

/-- Publishes the profile ring of a partition. -/
def publishProfile (p : PartId) (s : State) : State :=
  if (s.part p).profReg = 0 then s
  else
    let (r, s') := ringPublish (s.part p).profRing s
    mapPart p (fun t => { t with profRing := r }) s'

/-- Spills every entry of a partition in a core's table. -/
def spillProfile (c : CoreId) (p : PartId) (s : State) : State :=
  let s := drainProfile c s
  let (mine, rest) := (s.core c).profile.partition fun e => e.2.part == p
  if mine.isEmpty then s
  else publishProfile p (mine.foldl (fun s e => spillEntry e.2 s) (mapCore c (fun k => { k with profile := rest }) s))

/-- The stall reason of a cycle of a slot: a slot that waits as R173 has it, at a full capacity, or for lanes has the
reason of its wait, and for any other the spec's timing would decide (assumption 6); `i` tells the cycles of a step
apart. -/
def stallReason (s : State) (q : SeqId) (i : Nat) : Nat :=
  let r := s.free .stall (1024 * i + q.val) % 9
  let other := if r = 5 ∨ r = 6 then 0 else r
  match (s.slot q).waiting with
  | some h => match h.kind with
    | .capacity => 6
    | .lane => 8
    | .transit => other
    | .page => other
    | _ => 5
  | none => other

/-- Counts one cycle of a slot in its core's table: a valid entry with another key is spilled first, and a cycle that
finds the spill buffer full is lost. -/
def profileCycle (q : SeqId) (i : Nat) (s : State) : State :=
  let t := s.slot q
  let c := coreOf q
  let e : ProfEntry := { part := t.part, reason := stallReason s q i, pc := t.pc, count := 1 }
  match (s.core c).profile.find? fun x => x.1 == e.index with
  | none => mapCore c (fun k => { k with profile := Sparse.insert e.index e k.profile }) s
  | some (_, old) =>
    if old.key = e.key then
      mapCore c (fun k => { k with profile := Sparse.insert e.index { old with count := old.count + 1 } k.profile }) s
    else if (s.core c).profBuf.length < 8 then
      mapCore c (fun k => { k with profile := Sparse.insert e.index e k.profile, profBuf := k.profBuf ++ [old] }) s
    else if (s.part t.part).profReg = 0 then s
    else
      let (r, s') := ringDrop 1 (s.part t.part).profRing s
      mapPart t.part (fun p => { p with profRing := r }) s'

end Sys2Proof.Machine
end

