-- ==== Sys2Proof/Machine/Threads.lean ====
section
/-! DEFINITION. The lane allocator of a core, and how threads start and end (R31, R149 to R155, R166). -/

namespace Sys2Proof.Machine

/-! ## Units of eight lanes (R151) -/

def unitMask (u : Nat) : Word := 0xFF#64 <<< (8 * u)
/-- The units that a set of lanes touches, in ascending number. -/
def unitsIn (w : Word) : List Nat := (List.range 8).filter fun u => Word.field w (8 * u) 8 != 0
def lanesOfUnits (us : List Nat) : Word := us.foldl (fun w u => w ||| unitMask u) 0

/-- The slots of a core that hold threads. -/
def busySeqs (s : State) (c : CoreId) : List SeqId := (seqsOf c).filter fun q => (s.slot q).busy

/-- The lanes that threads of a core hold, or are to receive. -/
def heldLanes (s : State) (c : CoreId) : Word :=
  (busySeqs s c).foldl (fun w q => w ||| (s.slot q).lpart ||| (s.slot q).pending) 0

/-- The free units of a core in ascending number; a unit with all lanes retired is withdrawn (R151). -/
def freeUnits (s : State) (c : CoreId) : List Nat :=
  (List.range 8).filter fun u =>
    Word.field (heldLanes s c) (8 * u) 8 == 0 && Word.field (s.core c).lanemap (8 * u) 8 != 0xFF

/-- H − R: the units of shrinks, and of an `lshrink`, that are not applied yet are held still (R151). -/
def Slot.reclaimable (t : Slot) : Nat := (unitsIn (t.lpart ||| t.pending ||| t.shrunk)).length - t.request

/-- The reclaimable units that are still in P: what a shrink can take without leaving fewer than R there (R151). -/
def Slot.takeable (t : Slot) : Nat := (unitsIn t.pending).length - t.request

/-- Units that a thread will free when it applies its P (R153). -/
def Slot.leaving (t : Slot) : Nat :=
  ((unitsIn t.lpart).filter fun u => Word.field t.pending (8 * u) 8 == 0).length

/-- A slot of a core that no thread occupies and no waiting record has reserved, unless the record is `own`. -/
def slotIdle (s : State) (q : SeqId) (own : Option (PartId × Fin 8)) : Bool :=
  !(s.slot q).busy && match (s.core (coreOf q)).coreWait with
    | none => true
    | some w => !w.slots.contains (slotOf q) || (own.isSome && w.queue.map (fun n => (w.part, n)) == own)

/-! ## Starting a thread (R31, R166) -/

/-- The allotment that a record's code names. -/
def allotment (code : Nat) : Nat := if code = 0 then 8 else if code = 1 then 16 else 32

/-- The state of a slot when a thread starts in it with the given lanes. The trap registers that a launch leaves
unchanged keep their values. -/
def startSlot (i : ThreadInit) (k : Fin 4) (lanes : Word) (now : Nat) (p : Part) (old : Slot) : Slot :=
  { busy := true, part := i.part, pc := i.entry
    x := ((Vector.replicate 32 0).set 4 i.arg).set 5 i.x5
    vstate := 1, valloc := i.alloc, vceil := i.vceil
    lpart := lanes, pending := lanes, request := i.request, elastic := i.elastic, prio := i.prio, started := now
    gslot := BitVec.ofNat 2 k.val, gmember := i.gmember, gpos := if i.attached then some 0 else none
    status := if i.sup then 1 else 0
    epc := old.epc, ecause := old.ecause, etval := old.etval, evec := old.evec
    asid := p.lasid, ptbase := p.lptb, heatbase := p.lheat, kvmbase := p.lkvm, hpasid := p.lhpas
    hidx := ⟨((i.hidx ++ List.replicate 8 0).take 8 |>.map (BitVec.ofNat 64)).toArray, by simp⟩
    xjoin := i.xjoin, xdone := i.xdone, launch := i.launch, strip := i.strip, kvRegs := i.kvRegs }

/-- A thread starts in a slot. -/
def startThread (q : SeqId) (i : ThreadInit) (units : List Nat) (s : State) : State :=
  let lanes := lanesOfUnits units &&& ~~~(s.core (coreOf q)).lanemap
  mapPart i.part (fun p => { p with progress := s.cycle })
    (mapSlot q (startSlot i (slotFin q) lanes s.cycle (s.part i.part)) s)

/-! ## Decisions (R152 to R155) -/

/-- A victim comes before another: lower priority, then more reclaimable units, then higher slot (R153). -/
def victimBefore (s : State) (a b : SeqId) : Bool :=
  let x := s.slot a
  let y := s.slot b
  decide (x.prio < y.prio) || (x.prio == y.prio && (decide (y.reclaimable < x.reclaimable)
    || (x.reclaimable == y.reclaimable && decide (b.val < a.val))))

def firstVictim (s : State) : List SeqId → Option SeqId
  | [] => none
  | q :: r => match firstVictim s r with
    | none => some q
    | some p => if victimBefore s q p then some q else some p

/-- Takes `n` of the highest-numbered units from a thread's P. -/
def takeUnitsOf (q : SeqId) (n : Nat) : State → State :=
  mapSlot q fun t =>
    let m := lanesOfUnits ((unitsIn t.pending).reverse.take n)
    { t with pending := t.pending &&& ~~~m, shrunk := t.shrunk ||| (t.pending &&& m) }

/-- Takes `need` units from one victim at a time (step 2 of R153), and leaves each at least its R units (R151). -/
def shrinkFor : Nat → List SeqId → Nat → State → State
  | 0, _, _, s => s
  | f + 1, l, need, s =>
    if need = 0 then s
    else match firstVictim s l with
      | none => s
      | some q =>
        let n := min need (s.slot q).takeable
        shrinkFor f (l.filter (· != q)) (need - n) (if n = 0 then s else takeUnitsOf q n s)

/-- Units of a core that are to be freed by its threads, beyond those promised to threads that lost all their lanes. -/
def comingFree (s : State) (c : CoreId) : Nat :=
  ((busySeqs s c).map fun q => (s.slot q).leaving).sum
    - ((busySeqs s c).filter fun q => (s.slot q).pending == 0).length

/-- A thread left without a lane receives a unit as a new request would (R155); it is served before a record that waits
(assumption 65). -/
def replaceLost (c : CoreId) (s : State) : State :=
  (busySeqs s c).foldl (fun s q =>
    if (s.slot q).pending ≠ 0 then s
    else
      match freeUnits s c with
      | u :: _ => mapSlot q (fun t => { t with pending := unitMask u &&& ~~~(s.core c).lanemap }) s
      | [] =>
        let others := (busySeqs s c).filter (· != q)
        if ((busySeqs s c).filter fun r => (s.slot r).pending == 0).length
            ≤ (others.map fun r => (s.slot r).leaving).sum then s
        else shrinkFor 4 others 1 s) s

/-- An elastic thread comes before another: higher priority, then earlier start, then lower slot (R154). -/
def elasticBefore (s : State) (a b : SeqId) : Bool :=
  let x := s.slot a
  let y := s.slot b
  decide (y.prio < x.prio) || (x.prio == y.prio && (decide (x.started < y.started)
    || (x.started == y.started && decide (a.val < b.val))))

def firstElastic (s : State) : List SeqId → Option SeqId
  | [] => none
  | q :: r => match firstElastic s r with
    | none => some q
    | some p => if elasticBefore s q p then some q else some p

/-- All free units go to one elastic thread (R154). -/
def elasticGrant (c : CoreId) (s : State) : State :=
  let us := freeUnits s c
  match firstElastic s ((busySeqs s c).filter fun q => (s.slot q).elastic) with
  | none => s
  | some q => if us.isEmpty then s
    else mapSlot q (fun t => { t with pending := t.pending ||| (lanesOfUnits us &&& ~~~(s.core c).lanemap) }) s

/-- Starts the record that waits on a core with the lowest free units. -/
def startWaiting (c : CoreId) (w : CoreWait) (s : State) : State :=
  match w.init, w.slots with
  | some i, k :: _ =>
    startThread (seqOf c ⟨k % 4, Nat.mod_lt _ (by omega)⟩) { i with part := w.part } ((freeUnits s c).take w.need)
      (mapCore c (fun t => { t with coreWait := none }) s)
  | _, _ => s

/-- The allocator reconsiders every thread of a core: the decision replaces each earlier one as a whole (R152). -/
def reconsider (c : CoreId) (s : State) : State :=
  let s := (busySeqs s c).foldl (fun s q => mapSlot q (fun t =>
    { t with pending := (t.pending ||| (t.shrunk &&& t.lpart)) &&& ~~~(s.core c).lanemap, shrunk := 0 }) s) s
  let s := replaceLost c s
  match (s.core c).coreWait with
  | none => elasticGrant c s
  | some w =>
    let s := shrinkFor 4 (busySeqs s c) (w.need - (freeUnits s c).length - comingFree s c) s
    if w.need ≤ (freeUnits s c).length ∧ w.init.isSome then elasticGrant c (startWaiting c w s) else s

/-- A thread applies its P (R104, R152): a change of its lanes clears its vector and mask registers (R25). -/
def applyLanes (q : SeqId) (s : State) : State :=
  let t := s.slot q
  let new := t.pending &&& ~~~(s.core (coreOf q)).lanemap
  let s := if new = t.lpart then s
    else s.setSlot q { t with lpart := new, lanes := Vector.replicate 64 0, masks := Vector.replicate 8 0 }
  reconsider (coreOf q) s

/-! ## Admission to a core (R153) -/

/-- Units that a core could free for a new record: those free and those reclaimable. -/
def reachableUnits (s : State) (c : CoreId) : Nat :=
  (freeUnits s c).length + ((busySeqs s c).map fun q => (s.slot q).reclaimable).sum

/-- The core admits threads of a partition now (R356). -/
def coreAdmits (s : State) (c : CoreId) (p : PartId) : Bool :=
  (s.core c).owner == some p && (s.core c).newOwner.isNone && (s.part p).pstate != 2

/-- The idle slots of a core. -/
def idleSlots (s : State) (c : CoreId) : List (Fin 4) :=
  (List.finRange 4).filter fun k => slotIdle s (seqOf c k) none

/-! ## Ending a thread (R149, R152) -/

/-- Those who asked for a pre-emption of a thread read its outcome (R323). -/
def answerRequests (q : SeqId) (result : BitVec 2) (s : State) : State :=
  (s.slot q).pmPending.foldl (fun s r => match r with
    | .seq a => if (s.slot a).pmTarget = some q then mapSlot a (fun t => { t with pmstat := result, pmTarget := none }) s else s
    | .host p => if (s.part p).hpmTarget = some q then mapPart p (fun t => { t with hpmResult := result, hpmTarget := none }) s
      else s) (mapSlot q (fun t => { t with pmPending := [] }) s)

/-- A thread leaves its gang (R158); a gang without members is gone. -/
def leaveGang (q : SeqId) (s : State) : State :=
  if (s.slot q).gmember then
    let s := mapSlot q (fun t => { t with gmember := false, gpos := none }) s
    let cl := clusterOf q
    match s.gangOf q with
    | none => s
    | some g =>
      let m := g.members &&& ~~~((1#8) <<< ((coreOf q).val % 8))
      trimPath cl (slotFin q) (s.setGang cl (slotFin q) (if m = 0 then none else some { g with members := m }))
  else s

/-- A thread that has exited, or yielded, no longer counts at barriers (R205). -/
def participantGone (q : SeqId) (s : State) : State :=
  match (s.slot q).launch with
  | none => s
  | some (l, n) => { s with launches := s.launches.modify l fun k =>
      { k with parts := k.parts.modify n fun p => { p with gone := true } } }

/-- Empties a slot and frees its units. What its store queue holds goes to the L1 (R177). -/
def vacate (q : SeqId) (s : State) : State :=
  let t := s.slot q
  let s := drainQueue q true (dropTurns q s)
  let s := { s with pri := s.pri.filter fun r => !(r.owner == some q && (r.src == .scalar || r.src == .vector)) }
  let s := spillProfile (coreOf q) t.part s
  let s := leaveGang q (answerRequests q 2 s)
  let s := mapPart t.part (fun p => { p with progress := s.cycle }) s
  s.setSlot q { epc := t.epc, ecause := t.ecause, etval := t.etval, evec := t.evec }

/-- A thread ends: its slot and units are free, and the allocator reconsiders. -/
def endThread (q : SeqId) (s : State) : State := reconsider (coreOf q) (vacate q s)

/-! ## The cluster task scheduler's queues (R165 to R170) -/

/-- A continuation record keeps its map (R165). -/
def contOk (q : Vector Word 4) : Bool :=
  Word.field q[3] 32 32 == 0 && Word.field q[3] 10 6 == 0 && !q[3].getLsbD 7 && Word.field q[3] 4 2 != 3
    && decide (1 ≤ Word.field q[3] 0 4) && decide (Word.field q[3] 0 4 ≤ 8)
    && Word.field q[2] 0 3 == 0 && Word.field q[0] 0 2 == 0

/-- The queue entry that a record makes. -/
def contRec (p : PartId) (a : Word) (q : Vector Word 4) (now : Nat) : ContRec :=
  { addr := a, code := q[0], frame := q[1], joinctr := q[2], request := Word.field q[3] 0 4
    alloc := allotment (Word.field q[3] 4 2), elastic := q[3].getLsbD 6, vceil := Word.field q[3] 16 16
    level := Word.field q[3] 8 2, prio := Word.field q[3] 8 2, part := p, xdone := 0, awaited := none, bound := none
    since := now, spilled := none }

/-- Entries of a slice of the spill region: 96 slices of whole 64-byte entries (R168). -/
def spillEntries (w : Word) : Nat := Word.field w 0 12 * 2 ^ 20 / 96 / 64

/-- Where the slice of a cluster and a level begins (R168). -/
def spillSlice (w : Word) (cl : ClusterId) (level : Nat) : Nat :=
  Word.field w 12 40 * 4096 + (4 * cl.val + level) * (spillEntries w * 64)

/-- The records of a partition at a level, in their order. -/
def queueAt (s : State) (cl : ClusterId) (p : PartId) (level : Nat) : List ContRec :=
  (s.cluster cl).queue.filter fun r => r.part == p && r.level == level

/-- The queue that a record joins has room: the head of 64 records, or the slice (R167, R168). -/
def queueRoom (s : State) (cl : ClusterId) (p : PartId) (level : Nat) : Bool :=
  decide ((queueAt s cl p level).length < 64 + spillEntries (s.part p).spill)

def spillIndex (p : PartId) (level : Nat) : Nat := 4 * p.val + level % 4

/-- A record joins its queue at the tail; beyond the head of 64 it is written to the next entry of the ring, in a format
of the scheduler's own (R167, R168; assumption 18). -/
def enqueueCont (cl : ClusterId) (r : ContRec) (s : State) : State :=
  let w := (s.part r.part).spill
  let n := spillEntries w
  if (queueAt s cl r.part r.level).length < 64 ∨ n = 0 then
    mapCluster cl (fun c => { c with queue := c.queue ++ [{ r with spilled := none }] }) s
  else
    let i := (s.cluster cl).spillAt.toArray.getD (spillIndex r.part r.level) 0 % n
    let a := spillSlice w cl r.level + 64 * i
    let s := deviceWrite a ((List.range 64).map fun j => BitVec.ofNat 8 (s.free .spillByte (a + j))) s
    mapCluster cl (fun c => { c with
      queue := c.queue ++ [{ r with spilled := some a }]
      spillAt := c.spillAt.setIfInBounds (spillIndex r.part r.level) (i + 1) }) s

/-- A spilled record is read back; the answer tells whether its entry holds an uncorrectable error (R168). -/
def spillBad (s : State) (r : ContRec) : Bool :=
  match r.spilled with
  | none => false
  | some a => isBad s.bad (((follow s 2 0 (a / 64)).map (·.1)).getD (a / 64))

/-- Records come back in order while the head of a queue has room: the first whose entry cannot be read ends it, and is
given with the state (R167, R168). -/
def refillHead (cl : ClusterId) (p : PartId) (level : Nat) : Nat → State → Option ContRec × State
  | 0, s => (none, s)
  | n + 1, s =>
    let q := queueAt s cl p level
    if 64 ≤ (q.filter fun r => r.spilled.isNone).length then (none, s)
    else match q.find? fun r => r.spilled.isSome with
      | none => (none, s)
      | some r =>
        if spillBad s r then (some r, s)
        else refillHead cl p level n (mapCluster cl (fun c => { c with queue := c.queue.map fun x =>
          if x = r then { r with spilled := none } else x }) s)

/-- The thread that a record starts (R166, R331). -/
def contInit (r : ContRec) : ThreadInit :=
  { part := r.part, entry := r.code, arg := r.frame, x5 := r.joinctr, request := r.request, alloc := r.alloc
    vceil := r.vceil, prio := r.prio, elastic := r.elastic, sup := false
    hidx := (r.bound.map (·.hidx)).getD []
    xjoin := (r.bound.map (·.xjoin)).getD r.joinctr
    xdone := (r.bound.map (·.xdone)).getD r.xdone
    launch := (r.bound.map (·.launch)).getD none
    gmember := (r.bound.map (·.gmember)).getD false
    attached := false
    strip := (r.bound.map (·.strip)).getD 0
    kvRegs := (r.bound.map (·.kvRegs)).getD [] }

/-- An exit brought a counter to 0: the waiting records of the cluster, and the awaits of its tile tasks, are to be reread
(R170, R287). -/
def pokeWaiting (cl : ClusterId) : State → State :=
  mapCluster cl fun c => { c with
    queue := c.queue.map fun r => { r with awaited := r.awaited.map fun a => { a with poked := true } }
    tasks := c.tasks.map fun t => { t with due := true } }

/-- A tile task of a partition awaits a quad of the line of an address (R287). -/
def TileTask.awaitsLine (t : TileTask) (p : PartId) (va : Word) : Bool :=
  t.ctx.part == p && ((Word.field t.q[0] 6 2 != 0 && t.q[4].toNat / 64 == va.toNat / 64)
    || (Word.field t.q[0] 8 2 != 0 && t.q[5].toNat / 64 == va.toNat / 64))

/-- `hwpub` or a signal has written a line in a cluster: the tile tasks that await it reread (R287; assumption 74). -/
def pokeAwaits (cl : ClusterId) (p : PartId) (va : Word) : State → State :=
  mapCluster cl fun c => { c with tasks := c.tasks.map fun t => if t.awaitsLine p va then { t with due := true } else t }

end Sys2Proof.Machine
end

