-- ==== Sys2Proof/Machine/Discard.lean ====
section
/-! DEFINITION. The partition-fatal discard (R333) with the fates of R321, R245, R293 and R316, and how a word is run:
what becomes of an instruction that retires, traps, waits, or is fatal to its partition. -/

namespace Sys2Proof.Machine

/-! ## KV metadata that bindings and pins touch (R297, R298, R305) -/

/-- The device's own engines, which access KV structures in the translation context of the issuing thread at S, at
device scope (R174, R311). -/
def kvAgent (x : Ctx) : Agent := { ctx := { x with sup := true }, core := none, cluster := none, seq := none }
/-- An agent in that context: the running sequencer, or an engine, for accesses to KV pages and metadata (R174). -/
def Agent.atS (a : Agent) (x : Ctx) : Agent := { a with ctx := { x with sup := true } }
def State.kvAgent (s : State) (x : Ctx) : Agent := s.agent.atS x

/-- Physical address of the KV descriptor that a `kvmbase` value names. -/
def kvDesc (kvm : Word) : Nat := Word.field kvm 6 46 * 64
def kvQuad (s : State) (kvm : Word) (i : Nat) : Word := BitVec.ofNat 64 (deviceQuad s (kvDesc kvm + 8 * i))
def kvMbase (s : State) (kvm : Word) : Word := kvQuad s kvm 0
def kvVa (s : State) (kvm : Word) : Word := kvQuad s kvm 1
def kvCount (s : State) (kvm : Word) : Nat := Word.field (kvQuad s kvm 2) 0 20

/-- Where the reader count of a phase stands (R297). -/
def readerPlace (kvm : Word) (phase : Nat) : Nat := kvDesc kvm + 48 + 4 * (phase % 4)

/-- Adds a number to the reader count of a phase, in its turn at the home agent (R297, R241). -/
def countReaders (kvm : Word) (phase : Nat) (delta : Int) : State → State :=
  deviceAct (readerPlace kvm phase) (.add 4 delta false)

/-- The running sequencer changes the reader count of a phase, as one action at device scope (R297, R305). -/
def countMine (kvm : Word) (phase : Nat) (delta : Int) : M Unit := do
  let s ← getS
  let a := readerPlace kvm phase
  let _ ← rmwLoc s.agent .device { place := .phys a } 4 (BitVec.ofNat 64 a) fun v => some (bump 4 v delta false)

/-- The frame that a KV page names (R295); none while no KV descriptor is enabled. -/
def frameOf (s : State) (kvm page : Word) : Option Nat :=
  let k := (page - kvVa s kvm).toNat / 32768
  if kvm.getLsbD 0 ∧ k < kvCount s kvm then some k else none

/-- Virtual address of the metadata record of a frame (R298). -/
def kvRecord (s : State) (kvm : Word) (k : Nat) : Word := kvMbase s kvm + BitVec.ofNat 64 (4096 * k)

/-- Virtual address of the pin count of a KV page's frame (R298). -/
def pinPlace (s : State) (kvm page : Word) : Option Word := (frameOf s kvm page).map fun k => kvRecord s kvm k + 10

/-- Changes a pin count as one action at device scope; one that would reach 0xFFFF, or has it, waits (R263). -/
def pinFrame (a : Agent) (kvm page : Word) : M Unit := do
  let s ← getS
  match pinPlace s kvm page with
  | none => pure ()
  | some p => do
    let l ← translate a .atomic p
    let n ← rmwLoc a .device l 2 p fun n => if 0xFFFE ≤ n then none else some (n + 1)
    if 0xFFFE ≤ n then waitFor .transit

/-- Releases a pin (R263). -/
def releasePin (a : Agent) (kvm page : Word) : M Unit := do
  let s ← getS
  match pinPlace s kvm page with
  | none => pure ()
  | some p => do
    let l ← translate a .atomic p
    let _ ← rmwLoc a .device l 2 p fun n => if n = 0 ∨ n = 0xFFFF then none else some (n - 1)

/-- Releases a pin at a discard, in its turn at the home agent; a record that cannot be reached stays as it is. -/
def unpinFrame (x : Ctx) (kvm page : Word) (s : State) : State :=
  match pinPlace s kvm page with
  | none => s
  | some p => match translate (kvAgent x) .atomic p s with
    | .ok l s' => match l.place with
      | .phys pa =>
        let n := (deviceQuad s' (pa / 8 * 8) >>> (8 * (pa % 8))) % 2 ^ 16
        if n = 0 ∨ n = 0xFFFF then s' else deviceAct pa (.add 2 (-1) false) s'
      | .pad _ _ => s'
    | .error _ s' => s'

/-! ## Stream bindings that end without a transfer -/

/-- Drops the bindings of a thread: a KV binding is unregistered (R305), and so are registrations not taken up. -/
def dropBindings (q : SeqId) (s : State) : State :=
  let t := s.slot q
  let s := t.streams.toList.foldl (fun s b => match b with
    | .kv k _ kvm => countReaders kvm k.phase (-1) s
    | _ => s) s
  let s := t.kvRegs.foldl (fun s r => countReaders r.2 r.1 (-1) s) s
  mapSlot q (fun t => { t with streams := Vector.replicate 8 .unbound, kvRegs := [] }) s

/-! ## Tile tasks: the fields that a discard needs (R282, R283) -/

def TileTask.op (t : TileTask) : Nat := Word.field t.q[0] 0 4
/-- The outputs go to D and not to the accumulator. -/
def TileTask.st (t : TileTask) : Bool := t.q[0].getLsbD 24
def TileTask.rows (t : TileTask) : Nat := Word.field t.q[8] 0 11
def TileTask.lgrow (t : TileTask) : Nat := Word.field t.q[8] 24 4
def TileTask.row0 (t : TileTask) : Nat := Word.field t.q[8] 32 10

/-- The accumulator rows that a dropped running task was writing hold free values (R293, assumption 9). -/
def dropTile (cl : ClusterId) (t : TileTask) (s : State) : State :=
  let s := t.pins.foldl (fun s p => unpinFrame t.ctx t.kvm p s) s
  if t.running ∧ t.op ≠ 4 ∧ ¬ (t.st ∧ t.op ≤ 2) then
    let lo := (t.row0 + t.row) * 2 ^ t.lgrow
    let hi := (t.row0 + t.rows) * 2 ^ t.lgrow
    t.engines.foldl (fun s e =>
      let c := coreIn cl ⟨e % 8, Nat.mod_lt _ (by omega)⟩
      mapCore c (fun k => { k with acc := (List.range (hi - lo)).foldl (fun a i =>
        Sparse.set 0 a (lo + i) (BitVec.ofNat 32 (s.free .accRow (c.val * 131072 + lo + i)))) k.acc }) s) s
  else s

/-! ## The discard (R333) -/

/-- A relocation is dropped: the line in transit returns to N with its source content, and what it holds is replayed
to it (R245). -/
def dropDarn (p : PartId) (s : State) : State :=
  let s := (s.part p).darn.foldl (fun s j => match j.line with
    | some (l, _, _) => replay l l (setMark l none s)
    | none => s) s
  mapPart p (fun t => { t with darn := [] }) s

/-- Held accesses of a partition are discarded (R245; assumption 82); what stood behind them performs. -/
def dropHeld (p : PartId) (s : State) : State :=
  let mine := s.transit.filter fun h => h.part == some p
  mine.foldl (fun s h => if markOf s (h.addr / 64) = some .transit then s else drain (h.addr / 64) s)
    { s with transit := s.transit.filter fun h => h.part != some p }

/-- What a thread's store queue holds performs, line by line, or not at all (R333; assumption 82). -/
def dropQueue (q : SeqId) (s : State) : State :=
  ((s.core (coreOf q)).stq[slotFin q]).foldl (fun s e =>
    if s.free .discardWrite (768 * e.1 + q.val) % 2 = 1 then stqBack q e.1 true s else setStq q e.1 {} s) s

/-- Everything of a partition's work is discarded; memory, scratchpads and accumulators keep their contents. -/
def discardWork (p : PartId) (s : State) : State :=
  let mine := allSeqs.filter fun q => (s.slot q).busy && (s.slot q).part == p
  let s := mine.foldl (fun s q => dropBindings q s) s
  let s := allClusters.foldl (fun s cl =>
    let s := ((s.cluster cl).queue.filter fun r => r.part == p).foldl (fun s r => match r.bound with
      | some b => b.kvRegs.foldl (fun s r => countReaders r.2 r.1 (-1) s) s
      | none => s) s
    let (ts, rest) := (s.cluster cl).tasks.partition fun t => t.ctx.part == p
    ts.foldl (fun s t => dropTile cl t s) (mapCluster cl (fun c => { c with
      tasks := rest
      queue := c.queue.filter fun r => r.part != p }) s)) s
  let s := allCores.foldl (fun s c =>
    let (ops, rest) := (s.core c).copies.partition fun o => o.ctx.part == p
    ops.foldl (fun s o => o.pins.foldl (fun s g => unpinFrame o.ctx o.kvm g s) s) (mapCore c (fun k => { k with
      copies := rest
      -- no record is written of what has not happened (R348)
      trace := if k.owner = some p then { k.trace with queue := k.trace.queue.filter fun e => decide (e.1 ≤ s.cycle) } else k.trace
      coreWait := k.coreWait.filter fun w => w.part != p }) s)) s
  let s := dropHeld p s
  let s := dropDarn p s
  let s := mapPart p (fun t => { t with mangle := [], launder := [] }) s
  let s := { s with pri := s.pri.filter fun r => r.part != p }
  let s := mine.foldl (fun s q => dropQueue q s) s
  let s := mine.foldl (fun s q => participantGone q s) s
  let s := mine.foldl (fun s q => vacate q s) s
  -- memberships of threads that had left with `tleave` end too
  let s := allClusters.foldl (fun s cl => (List.finRange 4).foldl (fun s k =>
    match (s.cluster cl).gangs[k] with
    | none => s
    | some g =>
      let live := (List.finRange 8).any fun i => g.members.getLsbD i.val && ((s.slot (gangSeq cl k i)).gmember
        || (s.cluster cl).queue.any fun r => match r.bound with
            | some b => b.gmember && b.core == (coreIn cl i).val && b.slot == k.val | none => false)
      if live then s else s.setGang cl k none) s) s
  allCores.foldl (fun s c => if (s.core c).owner = some p then reconsider c s else s) s

/-- A discard with its entry in the partition's fault log (R333, R353). -/
def discardPart (p : PartId) (code : Nat) (addr : Word) (s : State) : State :=
  logEvent p 2 code addr 0 (discardWork p s)

/-! ## Running an instruction, and running an event -/

/-- What becomes of an instruction. -/
def run (w : IWord) (m : M Flow) (s : State) : Host.Outcome State Fault Refusal :=
  match m s with
  | .ok f s' => .next (retire f (turnsOver s s'))
  | .error (.trap c v) s' => .next (takeTrap c v s.me.pc (turnsOver s s'))
  | .error (.wait k) s' => .next (hold w k (if k = .transit then s' else turnsOver s s'))
  | .error (.fatal p a) s' => .next (discardPart p 1 a s')

/-- A load begins: it has missed nothing yet, unless it began before it waited. -/
def startLoad (s : State) : State :=
  if s.me.waiting.isSome then s else mapCore (coreOf s.cur) (fun k => { k with missed := false }) s

/-- A load that missed the L1 counts as one event, whether it retires or stops at a later element (R344). -/
def endLoad (s : State) : State :=
  if (s.core (coreOf s.cur)).missed then countEvent s.cur 4 1 s.me.pc s else s

/-- A scalar or vector load. -/
def asLoad (m : M Flow) : M Flow := fun s =>
  match m (startLoad s) with
  | .ok f s' => .ok f (endLoad s')
  | .error (.trap c v) s' => .error (.trap c v) (endLoad s')
  | .error e s' => .error e s'

/-- The places of a sequencer in the queues of a state, after an attempt that has left another state behind. -/
def keepTurn (q : SeqId) (s s' : State) : List HeldAccess :=
  let mine (h : HeldAccess) : Bool := h.isTurn && h.owner == some q
  let new := s'.transit.filter mine
  if (s.transit.filter mine).map (·.addr / 64) = new.map (·.addr / 64) then s.transit
  else s.transit.filter (fun h => !mine h) ++ new

/-- A part of an instruction that is done as a whole: while it waits, nothing of it has happened but that it keeps its place
at a home agent (R241) and its page request (R235). -/
def whole {α : Type} (m : M α) : M α := fun s =>
  match m s with
  | .error (.wait k) s' => .error (.wait k) { s with transit := keepTurn s.cur s s', pri := s'.pri }
  | r => r

/-- The same, and a trap leaves nothing of it behind either. -/
def undone {α : Type} (m : M α) : M α := fun s =>
  match whole m s with
  | .error (.trap c v) _ => .error (.trap c v) s
  | r => r

/-- A device that has tripped, or that halted in bring-up, issues nothing (R361, R364). -/
def deviceStopped (s : State) : Bool := s.tripped || Word.field s.bstat 0 4 == 2

/-- A waiting instruction of a sequencer tries again, when its wait is of one of the kinds; `m` tells the meaning of
its word. -/
def resume (q : SeqId) (kinds : List HoldKind) (m : IWord → State → Host.Outcome State Fault Refusal) (s : State) :
    Host.Outcome State Fault Refusal :=
  match (s.slot q).waiting with
  | some h => if (s.slot q).busy && !deviceStopped s && kinds.contains h.kind then m h.word { s with cur := q } else .next s
  | none => .next s

/-- What becomes of an event that is no instruction: one that must wait has not happened yet, but for a page request that
it has made (R235); another stop leaves what was done before it. -/
def event (m : M Unit) (s : State) : Host.Outcome State Fault Refusal :=
  match m s with
  | .ok _ s' => .next s'
  | .error (.wait _) s' => .next { s with pri := s'.pri }
  | .error (.fatal p a) s' => .next (discardPart p 1 a s')
  | .error _ s' => .next s'

end Sys2Proof.Machine
end

