-- ==== Sys2Proof/Machine/Num.lean ====
section
/-! DEFINITION. Numbers (chapter 04): the formats to the bit, exact values, one rounding, the choice of NaNs, the
conversions of R76, exact-window sums. A value is computed exactly, as a natural number times a power of two, and
narrowed once at the end. -/

namespace Sys2Proof.Machine

/-! ## Formats -/

/-- Which encodings of a format are NaNs (R65). -/
inductive NanKind where
  /-- Exponent all ones and a fraction other than 0; the fraction 0 is an infinity. -/
  | ieee
  /-- E4M3: exponent and fraction all ones. -/
  | one
  /-- Every encoding is finite. -/
  | none
  deriving DecidableEq, Repr

/-- A binary floating-point format (R65). -/
structure FFmt where
  ew : Nat
  fw : Nat
  bias : Int
  nan : NanKind
  /-- One of the IEEE formats of R71, which FTZ flushes. -/
  flushed : Bool
  deriving DecidableEq, Repr

def fp64 : FFmt := ⟨11, 52, 1023, .ieee, true⟩
def fp32 : FFmt := ⟨8, 23, 127, .ieee, true⟩
def fp16 : FFmt := ⟨5, 10, 15, .ieee, true⟩
def bf16 : FFmt := ⟨8, 7, 127, .ieee, true⟩
def e5m2 : FFmt := ⟨5, 2, 15, .ieee, false⟩
def e4m3 : FFmt := ⟨4, 3, 7, .one, false⟩
def e3m2 : FFmt := ⟨3, 2, 3, .none, false⟩
def e2m3 : FFmt := ⟨2, 3, 1, .none, false⟩
def e2m1 : FFmt := ⟨2, 1, 1, .none, false⟩

/-- Bits of an element of the format. -/
def FFmt.width (f : FFmt) : Nat := 1 + f.ew + f.fw

/-- The exponent of the lowest bit of a subnormal. -/
def FFmt.emin (f : FFmt) : Int := 1 - f.bias - f.fw

/-- The largest finite magnitude: its significand and the exponent of its lowest bit. -/
def FFmt.maxFinite (f : FFmt) : Nat × Int :=
  match f.nan with
  | .ieee => (2 ^ (f.fw + 1) - 1, (2 ^ f.ew - 2 : Nat) - f.bias - f.fw)
  | .one => (2 ^ (f.fw + 1) - 2, (2 ^ f.ew - 1 : Nat) - f.bias - f.fw)
  | .none => (2 ^ (f.fw + 1) - 1, (2 ^ f.ew - 1 : Nat) - f.bias - f.fw)

/-- An exact value: (-1)^neg · m · 2^e. -/
structure Dy where
  neg : Bool
  m : Nat
  e : Int
  deriving DecidableEq, Repr

/-- What an element holds. A NaN keeps its sign, whether it is signalling, and its fraction, left-aligned to 52 bits. -/
inductive FVal where
  | nan (neg signalling : Bool) (frac : Nat)
  | inf (neg : Bool)
  | fin (d : Dy)
  deriving DecidableEq, Repr

/-- The default NaN (R74), and the NaR of L6 as a value. -/
def defaultNan : FVal := .nan false false (2 ^ 51)

/-! ## Flags (R73): NV, DZ, OF, UF, NX from bit 4 down -/

abbrev FFlags := BitVec 5
def flagNV : FFlags := 16
def flagDZ : FFlags := 8
def flagOF : FFlags := 4
def flagUF : FFlags := 2
def flagNX : FFlags := 1

/-- The flag of a condition. -/
def flagIf (c : Bool) (f : FFlags) : FFlags := if c then f else 0

/-! ## Decoding and encoding elements -/

/-- The value of an element; with `ftz` a subnormal of an IEEE format reads as a zero of its sign (R71). -/
def FFmt.decode (f : FFmt) (ftz : Bool) (bits : Nat) : FVal :=
  let neg := (bits >>> (f.ew + f.fw)) % 2 == 1
  let ex := (bits >>> f.fw) % 2 ^ f.ew
  let fr := bits % 2 ^ f.fw
  let frac := fr <<< (52 - f.fw)
  if f.nan = .ieee ∧ ex = 2 ^ f.ew - 1 then
    if fr = 0 then .inf neg else .nan neg (frac < 2 ^ 51) frac
  else if f.nan = .one ∧ ex = 2 ^ f.ew - 1 ∧ fr = 2 ^ f.fw - 1 then .nan neg false (2 ^ 51 ||| frac)
  else if ex = 0 then
    if ftz && f.flushed then .fin ⟨neg, 0, 0⟩ else .fin ⟨neg, fr, f.emin⟩
  else .fin ⟨neg, 2 ^ f.fw + fr, (ex : Int) - f.bias - f.fw⟩

/-- The magnitude bits of an element, a subnormal read as `decode` reads it (R71). -/
def FFmt.magnitude (f : FFmt) (ftz : Bool) (bits : Nat) : Nat :=
  if ftz && f.flushed && (bits >>> f.fw) % 2 ^ f.ew == 0 then 0 else bits % 2 ^ (f.ew + f.fw)

/-- An element from its sign, exponent and fraction fields. -/
def FFmt.assemble (f : FFmt) (neg : Bool) (ex fr : Nat) : Nat :=
  (if neg then 2 ^ (f.ew + f.fw) else 0) + ex * 2 ^ f.fw + fr

/-- A quiet NaN in a format that has one (R74, R76). -/
def FFmt.encodeNan (f : FFmt) (neg : Bool) (frac : Nat) : Nat :=
  match f.nan with
  | .ieee => f.assemble neg (2 ^ f.ew - 1) (((frac ||| 2 ^ 51) >>> (52 - f.fw)) % 2 ^ f.fw)
  | _ => f.assemble neg (2 ^ f.ew - 1) (2 ^ f.fw - 1)

def FFmt.encodeInf (f : FFmt) (neg : Bool) : Nat := f.assemble neg (2 ^ f.ew - 1) 0

/-- The largest finite element. -/
def FFmt.encodeMax (f : FFmt) (neg : Bool) : Nat :=
  match f.nan with
  | .ieee => f.assemble neg (2 ^ f.ew - 2) (2 ^ f.fw - 1)
  | .one => f.assemble neg (2 ^ f.ew - 1) (2 ^ f.fw - 2)
  | .none => f.assemble neg (2 ^ f.ew - 1) (2 ^ f.fw - 1)

/-- The element of magnitude k · 2^q, where k fits the precision and q is at least the subnormal spacing. -/
def FFmt.encodeFin (f : FFmt) (neg : Bool) (k : Nat) (q : Int) : Nat :=
  if k < 2 ^ f.fw then f.assemble neg 0 k
  else f.assemble neg (q + f.bias + f.fw).toNat (k - 2 ^ f.fw)

/-! ## Exact arithmetic -/

/-- m · 2^k as a pair with a lower exponent: the significand scaled to exponent `e`, for e at most `d.e`. -/
def Dy.scaled (d : Dy) (e : Int) : Int := (if d.neg then -1 else 1) * ((d.m <<< (d.e - e).toNat : Nat) : Int)

def dyOfInt (i : Int) (e : Int) : Dy := ⟨decide (i < 0), i.natAbs, e⟩

/-- Exact sum. The sign of a zero sum is not decided here. -/
def Dy.add (a b : Dy) : Dy :=
  if a.m = 0 then b else if b.m = 0 then a else
  let e := min a.e b.e
  dyOfInt (a.scaled e + b.scaled e) e

def Dy.mul (a b : Dy) : Dy := ⟨a.neg != b.neg, a.m * b.m, a.e + b.e⟩
def Dy.negate (a : Dy) : Dy := { a with neg := !a.neg }
/-- Multiplies by a power of two. -/
def Dy.scale (a : Dy) (k : Int) : Dy := { a with e := a.e + k }

/-- floor(log2 |d|) of a nonzero value. -/
def Dy.log2 (d : Dy) : Int := (Nat.log2 d.m : Int) + d.e

/-- Compares exact values as numbers. -/
def Dy.lt (a b : Dy) : Bool :=
  let e := min a.e b.e
  if a.m = 0 then decide (0 < b.m) && !b.neg
  else if b.m = 0 then a.neg
  else if a.neg != b.neg then a.neg
  -- different orders of magnitude are told apart without scaling
  else if a.log2 ≠ b.log2 then (decide (a.log2 < b.log2)) != a.neg
  else decide (a.scaled e < b.scaled e)

def Dy.eq (a b : Dy) : Bool :=
  if a.m = 0 then b.m == 0
  else if b.m = 0 then false
  else a.neg == b.neg && a.log2 == b.log2 && (let e := min a.e b.e; a.scaled e == b.scaled e)

/-- An exact value, or one that lies strictly between m · 2^e and (m + 1) · 2^e when `sticky`. -/
structure Approx where
  d : Dy
  sticky : Bool
  deriving DecidableEq, Repr

/-! ## Rounding (R70 to R72) -/

/-- A rounding mode in force. -/
inductive Rnd where
  | rne | rtz | rdn | rup | rmm
  /-- Stochastic, with the draw of R72. -/
  | sr (draw : Nat)
  deriving DecidableEq, Repr

/-- Whether a magnitude between k and k + 1 units rounds up: `num / 2^sh` is the discarded part. -/
def roundsUp (r : Rnd) (neg odd : Bool) (rem sh : Nat) (sticky : Bool) : Bool :=
  let half := 2 ^ (sh - 1)
  let inexact := rem ≠ 0 || sticky
  match r with
  | .rne => decide (sh ≠ 0) && (decide (half < rem) || (decide (rem = half) && (sticky || odd)))
  | .rmm => decide (sh ≠ 0) && decide (half ≤ rem)
  | .rtz => false
  | .rdn => neg && inexact
  | .rup => !neg && inexact
  | .sr draw => decide (2 ^ 32 ≤ (rem * 2 ^ 32) / 2 ^ sh + draw)

/-- A magnitude rounded to `fw` fraction bits with the exponent of the lowest bit at least `emin`: the significand,
its exponent, and whether the result is inexact. -/
def roundMag (r : Rnd) (fw : Nat) (emin : Int) (a : Approx) : Nat × Int × Bool :=
  let q := max (a.d.log2 - fw) emin
  let sh := (q - a.d.e).toNat
  let m := a.d.m <<< (a.d.e - q).toNat
  let k := m >>> sh
  let rem := m % 2 ^ sh
  let inexact := decide (rem ≠ 0) || a.sticky
  let k' := if roundsUp r a.d.neg (k % 2 == 1) rem sh a.sticky then k + 1 else k
  if k' = 2 ^ (fw + 1) then (2 ^ fw, q + 1, inexact) else (k', q, inexact)

/-- A result and the flags it raises. -/
structure FRes where
  bits : Nat
  flags : FFlags
  deriving DecidableEq, Repr

/-- What a finite value beyond the range becomes (R70, R76). -/
def FFmt.overflow (f : FFmt) (r : Rnd) (neg : Bool) : Nat :=
  if f.nan = .ieee then
    match r with
    | .rtz => f.encodeMax neg
    | .rdn => if neg then f.encodeInf true else f.encodeMax false
    | .rup => if neg then f.encodeMax true else f.encodeInf false
    | _ => f.encodeInf neg
  else f.encodeMax neg

/-- Rounds a finite value to a format (R70 to R73, R76). A stochastic rounding is inexact as R73 says (assumption 66). -/
def FFmt.round (f : FFmt) (r : Rnd) (ftz : Bool) (a : Approx) : FRes :=
  if a.d.m = 0 ∧ a.sticky = false then ⟨f.assemble a.d.neg 0 0, 0⟩
  else
    let (k, q, inexact) := roundMag r f.fw f.emin a
    let mx := f.maxFinite
    if Dy.lt ⟨false, mx.1, mx.2⟩ ⟨false, k, q⟩ then ⟨f.overflow r a.d.neg, flagOF ||| flagNX⟩
    else if k < 2 ^ f.fw then
      if ftz && f.flushed && (k ≠ 0 || inexact) then ⟨f.assemble a.d.neg 0 0, flagUF ||| flagNX⟩
      else ⟨f.encodeFin a.d.neg k q, flagIf inexact (flagUF ||| flagNX)⟩
    else ⟨f.encodeFin a.d.neg k q, flagIf inexact flagNX⟩

/-- An exact value as an approximation. -/
def Dy.exact (d : Dy) : Approx := ⟨d, false⟩

/-! ## NaNs (R74) -/

def FVal.isNan : FVal → Bool
  | .nan .. => true | _ => false
def FVal.isSig : FVal → Bool
  | .nan _ s _ => s | _ => false
def FVal.isZero : FVal → Bool
  | .fin d => d.m == 0 | _ => false
def FVal.negate : FVal → FVal
  | .nan n s f => .nan n s f
  | .inf n => .inf (!n)
  | .fin d => .fin d.negate
def FVal.neg : FVal → Bool
  | .nan n _ _ => n | .inf n => n | .fin d => d.neg

/-- The NaN of an operation whose inputs, in operand order, are `ops`; `invalid` says that the operation is invalid. -/
def FFmt.pickNan (f : FFmt) (ops : List FVal) (invalid : Bool) : FRes :=
  let flags := flagIf (invalid || ops.any FVal.isSig) flagNV
  match ops.find? FVal.isSig with
  | some (.nan n _ fr) => ⟨f.encodeNan n fr, flags⟩
  | _ => match ops.find? FVal.isNan with
    | some (.nan n _ fr) => ⟨f.encodeNan n fr, flags⟩
    | _ => ⟨f.encodeNan false (2 ^ 51), flags⟩

/-! ## The basic operations, each rounded once -/

/-- The sign of an exact zero sum of two nonzero values, or of zeros of different signs (R97; assumption 15). -/
def zeroSign (r : Rnd) : Bool := match r with | .rdn => true | _ => false

/-- a + b. -/
def FFmt.add (f : FFmt) (r : Rnd) (ftz : Bool) (a b : FVal) : FRes :=
  match a, b with
  | .nan .., _ => f.pickNan [a, b] false
  | _, .nan .. => f.pickNan [a, b] false
  | .inf x, .inf y => if x = y then ⟨f.encodeInf x, 0⟩ else f.pickNan [a, b] true
  | .inf x, .fin _ => ⟨f.encodeInf x, 0⟩
  | .fin _, .inf y => ⟨f.encodeInf y, 0⟩
  | .fin x, .fin y =>
    if x.m = 0 ∧ y.m = 0 ∧ x.neg = y.neg then ⟨f.assemble x.neg 0 0, 0⟩
    else
      let s := x.add y
      if s.m = 0 then ⟨f.assemble (zeroSign r) 0 0, 0⟩ else f.round r ftz s.exact

/-- a - b; a NaN b keeps its sign. -/
def FFmt.sub (f : FFmt) (r : Rnd) (ftz : Bool) (a b : FVal) : FRes := f.add r ftz a b.negate

/-- The exact product of two values that are no NaNs, or none when it is invalid. -/
def mulVal (a b : FVal) : Option FVal :=
  match a, b with
  | .inf x, .inf y => some (.inf (x != y))
  | .inf x, .fin d => if d.m = 0 then none else some (.inf (x != d.neg))
  | .fin d, .inf y => if d.m = 0 then none else some (.inf (d.neg != y))
  | .fin x, .fin y => some (.fin (x.mul y))
  | a, _ => some a

/-- a · b. -/
def FFmt.mul (f : FFmt) (r : Rnd) (ftz : Bool) (a b : FVal) : FRes :=
  if a.isNan || b.isNan then f.pickNan [a, b] false
  else match mulVal a b with
    | none => f.pickNan [a, b] true
    | some (.inf n) => ⟨f.encodeInf n, 0⟩
    | some (.fin d) => f.round r ftz d.exact
    | some (.nan ..) => f.pickNan [a, b] false

/-- The quotient of two nonzero exact values, with at least 128 bits. -/
def Dy.div (a b : Dy) : Approx :=
  let k := 128 + Nat.log2 b.m
  let n := a.m <<< k
  ⟨⟨a.neg != b.neg, n / b.m, a.e - b.e - k⟩, n % b.m != 0⟩

/-- a / b. -/
def FFmt.div (f : FFmt) (r : Rnd) (ftz : Bool) (a b : FVal) : FRes :=
  match a, b with
  | .nan .., _ => f.pickNan [a, b] false
  | _, .nan .. => f.pickNan [a, b] false
  | .inf _, .inf _ => f.pickNan [a, b] true
  | .inf x, .fin y => ⟨f.encodeInf (x != y.neg), 0⟩
  | .fin x, .inf y => ⟨f.assemble (x.neg != y) 0 0, 0⟩
  | .fin x, .fin y =>
    if y.m = 0 then
      if x.m = 0 then f.pickNan [a, b] true else ⟨f.encodeInf (x.neg != y.neg), flagDZ⟩
    else if x.m = 0 then ⟨f.assemble (x.neg != y.neg) 0 0, 0⟩
    else f.round r ftz (x.div y)

/-- The integer square root, bit by bit from bit `b - 1` down. -/
def isqrtFrom (n : Nat) : Nat → Nat → Nat
  | 0, acc => acc
  | b + 1, acc => let t := acc + 2 ^ b; isqrtFrom n b (if t * t ≤ n then t else acc)

/-- The square root of a positive exact value, with at least 128 bits. -/
def Dy.sqrt (a : Dy) : Approx :=
  -- an even exponent, and a significand of at least 256 bits
  let k := 256 + (if (a.e - 256) % 2 = 0 then 0 else 1)
  let n := a.m <<< k
  let s := isqrtFrom n (Nat.log2 n / 2 + 1) 0
  ⟨⟨false, s, (a.e - k) / 2⟩, s * s != n⟩

/-- √a (R96, R111). -/
def FFmt.sqrt (f : FFmt) (r : Rnd) (ftz : Bool) (a : FVal) : FRes :=
  match a with
  | .nan .. => f.pickNan [a] false
  | .inf true => f.pickNan [a] true
  | .inf false => ⟨f.encodeInf false, 0⟩
  | .fin d =>
    if d.m = 0 then ⟨f.assemble d.neg 0 0, 0⟩
    else if d.neg then f.pickNan [a] true
    else f.round r ftz d.sqrt

/-- 1 / a (R111). -/
def FFmt.recip (f : FFmt) (r : Rnd) (ftz : Bool) (a : FVal) : FRes := f.div r ftz (.fin ⟨false, 1, 0⟩) a

/-- 1 / √a (R111): the square root of the quotient, both with a sticky part. -/
def FFmt.rsqrt (f : FFmt) (r : Rnd) (ftz : Bool) (a : FVal) : FRes :=
  match a with
  | .nan .. => f.pickNan [a] false
  | .inf true => f.pickNan [a] true
  | .inf false => ⟨f.assemble false 0 0, 0⟩
  | .fin d =>
    if d.m = 0 then ⟨f.encodeInf d.neg, flagDZ⟩
    else if d.neg then f.pickNan [a] true
    else
      -- floor(√(2^k / m)) for an even total exponent
      let k := 512 + 2 * Nat.log2 d.m + (if d.e % 2 = 0 then 0 else 1)
      let n := 2 ^ k / d.m
      let s := isqrtFrom n (Nat.log2 n / 2 + 1) 0
      f.round r ftz ⟨⟨false, s, (-d.e - k) / 2⟩, decide (s * s * d.m ≠ 2 ^ k)⟩

/-- a · b + c with one rounding; `negP` and `negC` negate the product and the addend (R97, R112). -/
def FFmt.fma (f : FFmt) (r : Rnd) (ftz : Bool) (negP negC : Bool) (a b c : FVal) : FRes :=
  let inval := !(a.isNan || b.isNan) && (mulVal a b).isNone
  if a.isNan || b.isNan || c.isNan then f.pickNan [a, b, c] inval
  else match mulVal a b with
    | none => f.pickNan [a, b, c] true
    | some p =>
      let p := if negP then p.negate else p
      let c' := if negC then c.negate else c
      match p, c' with
      | .inf x, .inf y => if x = y then ⟨f.encodeInf x, 0⟩ else f.pickNan [a, b, c] true
      | .inf x, _ => ⟨f.encodeInf x, 0⟩
      | _, .inf y => ⟨f.encodeInf y, 0⟩
      | .fin x, .fin y =>
        if x.m = 0 ∧ y.m = 0 then ⟨f.assemble (if x.neg = y.neg then x.neg else zeroSign r) 0 0, 0⟩
        else
          let s := x.add y
          if s.m = 0 then ⟨f.assemble (zeroSign r) 0 0, 0⟩ else f.round r ftz s.exact
      | _, _ => f.pickNan [a, b, c] true

/-! ## Comparisons, minimum and maximum (R75) -/

/-- a < b for values that are no NaNs; with `zeros` the zeros are ordered −0 below +0. -/
def FVal.lt (zeros : Bool) (a b : FVal) : Bool :=
  match a, b with
  | .inf true, .inf true => false
  | .inf true, _ => true
  | _, .inf true => false
  | .inf false, _ => false
  | _, .inf false => true
  | .fin x, .fin y => if zeros && x.m = 0 && y.m = 0 then x.neg && !y.neg else x.lt y
  | _, _ => false

def FVal.eq (a b : FVal) : Bool :=
  match a, b with
  | .inf x, .inf y => x == y
  | .fin x, .fin y => x.eq y
  | _, _ => false

/-- The six comparisons. -/
inductive FCmp where
  | eq | ne | lt | le | gt | ge
  deriving DecidableEq, Repr

/-- A comparison and its flags (R75). -/
def fcompare (c : FCmp) (a b : FVal) : Bool × FFlags :=
  let nan := a.isNan || b.isNan
  let sig := a.isSig || b.isSig
  match c with
  | .eq => (!nan && a.eq b, flagIf sig flagNV)
  | .ne => (nan || !a.eq b, flagIf sig flagNV)
  | .lt => (!nan && a.lt false b, flagIf nan flagNV)
  | .le => (!nan && (a.lt false b || a.eq b), flagIf nan flagNV)
  | .gt => (!nan && b.lt false a, flagIf nan flagNV)
  | .ge => (!nan && (b.lt false a || a.eq b), flagIf nan flagNV)

/-- A value written back in its own format; it was read from that format, so no rounding takes place. -/
def FFmt.store (f : FFmt) (v : FVal) : Nat :=
  match v with
  | .nan n _ fr => f.encodeNan n fr
  | .inf n => f.encodeInf n
  | .fin d => (f.round .rne false d.exact).bits

/-- The lesser or greater of two values (R75); `ftz` flushes a subnormal that is returned, which the inputs' reading
has done already. -/
def FFmt.minmax (f : FFmt) (isMax : Bool) (a b : FVal) : FRes :=
  let flags := flagIf (a.isSig || b.isSig) flagNV
  if a.isNan && b.isNan then f.pickNan [a, b] false
  else if a.isNan then ⟨f.store b, flags⟩
  else if b.isNan then ⟨f.store a, flags⟩
  else if (if isMax then a.lt true b else b.lt true a) then ⟨f.store b, flags⟩ else ⟨f.store a, flags⟩

/-- The class mask of R96: the bit of the value's class. -/
def FFmt.classify (f : FFmt) (ftz : Bool) (bits : Nat) : Nat :=
  match f.decode ftz bits with
  | .inf n => if n then 1 else 2 ^ 7
  | .nan _ s _ => if s then 2 ^ 8 else 2 ^ 9
  | .fin d =>
    if d.m = 0 then (if d.neg then 2 ^ 3 else 2 ^ 4)
    else if d.m < 2 ^ f.fw then (if d.neg then 2 ^ 2 else 2 ^ 5)
    else (if d.neg then 2 ^ 1 else 2 ^ 6)

/-! ## L6 (R67 to R69) -/

/-- The table T of R67 as Q1.15 words. -/
def l6T (f : Nat) : Nat := match f with | 0 => 0x8000 | 1 => 0x9838 | 2 => 0xB505 | _ => 0xD745

/-- The magnitude of an L6 code, extended to codes beyond 31: T[m mod 4] · 2^((m ≫ 2) − 4). -/
def l6Mag (m : Nat) : Dy := ⟨false, l6T (m % 4), (m / 4 : Nat) - 4 - 15⟩

/-- The value of an L6 element. -/
def l6Decode (bits : Nat) : FVal :=
  let s := bits / 32 % 2 == 1
  let m := bits % 32
  if m = 0 then (if s then defaultNan else .fin ⟨false, 0, 0⟩)
  else .fin { l6Mag m with neg := s }

/-- Whether |x| rounds to code m or below: it lies below the middle of codes m and m + 1, or on it when m is even. -/
def l6AtMost (x : Dy) (m : Nat) : Bool :=
  let lo : Dy := if m = 0 then ⟨false, 0, 0⟩ else l6Mag m
  let mid := (lo.add (l6Mag (m + 1))).scale (-1)
  x.lt mid || (m % 2 == 0 && x.eq mid)

/-- A finite value rounded to L6 (R69). -/
def l6Round (d : Dy) : FRes :=
  let x : Dy := { d with neg := false }
  let sgn := if d.neg then 32 else 0
  if d.m = 0 then ⟨0, 0⟩
  else match (List.range 32).find? (l6AtMost x) with
    | none => ⟨sgn + 31, flagOF ||| flagNX⟩
    | some 0 => ⟨0, flagUF ||| flagNX⟩
    | some m => ⟨sgn + m, flagIf (!(x.eq (l6Mag m))) flagNX⟩

/-- The product of two L6 codes stored as L6 (R68, R114). -/
def l6Mul (a b : Nat) : FRes :=
  if a % 64 = 32 ∨ b % 64 = 32 then ⟨32, 0⟩
  else if a % 32 = 0 ∨ b % 32 = 0 then ⟨0, 0⟩
  else
    let sgn := if (a / 32 + b / 32) % 2 = 1 then 32 else 0
    let q := a % 32 + b % 32
    if 47 < q then ⟨sgn + 31, flagOF ||| flagNX⟩
    else if q < 17 then ⟨0, flagUF ||| flagNX⟩
    else ⟨sgn + (q - 16), 0⟩

/-- The value of the product of two L6 codes as a term of a sum (R68). -/
def l6Product (a b : Nat) : FVal :=
  if a % 64 = 32 ∨ b % 64 = 32 then defaultNan
  else if a % 32 = 0 ∨ b % 32 = 0 then .fin ⟨false, 0, 0⟩
  else
    let q := a % 32 + b % 32
    .fin ⟨(a / 32 + b / 32) % 2 == 1, l6T (q % 4), (q / 4 : Nat) - 8 - 15⟩

/-! ## Conversions (R76) -/

/-- Where an element value can go: a floating-point format, L6, or an integer of `n` bits. -/
inductive NumFmt where
  | flt (f : FFmt)
  | l6
  | int (signed : Bool) (n : Nat)
  deriving DecidableEq, Repr

/-- An exact value rounded to an integer: the integer, and whether the rounding was exact. -/
def roundToInt (r : Rnd) (a : Approx) : Int × Bool :=
  let sh := (-a.d.e).toNat
  let m := a.d.m <<< a.d.e.toNat
  let k := m >>> sh
  let rem := m % 2 ^ sh
  let k' := if roundsUp r a.d.neg (k % 2 == 1) rem sh a.sticky then k + 1 else k
  (if a.d.neg then -(k' : Int) else k', decide (rem = 0) && !a.sticky)

/-- The bounds of an integer format (R63). -/
def intLo (signed : Bool) (n : Nat) : Int := if signed then -(2 ^ (n - 1)) else 0
def intHi (signed : Bool) (n : Nat) : Int := if signed then 2 ^ (n - 1) - 1 else 2 ^ n - 1

/-- An integer in `n` bits. -/
def encodeInt (n : Nat) (i : Int) : Nat := (i % 2 ^ n).toNat

/-- A finite value to an integer format. Values of more than 2^80 in magnitude are beyond every range. -/
def convertToInt (r : Rnd) (signed : Bool) (n : Nat) (d : Dy) : FRes :=
  if d.m ≠ 0 ∧ 80 < d.log2 then ⟨encodeInt n (if d.neg then intLo signed n else intHi signed n), flagNV⟩
  else if d.m ≠ 0 ∧ d.log2 < -80 then
    let (i, _) := roundToInt r ⟨⟨d.neg, 1, -80⟩, true⟩
    if i < intLo signed n then ⟨encodeInt n (intLo signed n), flagNV⟩ else ⟨encodeInt n i, flagNX⟩
  else
    let (i, ex) := roundToInt r d.exact
    if i < intLo signed n then ⟨encodeInt n (intLo signed n), flagNV⟩
    else if intHi signed n < i then ⟨encodeInt n (intHi signed n), flagNV⟩
    else ⟨encodeInt n i, flagIf (!ex) flagNX⟩

/-- Converts a value to a format (R76). -/
def convert (dst : NumFmt) (r : Rnd) (ftz : Bool) (v : FVal) : FRes :=
  let sig := flagIf v.isSig flagNV
  match dst, v with
  | .flt f, .fin d => f.round r ftz d.exact
  | .flt f, .inf n =>
    match f.nan with
    | .ieee => ⟨f.encodeInf n, 0⟩
    | _ => ⟨f.encodeMax n, flagOF⟩
  | .flt f, .nan n _ fr =>
    match f.nan with
    | .none => ⟨0, flagNV⟩
    | _ => ⟨f.encodeNan n fr, sig⟩
  | .l6, .fin d => l6Round d
  | .l6, .inf n => ⟨(if n then 32 else 0) + 31, flagOF⟩
  | .l6, .nan .. => ⟨32, sig⟩
  | .int sg n, .fin d => convertToInt r sg n d
  | .int sg n, .inf neg => ⟨encodeInt n (if neg then intLo sg n else intHi sg n), flagNV⟩
  | .int _ _, .nan .. => ⟨0, flagNV⟩

/-- An integer as an exact value. -/
def fvalOfInt (i : Int) : FVal := .fin (dyOfInt i 0)

/-- The number that `n` bits hold. -/
def intOf (signed : Bool) (n v : Nat) : Int := if signed then sextNat n v else (v % 2 ^ n : Nat)

/-- The draw of R72. -/
def srDraw (seed : BitVec 32) (e : Nat) : Nat :=
  let s := seed ^^^ BitVec.ofNat 32 (e * 0x9E3779B9)
  let s := if s = 0 then 1 else s
  let s := s ^^^ (s <<< 13)
  let s := s ^^^ (s >>> 17)
  let s := s ^^^ (s <<< 5)
  s.toNat

/-! ## Exact-window sums (R78, R79) -/

/-- A term of a sum: its operands in order, and its exact value, or none for 0 × ∞. -/
structure Term where
  ops : List FVal
  val : Option FVal
  deriving DecidableEq, Repr

def termOf (v : FVal) : Term := ⟨[v], some v⟩
def termProd (a b : FVal) : Term := ⟨[a, b], if a.isNan then some a else if b.isNan then some b else mulVal a b⟩
/-- A product that has its own value, as of two L6 codes. -/
def termVal (v : FVal) : Term := ⟨[v], some v⟩

/-- A sum before its rounding. -/
inductive Sum where
  /-- A NaN chosen among the operands; `invalid` when an operation was invalid. -/
  | nan (ops : List FVal) (invalid : Bool)
  | inf (neg : Bool)
  | zero (neg : Bool) (cut : Bool)
  /-- The exact windowed sum, and whether a truncation discarded something. -/
  | fin (d : Dy) (cut : Bool)
  deriving DecidableEq, Repr

def termDy (t : Term) : Option Dy := match t.val with | some (.fin d) => some d | _ => none

/-- The window of the exact sum: each term is cut at the weight 2^(E − 95). -/
def windowSum (ds : List Dy) : Dy × Bool :=
  let nz := ds.filter fun d => d.m != 0
  match (nz.map Dy.log2).max? with
  | none => (⟨false, 0, 0⟩, false)
  | some E =>
    let w := E - 95
    let cut (d : Dy) : Nat × Bool :=
      if w ≤ d.e then (d.m <<< (d.e - w).toNat, false)
      else
        -- a term whose bits all lie below the window is cut to 0 without a long shift
        if d.log2 < w then (0, true) else (d.m >>> (w - d.e).toNat, d.m % 2 ^ (w - d.e).toNat != 0)
    let r := nz.foldl (fun (acc : Int × Bool) d =>
      let c := cut d
      (acc.1 + (if d.neg then -(c.1 : Int) else c.1), acc.2 || c.2)) (0, false)
    (dyOfInt r.1 w, r.2)

/-- The exact-window sum of a list of terms (R78). -/
def windowOf (ts : List Term) : Sum :=
  let vals := ts.filterMap (·.val)
  let inval := ts.any fun t => t.val.isNone
  if inval || vals.any FVal.isNan then .nan (ts.flatMap (·.ops)) inval
  else
    let infs := vals.filterMap fun v => match v with | .inf n => some n | _ => none
    if infs.contains true && infs.contains false then .nan [] true
    else match infs.head? with
      | some n => .inf n
      | none =>
        let ds := ts.filterMap termDy
        if ds.all fun d => d.m == 0 then .zero (!ds.isEmpty && ds.all (·.neg)) false
        else
          let (d, cut) := windowSum ds
          if d.m = 0 then .zero false cut else .fin d cut

/-- The sum rounded to a format. -/
def FFmt.ofSum (f : FFmt) (ftz : Bool) (s : Sum) : FRes :=
  match s with
  | .nan ops inval => f.pickNan ops inval
  | .inf n => ⟨f.encodeInf n, 0⟩
  | .zero n cut => ⟨f.assemble n 0 0, flagIf cut flagNX⟩
  | .fin d cut => let r := f.round .rne ftz d.exact; ⟨r.bits, r.flags ||| flagIf cut flagNX⟩

/-- ExactWindowSum of R78, with its rounding. -/
def FFmt.windowRound (f : FFmt) (ftz : Bool) (ts : List Term) : FRes := f.ofSum ftz (windowOf ts)

/-- The flags of a pair update: NV and OF from the sum, NX only for a cut or for hi′ + lo′ ≠ S (R79, R98). -/
def pairOf (s : Sum) : Nat × Nat × FFlags :=
  match s with
  | .nan ops inval => let r := fp32.pickNan ops inval; (r.bits, 0, r.flags)
  | .inf n => (fp32.encodeInf n, 0, 0)
  | .zero n cut => (fp32.assemble n 0 0, 0, flagIf cut flagNX)
  | .fin d cut =>
    let hi := fp32.round .rne false d.exact
    match fp32.decode false hi.bits with
    | .fin h =>
      let rest := d.add h.negate
      if rest.m = 0 then (hi.bits, 0, flagIf cut flagNX)
      else
        let lo := fp32.round .rne false rest.exact
        (hi.bits, lo.bits, flagIf (cut || lo.flags &&& flagNX != 0) flagNX)
    | _ => (hi.bits, 0, flagOF ||| flagNX)

/-! ## Exponential, logarithm, hyperbolic tangent (R111), by fixed-point series (assumption 13) -/

/-- Fraction bits of the fixed-point values below. -/
def fixBits : Nat := 448

/-- Σ x^k / k!, with x and the result in units of 2^-448: `n` further terms from the term `t` of index `k`. -/
def expSeries (x : Nat) : Nat → Nat → Nat → Nat → Nat
  | 0, _, _, acc => acc
  | n + 1, k, t, acc => let t' := ((t * x) >>> fixBits) / k; expSeries x n (k + 1) t' (acc + t')

/-- exp(x) for 0 ≤ x < 1. -/
def expFix (x : Nat) : Nat := expSeries x 100 1 (2 ^ fixBits) (2 ^ fixBits)

/-- 2 · Σ 1 / ((2k + 1) · 3^(2k + 1)). -/
def ln2Series : Nat → Nat → Nat → Nat → Nat
  | 0, _, _, acc => acc
  | n + 1, k, p, acc => ln2Series n (k + 1) (p / 9) (acc + p / (2 * k + 1))

/-- ln 2 in units of 2^-448. -/
def ln2Fix : Nat := 2 * ln2Series 150 0 (2 ^ fixBits / 3) 0

/-- 2^d of a finite value. -/
def exp2Of (d : Dy) : Approx :=
  if d.m = 0 then ⟨⟨false, 1, 0⟩, false⟩
  else if 10 < d.log2 then ⟨⟨false, 1, if d.neg then -4000 else 4000⟩, true⟩
  else
    -- the value in units of 2^-256, which holds every element of the formats exactly
    let v := d.scaled (-256)
    let v := if -256 ≤ d.e then v else (if d.neg then -1 else 1) * ((d.m >>> (-256 - d.e).toNat : Nat) : Int)
    let n := v / 2 ^ 256
    let f := (v - n * 2 ^ 256).toNat
    if f = 0 then ⟨⟨false, 1, n⟩, false⟩
    else ⟨⟨false, expFix ((f * ln2Fix) >>> 256), n - fixBits⟩, true⟩

/-- Bits of log2 of m / 2^448 in [1, 2), by repeated squaring: `n` bits, the highest first. -/
def log2Bits : Nat → Nat → Nat → Nat
  | 0, _, acc => acc
  | n + 1, x, acc =>
    let y := (x * x) >>> fixBits
    if 2 ^ (fixBits + 1) ≤ y then log2Bits n (y >>> 1) (2 * acc + 1) else log2Bits n y (2 * acc)

/-- log2 of a positive finite value. -/
def log2Of (d : Dy) : Approx :=
  let k := d.log2
  let x := if (Nat.log2 d.m) ≤ fixBits then d.m <<< (fixBits - Nat.log2 d.m) else d.m >>> (Nat.log2 d.m - fixBits)
  if x = 2 ^ fixBits then ⟨dyOfInt k 0, false⟩
  else
    let l : Int := k * 2 ^ 192 + (log2Bits 192 x 0 : Nat)
    if 0 ≤ l then ⟨dyOfInt l (-192), true⟩ else ⟨dyOfInt (l + 1) (-192), true⟩

/-- tanh of a finite nonzero value. -/
def tanhOf (d : Dy) : Approx :=
  if 5 < d.log2 then ⟨⟨d.neg, 2 ^ 128 - 1, -128⟩, true⟩
  else if d.log2 < -60 then ⟨⟨d.neg, d.m * 2 ^ 64 - 1, d.e - 64⟩, true⟩
  else
    -- 2|d| = n ln 2 + r
    let y := if 0 ≤ d.e + 1 + fixBits then d.m <<< (d.e + 1 + fixBits).toNat else d.m >>> (-(d.e + 1 + fixBits)).toNat
    let n := y / ln2Fix
    let ex := expFix (y - n * ln2Fix) <<< n
    let num := (ex - 2 ^ fixBits) <<< 256
    ⟨⟨d.neg, num / (ex + 2 ^ fixBits), -256⟩, true⟩

/-- 2^a. -/
def FFmt.exp2 (f : FFmt) (r : Rnd) (ftz : Bool) (a : FVal) : FRes :=
  match a with
  | .nan .. => f.pickNan [a] false
  | .inf n => if n then ⟨f.assemble false 0 0, 0⟩ else ⟨f.encodeInf false, 0⟩
  | .fin d => f.round r ftz (exp2Of d)

/-- log2 a. -/
def FFmt.log2 (f : FFmt) (r : Rnd) (ftz : Bool) (a : FVal) : FRes :=
  match a with
  | .nan .. => f.pickNan [a] false
  | .inf n => if n then f.pickNan [a] true else ⟨f.encodeInf false, 0⟩
  | .fin d =>
    if d.m = 0 then ⟨f.encodeInf true, flagDZ⟩
    else if d.neg then f.pickNan [a] true
    else f.round r ftz (log2Of d)

/-- tanh a. -/
def FFmt.tanh (f : FFmt) (r : Rnd) (ftz : Bool) (a : FVal) : FRes :=
  match a with
  | .nan .. => f.pickNan [a] false
  | .inf n => f.round .rne false ⟨⟨n, 1, 0⟩, false⟩
  | .fin d => if d.m = 0 then ⟨f.assemble d.neg 0 0, 0⟩ else f.round r ftz (tanhOf d)

end Sys2Proof.Machine
end

