-- ==== Sys2Proof/Machine/Flags.lean ====
section
/-! DEFINITION. The floating-point control and status of a sequencer: rounding mode, flush, and the sticky flags
(R30, R47, R70 to R73), and how scalar floating-point results are written (R15, R96). -/

namespace Sys2Proof.Machine

/-- `frm` bit 3 (R71). -/
def Slot.ftz (t : Slot) : Bool := t.frm.getLsbD 3

/-- The mode that `frm` holds (R70). -/
def Slot.frmMode (t : Slot) : Rnd :=
  match (t.frm.extractLsb' 0 3).toNat with
  | 1 => .rtz | 2 => .rdn | 3 => .rup | 4 => .rmm | _ => .rne

/-- The mode of an instruction: its own, or that of `frm` (R47). -/
def Slot.rnd (t : Slot) (m : RM) : Rnd :=
  match m with
  | .rne => .rne | .rtz => .rtz | .rdn => .rdn | .rup => .rup | .rmm => .rmm | .dyn => t.frmMode

/-- Flags are sticky (R73). -/
def Slot.raise (t : Slot) (f : FFlags) : Slot := { t with fflags := t.fflags ||| f }

/-- The format of a scalar precision. -/
def precFmt (p : Prec) : FFmt := match p with | .s => fp32 | .d => fp64

/-- The bits of an operand at a precision: bits [31:0] at `.s` (R15). -/
def precBits (p : Prec) (v : Word) : Nat := match p with | .s => v.toNat % 2 ^ 32 | .d => v.toNat

/-- A scalar operand's value, subnormals read as zero under FTZ (R71). -/
def Slot.fval (t : Slot) (p : Prec) (r : Reg) : FVal := (precFmt p).decode t.ftz (precBits p (t.readX r))

/-- Writes a result, zero-extended, and its flags. -/
def Slot.writeF (t : Slot) (rd : Reg) (r : FRes) : Slot := (t.writeX rd (BitVec.ofNat 64 r.bits)).raise r.flags

end Sys2Proof.Machine
end

