-- ==== Sys2Proof/Machine/Operands.lean ====
section
/-! DEFINITION. Operand forms of the scalar instructions: immediates, targets, and the words of the instructions that can
trap or wait (R33, R36 to R57). -/

namespace Sys2Proof.Machine

/-! ## Immediates and targets (R36) -/

/-- A sign-extended immediate. -/
def simm {n : Nat} (i : BitVec n) : Word := i.signExtend 64
/-- A zero-extended immediate. -/
def zimm {n : Nat} (i : BitVec n) : Word := i.zeroExtend 64
/-- The target of a branch, a jump or a `gjoin`: PC + sext(off21) × 4. -/
def target (pc : Word) (off : BitVec 21) : Word := pc + simm off * 4

/-! ## Words (R33, R40 to R57) -/

/-- A word of the A format. -/
def wordA (f : Nat) (rs2 rs1 rd : Reg) (op : Nat) : IWord := pack (BitVec.ofNat 11 f) rs2 rs1 rd (BitVec.ofNat 6 op)
/-- A word of the I format. -/
def wordI (imm : BitVec 16) (rs1 rd : Reg) (op : Nat) : IWord := pack (immHi16 imm) (immLo16 imm) rs1 rd (BitVec.ofNat 6 op)
/-- A load's word: imm13 and the width code. -/
def wordLd (imm : BitVec 13) (code : Nat) (rs1 rd : Reg) : IWord :=
  pack (imm.extractLsb' 2 11) (imm.extractLsb' 0 2 ++ BitVec.ofNat 3 code) rs1 rd 0x08
/-- A store's word: imm14 and the width code. -/
def wordSt (imm : BitVec 14) (code : Nat) (rs1 data : Reg) : IWord :=
  pack (imm.extractLsb' 3 11) (imm.extractLsb' 0 3 ++ BitVec.ofNat 2 code) rs1 data 0x09
/-- A word with off21 in [31:11] and five bits in [10:6]. -/
def wordOff (off : BitVec 21) (low : Reg) (op : Nat) : IWord :=
  pack (off.extractLsb' 10 11) (off.extractLsb' 5 5) (off.extractLsb' 0 5) low (BitVec.ofNat 6 op)
/-- The word of `loop` (R46). -/
def wordLoop (rs1 : Reg) (e : BitVec 13) : IWord :=
  pack (e.extractLsb' 2 11) (e.extractLsb' 0 2 ++ 0#3) rs1 0 0x15
/-- The word of `loopi`: imm12 in [18:7], and bit [6] at 1. -/
def wordLoopi (count : BitVec 12) (e : BitVec 13) : IWord :=
  pack (e.extractLsb' 2 11) (e.extractLsb' 0 2 ++ count.extractLsb' 9 3) (count.extractLsb' 4 5)
    (count.extractLsb' 0 4 ++ 1#1) 0x15
/-- The word of a CSR instruction (R49). -/
def wordCsr (func : Nat) (csr : BitVec 14) (rs1 rd : Reg) : IWord :=
  pack (BitVec.ofNat 2 func ++ csr.extractLsb' 5 9) (csr.extractLsb' 0 5) rs1 rd 0x18
/-- The word of a scalar atomic (R51). -/
def wordAmo (sc : Scope) (o : Order) (wd : AmoWidth) (func : Nat) (rs2 rs1 rd : Reg) : IWord :=
  pack (sc.toBits ++ o.toBits ++ wd.toBits ++ BitVec.ofNat 5 func) rs2 rs1 rd 0x1A

/-! ## How an instruction that cannot stop ends -/

/-- An instruction that only changes its slot and retires. -/
def simple (f : Slot → Slot) (s : State) : Host.Outcome State Fault Refusal := 
  .next (retire .next (turnsOver s (mapMe f s)))

/-- X[rd] ← f(X[rs1], X[rs2]). -/
def alu2 (rd rs1 rs2 : Reg) (f : Word → Word → Word) : State → Host.Outcome State Fault Refusal :=
  simple fun t => t.writeX rd (f (t.readX rs1) (t.readX rs2))
/-- X[rd] ← f(X[rs1]). -/
def alu1 (rd rs1 : Reg) (f : Word → Word) : State → Host.Outcome State Fault Refusal :=
  simple fun t => t.writeX rd (f (t.readX rs1))
/-- C[n] ← f(X[rs1], X[rs2]). -/
def cmp2 (n : CBit) (rs1 rs2 : Reg) (f : Word → Word → Bool) : State → Host.Outcome State Fault Refusal :=
  simple fun t => t.writeC n (f (t.readX rs1) (t.readX rs2))
/-- C[n] ← f(X[rs1]). -/
def cmp1 (n : CBit) (rs1 : Reg) (f : Word → Bool) : State → Host.Outcome State Fault Refusal :=
  simple fun t => t.writeC n (f (t.readX rs1))
/-- C[d] ← f(C[a], C[b]). -/
def cond2 (d a b : CBit) (f : Bool → Bool → Bool) : State → Host.Outcome State Fault Refusal :=
  simple fun t => t.writeC d (f (t.readC a) (t.readC b))

end Sys2Proof.Machine
end

