-- ==== Sys2Proof/Machine/Alu.lean ====
section
/-! DEFINITION. Integer and address arithmetic (R82 to R85). -/

namespace Sys2Proof.Machine

/-- The low six bits of a shift amount. -/
def sh6 (b : Word) : Nat := b.toNat % 64
/-- The high 64 bits of an exact product. -/
def highOf (p : Int) : Word := BitVec.ofInt 64 (p / 2 ^ 64)
/-- Signed quotient, truncated toward zero, with the cases of R83. -/
def divSigned (a b : Word) : Word := if b = 0 then BitVec.allOnes 64 else BitVec.ofInt 64 (a.toInt.tdiv b.toInt)
/-- Unsigned quotient. -/
def divUnsigned (a b : Word) : Word := if b = 0 then BitVec.allOnes 64 else a / b
/-- Signed remainder, with the sign of the dividend. -/
def remSigned (a b : Word) : Word := if b = 0 then a else BitVec.ofInt 64 (a.toInt.tmod b.toInt)
/-- Unsigned remainder. -/
def remUnsigned (a b : Word) : Word := if b = 0 then a else a % b
/-- The number of leading zero bits; 64 for 0. -/
def leadingZeros (a : Word) : Nat := if a = 0 then 64 else 63 - Nat.log2 a.toNat
/-- The number of trailing zero bits; 64 for 0. -/
def trailingZeros (a : Word) : Nat := ((List.range 64).find? fun i => a.getLsbD i).getD 64
/-- The number of one bits. -/
def onesIn (a : Word) : Nat := popNat 64 a.toNat
/-- The eight bytes in reverse order. -/
def swapBytes (a : Word) : Word := BitVec.ofNat 64 (natOfBytes (bytesOfNat 8 a.toNat).reverse)

/-- `add` (R82). -/
def execAdd (rd rs1 rs2 : Reg) (s : State) : Host.Outcome State Fault Refusal :=
  alu2 rd rs1 rs2 (fun a b => a + b) s
/-- `sub` (R82). -/
def execSub (rd rs1 rs2 : Reg) (s : State) : Host.Outcome State Fault Refusal :=
  alu2 rd rs1 rs2 (fun a b => a - b) s
/-- `and` (R82). -/
def execAnd (rd rs1 rs2 : Reg) (s : State) : Host.Outcome State Fault Refusal :=
  alu2 rd rs1 rs2 (fun a b => a &&& b) s
/-- `or` (R82). -/
def execOr (rd rs1 rs2 : Reg) (s : State) : Host.Outcome State Fault Refusal :=
  alu2 rd rs1 rs2 (fun a b => a ||| b) s
/-- `xor` (R82). -/
def execXor (rd rs1 rs2 : Reg) (s : State) : Host.Outcome State Fault Refusal :=
  alu2 rd rs1 rs2 (fun a b => a ^^^ b) s
/-- `andn` (R82). -/
def execAndn (rd rs1 rs2 : Reg) (s : State) : Host.Outcome State Fault Refusal :=
  alu2 rd rs1 rs2 (fun a b => a &&& ~~~b) s
/-- `sll` (R82). -/
def execSll (rd rs1 rs2 : Reg) (s : State) : Host.Outcome State Fault Refusal :=
  alu2 rd rs1 rs2 (fun a b => a <<< sh6 b) s
/-- `srl` (R82). -/
def execSrl (rd rs1 rs2 : Reg) (s : State) : Host.Outcome State Fault Refusal :=
  alu2 rd rs1 rs2 (fun a b => a >>> sh6 b) s
/-- `sra` (R82). -/
def execSra (rd rs1 rs2 : Reg) (s : State) : Host.Outcome State Fault Refusal :=
  alu2 rd rs1 rs2 (fun a b => a.sshiftRight (sh6 b)) s
/-- `mul` (R82). -/
def execMul (rd rs1 rs2 : Reg) (s : State) : Host.Outcome State Fault Refusal :=
  alu2 rd rs1 rs2 (fun a b => a * b) s
/-- `mulh` (R82). -/
def execMulh (rd rs1 rs2 : Reg) (s : State) : Host.Outcome State Fault Refusal :=
  alu2 rd rs1 rs2 (fun a b => highOf (a.toInt * b.toInt)) s
/-- `mulhu` (R82). -/
def execMulhu (rd rs1 rs2 : Reg) (s : State) : Host.Outcome State Fault Refusal :=
  alu2 rd rs1 rs2 (fun a b => highOf (a.toNat * b.toNat)) s
/-- `mulhsu` (R82). -/
def execMulhsu (rd rs1 rs2 : Reg) (s : State) : Host.Outcome State Fault Refusal :=
  alu2 rd rs1 rs2 (fun a b => highOf (a.toInt * b.toNat)) s
/-- `div` (R83). -/
def execDiv (rd rs1 rs2 : Reg) (s : State) : Host.Outcome State Fault Refusal :=
  alu2 rd rs1 rs2 (fun a b => divSigned a b) s
/-- `divu` (R83). -/
def execDivu (rd rs1 rs2 : Reg) (s : State) : Host.Outcome State Fault Refusal :=
  alu2 rd rs1 rs2 (fun a b => divUnsigned a b) s
/-- `rem` (R83). -/
def execRem (rd rs1 rs2 : Reg) (s : State) : Host.Outcome State Fault Refusal :=
  alu2 rd rs1 rs2 (fun a b => remSigned a b) s
/-- `remu` (R83). -/
def execRemu (rd rs1 rs2 : Reg) (s : State) : Host.Outcome State Fault Refusal :=
  alu2 rd rs1 rs2 (fun a b => remUnsigned a b) s
/-- `min` (R82). -/
def execMin (rd rs1 rs2 : Reg) (s : State) : Host.Outcome State Fault Refusal :=
  alu2 rd rs1 rs2 (fun a b => if a.toInt < b.toInt then a else b) s
/-- `max` (R82). -/
def execMax (rd rs1 rs2 : Reg) (s : State) : Host.Outcome State Fault Refusal :=
  alu2 rd rs1 rs2 (fun a b => if a.toInt < b.toInt then b else a) s
/-- `minu` (R82). -/
def execMinu (rd rs1 rs2 : Reg) (s : State) : Host.Outcome State Fault Refusal :=
  alu2 rd rs1 rs2 (fun a b => if a.toNat < b.toNat then a else b) s
/-- `maxu` (R82). -/
def execMaxu (rd rs1 rs2 : Reg) (s : State) : Host.Outcome State Fault Refusal :=
  alu2 rd rs1 rs2 (fun a b => if a.toNat < b.toNat then b else a) s
/-- `sh1add` (R82). -/
def execSh1add (rd rs1 rs2 : Reg) (s : State) : Host.Outcome State Fault Refusal :=
  alu2 rd rs1 rs2 (fun a b => (a <<< 1) + b) s
/-- `sh2add` (R82). -/
def execSh2add (rd rs1 rs2 : Reg) (s : State) : Host.Outcome State Fault Refusal :=
  alu2 rd rs1 rs2 (fun a b => (a <<< 2) + b) s
/-- `sh3add` (R82). -/
def execSh3add (rd rs1 rs2 : Reg) (s : State) : Host.Outcome State Fault Refusal :=
  alu2 rd rs1 rs2 (fun a b => (a <<< 3) + b) s
/-- `rotl` (R82). -/
def execRotl (rd rs1 rs2 : Reg) (s : State) : Host.Outcome State Fault Refusal :=
  alu2 rd rs1 rs2 (fun a b => a.rotateLeft (sh6 b)) s
/-- `rotr` (R82). -/
def execRotr (rd rs1 rs2 : Reg) (s : State) : Host.Outcome State Fault Refusal :=
  alu2 rd rs1 rs2 (fun a b => a.rotateRight (sh6 b)) s
/-- `clz` (R82). -/
def execClz (rd rs1 : Reg) (s : State) : Host.Outcome State Fault Refusal :=
  alu1 rd rs1 (fun a => BitVec.ofNat 64 (leadingZeros a)) s
/-- `ctz` (R82). -/
def execCtz (rd rs1 : Reg) (s : State) : Host.Outcome State Fault Refusal :=
  alu1 rd rs1 (fun a => BitVec.ofNat 64 (trailingZeros a)) s
/-- `pop` (R82). -/
def execPop (rd rs1 : Reg) (s : State) : Host.Outcome State Fault Refusal :=
  alu1 rd rs1 (fun a => BitVec.ofNat 64 (onesIn a)) s
/-- `bswap` (R82). -/
def execBswap (rd rs1 : Reg) (s : State) : Host.Outcome State Fault Refusal :=
  alu1 rd rs1 (fun a => swapBytes a) s
/-- `addi` (R84). -/
def execAddi (rd rs1 : Reg) (imm : BitVec 16) (s : State) : Host.Outcome State Fault Refusal :=
  alu1 rd rs1 (fun a => a + simm imm) s
/-- `andi` (R84). -/
def execAndi (rd rs1 : Reg) (imm : BitVec 16) (s : State) : Host.Outcome State Fault Refusal :=
  alu1 rd rs1 (fun a => a &&& simm imm) s
/-- `ori` (R84). -/
def execOri (rd rs1 : Reg) (imm : BitVec 16) (s : State) : Host.Outcome State Fault Refusal :=
  alu1 rd rs1 (fun a => a ||| zimm imm) s
/-- `xori` (R84). -/
def execXori (rd rs1 : Reg) (imm : BitVec 16) (s : State) : Host.Outcome State Fault Refusal :=
  alu1 rd rs1 (fun a => a ^^^ zimm imm) s
/-- `ldhi` (R84). -/
def execLdhi (rd : Reg) (imm : BitVec 21) (s : State) : Host.Outcome State Fault Refusal :=
  simple (fun t => t.writeX rd (simm imm <<< 16)) s
/-- `pcadd` (R84). -/
def execPcadd (rd : Reg) (imm : BitVec 21) (s : State) : Host.Outcome State Fault Refusal :=
  simple (fun t => t.writeX rd (t.pc + (simm imm <<< 16))) s
/-- `slli` (R85). -/
def execSlli (rd rs1 : Reg) (shamt : BitVec 6) (s : State) : Host.Outcome State Fault Refusal :=
  alu1 rd rs1 (fun a => a <<< shamt.toNat) s
/-- `srli` (R85). -/
def execSrli (rd rs1 : Reg) (shamt : BitVec 6) (s : State) : Host.Outcome State Fault Refusal :=
  alu1 rd rs1 (fun a => a >>> shamt.toNat) s
/-- `srai` (R85). -/
def execSrai (rd rs1 : Reg) (shamt : BitVec 6) (s : State) : Host.Outcome State Fault Refusal :=
  alu1 rd rs1 (fun a => a.sshiftRight shamt.toNat) s
/-- `rotli` (R85). -/
def execRotli (rd rs1 : Reg) (shamt : BitVec 6) (s : State) : Host.Outcome State Fault Refusal :=
  alu1 rd rs1 (fun a => a.rotateLeft shamt.toNat) s

end Sys2Proof.Machine
end

