-- ==== Sys2Proof/Machine/Vector.lean ====
section
/-! DEFINITION. Vector operands: the configuration, where elements sit, masks, streams as operands, the checks of R25,
R107 and R269, and the loop that every element-wise instruction shares (R19 to R27, R103 to R107, R268 to R272). -/

namespace Sys2Proof.Machine

/-! ## The configuration (R19 to R23) -/

/-- Element width in bits of a code; 0 for the reserved codes. -/
def ewBits (code : Nat) : Nat := match code with | 0 => 4 | 1 => 6 | 2 => 8 | 3 => 16 | 4 => 32 | 5 => 64 | _ => 0
def Slot.ew (t : Slot) : Nat := ewBits (Word.field t.vtype 0 3)
def Slot.group (t : Slot) : Nat := 2 ^ Word.field t.vtype 8 2
/-- The element format of the configuration. -/
def Slot.fmt (t : Slot) : Fmt := (Fmt.ofCode (BitVec.ofNat 5 (Word.field t.vtype 3 5))).getD .int
/-- `vtype.scope`; device scope when `vtype` is invalid, which only `hwpub` meets (R200). -/
def Slot.scope (t : Slot) : Scope :=
  if t.vill then .device else (Scope.ofBits (BitVec.ofNat 3 (Word.field t.vtype 12 3))).getD .device
def Slot.tailZero (t : Slot) : Bool := t.vtype.getLsbD 10
def Slot.maskZero (t : Slot) : Bool := t.vtype.getLsbD 11

/-- The widths that a format may have (R20). -/
def fmtWidthOk (f : Fmt) (ew : Nat) : Bool :=
  match f with
  | .int | .uint => ew == 4 || ew == 8 || ew == 16 || ew == 32 || ew == 64
  | .fp32 => ew == 32 | .fp16 => ew == 16 | .bf16 => ew == 16
  | .e4m3 => ew == 8 | .e5m2 => ew == 8 | .e3m2 => ew == 6 | .e2m3 => ew == 6 | .e2m1 => ew == 4 | .l6 => ew == 6

/-- The owned-lane count L (R22). -/
def Slot.laneCount (t : Slot) : Nat := popNat 64 t.lpart.toNat
/-- Bits of one register in one lane: VLEN / L = 32,768 / A (R23). -/
def Slot.slice (t : Slot) : Nat := 32768 / t.valloc

/-- VLMAX for a lane count, an allotment, a group, a width and a ceiling (R23). -/
def vlmaxFor (l a g w c : Nat) : Nat :=
  if l = 0 ∨ a = 0 ∨ w = 0 then 0
  else
    let v := l * (32768 / a * g / w)
    let v := if c = 0 then v else min v (c * l)
    if w = 6 then v - v % 4 else v

/-- VLMAX of a configuration image in a slot; 0 when the image is invalid otherwise (R21). -/
def Slot.vlmaxOf (t : Slot) (img : Word) : Nat :=
  let w := ewBits (Word.field img 0 3)
  match Fmt.ofCode (BitVec.ofNat 5 (Word.field img 3 5)) with
  | none => 0
  | some f =>
    if fmtWidthOk f w && decide (Word.field img 12 3 < 6) then
      vlmaxFor t.laneCount t.valloc (2 ^ Word.field img 8 2) w t.vceil
    else 0

/-- `vlmax` as it reads (R21, R23). -/
def Slot.vlmax (t : Slot) : Nat := if t.vill then 0 else t.vlmaxOf t.vtype

/-- `vtype` with vill set, the other bits 0 (R19). -/
def villWord : Word := 0x8000000000000000

/-! ## Elements and mask bits (R26, R103) -/

/-- Element `e` of the group that starts at register `r`, at a width: its slice lies in lane e mod L. -/
def Slot.elem (t : Slot) (r w e : Nat) : Nat :=
  let l := t.laneCount
  ((t.lanes.toArray.getD (e % l) 0).extractLsb' (r * t.slice + e / l * w) w).toNat

def Slot.setElem (t : Slot) (r w e v : Nat) : Slot :=
  let l := t.laneCount
  let o := r * t.slice + e / l * w
  let b := t.lanes.toArray.getD (e % l) 0
  let b' := (b &&& ~~~(BitVec.ofNat 32768 (2 ^ w - 1) <<< o)) ||| (BitVec.ofNat 32768 (v % 2 ^ w) <<< o)
  { t with lanes := t.lanes.setIfInBounds (e % l) b' }

/-- Bit `e` of a mask register; k0 reads all ones. Bits that VLMAX brought into existence read 0: a mask is cut to
VLMAX where VLMAX falls (R26). -/
def Slot.kbit (t : Slot) (k : KReg) (e : Nat) : Bool := if k = 0 then true else (t.masks[k.toFin]).getLsbD e

def Slot.setKbit (t : Slot) (k : KReg) (e : Nat) (b : Bool) : Slot :=
  if k = 0 then t
  else
    let m := t.masks[k.toFin]
    let m' := (m &&& ~~~((1#524288) <<< e)) ||| (if b then (1#524288) <<< e else 0)
    { t with masks := t.masks.set k.toFin m' }

/-- Drops the mask bits at VLMAX and above, which do not exist (R26). -/
def Slot.cutMasks (t : Slot) : Slot :=
  { t with masks := t.masks.map fun m => m &&& BitVec.ofNat 524288 (2 ^ t.vlmax - 1) }

/-! ## Bindings (R268 to R272, R307) -/

/-- The binding of v24 to v31. -/
def Slot.binding (t : Slot) (r : Nat) : Binding :=
  if 24 ≤ r ∧ r < 32 then t.streams.toArray.getD (r - 24) .unbound else .unbound
def Slot.setBinding (t : Slot) (r : Nat) (b : Binding) : Slot := { t with streams := t.streams.setIfInBounds (r - 24) b }

def Binding.bound : Binding → Bool
  | .unbound => false
  | _ => true
/-- Element width of a stream. -/
def Binding.ew : Binding → Nat
  | .unbound => 0
  | .mem d _ _ _ => d.ew
  | .kv b _ _ => b.ew
def Binding.writes : Binding → Bool
  | .mem d _ _ _ => d.write
  | _ => false

/-- Element `e` from the position of a read stream: a value, a deferred fault, or none while it is not filled. -/
def Binding.elem : Binding → Nat → Option (Nat ⊕ (Nat × Word))
  | .unbound, _ => some (.inl 0)
  | .mem d _ pos buf, e => if d.total ≤ pos + e then some (.inl 0) else buf[e]?
  | .kv b _ _, e =>
    match b.ahead[e / b.hd]? with
    | none => if b.ended then some (.inl 0) else none
    | some k => match k.fault with
      | some f => some (if e % b.hd = 0 then .inr f else .inl (Config.faultedElement f.2 e))
      | none => some (.inl (natOfBytes ((k.row.drop (e % b.hd * (b.ew / 8))).take (b.ew / 8))))

/-- The retiring pop of `n` elements (R270, R307). -/
def Binding.pop (n : Nat) : Binding → Binding
  | .unbound => .unbound
  | .mem d x pos buf => .mem d x (pos + n) (buf.drop n)
  | .kv b x kvm =>
    let k := n / b.hd
    let got := b.ahead.take k
    let next := match (b.ahead.drop k).head?, got.getLast? with
      | some t, _ => (t.page, t.slot)
      | none, some t => (t.page, t.slot + 1)
      | none, none => (b.page, b.slot)
    .kv { b with
      delivered := b.delivered + got.length
      page := next.1, slot := next.2
      ahead := b.ahead.drop k
      lastPop := (List.range k).map fun i => got[i]?.map fun t =>
        { frame := t.frame, slot := t.slot, pos := t.pos, scales := t.scales } } x kvm

/-- What is buffered from element `e` on is dropped, to be fetched again when the instruction resumes (R272). -/
def Binding.dropFrom (e : Nat) : Binding → Binding
  | .unbound => .unbound
  | .mem d x pos buf => .mem { d with held := true } x pos (buf.take e)
  | .kv b x kvm =>
    if b.ahead.length ≤ e / b.hd then .kv { b with held := true } x kvm
    else .kv { b with ahead := b.ahead.take (e / b.hd), ended := false, held := true } x kvm

/-- The fetching of a stream waits for an instruction that stopped on it. -/
def Binding.held : Binding → Bool
  | .unbound => false
  | .mem d _ _ _ => d.held
  | .kv b _ _ => b.held

/-- The stream may fetch again. -/
def Binding.resume : Binding → Binding
  | .unbound => .unbound
  | .mem d x pos buf => .mem { d with held := false } x pos buf
  | .kv b x kvm => .kv { b with held := false } x kvm

/-- The address of a stream element (R267). -/
def StreamDesc.address (d : StreamDesc) (p : Nat) : Word :=
  (d.dims.foldl (fun (a : Word × Nat) c => (a.1 + BitVec.ofNat 64 (a.2 % c.1) * c.2, a.2 / c.1)) (d.base, p)).1

/-! ## Operands and their checks -/

/-- A vector register operand: its number, its width in quarter bits per element of `vtype` (R107), and how it is
used. -/
structure VOp where
  r : Reg
  quarters : Nat
  /-- The operand is written. -/
  dest : Bool := false
  /-- Elements of its first segment are replicated (R39). -/
  rep : Rep := .none
  /-- Its elements are wider than `vtype.ew`, at as many bits to a source element (the dot forms, R113). -/
  wide : Bool := false
  deriving DecidableEq, Repr

/-- An operand at the width of `vtype`. -/
def Slot.opw (t : Slot) (r : Reg) : VOp := { r := r, quarters := 4 * t.ew }
def Slot.dst (t : Slot) (r : Reg) : VOp := { r := r, quarters := 4 * t.ew, dest := true }

/-- The smallest power of two that is at least a ratio, from 1 up to 16. -/
def groupFor (num den : Nat) : Nat := ((List.range 5).find? fun k => num ≤ 2 ^ k * den).map (2 ^ ·) |>.getD 32

/-- G′ of an operand (R107). -/
def Slot.groupOf (t : Slot) (o : VOp) : Nat := groupFor (t.group * o.quarters) (4 * t.ew)

/-- The register numbers of an operand. -/
def Slot.opRegs (t : Slot) (o : VOp) : List Nat := (List.range (t.groupOf o)).map (o.r.toNat + ·)

/-- One operand lies in the allotment, aligned (R25, R107). -/
def Slot.opOk (t : Slot) (o : VOp) : Bool :=
  let g := t.groupOf o
  decide (g ≤ 8) && o.r.toNat % g == 0 && decide (o.r.toNat + g ≤ t.valloc)

/-- A bound register is named only as a whole operand of the stream's width and direction (R269), and a KV stream is
read in whole tokens (R307). -/
def Slot.streamOk (t : Slot) (o : VOp) : Bool :=
  (t.opRegs o).all fun n =>
    let b := t.binding n
    !b.bound || (t.group == 1 && t.ew == b.ew && o.quarters == 4 * t.ew && n == o.r.toNat && o.rep == .none
      && !o.wide && b.writes == o.dest && match b with | .kv k _ _ => t.vl % k.hd == 0 | _ => true)

/-- Two operands of different widths share no register (R107). -/
def Slot.apart (t : Slot) (a b : VOp) : Bool :=
  (a.quarters == b.quarters && a.wide == b.wide) || !(t.opRegs a).any fun n => (t.opRegs b).contains n

/-- The operand checks of an instruction. -/
def Slot.opsOk (t : Slot) (os : List VOp) : Bool :=
  os.all (fun o => t.opOk o && t.streamOk o) && os.all fun a => os.all fun b => t.apart a b

/-- Steps 3 to 5 of R35 for a vector instruction: its format class and its operands; `extra` holds its own limits. -/
def vecChecks (w : IWord) (cls : Fmt → Nat → Bool) (os : Slot → List VOp) (extra : Slot → Bool) : M Unit := do
  guardVec w
  let t ← getMe
  check (cls t.fmt t.ew && extra t && t.opsOk (os t)) causeOperand (w.zeroExtend 64)

/-! ## Format classes (R107) -/

def clsInt : Fmt → Nat → Bool | .int, _ => true | .uint, _ => true | _, _ => false
def clsFp : Fmt → Nat → Bool | .fp32, _ => true | .fp16, _ => true | .bf16, _ => true | _, _ => false
def clsMx8 : Fmt → Nat → Bool | .e4m3, _ => true | .e5m2, _ => true | _, _ => false
def clsMx : Fmt → Nat → Bool
  | .e4m3, _ => true | .e5m2, _ => true | .e3m2, _ => true | .e2m3, _ => true | .e2m1, _ => true | _, _ => false
def clsL6 : Fmt → Nat → Bool | .l6, _ => true | _, _ => false
def clsAny : Fmt → Nat → Bool := fun _ _ => true

/-- The binary format of an element format. -/
def fltOf : Fmt → FFmt
  | .fp32 => fp32 | .fp16 => fp16 | .bf16 => bf16 | .e4m3 => e4m3 | .e5m2 => e5m2 | .e3m2 => e3m2 | .e2m3 => e2m3
  | .e2m1 => e2m1 | _ => fp32

/-- The value of an element of a format. -/
def fmtValue (f : Fmt) (ew : Nat) (ftz : Bool) (v : Nat) : FVal :=
  match f with
  | .int => fvalOfInt (intOf true ew v)
  | .uint => fvalOfInt (intOf false ew v)
  | .l6 => l6Decode v
  | f => (fltOf f).decode ftz v

/-- Where a conversion to a format goes. -/
def numFmtOf (f : Fmt) (ew : Nat) : NumFmt :=
  match f with
  | .int => .int true ew
  | .uint => .int false ew
  | .l6 => .l6
  | f => .flt (fltOf f)

/-! ## Reading operands -/

/-- The segment of a replicated operand. -/
def repSize : Rep → Option Nat
  | .none => none | .s1 => some 1 | .s4 => some 4 | .s16 => some 16 | .s64 => some 64

/-- Element `e` of an operand of `w`-bit elements, in the state before the instruction: a register, a replicated
segment, or a stream that is filled so far. -/
def Slot.read (t : Slot) (o : VOp) (w e : Nat) : Nat :=
  match repSize o.rep with
  | some s => t.elem o.r.toNat w (e % s)
  | none =>
    let b := t.binding o.r.toNat
    if b.bound && !b.writes then match b.elem e with
      | some (.inl v) => v % 2 ^ w
      | some (.inr f) => Config.faultedElement f.2 e % 2 ^ w
      | none => 0
    else t.elem o.r.toNat w e

/-- The bound read streams among the operands, each once. -/
def Slot.streamsOf (t : Slot) (os : List VOp) : List Nat :=
  ((os.filter fun o => !o.dest && (t.binding o.r.toNat).bound).map (·.r.toNat)).eraseDups

/-- The bound write stream among the operands. -/
def Slot.sinkOf (t : Slot) (os : List VOp) : Option Nat :=
  (os.find? fun o => o.dest && (t.binding o.r.toNat).bound).map (·.r.toNat)

/-- Whether an instruction can go through its elements `lo` to `hi - 1`: it waits for an element that is not filled, or
stops at an active element whose fill met a fault (R270). -/
inductive Fill where
  | ready
  | unfilled
  | stop (e cause : Nat) (addr : Word)
  deriving DecidableEq, Repr

def fillScan (t : Slot) (streams : List Nat) (active : Nat → Bool) : List Nat → Fill
  | [] => .ready
  | e :: es =>
    let got := streams.map fun n => (t.binding n).elem e
    if got.any Option.isNone then .unfilled
    else match got.findSome? fun g => match g with | some (.inr f) => some f | _ => none with
      | some f => if active e then .stop e f.1 f.2 else fillScan t streams active es
      | none => fillScan t streams active es

/-! ## Trace records of vector instructions (R340, R341) -/

/-- Writes a begin or an end record of a vector instruction. The end comes later than the step that makes it, by a free
number of cycles (assumption 6). -/
def traceVec (kind pipe : Nat) (q2 : Word) : M Unit :=
  modS fun s => if traced s s.cur 1 then
      let time := if kind = 0 then s.cycle else s.cycle + 1 + s.free .elapsed 1
      let s := mapCore (coreOf s.cur) (fun k => { k with
        vecEnds := k.vecEnds.set (slotFin s.cur) (max time k.vecEnds[slotFin s.cur]) }) s
      traceAt (coreOf s.cur) time (traceQuads kind pipe (slotOf s.cur) s.me.strip s.me.pc q2 0) s
    else s

/-- Every earlier vector instruction of the running sequencer has completed: its stores have performed, and its end is
past (R104, R105, R341). -/
def State.vecDone (s : State) : Bool :=
  !heldVector s s.cur && decide ((s.core (coreOf s.cur)).vecEnds[slotFin s.cur] ≤ s.cycle)

/-- The pipe of vector arithmetic is that of the slot; memory instructions use pipe 4. -/
def State.vpipe (s : State) (mem : Bool) : Nat := if mem then 4 else slotOf s.cur

/-- A vector instruction begins, if it has not begun before it waited. One that finds another `vstart` than 0 will write
it, and so dirties vector state (R24, R27; assumption 61). -/
def beginVec (mem : Bool) : M Unit := do
  let s ← getS
  if s.me.vbegun.isNone then
    traceVec 0 (s.vpipe mem) (BitVec.ofNat 64 (s.me.vstart <<< 20 + s.me.vl))
    modMe fun t =>
      let t := { t with vbegun := some s.ticks }
      if t.vstart = 0 then t else t.dirtyVec

/-- The end of a vector instruction that goes through: `vstart` is 0, the streams it read or wrote move on by `vl`, and the
active elements are counted. Vector state is dirty where it has been written: by an instruction that `writes` a register or
a mask, or by one that moved a stream (R24, R27; assumption 61). -/
def closeVec (writes mem : Bool) (os : List VOp) (active : Nat) : M Unit := do
  let s ← getS
  traceVec 1 (s.vpipe mem) (BitVec.ofNat 64 s.me.vl)
  modS (countEvent s.cur 2 active s.me.pc)
  modMe fun t =>
    let ns := t.streamsOf os ++ (t.sinkOf os).toList
    let u := { ns.foldl (fun t n => t.setBinding n ((t.binding n).pop t.vl)) t with
      vstart := 0, vbegun := none, vstop := t.vstop.filter fun v => v.pc != t.pc }
    if writes || !ns.isEmpty then u.dirtyVec else u

/-- The end of an instruction that writes a register or a mask. -/
def endVec (mem : Bool) (os : List VOp) (active : Nat) : M Unit := closeVec true mem os active

/-- The stop of a vector instruction at element `e` (R320), with `active` elements done since it last waited: `vstart` holds
`e`, its streams drop what they buffered from it on (R272), and the trap is taken. -/
def stopWith {α : Type} (stored mem : Bool) (os : List VOp) (active e cause : Nat) (addr : Word) : M α := do
  let s ← getS
  traceVec 1 (s.vpipe mem) (BitVec.ofNat 64 (1 <<< 40 + e <<< 20 + s.me.vl))
  modS (countEvent s.cur 2 active s.me.pc)
  modMe fun t =>
    let ns := t.streamsOf os
    let u := ns.foldl (fun t n => t.setBinding n ((t.binding n).dropFrom e)) t
    { u with
      vstart := e
      vbegun := none
      vstop := if ns.isEmpty && (t.sinkOf os).isNone then t.vstop else some { pc := t.pc, place := e, stored := stored }
    }.dirtyVec
  trap cause addr

/-- A stop at a source element, or at an element of a memory instruction. -/
def stopVec {α : Type} : (mem : Bool) → List VOp → (active e cause : Nat) → Word → M α := stopWith false

/-- A vector instruction that has performed the elements below `e` has to wait before it goes on at `e` (R241): it keeps
its place in `vstart`, which nothing reads before it retires or stops. -/
def pauseVec {α : Type} (active e : Nat) (k : HoldKind) : M α := do
  let s ← getS
  modS (countEvent s.cur 2 active s.me.pc)
  modMe fun t => { t with vstart := e }
  waitFor k

/-- The instruction at hand goes on where it paused or stopped; true where the elements of its destination below `vstart`
are complete, false where those of its source are (R320; assumption 49). -/
def Slot.resumed (t : Slot) : Option Bool :=
  if t.vbegun.isSome then some true
  else match t.vstop with
    | some v => if v.pc == t.pc && v.place == t.vstart && decide (0 < t.vstart) then some v.stored else none
    | none => none

/-- `vstart` is 0, as some instructions require, or is where this one stopped. -/
def Slot.fresh (t : Slot) : Bool := t.vstart == 0 || t.resumed.isSome

/-- The first destination element that an instruction whose results take elements of other indices has still to write,
where `n` of them are complete when its source elements below `vstart` are. -/
def Slot.firstLeft (t : Slot) (n : Nat) : Nat := if t.resumed = some false then n else t.vstart

/-! ## Writing destinations -/

/-- Stores element `e` of a write stream at its address, as an ordered vector store (R271), after `active` elements. -/
def sinkPut (os : List VOp) (n e v active : Nat) : M Unit := fun s =>
  match s.me.binding n with
  | .mem d x pos _ =>
    if d.total ≤ pos + e then .ok () s
    else
      match storeN (engineAgent x (coreOf s.cur) s.cur (.stream n)) d.scope (d.address (pos + e)) (d.ew / 8) v s with
      | .ok _ s' => .ok () s'
      | .error (.trap c f) s' => stopWith true false os active e c f s'
      | .error (.wait k) s' => pauseVec active e k s'
      | .error r s' => .error r s'
  | _ => .ok () s

/-- The elements from `vstart` up to a bound. -/
def elemRange (lo hi : Nat) : List Nat := (List.range (hi - lo)).map (lo + ·)

/-- How many elements from `lo` up to a bound are active. -/
def tally (active : Nat → Bool) (lo hi : Nat) : Nat := ((elemRange lo hi).filter active).length
def Slot.activeCount (t : Slot) (k : KReg) (lo d : Nat) : Nat := tally (t.kbit k) lo d

/-- How the fill of an instruction's read streams stands, when each destination element takes `ratio` source elements
(R113, R270); the stop is given as a destination element. -/
def fillState (t : Slot) (os : List VOp) (k : KReg) (ratio : Nat) : Fill :=
  let ns := t.streamsOf os
  if ns.isEmpty then .ready
  else match fillScan t ns (fun e => t.kbit k (e / ratio)) (elemRange (ratio * t.vstart) t.vl) with
    | .stop e c a => .stop (e / ratio) c a
    | f => f

/-- How the fill stands for an instruction whose results take elements of other indices: it needs every element below
`n`, and stops at a faulted one of those from `vstart` on that `active` names (R270). -/
def fillAll (t : Slot) (os : List VOp) (n : Nat) (active : Nat → Bool) : Fill :=
  let ns := t.streamsOf os
  if ns.isEmpty then .ready else fillScan t ns (fun e => decide (t.vstart ≤ e) && active e) (List.range n)

/-- Whether source element `i` of an operand can be had in spite of a stop. -/
def Slot.reaches (t : Slot) (o : VOp) (fill : Fill) (i : Nat) : Bool :=
  match fill with
  | .stop e _ _ => decide (i < e) || !(t.binding o.r.toNat).bound
  | _ => true

/-- What a loop over destination elements does: those from `lo` to `d - 1` that `act` names are written and those that
`zero` names are zeroed; those from `tail` to `dmax - 1` follow `vtype.tail`, which runs from the count of the destination
on, whatever `vstart` is (R24). A stop at `e` lets the elements below `upto e` complete. The elements that `active` names,
from `vstart` to `top - 1`, count as active. -/
structure VLoop where
  lo : Nat
  d : Nat
  tail : Nat
  dmax : Nat
  upto : Nat → Nat := id
  act : Nat → Bool
  zero : Nat → Bool := fun _ => false
  active : Nat → Bool
  top : Nat

/-- The loop of an instruction that writes `w`-bit elements of a register or of a write stream, once it is known how far
the sources are filled; `f e` gives element `e`'s value and flags in the state before the instruction. -/
def loopWith (fill : Fill) (os : List VOp) (vd : Reg) (w : Nat) (l : VLoop) (f : Nat → FRes) : M Flow := do
  let t ← getMe
  if fill = .unfilled then waitFor .stream
  let hi := match fill with | .stop e _ _ => min (l.upto e) l.d | _ => l.d
  beginVec false
  match t.sinkOf os with
  | some n =>
    forList (elemRange l.lo hi) fun e =>
      if l.act e then do
        let r := f e
        sinkPut os n e r.bits (tally l.active t.vstart e)
        modMe (·.raise r.flags)
      else pure ()
  | none =>
    modMe fun t' =>
      let t' := (elemRange l.lo hi).foldl (fun t' e =>
        if l.act e then (let r := f e; (t'.setElem vd.toNat w e r.bits).raise r.flags)
        else if l.zero e then t'.setElem vd.toNat w e 0 else t') t'
      if t.tailZero && fill = .ready then
        (elemRange l.tail l.dmax).foldl (fun t' e => t'.setElem vd.toNat w e 0) t'
      else t'
  match fill with
  | .stop e c a => stopVec false os (tally l.active t.vstart e) e c a
  | _ => do
    endVec false os (tally l.active t.vstart l.top)
    pure .next

/-- Whether element `e` is one that `maskpol` zeroes (R106). -/
def Slot.maskedToZero (t : Slot) (k : KReg) (e : Nat) : Bool := !t.kbit k e && t.maskZero

/-- The element-wise loop of R106 with `d` destination elements of at most `dmax`. -/
def Slot.plainLoop (t : Slot) (upto : Nat → Nat) (k : KReg) (d dmax : Nat) : VLoop :=
  { lo := t.vstart, d := d, tail := d, dmax := dmax, upto := upto, act := t.kbit k, zero := t.maskedToZero k
    active := t.kbit k, top := d }

def elementLoopTo (fill : Fill) (upto : Nat → Nat) (os : List VOp) (k : KReg) (vd : Reg) (w d dmax : Nat)
    (f : Nat → FRes) : M Flow := fun s => loopWith fill os vd w (s.me.plainLoop upto k d dmax) f s

/-- The loop with the fill of its own operands, `ratio` source elements to each destination element. -/
def elementLoop (os : List VOp) (k : KReg) (vd : Reg) (w d dmax ratio : Nat) (f : Nat → FRes) : M Flow := fun s =>
  elementLoopTo (fillState s.me os k ratio) id os k vd w d dmax f s

/-- The same for a mask destination (R26): `f e` gives bit `e` and the flags. A write of k0 changes nothing. -/
def maskLoop (os : List VOp) (k kd : KReg) (f : Nat → Bool × FFlags) : M Flow := do
  let t ← getMe
  let fill := fillState t os k 1
  if fill = .unfilled then waitFor .stream
  let hi := match fill with | .stop e _ _ => min e t.vl | _ => t.vl
  beginVec false
  modMe fun t' =>
    let t' := (elemRange t.vstart hi).foldl (fun t' e =>
      if t.kbit k e then (let r := f e; (t'.setKbit kd e r.1).raise r.2)
      else if t.maskZero then t'.setKbit kd e false else t') t'
    if t.tailZero && fill = .ready then (elemRange t.vl t.vlmax).foldl (fun t' e => t'.setKbit kd e false) t' else t'
  match fill with
  | .stop e c a => stopVec false os (t.activeCount k t.vstart e) e c a
  | _ => do
    closeVec (kd != 0) false os (t.activeCount k t.vstart t.vl)
    pure .next

/-! ## Words of the V formats (R38, R57 to R61) -/

/-- The V format: f5, rsz, rep, k in the f11 field. -/
def wordV (f5 : Nat) (rep : Rep) (k : KReg) (vs2 vs1 vd : Reg) (op : Nat) : IWord :=
  pack (BitVec.ofNat 5 f5 ++ (rep.rsz ++ (rep.repBit ++ k))) vs2 vs1 vd (BitVec.ofNat 6 op)
/-- The VM format: f5, mode, k. -/
def wordVM (f5 mode : Nat) (k : KReg) (b a d : Reg) (op : Nat) : IWord :=
  pack (BitVec.ofNat 5 f5 ++ (BitVec.ofNat 3 mode ++ k)) b a d (BitVec.ofNat 6 op)
/-- The VQ format: f6 and vs3. -/
def wordVQ (f6 : Nat) (vs3 vs2 vs1 vd : Reg) : IWord := pack (BitVec.ofNat 6 f6 ++ vs3) vs2 vs1 vd 0x2B
/-- A mask register number in a register field. -/
def kField (k : KReg) : Reg := 0#2 ++ k

end Sys2Proof.Machine
end

