-- ==== Sys2Proof/Machine/Signal.lean ====
section
/-! DEFINITION. Acquire and release of an agent, atomic actions at an address, the join counter and the arrival barrier
that instructions and engines share (R184, R188, R206, R264). -/

namespace Sys2Proof.Machine

/-- A release by an agent at a scope: dirty copies are cleaned to its level, and it waits while a write that it covers
is held (R184, R241). An agent without a core holds no copies. -/
def releaseFor (a : Agent) (sc : Scope) (uo : Bool) : M Unit := fun s =>
  match a.core with
  | none => .ok () s
  | some c =>
    let s' := cleanTo a.queue c (scopeLevel sc) uo s
    if releaseWaits (fun h => h.owner == a.seq && (if a.queue.isSome then h.isStore else h.src == a.src)) c (scopeLevel sc)
        uo s' then .error (.wait .transit) s'
    else .ok () s'

/-- An engine accesses at core scope where its operation says sequencer, and a release towards it goes as far (R175,
R189). -/
def engineScope (sc : Scope) : Scope := match sc with | .sequencer => .core | x => x

/-- An acquire by an agent at a scope. -/
def acquireFor (a : Agent) (sc : Scope) (uo : Bool) : M Unit := fun s =>
  match a.core with
  | none => .ok () s
  | some c => .ok () (refreshTo c (scopeLevel sc) uo s)

/-- Reads `n` quads of a record that lies in one page. -/
def quadsAt (a : Agent) (sc : Scope) (va : Word) (n : Nat) : M (List Word) := do
  let l ← translate a .load va
  collect (List.range n) fun i => do
    let v ← readLoc a sc (l.plus (8 * i)) 8 (va + BitVec.ofNat 64 (8 * i))
    pure (BitVec.ofNat 64 v)

/-- A read-modify-write of `n` bytes as one action; gives the old value. -/
def atomicAt (a : Agent) (sc : Scope) (va : Word) (n : Nat) (f : Nat → Option Nat) : M Nat := do
  let l ← translate a .atomic va
  rmwLoc a sc l n va f

/-- Decrements a 64-bit counter by 1 with release order; gives its new value (R166, R197, R264). -/
def decrementAt (a : Agent) (sc : Scope) (va : Word) : M Nat := do
  releaseFor a sc false
  let old ← atomicAt a sc va 8 fun v => some ((v + 2 ^ 64 - 1) % 2 ^ 64)
  pure ((old + 2 ^ 64 - 1) % 2 ^ 64)

/-- Q1 of an arrival barrier keeps its map, and expected is not 0 (R206). -/
def barrierOk (q1 : Nat) : Bool := q1 >>> 35 == 0 && decide ((q1 >>> 32) % 8 < 6) && q1 % 2 ^ 32 != 0
def barrierScope (q1 : Nat) : Scope := (Scope.ofBits (BitVec.ofNat 3 (q1 >>> 32))).getD .device

/-- Q0 after one arrival. -/
def arriveStep (expected q0 : Nat) : Nat :=
  let pending := q0 % 2 ^ 32
  let phase := q0 >>> 32
  if pending ≤ 1 then ((phase + 1) % 2 ^ 32) <<< 32 + expected else phase <<< 32 + (pending - 1)

/-- The arrive action on a barrier at `b` (R206); `bad` is raised when Q1 breaks its map. -/
def arriveAt (a : Agent) (sc : Scope) (b : Word) (bad : M Unit) : M Unit := do
  let q1 ← loadN a sc (b + 8) 8
  if barrierOk q1 then do
    let bs := barrierScope q1
    releaseFor a bs false
    let _ ← atomicAt a bs b 8 fun v => some (arriveStep (q1 % 2 ^ 32) v)
    acquireFor a bs false
  else bad

/-- An access in the background that meets an uncorrectable error in a table entry fails by it: it is not fatal to the
partition (R365). -/
def unfatal {α : Type} (m : M α) : M α := fun s =>
  match m s with
  | .error (.fatal _ v) s' => .error (.trap causeData v) s'
  | r => r

/-- Runs an action of the background and gives its stop, if it stops; what it did before stays done. -/
def attempt (m : M Unit) : M (Option Stop) := fun s =>
  match unfatal m s with
  | .ok _ s' => .ok none s'
  | .error (.wait k) s' => .error (.wait k) s'
  | .error e s' => .ok (some e) s'

/-- Runs an action and gives its value, or the cause and address of its trap. -/
def tryM {α : Type} (m : M α) : M (Except (Nat × Word) α) := fun s =>
  match m s with
  | .ok a s' => .ok (.ok a) s'
  | .error (.trap c v) s' => .ok (.error (c, v)) s'
  | .error e s' => .error e s'

/-- The same for an action in the background. -/
def tryBack {α : Type} (m : M α) : M (Except (Nat × Word) α) := tryM (unfatal m)

/-- A held access of a partition, or a line that its relocation moves, is still to be made under the old translations. -/
def midAccess (s : State) (p : PartId) : Bool :=
  (s.transit.any fun h => h.part == some p) || (s.part p).darn.any fun j => j.line.isSome

/-- Another cause than a trap of its own kind: the signal record itself is bad (failure code 2). -/
def badSignal : M Unit := trap causeAccess 0

/-- The completion signal of an engine operation (R264, R291): 0 none, 1 a join counter, 2 an arrival barrier. Gives
the failure code of R365 when it fails. -/
def signal (a : Agent) (sc : Scope) (kind : Nat) (va : Word) : M (Option Nat) := do
  let r ← attempt (if kind = 1 then (do let _ ← decrementAt a sc va) else if kind = 2 then arriveAt a sc va badSignal else pure ())
  pure (r.map fun e => match e with | .trap c _ => failureCode c | _ => 2)

end Sys2Proof.Machine
end

