-- ==== Sys2Proof/Machine/Atomic.lean ====
section
/-! DEFINITION. The scalar atomics (R51, R207). -/

namespace Sys2Proof.Machine

/-- A scalar atomic (R207): `far` says that host memory and the capacity tier support it; `f old b x` is what it writes,
with `x` the value of rd on entry; `ext` extends the old value, and `rd` none stands for no return. -/
def amo (func : Nat) (sc : Scope) (o : Order) (wd : AmoWidth) (rd rs1 rs2 : Reg) (k : AccKind) (far : Bool)
    (f : Nat → Nat → Nat → Option Nat) (ext : Nat → Nat → Word) : State → Host.Outcome State Fault Refusal :=
  run (wordAmo sc o wd func rs2 rs1 rd) do
    let s ← getS
    let n := wd.bytes
    let a := s.me.readX rs1
    let b := (s.me.readX rs2).toNat % 2 ^ (8 * n)
    let x := (s.me.readX rd).toNat % 2 ^ (8 * n)
    check (a.toNat % n == 0) causeAlignment a
    let l ← translate s.agent k a
    check (far || !farPlace l) causeAccess a
    if o.releases then releaseAt sc false
    let old ← rmwLoc s.agent sc l n a fun v => f v b x
    if o.acquires then acquireAt sc false
    setX rd (ext n old)
    pure .next

/-- The old value, sign-extended at `.w`. -/
def extSigned (n v : Nat) : Word := BitVec.ofInt 64 (sextNat (8 * n) v)
/-- The old value, zero-extended. -/
def extZero (_ v : Nat) : Word := BitVec.ofNat 64 v

/-- The place of an FP32 weight in the packed order: −0 below +0, and every NaN above +∞. -/
def weightKey (w : Nat) : Int :=
  let m : Nat := w % 2 ^ 31
  if 0x7F800000 < m then 2 ^ 32
  else if w < 2 ^ 31 then m
  else -(m : Int) - 1

/-- The packed order of `amominp`: the weight, then the edge number. -/
def packedLess (a b : Nat) : Bool :=
  let x := weightKey (a / 2 ^ 32)
  let y := weightKey (b / 2 ^ 32)
  decide (x < y) || (x == y && decide (a % 2 ^ 32 < b % 2 ^ 32))

/-- The lesser, or the greater, of two numbers in an order; the first when they are equal. -/
def pick (less : Nat → Nat → Bool) (a b : Nat) : Nat := if less b a then b else a

/-- Signed order at a width. -/
def sless (n a b : Nat) : Bool := decide (sextNat (8 * n) a < sextNat (8 * n) b)
def uless (a b : Nat) : Bool := decide (a < b)

/-- `amoswap` (R207). -/
def execAmoswap (sc : Scope) (o : Order) (wd : AmoWidth) (rd rs1 rs2 : Reg) (s : State) : Host.Outcome State Fault Refusal :=
  amo 0 sc o wd rd rs1 rs2 .atomic true (fun _ b _ => some b) extSigned s
/-- `amoadd` (R207). -/
def execAmoadd (sc : Scope) (o : Order) (wd : AmoWidth) (rd rs1 rs2 : Reg) (s : State) : Host.Outcome State Fault Refusal :=
  amo 1 sc o wd rd rs1 rs2 .atomic true (fun v b _ => some ((v + b) % 2 ^ (8 * wd.bytes))) extSigned s
/-- `amoand` (R207). -/
def execAmoand (sc : Scope) (o : Order) (wd : AmoWidth) (rd rs1 rs2 : Reg) (s : State) : Host.Outcome State Fault Refusal :=
  amo 2 sc o wd rd rs1 rs2 .atomic false (fun v b _ => some (v &&& b)) extSigned s
/-- `amoor` (R207). -/
def execAmoor (sc : Scope) (o : Order) (wd : AmoWidth) (rd rs1 rs2 : Reg) (s : State) : Host.Outcome State Fault Refusal :=
  amo 3 sc o wd rd rs1 rs2 .atomic false (fun v b _ => some (v ||| b)) extSigned s
/-- `amoxor` (R207). -/
def execAmoxor (sc : Scope) (o : Order) (wd : AmoWidth) (rd rs1 rs2 : Reg) (s : State) : Host.Outcome State Fault Refusal :=
  amo 4 sc o wd rd rs1 rs2 .atomic false (fun v b _ => some (v ^^^ b)) extSigned s
/-- `amomin` (R207). -/
def execAmomin (sc : Scope) (o : Order) (wd : AmoWidth) (rd rs1 rs2 : Reg) (s : State) : Host.Outcome State Fault Refusal :=
  amo 5 sc o wd rd rs1 rs2 .atomic false (fun v b _ => some (pick (sless wd.bytes) v b)) extSigned s
/-- `amomax` (R207). -/
def execAmomax (sc : Scope) (o : Order) (wd : AmoWidth) (rd rs1 rs2 : Reg) (s : State) : Host.Outcome State Fault Refusal :=
  amo 6 sc o wd rd rs1 rs2 .atomic false (fun v b _ => some (pick (fun x y => sless wd.bytes y x) v b)) extSigned s
/-- `amominu` (R207). -/
def execAmominu (sc : Scope) (o : Order) (wd : AmoWidth) (rd rs1 rs2 : Reg) (s : State) : Host.Outcome State Fault Refusal :=
  amo 7 sc o wd rd rs1 rs2 .atomic false (fun v b _ => some (pick uless v b)) extSigned s
/-- `amomaxu` (R207). -/
def execAmomaxu (sc : Scope) (o : Order) (wd : AmoWidth) (rd rs1 rs2 : Reg) (s : State) : Host.Outcome State Fault Refusal :=
  amo 8 sc o wd rd rs1 rs2 .atomic false (fun v b _ => some (pick (fun x y => uless y x) v b)) extSigned s
/-- `amofadd` (R207). -/
def execAmofadd (sc : Scope) (o : Order) (wd : AmoWidth) (rd rs1 rs2 : Reg) (s : State) : Host.Outcome State Fault Refusal :=
  amo 9 sc o wd rd rs1 rs2 .atomic false (fun v b _ => some (let f := (match wd with | .w => fp32 | .d => fp64); (f.add .rne false (f.decode false v) (f.decode false b)).bits)) extZero s
/-- `amocas` (R207). -/
def execAmocas (sc : Scope) (o : Order) (wd : AmoWidth) (rd rs1 rs2 : Reg) (s : State) : Host.Outcome State Fault Refusal :=
  amo 10 sc o wd rd rs1 rs2 .atomic true (fun v b x => if v = x then some b else none) extSigned s
/-- `amold` (R207). -/
def execAmold (sc : Scope) (o : Order) (wd : AmoWidth) (rd rs1 : Reg) (s : State) : Host.Outcome State Fault Refusal :=
  amo 11 sc o wd rd rs1 0 .atomicLoad true (fun _ _ _ => none) extSigned s
/-- `amost` (R207). -/
def execAmost (sc : Scope) (o : Order) (wd : AmoWidth) (rs1 rs2 : Reg) (s : State) : Host.Outcome State Fault Refusal :=
  amo 12 sc o wd 0 rs1 rs2 .atomic true (fun _ b _ => some b) extSigned s
/-- `amominp` (R207). -/
def execAmominp (sc : Scope) (o : Order) (rd rs1 rs2 : Reg) (s : State) : Host.Outcome State Fault Refusal :=
  amo 13 sc o .d rd rs1 rs2 .atomic false (fun v b _ => some (pick packedLess v b)) extSigned s

end Sys2Proof.Machine
end

