-- ==== Sys2Proof/Machine/Branch.lean ====
section
/-! DEFINITION. Branches, jumps, the strip branch and hardware loops (R88 to R93). -/

namespace Sys2Proof.Machine

/-- A branch on a condition bit (R88). -/
def branchIf (sense : Bool) (n : CBit) (off : BitVec 21) (s : State) : Host.Outcome State Fault Refusal :=
  if s.me.readC n = sense then .next (retire (.goto (target s.me.pc off) true) (turnsOver s s))
  else .next (retire .next (turnsOver s s))

/-- `bt` (R88). -/
def execBt (n : CBit) (off : BitVec 21) (s : State) : Host.Outcome State Fault Refusal := branchIf true n off s
/-- `bf` (R88). -/
def execBf (n : CBit) (off : BitVec 21) (s : State) : Host.Outcome State Fault Refusal := branchIf false n off s

/-- The strip-progress table after a pass of the `bs` at `pc` with count `n`: the entry used last stands first, and the
least recently used of four is dropped; none when this is the second pass without a decrease (R90). -/
def stripPass (l : List SptEntry) (pc n : Word) : Option (List SptEntry) :=
  let rest := l.filter fun e => e.addr != pc
  match l.find? fun e => e.addr == pc with
  | none => some ({ addr := pc, count := n, strikes := 0 } :: l.take 3)
  | some e =>
    if n.toNat < e.count.toNat then some ({ e with count := n, strikes := 0 } :: rest)
    else if e.strikes + 1 = 2 then none
    else some ({ e with strikes := e.strikes + 1 } :: rest)

/-- `bs` (R90). -/
def execBs (off : BitVec 21) (s : State) : Host.Outcome State Fault Refusal :=
  run (wordOff off 15 0x0B) (do
    let t ← getMe
    if t.readC 7 then
      match stripPass t.spt t.pc t.captured with
      | none => trap causeNoProgress t.setvlAddr
      | some l => do
        modMe fun t => { t with spt := l }
        pure (.goto (target t.pc off) true)
    else do
      modMe fun t => { t with spt := t.spt.filter fun e => e.addr != t.pc }
      pure .next) s

/-- `jal` (R89): a call, with rd other than x0, pops nothing (R93). -/
def execJal (rd : Reg) (imm : BitVec 21) (s : State) : Host.Outcome State Fault Refusal :=
  .next (retire (.goto (target s.me.pc imm) (rd == 0)) (turnsOver s (mapMe (fun t => t.writeX rd (t.pc + 4)) s)))

/-- `jalr` (R89). -/
def execJalr (rd rs1 : Reg) (imm : BitVec 16) (s : State) : Host.Outcome State Fault Refusal :=
  run (wordI imm rs1 rd 0x0D) (do
    let t ← getMe
    let a := t.readX rs1 + simm imm
    check (a.extractLsb' 0 2 == 0) causeMisaligned a
    modMe fun t => t.writeX rd (t.pc + 4)
    pure (.goto a (rd == 0))) s

/-- A hardware loop with count `n` and the end 4 × `endOff` further on (R91). -/
def enterLoop (n : Nat) (endOff : BitVec 13) : M Flow := do
  let t ← getMe
  check (decide (n ≤ 0xFFFFFFFF)) causeOperand (BitVec.ofNat 64 n)
  let e := t.pc + zimm endOff * 4
  check (t.lpdepth == 0 || decide (e.toNat ≤ (t.level (t.lpdepth - 1)).fin.toNat)) causeOperand e
  if n = 0 then pure (.edgeAt e)
  else do
    check (decide (t.lpdepth < 6)) causeLoop t.pc
    modMe fun t => { t.setLevel t.lpdepth { beg := t.pc + 4, fin := e, cnt := BitVec.ofNat 32 (n - 1), idx := 0 } with
      lpdepth := t.lpdepth + 1 }
    pure .next

/-- `loop` (R91). -/
def execLoop (rs1 : Reg) (endOff : BitVec 13) (s : State) : Host.Outcome State Fault Refusal :=
  run (wordLoop rs1 endOff) (do
    let a ← getX rs1
    enterLoop a.toNat endOff) s

/-- `loopi` (R91). -/
def execLoopi (count : BitVec 12) (endOff : BitVec 13) (s : State) : Host.Outcome State Fault Refusal :=
  run (wordLoopi count endOff) (enterLoop count.toNat endOff) s

/-- The back-edge of R92 as a step of its own: the tests at the program counter, as the retirement of the instruction
there makes them. -/
def execLoopBackEdge (s : State) : Host.Outcome State Fault Refusal := .next (mapMe (fun t => t.edge t.pc) s)

end Sys2Proof.Machine
end

