-- ==== Sys2Proof/Machine/Compare.lean ====
section
/-! DEFINITION. Condition bits: the compares and the condition logic (R86, R87). -/

namespace Sys2Proof.Machine

/-- `cmpeq` (R86). -/
def execCmpeq (n : CBit) (rs1 rs2 : Reg) (s : State) : Host.Outcome State Fault Refusal :=
  cmp2 n rs1 rs2 (fun a b => a == b) s
/-- `cmpne` (R86). -/
def execCmpne (n : CBit) (rs1 rs2 : Reg) (s : State) : Host.Outcome State Fault Refusal :=
  cmp2 n rs1 rs2 (fun a b => a != b) s
/-- `cmplt` (R86). -/
def execCmplt (n : CBit) (rs1 rs2 : Reg) (s : State) : Host.Outcome State Fault Refusal :=
  cmp2 n rs1 rs2 (fun a b => decide (a.toInt < b.toInt)) s
/-- `cmpge` (R86). -/
def execCmpge (n : CBit) (rs1 rs2 : Reg) (s : State) : Host.Outcome State Fault Refusal :=
  cmp2 n rs1 rs2 (fun a b => decide (b.toInt ≤ a.toInt)) s
/-- `cmpltu` (R86). -/
def execCmpltu (n : CBit) (rs1 rs2 : Reg) (s : State) : Host.Outcome State Fault Refusal :=
  cmp2 n rs1 rs2 (fun a b => decide (a.toNat < b.toNat)) s
/-- `cmpgeu` (R86). -/
def execCmpgeu (n : CBit) (rs1 rs2 : Reg) (s : State) : Host.Outcome State Fault Refusal :=
  cmp2 n rs1 rs2 (fun a b => decide (b.toNat ≤ a.toNat)) s
/-- `cmpeqi` (R86). -/
def execCmpeqi (n : CBit) (rs1 : Reg) (imm : BitVec 16) (s : State) : Host.Outcome State Fault Refusal :=
  cmp1 n rs1 (fun a => a == simm imm) s
/-- `cmpnei` (R86). -/
def execCmpnei (n : CBit) (rs1 : Reg) (imm : BitVec 16) (s : State) : Host.Outcome State Fault Refusal :=
  cmp1 n rs1 (fun a => a != simm imm) s
/-- `cmplti` (R86). -/
def execCmplti (n : CBit) (rs1 : Reg) (imm : BitVec 16) (s : State) : Host.Outcome State Fault Refusal :=
  cmp1 n rs1 (fun a => decide (a.toInt < imm.toInt)) s
/-- `cmpgei` (R86). -/
def execCmpgei (n : CBit) (rs1 : Reg) (imm : BitVec 16) (s : State) : Host.Outcome State Fault Refusal :=
  cmp1 n rs1 (fun a => decide (imm.toInt ≤ a.toInt)) s
/-- `cmpltui` (R86). -/
def execCmpltui (n : CBit) (rs1 : Reg) (imm : BitVec 16) (s : State) : Host.Outcome State Fault Refusal :=
  cmp1 n rs1 (fun a => decide (a.toNat < imm.toNat)) s
/-- `cmpgeui` (R86). -/
def execCmpgeui (n : CBit) (rs1 : Reg) (imm : BitVec 16) (s : State) : Host.Outcome State Fault Refusal :=
  cmp1 n rs1 (fun a => decide (imm.toNat ≤ a.toNat)) s
/-- `cmpgti` (R86). -/
def execCmpgti (n : CBit) (rs1 : Reg) (imm : BitVec 16) (s : State) : Host.Outcome State Fault Refusal :=
  cmp1 n rs1 (fun a => decide (imm.toInt < a.toInt)) s
/-- `cmplei` (R86). -/
def execCmplei (n : CBit) (rs1 : Reg) (imm : BitVec 16) (s : State) : Host.Outcome State Fault Refusal :=
  cmp1 n rs1 (fun a => decide (a.toInt ≤ imm.toInt)) s
/-- `cand` (R87). -/
def execCand (d a b : CBit) (s : State) : Host.Outcome State Fault Refusal :=
  cond2 d a b (fun x y => x && y) s
/-- `cor` (R87). -/
def execCor (d a b : CBit) (s : State) : Host.Outcome State Fault Refusal :=
  cond2 d a b (fun x y => x || y) s
/-- `cxor` (R87). -/
def execCxor (d a b : CBit) (s : State) : Host.Outcome State Fault Refusal :=
  cond2 d a b (fun x y => x != y) s
/-- `candn` (R87). -/
def execCandn (d a b : CBit) (s : State) : Host.Outcome State Fault Refusal :=
  cond2 d a b (fun x y => x && !y) s
/-- `cget` (R87). -/
def execCget (rd : Reg) (a : CBit) (s : State) : Host.Outcome State Fault Refusal :=
  simple (fun t => t.writeX rd (if t.readC a then 1 else 0)) s

end Sys2Proof.Machine
end

