-- ==== Sys2Proof/Machine/KvTable.lean ====
section
/-! DEFINITION. KV descriptors, sequence tables, and the binding of a chain (R296 to R299, R305, R306, R310). -/

namespace Sys2Proof.Machine

/-- The eight quads of a descriptor that an instruction of the running sequencer reads at a physical address, at device
scope: the address stands for a virtual one in the traps of R237 and R242. -/
def descQuads (d : Nat) : M (List Word) := do
  modS fun s => settleLine s.agent d 64 s
  let s ← getS
  collect (List.range 8) fun i => homeQuad s.agent.writer (d + 8 * i) (BitVec.ofNat 64 (d + 8 * i))

/-- A KV descriptor keeps its map (R297). -/
def kvDescOk (q : List Word) : Bool :=
  let v (i : Nat) := (q.getD i 0).toNat
  v 5 >>> 32 == 0 && v 2 >>> 20 == 0 && v 2 != 0 && v 1 % 32768 == 0 && v 0 % 4096 == 0 && v 4 % 64 == 0

/-- A heat descriptor keeps its map (R233). -/
def heatDescOk (q : List Word) : Bool :=
  let v (i : Nat) := (q.getD i 0).toNat
  (List.range 5).all (fun i => v (i + 3) == 0) && v 0 % 64 == 0 && decide (v 0 < hbmTop)

/-- A register that names a descriptor takes a value: with bit 0 set the descriptor is read, and refused when it breaks its
map (R233, R296). -/
def checkDesc (v : Word) (ok : List Word → Bool) : M Unit := do
  let d := Word.field v 6 46 * 64
  if v.getLsbD 0 then
    check (decide (d < hbmTop)) causeOperand (BitVec.ofNat 64 d)
    let q ← descQuads d
    check (ok q) causeOperand (BitVec.ofNat 64 d)

/-- A sequence table (R299). -/
structure SeqTable where
  len : Nat
  nlh : Nat
  phase : Nat
  scaled : Bool
  hd : Nat
  fmt : Nat
  decay : Nat
  theta : Nat
  evictions : Nat
  window : Nat
  sinks : Nat
  link : Word
  deriving DecidableEq, Repr

/-- Bytes of an element (R295). -/
def SeqTable.bytes (t : SeqTable) : Nat := if t.fmt ≤ 2 then 2 else 1
/-- Bytes of a token's row. -/
def SeqTable.rowBytes (t : SeqTable) : Nat := t.hd * t.bytes
/-- Slots of a frame. -/
def SeqTable.slots (t : SeqTable) : Nat := 16384 / t.rowBytes

/-- A finite FP32 that is not negative; −0 counts as 0. -/
def f32NonNeg (v : Nat) : Bool := decide (v < 0x7F800000) || v == 0x80000000

/-- The table that eight quads hold, when they keep the map of R299 and the geometry of R295. -/
def tableOf (q : List Word) : Option SeqTable :=
  match q with
  | [q0, q1, q2, q3, q4, q5, q6, q7] =>
    let hdc := Word.field q3 24 3
    let t : SeqTable :=
      { len := Word.field q0 0 32, nlh := Word.field q3 0 13, phase := Word.field q3 28 2, scaled := q3.getLsbD 27
        hd := 32 * 2 ^ hdc, fmt := Word.field q3 20 4, decay := Word.field q2 32 32, theta := Word.field q2 0 32
        evictions := Word.field q1 32 16, window := Word.field q1 16 16, sinks := Word.field q1 0 16, link := q4 }
    if q5 = 0 ∧ q6 = 0 ∧ q7 = 0 ∧ Word.field q0 32 32 = 0 ∧ Word.field q1 48 16 = 0 ∧ Word.field q3 30 34 = 0
        ∧ Word.field q3 13 7 = 0 ∧ Word.field q4 0 6 = 0 ∧ t.phase ≠ 3 ∧ hdc < 4 ∧ 1 ≤ t.fmt ∧ t.fmt ≤ 4
        ∧ (t.scaled = false ∨ 3 ≤ t.fmt) ∧ 1 ≤ t.nlh ∧ t.nlh ≤ 4096 ∧ f32NonNeg t.theta ∧ f32NonNeg t.decay
        ∧ (t.decay ≤ 0x3F800000 ∨ t.decay = 0x80000000) ∧ 32 ≤ t.slots ∧ t.slots ≤ 256
    then some t else none
  | _ => none

/-- Reads a sequence table at device scope. -/
def readTable (a : Agent) (t : Word) : M (Option SeqTable) := do
  let q ← quadsAt a .device t 8
  pure (tableOf q)

/-- Address of the head page of entry `i`; the tail page is 8 bytes on (R299). -/
def entryAddr (t : Word) (i : Nat) : Word := t + BitVec.ofNat 64 (64 + 16 * i)

/-- The instructions of R301 need `kvmbase.en` (R296). -/
def guardKv : M Unit := fun s => check (s.me.kvmbase.getLsbD 0) causeOperand 0 s

/-- The header of a frame's metadata record (R298): next page, used, pos0. -/
structure FrameHead where
  next : Word
  used : Nat
  pos0 : Nat
  deriving DecidableEq, Repr

/-- The header that eight quads hold, when its reserved fields are 0 (R13, R298; assumption 72). -/
def headOf (q : List Word) : Option FrameHead :=
  let q1 := q.getD 1 0
  if Word.field q1 9 5 = 0 ∧ (elemRange 3 8).all (fun i => q.getD i 0 == 0) then
    some { next := q.getD 0 0, used := Word.field q1 0 9, pos0 := Word.field (q.getD 2 0) 0 32 }
  else none

/-- Reads the header of a frame; one that breaks its map is refused with an illegal-operand trap for `bad`. -/
def readHead (a : Agent) (kvm : Word) (k : Nat) (bad : Word) : M FrameHead := fun s =>
  match quadsAt a .device (kvRecord s kvm k) 8 s with
  | .ok q s' => match headOf q with
    | some h => .ok h s'
    | none => .error (.trap causeOperand bad) s'
  | .error e s' => .error e s'

/-- The bytes of a part of a token, or the fault that its reads meet. -/
def tokenBytes (a : Agent) (base : Word) (n : Nat) : M (Except (Nat × Word) (List Byte)) := fun s =>
  match collect (List.range n) (fun i => loadN a .device (base + BitVec.ofNat 64 i) 1) s with
  | .ok l s' => .ok (.ok (l.map (BitVec.ofNat 8))) s'
  | .error (.trap c v) s' => .ok (.error (c, v)) s'
  | .error e s' => .error e s'

/-- Scale bytes that cannot be read (assumption 28). -/
def unreadScales (v : Word) (n : Nat) : List Byte := (List.range n).map fun i => BitVec.ofNat 8 (Config.faultedElement v (i + 1))

/-- A token whose position cannot be read: the fault is deferred to its first element. -/
def unreadToken (b : KvBinding) (page : Word) (frame slot cause : Nat) (v : Word) : Token :=
  { page := page, frame := frame, slot := slot, pos := Config.faultedElement v 0 % 2 ^ 32, row := []
    scales := unreadScales v (if b.scaled then b.hd / 32 else 0), fault := some (cause, v) }

/-- A token of a chain, as the prefetcher `a` reads it (R306): its position, its row, its scale bytes. None at the limit.
A fault met at one of them is deferred to the token's first element. -/
def readToken (a : Agent) (b : KvBinding) (kvm page : Word) (slot : Nat) : M (Option Token) := fun s =>
  let k := (page - kvVa s kvm).toNat / 32768
  let rec' := kvRecord s kvm k
  match loadN a .device (rec' + BitVec.ofNat 64 (64 + 4 * slot)) 4 s with
  | .error (.trap c v) s' => .ok (some (unreadToken b page k slot c v)) s'
  | .error e s' => .error e s'
  | .ok pos s1 =>
    if b.limit ≤ pos then .ok none s1
    else
      let more : M (Option Token) := do
        let rb := b.hd * (b.ew / 8)
        let row ← tokenBytes a (page + BitVec.ofNat 64 ((if b.vSide then 16384 else 0) + slot * rb)) rb
        let n := if b.scaled then b.hd / 32 else 0
        let sc ← tokenBytes a (rec' + BitVec.ofNat 64 ((if b.vSide then 2624 else 2112) + slot * n)) n
        let tok : Token :=
          { page := page, frame := k, slot := slot, pos := pos
            row := match row with | .ok l => l | .error _ => []
            scales := match sc with | .ok l => l | .error f => unreadScales f.2 n
            fault := match row, sc with | .error f, _ => some f | _, .error f => some f | _, _ => none }
        pure (some tok)
      more s1

/-- What the prefetcher finds on its way to the next token (R306). -/
inductive Seek where
  /-- A slot below the used count of a page. -/
  | token (page : Word) (slot : Nat)
  /-- The end of the chain. -/
  | theEnd
  /-- More pages than it may read ahead. -/
  | far
  /-- A fault at a page's header. -/
  | fault (page : Word) (slot cause : Nat) (addr : Word)
  deriving DecidableEq, Repr

/-- Follows links from a slot of a page over those whose slots are all passed, at most `n` pages. -/
def seekToken (a : Agent) (kvm : Word) : Nat → Word → Nat → M Seek
  | n, page, slot => fun s =>
    if page = 0 then .ok .theEnd s
    else
      let k := (page - kvVa s kvm).toNat / 32768
      match readHead a kvm k (kvRecord s kvm k) s with
      | .error (.trap c v) s' => .ok (.fault page slot c v) s'
      | .error e s' => .error e s'
      | .ok h s' =>
        if slot < h.used then .ok (.token page slot) s'
        else match n with
          | 0 => .ok .far s'
          | n + 1 => seekToken a kvm n h.next 0 s'

/-- The slot after the tokens fetched ahead. -/
def KvBinding.position (b : KvBinding) : Word × Nat :=
  match b.ahead.getLast? with
  | some t => (t.page, t.slot + 1)
  | none => (b.page, b.slot)

/-- How many pages the prefetcher may go on: up to four ahead of the page of the next undelivered token. It finds that page
however far it is, and goes on for an instruction that waits for its tokens (assumption 83); a partition has fewer than
2^20 frames (R297). -/
def KvBinding.reach (b : KvBinding) (wanted : Bool) : Nat :=
  if wanted || b.ahead.isEmpty then 1048576 else 4 - ((b.ahead.map (·.page)).eraseDups.length - 1)

/-- The prefetcher `a` reads one token further (R306). -/
def fetchToken (a : Agent) (wanted : Bool) (b : KvBinding) (kvm : Word) : M KvBinding := fun s =>
  if b.ended ∨ (b.ahead.any fun t => t.fault.isSome) then .ok b s
  else match seekToken a kvm (b.reach wanted) b.position.1 b.position.2 s with
    | .error e s' => .error e s'
    | .ok .theEnd s' => .ok { b with ended := true } s'
    | .ok .far s' => .ok b s'
    | .ok (.fault page slot c v) s' =>
      .ok { b with ahead := b.ahead ++ [unreadToken b page ((page - kvVa s kvm).toNat / 32768) slot c v] } s'
    | .ok (.token page slot) s' => match readToken a b kvm page slot s' with
      | .ok (some t) s'' => .ok { b with ahead := b.ahead ++ [t] } s''
      | .ok none s'' => .ok { b with ended := true } s''
      | .error e s'' => .error e s''

/-- Where the next token of a binding stands (R310): that of a token fetched ahead, or the one that the links lead to. -/
def nextPlace (a : Agent) (b : KvBinding) (kvm : Word) : M (Word × Nat) :=
  match b.ahead.head? with
  | some t => pure (t.page, t.slot)
  | none =>
    if b.ended then pure (b.page, b.slot)
    else do
      match ← seekToken a kvm 1048576 b.page b.slot with
      | .token page slot => pure (page, slot)
      | .fault page slot _ _ => pure (page, slot)
      | _ => pure (b.page, b.slot)

/-- A binding of a chain, at its start. -/
def newKvBinding (t : Word) (tab : SeqTable) (vSide : Bool) (limit : Nat) (page : Word) (slot phase : Nat) : KvBinding :=
  { table := t, vSide := vSide, limit := limit, delivered := 0, page := page, slot := slot, phase := phase
    hd := tab.hd, ew := 8 * tab.bytes, scaled := tab.scaled, ahead := [], ended := false, lastPop := [] }

end Sys2Proof.Machine
end

