-- ==== Sys2Proof/Machine/Streams.lean ====
section
/-! DEFINITION. Stream registers: descriptors, binding, filling and unbinding (R191, R227, R267 to R274). -/

namespace Sys2Proof.Machine

/-- The stream that sixteen quads at `d` describe, when they keep the map of R267. -/
def streamDescOf (d : Word) (q : List Word) : Option StreamDesc :=
  let q1 := q.getD 1 0
  let nd := Word.field q1 3 3 + 1
  let ew := 8 * 2 ^ Word.field q1 1 2
  let cnt (i : Nat) := Word.field (q.getD (2 + i / 4) 0) (16 * (i % 4)) 16
  let str (i : Nat) := q.getD (4 + i) 0
  let used := List.range nd
  let rest := elemRange nd 8
  let total := (used.map cnt).foldl (· * ·) 1
  if (elemRange 12 16).all (fun i => q.getD i 0 == 0) ∧ Word.field q1 9 55 = 0 ∧ Word.field q1 6 3 < 6
      ∧ used.all (fun i => cnt i != 0) ∧ rest.all (fun i => cnt i == 0 && str i == 0) ∧ total ≤ 2 ^ 40
      ∧ ((q.getD 0 0) :: used.map str).all (fun v => v.toNat % (ew / 8) == 0)
  then some { addr := d, base := q.getD 0 0, dims := used.map fun i => (cnt i, str i), total := total, ew := ew
              scope := (Scope.ofBits (q1.extractLsb' 6 3)).getD .device, write := q1.getLsbD 0 }
  else none

/-- The bits of a register are all 0. -/
def Slot.zeroReg (t : Slot) (n : Nat) : Slot :=
  { t with lanes := t.lanes.map fun b => b &&& ~~~(BitVec.ofNat 32768 (2 ^ t.slice - 1) <<< (n * t.slice)) }

/-- `sbind` without its effect on `vstate` (R268, R274). -/
def bindStream (n : Nat) (d : Word) : M Unit := do
  let s ← getS
  check (s.me.valloc == 32 && !(s.me.binding n).bound) causeOperand (BitVec.ofNat 64 n)
  check (d.toNat % 128 == 0) causeAlignment d
  let q ← quadsAt s.agent .sequencer d 16
  match streamDescOf d q with
  | none => trap causeOperand d
  | some desc => do
    releaseFor s.agent (engineScope desc.scope) false
    modMe fun t => (t.zeroReg n).setBinding n (.mem desc t.ctx 0 [])

/-- Writes of a stream that have not performed are discarded (R274); what stood behind them performs. -/
def dropStream (q : SeqId) (n : Nat) (s : State) : State :=
  let mine (h : HeldAccess) : Bool := h.owner == some q && h.src == .stream n
  (s.transit.filter mine).foldl (fun s h => if markOf s (h.addr / 64) = some .transit then s else drain (h.addr / 64) s)
    { s with transit := s.transit.filter fun h => !mine h }

/-- Ends a binding: its writes that have not performed are discarded, and a KV binding is unregistered (R273, R274,
R305). -/
def unbindStream (n : Nat) : M Unit := do
  let t ← getMe
  match t.binding n with
  | .unbound => pure ()
  | .kv b _ kvm => do
    countMine kvm b.phase (-1)
    modMe fun t => (t.zeroReg n).setBinding n .unbound
  | .mem .. => do
    modS fun s => dropStream s.cur n s
    modMe fun t => (t.zeroReg n).setBinding n .unbound

/-- Ends every binding of the running thread. -/
def unbindAll : M Unit := forList (elemRange 24 32) unbindStream

/-- The transfer unit of a register as an agent (R174, R227). -/
def streamAgent (x : Ctx) (q : SeqId) (n : Nat) : Agent := engineAgent x (coreOf q) q (.stream n)

/-- Fills the next element of the binding of register `n`, or its next token (R270, R306): up to 32 KiB ahead. -/
def fillNext (q : SeqId) (n : Nat) (wanted : Bool) : Binding → M Binding
  | .mem d x pos buf => fun s =>
    if d.write ∨ d.total ≤ pos + buf.length ∨ 32768 ≤ (buf.length + 1) * (d.ew / 8) then .ok (.mem d x pos buf) s
    else
      let va := d.address (pos + buf.length)
      match loadN (streamAgent x q n) (engineScope d.scope) va (d.ew / 8) s with
      | .ok v s' => .ok (.mem d x pos (buf ++ [.inl v])) s'
      | .error (.trap c f) s' => .ok (.mem d x pos (buf ++ [.inr (c, f)])) s'
      | .error e s' => .error e s'
  | .kv b x kvm => do
    let b' ← fetchToken ((streamAgent x q n).atS x) wanted b kvm
    pure (.kv b' x kvm)
  | .unbound => pure .unbound

/-- An instruction of the slot waits for elements of its streams: one that stopped on a stream has resumed. -/
def Slot.wantsFill (t : Slot) : Bool :=
  match t.waiting with
  | some h => h.kind == .stream
  | none => false

/-- The transfer units of a sequencer fetch one element, or token, further for each bound read stream; one on which an
instruction stopped is fetched again when the instruction resumes (R272). -/
def fillStreams (q : SeqId) : M Unit :=
  forList (elemRange 24 32) fun n => do
    let s ← getS
    match (s.slot q).binding n with
    | .unbound => pure ()
    | b =>
      if b.held && !(s.slot q).wantsFill then pure ()
      else do
        let b' ← fillNext q n (s.slot q).wantsFill b.resume
        modS (mapSlot q fun t => t.setBinding n b')

end Sys2Proof.Machine
end

