-- ==== Sys2Proof/Machine/VMemOps.lean ====
section
/-! DEFINITION. What the vector loads, stores and atomics share: the pieces of an element, the pass that finds the
stopping element, and the passes that perform (R64, R120 to R123, R127). Every translation of an instruction comes
before its first effect; one that has to wait later keeps its place in `vstart`. -/

namespace Sys2Proof.Machine

/-- The part of an element that one access covers: `n` bytes at an address, of which `bits` bits from `shift` up hold
the element's bits from `off` up (R64). -/
structure Piece where
  addr : Word
  n : Nat
  shift : Nat := 0
  bits : Nat
  off : Nat := 0
  deriving DecidableEq, Repr

/-- The pieces of element `e` of `w` bits: at its own address, or packed from a base. An access to a 6-bit element touches
the three bytes of its group; a piece of no bits is only touched (R64; assumption 57). -/
def piecesOf (base : Word) (w e : Nat) (a : Word) : List Piece :=
  if w = 4 then [{ addr := base + BitVec.ofNat 64 (e / 2), n := 1, shift := 4 * (e % 2), bits := 4 }]
  else if w = 6 then
    (List.range 3).map fun b =>
      let lo := max (6 * (e % 4)) (8 * b)
      let hi := min (6 * (e % 4) + 6) (8 * b + 8)
      { addr := base + BitVec.ofNat 64 (3 * (e / 4) + b), n := 1, shift := lo - 8 * b, bits := hi - lo
        off := lo - 6 * (e % 4) }
  else [{ addr := a, n := w / 8, bits := w }]

/-- An element that can be performed: its index, and its pieces with the places they reach. -/
structure Planned where
  e : Nat
  parts : List (Loc × Piece)
  deriving DecidableEq, Repr

/-- Goes through a list until an action traps: the results, and the element at which it stopped. -/
def untilTrap {α β : Type} (l : List α) (f : α → M β) : M (List β × Option (α × Nat × Word)) :=
  match l with
  | [] => pure ([], none)
  | a :: r => do
    match ← tryM (f a) with
    | .error (c, v) => pure ([], some (a, c, v))
    | .ok b => do
      let (bs, stop) ← untilTrap r f
      pure (b :: bs, stop)

/-- Goes through a list until an action stops: the elements done, and where and why it stopped. -/
def untilStop {α : Type} (l : List α) (f : α → M Unit) : M (List α × Option (α × Stop)) :=
  match l with
  | [] => pure ([], none)
  | a :: r => fun s => match f a s with
    | .error e s' => .ok ([], some (a, e)) s'
    | .ok _ s' => match untilStop r f s' with
      | .ok (as, stop) s'' => .ok (a :: as, stop) s''
      | .error e s'' => .error e s''

/-- The trap that a read would take, without the read. -/
def peek (m : M (List Byte)) : M Unit := fun s =>
  match m s with
  | .error (.trap c v) _ => .error (.trap c v) s
  | _ => .ok () s

/-- A piece that does not fill its bytes. -/
def Piece.partial' (p : Piece) : Bool := p.bits != 8 * p.n

/-- The checks of one element: alignment, translation, that its lines can be reached, and, for one that reads bytes in order
to write them, that they can be read (R64, R122, R242). The value of a fault is the address of the piece that met it
(assumption 68). -/
def planElem (a : Agent) (k : AccKind) (sc : Scope) (far : Bool) (e : Nat) (ps : List Piece) : M Planned := do
  let parts ← collect ps fun p => do
    check (p.addr.toNat % p.n == 0) causeAlignment p.addr
    let l ← translate a k p.addr
    check (far || !farPlace l) causeAccess p.addr
    canWrite l p.addr
    if k = .atomic ∨ (k = .store ∧ p.partial' = true) then peek (readBytes a sc l p.n p.addr)
    pure (l, p)
  pure { e := e, parts := parts }

/-- The elements that can be performed, up to the first active one that cannot. -/
def plan (k : AccKind) (sc : Scope) (far : Bool) (es : List (Nat × List Piece)) :
    M (List Planned × Option (Nat × Nat × Word)) := do
  let s ← getS
  let (ok, stop) ← untilTrap es fun e => planElem s.vagent k sc far e.1 e.2
  pure (ok, stop.map fun x => (x.1.1, x.2))

/-- The value of a planned element. -/
def readPlanned (sc : Scope) (x : Planned) : M Nat := do
  let s ← getS
  let vs ← collect x.parts fun p => do
    let v ← readLoc s.vagent sc p.1 p.2.n p.2.addr
    pure (((v >>> p.2.shift) % 2 ^ p.2.bits) <<< p.2.off)
  pure vs.sum

/-- A number with some of its bits replaced. -/
def replaceBits (old shift bits v : Nat) : Nat :=
  old - (((old >>> shift) % 2 ^ bits) <<< shift) + ((v % 2 ^ bits) <<< shift)

/-- Writes a planned element: a piece that fills its bytes is a store, any other that has bits a read-modify-write
(R64). -/
def writePlanned (sc : Scope) (v : Nat) (x : Planned) : M Unit :=
  forList x.parts fun p => do
    let s ← getS
    let b := (v >>> p.2.off) % 2 ^ p.2.bits
    if p.2.partial' = false then writeLoc s.vagent sc p.1 p.2.n b p.2.addr
    else if p.2.bits = 0 then pure ()
    else do
      let _ ← rmwLoc s.vagent sc p.1 p.2.n p.2.addr fun old => some (replaceBits old p.2.shift p.2.bits b)

/-- A list sorted by a key, equal keys in their order. -/
def sortByKey {α : Type} (key : α → Nat) (l : List α) : List α := l.foldl (fun r a => ins a r) []
where
  ins (a : α) : List α → List α
    | [] => [a]
    | b :: r => if key a < key b then a :: b :: r else b :: ins a r

/-- The order in which the elements of a store perform (R123): index order, but free for the unordered mode and for
elements on UO pages alone (assumption 10). An element of two pages of different kinds has its parts in address order
(R180). -/
def storeOrder (s : State) (unordered : Bool) (xs : List Planned) : List Planned :=
  let loose (x : Planned) := unordered || x.parts.all fun p => p.1.ord == 2
  sortByKey (fun x => s.free .storeOrder x.e) (xs.filter loose) ++ xs.filter fun x => !loose x

/-- Planned bytes of one access, page by page from the lowest address up (R180). -/
def pageOrder (s : State) (xs : List Planned) : List Planned :=
  let page (x : Planned) : Nat := match x.parts.head? with | some p => p.2.addr.toNat / 32768 | none => 0
  ((xs.map page).eraseDups.map fun g => storeOrder s false (xs.filter fun x => page x == g)).flatten

/-- The elements that an instruction accesses. -/
def Slot.activeElems (t : Slot) (k : KReg) : List Nat := (elemRange t.vstart t.vl).filter (t.kbit k)

/-- Counts the heat of performed elements (R233). -/
def heatOf (k : HeatKind) (xs : List Planned) : M Unit :=
  modS fun s => xs.foldl (fun s x => match x.parts.head? with | some p => countHeat k p.1 s | none => s) s

/-- The addresses of a vector memory instruction (R120). -/
inductive VAddr where
  | unit
  | strided (stride : Word)
  /-- Offsets of a width from a register. -/
  | indexed (r : Reg) (w : Nat)
  deriving DecidableEq, Repr

def VAddr.heat : VAddr → HeatKind
  | .unit => .unit
  | .strided _ => .strided
  | .indexed _ _ => .indexed

/-- A(e) (R120). -/
def VAddr.addr (m : VAddr) (t : Slot) (base : Word) (w e : Nat) : Word :=
  match m with
  | .unit => base + BitVec.ofNat 64 (e * w / 8)
  | .strided st => base + BitVec.ofNat 64 e * st
  | .indexed r iw => base + BitVec.ofInt 64 (sextNat iw (t.elem r.toNat iw e))

/-- The active elements with their pieces. -/
def elemPieces (t : Slot) (k : KReg) (m : VAddr) (base : Word) (w : Nat) : List (Nat × List Piece) :=
  (t.activeElems k).map fun e => (e, piecesOf base w e (m.addr t base w e))

/-- The index width of a code (R61). -/
def idxBits (ew : Nat) : IdxWidth → Nat
  | .data => ew
  | .x32 => 32
  | .x64 => 64

/-- The operand rules of R121 that hold for loads, stores and atomics alike: groups in the allotment, no bound
register, and only unit stride below 8 bits. -/
def memOpsOk (t : Slot) (v : Reg) (m : VAddr) : Bool :=
  let d := t.opw v
  let one (o : VOp) := t.opOk o && (t.opRegs o).all fun n => !(t.binding n).bound
  one d && match m with
    | .unit => true
    | .strided _ => decide (8 ≤ t.ew)
    | .indexed r iw => decide (8 ≤ t.ew) && one { r := r, quarters := 4 * iw }

/-- The data group of a load shares no register with its index group (R121). -/
def indexApart (t : Slot) (v : Reg) (m : VAddr) : Bool :=
  match m with
  | .indexed r iw => !(t.opRegs (t.opw v)).any fun n => (t.opRegs { r := r, quarters := 4 * iw }).contains n
  | _ => true

/-- The first of the stops that planning and performing met. -/
def firstStop (stop2 : Option (Planned × Nat × Word)) (stop1 : Option (Nat × Nat × Word)) : Option (Nat × Nat × Word) :=
  match stop2 with
  | some (x, c, a) => some (x.e, c, a)
  | none => stop1

/-- Reads planned elements until one traps: the elements with their values, and the stop. -/
def readAll (sc : Scope) (xs : List Planned) (stop1 : Option (Nat × Nat × Word)) :
    M (List (Nat × Nat) × Option (Nat × Nat × Word)) := do
  let (vals, stop2) ← untilTrap xs fun x => do
    let n ← readPlanned sc x
    pure (x.e, n)
  pure (vals, firstStop stop2 stop1)

/-- Performs planned elements in an order, and ends the instruction: at a stop, in a pause before the lowest element that is
left (R241), or by retiring. Element `e` stands for `vstart` `scale × e`, and `weight` counts active elements. -/
def performAll (mem : Bool) (os : List VOp) (heat : Option HeatKind) (scale : Nat) (weight : List Planned → Nat)
    (order : List Planned) (stop1 : Option (Nat × Nat × Word)) (put : Planned → M Unit) : M Flow := do
  beginVec mem
  let (done, cut) ← untilStop order put
  let top := match stop1 with | some (e, _) => e + 1 | none => (order.map (·.e + 1)).foldl max 0
  let left := match cut with
    | some (x, _) => (order.drop done.length).foldl (fun m y => min m y.e) x.e
    | none => top
  let counted := done.filter fun x => decide (x.e < left)
  match heat with
  | some k => heatOf k counted
  | none => pure ()
  match cut with
  | some (_, .wait k) => pauseVec (weight counted) (scale * left) k
  | some (x, .trap c a) => stopVec mem os (weight counted) (scale * x.e) c a
  | some (_, e) => fun s => .error e s
  | none => match stop1 with
    | some (e, c, a) => stopVec mem os (weight counted) (scale * e) c a
    | none => do
      closeVec false mem os (weight counted)
      pure .next

/-- A vector load (R122). -/
def vload (w : IWord) (k : KReg) (v rs1 : Reg) (mode : Slot → VAddr) : M Flow := do
  guardVec w
  let t ← getMe
  let m := mode t
  check (memOpsOk t v m && indexApart t v m) causeOperand (w.zeroExtend 64)
  let (xs, stop1) ← plan .load t.scope true (elemPieces t k m (t.readX rs1) t.ew)
  let (vals, stop) ← readAll t.scope xs stop1
  beginVec true
  heatOf m.heat (xs.take vals.length)
  let hi := match stop with | some (e, _) => e | none => t.vl
  modMe fun t' =>
    let t' := (elemRange t.vstart hi).foldl (fun t' e =>
      if t.kbit k e then t'
      else if t.maskZero then t'.setElem v.toNat t.ew e 0 else t') t'
    let t' := vals.foldl (fun t' x => t'.setElem v.toNat t.ew x.1 x.2) t'
    if t.tailZero && stop.isNone then (elemRange t.vl t.vlmax).foldl (fun t' e => t'.setElem v.toNat t.ew e 0) t'
    else t'
  match stop with
  | some (e, c, a) => stopVec true [] vals.length e c a
  | none => do
    endVec true [] vals.length
    pure .next

/-- A vector store (R122): an unordered one may also have performed elements above its stop. -/
def vstore (w : IWord) (k : KReg) (v rs1 : Reg) (unordered : Bool) (mode : Slot → VAddr) : M Flow := do
  guardVec w
  let t ← getMe
  let m := mode t
  check (memOpsOk t v m) causeOperand (w.zeroExtend 64)
  let es := elemPieces t k m (t.readX rs1) t.ew
  let (xs, stop) ← plan .store t.scope true es
  let a := (← getS).vagent
  let above ← match stop, unordered with
    | some (e, _), true => collect (es.filter fun x => decide (e < x.1)) fun x => tryM (planElem a .store t.scope true x.1 x.2)
    | _, _ => pure []
  let s ← getS
  let extra := above.filterMap fun r => match r with
    | .ok x => if s.free .aboveStop x.e % 2 = 1 then some x else none
    | .error _ => none
  performAll true [] (some m.heat) 1 List.length (storeOrder s unordered (xs ++ extra)) stop fun x =>
    writePlanned t.scope (t.elem v.toNat t.ew x.e) x

/-- A vector atomic (R126, R127): its elements in index order, each one read-modify-write. -/
def vatomic (w : IWord) (k : KReg) (v rs1 : Reg) (ok : Slot → Bool) (far : Bool) (mode : Slot → VAddr)
    (f : Nat → Nat → Nat → Nat) : M Flow := do
  guardVec w
  let t ← getMe
  let m := mode t
  check (ok t && memOpsOk t v m) causeOperand (w.zeroExtend 64)
  let (xs, stop) ← plan .atomic t.scope far (elemPieces t k m (t.readX rs1) t.ew)
  performAll true [] (some m.heat) 1 List.length xs stop fun x => forList x.parts fun p => do
    let s ← getS
    let _ ← rmwLoc s.vagent t.scope p.1 p.2.n p.2.addr fun old => some (f t.ew old (t.elem v.toNat t.ew x.e))

/-! ## Bytes of masks and of whole registers (R124, R125) -/

/-- Consecutive bytes from a base. -/
def bytePieces (base : Word) (lo hi : Nat) : List (Nat × List Piece) :=
  (elemRange lo hi).map fun j => (j, [{ addr := base + BitVec.ofNat 64 j, n := 1, bits := 8 }])

/-- Elements of a mask that stand in whole bytes from `vstart` on, up to byte `j`. -/
def Slot.maskBits (t : Slot) (j : Nat) : Nat := min t.vl (8 * j) - t.vstart

/-- `vldk` (R124). Its bytes count as unit-stride accesses (assumption 64). -/
def vloadMask (w : IWord) (kd : KReg) (rs1 : Reg) : M Flow := do
  guardVec w
  let t ← getMe
  check (t.vstart % 8 == 0) causeOperand (w.zeroExtend 64)
  let (xs, stop1) ← plan .load t.scope true (bytePieces (t.readX rs1) (t.vstart / 8) ((t.vl + 7) / 8))
  let (vals, stop) ← readAll t.scope xs stop1
  beginVec true
  heatOf .unit (xs.take vals.length)
  modMe fun t' =>
    let t' := vals.foldl (fun t' x => (List.range 8).foldl (fun t' i =>
      if 8 * x.1 + i < t.vl then t'.setKbit kd (8 * x.1 + i) (x.2.testBit i) else t') t') t'
    if t.tailZero && stop.isNone then (elemRange t.vl t.vlmax).foldl (fun t' e => t'.setKbit kd e false) t'
    else t'
  match stop with
  | some (j, c, a) => stopVec true [] (t.maskBits j) (8 * j) c a
  | none => do
    closeVec (kd != 0) true [] (t.vl - t.vstart)
    pure .next

/-- The bits of a mask in byte `j`, below a length: the value and how many. -/
def maskByte (t : Slot) (ks : KReg) (j : Nat) : Nat × Nat :=
  let n := min 8 (t.vl - 8 * j)
  (((List.range n).map fun i => if t.kbit ks (8 * j + i) then 2 ^ i else 0).sum, n)

/-- `vstk` (R124): the last byte keeps its other bits. -/
def vstoreMask (w : IWord) (ks : KReg) (rs1 : Reg) : M Flow := do
  guardVec w
  let t ← getMe
  check (t.vstart % 8 == 0) causeOperand (w.zeroExtend 64)
  let es := (bytePieces (t.readX rs1) (t.vstart / 8) ((t.vl + 7) / 8)).map fun x =>
    (x.1, x.2.map fun p => { p with bits := (maskByte t ks x.1).2 })
  let (xs, stop) ← plan .store t.scope true es
  let s ← getS
  performAll true [] (some .unit) 8 (fun l => (l.map fun x => (maskByte t ks x.e).2).sum) (pageOrder s xs) stop fun x =>
    writePlanned t.scope (maskByte t ks x.e).1 x

/-- Bytes of one register: VLEN / 8 (R23). -/
def Slot.regBytes (t : Slot) : Nat := t.laneCount * (t.slice / 8)

/-- A whole register: in the allotment, not bound, and the base aligned (R125). -/
def wholeChecks (w : IWord) (v : Reg) (base : Word) : M Unit := do
  guardVec w
  let t ← getMe
  check (decide (v.toNat < t.valloc) && !(t.binding v.toNat).bound) causeOperand (w.zeroExtend 64)
  check (base.toNat % 64 == 0) causeAlignment base

/-- `vldw` (R125). Its bytes count as unit-stride accesses, and so do those of `vstw` (assumption 64). -/
def vloadWhole (w : IWord) (v rs1 : Reg) : M Flow := do
  let t ← getMe
  let base := t.readX rs1
  wholeChecks w v base
  let (xs, stop1) ← plan .load t.scope true (bytePieces base t.vstart t.regBytes)
  let (vals, stop) ← readAll t.scope xs stop1
  beginVec true
  heatOf .unit (xs.take vals.length)
  modMe fun t' => vals.foldl (fun t' x => t'.setElem v.toNat 8 x.1 x.2) t'
  match stop with
  | some (j, c, a) => stopVec true [] vals.length j c a
  | none => do
    endVec true [] vals.length
    pure .next

/-- `vstw` (R125). -/
def vstoreWhole (w : IWord) (v rs1 : Reg) : M Flow := do
  let t ← getMe
  let base := t.readX rs1
  wholeChecks w v base
  let (xs, stop) ← plan .store t.scope true (bytePieces base t.vstart t.regBytes)
  let s ← getS
  performAll true [] (some .unit) 1 List.length (pageOrder s xs) stop fun x => writePlanned t.scope (t.elem v.toNat 8 x.e) x

end Sys2Proof.Machine
end

