-- ==== Sys2Proof/Machine/Copy.lean ====
section
/-! DEFINITION. The copy engine and the stream instructions (R189 to R191, R252 to R274). -/

namespace Sys2Proof.Machine

/-- The A format of COPY/STREAM (R253). -/
def wordCopy (func : Nat) (q : BitVec 2) (b a d : Reg) : IWord := pack (BitVec.ofNat 9 func ++ q) b a d 0x2C

/-! ## Descriptors (R254, R255) -/

/-- A signed 32-bit field of a stride quad. -/
def strideOf (q : List Word) (first i : Nat) : Word :=
  (((q.getD (first + i / 2) 0) >>> (32 * (i % 2))).extractLsb' 0 32).signExtend 64

/-- The fences of a sequencer that a new operation of one of their classes remembers: bits 0 to 3 are the copy queues,
bit 4 the tile tasks (R190, R212). -/
def fencesFor (t : Slot) (cls : Nat) : List QFence := t.fences.filter fun f => f.mask.getLsbD cls

/-- The operation that the sixteen quads at `d` describe, issued by the running sequencer, when they keep the map. -/
def copyOpOf (s : State) (queue : Nat) (d : Word) (q : List Word) : Option CopyOp :=
  let g (i : Nat) := q.getD i 0
  let q2 := g 2
  let nd := Word.field q2 0 3 + 1
  let es := 2 ^ Word.field q2 3 2
  let op := Word.field q2 8 2
  let mcast := q2.extractLsb' 16 8
  let sig := Word.field q2 24 2
  let cnt (i : Nat) := Word.field (g (4 + i / 4)) (16 * (i % 4)) 16
  let used := List.range nd
  let rest := elemRange nd 8
  let total := (used.map cnt).foldl (· * ·) 1
  let start := Word.field (g 15) 0 40
  let strides := used.map (strideOf q 6) ++ used.map (strideOf q 10)
  if Word.field (g 15) 40 24 = 0 ∧ Word.field q2 26 38 = 0 ∧ Word.field q2 10 6 = 0 ∧ Word.field q2 5 3 < 6 ∧ sig ≠ 3
      ∧ used.all (fun i => cnt i != 0) ∧ rest.all (fun i => cnt i == 0 && strideOf q 6 i == 0 && strideOf q 10 i == 0)
      ∧ total ≤ 2 ^ 40 ∧ start ≤ total
      ∧ (g 0 :: g 1 :: strides).all (fun v => v.toNat % es == 0)
      ∧ (op = 2 → es = 4) ∧ (op = 3 → es = 2)
      ∧ (op = 1 → g 0 = 0 ∧ used.all (fun i => strideOf q 6 i == 0))
      ∧ (sig = 0 → g 3 = 0) ∧ (sig = 1 → g 3 ≠ 0 ∧ (g 3).toNat % 8 = 0) ∧ (sig = 2 → g 3 ≠ 0 ∧ (g 3).toNat % 16 = 0)
      ∧ (mcast ≠ 0 → localBase ≤ (g 1).toNat ∧ (g 1).toNat < 2 ^ 57)
  then some
    { seq := s.cur, queue := queue, number := s.me.opNext, fences := fencesFor s.me queue, ctx := s.me.ctx
      scope := engineScope ((Scope.ofBits (q2.extractLsb' 5 3)).getD .device), op := op, esize := es, src := g 0, dst := g 1
      dims := used.map fun i => (cnt i, strideOf q 6 i, strideOf q 10 i)
      total := total, next := start, mcast := mcast, sig := sig, sigaddr := g 3, isTcopy := true, desc := d, pins := []
      kvm := s.me.kvmbase, strip := s.me.strip, begun := none }
  else none

/-- The source and the destination address of an element (R256). -/
def CopyOp.addresses (o : CopyOp) (i : Nat) : Word × Word :=
  let r := o.dims.foldl (fun (a : (Word × Word) × Nat) d =>
    let k := BitVec.ofNat 64 (a.2 % d.1)
    ((a.1.1 + k * d.2.1, a.1.2 + k * d.2.2), a.2 / d.1)) ((o.src, o.dst), i)
  r.1

/-! ## Issuing (R252, R257, R258) -/

/-- The engine of the running sequencer's core has room. -/
def copyRoom : M Unit := fun s =>
  if (s.core (coreOf s.cur)).copies.length < 128 then .ok () s else .error (.wait .capacity) s

/-- An operation joins its queue. -/
def enqueueCopy (o : CopyOp) (s : State) : State :=
  mapCore (coreOf s.cur) (fun k => { k with copies := k.copies ++ [o] }) (mapMe (fun t => { t with opNext := t.opNext + 1 }) s)

/-- `tcopy` (R257). -/
def execTcopy (q : BitVec 2) (rs1 : Reg) (s : State) : Host.Outcome State Fault Refusal :=
  let w := wordCopy 0 q 0 rs1 0
  run w (do
    guardVec w
    let d ← getX rs1
    check (d.toNat % 128 == 0) causeAlignment d
    let s ← getS
    let quads ← quadsAt s.agent .sequencer d 16
    match copyOpOf s q.toNat d quads with
    | none => trap causeOperand d
    | some o => do
      copyRoom
      storeN s.agent .sequencer (d + 112) 8 0
      releaseFor s.agent o.scope false
      modS (enqueueCopy o)
      pure .next) s

/-- `copy1d` (R258). -/
def execCopy1d (q : BitVec 2) (rd rs1 rs2 : Reg) (s : State) : Host.Outcome State Fault Refusal :=
  let w := wordCopy 1 q rs2 rs1 rd
  run w (do
    guardVec w
    let n ← getX rs2
    check (decide (n.toNat < 2 ^ 40)) causeOperand n
    copyRoom
    let s ← getS
    let t := s.me
    let sc := engineScope t.scope
    releaseFor s.agent sc false
    modS (enqueueCopy
      { seq := s.cur, queue := q.toNat, number := t.opNext, fences := fencesFor t q.toNat, ctx := t.ctx, scope := sc, op := 0
        esize := 1, src := t.readX rs1, dst := t.readX rd, dims := [(n.toNat, 1, 1)], total := n.toNat, next := 0, mcast := 0
        sig := 0, sigaddr := 0, isTcopy := false, desc := t.pc, pins := [], kvm := t.kvmbase, strip := t.strip
        begun := none })
    pure .next) s

/-! ## Performing elements (R259 to R263) -/

def copyAt (s : State) (c : CoreId) (i : Nat) : Option CopyOp := (s.core c).copies[i]?
def setCopy (c : CoreId) (i : Nat) (o : CopyOp) : State → State := mapCore c fun k => { k with copies := k.copies.set i o }

/-- The engine as an agent, for one of its operations (R174, R227). -/
def CopyOp.agent (o : CopyOp) (c : CoreId) : Agent :=
  engineAgent o.ctx c o.seq (.copy o.number)

/-- An operation of a sequencer with one of the classes of a fence, from before it, is in flight. -/
def fenceHolds (s : State) (q : SeqId) (f : QFence) : Bool :=
  ((s.core (coreOf q)).copies.any fun o => o.seq == q && decide (o.number < f.before) && f.mask.getLsbD o.queue)
  || (f.mask.getLsbD 4 && (s.cluster (clusterOf q)).tasks.any fun t => t.seq == q && decide (t.number < f.before))

/-- No earlier operation of its queue, and none that a fence names, is in flight (R190). -/
def CopyOp.mayRun (s : State) (c : CoreId) (i : Nat) (o : CopyOp) : Bool :=
  !((s.core c).copies.take i).any (fun e => e.seq == o.seq && e.queue == o.queue) && !o.fences.any (fenceHolds s o.seq)

/-- Pins the frame of a KV page before the operation's first access to it (R263). -/
def pinForCopy (c : CoreId) (i : Nat) (l : Loc) (va : Word) : M Unit := fun s =>
  match copyAt s c i with
  | none => .ok () s
  | some o =>
    let page := va &&& ~~~0x7FFF#64
    if l.kv && !o.pins.contains page then
      match pinFrame ((o.agent c).atS o.ctx) o.kvm page s with
      | .ok _ s' => .ok () (setCopy c i { o with pins := o.pins ++ [page] } s')
      | .error e s' => .error e s'
    else .ok () s

/-- An element that can be performed: its index, its source, the value read before any write of the same move, and its
destinations. -/
structure CopyElem where
  i : Nat
  sva : Word
  dva : Word
  source : Option Loc
  value : Nat
  dests : List Loc
  deriving DecidableEq, Repr

/-- The offset within a scratchpad that an address of the local region names, in either of its windows (R215). -/
def padOffset (va : Nat) : Option Nat :=
  let o := va - localBase
  if localBase ≤ va ∧ (o < 0x2000000 ∨ (0x10000000 ≤ o ∧ o < 0x10400000)) then some (o % 0x400000) else none

/-- The scratchpad places of a multicast element (R261). -/
def mcastPlaces (s : State) (c : CoreId) (o : CopyOp) (dva : Word) : M (List Loc) :=
  match padOffset o.dst.toNat with
  | none => trap causeAccess dva
  | some p =>
    let off := (BitVec.ofNat 64 p + (dva - o.dst)).toNat
    let cores := (List.finRange 8).filter fun k => o.mcast.getLsbD k.val
    if off + o.esize ≤ 0x400000 ∧ cores.all (fun k => (s.core (coreIn (clusterOfCore c) k)).owner == some o.ctx.part) then
      pure (cores.map fun k => { place := .pad (coreIn (clusterOfCore c) k) off })
    else trap causeAccess dva

/-- The source side of an element. -/
def copySource (c : CoreId) (i : Nat) (o : CopyOp) (sva : Word) : M (Option Loc × Nat) :=
  if o.op = 1 then pure (none, 0)
  else do
    let a := o.agent c
    let l ← translate a .copyRead sva
    pinForCopy c i l sva
    let v ← readLoc a o.scope l o.esize sva
    pure (some l, v)

/-- The destination side of an element. -/
def copyDests (c : CoreId) (i : Nat) (o : CopyOp) (dva : Word) : M (List Loc) :=
  if o.mcast ≠ 0 then do
    let s ← getS
    let ds ← mcastPlaces s c o dva
    if 2 ≤ o.op then forList ds fun l => do
      let _ ← readLoc (o.agent c) o.scope l o.esize dva
    pure ds
  else do
    let a := o.agent c
    let l ← translate a (if 2 ≤ o.op then .copyAdd else .copyWrite) dva
    check (decide (o.op < 2) || !farPlace l) causeAccess dva
    pinForCopy c i l dva
    canWrite l dva
    if 2 ≤ o.op then do
      let _ ← readLoc a o.scope l o.esize dva
    pure [l]

/-- The elements from `n` to `hi - 1` that can be performed, up to the first that cannot: its index, the side of its
failing address, that address, and the cause. -/
def planCopy (c : CoreId) (i : Nat) (o : CopyOp) : Nat → Nat → M (List CopyElem × Option (Nat × Nat × Word × Nat))
  | 0, _ => pure ([], none)
  | f + 1, n => do
    let (sva, dva) := o.addresses n
    match ← tryM (copySource c i o sva) with
    | .error (cause, _) => pure ([], some (n, 0, sva, cause))
    | .ok (l, v) => do
      match ← tryM (copyDests c i o dva) with
      | .error (cause, _) => pure ([], some (n, 1, dva, cause))
      | .ok ds => do
        let (es, stop) ← planCopy c i o f (n + 1)
        pure ({ i := n, sva := sva, dva := dva, source := l, value := v, dests := ds } :: es, stop)

/-- What an element leaves at a destination that held `old` (R259). -/
def copyResult (op old v : Nat) : Nat :=
  match op with
  | 0 => v
  | 1 => 0
  | 2 => (fp32.add .rne false (fp32.decode false old) (fp32.decode false v)).bits
  | _ => (bf16.add .rne false (bf16.decode false old) (bf16.decode false v)).bits

/-- Performs one element; its source is read again now, or was read before the move, as is free (R260). -/
def performCopy (c : CoreId) (o : CopyOp) (x : CopyElem) : M Unit := do
  let s ← getS
  let a := o.agent c
  let late (l : Loc) : M Nat := do
    match ← tryM (readLoc a o.scope l o.esize x.sva) with
    | .ok v => pure v
    | .error _ => pure x.value
  let v ← match x.source with
    | none => pure 0
    | some l => if s.free .copyOrder (2 * x.i) % 2 = 1 then late l else pure x.value
  forList x.dests fun l =>
    if o.op < 2 then writeLoc a o.scope l o.esize (copyResult o.op 0 v) x.dva
    else do
      let _ ← rmwLoc a o.scope l o.esize x.dva fun old => some (copyResult o.op old v)

/-- Elements of one operation are in no order among themselves (R189, R259). -/
def copyOrder (s : State) (xs : List CopyElem) : List CopyElem :=
  match xs with
  | [_] => xs
  | _ => sortByKey (fun x => s.free .copyOrder (2 * x.i + 1)) xs

/-! ## The end of an operation (R264, R265) -/

/-- Records a failure in `cpstat` and `cpaddr` while none is recorded. -/
def recordCopyFailure (o : CopyOp) (code side : Nat) (addr : Word) : State → State :=
  mapSlot o.seq fun t =>
    if t.cpstat.getLsbD 63 then t
    else { t with
      cpstat := BitVec.ofNat 64 (2 ^ 63 + side <<< 11 + (if o.isTcopy then 1 <<< 10 else 0) + o.queue <<< 8 + code)
      cpaddr := addr }

/-- A begin or an end record of an engine operation, in the ring of the issuing core (R340, R341). -/
def traceEngine (kind pipe : Nat) (q : SeqId) (strip : BitVec 32) (time : Nat) (addr q2 : Word) (s : State) : State :=
  if traced s q 1 then traceAt (coreOf q) time (traceQuads kind pipe (slotOf q) strip addr q2 0) s else s

/-- The writes of an operation, or of a stream, that are held have not performed (R241): what follows them waits. -/
def whenPerformed (q : SeqId) (src : Source) : M Unit := fun s =>
  if heldOp s q src then .error (.wait .transit) s else .ok () s

/-- The four steps that end an operation at `next`, with the failure of an element if there is one. Its end has a record
later than its begin has. -/
def endCopy (c : CoreId) (i : Nat) (o : CopyOp) (next : Nat) (fail : Option (Nat × Nat × Word)) : M Unit := do
  let a := o.agent c
  whenPerformed o.seq a.src
  forList o.pins fun p => do
    let _ ← attempt (releasePin (a.atS o.ctx) o.kvm p)
  releaseFor a o.scope false
  let st := if fail.isSome then 2 else 1
  let code := match fail with | some (k, _, _) => k | none => 0
  let qFail ← if o.isTcopy then attempt (storeN a o.scope (o.desc + 112) 8 (st <<< 62 + code <<< 56 + next % 2 ^ 40)) else pure none
  whenPerformed o.seq a.src
  let sFail ← signal a o.scope o.sig o.sigaddr
  modS fun s =>
    let s := match fail with | some (k, side, addr) => recordCopyFailure o k side addr s | none => s
    let s := match qFail with | some (.trap k _) => recordCopyFailure o (failureCode k) 1 (o.desc + 112) s | _ => s
    let s := match sFail with | some k => recordCopyFailure o k 1 o.sigaddr s | none => s
    let s := if o.sig ≠ 0 ∧ sFail.isNone then pokeAwaits (clusterOfCore c) o.ctx.part o.sigaddr s else s
    let s := mapCore c (fun k => { k with copies := dropAt k.copies i }) s
    let s := mapSlot o.seq (fun t => { t with doneCp := max t.doneCp (scopeLevel o.scope) }) s
    let s := mapPart o.ctx.part (fun p => { p with progress := s.cycle }) s
    let s := traceEngine 1 5 o.seq o.strip (max s.cycle (o.begun.getD s.cycle + 1)) o.desc
      (BitVec.ofNat 64 (st <<< 62 + o.queue <<< 8)) s
    countEvent o.seq 7 1 o.desc s

/-- The first access of an operation (R340). -/
def beginCopy (c : CoreId) (i : Nat) (o : CopyOp) (s : State) : State :=
  if o.begun.isSome then s
  else setCopy c i { o with begun := some s.cycle }
    (traceEngine 0 5 o.seq o.strip s.cycle o.desc (BitVec.ofNat 64 (o.queue <<< 8)) s)

/-- A part of the background's work that has to wait is left for a later move; what was done before it stands. -/
def orLater (m : M Unit) : M Unit := fun s =>
  match m s with
  | .error (.wait _) s' => .ok () { s with pri := s'.pri }
  | r => r

/-- The elements of a move do not end inside an aligned 8 bytes of the destination, which the engine writes as one
(R181; assumption 77). -/
def CopyOp.wholeQuads (o : CopyOp) : Nat → Nat → Nat
  | 0, hi => hi
  | f + 1, hi =>
    if 0 < hi ∧ hi < o.total ∧ (o.addresses (hi - 1)).2.toNat / 8 = (o.addresses hi).2.toNat / 8 then o.wholeQuads f (hi + 1)
    else hi

/-- The elements from the next one up to `hi` are performed, up to the first that cannot be: the element that comes next,
and the failure. -/
def copyElements (c : CoreId) (i : Nat) (o : CopyOp) (hi : Nat) : M (Nat × Option (Nat × Nat × Word)) := do
  let (xs, stop) ← planCopy c i o (hi - o.next) o.next
  let s ← getS
  forList (copyOrder s xs) (performCopy c o)
  pure (match stop with
    | some (n, side, addr, cause) => (n, some (failureCode cause, side, addr))
    | none => (max o.next hi, none))

/-- A copy operation performs its elements up to `upto`, and ends when it has performed all of them or meets one that
cannot be performed (R259, R264). -/
def execCopyOperationEnd (c : CoreId) (idx upto : Nat) (s : State) : Host.Outcome State Fault Refusal :=
  match copyAt s c idx with
  | none => .next s
  | some o =>
    let hi := min (o.wholeQuads 8 upto) o.total
    if !o.mayRun s c idx || (decide (hi ≤ o.next) && o.next != o.total) then .next s
    else event (do
      modS (beginCopy c idx o)
      let (n, fail) ← copyElements c idx o hi
      modS fun s => match copyAt s c idx with
        | some p => setCopy c idx { p with next := n } s
        | none => s
      if fail.isSome ∨ n = o.total then orLater (fun s => match copyAt s c idx with
        | some p => endCopy c idx p n fail s
        | none => .ok () s)) s

/-- A completion frees capacity, and a stalled issue tries again (R208, R252, R286). -/
def retryCopy (w : IWord) (s : State) : Host.Outcome State Fault Refusal :=
  if (f11 w).extractLsb' 2 9 = 0#9 then execTcopy (cpQ w) (Sys2Proof.rs1 w) s
  else execCopy1d (cpQ w) (Sys2Proof.rd w) (Sys2Proof.rs1 w) (Sys2Proof.rs2 w) s

/-! ## Streams (R268, R270, R273) -/

/-- `sbind` (R268). -/
def execSbind (n : BitVec 3) (rs1 : Reg) (s : State) : Host.Outcome State Fault Refusal :=
  let w := wordCopy 2 0 0 rs1 (3#2 ++ n)
  run w (do
    guardVec w
    let d ← getX rs1
    bindStream (24 + n.toNat) d
    modMe (·.dirtyVec)
    pure .next) s

/-- `sunbind` (R273): it waits until the stream's writes have performed (R191). -/
def execSunbind (n : BitVec 3) (s : State) : Host.Outcome State Fault Refusal :=
  let w := wordCopy 3 0 0 0 (3#2 ++ n)
  run w (do
    guardVec w
    let s ← getS
    let b := s.me.binding (24 + n.toNat)
    if b.bound then do
      if b.writes then whenPerformed s.cur (.stream (24 + n.toNat))
      unbindStream (24 + n.toNat)
      modMe (·.dirtyVec)
    pure .next) s

/-- The transfer units of a sequencer fetch ahead; an instruction that waits for an element goes on at its next turn
(R270). -/
def execStreamFill (q : SeqId) (s : State) : Host.Outcome State Fault Refusal :=
  if (s.slot q).busy && !deviceStopped s then event (fillStreams q) s else .next s

end Sys2Proof.Machine
end

