-- ==== Sys2Proof/Machine/Exit.lean ====
section
/-! DEFINITION. The outstanding-operation counters, what a thread does before it leaves its slot, and `tleave`
(R165, R168, R197, R199, R208, R331). -/

namespace Sys2Proof.Machine

/-! ## The counters (R208) -/

/-- Loads have performed when their instruction retired (assumption 2). -/
def ldCount (_ : State) (_ : SeqId) : Nat := 0
/-- Stores of which a line in transit still holds a part. -/
def stCount (s : State) (q : SeqId) : Nat := heldBy s q
/-- Copies that have not ended. -/
def cpCount (s : State) (q : SeqId) : Nat := ((s.core (coreOf q)).copies.filter fun o => o.seq == q).length
/-- Tile tasks that have not ended. -/
def ttCount (s : State) (q : SeqId) : Nat := ((s.cluster (clusterOf q)).tasks.filter fun t => t.seq == q).length

/-- Waits until the four counters of the running sequencer are 0. -/
def drained : M Unit := fun s =>
  if ldCount s s.cur = 0 ∧ stCount s s.cur = 0 ∧ cpCount s s.cur = 0 ∧ ttCount s s.cur = 0 then .ok () s
  else .error (.wait .drain) s

/-! ## Continuation records (R165) -/

/-- Reads the continuation record at an address, and checks it. -/
def readCont (a : Word) : M (Vector Word 4) := do
  let s ← getS
  let q ← quadsAt s.agent .sequencer a 4
  let r : Vector Word 4 := #v[q.getD 0 0, q.getD 1 0, q.getD 2 0, q.getD 3 0]
  check (contOk r) causeOperand a
  pure r

/-- Waits for a place in the queue of a record of the running thread's partition (R167, R168). -/
def queuePlace (level : Nat) : M Unit := fun s =>
  if queueRoom s (clusterOf s.cur) s.me.part level then .ok () s else .error (.wait .spill) s

/-- The thread leaves its slot and units (R199, R331). -/
def freeSlot : M Unit := modS fun s => endThread s.cur s

/-! ## `tleave` (R331) -/

/-- The phases in which a thread's KV bindings are registered, each with the `kvmbase` it was made under. -/
def registrations (t : Slot) : List (Nat × Word) :=
  t.kvRegs ++ t.streams.toList.filterMap fun b => match b with | .kv k _ kvm => some (k.phase, kvm) | _ => none

/-- A write of `tleave`: the thread ends, and its record waits for this core and slot. -/
def leaveThread (a : Word) : M Unit := do
  check (a.toNat % 32 == 0) causeAlignment a
  let r ← readCont a
  let s ← getS
  let t := s.me
  let rec0 := contRec t.part a r s.cycle
  queuePlace rec0.level
  drained
  let b : Bound := { core := (coreOf s.cur).val, slot := slotOf s.cur, hidx := t.hidx.toList.map BitVec.toNat
                     launch := t.launch, xjoin := t.xjoin, xdone := t.xdone, strip := t.strip, gmember := t.gmember
                     kvRegs := registrations t }
  modS (enqueueCont (clusterOf s.cur) { rec0 with bound := some b })
  -- the membership of the gang and the registrations are kept by the record
  modMe fun t => { t with gmember := false, gpos := none, streams := Vector.replicate 8 .unbound, kvRegs := [] }
  modS fun s => trimPath (clusterOf s.cur) (slotFin s.cur) s
  freeSlot

end Sys2Proof.Machine
end

