-- ==== Sys2Proof/Machine/Lanes.lean ====
section
/-! DEFINITION. `lgrow`, `lshrink`, and the retirement of a lane (R155, R204, R335, R336). -/

namespace Sys2Proof.Machine

/-- The word of a GANG/LANE/BARRIER form with registers (R202). -/
def wordGang (rs2 rs1 : Reg) (sel : Nat) : IWord := pack 0 rs2 rs1 (BitVec.ofNat 5 sel) 0x1D

/-- A count of units from 1 to 8 (R204). -/
def unitCount (rs1 : Reg) : M Nat := do
  let n ← getX rs1
  check (n != 0 && decide (n.toNat ≤ 8)) causeOperand n
  pure n.toNat

/-- `lgrow` (R204). -/
def execLgrow (rs1 : Reg) (s : State) : Host.Outcome State Fault Refusal :=
  run (wordGang 0 rs1 2) (do
    let n ← unitCount rs1
    let s ← getS
    let c := coreOf s.cur
    if (s.core c).coreWait.isNone then
      modMe fun t => { t with pending := t.pending ||| (lanesOfUnits ((freeUnits s c).take n) &&& ~~~(s.core c).lanemap) }
    modS (reconsider c)
    pure .next) s

/-- `lshrink` (R204). -/
def execLshrink (rs1 : Reg) (s : State) : Host.Outcome State Fault Refusal :=
  run (wordGang 0 rs1 3) (do
    let n ← unitCount rs1
    modMe fun t =>
      let us := unitsIn t.pending
      let m := min n (us.length - 1)
      { t with pending := t.pending &&& ~~~lanesOfUnits (us.reverse.take m)
               request := min t.request (us.length - m), elastic := false }
    let s ← getS
    modS (reconsider (coreOf s.cur))
    pure .next) s

/-- A lane is retired (R155, R335): its bit in `lanemap`, and in its owner's P; the owner's partition logs it. -/
def retireLane (c : CoreId) (lane : Nat) (s : State) : State :=
  if (s.core c).lanemap.getLsbD lane then s
  else
    let m : Word := ~~~((1#64) <<< lane)
    let holder := (busySeqs s c).find? fun q => (s.slot q).lpart.getLsbD lane || (s.slot q).pending.getLsbD lane
    let s := mapCore c (fun k => { k with lanemap := k.lanemap ||| ((1#64) <<< lane) }) s
    let s := (seqsOf c).foldl (fun s q => mapSlot q (fun t => { t with pending := t.pending &&& m, shrunk := t.shrunk &&& m }) s) s
    let s := match (s.core c).owner with
      | some p => logFault p 5 lane c.val ((holder.map slotOf).getD 0) 0 0 s
      | none => s
    reconsider c s

/-- A lane is to be retired: its slice has reported an uncorrectable error, or corrected errors at one location three
times within 2^24 cycles (R335). -/
def laneDue (s : State) (c : CoreId) (lane : Nat) : Bool :=
  let k := s.core c
  k.laneErrors.contains lane || k.corrected.any fun e => e.1 == lane &&
    decide (3 ≤ (k.corrected.filter fun f => f.1 == lane && f.2.1 == e.2.1 && decide (e.2.2 ≤ f.2.2)
      && decide (f.2.2 ≤ e.2.2 + 2 ^ 24)).length)

/-- The controller retires a lane that is to be retired (R335). -/
def execLaneRetire (c : CoreId) (lane : Fin 64) (s : State) : Host.Outcome State Fault Refusal :=
  .next (if laneDue s c lane.val then retireLane c lane.val s else s)

/-- The slice of a lane has corrected an error at a location (R335). -/
def correctLane (c : CoreId) (lane : Fin 64) (location : Nat) (s : State) : State :=
  mapCore c (fun k => { k with corrected := (lane.val, location, s.cycle) :: k.corrected }) s

end Sys2Proof.Machine
end

