-- ==== Sys2Proof/Machine/Preempt.lean ====
section
/-! DEFINITION. Pre-emption requests and their taking (R323 to R326). -/

namespace Sys2Proof.Machine

/-- Posts a request of a partition for a core and slot; gives the outcome so far, and the target while it is pending
(R323). -/
def postRequest (r : Requester) (p : PartId) (c : CoreId) (k : Fin 4) (s : State) : BitVec 2 × Option SeqId × State :=
  let q := seqOf c k
  match (s.core c).owner with
  | some o =>
    if o ≠ p then (3, none, s)
    else if (s.slot q).busy then
      (0, some q, mapSlot q (fun t => { t with pmPending := if t.pmPending.contains r then t.pmPending else t.pmPending ++ [r] }) s)
    else (2, none, s)
  | none => (2, none, s)

/-- A write of `pmreq` by the running sequencer. -/
def writePmreq (c : CoreId) (k : Fin 4) (s : State) : State :=
  let (res, tgt, s') := postRequest (.seq s.cur) s.me.part c k s
  mapMe (fun t => { t with pmstat := res, pmTarget := tgt }) s'

/-- A write of HPMREQ by the host (R351). -/
def hostRequest (p : PartId) (c : CoreId) (k : Fin 4) (s : State) : State :=
  let (res, tgt, s') := postRequest (.host p) p c k s
  mapPart p (fun t => { t with hpmResult := res, hpmTarget := tgt }) s'

/-- `etval` of the trap: the sequencer that asked, or 0xFFFF for the host. -/
def Requester.value : Requester → Word
  | .seq q => BitVec.ofNat 64 q.val
  | .host _ => 0xFFFF

/-- The tile tasks of a thread that have not ended are asked to stop, and their records join its `ttres` list, which
holds 128 (R325). -/
def stopTasks (q : SeqId) (s : State) : State :=
  let cl := clusterOf q
  let mine := (s.cluster cl).tasks.filter fun t => t.seq == q
  let s := mapCluster cl (fun c => { c with tasks := c.tasks.map fun t => if t.seq == q then { t with stop := true } else t }) s
  mapSlot q (fun t => { t with ttres := (t.ttres ++ mine.map (·.record)).take 128 }) s

/-- A pending request is taken (R325): the thread of `q` traps with code 18 at its program counter. -/
def takePreemption (q : SeqId) (s0 : State) : State :=
  let s := dropTurns q { s0 with cur := q }
  match s.me.pmPending with
  | [] => s
  | r :: _ =>
    let s := spillProfile (coreOf q) s.me.part (stopTasks q s)
    let pc := s.me.pc
    takeTrap causePreempt r.value pc (answerRequests q 1 s)

/-- A wait at which a pre-emption may be taken (R173): not one of bounded time, for a moving line or for the host. -/
def HoldKind.interruptible : HoldKind → Bool
  | .transit => false
  | .page => false
  | _ => true

/-- A pre-emption is due: a request is pending, the thread runs at U, and it stands at a point of R324. -/
def preemptDue (t : Slot) : Bool :=
  t.busy && !t.pmPending.isEmpty && !t.sup && (t.pmPoint || t.lpdepth == 0
    || match t.waiting with | some h => h.kind.interruptible | none => false)

/-- A pending pre-emption is taken at a pre-emption point of R324. -/
def execPreemptionTaken (q : SeqId) (s : State) : Host.Outcome State Fault Refusal :=
  if preemptDue (s.slot q) then .next (takePreemption q s) else .next s

end Sys2Proof.Machine
end

