-- ==== Sys2Proof/Machine/Replay.lean ====
section
/-! DEFINITION. The log of the picks of a cluster task scheduler, and its replay (R169, R346). -/

namespace Sys2Proof.Machine

/-- A pick, as a log record names it. -/
structure Pick where
  record : Word
  part : Nat
  prio : Nat
  /-- A tile task. -/
  tile : Bool
  /-- Core of the cluster, slot of the core, and the engines of a multicast tile task. -/
  core : Nat
  slot : Nat
  mask : Nat
  deriving DecidableEq, Repr

/-- The two quads of a log record. -/
def Pick.quads (p : Pick) (delta : Nat) : List Word :=
  [p.record, BitVec.ofNat 64 (delta <<< 40 + p.part <<< 36 + p.prio <<< 34 + (if p.tile then 1 <<< 33 else 0) + p.core <<< 30
    + p.slot <<< 28 + p.mask <<< 20)]

/-- The pick that two quads name. -/
def pickOf (q0 q1 : Word) : Pick :=
  { record := q0, part := Word.field q1 36 4, prio := Word.field q1 34 2, tile := q1.getLsbD 33, core := Word.field q1 30 3
    slot := Word.field q1 28 2, mask := Word.field q1 20 8 }

def replayMode (s : State) (cl : ClusterId) : Nat := Word.field (s.cluster cl).rpctl 0 2

/-- Index of the log's end, as its descriptor publishes it. -/
def replayHead (s : State) (cl : ClusterId) : Nat := deviceQuad s ((s.cluster cl).replay.desc + 16)

/-- The pick that the record at tail names, in replay. -/
def namedPick (s : State) (cl : ClusterId) : Option Pick :=
  let k := s.cluster cl
  if replayMode s cl = 2 ∧ k.rpTail ≠ replayHead s cl then
    let a := k.replay.base + 16 * (k.rpTail % k.replay.size)
    some (pickOf (BitVec.ofNat 64 (deviceQuad s a)) (BitVec.ofNat 64 (deviceQuad s (a + 8))))
  else none

/-- Replay ends and normal picking resumes. -/
def endReplay (cl : ClusterId) (div : Bool) : State → State :=
  mapCluster cl fun k => { k with rpctl := (k.rpctl &&& 0x80) ||| (if div then 0x80 else 0) }

/-- A replay whose tail has reached head ends (R346). -/
def replayIdle (cl : ClusterId) (s : State) : State :=
  if replayMode s cl = 2 ∧ (s.cluster cl).rpTail = replayHead s cl then endReplay cl false s else s

/-- A pick may be made: outside a replay any, in a replay the one that is named. -/
def mayPick (s : State) (cl : ClusterId) (p : Pick) : Bool :=
  if replayMode s cl = 2 then namedPick s cl == some p else true

/-- A pick has been made: it is logged, or consumed from the log. -/
def madePick (cl : ClusterId) (p : Pick) (s : State) : State :=
  let k := s.cluster cl
  match replayMode s cl with
  | 1 =>
    let (r, s') := ringPut 16 1 k.replay s.cycle (p.quads (min (s.cycle - k.replay.last) (2 ^ 24 - 1))) s
    mapCluster cl (fun c => { c with replay := { r with last := s.cycle } }) s'
  | 2 =>
    let tail := (k.rpTail + 1) % 2 ^ 64
    replayIdle cl (mapCluster cl (fun c => { c with rpTail := tail, rpSince := s.cycle })
      (deviceWrite (k.replay.desc + 24) (bytesOfNat 8 tail) s))
  | _ => s

end Sys2Proof.Machine
end

