-- ==== Sys2Proof/Machine/Vcfg.lean ====
section
/-! DEFINITION. Setting the vector configuration: `setvl`, `setvlc`, `valloc`, and the opening of a strip (R23, R90,
R104, R105, R155, R172, R201, R342, R343). -/

namespace Sys2Proof.Machine

/-- The word of `setvl` and `setvlc` (R57). -/
def wordVcfg (s : Nat) (image : BitVec 15) (rs1 rd : Reg) : IWord :=
  pack (BitVec.ofNat 1 s ++ image.extractLsb' 5 10) (image.extractLsb' 0 5) rs1 rd 0x20

/-- The rounding of a grant at 6 bits (R104). -/
def roundGrant (img : Word) (g : Nat) : Nat := if Word.field img 0 3 = 1 ∧ 4 ≤ g then g - g % 4 else g

/-- A configuration image is taken; one without a VLMAX gives vill and a length of 0 (R21, R104). -/
def Slot.configure (t : Slot) (img : Word) (vl : Nat) : Slot :=
  if t.vlmaxOf img = 0 then { t with vtype := villWord, vl := 0 }.cutMasks
  else { t with vtype := img, vl := vl }.cutMasks

/-- P of a thread without retired lanes: what it takes at its next `setvl` (R152). -/
def nextLanes (s : State) (q : SeqId) : Word := (s.slot q).pending &&& ~~~(s.core (coreOf q)).lanemap

/-- The end of `setvl` and `setvlc`: the destination, c7, the count captured for `bs`, the new strip with its trace
record, and a strip breakpoint (R90, R342 to R344). -/
def openStrip (chained : Bool) (rd : Reg) (captured : Word) : M Flow := do
  modMe fun t =>
    let t := (t.writeX rd (BitVec.ofNat 64 t.vl)).writeC 7 (t.vl != 0)
    { t with vstart := 0, vstate := 3, setvlAddr := t.pc, captured := captured, strip := t.strip + 1 }
  let s ← getS
  let t := s.me
  if traced s s.cur 2 then
    modS (pushTrace (coreOf s.cur) (traceQuads 2 7 (slotOf s.cur) t.strip t.pc
      (BitVec.ofNat 64 ((if chained then 1 <<< 20 else 0) + t.vl)) 0))
  modS (countEvent s.cur 5 1 t.pc)
  let mode := Word.field t.bpctl 32 2
  let ord := t.bpctl.extractLsb' 0 32
  if !t.sup && (mode == 2 || (mode == 1 && t.bpaddr == t.pc && (ord == t.strip || ord == BitVec.allOnes 32))) then
    pure (.thenTrap causeBreak)
  else pure .next

/-- `setvl` (R104). -/
def execSetvl (rd rs1 : Reg) (image : BitVec 15) (s : State) : Host.Outcome State Fault Refusal :=
  let w := wordVcfg 0 image rs1 rd
  run w (do
    guardVecOn w
    let s ← getS
    if !s.vecDone then waitFor .transit
    if nextLanes s s.cur = 0 then waitFor .lane
    let n := s.me.readX rs1
    let img := zimm image
    modS (applyLanes s.cur)
    modMe fun t => { t.configure img (roundGrant img (min n.toNat (t.vlmaxOf img))) with chidx := 0 }
    openStrip false rd n) s

/-- What a chain record grants (R172): none while the consumer stalls. -/
def chainGrant (t : Slot) (img : Word) (hw total cons : Nat) : Option Nat :=
  let avail := min hw total - cons
  if total ≤ cons then some 0
  else if min hw total ≤ cons ∨ (Word.field img 0 3 = 1 ∧ avail < 4 ∧ 4 ≤ total - cons) then none
  else some (roundGrant img (min avail (t.vlmaxOf img)))

/-- `setvlc` (R172, R201): the lane change is applied at the first issue, also when the chain then stalls it; the
record's accesses come before every other effect, so that their faults do (R320). -/
def execSetvlc (rd rs1 : Reg) (image : BitVec 15) (s : State) : Host.Outcome State Fault Refusal :=
  let w := wordVcfg 1 image rs1 rd
  run w (do
    guardVecOn w
    let s ← getS
    let a := s.me.readX rs1
    check (a.toNat % 32 == 0) causeAlignment a
    let again := match s.me.waiting with | some h => h.kind == .chain | none => false
    if !again && !s.vecDone then waitFor .transit
    if !again && nextLanes s s.cur == 0 then waitFor .lane
    let img := zimm image
    let lanes := if again then s.me.lpart else nextLanes s s.cur
    let next : Slot := { s.me with lpart := lanes }
    let lane : M Unit := if again then pure () else modS (applyLanes s.cur)
    if next.vlmaxOf img = 0 then do
      lane
      modMe fun t => { t.configure img 0 with chidx := 0 }
      openStrip true rd 0
    else (if again then waitAs .chain else id) do
      let sc := (Scope.ofBits (image.extractLsb' 12 3)).getD .device
      let q ← quadsAt s.agent sc a 4
      check (Word.field (q.getD 2 0) 1 63 == 0) causeOperand a
      acquireAt sc false
      let hw := (q.getD 0 0).toNat
      let total := (q.getD 1 0).toNat
      let cons := (q.getD 3 0).toNat
      match chainGrant next img hw total cons with
      | none => do
        lane
        waitFor .chain
      | some g => do
        if 0 < g then storeN s.agent sc (a + 24) 8 (cons + g)
        lane
        modMe fun t => { t.configure img g with chidx := BitVec.ofNat 64 cons }
        openStrip true rd (BitVec.ofNat 64 (total - cons))) s

/-- A stalled `setvlc` rereads its record (R172). -/
def execSetvlcResume (q : SeqId) (s : State) : Host.Outcome State Fault Refusal :=
  resume q [.chain] (fun w => execSetvlc (Sys2Proof.rd w) (Sys2Proof.rs1 w) (f11 w |>.extractLsb' 0 10 |> (· ++ rs2 w))) s

/-- A new allotment (R105): registers and masks are cleared, and the length is 0. -/
def allot (n : Nat) : M Unit := do
  let s ← getS
  if !s.vecDone then waitFor .transit
  let t := s.me
  check (n == 32 || !(t.streams.toList.any Binding.bound)) causeOperand (BitVec.ofNat 64 n)
  modMe fun t =>
    let t := { t with valloc := n, lanes := Vector.replicate 64 0, masks := Vector.replicate 8 0, vl := 0, vstart := 0 }
    if !t.vill && t.vlmax == 0 then { t with vtype := villWord } else t

/-- `valloc` (R105). The list of step 3 of R35 does not name it, so it executes while `vstate` is off too. -/
def execValloc (n : AllocN) (s : State) : Host.Outcome State Fault Refusal :=
  let w := pack 0 (0#3 ++ n.toBits) 0 4 0x1D
  run w (do
    allot n.regs
    modMe fun t => { t with vstate := 3 }
    pure .next) s

end Sys2Proof.Machine
end

