-- ==== Sys2Proof/Machine/Csr.lean ====
section
/-! DEFINITION. The control and status registers: their numbers, who may access them, what reads give and what writes
do, and the CSR instructions (R13, R18, R19, R24, R27 to R30, R49, R99, R100, and the rules of the later layers). -/

namespace Sys2Proof.Machine

/-! ## Numbers (R30 and the tables that add to it) -/

/-- A CSR of the map. -/
inductive Csr where
  | vl | vtype | vstart | valloc | vlmax | vceil | vstate | cond | chidx
  | lpdepth | lpcnt (n : Fin 6) | lpidx (n : Fin 6) | lpbeg (n : Fin 6) | lpend (n : Fin 6)
  | fflags | frm | srseed
  | lpart | gdrift | gslot | gmask | gjtimeout
  | tcfg (n : Fin 4) | tsr (n : Fin 16)
  | sdesc (n : Fin 8) | spos (n : Fin 8) | skv (n : Fin 8)
  | cpstat | cpaddr | ttstat | ttaddr
  | coreid | clusterid | dieid | cycle | seqid | hidx (n : Fin 8) | strip
  | status | epc | ecause | etval | evec
  | asid | ptbase | heatbase | kvmbase | hpasid | lanemap
  | pmreq | pmstat | tleave | xjoin | xdone | ttres
  | trctl | trbase | bpctl | bpaddr | smpctl | smpcnt | dbginfo | rpctl | rpbase
  deriving DecidableEq, Repr

/-- The member of a run of CSRs that starts at a number. -/
def csrRun {k : Nat} (n lo : Nat) (f : Fin k → Csr) : Option Csr :=
  if h : lo ≤ n ∧ n - lo < k then some (f ⟨n - lo, h.2⟩) else none

/-- The CSR with a number; none for an unassigned one. -/
def csrOf (n : Nat) : Option Csr :=
  match n with
  | 0x000 => some .vl | 0x001 => some .vtype | 0x002 => some .vstart | 0x003 => some .valloc | 0x004 => some .vlmax
  | 0x005 => some .vceil | 0x006 => some .vstate | 0x007 => some .cond | 0x008 => some .chidx
  | 0x010 => some .lpdepth | 0x020 => some .fflags | 0x021 => some .frm | 0x022 => some .srseed
  | 0x030 => some .lpart | 0x031 => some .gdrift | 0x032 => some .gslot | 0x033 => some .gmask
  | 0x034 => some .gjtimeout
  | 0x070 => some .cpstat | 0x071 => some .cpaddr | 0x072 => some .ttstat | 0x073 => some .ttaddr
  | 0x0C0 => some .coreid | 0x0C1 => some .clusterid | 0x0C2 => some .dieid | 0x0C3 => some .cycle
  | 0x0C4 => some .seqid | 0x0D0 => some .strip
  | 0x1000 => some .status | 0x1001 => some .epc | 0x1002 => some .ecause | 0x1003 => some .etval
  | 0x1004 => some .evec | 0x1010 => some .asid | 0x1011 => some .ptbase | 0x1012 => some .heatbase
  | 0x1013 => some .kvmbase | 0x1014 => some .hpasid | 0x1020 => some .lanemap
  | 0x1040 => some .pmreq | 0x1041 => some .pmstat | 0x1042 => some .tleave | 0x1043 => some .xjoin
  | 0x1044 => some .xdone | 0x1045 => some .ttres
  | 0x1050 => some .trctl | 0x1051 => some .trbase | 0x1052 => some .bpctl | 0x1053 => some .bpaddr
  | 0x1054 => some .smpctl | 0x1055 => some .smpcnt | 0x1056 => some .dbginfo | 0x1058 => some .rpctl
  | 0x1059 => some .rpbase
  | n =>
    [csrRun n 0x011 Csr.lpcnt, csrRun n 0x018 Csr.lpidx, csrRun n 0x1030 Csr.lpbeg, csrRun n 0x1038 Csr.lpend,
     csrRun n 0x040 Csr.tcfg, csrRun n 0x050 Csr.tsr, csrRun n 0x060 Csr.sdesc, csrRun n 0x068 Csr.spos,
     csrRun n 0x074 Csr.skv, csrRun n 0x0C8 Csr.hidx].findSome? id

/-- Who may write a CSR: nobody, S, or everybody (the U and S columns of the tables). -/
inductive CsrAccess where
  | readOnly | superOnly | all
  deriving DecidableEq, Repr

def Csr.access : Csr → CsrAccess
  | .vlmax | .lpart | .gdrift | .gslot | .gmask | .coreid | .clusterid | .dieid | .cycle | .seqid | .hidx _
  | .pmstat | .ttres | .dbginfo => .readOnly
  | .vstart | .cond | .lpcnt _ | .fflags | .frm | .srseed | .gjtimeout | .tcfg _ | .tsr _ | .cpstat | .cpaddr
  | .ttstat | .ttaddr => .all
  | _ => .superOnly

/-- The vector CSRs of R100. -/
def Csr.firstUse : Csr → Bool
  | .vl | .vtype | .vstart | .valloc | .vlmax => true
  | _ => false

/-- Steps 1 to 3 of R35 for a CSR instruction: its number, the level, the state of the vector unit (R29, R100). -/
def csrChecked (n : BitVec 14) (w : IWord) : M Csr := do
  let v := w.zeroExtend 64
  let t ← getMe
  match if 2 ≤ n.toNat / 4096 then none else csrOf n.toNat with
  | none => trap causeIllegal v
  | some c => do
    check (n.toNat < 4096 || t.sup) causePrivilege v
    check (t.sup || t.vstate != 0 || !c.firstUse) causeFirstUse v
    pure c

/-! ## Reading -/

/-- The CSR of a stream register: descriptor address, position, KV position (R274, R310). -/
def Slot.sdesc (t : Slot) (n : Fin 8) : Word :=
  match t.streams[n] with
  | .unbound => 0
  | .mem d _ _ _ => d.addr
  | .kv b _ _ => b.table + 1 + (if b.vSide then 2 else 0)
def Slot.spos (t : Slot) (n : Fin 8) : Word :=
  match t.streams[n] with
  | .unbound => 0
  | .mem _ _ p _ => BitVec.ofNat 64 p
  | .kv b _ _ => BitVec.ofNat 64 (b.limit <<< 32 + b.delivered)
/-- `skvN` names the page and slot of the next token of a chain (R310). -/
def readSkv (n : Fin 8) : M Word := do
  let s ← getS
  match s.me.streams[n] with
  | .unbound => pure s.me.skv[n]
  | .mem .. => pure 0
  | .kv b x kvm => do
    let p ← nextPlace ((streamAgent x s.cur (24 + n.val)).atS x) b kvm
    pure (p.1 + BitVec.ofNat 64 ((b.phase % 4) <<< 13 + p.2))

/-- A loop CSR: free above the active levels (R18, assumption 9). -/
def loopRead (s : State) (n : Fin 6) (i : Nat) (v : Word) : Word :=
  if n.val < s.me.lpdepth then v else BitVec.ofNat 64 (s.free .loopCsr (4 * n.val + i))

/-- What a read gives; write-only registers read 0. -/
def csrRead (c : Csr) : M Word := fun s =>
  let t := s.me
  let core := coreOf s.cur
  let cl := clusterOf s.cur
  match c with
  | .ttres => .ok (t.ttres.headD 0) (mapMe (fun t => { t with ttres := t.ttres.drop 1 }) s)
  | .skv n => readSkv n s
  | c => .ok (match c with
    | .vl => BitVec.ofNat 64 t.vl
    | .vtype => t.vtype
    | .vstart => BitVec.ofNat 64 t.vstart
    | .valloc => BitVec.ofNat 64 t.valloc
    | .vlmax => BitVec.ofNat 64 t.vlmax
    | .vceil => BitVec.ofNat 64 t.vceil
    | .vstate => t.vstate.zeroExtend 64
    | .cond => (t.cond ||| 1).zeroExtend 64
    | .chidx => t.chidx
    | .lpdepth => BitVec.ofNat 64 t.lpdepth
    | .lpcnt n => loopRead s n 0 ((t.level n).cnt.zeroExtend 64)
    | .lpidx n => loopRead s n 1 ((t.level n).idx.zeroExtend 64)
    | .lpbeg n => loopRead s n 2 (t.level n).beg
    | .lpend n => loopRead s n 3 (t.level n).fin
    | .fflags => t.fflags.zeroExtend 64
    | .frm => t.frm.zeroExtend 64
    | .srseed => t.srseed.zeroExtend 64
    | .lpart => t.lpart
    | .gdrift => 32
    | .gslot => t.gslot.zeroExtend 64
    | .gmask => if t.gmember then
        (attachedIn s cl (slotFin s.cur)).foldl (fun m q => m ||| ((1#64) <<< ((coreOf q).val % 8))) 0
      else 0
    | .gjtimeout => t.gjtimeout.zeroExtend 64
    | .tcfg n => t.tcfg[n]
    | .tsr n => t.tsr[n]
    | .sdesc n => t.sdesc n
    | .spos n => t.spos n
    | .cpstat => t.cpstat
    | .cpaddr => t.cpaddr
    | .ttstat => t.ttstat
    | .ttaddr => t.ttaddr
    | .coreid => BitVec.ofNat 64 (core.val % 8)
    | .clusterid => BitVec.ofNat 64 (cl.val % 6)
    | .dieid => BitVec.ofNat 64 (core.val / 48)
    | .cycle => BitVec.ofNat 64 s.cycle
    | .seqid => BitVec.ofNat 64 (slotOf s.cur)
    | .hidx n => t.hidx[n]
    | .strip => t.strip.zeroExtend 64
    | .status => t.status
    | .epc => t.epc
    | .ecause => t.ecause
    | .etval => t.etval
    | .evec => t.evec
    | .asid => t.asid
    | .ptbase => t.ptbase
    | .heatbase => t.heatbase
    | .kvmbase => t.kvmbase
    | .hpasid => t.hpasid
    | .lanemap => (s.core core).lanemap
    | .pmstat => t.pmstat.zeroExtend 64
    | .xjoin => t.xjoin
    | .xdone => t.xdone
    | .trctl => (s.core core).trctl
    | .trbase => (s.core core).trbase
    | .bpctl => t.bpctl
    | .bpaddr => t.bpaddr
    | .smpctl => t.smpctl
    | .smpcnt => t.smpcnt
    | .dbginfo => if inSession s t.part then 1 else 0
    | .rpctl => (s.cluster cl).rpctl
    | .rpbase => (s.cluster cl).rpbase
    | _ => 0) s

/-! ## Writing -/

/-- The bits that a write may set; a write with another bit set raises the illegal-operand trap (R13). -/
def Csr.mask : Csr → Word
  | .vstart => 0xFFFFF
  | .vceil => 0xFFFF
  | .vstate => 3
  | .cond => 0xFF
  | .lpcnt _ | .lpidx _ | .gjtimeout | .srseed | .strip => 0xFFFFFFFF
  | .fflags => 0x1F
  | .frm => 0xF
  | .tcfg n => match n with
    | 0 => 0x3FF0FF007FF
    | 1 => 0x1FFF1FFF0000FAFF
    | 2 => 0xFFFFFFFFFFFFFFFF
    | 3 => 0x1FFF0FFFFFFFFFFF
  | .tsr _ => 0x7F
  | .cpstat => 0x8000000000000F3F
  | .ttstat => 0x80000000000001FF
  | .status => 0xF
  | .asid => 0xFFFF
  | .ptbase => 0xFFFFFFFFFFE00
  | .heatbase | .kvmbase => 0xFFFFFFFFFFFC1
  | .hpasid => 0x800FFFFF
  | .trctl => 0xF1F
  | .trbase | .rpbase => 0xFFFFFFFFFFFC0
  | .bpctl => 0x3FFFFFFFF
  | .bpaddr => 0x1FFFFFFFFFFFFFF
  | .smpctl => 0xF18F
  | .rpctl => 0x83
  | .pmreq => 0x3FF
  | .skv _ => 0x1FFFFFFFFFFE1FF
  | .vtype => 0x8000000000007FFF
  | _ => 0xFFFFFFFFFFFFFFFF

/-- A write of `sdescN` at S (R274, R310). -/
def writeSdesc (n : Fin 8) (v : Word) : M Unit := do
  let t ← getMe
  let r := 24 + n.val
  if v = 0 then unbindStream r
  else if v.getLsbD 0 = false then bindStream r v
  else do
    check (t.valloc == 32 && !(t.binding r).bound) causeOperand (BitVec.ofNat 64 r)
    let table := v &&& ~~~3#64
    check (table.toNat % 64 == 0) causeAlignment table
    let s ← getS
    let q ← readTable s.agent table
    match q with
    | none => trap causeOperand table
    | some tab =>
      modMe fun t =>
        let k := t.skv[n]
        let ph := Word.field k 13 2
        let b := newKvBinding table tab (v.getLsbD 1) 0 (k &&& 0x1FFFFFFFFFF8000) (Word.field k 0 9) ph
        -- the registration that the thread has inherited, under the `kvmbase` it was made with (R310, R331)
        let reg := (t.kvRegs.find? fun e => e.1 == ph).getD (ph, t.kvmbase)
        { (t.zeroReg r).setBinding r (.kv b t.ctx reg.2) with kvRegs := t.kvRegs.erase reg, skv := t.skv.set n 0 }

/-- A write of `sposN` at S; `etval` of its trap is the instruction word. -/
def writeSpos (n : Fin 8) (v : Word) (w : IWord) : M Unit := do
  let t ← getMe
  match t.streams[n] with
  | .unbound => trap causeOperand (w.zeroExtend 64)
  | .mem d x _ _ => do
    check (decide (v.toNat ≤ d.total)) causeOperand (w.zeroExtend 64)
    modMe fun t => { t with streams := t.streams.set n (.mem d x v.toNat []) }
  | .kv b x kvm =>
    modMe fun t => { t with streams := t.streams.set n (.kv { b with
      limit := Word.field v 32 32, delivered := Word.field v 0 32, ahead := [], ended := false } x kvm) }

/-- A write of `skvN` at S. -/
def writeSkv (n : Fin 8) (v : Word) : M Unit :=
  modMe fun t => match t.streams[n] with
    | .kv b x kvm => { t with streams := t.streams.set n (.kv { b with
        page := v &&& 0x1FFFFFFFFFF8000, phase := Word.field v 13 2, slot := Word.field v 0 9, ahead := [], ended := false } x kvm) }
    | _ => { t with skv := t.skv.set n v }

/-- Refuses a ring descriptor that breaks R339; its quads are read as an instruction reads them (R237). -/
def checkRing (desc : Nat) (bad : Word) : M Unit := do
  check (decide (desc < hbmTop)) causeOperand bad
  let q ← descQuads desc
  check (ringMap desc fun i => (q.getD i 0).toNat) causeOperand bad

/-- A write of `trctl`: enabling checks the ring, and starts it with a sync record; disabling publishes it (R338,
R339). -/
def writeTrctl (v : Word) : M Unit := do
  let s ← getS
  let c := coreOf s.cur
  let k := s.core c
  let desc := ringDesc k.trbase
  let was := k.trctl.getLsbD 0
  if v.getLsbD 0 then do
    checkRing desc (BitVec.ofNat 64 desc)
    if !was || k.trace.desc != desc then
      modS fun s =>
        let s := if was then traceFlush c s else s
        mapCore c (fun k => { k with trace := { openRing s desc with last := s.cycle } }) s
    modS (mapCore c fun k => { k with trctl := v })
    if !was then modS (pushTrace c (traceQuads 6 7 0 0 0 (BitVec.ofNat 64 s.cycle) 0))
  else do
    if was then modS (traceFlush c)
    modS (mapCore c fun k => { k with trctl := v })

/-- A write of `rpctl` (R346). -/
def writeRpctl (v : Word) (w : IWord) : M Unit := do
  let s ← getS
  let cl := clusterOf s.cur
  let mode := Word.field v 0 2
  let e := w.zeroExtend 64
  let desc := ringDesc (s.cluster cl).rpbase
  check (mode != 3) causeOperand e
  if mode ≠ 0 then do
    check (inSession s s.me.part
      && (coresOf cl).all fun c => match (s.core c).owner with | none => true | some o => o == s.me.part) causeOperand e
    checkRing desc e
  modS fun s0 =>
    let s := if replayMode s0 cl = 1 then (ringPublish (s0.cluster cl).replay s0).2 else s0
    replayIdle cl (mapCluster cl (fun k => { k with
      rpctl := BitVec.ofNat 64 mode ||| (k.rpctl &&& 0x80 &&& ~~~v)
      replay := if mode = 0 then k.replay else { openRing s desc with last := s.cycle }
      rpTail := if mode = 2 then deviceQuad s (desc + 24) else k.rpTail
      rpSince := s.cycle }) s)

/-- A configuration written at S (R19, R329): vill is derived, no lane change is applied. One that sets vill leaves a
length of 0, which a later valid one does not change (assumption 69). -/
def Slot.writeVtype (t : Slot) (img : Word) : Slot :=
  if t.vlmaxOf img = 0 then { t with vtype := villWord, vl := 0 }.cutMasks else { t with vtype := img }.cutMasks

/-- A write of `ptbase` or `asid` waits until the earlier accesses of the sequencer have performed (R226). -/
def accessesDone : M Unit := fun s => if heldBy s s.cur = 0 then .ok () s else .error (.wait .transit) s

/-- A write to a CSR that is writable at the present level; true when the thread has ended with it. What a level of the
loop stack holds that a write of `lpdepth` makes active, and what a write of `vceil` or `vtype` below `vl` leaves of it,
is the model's choice (assumption 69). -/
def csrWritable (c : Csr) (v : Word) (w : IWord) : M Bool := do
  let s ← getS
  let t := s.me
  let e := w.zeroExtend 64
  let core := coreOf s.cur
  check (v &&& ~~~c.mask == 0) causeOperand e
  match c with
  | .tleave => do
    leaveThread v
    pure true
  | c => do
    match c with
    | .vl => do
      check (decide (v.toNat ≤ t.vlmax)) causeOperand e
      modMe fun t => { t with vl := v.toNat }
    | .vtype => modMe (·.writeVtype (v &&& 0x7FFF))
    | .vstart => modMe fun t => { t with vstart := v.toNat, vstate := if t.sup then t.vstate else (Slot.dirtyVec t).vstate }
    | .valloc => do
      check (v == 8 || v == 16 || v == 32) causeOperand v
      allot v.toNat
    | .vceil => modMe fun t => { t with vceil := v.toNat }.cutMasks
    | .vstate => modMe fun t => { t with vstate := v.extractLsb' 0 2 }
    | .cond => modMe fun t => { t with cond := v.extractLsb' 0 8 ||| 1 }
    | .chidx => modMe fun t => { t with chidx := v }
    | .lpdepth => do
      check (decide (v.toNat ≤ 6)) causeOperand e
      modMe fun t => { t with lpdepth := v.toNat }
    | .lpcnt n => do
      check (decide (n.val < t.lpdepth)) causeOperand e
      modMe fun t => t.setLevel n { t.level n with cnt := v.extractLsb' 0 32 }
    | .lpidx n => do
      check (decide (n.val < t.lpdepth)) causeOperand e
      modMe fun t => t.setLevel n { t.level n with idx := v.extractLsb' 0 32 }
    | .lpbeg n => do
      check (v.toNat % 4 == 0) causeOperand e
      modMe fun t => t.setLevel n { t.level n with beg := v }
    | .lpend n => do
      check (v.toNat % 4 == 0) causeOperand e
      modMe fun t => t.setLevel n { t.level n with fin := v }
    | .fflags => modMe fun t => { t with fflags := v.extractLsb' 0 5 }
    | .frm => do
      check (decide (Word.field v 0 3 < 5)) causeOperand e
      modMe fun t => { t with frm := v.extractLsb' 0 4 }
    | .srseed => modMe fun t => { t with srseed := v.extractLsb' 0 32 }
    | .gjtimeout => modMe fun t => { t with gjtimeout := v.extractLsb' 0 32 }
    | .tcfg n => modMe fun t => { t with tcfg := t.tcfg.set n v }
    | .tsr n => modMe fun t => { t with tsr := t.tsr.set n v }
    | .sdesc n => writeSdesc n v
    | .spos n => writeSpos n v w
    | .skv n => writeSkv n v
    | .cpstat => modMe fun t => { t with cpstat := v }
    | .cpaddr => modMe fun t => { t with cpaddr := v }
    | .ttstat => modMe fun t => { t with ttstat := v }
    | .ttaddr => modMe fun t => { t with ttaddr := v }
    | .strip => modMe fun t => { t with strip := v.extractLsb' 0 32 }
    | .status => do
      check (decide (Word.field v 2 2 < 2)) causeOperand e
      modMe fun t => { t with status := (v &&& 12) ||| (t.status &&& 3) }
    | .epc => modMe fun t => { t with epc := v }
    | .ecause => modMe fun t => { t with ecause := v }
    | .etval => modMe fun t => { t with etval := v }
    | .evec => modMe fun t => { t with evec := v }
    | .asid => do
      accessesDone
      modMe fun t => { t with asid := v }
    | .ptbase => do
      check (decide (v.toNat < hbmTop)) causeOperand e
      accessesDone
      modMe fun t => { t with ptbase := v }
    | .heatbase => do
      checkDesc v heatDescOk
      modMe fun t => { t with heatbase := v }
    | .kvmbase => do
      checkDesc v kvDescOk
      modMe fun t => { t with kvmbase := v }
    | .hpasid => modMe fun t => { t with hpasid := v }
    | .lanemap => modS fun s => (lanesOf v).foldl (fun s i => retireLane core i s) s
    | .pmreq => do
      let k := Word.field v 0 8
      if h : k < 192 then modS (writePmreq ⟨k, h⟩ ⟨Word.field v 8 2, by unfold Word.field; exact Nat.mod_lt _ (by decide)⟩)
      else trap causeOperand e
    | .xjoin => do
      check (v.toNat % 8 == 0) causeOperand e
      modMe fun t => { t with xjoin := v }
    | .xdone => do
      check (v.toNat % 8 == 0) causeOperand e
      modMe fun t => { t with xdone := v }
    | .trctl => writeTrctl v
    | .trbase => modS (mapCore core fun k => { k with trbase := v })
    | .bpctl => do
      check (Word.field v 32 2 != 3) causeOperand e
      modMe fun t => { t with bpctl := v }
    | .bpaddr => modMe fun t => { t with bpaddr := v }
    | .smpctl => do
      check (decide (Word.field v 0 4 < 8)) causeOperand e
      modMe fun t => { t with smpctl := v }
    | .smpcnt => modMe fun t => { t with smpcnt := v }
    | .rpctl => writeRpctl v w
    | .rpbase => modS (mapCluster (clusterOf s.cur) fun k => { k with rpbase := v })
    | _ => pure ()
    pure false

/-- The traps of a write of `lpidxN` do not depend on the level that makes it (R18; assumption 27). -/
def lpidxChecks (c : Csr) (v : Word) (w : IWord) : M Unit := do
  let t ← getMe
  match c with
  | .lpidx n => check (v &&& ~~~c.mask == 0 && decide (n.val < t.lpdepth)) causeOperand (w.zeroExtend 64)
  | _ => pure ()

/-- A write to a CSR; one that is read-only at the present level is ignored (R13, R29). -/
def csrWrite (c : Csr) (v : Word) (w : IWord) : M Bool := do
  let t ← getMe
  match c.access with
  | .readOnly => pure false
  | .superOnly =>
    if t.sup then csrWritable c v w
    else do
      lpidxChecks c v w
      pure false
  | .all => csrWritable c v w

/-! ## The instructions (R49) -/

/-- A CSR instruction: `reads` and `writes` say which accesses it makes, `f` what is written, from the old value and
X[rs1], where rd has already been written (R49). -/
def csrInstr (func : Nat) (rd rs1 : Reg) (csr : BitVec 14) (reads writes : Bool) (f : Word → Word → Word) :
    State → Host.Outcome State Fault Refusal :=
  let w := wordCsr func csr rs1 rd
  run w do
    let c ← csrChecked csr w
    let t ← if reads then csrRead c else pure 0
    let b ← getX rs1
    let src := if reads && rd == rs1 && rd != 0 then t else b
    let ended ← if writes then csrWrite c (f t src) w else pure false
    if ended then pure .ended
    else do
      if reads then setX rd t
      pure .next

/-- `csrrw` (R49). -/
def execCsrrw (rd : Reg) (csr : BitVec 14) (rs1 : Reg) (s : State) : Host.Outcome State Fault Refusal :=
  csrInstr 0 rd rs1 csr (rd != 0) true (fun _ b => b) s
/-- `csrrs` (R49). -/
def execCsrrs (rd : Reg) (csr : BitVec 14) (rs1 : Reg) (s : State) : Host.Outcome State Fault Refusal :=
  csrInstr 1 rd rs1 csr true (rs1 != 0) (fun t b => t ||| b) s
/-- `csrrc` (R49). -/
def execCsrrc (rd : Reg) (csr : BitVec 14) (rs1 : Reg) (s : State) : Host.Outcome State Fault Refusal :=
  csrInstr 2 rd rs1 csr true (rs1 != 0) (fun t b => t &&& ~~~b) s

/-! ## The rows that name one register's write (assumption 20) -/

/-- The write of a CSR by the running sequencer, without the instruction around it: its checks, its effect, or its
trap; the program counter stays. -/
def csrRow (n : Nat) (v : Word) (s : State) : Host.Outcome State Fault Refusal :=
  let csr := BitVec.ofNat 14 n
  let w := wordCsr 0 csr 0 0
  match (do
    let c ← csrChecked csr w
    let _ ← csrWrite c v w
    pure () : M Unit) s with
  | .ok _ s' => .next (turnsOver s s')
  | .error (.trap c e) s' => .next (takeTrap c e s.me.pc (turnsOver s s'))
  | .error (.wait _) s' => .next s'
  | .error (.fatal p a) s' => .next (discardPart p 1 a s')

/-- A read of `ttres` into a register (R332). -/
def execTtresRead (rd : Reg) (s : State) : Host.Outcome State Fault Refusal :=
  let w := wordCsr 1 0x1045 0 rd
  match (do
    let c ← csrChecked 0x1045 w
    let v ← csrRead c
    setX rd v : M Unit) s with
  | .ok _ s' => .next (turnsOver s s')
  | .error (.trap c e) s' => .next (takeTrap c e s.me.pc (turnsOver s s'))
  | .error _ s' => .next s'

/-- A write of `vtype` (R329). -/
def execVtypeWrite (v : Word) (s : State) : Host.Outcome State Fault Refusal :=
  csrRow 0x001 v s
/-- A write of `vl` (R329). -/
def execVlWrite (v : Word) (s : State) : Host.Outcome State Fault Refusal :=
  csrRow 0x000 v s
/-- A write of `vstart` (R24). -/
def execVstartWrite (v : Word) (s : State) : Host.Outcome State Fault Refusal :=
  csrRow 0x002 v s
/-- A write of `valloc` (R105). -/
def execVallocWrite (v : Word) (s : State) : Host.Outcome State Fault Refusal :=
  csrRow 0x003 v s
/-- A write of `vstate` (R27). -/
def execVstateWrite (v : Word) (s : State) : Host.Outcome State Fault Refusal :=
  csrRow 0x006 v s
/-- A write of `lpcntN` (R18). -/
def execLpcntWrite (n : Fin 6) (v : Word) (s : State) : Host.Outcome State Fault Refusal :=
  csrRow (0x011 + n.val) v s
/-- A write of `lpidxN` (R18). -/
def execLpidxWrite (n : Fin 6) (v : Word) (s : State) : Host.Outcome State Fault Refusal :=
  csrRow (0x018 + n.val) v s
/-- A write of `lpdepth` (R18). -/
def execLpdepthWrite (v : Word) (s : State) : Host.Outcome State Fault Refusal :=
  csrRow 0x010 v s
/-- A write of `lpbegN` (R18). -/
def execLpbegWrite (n : Fin 6) (v : Word) (s : State) : Host.Outcome State Fault Refusal :=
  csrRow (0x1030 + n.val) v s
/-- A write of `lpendN` (R18). -/
def execLpendWrite (n : Fin 6) (v : Word) (s : State) : Host.Outcome State Fault Refusal :=
  csrRow (0x1038 + n.val) v s
/-- A write of `gjtimeout` (R203). -/
def execGjtimeoutWrite (v : Word) (s : State) : Host.Outcome State Fault Refusal :=
  csrRow 0x034 v s
/-- A write of `frm` (R30). -/
def execFrmWrite (v : Word) (s : State) : Host.Outcome State Fault Refusal :=
  csrRow 0x021 v s
/-- A write of `status` (R28). -/
def execStatusWrite (v : Word) (s : State) : Host.Outcome State Fault Refusal :=
  csrRow 0x1000 v s
/-- A write of `ptbase` (R226). -/
def execPtbaseWrite (v : Word) (s : State) : Host.Outcome State Fault Refusal :=
  csrRow 0x1011 v s
/-- A write of `asid` (R226). -/
def execAsidWrite (v : Word) (s : State) : Host.Outcome State Fault Refusal :=
  csrRow 0x1010 v s
/-- A write of `heatbase` (R233). -/
def execHeatbaseWrite (v : Word) (s : State) : Host.Outcome State Fault Refusal :=
  csrRow 0x1012 v s
/-- A write of `kvmbase` (R296). -/
def execKvmbaseWrite (v : Word) (s : State) : Host.Outcome State Fault Refusal :=
  csrRow 0x1013 v s
/-- A write of `lanemap` (R336). -/
def execLanemapWrite (v : Word) (s : State) : Host.Outcome State Fault Refusal :=
  csrRow 0x1020 v s
/-- A write of `sdescN` (R274). -/
def execSdescWrite (n : Fin 8) (v : Word) (s : State) : Host.Outcome State Fault Refusal :=
  csrRow (0x060 + n.val) v s
/-- A write of `sposN` (R274). -/
def execSposWrite (n : Fin 8) (v : Word) (s : State) : Host.Outcome State Fault Refusal :=
  csrRow (0x068 + n.val) v s
/-- A write of `skvN` (R310). -/
def execSkvWrite (n : Fin 8) (v : Word) (s : State) : Host.Outcome State Fault Refusal :=
  csrRow (0x074 + n.val) v s
/-- A write of `pmreq` (R323). -/
def execPmreqWrite (v : Word) (s : State) : Host.Outcome State Fault Refusal :=
  csrRow 0x1040 v s
/-- A write of `tleave` (R331). -/
def execTleaveWrite (v : Word) (s : State) : Host.Outcome State Fault Refusal :=
  csrRow 0x1042 v s
/-- A write of `xjoin` (R332). -/
def execXjoinWrite (v : Word) (s : State) : Host.Outcome State Fault Refusal :=
  csrRow 0x1043 v s
/-- A write of `xdone` (R332). -/
def execXdoneWrite (v : Word) (s : State) : Host.Outcome State Fault Refusal :=
  csrRow 0x1044 v s
/-- A write of `trctl` (R338). -/
def execTrctlWrite (v : Word) (s : State) : Host.Outcome State Fault Refusal :=
  csrRow 0x1050 v s
/-- A write of `rpctl` (R346). -/
def execRpctlWrite (v : Word) (s : State) : Host.Outcome State Fault Refusal :=
  csrRow 0x1058 v s

end Sys2Proof.Machine
end

