-- ==== Sys2Proof/Machine/FpScalar.lean ====
section
/-! DEFINITION. Scalar floating point (R96 to R98). -/

namespace Sys2Proof.Machine

/-- A two-operand operation of a precision, rounded in a mode. -/
def fp2 (p : Prec) (rm : RM) (rd rs1 rs2 : Reg) (f : FFmt → Rnd → Bool → FVal → FVal → FRes) :
    State → Host.Outcome State Fault Refusal :=
  simple fun t => t.writeF rd (f (precFmt p) (t.rnd rm) t.ftz (t.fval p rs1) (t.fval p rs2))

/-- A one-operand operation. -/
def fp1 (p : Prec) (rm : RM) (rd rs1 : Reg) (f : FFmt → Rnd → Bool → FVal → FRes) :
    State → Host.Outcome State Fault Refusal :=
  simple fun t => t.writeF rd (f (precFmt p) (t.rnd rm) t.ftz (t.fval p rs1))

/-- The magnitude bits of a with a sign made from both signs; no flags, and NaNs are copied as bits (R96). -/
def signOp (p : Prec) (rd rs1 rs2 : Reg) (f : Bool → Bool → Bool) : State → Host.Outcome State Fault Refusal :=
  simple fun t =>
    let n := (precFmt p).width - 1
    let a := precBits p (t.readX rs1)
    let b := precBits p (t.readX rs2)
    t.writeX rd (BitVec.ofNat 64 ((precFmt p).magnitude t.ftz a + if f (a.testBit n) (b.testBit n) then 2 ^ n else 0))

/-- To an integer of `n` bits; a 32-bit signed result is sign-extended (R96). -/
def fpToInt (p : Prec) (rm : RM) (rd rs1 : Reg) (signed : Bool) (n : Nat) : State → Host.Outcome State Fault Refusal :=
  simple fun t =>
    let r := convert (.int signed n) (t.rnd rm) t.ftz (t.fval p rs1)
    (t.writeX rd (BitVec.ofInt 64 (intOf signed n r.bits))).raise r.flags

/-- From a 64-bit integer. -/
def intToFp (p : Prec) (rm : RM) (rd rs1 : Reg) (signed : Bool) : State → Host.Outcome State Fault Refusal :=
  simple fun t => t.writeF rd (convert (.flt (precFmt p)) (t.rnd rm) t.ftz (fvalOfInt (intOf signed 64 (t.readX rs1).toNat)))

/-- A comparison into a condition bit (R75). -/
def fpCmp (p : Prec) (n : CBit) (rs1 rs2 : Reg) (c : FCmp) : State → Host.Outcome State Fault Refusal :=
  simple fun t =>
    let r := fcompare c (t.fval p rs1) (t.fval p rs2)
    (t.writeC n r.1).raise r.2

/-- A fused product-sum: the signs of the product and of c, and one rounding (R97). -/
def fp3 (p : Prec) (rm : RM) (rd rs1 rs2 rs3 : Reg) (negP negC : Bool) : State → Host.Outcome State Fault Refusal :=
  simple fun t =>
    t.writeF rd ((precFmt p).fma (t.rnd rm) t.ftz negP negC (t.fval p rs1) (t.fval p rs2) (t.fval p rs3))

/-- `fadd` (R96). -/
def execFadd (p : Prec) (rm : RM) (rd rs1 rs2 : Reg) (s : State) : Host.Outcome State Fault Refusal :=
  fp2 p rm rd rs1 rs2 FFmt.add s
/-- `fsub` (R96). -/
def execFsub (p : Prec) (rm : RM) (rd rs1 rs2 : Reg) (s : State) : Host.Outcome State Fault Refusal :=
  fp2 p rm rd rs1 rs2 FFmt.sub s
/-- `fmul` (R96). -/
def execFmul (p : Prec) (rm : RM) (rd rs1 rs2 : Reg) (s : State) : Host.Outcome State Fault Refusal :=
  fp2 p rm rd rs1 rs2 FFmt.mul s
/-- `fdiv` (R96). -/
def execFdiv (p : Prec) (rm : RM) (rd rs1 rs2 : Reg) (s : State) : Host.Outcome State Fault Refusal :=
  fp2 p rm rd rs1 rs2 FFmt.div s
/-- `fsqrt` (R96). -/
def execFsqrt (p : Prec) (rm : RM) (rd rs1 : Reg) (s : State) : Host.Outcome State Fault Refusal :=
  fp1 p rm rd rs1 FFmt.sqrt s
/-- `fmin` (R96). -/
def execFmin (p : Prec) (rd rs1 rs2 : Reg) (s : State) : Host.Outcome State Fault Refusal :=
  fp2 p .rne rd rs1 rs2 (fun f _ _ => f.minmax false) s
/-- `fmax` (R96). -/
def execFmax (p : Prec) (rd rs1 rs2 : Reg) (s : State) : Host.Outcome State Fault Refusal :=
  fp2 p .rne rd rs1 rs2 (fun f _ _ => f.minmax true) s
/-- `fsgnj` (R96). -/
def execFsgnj (p : Prec) (rd rs1 rs2 : Reg) (s : State) : Host.Outcome State Fault Refusal :=
  signOp p rd rs1 rs2 (fun _ y => y) s
/-- `fsgnjn` (R96). -/
def execFsgnjn (p : Prec) (rd rs1 rs2 : Reg) (s : State) : Host.Outcome State Fault Refusal :=
  signOp p rd rs1 rs2 (fun _ y => !y) s
/-- `fsgnjx` (R96). -/
def execFsgnjx (p : Prec) (rd rs1 rs2 : Reg) (s : State) : Host.Outcome State Fault Refusal :=
  signOp p rd rs1 rs2 (fun x y => x != y) s
/-- `ftol` (R96). -/
def execFtol (p : Prec) (rm : RM) (rd rs1 : Reg) (s : State) : Host.Outcome State Fault Refusal :=
  fpToInt p rm rd rs1 true 64 s
/-- `ftolu` (R96). -/
def execFtolu (p : Prec) (rm : RM) (rd rs1 : Reg) (s : State) : Host.Outcome State Fault Refusal :=
  fpToInt p rm rd rs1 false 64 s
/-- `ftow` (R96). -/
def execFtow (p : Prec) (rm : RM) (rd rs1 : Reg) (s : State) : Host.Outcome State Fault Refusal :=
  fpToInt p rm rd rs1 true 32 s
/-- `ftowu` (R96). -/
def execFtowu (p : Prec) (rm : RM) (rd rs1 : Reg) (s : State) : Host.Outcome State Fault Refusal :=
  fpToInt p rm rd rs1 false 32 s
/-- `ltof` (R96). -/
def execLtof (p : Prec) (rm : RM) (rd rs1 : Reg) (s : State) : Host.Outcome State Fault Refusal :=
  intToFp p rm rd rs1 true s
/-- `lutof` (R96). -/
def execLutof (p : Prec) (rm : RM) (rd rs1 : Reg) (s : State) : Host.Outcome State Fault Refusal :=
  intToFp p rm rd rs1 false s
/-- `fprec` (R96). -/
def execFprec (p : Prec) (rm : RM) (rd rs1 : Reg) (s : State) : Host.Outcome State Fault Refusal :=
  match p with
  | .s => simple (fun t => t.writeF rd (convert (.flt fp32) (t.rnd rm) t.ftz (t.fval .d rs1))) s
  | .d => simple (fun t => t.writeF rd (convert (.flt fp64) (t.rnd rm) t.ftz (t.fval .s rs1))) s
/-- `fclass` (R96). -/
def execFclass (p : Prec) (rd rs1 : Reg) (s : State) : Host.Outcome State Fault Refusal :=
  simple (fun t => t.writeX rd (BitVec.ofNat 64 ((precFmt p).classify t.ftz (precBits p (t.readX rs1))))) s
/-- `feq` (R96). -/
def execFeq (p : Prec) (n : CBit) (rs1 rs2 : Reg) (s : State) : Host.Outcome State Fault Refusal :=
  fpCmp p n rs1 rs2 .eq s
/-- `flt` (R96). -/
def execFlt (p : Prec) (n : CBit) (rs1 rs2 : Reg) (s : State) : Host.Outcome State Fault Refusal :=
  fpCmp p n rs1 rs2 .lt s
/-- `fle` (R96). -/
def execFle (p : Prec) (n : CBit) (rs1 rs2 : Reg) (s : State) : Host.Outcome State Fault Refusal :=
  fpCmp p n rs1 rs2 .le s
/-- `fadd2` (R98): the pair in X[rs1] takes the term X[rs2][31:0]; FTZ reads only the new term. -/
def execFadd2 (rd rs1 rs2 : Reg) (s : State) : Host.Outcome State Fault Refusal :=
  simple (fun t =>
    let a := (t.readX rs1).toNat
    let x := (t.readX rs2).toNat % 2 ^ 32
    let r := pairOf (windowOf [termOf (fp32.decode false (a % 2 ^ 32)), termOf (fp32.decode false (a / 2 ^ 32)),
      termOf (fp32.decode t.ftz x)])
    (t.writeX rd (BitVec.ofNat 64 (r.2.1 * 2 ^ 32 + r.1))).raise r.2.2) s
/-- `fmadd` (R97). -/
def execFmadd (p : Prec) (rm : RM) (rd rs1 rs2 rs3 : Reg) (s : State) : Host.Outcome State Fault Refusal :=
  fp3 p rm rd rs1 rs2 rs3 false false s
/-- `fmsub` (R97). -/
def execFmsub (p : Prec) (rm : RM) (rd rs1 rs2 rs3 : Reg) (s : State) : Host.Outcome State Fault Refusal :=
  fp3 p rm rd rs1 rs2 rs3 false true s
/-- `fnmadd` (R97). -/
def execFnmadd (p : Prec) (rm : RM) (rd rs1 rs2 rs3 : Reg) (s : State) : Host.Outcome State Fault Refusal :=
  fp3 p rm rd rs1 rs2 rs3 true true s
/-- `fnmsub` (R97). -/
def execFnmsub (p : Prec) (rm : RM) (rd rs1 rs2 rs3 : Reg) (s : State) : Host.Outcome State Fault Refusal :=
  fp3 p rm rd rs1 rs2 rs3 true false s

end Sys2Proof.Machine
end

