-- ==== Sys2Proof/Machine/Fwd.lean ====
section
/-! DEFINITION. Forwarding: `peq`, `fwdres`, `fwdmend`, `fwdrel`, `darn`, and the Darn engine (R238 to R251). -/

namespace Sys2Proof.Machine

/-- The word of an FWD form (R246). -/
def wordFwd (f : Nat) (rs2 rs1 rd : Reg) : IWord := wordA f rs2 rs1 rd 0x1E

/-! ## Records -/

/-- The quads of a forwarding record (R239). -/
def recordBytes (target : Nat) (part : Nat) : List Byte :=
  bytesOfNat 8 (64 * target) ++ bytesOfNat 8 part ++ List.replicate 48 0

/-- The partition that a record names. -/
def recordPart (s : State) (line : Nat) : Nat := rawQuad s (64 * line + 8) % 16

/-- A cache that holds a copy of the moved line has the newer bytes of what is one location now: it drops the copies of
the target that it did not write (R95, R182, R240). -/
def dropTarget (l t : Nat) (ls : List (Nat × Line)) (also : Bool) : List (Nat × Line) :=
  if also || ls.any (fun e => e.1 == l) then putLine ls t ((lineIn ls t).dropClean true) else ls

/-- The caches after a line has become a name of its target: the copies of each keep their names (R238; assumption 3). -/
def moveCopies (l t : Nat) (s : State) : State :=
  let holds (ls : List (Nat × Line)) : Bool := ls.any fun e => e.1 == l
  { s with
    cores := Vector.ofFn fun c =>
      let k := s.core c
      let near := k.stq.toList.any holds || holds (s.cluster (clusterOfCore c)).buffer
      { k with l1 := dropTarget l t k.l1 near }
    clusters := s.clusters.map fun k => { k with buffer := dropTarget l t k.buffer false } }

/-! ## Comparing and resolving pointers (R248, R249) -/

/-- Where a pointer finally leads, and how many records were followed. -/
def finalPlace (va : Word) : M (Place × Nat) := do
  let s ← getS
  let l ← translate s.agent .load va
  match l.place with
  | .pad c o => pure (.pad c o, 0)
  | .phys pa => match regionOf pa with
    | .hbm | .tier => fun s => match follow s 2 0 (pa / 64) with
      | some (n, h) => .ok (.phys (64 * n + pa % 64), h) s
      | none => .error (.trap causeChain va) s
    | _ => pure (.phys pa, 0)

/-- `peq` (R248). -/
def execPeq (n : CBit) (rs1 rs2 : Reg) (s : State) : Host.Outcome State Fault Refusal :=
  run (wordFwd 1 rs2 rs1 (0#2 ++ n)) (do
    let a ← getX rs1
    let b ← getX rs2
    let x ← finalPlace a
    let y ← finalPlace b
    setC n (x.1 == y.1)
    pure .next) s

/-- `fwdres` (R249). -/
def execFwdres (rd rs1 : Reg) (s : State) : Host.Outcome State Fault Refusal :=
  run (wordFwd 2 0 rs1 rd) (do
    guardS (wordFwd 2 0 rs1 rd)
    let a ← getX rs1
    check (decide (a.toNat < localBase) || decide (2 ^ 57 ≤ a.toNat)) causeOperand a
    let x ← finalPlace a
    match x.1 with
    | .phys pa => do
      setX rd (BitVec.ofNat 64 (pa % 2 ^ 52 + x.2 <<< 52))
      pure .next
    | .pad _ _ => trap causeOperand a) s

/-! ## Mending and releasing (R250, R251) -/

/-- The lines of a chain from its start, at most `n` records further. -/
def chainFrom (s : State) : Nat → Nat → List Nat
  | 0, l => [l]
  | n + 1, l => if markOf s l = some .forwarded then l :: chainFrom s n (recordTarget s l) else [l]

/-- Every record of a chain but the last names its end. -/
def mendChain (chain : List Nat) (s : State) : State :=
  match chain.getLast? with
  | none => s
  | some last => (chain.dropLast.dropLast).foldl (fun s l =>
      cellWrite (64 * l) (bytesOfNat 8 (64 * last)) s) s

/-- `fwdmend` (R250). -/
def execFwdmend (rs1 : Reg) (s : State) : Host.Outcome State Fault Refusal :=
  run (wordFwd 3 0 rs1 0) (do
    guardS (wordFwd 3 0 rs1 0)
    let a ← getX rs1
    if localBase ≤ a.toNat ∧ a.toNat < 2 ^ 57 then pure .next
    else do
      let s ← getS
      let l ← translate s.agent .plain a
      match l.place with
      | .phys pa => do
        modS fun s => mendChain (chainFrom s 64 (pa / 64)) s
        pure .next
      | .pad _ _ => pure .next) s

/-- The lines of a 32 KiB frame. -/
def frameLines (f : Nat) : List Nat := (List.range 512).map (f / 64 + ·)

/-- Releases the forwarded lines of a frame that belong to a partition. -/
def releaseFrame (f part : Nat) (s : State) : State :=
  (frameLines f).foldl (fun s l =>
    if markOf s l = some .forwarded ∧ recordPart s l = part then
      setMark l none (cellWrite (64 * l) (List.replicate 64 0) s)
    else s) s

/-- `fwdrel` (R251). -/
def execFwdrel (rs1 : Reg) (s : State) : Host.Outcome State Fault Refusal :=
  run (wordFwd 4 0 rs1 0) (do
    guardS (wordFwd 4 0 rs1 0)
    let f ← getX rs1
    check (f.toNat % 32768 == 0 && (regionOf f.toNat == .hbm || regionOf f.toNat == .tier)) causeOperand f
    let s ← getS
    match (frameLines f.toNat).find? fun l => markOf s l == some .transit with
    | some l => trap causeOperand (BitVec.ofNat 64 (64 * l))
    | none => do
      modS (releaseFrame f.toNat s.me.part)
      pure .next) s

/-! ## Darn (R243 to R245, R247) -/

/-- Two ranges of `n` bytes overlap. -/
def rangesMeet (a b n : Nat) : Bool := decide (a < b + n) && decide (b < a + n)

/-- A job descriptor keeps its map (R243). -/
def darnOk (q : List Word) : Bool :=
  let src := (q.getD 0 0).toNat
  let dst := (q.getD 1 0).toNat
  let n := (q.getD 2 0).toNat
  (elemRange 5 8).all (fun i => q.getD i 0 == 0) && decide (1 ≤ n) && decide (n ≤ 2 ^ 20) && src % 64 == 0
    && dst % 64 == 0 && (q.getD 3 0).toNat % 8 == 0 && !rangesMeet src dst (64 * n)

/-- `darn` (R247). -/
def execDarn (rs1 : Reg) (s : State) : Host.Outcome State Fault Refusal :=
  run (wordFwd 0 0 rs1 0) (do
    let d ← getX rs1
    check (d.toNat % 64 == 0) causeAlignment d
    let s ← getS
    let q ← quadsAt s.agent .sequencer d 8
    check (darnOk q) causeOperand d
    let t := s.me
    if 16 ≤ (s.part t.part).darn.length then waitFor .jobs
    storeN s.agent .sequencer (d + 32) 8 0
    releaseAt .device false
    let j : DarnJob := { desc := d, src := q.getD 0 0, dst := q.getD 1 0, count := (q.getD 2 0).toNat
                         joinctr := q.getD 3 0, ctx := t.ctx, moved := 0, line := none, failed := none }
    modS (mapPart t.part fun p => { p with darn := p.darn ++ [j] })
    pure .next) s

/-- An engine that belongs to the device: it accesses through the context of its job, from no core (R174, R175). -/
def deviceAgent (x : Ctx) : Agent := { ctx := x, core := none, cluster := none, seq := none }

/-- The next partition after the one served last that has work. -/
def roundRobin (served : Nat) (work : PartId → Bool) : Option PartId :=
  let order := (List.range 16).map fun i => (served + 1 + i) % 16
  (order.filterMap fun i => if h : i < 16 then some (⟨i, h⟩ : PartId) else none).find? work

def setDarn (p : PartId) (j : DarnJob) : State → State := mapPart p fun t => { t with darn := j :: t.darn.drop 1 }

/-- The physical line of a job address, when Darn may move it: the failure code otherwise (R243). -/
def darnLine (j : DarnJob) (va : Word) : M (Except Nat (Nat × Bool)) := fun s =>
  match translate (deviceAgent j.ctx) .relocate va s with
  | .error (.trap _ _) s' => .ok (.error 4) s'
  | .error e s' => .error e s'
  | .ok l s' =>
    match l.place with
    | .pad _ _ => .ok (.error 4) s'
    | .phys pa => match regionOf pa with
      | .hbm => .ok (.ok (pa / 64, l.nofwd)) s'
      | .tier => .ok (.ok (pa / 64, l.nofwd || s'.extents.any fun x =>
          x.shared && decide (x.base ≤ pa) && decide (pa < x.base + x.units * 2 ^ 28))) s'
      | _ => .ok (.error 4) s'

/-- Steps 1 to 3 of R244; the last two are one action (assumption 81). -/
def darnBegin (p : PartId) (j : DarnJob) : M Unit := do
  let off := BitVec.ofNat 64 (64 * j.moved)
  let a ← darnLine j (j.src + off)
  let b ← darnLine j (j.dst + off)
  modS fun s =>
    let fail (c : Nat) := setDarn p { j with failed := some c } { s with darnServed := p.val }
    match a, b with
    | .error c, _ => fail c
    | _, .error c => fail c
    | .ok (l, no), .ok (t, _) =>
      if no then fail 3
      else if (markOf s l).isSome then fail 1
      else if (markOf s t).isSome ∨ l = t then fail 2
      else setDarn p { j with line := some (l, t, 0) } (setMark l (some .transit) s)

/-- The source returns to N, and what it holds is replayed to it. -/
def darnAbort (p : PartId) (j : DarnJob) (l code : Nat) (s : State) : State :=
  setDarn p { j with line := none, failed := some code } { replay l l (setMark l none s) with darnServed := p.val }

/-- Step 4 of R244, for quad `k`: others may write the target between two quads. -/
def darnCopy (p : PartId) (j : DarnJob) (l t k : Nat) (s : State) : State :=
  if isBad s.bad l then darnAbort p j l 5 s
  else if blocked s t then s
  else setDarn p { j with line := some (l, t, k + 1) }
    (cellWrite (64 * t + 8 * k) ((List.range 8).map fun i => Memory.read s.mem (64 * l + 8 * k + i)) s)

/-- Step 5 of R244. -/
def darnForward (p : PartId) (j : DarnJob) (l t : Nat) (s : State) : State :=
  let s := { cellWrite (64 * l) (recordBytes t j.ctx.part.val) s with darnServed := p.val }
  setDarn p { j with line := none, moved := j.moved + 1 } (replay l t (moveCopies l t (setMark l (some .forwarded) s)))

/-- The job of a partition that stands first has a line to move. -/
def darnWork (s : State) (p : PartId) : Bool :=
  match (s.part p).darn with
  | j :: _ => j.line.isSome || (j.failed.isNone && decide (j.moved < j.count))
  | [] => false

/-- Darn takes one step of a line's move: it begins the move, copies a quad, or turns the line to F (R244). One line
moves at a time, and partitions take turns (R245). -/
def execDarnLineMove (p : PartId) (s : State) : Host.Outcome State Fault Refusal :=
  let busy := allParts.find? fun r => match (s.part r).darn with | j :: _ => j.line.isSome | [] => false
  let turn := match busy with | some r => some r | none => roundRobin s.darnServed (darnWork s)
  if turn ≠ some p then .next s
  else match (s.part p).darn with
    | [] => .next s
    | j :: _ => match j.line with
      | some (l, t, k) => .next (if k < 8 then darnCopy p j l t k s else darnForward p j l t s)
      | none => event (darnBegin p j) s

/-- A status write and the decrement that ends a job, at device scope; a failed access is logged (R245, R365). -/
def endJob (x : Ctx) (desc qaddr : Word) (status : Nat) (joinctr : Word) : M Unit := do
  let a := deviceAgent x
  let log (e : Option Stop) (addr : Word) : M Unit := match e with
    | some (.trap c _) => modS (logEvent x.part 8 (failureCode c) addr desc)
    | _ => pure ()
  let e ← attempt (storeN a .device qaddr 8 status)
  log e qaddr
  if joinctr ≠ 0 then
    let e ← attempt (do let _ ← decrementAt a .device joinctr)
    log e joinctr

/-- A job has ended (R245). -/
def execDarnJobEnd (p : PartId) (s : State) : Host.Outcome State Fault Refusal :=
  match (s.part p).darn with
  | [] => .next s
  | j :: _ =>
    if j.line.isSome ∨ (j.failed.isNone ∧ j.moved < j.count) then .next s
    else
      let st := match j.failed with | none => 1 <<< 62 | some c => 2 <<< 62 + c <<< 56
      event (do
        endJob j.ctx j.desc (j.desc + 32) (st + j.moved) j.joinctr
        modS fun s => mapPart p (fun t => { t with darn := t.darn.drop 1, progress := s.cycle }) s) s

/-- Held accesses of a line that is not moving any more are replayed (R241). -/
def execHomeAgentAccess (line : Nat) (s : State) : Host.Outcome State Fault Refusal :=
  match markOf s line with
  | some .transit => .next s
  | some .forwarded => .next (replay line (recordTarget s line) s)
  | none => .next (replay line line s)

/-- An L1 writes a line back, or the cluster buffer does when the L1 holds nothing of it to write (R177, R228). -/
def execL1Writeback (c : CoreId) (line : Nat) (s : State) : Host.Outcome State Fault Refusal :=
  .next (if (l1Line s c line).dirty = 0 then bufBack (clusterOfCore c) line true s
    else l1Back c line true s)

end Sys2Proof.Machine
end

