-- ==== Sys2Proof/Machine/Gang.lean ====
section
/-! DEFINITION. Joining and leaving the stream of a gang (R158, R159, R203). -/

namespace Sys2Proof.Machine

/-- Ends a hold: the stream goes on at its label. -/
def endHold (cl : ClusterId) (k : Fin 4) (s : State) : State :=
  match (s.cluster cl).gangs[k] with
  | some g => match g.hold with
    | some h => extendStream cl k h.label (s.setGang cl k (some { g with hold := none }))
    | none => s
  | none => s

/-- `gjtimeout` of the lead of a gang's stream (R159). -/
def leadTimeout (s : State) (cl : ClusterId) (k : Fin 4) : Nat :=
  ((attachedIn s cl k).head?.map fun m => (s.slot m).gjtimeout.toNat).getD 0

/-- The lead's T cycles have passed since the hold began (R159). -/
def holdOver (s : State) (cl : ClusterId) (k : Fin 4) (h : GangHold) : Bool :=
  decide (leadTimeout s cl k ≤ s.cycle - h.since)

/-- The members that wait for the label of a hold re-attach, and hold with the others; when no member is detached any
more, or the lead's time has run out, the hold ends (R159). With no member attached, nobody holds. -/
def joinHold (cl : ClusterId) (k : Fin 4) (s : State) : State :=
  match (s.cluster cl).gangs[k] with
  | some g => match g.hold with
    | some h =>
      if (attachedIn s cl k).isEmpty then s
      else if holdOver s cl k h then endHold cl k s
      else
      let s := (awaitingLabel s cl k h.label).foldl (fun s q => mapSlot q (fun t => { t with gpos := some h.pos }) s) s
      if (detachedIn s cl k).isEmpty then endHold cl k s else s
    | none => s
  | none => s

/-- A hold whose time has run out is over: the stream goes on at its label. -/
def endOverdue (cl : ClusterId) (k : Fin 4) (s : State) : State :=
  match (s.cluster cl).gangs[k] with
  | some g => match g.hold with
    | some h => if !(attachedIn s cl k).isEmpty && holdOver s cl k h then endHold cl k s else s
    | none => s
  | none => s

/-- `gjoin` of a member at position `p` of the stream: true when it retires (R159). -/
def attachedJoin (cl : ClusterId) (k : Fin 4) (g : Gang) (p : Nat) (l : Word) (s : State) : Bool × State :=
  if (g.path[p + 1 - g.base]?).isSome then (true, s)
  else if (detachedIn s cl k).isEmpty then (true, s.setGang cl k (some { g with hold := none }))
  else match g.hold with
    | some _ => (false, s)
    | none =>
      if leadTimeout s cl k = 0 then (true, s)
      else
        let s := joinHold cl k (s.setGang cl k (some { g with hold := some { label := l, since := s.cycle, pos := p } }))
        (((s.cluster cl).gangs[k].map (·.hold.isNone)).getD true, s)

/-- `gjoin` of a detached member: true when it retires. It joins a hold at its label at once; where the hold began after it
had waited for its own T cycles, they have passed, and it goes on detached (R159). -/
def detachedJoin (cl : ClusterId) (k : Fin 4) (g : Gang) (l : Word) (s : State) : Bool × State :=
  if (attachedIn s cl k).isEmpty then
    let pos := g.base + g.path.length
    (true, mapMe (fun t => { t with gpos := some pos })
      (s.setGang cl k (some { g with path := [(s.me.pc, none)], base := pos, hold := none })))
  else
    let waited := match s.me.waiting with | some h => s.cycle - h.since | none => 0
    match g.hold with
    | some h =>
      if h.label = l ∧ s.me.waiting = none then
        let s := mapMe (fun t => { t with gpos := some h.pos }) s
        if (detachedIn s cl k).isEmpty then (true, endHold cl k s) else (false, s)
      else (decide (s.me.gjtimeout.toNat ≤ waited), s)
    | none => (decide (s.me.gjtimeout.toNat ≤ waited), s)

/-- The stream has taken the waiting member along to its label, and its `gjoin` has retired by that. -/
def rejoined (s t : State) : Bool := s.me.waiting.isSome && s.me.gpos.isNone && t.me.waiting.isNone && t.me.gpos.isSome

/-- What a `gjoin` does before it retires or waits (R159): true when it retires. -/
def gjoinDecide (l : Word) (s0 : State) : Bool × State :=
  let cl := clusterOf s0.cur
  let k := slotFin s0.cur
  let s := endOverdue cl k s0
  if rejoined s0 s then (true, s)
  else match s.gangOf s.cur, s.me.gmember with
  | some g, true =>
    match s.me.gpos with
    | some p => attachedJoin cl k g p l s
    | none => detachedJoin cl k g l s
  | _, _ => (true, s)

/-- `gjoin` (R159, R203). -/
def execGjoin (off : BitVec 21) (s : State) : Host.Outcome State Fault Refusal :=
  run (wordOff off 0 0x1D) (do
    let s ← getS
    let l := target s.me.pc off
    let r := gjoinDecide l s
    modS fun _ => r.2
    if rejoined s r.2 then pure .ended
    else if r.1 then pure (.goto l true) else waitFor .gang) s

/-- `gdetach` (R203). -/
def execGdetach (s : State) : Host.Outcome State Fault Refusal := simple (fun t => { t with gpos := none }) s

/-- The time of a held `gjoin` may have run out (R159). -/
def execGjoinTimeout (q : SeqId) (s : State) : Host.Outcome State Fault Refusal :=
  resume q [.gang] (fun w => execGjoin (off21 w)) s

/-- The detached members that wait for the label at which the stream holds, or which it delivers, re-attach (R159). -/
def execGjoinRejoin (cl : ClusterId) (stream : Fin 4) (s : State) : Host.Outcome State Fault Refusal :=
  match (s.cluster cl).gangs[stream] with
  | none => .next s
  | some g =>
    if g.hold.isSome then .next (joinHold cl stream s)
    else if (attachedIn s cl stream).isEmpty then .next s
    else match g.path.getLast? with
      | none => .next s
      | some l => .next ((awaitingLabel s cl stream l.1).foldl (fun s q => reattach q l.1 (g.base + g.path.length - 1) s) s)

end Sys2Proof.Machine
end

