-- ==== Sys2Proof/Machine/Stage.lean ====
section
/-! DEFINITION. The stage engine: tile-task records, their issue, readiness, placement, rows, and end (R275 to R294). -/

namespace Sys2Proof.Machine

/-- The word of a STAGE form (R285). -/
def wordStage (f : Nat) (rs1 : Reg) : IWord := pack (BitVec.ofNat 11 f) 0 rs1 0 0x2D

/-! ## Formats (R278) -/

/-- Bits of an element of a format code. -/
def engWidth (c : Nat) : Nat :=
  match c with | 0 => 32 | 1 => 16 | 2 => 16 | 3 => 8 | 4 => 8 | 5 => 6 | 6 => 6 | 7 => 4 | 8 => 6 | 9 => 8 | _ => 4

/-- The exact value of an element. -/
def engValue (c v : Nat) : FVal :=
  match c with
  | 0 => fp32.decode false v | 1 => bf16.decode false v | 2 => fp16.decode false v | 3 => e4m3.decode false v
  | 4 => e5m2.decode false v | 5 => e3m2.decode false v | 6 => e2m3.decode false v | 7 => e2m1.decode false v
  | 8 => l6Decode v | 9 => fvalOfInt (sextNat 8 v) | _ => fvalOfInt (sextNat 4 v)

/-- An element of A or W: its value, and its code when it is L6. -/
structure EngElem where
  v : FVal
  l6 : Option Nat
  deriving DecidableEq, Repr

/-- Element `e` of a row whose bytes, the first lowest, make the number `row` (R64). -/
def engElem (c row e : Nat) : EngElem :=
  let b := (row >>> (e * engWidth c)) % 2 ^ engWidth c
  { v := engValue c b, l6 := if c = 8 then some b else none }

/-- A weight under its E8M0 scale (R66, R279). -/
def EngElem.scaled (w : EngElem) (sc : Nat) : EngElem :=
  { w with v := if sc = 255 then defaultNan else match w.v with | .fin d => .fin (d.scale ((sc : Int) - 127)) | v => v }

/-- The exact product of a weight and an element (R278). -/
def engProduct (w x : EngElem) : Term :=
  match w.l6, x.l6 with
  | some a, some b => termVal (l6Product a b)
  | _, _ => termProd w.v x.v

/-- The format codes of ifmt and ofmt (R282). -/
def outFmt (c : Nat) : FFmt := match c with | 0 => fp32 | 1 => bf16 | _ => fp16

/-- Bytes of a packed row. -/
def rowBytes (c n : Nat) : Nat := (n * engWidth c + 7) / 8

/-! ## The fields of a record and of its snapshot (R282, R283) -/

namespace TileTask
def nst (t : TileTask) : Nat := Word.field t.q[0] 12 4
def pick (t : TileTask) : Bool := t.q[0].getLsbD 25
def accum (t : TileTask) : Bool := t.q[0].getLsbD 5
def sig (t : TileTask) : Nat := Word.field t.q[0] 10 2
def mask (t : TileTask) : BitVec 8 := t.q[0].extractLsb' 16 8
def scope (t : TileTask) : Scope := engineScope ((Scope.ofBits (t.q[0].extractLsb' 26 3)).getD .device)
def kind (t : TileTask) (i : Nat) : Nat := Word.field t.q[0] (6 + 2 * i) 2
def lgn (t : TileTask) : Nat := Word.field t.q[8] 20 4
def afmt (t : TileTask) : Nat := Word.field t.q[9] 0 4
def wfmt (t : TileTask) : Nat := Word.field t.q[9] 4 4
def ifmt (t : TileTask) : Nat := Word.field t.q[9] 9 1
def ofmt (t : TileTask) : Nat := Word.field t.q[9] 11 2
def wide (t : TileTask) : Bool := t.q[9].getLsbD 13
def wscale (t : TileTask) : Bool := t.q[9].getLsbD 14
def saxis (t : TileTask) : Bool := t.q[9].getLsbD 15
def kdim (t : TileTask) : Nat := Word.field t.q[9] 32 13
def mdim (t : TileTask) : Nat := Word.field t.q[9] 48 13
def astride (t : TileTask) : Nat := Word.field t.q[10] 0 32
def wstride (t : TileTask) : Nat := Word.field t.q[10] 32 32
def dstride (t : TileTask) : Nat := Word.field t.q[11] 0 32
def col0 (t : TileTask) : Nat := Word.field t.q[11] 32 12
def ncols (t : TileTask) : Nat := Word.field t.q[11] 48 13
/-- Stride register `k` of the snapshot. -/
def tsr (t : TileTask) (k : Nat) : Nat := Word.field (t.q.toList.getD (12 + k / 4) 0) (16 * (k % 4)) 16
/-- lgs and lgr of stage `k`. -/
def lgs (t : TileTask) (k : Nat) : Nat := t.tsr k % 16
def lgr (t : TileTask) (k : Nat) : Nat := t.tsr k / 16 % 8
/-- A task that multiplies: stage, chain or dense. -/
def computes (t : TileTask) : Bool := decide (t.op ≤ 2)
/-- The outputs go to D. -/
def writesD (t : TileTask) : Bool := t.op == 4 || (t.computes && t.st)
/-- Elements of a row of A, and outputs of a row. -/
def alen (t : TileTask) : Nat := if t.op ≤ 1 then 2 ^ t.lgn else if t.op = 2 then t.kdim else t.ncols
def width (t : TileTask) : Nat := if t.op ≤ 1 then 2 ^ t.lgn else if t.op = 2 then t.mdim else t.ncols
/-- The stages that the task uses. -/
def stages (t : TileTask) : List Nat := if t.op ≤ 1 then List.range (t.nst + 1) else []
end TileTask

/-! ## Issue (R284 to R286) -/

/-- An address of the local region. -/
def isLocal (a : Word) : Bool := decide (localBase ≤ a.toNat) && decide (a.toNat < 2 ^ 57)

/-- Q0 to Q7 keep the rules of R284 that need no pointer table, for the op in Q0. -/
def recordOk (s : State) (q : List Word) : Bool :=
  let g (i : Nat) := q.getD i 0
  let f (lo n : Nat) := Word.field (g 0) lo n
  let op := f 0 4
  let awaitOk (kind : Nat) (a : Word) : Bool :=
    match kind with | 0 => a == 0 | 1 => a.toNat % 8 == 0 | 2 => a.toNat % 32 == 0 | _ => false
  let st := f 24 1 == 1
  let pick := f 25 1 == 1
  f 4 1 == 0 && f 29 11 == 0 && decide (op < 6) && decide (f 26 3 < 6) && f 10 2 != 3
    && (f 12 4 == 0 || op == 1)
    && awaitOk (f 6 2) (g 4) && awaitOk (f 8 2) (g 5)
    && (f 10 2 != 1 || (g 7).toNat % 8 == 0) && (f 10 2 != 2 || (g 7).toNat % 16 == 0)
    && !(st && (f 5 1 == 1 || decide (3 ≤ op)))
    && !(pick && !(st && decide (op ≤ 2) && f 16 8 != 0))
    && (List.finRange 8).all (fun k => (g 0).getLsbD (16 + k.val) = false
        || (s.core (coreIn (clusterOf s.cur) k)).owner == some s.me.part)
    && (decide (3 < op) || (isLocal (g 1) && (g 1).toNat % 64 == 0))
    && (!(st || op == 4) || (isLocal (g 3) && (g 3).toNat % 64 == 0))
    && (decide (2 < op) || (g 2).toNat % 64 == 0)

/-- The snapshot of the configuration registers (R283). -/
def snapshotOf (t : Slot) : List Word :=
  t.tcfg.toList ++ (List.range 4).map fun j => BitVec.ofNat 64 ((List.range 4).foldl (fun a i =>
    a + ((t.tsr.toList.getD (4 * j + i) 0).toNat % 65536) <<< (16 * i)) 0)

/-- The engines that a record with a mask may use, as cores of the cluster. -/
def mayUse (issuer : CoreId) (mask : BitVec 8) : List Nat :=
  if mask = 0 then [issuer.val % 8] else (List.range 8).filter fun i => mask.getLsbD i

/-- How far the release towards a task, and its own at its end, must reach (R189): an engine of another core sees what has
gone to the cluster's buffer. -/
def engineReach (issuer : CoreId) (mask : BitVec 8) (sc : Scope) : Scope :=
  if sc = .core ∧ mayUse issuer mask ≠ [issuer.val % 8] then .cluster else sc

/-- Tasks that an engine holds: those it runs, and those not started that may run on it. -/
def engineLoad (s : State) (cl : ClusterId) (e : Nat) : Nat :=
  ((s.cluster cl).tasks.filter fun t =>
    if t.running then t.engines.contains e else (mayUse (coreOf t.seq) t.mask).contains e).length

/-- The STAGE forms (R286); `form` is the op of a form other than `tqtile`. -/
def tileIssue (f11 : Nat) (form : Option Nat) (rs1 : Reg) : State → Host.Outcome State Fault Refusal :=
  run (wordStage f11 rs1) do
    let d ← getX rs1
    check (d.toNat % 128 == 0) causeAlignment d
    let s ← getS
    let a := s.agent
    let quads ← quadsAt a .sequencer d 16
    let old := quads.getD 0 0
    let q0 := match form with | none => old | some o => (old &&& ~~~0xF#64) ||| BitVec.ofNat 64 o
    let resuming := Word.field old 62 2 == 2
    let q := q0 :: quads.drop 1
    check (recordOk s q && !(resuming && q0 != old)) causeOperand d
    let n := if Word.field q0 0 4 = 1 then Word.field q0 12 4 + 1 else 0
    let ptab ← collect (List.range n) fun k => fun s =>
      match loadN a .sequencer (q.getD 2 0 + BitVec.ofNat 64 (8 * k)) 8 s with
      | .ok v s' => .ok (BitVec.ofNat 64 v) s'
      | .error e s' => .error e s'
    check (ptab.all fun p => p.toNat % 64 == 0) causeOperand d
    let mask := q0.extractLsb' 16 8
    let cl := clusterOf s.cur
    let snap := if resuming then quads.drop 8 else snapshotOf s.me
    let first := if resuming then Word.field old 40 11 else 0
    let flags := if resuming then Word.field old 54 2 else 0
    let low := Word.field q0 0 40
    let sc := engineScope ((Scope.ofBits (q0.extractLsb' 26 3)).getD .device)
    if !resuming then
      forList snap.zipIdx fun e => storeN a .sequencer (d + BitVec.ofNat 64 (64 + 8 * e.2)) 8 e.1.toNat
    if (mayUse (coreOf s.cur) mask).any (fun e => decide (16 ≤ engineLoad s cl e)) then waitFor .capacity
    let all := BitVec.ofNat 64 low :: (q.drop 1).take 7 ++ snap
    whole (do
      storeN a .sequencer d 8 (low + first <<< 40 + flags <<< 54)
      releaseFor a (engineReach (coreOf s.cur) mask sc) false)
    modS fun s => mapCluster cl (fun k => { k with tasks := k.tasks ++ [
      { seq := s.cur, number := s.me.opNext, fences := fencesFor s.me 4, ctx := s.me.ctx, kvm := s.me.kvmbase, record := d
        q := ⟨((all ++ List.replicate 16 0).take 16).toArray, by simp⟩, ptab := if n = 0 then [q.getD 2 0] else ptab
        met0 := Word.field q0 6 2 == 0, met1 := Word.field q0 8 2 == 0, due := true, lastRead := s.cycle, engines := []
        running := false, began := 0, row := first, ofl := flags / 2 == 1, nv := flags % 2 == 1, stop := false, pins := []
        strip := s.me.strip }] })
      (mapMe (fun t => { t with opNext := t.opNext + 1 }) s)
    pure .next

/-- `tqtile` (R285, R286). -/
def execTqtile (rs1 : Reg) (s : State) : Host.Outcome State Fault Refusal := tileIssue 0 none rs1 s
/-- `mstage` (R276, R285, R286). -/
def execMstage (rs1 : Reg) (s : State) : Host.Outcome State Fault Refusal := tileIssue 1 (some 0) rs1 s
/-- `mchain` (R276, R285, R286). -/
def execMchain (rs1 : Reg) (s : State) : Host.Outcome State Fault Refusal := tileIssue 2 (some 1) rs1 s
/-- `mdense` (R277, R285, R286). -/
def execMdense (rs1 : Reg) (s : State) : Host.Outcome State Fault Refusal := tileIssue 3 (some 2) rs1 s
/-- `mload` (R285, R286, R289). -/
def execMload (rs1 : Reg) (s : State) : Host.Outcome State Fault Refusal := tileIssue 4 (some 3) rs1 s
/-- `mstore` (R285, R286, R289). -/
def execMstore (rs1 : Reg) (s : State) : Host.Outcome State Fault Refusal := tileIssue 5 (some 4) rs1 s
/-- `mzero` (R285, R286, R289). -/
def execMzero (rs1 : Reg) (s : State) : Host.Outcome State Fault Refusal := tileIssue 6 (some 5) rs1 s

/-- A completion frees capacity, and a stalled issue of a copy or a tile task tries again (R208, R252, R286). -/
def execIssueCapacityFreed (q : SeqId) (s : State) : Host.Outcome State Fault Refusal :=
  resume q [.capacity] (fun w =>
    if op w = 0x2C then retryCopy w
    else if op w ≠ 0x2D then fun s => .next s
    else match (f11 w).toNat with
      | 0 => execTqtile (Sys2Proof.rs1 w)
      | 1 => execMstage (Sys2Proof.rs1 w)
      | 2 => execMchain (Sys2Proof.rs1 w)
      | 3 => execMdense (Sys2Proof.rs1 w)
      | 4 => execMload (Sys2Proof.rs1 w)
      | 5 => execMstore (Sys2Proof.rs1 w)
      | _ => execMzero (Sys2Proof.rs1 w)) s

/-! ## The checks at start (R290) -/

/-- A packed row of an odd length in a narrow format. -/
def oddRow (c n : Nat) : Bool := (engWidth c == 6 && n % 4 != 0) || (engWidth c == 4 && n % 2 != 0)

/-- The snapshot passes. -/
def snapshotOk (t : TileTask) : Bool :=
  let usesA := decide (t.op ≤ 3)
  let acc := !(t.computes && t.st)
  t.q[8] &&& ~~~0x3FF0FF007FF#64 == 0 && t.q[9] &&& ~~~0x1FFF1FFF0000FAFF#64 == 0 && t.q[11] &&& ~~~0x1FFF0FFFFFFFFFFF#64 == 0
    && t.stages.all (fun k => t.tsr k < 128)
    && decide (1 ≤ t.rows) && decide (t.rows ≤ 1024)
    && (!usesA || decide (t.afmt ≤ 10)) && (!t.computes || decide (t.wfmt ≤ 10)) && (!t.writesD || t.ofmt != 3)
    && (t.op != 2 || (decide (1 ≤ t.kdim) && decide (t.kdim ≤ 4096) && decide (1 ≤ t.mdim) && decide (t.mdim ≤ 4096)))
    && (decide (t.op < 3) || (decide (1 ≤ t.ncols) && decide (t.ncols ≤ 4096)))
    && (!acc || (decide (7 ≤ t.lgrow) && decide (t.lgrow ≤ 12) && decide (t.row0 + t.rows ≤ 2 ^ (17 - t.lgrow))
        && decide (t.col0 + t.width ≤ 2 ^ (t.lgrow - (if t.wide then 1 else 0)))))
    && (decide (2 ≤ t.op) || (decide (3 ≤ t.lgn) && decide (t.lgn ≤ 12)
        && t.stages.all fun k => decide (1 ≤ t.lgr k) && decide (t.lgr k + t.lgs k ≤ t.lgn)))
    && !(usesA && oddRow t.afmt t.alen) && !(t.op == 2 && oddRow t.wfmt t.mdim)
    && (!usesA || t.astride % 64 == 0) && (!t.writesD || t.dstride % 64 == 0)
    && (t.op != 2 || (t.wstride % 64 == 0 && decide (rowBytes t.wfmt t.mdim ≤ t.wstride)))
    && !(t.computes && t.wscale && (t.saxis || !(decide (3 ≤ t.wfmt) && decide (t.wfmt ≤ 7)) || (t.op == 2 && t.kdim % 32 != 0)
        || t.stages.any fun k => decide (t.lgr k < 5)))

/-! ## Reading A and W (R279, R288) -/

def taskAt (s : State) (cl : ClusterId) (i : Nat) : Option TileTask := (s.cluster cl).tasks[i]?
def setTask (cl : ClusterId) (i : Nat) (t : TileTask) : State → State := mapCluster cl fun k => { k with tasks := k.tasks.set i t }

/-- Core `e` of a cluster. -/
def engineCore (cl : ClusterId) (e : Nat) : CoreId := coreIn cl ⟨e % 8, Nat.mod_lt _ (by omega)⟩

/-- The engine on core `e` as an agent of a task. -/
def TileTask.agent (t : TileTask) (cl : ClusterId) (e : Nat) : Agent :=
  { engineAgent t.ctx (engineCore cl e) t.seq (.tile t.number) with cluster := some cl }

/-- The scratchpad bytes from `a + b · stride` that a row takes, for the engine on core `e` (R288): the offset counts
from that of `a`, and the row must lie in the scratchpad. -/
def rowPlace (s : State) (cl : ClusterId) (t : TileTask) (e : Nat) (a : Word) (stride b n : Nat) : Option Loc :=
  let o := a.toNat - localBase
  let off := o % 0x400000 + b * stride
  let own := decide (0x10000000 ≤ o) && decide (o < 0x10400000)
  let c := engineCore cl (if own || decide (1 < t.engines.length) then e else o / 0x400000)
  if (own || decide (o < 0x2000000)) && (s.core c).owner == some t.ctx.part && decide (off + n ≤ 0x400000)
  then some { place := .pad c off } else none

/-- The place of a row, or the access fault. -/
def rowAt (cl : ClusterId) (t : TileTask) (e : Nat) (a : Word) (stride b n : Nat) : M Loc := fun s =>
  match rowPlace s cl t e a stride b n with
  | some l => .ok l s
  | none => .error (.trap causeAccess (a + BitVec.ofNat 64 (b * stride))) s

/-- A row of A. -/
def rowOfA (cl : ClusterId) (t : TileTask) (e b : Nat) : M (List EngElem) := do
  let n := rowBytes t.afmt t.alen
  let l ← rowAt cl t e t.q[1] t.astride b n
  let v ← readLoc (t.agent cl e) t.scope l n t.q[1]
  pure ((List.range t.alen).map (engElem t.afmt v))

/-- Bytes from an address, cut at the ends of lines. -/
def lineRuns : Nat → Word → Nat → List (Word × Nat)
  | 0, _, _ => []
  | f + 1, a, n =>
    if n = 0 then []
    else
      let k := min n (64 - a.toNat % 64)
      (a, k) :: lineRuns f (a + BitVec.ofNat 64 k) (n - k)

/-- Pins the frame of a KV page before the task's first access to it (R263, R288). -/
def pinForTile (cl : ClusterId) (i : Nat) (l : Loc) (va : Word) : M Unit := fun s =>
  match taskAt s cl i with
  | none => .ok () s
  | some t =>
    let page := va &&& ~~~0x7FFF#64
    if l.kv && !t.pins.contains page then
      match pinFrame ((t.agent cl (t.engines.headD 0)).atS t.ctx) t.kvm page s with
      | .ok _ s' => .ok () (setTask cl i { t with pins := t.pins ++ [page] } s')
      | .error e s' => .error e s'
    else .ok () s

/-- `n` bytes from the `off`-th of W on, as a number: translated for the issuing sequencer, and read once for all engines.
Weights in a scratchpad must lie in it whole (R288). -/
def readW (cl : ClusterId) (i : Nat) (t : TileTask) (base : Word) (off n : Nat) : M Nat := do
  let issuer : Agent := engineAgent t.ctx (coreOf t.seq) t.seq (.tile t.number)
  check (match padOffset base.toNat with | some o => decide (o + off + n ≤ 0x400000) | none => true) causeAccess base
  let parts ← collect (lineRuns (n + 1) (base + BitVec.ofNat 64 off) n) fun r => do
    let l ← translate issuer .load r.1
    pinForTile cl i l r.1
    let v ← readLoc (t.agent cl (t.engines.headD 0)) t.scope l r.2 r.1
    pure (r.2, v)
  pure (parts.foldr (fun p acc => p.2 + acc <<< (8 * p.1)) 0)

/-- The scales, when there are any. -/
def readScales (cl : ClusterId) (i : Nat) (t : TileTask) (base : Word) (weightBytes count : Nat) : M Nat :=
  if t.wscale then readW cl i t base (64 * ((weightBytes + 63) / 64)) count else pure 0

/-- A weight with its scale. -/
def weight (t : TileTask) (row e scales sc : Nat) : EngElem :=
  let w := engElem t.wfmt row e
  if t.wscale then w.scaled ((scales >>> (8 * sc)) % 256) else w

/-! ## The terms of a row (R275 to R277) -/

/-- The terms of output `c` of a stage of stride 2^`lgs` and radix 2^`lgr`; `w g i j` is a weight (R275). -/
def stageTerms (lgs lgr : Nat) (w : Nat → Nat → Nat → EngElem) (x : Array EngElem) (c : Nat) : List Term :=
  let s := 2 ^ lgs
  let rad := 2 ^ lgr
  let t := c % s
  let i := c / s % rad
  let base := c - i * s
  let g := c / (rad * s) * s + t
  (List.range rad).map fun j => engProduct (w g i j) (x.getD (base + j * s) ⟨.fin ⟨false, 0, 0⟩, none⟩)

/-- The terms of every output of stage `k` on a row. -/
def stageRow (cl : ClusterId) (i : Nat) (t : TileTask) (k : Nat) (x : List EngElem) : M (List (List Term)) := do
  let n := 2 ^ t.lgn
  let rad := 2 ^ t.lgr k
  let base := t.ptab.getD k 0
  let bytes := rowBytes t.wfmt (n * rad)
  let ws ← readW cl i t base 0 bytes
  let sc ← readScales cl i t base bytes (n * (rad / 32))
  let w (g a j : Nat) := weight t ws (g * rad * rad + a * rad + j) sc ((g * rad + a) * (rad / 32) + j / 32)
  pure ((List.range n).map (stageTerms (t.lgs k) (t.lgr k) w x.toArray))

/-- The stages before the last, each output rounded to the intermediate format (R276); with the flags. -/
def chainRows (cl : ClusterId) (i : Nat) (t : TileTask) : List Nat → List EngElem → FFlags → M (List EngElem × FFlags)
  | [], x, fl => pure (x, fl)
  | k :: r, x, fl => do
    let f := outFmt t.ifmt
    let out := (← stageRow cl i t k x).map fun ts => f.windowRound false ts
    chainRows cl i t r (out.map fun o => { v := f.decode false o.bits, l6 := none }) (out.foldl (fun a o => a ||| o.flags) fl)

/-- The terms of a dense tile on a row (R277). -/
def denseRow (cl : ClusterId) (i : Nat) (t : TileTask) (x : List EngElem) : M (List (List Term)) := do
  let rows ← collect (List.range t.kdim) fun k =>
    readW cl i t t.q[2] (k * t.wstride) (rowBytes t.wfmt t.mdim)
  let sc ← readScales cl i t t.q[2] (t.kdim * t.wstride) (t.kdim / 32 * t.mdim)
  pure ((List.range t.mdim).map fun m => (x.zip rows).zipIdx.map fun e =>
    engProduct (weight t e.1.2 m sc (e.2 / 32 * t.mdim + m)) e.1.1)

/-! ## The outputs of a row (R280, R281, R289) -/

/-- What a row writes on one engine: accumulator entries, and bytes of D; and its flags. -/
structure RowOut where
  core : CoreId
  entries : List (Nat × Nat)
  d : Option (Loc × List Byte)
  flags : FFlags
  deriving DecidableEq, Repr

/-- The entry at a row and column (R280). -/
def TileTask.entry (t : TileTask) (b col : Nat) : Nat := (t.row0 + b) * 2 ^ t.lgrow + col

/-- An accumulator entry; one with an uncorrectable error fails the task (R237). -/
def readAcc (c : CoreId) (e : Nat) : M Nat := fun s =>
  if (s.core c).badAcc.contains e then .error (.trap causeData 0) s else .ok (Sparse.get 0 (s.core c).acc e).toNat s

/-- The entries that an output leaves in the accumulator store (the table of R289). -/
def accWrite (c : CoreId) (t : TileTask) (b col : Nat) (ts : List Term) : M (List (Nat × Nat) × FFlags) :=
  if t.wide then do
    let e := t.entry b (2 * (t.col0 + col))
    let hi ← if t.accum then readAcc c e else pure 0
    let lo ← if t.accum then readAcc c (e + 1) else pure 0
    let (h, l, fl) := pairOf (windowOf ([termOf (fp32.decode false hi), termOf (fp32.decode false lo)] ++ ts))
    pure ([(e, h), (e + 1, l)], fl)
  else do
    let e := t.entry b (t.col0 + col)
    let old ← if t.accum then (do let v ← readAcc c e; pure [termOf (fp32.decode false v)]) else pure []
    let r := fp32.windowRound false (ts ++ old)
    pure ([(e, r.bits)], r.flags)

/-- The bytes of a row of D: elements of `w` bits. -/
def packRow (w : Nat) (vs : List Nat) : List Byte := vs.flatMap (bytesOfNat (w / 8))

/-- The outputs of a compute op on one engine. -/
def computeOut (cl : ClusterId) (t : TileTask) (e b : Nat) (outs : List (List Term)) (fl : FFlags) : M RowOut := do
  let c := engineCore cl e
  if t.st then do
    let f := outFmt t.ofmt
    let rs := outs.map fun ts => f.windowRound false ts
    let l ← rowAt cl t e t.q[3] t.dstride b (t.width * (f.width / 8))
    pure { core := c, entries := [], d := some (l, packRow f.width (rs.map (·.bits))), flags := rs.foldl (fun a r => a ||| r.flags) fl }
  else do
    let ws ← collect outs.zipIdx fun o => accWrite c t b o.2 o.1
    pure { core := c, entries := ws.flatMap (·.1), d := none, flags := ws.foldl (fun a r => a ||| r.2) fl }

/-- Row `b` of a task on the engine of core `e`, computed whole before anything is written (R289, R291). -/
def rowOn (cl : ClusterId) (i : Nat) (t : TileTask) (b e : Nat) : M RowOut := do
  let c := engineCore cl e
  let cols := List.range t.ncols
  let at' (col : Nat) : Nat := t.entry b (if t.wide then 2 * (t.col0 + col) else t.col0 + col)
  match t.op with
  | 0 => do
    let x ← rowOfA cl t e b
    computeOut cl t e b (← stageRow cl i t 0 x) 0
  | 1 => do
    let x ← rowOfA cl t e b
    let (y, fl) ← chainRows cl i t (List.range t.nst) x 0
    computeOut cl t e b (← stageRow cl i t t.nst y) fl
  | 2 => do
    let x ← rowOfA cl t e b
    computeOut cl t e b (← denseRow cl i t x) 0
  | 3 => do
    let x ← rowOfA cl t e b
    let rs := x.map fun v => convert (.flt fp32) .rne false v.v
    pure { core := c, d := none, flags := rs.foldl (fun a r => a ||| r.flags) 0
           entries := rs.zipIdx.flatMap fun r => (at' r.2, r.1.bits) :: (if t.wide then [(at' r.2 + 1, 0)] else []) }
  | 4 => do
    let f := outFmt t.ofmt
    let rs ← collect cols fun col => do
      let hi ← readAcc c (at' col)
      if t.wide then do
        let lo ← readAcc c (at' col + 1)
        pure (f.add .rne false (fp32.decode false hi) (fp32.decode false lo))
      else pure (convert (.flt f) .rne false (fp32.decode false hi))
    let l ← rowAt cl t e t.q[3] t.dstride b (t.width * (f.width / 8))
    pure { core := c, entries := [], d := some (l, packRow f.width (rs.map (·.bits))), flags := rs.foldl (fun a r => a ||| r.flags) 0 }
  | _ => pure { core := c, d := none, flags := 0
                entries := cols.flatMap fun col => (at' col, 0) :: (if t.wide then [(at' col + 1, 0)] else []) }

/-- An accumulator entry written; a write clears an error in it (R237). -/
def putAcc (c : CoreId) (e v : Nat) : State → State :=
  mapCore c fun k => { k with acc := Sparse.set 0 k.acc e (BitVec.ofNat 32 v), badAcc := k.badAcc.filter (· != e) }

/-- Writes what a row has computed. -/
def writeRow (cl : ClusterId) (t : TileTask) (o : RowOut) : M Unit := do
  modS fun s => o.entries.foldl (fun s e => putAcc o.core e.1 e.2 s) s
  match o.d with
  | none => pure ()
  | some (l, bs) => writeBytesAt (t.agent cl (o.core.val % 8)) t.scope l bs t.q[3]

/-- Performs row `b` on every engine of the task. -/
def performRow (cl : ClusterId) (i : Nat) (b : Nat) : M Unit := do
  let s ← getS
  match taskAt s cl i with
  | none => pure ()
  | some t => do
    let outs ← collect t.engines (rowOn cl i t b)
    forList outs (writeRow cl t)
    let fl := outs.foldl (fun a o => a ||| o.flags) 0
    modS fun s => match taskAt s cl i with
      | some u => setTask cl i { u with ofl := u.ofl || fl &&& flagOF != 0, nv := u.nv || fl &&& flagNV != 0 } s
      | none => s

/-- The first row of a range that meets a fault, with its failure code (R291, R293). -/
def firstBadRow (cl : ClusterId) (i : Nat) (t : TileTask) : List Nat → M (Option (Nat × Nat))
  | [] => pure none
  | b :: r => do
    match ← tryM (collect t.engines (rowOn cl i t b)) with
    | .error (cause, _) => pure (some (b, failureCode cause))
    | .ok _ => firstBadRow cl i t r

/-! ## The end of a task (R291, R293, R365) -/

/-- Records a task in `ttstat` and `ttaddr` while none is recorded (R293). -/
def recordTask (t : TileTask) (core code : Nat) : State → State :=
  mapSlot t.seq fun m =>
    if code = 0 ∨ m.ttstat.getLsbD 63 then m
    else { m with ttstat := BitVec.ofNat 64 (2 ^ 63 + core <<< 6 + code), ttaddr := t.record }

/-- The steps that end a task in a state: 1 done, 2 stopped, 3 refused. -/
def endTile (cl : ClusterId) (i : Nat) (state code resume : Nat) : M Unit := do
  let s ← getS
  match taskAt s cl i with
  | none => pure ()
  | some t => do
    let e := t.engines.headD ((mayUse (coreOf t.seq) t.mask).headD 0)
    let a := t.agent cl e
    let sc := engineReach (coreOf t.seq) t.mask t.scope
    whenPerformed t.seq a.src
    forList t.pins fun p => do
      let _ ← attempt (releasePin (a.atS t.ctx) t.kvm p)
    releaseFor a sc false
    let sFail ← if state = 2 then pure none else signal a t.scope t.sig t.q[7]
    let code := if state = 1 then sFail.getD 0 else code
    let ran := if t.pick && t.running then e else 0
    let flags := (if t.ofl then 2 else 0) + (if t.nv then 1 else 0)
    releaseFor a sc false
    let qFail ← attempt (storeN a t.scope t.record 8
      (state <<< 62 + code <<< 56 + flags <<< 54 + ran <<< 51 + resume <<< 40 + Word.field t.q[0] 0 40))
    releaseFor a sc false
    whenPerformed t.seq a.src
    modS fun s =>
      let first := if code ≠ 0 then code else sFail.getD 0
      let s := recordTask t e first s
      let s := match qFail with | some (.trap k _) => recordTask t e (failureCode k) s | _ => s
      let s := mapCluster cl (fun k => { k with tasks := dropAt k.tasks i }) s
      let s := mapSlot t.seq (fun m => { m with doneTt := max m.doneTt (scopeLevel sc) }) s
      let s := mapPart t.ctx.part (fun p => { p with progress := s.cycle }) s
      let s := if state ≠ 2 ∧ t.sig ≠ 0 ∧ sFail.isNone then pokeAwaits cl t.ctx.part t.q[7] s else s
      let s := if t.running then traceEngine 1 6 t.seq t.strip (if state = 3 then s.cycle else max s.cycle (t.began + 1))
        t.record (BitVec.ofNat 64 (state <<< 62 + e)) s else s
      countEvent t.seq 6 1 t.record s

/-! ## Readiness and placement (R287) -/

/-- Reads await `i` of a task for its translation, at the position of the cluster; true when it is met. -/
def readAwait (cl : ClusterId) (t : TileTask) (i : Nat) : M Bool := do
  let va := if i = 0 then t.q[4] else t.q[5]
  let l ← translate { ctx := t.ctx, core := some (coreOf t.seq), cluster := some cl, seq := none } .load va
  let v ← readLoc { ctx := t.ctx, core := none, cluster := some cl, seq := none } t.scope l 8 va
  pure (if t.kind i = 1 then v == 0 else decide (Word.field t.q[6] (32 * i) 32 ≤ v))

/-- The CTS reads the awaits that are not met, once at enqueue, and when one may have changed, or every 1,024 cycles (R170,
R287); a fault stops the task before it starts. -/
def execTileTaskReady (cl : ClusterId) (idx : Nat) (s : State) : Host.Outcome State Fault Refusal :=
  match taskAt s cl idx with
  | none => .next s
  | some t =>
    if t.running || !(t.due || decide (t.lastRead + 1024 ≤ s.cycle)) then .next s
    else event (do
      let r ← tryBack (do
        let m0 ← if t.met0 then pure true else readAwait cl t 0
        let m1 ← if t.met1 then pure true else readAwait cl t 1
        pure (m0, m1))
      match r with
      | .error (cause, _) => endTile cl idx 2 (failureCode cause) 0
      | .ok (m0, m1) => modS fun s => match taskAt s cl idx with
        | some u => setTask cl idx { u with met0 := m0, met1 := m1, due := false, lastRead := s.cycle } s
        | none => s) s

/-- An engine runs no task. -/
def engineIdle (s : State) (cl : ClusterId) (e : Nat) : Bool :=
  !(s.cluster cl).tasks.any fun t => t.running && t.engines.contains e

/-- The engines that a task starts on now, if it can start. -/
def placement (s : State) (cl : ClusterId) (t : TileTask) : Option (List Nat) :=
  let es := mayUse (coreOf t.seq) t.mask
  if t.pick then (es.find? (engineIdle s cl)).map fun e => [e]
  else if es.all (engineIdle s cl) then some es else none

/-- The pick of a task, as the log names it. -/
def tilePick (t : TileTask) (es : List Nat) : Pick :=
  { record := t.record, part := t.ctx.part.val, prio := 0, tile := true, core := es.headD 0, slot := 0
    mask := if 1 < es.length then es.foldl (fun m e => m + 2 ^ e) 0 else 0 }

/-- A ready task of the cluster: its awaits are met, no fence holds it, and no stop is requested. -/
def TileTask.ready (s : State) (t : TileTask) : Bool :=
  !t.running && !t.stop && t.met0 && t.met1 && !t.fences.any (fenceHolds s t.seq)

/-- A ready task that is older, and could start now, has the use of one of some engines (R287; assumption
76). -/
def olderFirst (s : State) (cl : ClusterId) (idx : Nat) (es : List Nat) : Bool :=
  ((s.cluster cl).tasks.take idx).any fun u => u.ready s && match placement s cl u with
    | some fs => fs.any es.contains
    | none => false

/-- A ready task is placed on free engines, an idle engine taking the oldest of those that it can start, and the snapshot is
checked (R287, R290). In a replay only the task that the log names starts, the oldest with its record (R346). -/
def execTileTaskStart (cl : ClusterId) (idx : Nat) (s : State) : Host.Outcome State Fault Refusal :=
  match taskAt s cl idx with
  | none => .next s
  | some t =>
    match placement s cl t with
    | none => .next s
    | some es =>
      let older := ((s.cluster cl).tasks.take idx).any fun u => u.ready s && u.record == t.record && u.ctx.part == t.ctx.part
      if !t.ready s || !mayPick s cl (tilePick t es) || (if replayMode s cl = 2 then older else olderFirst s cl idx es) then .next s
      else event (do
        let u := { t with running := true, engines := es, began := s.cycle }
        modS fun s => setTask cl idx u (traceEngine 0 6 t.seq t.strip s.cycle t.record (BitVec.ofNat 64 (es.headD 0)) s)
        forList es fun e => acquireFor (t.agent cl e) (engineReach (coreOf t.seq) t.mask t.scope) false
        modS (madePick cl (tilePick t es))
        if snapshotOk u then pure () else endTile cl idx 3 5 t.row) s

/-- A running task performs its rows up to `upto` and ends when all are complete, when a row meets a fault, or when a
stop is requested; a task that has not started stops at its first row (R291). Rows are in no order (R292). -/
def execTileTaskEnd (cl : ClusterId) (idx upto : Nat) (s : State) : Host.Outcome State Fault Refusal :=
  match taskAt s cl idx with
  | none => .next s
  | some t =>
    if !t.running then (if t.stop then event (endTile cl idx 2 0 t.row) s else .next s)
    else event (do
      let hi := min upto t.rows
      let bad ← firstBadRow cl idx t (elemRange t.row hi)
      let n := match bad with | some (b, _) => b | none => max t.row hi
      forList (sortByKey (fun b => s.free .copyOrder b) (elemRange t.row n)) (performRow cl idx)
      modS fun s => match taskAt s cl idx with
        | some u => setTask cl idx { u with row := n } s
        | none => s
      orLater (match bad with
        | some (b, code) => endTile cl idx 2 code b
        | none =>
          if t.rows ≤ n then endTile cl idx 1 0 t.rows
          else if t.stop then endTile cl idx 2 0 n
          else pure ())) s

end Sys2Proof.Machine
end

