-- ==== Sys2Proof/Machine/Launch.lean ====
section
/-! DEFINITION. Start records and their placement (R161 to R164, R352), and the picks of the cluster task scheduler
(R169, R170, R346). -/

namespace Sys2Proof.Machine

/-! ## The host as an agent (R350) -/

/-- Accesses of a partition's host, through its launch tables at U. -/
def hostAgent (s : State) (p : PartId) : Agent :=
  let t := s.part p
  { ctx := { part := p, ptbase := t.lptb, asid := t.lasid, hpasid := t.lhpas, sup := false }
    core := none, cluster := none, seq := none }

/-! ## Hierarchies (R162, R163) -/

/-- A level: its domain code, its scope, and its count. -/
structure Level where
  dom : Nat
  scope : Nat
  count : Nat
  deriving DecidableEq, Repr

def domElement : Nat := 0
def domSeq : Nat := 1
def domCore : Nat := 2
def domGang : Nat := 3
def domCluster : Nat := 4
def domDie : Nat := 5
def domDevice : Nat := 6

/-- A level word that keeps its map; none for one that does not. -/
def levelOf (w : Nat) : Option Level :=
  let l : Level := { dom := w / 2 ^ 24 % 8, scope := w / 2 ^ 27 % 8, count := w % 2 ^ 24 }
  if w / 2 ^ 30 % 4 = 0 ∧ l.scope < 6 ∧ l.dom < 7 ∧ l.count ≠ 0 then some l else none

/-- Level words 0 to 7 of a record. -/
def levelWords (q : List Word) : List Nat :=
  (List.range 8).map fun l => Word.field (q.getD (4 + l / 2) 0) (32 * (l % 2)) 32

/-- The levels that are present, when they are 0 to n − 1 without a gap and keep their maps. -/
def levelsOf (ws : List Nat) : Option (List Level) :=
  let used := ws.takeWhile (· ≠ 0)
  if used.isEmpty || (ws.drop used.length).any (· ≠ 0) then none else used.mapM levelOf

/-- The domain next wider than one (R163): gang is no step of the order. -/
def widerDom (d : Nat) : Nat :=
  if d = domElement then domSeq else if d = domSeq then domCore else if d = domCore ∨ d = domGang then domCluster
  else if d = domCluster then domDie else domDevice

/-- A run of consecutive levels of one domain: the domain and the counts. -/
structure LevelRun where
  dom : Nat
  counts : List Nat
  deriving DecidableEq, Repr

def LevelRun.product (r : LevelRun) : Nat := r.counts.foldl (· * ·) 1

/-- The levels other than the element level, in runs. -/
def levelRuns : List Level → List LevelRun
  | [] => []
  | l :: r =>
    if l.dom = domElement then levelRuns r
    else match levelRuns r with
      | [] => [{ dom := l.dom, counts := [l.count] }]
      | h :: t => if h.dom = l.dom then { h with counts := l.count :: h.counts } :: t else { dom := l.dom, counts := [l.count] } :: h :: t

/-- Instances of a domain within one instance of another (the table of R163). -/
def available (outer inner : Nat) : Nat :=
  if outer = domDevice then
    if inner = domDevice then 1 else if inner = domDie then 4 else if inner = domCluster then 24 else if inner = domGang then 96
    else if inner = domCore then 192 else if inner = domSeq then 768 else 0
  else if outer = domDie then
    if inner = domCluster then 6 else if inner = domGang then 24 else if inner = domCore then 48 else if inner = domSeq then 192 else 0
  else if outer = domCluster then
    if inner = domGang then 4 else if inner = domCore then 8 else if inner = domSeq then 32 else 0
  else if outer = domGang then (if inner = domCore then 8 else 0)
  else if outer = domCore then (if inner = domSeq then 4 else 0)
  else 0

/-- Each run fits into one instance of the domain around it. -/
def runsFit : Nat → List LevelRun → Bool
  | _, [] => true
  | outer, r :: rest => decide (r.product ≤ available outer r.dom) && runsFit r.dom rest

/-- Domains do not widen downward, an element level is the last, and a gang level is followed by a core level. -/
def domainsOk : List Level → Bool
  | [] => true
  | [l] => l.dom != domGang
  | a :: b :: r => decide (b.dom ≤ a.dom) && a.dom != domElement && (a.dom != domGang || b.dom == domCore) && domainsOk (b :: r)

/-- Below a gang a sequencer level has count 1. -/
def gangSeqsOk (ls : List Level) : Bool :=
  !(ls.any fun l => l.dom == domGang) || ls.all fun l => l.dom != domSeq || l.count == 1

/-- The placement domain of a launch (R163). -/
def placementDom (ls : List Level) : Nat :=
  match ls with
  | [] => domDevice
  | l :: _ => if l.dom = domDevice then domDevice else widerDom l.dom

/-- The hierarchy is valid. -/
def hierarchyOk (ls : List Level) : Bool := domainsOk ls && gangSeqsOk ls && runsFit (placementDom ls) (levelRuns ls)

/-- The levels of a start record that keeps the launch format (R161, R163). -/
def startLevels (q : List Word) : Option (List Level) :=
  let q2 := q.getD 2 0
  if (q.drop 8).all (· == 0) && Word.field q2 32 32 == 0 && !q2.getLsbD 8 && Word.field q2 4 2 == 0 && Word.field q2 6 2 != 3
      && decide (1 ≤ Word.field q2 0 4) && decide (Word.field q2 0 4 ≤ 8) && Word.field (q.getD 0 0) 0 2 == 0
  then match levelsOf (levelWords q) with
    | some ls => if hierarchyOk ls then some ls else none
    | none => none
  else none

/-! ## Placement (R153, R164) -/

/-- An instance of a domain. -/
inductive Inst where
  | device
  | die (d : Fin 4)
  | cluster (c : ClusterId)
  | gang (c : ClusterId) (k : Fin 4)
  /-- A core; within a gang, with the stream slot. -/
  | core (c : CoreId) (k : Option (Fin 4))
  | seq (q : SeqId)
  deriving DecidableEq, Repr

def clustersIn : Inst → List ClusterId
  | .device => allClusters
  | .die d => allClusters.filter fun c => c.val / 6 == d.val
  | .cluster c => [c]
  | _ => []

def coresIn : Inst → List CoreId
  | .gang c _ => coresOf c
  | .core c _ => [c]
  | i => (clustersIn i).flatMap coresOf

/-- The sequencers that an instance holds, in ascending number. -/
def seqsIn : Inst → List SeqId
  | .gang c k => (coresOf c).map fun d => seqOf d k
  | .core c (some k) => [seqOf c k]
  | .core c none => seqsOf c
  | .seq q => [q]
  | i => (coresIn i).flatMap seqsOf

/-- The instances of a domain in an instance, in ascending number. -/
def instancesIn (i : Inst) (dom : Nat) : List Inst :=
  if dom = domDevice then [.device]
  else if dom = domDie then (List.finRange 4).map .die
  else if dom = domCluster then (clustersIn i).map .cluster
  else if dom = domGang then (clustersIn i).flatMap fun c => (List.finRange 4).map (.gang c)
  else if dom = domCore then (coresIn i).map fun c => .core c (match i with | .gang _ k => some k | _ => none)
  else (seqsIn i).map .seq

/-- What a record asks of each of its threads. -/
structure Ask where
  part : PartId
  request : Nat
  /-- Reclaimable units count as well (step 2 of R153). -/
  shrinks : Bool
  deriving DecidableEq, Repr

/-- A sequencer that a record may take beside those chosen already. -/
def admits (s : State) (a : Ask) (chosen : List SeqId) (q : SeqId) : Bool :=
  let c := coreOf q
  let units := if a.shrinks && (s.core c).coreWait.isNone then reachableUnits s c else (freeUnits s c).length
  coreAdmits s c a.part && slotIdle s q none && !chosen.contains q
    && decide (a.request * ((chosen.filter fun d => coreOf d == c).length + 1) ≤ units)

/-- A stream slot that holds no gang, for a gang instance. -/
def streamFree (s : State) : Inst → Bool
  | .gang c k => (s.cluster c).gangs[k].isNone
  | _ => true

/-- The indices of instance `j` at consecutive levels, row-major (R164). -/
def rowMajor (counts : List Nat) (j : Nat) : List Nat :=
  (counts.foldr (fun c (a : List Nat × Nat) => (a.2 % c :: a.1, a.2 / c)) ([], j)).1

/-- Places the threads of the runs in an instance, lowest-numbered first: the indices and the sequencer of each. -/
def place (s : State) (a : Ask) : List LevelRun → List SeqId → Inst → Option (List (List Nat × SeqId))
  | [], chosen, i => ((seqsIn i).find? (admits s a chosen)).map fun q => [([], q)]
  | r :: rest, chosen, i =>
    let out := (instancesIn i r.dom).foldl (fun (acc : Nat × List (List Nat × SeqId)) j =>
      if acc.1 = r.product then acc
      else if streamFree s j = false then acc
      else match place s a rest (chosen ++ acc.2.map (·.2)) j with
        | some ts => (acc.1 + 1, acc.2 ++ ts.map fun t => (rowMajor r.counts acc.1 ++ t.1, t.2))
        | none => acc) (0, [])
    if out.1 = r.product then some out.2 else none

/-- The whole launch lies in one instance of its placement domain, the lowest-numbered that admits it. -/
def placeLaunch (s : State) (a : Ask) (ls : List Level) : Option (List (List Nat × SeqId)) :=
  (instancesIn .device (placementDom ls)).findSome? (place s a (levelRuns ls) [])

/-! ## Starting a record (R164) -/

/-- The allocators of some cores reconsider (R152). -/
def reconsiderAll (cs : List CoreId) (s : State) : State := cs.foldl (fun s c => reconsider c s) s

/-- The members of the launch's gangs: one gang for each cluster and stream slot among its sequencers. -/
def formGang (entry : Word) (qs : List SeqId) (q : SeqId) (s : State) : State :=
  let cl := clusterOf q
  let mine := qs.filter fun r => clusterOf r == cl && slotFin r == slotFin q
  let m : BitVec 8 := mine.foldl (fun m r => m ||| ((1#8) <<< ((coreOf r).val % 8))) 0
  s.setGang cl (slotFin q) (some { members := m, path := [(entry, none)], base := 0, hold := none })

/-- The threads of a record start, each with the lowest free units of its core. -/
def startLaunch (p : PartId) (q : List Word) (sup : Bool) (ls : List Level) (ts : List (List Nat × SeqId)) (s : State) : State :=
  let q2 := q.getD 2 0
  let gang := ls.any fun l => l.dom == domGang
  let id := s.launches.length
  let scopes := ls.map fun l => if l.dom = domElement then none else some ((Scope.ofBits (BitVec.ofNat 3 l.scope)).getD .device)
  let launch : Launch := { levels := scopes, parts := ts.map fun t => { hidx := t.1, arrived := List.replicate 8 0, gone := false } }
  let start (s : State) (e : (List Nat × SeqId) × Nat) : State :=
    let i : ThreadInit :=
      { part := p, entry := q.getD 0 0, arg := q.getD 1 0, x5 := 0, request := Word.field q2 0 4
        alloc := allotment (Word.field q2 6 2), vceil := Word.field q2 16 16, prio := Word.field q2 10 2, elastic := q2.getLsbD 9
        sup := sup, hidx := e.1.1, xjoin := 0, xdone := q.getD 3 0, launch := some (id, e.2), gmember := gang, attached := gang
        strip := 0, kvRegs := [] }
    startThread e.1.2 i ((freeUnits s (coreOf e.1.2)).take i.request) s
  let s := ts.zipIdx.foldl start { s with launches := s.launches ++ [launch] }
  let s := if gang then ts.foldl (fun s t => formGang (q.getD 0 0) (ts.map (·.2)) t.2 s) s else s
  reconsiderAll ((ts.map fun t => coreOf t.2).eraseDups) s

/-- The cores that wait for a record of a queue. -/
def waitingCores (s : State) (p : PartId) (n : Fin 8) : List CoreId :=
  allCores.filter fun c => match (s.core c).coreWait with | some w => w.part == p && w.queue == some n | none => false

/-- They wait no longer; their allocators have not reconsidered yet. -/
def dropWaits (cs : List CoreId) (s : State) : State :=
  cs.foldl (fun s c => mapCore c (fun k => { k with coreWait := none }) s) s


/-- Cores that could admit their threads of a record after shrinks wait for it (step 2 of R153, R164). One of `cs`, which
waited for it before, keeps its waiting place when its shrinks have been applied, until the record starts as a whole. -/
def reserveCores (p : PartId) (n : Fin 8) (request : Nat) (cs : List CoreId) (ts : List (List Nat × SeqId)) (s : State) : State :=
  ((ts.map fun t => coreOf t.2).eraseDups).foldl (fun s c =>
    let slots := (ts.filter fun t => coreOf t.2 == c).map fun t => slotOf t.2
    let need := request * slots.length
    if need ≤ (freeUnits s c).length ∧ !cs.contains c then s
    else reconsider c (mapCore c (fun k => { k with
      coreWait := some { part := p, slots := slots, need := need, init := none, queue := some n } }) s)) s

/-! ## Host queues (R352) -/

/-- Physical address of the descriptor of a queue (R351). -/
def queueDesc (s : State) (p : PartId) (n : Fin 8) : Nat := Word.field (s.part p).qtab 9 43 * 512 + 64 * n.val

/-- A record has been consumed: ci + 1 is written, and vector 1 is raised when the descriptor asks for it. -/
def consumeRecord (p : PartId) (n : Fin 8) (s : State) : State :=
  let q := (s.part p).queues[n]
  let ci := q.ci + 1
  let s := mapPart p (fun t => { t with queues := t.queues.set n { q with ci := ci, avail := q.avail - 1 }, served := n.val }) s
  let s := deviceWrite (queueDesc s p n + 16) (bytesOfNat 8 ci.toNat) s
  if q.irq then raiseVector p 1 s else s

/-- A refused record is logged and consumed. -/
def refuseRecord (p : PartId) (n : Fin 8) (code : Nat) (va : Word) (s : State) : State :=
  consumeRecord p n (logEvent p 1 code va (BitVec.ofNat 64 n.val) s)

/-- Device virtual address of the next record of a queue. -/
def entryVa (q : HostQueue) : Word := q.base + BitVec.ofNat 64 (128 * (q.ci.toNat % q.size))

/-- The next record of a queue is refused, or starts, or waits: true when it has been consumed. -/
def tryRecord (p : PartId) (n : Fin 8) (s0 : State) : Bool × State :=
  let hq := (s0.part p).queues[n]
  let va := entryVa hq
  match quadsAt (hostAgent s0 p) .system va 16 s0 with
  | .error (.wait _) s => (false, { s0 with pri := s.pri })
  | .error _ s => (true, refuseRecord p n 5 va s)
  | .ok q s1 =>
    match startLevels q with
    | none => (true, refuseRecord p n 1 va s1)
    | some ls =>
      let q2 := q.getD 2 0
      if Word.field q2 12 4 ≠ p.val then (true, refuseRecord p n 2 va s1)
      else
        let cs := waitingCores s1 p n
        let s := dropWaits cs s1
        let r := Word.field q2 0 4
        match placeLaunch s { part := p, request := r, shrinks := false } ls with
        | some ts => (true, reconsiderAll cs (consumeRecord p n (startLaunch p q hq.sup ls ts s)))
        | none => match placeLaunch s { part := p, request := r, shrinks := true } ls with
          | some ts => (false, reconsiderAll cs (reserveCores p n r cs ts s))
          | none => (false, reconsiderAll cs s)

/-- Queues after the one served last, in turn. -/
def queueOrder (served : Nat) : List (Fin 8) :=
  (List.range 8).map fun i => ⟨(served + 1 + i) % 8, Nat.mod_lt _ (by omega)⟩

/-- The queues are tried in turn until one of them has consumed its record. -/
def serveQueues (p : PartId) : List (Fin 8) → State → State
  | [], s => s
  | n :: r, s =>
    if (s.part p).queues[n].avail = 0 then serveQueues p r s
    else match tryRecord p n s with
      | (true, s') => s'
      | (false, s') => serveQueues p r s'

/-- The queue unit of a partition handles one record (R164, R352). -/
def execStartRecordAdmission (p : PartId) (s : State) : Host.Outcome State Fault Refusal :=
  if (s.part p).pstate = 2 ∨ deviceStopped s then .next s
  else .next (serveQueues p (queueOrder (s.part p).served) s)

/-! ## The picks of the cluster task scheduler (R169) -/

/-- A record of the queue is ready. -/
def ContRec.ready (r : ContRec) : Bool := r.awaited.isNone

/-- The ready records of a level, partitions in turn after the one served last, each partition's oldest first; with
their places in the queue. -/
def pickCandidatesAt (s : State) (cl : ClusterId) (level : Fin 4) : List (ContRec × Nat) :=
  let k := s.cluster cl
  (List.range 16).flatMap fun i => k.queue.zipIdx.filter fun e =>
    e.1.ready && e.1.level == level.val && e.1.part.val == (k.served[level] + 1 + i) % 16

/-- All pickCandidates of a pick, in its order. -/
def pickCandidates (s : State) (cl : ClusterId) : List (ContRec × Nat) :=
  [(3 : Fin 4), 2, 1, 0].flatMap (pickCandidatesAt s cl)

/-- The places that a record may take: any slot of the cluster, or the one it is bound to. -/
def placesOf (cl : ClusterId) (r : ContRec) : List SeqId :=
  match r.bound with
  | some b => (seqsOf (coreIn cl ⟨b.core % 8, Nat.mod_lt _ (by omega)⟩)).filter fun q => slotOf q == b.slot
  | none => (coresOf cl).flatMap seqsOf

/-- Where a record is placed, and whether it starts at once (step 1) or waits on the core (step 2): of a core's idle slots
the lowest (assumption 71). -/
def placeRecord (s : State) (r : ContRec) (qs : List SeqId) : Option (SeqId × Bool) :=
  match qs.find? (admits s { part := r.part, request := r.request, shrinks := false } []) with
  | some q => some (q, true)
  | none => (qs.find? fun q => (s.core (coreOf q)).coreWait.isNone
      && admits s { part := r.part, request := r.request, shrinks := true } [] q).map fun q => (q, false)

/-- A record as the log names its pick. -/
def contPick (r : ContRec) (q : SeqId) : Pick :=
  { record := r.addr, part := r.part.val, prio := r.level, tile := false, core := (coreOf q).val % 8, slot := slotOf q, mask := 0 }

/-- The pick to make: the first candidate that some core can admit; in a replay the record that the log names, in its
place. -/
def choosePick (s : State) (cl : ClusterId) : Option (ContRec × Nat × SeqId × Bool) :=
  let named := namedPick s cl
  if replayMode s cl = 2 ∧ named.isNone then none
  else
    let wanted (r : ContRec) : Bool := match named with
      | none => true
      | some p => !p.tile && p.record == r.addr && p.part == r.part.val && p.prio == r.level
    let allowed (r : ContRec) : List SeqId := (placesOf cl r).filter fun q => match named with
      | none => true
      | some p => (coreOf q).val % 8 == p.core && slotOf q == p.slot
    let cs := (pickCandidates s cl).filter fun e => wanted e.1
    (if replayMode s cl = 2 then cs.take 1 else cs).findSome? fun e =>
      (placeRecord s e.1 (allowed e.1)).map fun a => (e.1, e.2, a.1, a.2)

/-- A record leaves its place in the queue, and the records behind it move up (R167). The answer tells whether a spill
entry read for it has an uncorrectable error (R168). -/
def leaveQueue (cl : ClusterId) (r : ContRec) (i : Nat) (s : State) : Bool × State :=
  let s' := mapCluster cl (fun k => { k with queue := dropAt k.queue i }) s
  if spillBad s r then (true, s')
  else match refillHead cl r.part r.level 64 s' with
    | (bad, s'') => (bad.isSome, s'')

/-- An uncorrectable error in a queue's spill entry is fatal to the partition (R168, R333). -/
def spillFault (r : ContRec) (s : State) : State := discardPart r.part 3 0 s

/-- A pick is made. What the start of the thread acquires at cluster scope is not in its core's L1 any more (R198, R199). -/
def makePick (cl : ClusterId) (r : ContRec) (i : Nat) (q : SeqId) (now : Bool) (s : State) : State :=
  let c := coreOf q
  match leaveQueue cl r i (madePick cl (contPick r q) s) with
  | (true, s) => spillFault r s
  | (false, s) =>
    let s := refreshTo c 2 false (mapCluster cl (fun k => { k with served := k.served.setIfInBounds r.level r.part.val }) s)
    if now then reconsider c (startThread q (contInit r) ((freeUnits s c).take r.request) s)
    else reconsider c (mapCore c (fun k => { k with
      coreWait := some { part := r.part, slots := [slotOf q], need := r.request, init := some (contInit r), queue := none } }) s)

/-- The scheduler of a cluster makes at most one pick (R169). -/
def execCtsPick (cl : ClusterId) (s : State) : Host.Outcome State Fault Refusal :=
  if deviceStopped s then .next s
  else
    let s := replayIdle cl s
    match choosePick s cl with
    | none => .next s
    | some (r, i, q, now) => .next (makePick cl r i q now s)

/-- A record that has waited 2^16 cycles moves to the tail of the next level up, when that queue has room (R167, R169). -/
def execRecordAging (cl : ClusterId) (idx : Nat) (s : State) : Host.Outcome State Fault Refusal :=
  match (s.cluster cl).queue[idx]? with
  | none => .next s
  | some r =>
    if r.ready && decide (r.level < 3) && decide (2 ^ 16 ≤ s.cycle - r.since) && queueRoom s cl r.part (r.level + 1) then
      .next (match leaveQueue cl r idx s with
        | (true, s') => spillFault r s'
        | (false, s') => enqueueCont cl { r with level := r.level + 1, since := s.cycle } s')
    else .next s

/-- A partition has a resident thread or a ready record, which the watchdog asks for (R355). -/
def hasWork (s : State) (p : PartId) : Bool :=
  (allSeqs.any fun q => (s.slot q).busy && (s.slot q).part == p)
    || allClusters.any fun cl => (s.cluster cl).queue.any fun r => r.part == p && r.ready

/-- A record becomes ready; the watchdog of a partition that had no work counts from now on (R355). -/
def becomeReady (cl : ClusterId) (idx : Nat) (r : ContRec) (s : State) : State :=
  let s' := mapCluster cl (fun k => { k with queue := k.queue.set idx { r with awaited := none, since := s.cycle } }) s
  if hasWork s r.part then s' else mapPart r.part (fun p => { p with progress := s.cycle }) s'

/-- The scheduler rereads the counter of a waiting record (R170): after an exit of the cluster brought a counter to 0,
and every 1,024 cycles. A read that fails is logged once (R365). -/
def execJoinCounterReread (cl : ClusterId) (idx : Nat) (s : State) : Host.Outcome State Fault Refusal :=
  match (s.cluster cl).queue[idx]? with
  | none => .next s
  | some r =>
    match r.awaited with
    | none => .next s
    | some a =>
      if !(a.poked || decide (a.last + 1024 ≤ s.cycle)) then .next s
      else
        let put (x : ContRec) : State → State := mapCluster cl fun k => { k with queue := k.queue.set idx x }
        if spillBad s r then .next (spillFault r s)
        else event (do
          let v ← tryBack (do
            let l ← translate { ctx := a.ctx, core := some a.core, cluster := some cl, seq := none } .load a.ctr
            readLoc { ctx := a.ctx, core := none, cluster := some cl, seq := none } .cluster l 8 a.ctr)
          let b := { a with last := s.cycle, poked := false }
          match v with
          | .ok 0 => modS (becomeReady cl idx r)
          | .ok _ => modS (put { r with awaited := some b })
          | .error (cause, _) =>
            modS fun s => (if a.logged then id else logEvent r.part 8 (failureCode cause) a.ctr r.addr)
              (put { r with awaited := some { b with logged := true } } s)) s

/-- The pick that a replay names can be made now. -/
def canPick (s : State) (cl : ClusterId) (p : Pick) : Bool :=
  if p.tile then (s.cluster cl).tasks.any fun t => t.ready s && (placement s cl t).map (tilePick t) == some p
  else (choosePick s cl).isSome

/-- A record other than the one that a replay names is ready. -/
def otherReady (s : State) (cl : ClusterId) (p : Pick) : Bool :=
  (s.cluster cl).queue.any (fun r => r.ready && !(!p.tile && r.addr == p.record && r.part.val == p.part && r.level == p.prio))
    || (s.cluster cl).tasks.any fun t => t.ready s && !(p.tile && t.record == p.record && t.ctx.part.val == p.part)

/-- A replay ends when its named pick cannot be made within 2^20 cycles while some other record is ready (R346). -/
def execReplayDivergence (cl : ClusterId) (s : State) : Host.Outcome State Fault Refusal :=
  match namedPick s cl with
  | none => .next (replayIdle cl s)
  | some p =>
    if 2 ^ 20 ≤ s.cycle - (s.cluster cl).rpSince ∧ otherReady s cl p = true ∧ canPick s cl p = false then
      .next (endReplay cl true s)
    else .next s

end Sys2Proof.Machine
end

