-- ==== Sys2Proof/Machine/Trace.lean ====
section
/-! DEFINITION. `tmark`, the publication of ring heads, the sampling counter and the profile table (R339, R344, R345,
R347). -/

namespace Sys2Proof.Machine

/-- `tmark` (R347): pipe 7, kind 3. -/
def execTmark (rs1 : Reg) (imm : BitVec 16) (s : State) : Host.Outcome State Fault Refusal :=
  run (wordI imm rs1 0 0x2E) (do
    let s ← getS
    let t := s.me
    if traced s s.cur 3 then
      modS (pushTrace (coreOf s.cur) (traceQuads 3 7 (slotOf s.cur) t.strip t.pc (t.readX rs1) (imm.signExtend 64)))
    pure .next) s

/-- Publishes the replay log of a cluster while it is written. -/
def publishReplay (cl : ClusterId) (s : State) : State :=
  if replayMode s cl = 1 then
    let (r, s') := ringPublish (s.cluster cl).replay s
    mapCluster cl (fun k => { k with replay := r }) s'
  else s

/-- The ring writers that a core and its cluster hold publish their heads, which they may do before they have to (R339): the
trace, the log, and the profile ring of the owner. -/
def execTraceHeadPublish (c : CoreId) (s : State) : Host.Outcome State Fault Refusal :=
  let s := publishReplay (clusterOfCore c) (publishTrace c s)
  .next (match (s.core c).owner with
    | some p => publishProfile p (drainProfile c s)
    | none => s)

/-! ## What a cycle counts (R344, R345) -/

/-- The reason filter of event 3 takes a stall reason (R344). -/
def reasonCounted (t : Slot) (r : Nat) : Bool :=
  let f := Word.field t.smpctl 12 4
  if f = 15 then r != 0 else r == f

/-- A cycle passes for the sampling counter of a slot, the `i`-th of a step: events 0 and 3; the others are counted where
they happen (R344). -/
def sampleCycle (q : SeqId) (i : Nat) (s : State) : State :=
  let t := s.slot q
  let r := stallReason s q i
  match Word.field t.smpctl 0 4 with
  | 0 => countEventAs q 0 1 r t.pc s
  | 3 => if reasonCounted t r then countEventAs q 3 1 r t.pc s else s
  | _ => s

/-- A cycle passes for every slot that holds a thread of a partition (R345). -/
def profileCycleOf (p : PartId) (i : Nat) (s : State) : State :=
  (allSeqs.filter fun q => (s.slot q).busy && (s.slot q).part == p).foldl (fun s q => profileCycle q i s) s

/-- A cycle of a slot's sampling counter, with the wrap that it may make (R344). -/
def execSampleCounterWrap (q : SeqId) (s : State) : Host.Outcome State Fault Refusal := .next (sampleCycle q 0 s)

/-- A host flush request spills every entry of a partition (R345, R351). -/
def flushProfile (p : PartId) (s : State) : State := allCores.foldl (fun s c => spillProfile c p s) s

/-- PCTL.flush (R345). -/
def execProfileFlush (p : PartId) (s : State) : Host.Outcome State Fault Refusal := .next (flushProfile p s)

/-- One cycle of a profiled partition (R345). -/
def execProfileCycleCount (p : PartId) (s : State) : Host.Outcome State Fault Refusal :=
  .next (if (s.part p).prof then profileCycleOf p 0 s else s)

/-! ## The passing of time -/

/-- Publishes a profile ring, or a replay log, whose oldest unpublished record has waited 2^16 cycles (R339). -/
def publishOverdue (s : State) : State :=
  let s := allParts.foldl (fun s p => if (s.part p).profRing.overdue s.cycle then publishProfile p s else s) s
  allClusters.foldl (fun s cl => if (s.cluster cl).replay.overdue s.cycle then publishReplay cl s else s) s

/-- The `i`-th cycle of a step passes: the profile tables and the sampling counters count it, the trace units write the
records of its events, and heads that are due are published. How soon buffered spills are written is free (assumption 6). -/
def passCycle (i : Nat) (s : State) : State :=
  let s := allCores.foldl (fun s c =>
    if (s.core c).profBuf.isEmpty || s.free .stall (1024 * i + 768 + c.val) % 2 == 0 then s else drainProfile c s) s
  let s := allParts.foldl (fun s p => if (s.part p).prof then profileCycleOf p i s else s) s
  let s := allSeqs.foldl (fun s q => if (s.slot q).busy && (s.slot q).smpctl.getLsbD 7 then sampleCycle q i s else s) s
  let s := allCores.foldl (fun s c => closeTrace c s) s
  let s := publishOverdue s
  { s with cycle := s.cycle + 1 }

/-- Cycles pass, from the `i`-th of a step on. -/
def passCycles : Nat → Nat → State → State
  | _, 0, s => s
  | i, n + 1, s => passCycles (i + 1) n (passCycle i s)

/-- Nothing counts cycles, and no ring's writer has anything to do. -/
def quiet (s : State) : Bool :=
  (s.parts.toList.all fun p => !p.prof && p.profRing.unpub == 0)
    && (s.slots.toList.all fun t => !(t.busy && t.smpctl.getLsbD 7))
    && (s.cores.toList.all fun c => c.profBuf.isEmpty && c.trace.queue.isEmpty && c.trace.unpub == 0 && c.trace.lostSince == 0)
    && (s.clusters.toList.all fun c => c.replay.unpub == 0)

/-- `n` cycles pass. -/
def passTime (n : Nat) (s : State) : State := if quiet s then { s with cycle := s.cycle + n } else passCycles 0 n s

end Sys2Proof.Machine
end

