-- ==== Sys2Proof/Machine/HostIf.lean ====
section
/-! DEFINITION. The host interface: the BAR0 registers, host queues, BAR2, core ownership, partition reset, the watchdog,
MSI-X masks, extents and peers, and host memory (R233 to R236, R350 to R360). -/

namespace Sys2Proof.Machine

/-! ## Partition state (R351) -/

/-- PSTAT.threads. -/
def threadsOf (s : State) (p : PartId) : Nat := (allSeqs.filter fun q => (s.slot q).busy && (s.slot q).part == p).length

/-- PSTAT.state: 0 idle, 1 running, 2 resetting. -/
def pstatState (s : State) (p : PartId) : Nat :=
  if (s.part p).pstate = 2 then 2 else if threadsOf s p = 0 then 0 else 1

/-- Continuation records that a partition has queued. -/
def queuedRecords (s : State) (p : PartId) : Nat :=
  (allClusters.map fun cl => ((s.cluster cl).queue.filter fun r => r.part == p).length).sum

/-! ## Queues (R351, R352) -/

/-- A queue descriptor keeps its map. -/
def queueDescOk (s : State) (a : Nat) : Bool :=
  let q (i : Nat) := deviceQuad s (a + 8 * i)
  decide (a < hbmTop) && [4, 5, 6, 7].all (fun i => q i == 0) && q 3 >>> 3 == 0
    && (List.range 17).any (fun k => q 1 == 2 ^ (k + 4)) && q 0 % 128 == 0

/-- A write of QPIn. -/
def qpiWrite (p : PartId) (n : Fin 8) (v : BitVec 32) (s : State) : State :=
  let a := queueDesc s p n
  let q (i : Nat) := deviceQuad s (a + 8 * i)
  let refuse (code : Nat) : State := logEvent p 1 code (BitVec.ofNat 64 a) (BitVec.ofNat 64 n.val) s
  if (s.part p).pstate = 2 then s
  else if queueDescOk s a = false ∨ q 3 % 2 = 0 then refuse 4
  else
    let ci := BitVec.ofNat 32 (q 2)
    let avail := (v - ci).toNat
    if q 1 < avail then refuse 3
    else mapPart p (fun t => { t with
      qpi := t.qpi.set n v
      queues := t.queues.set n { avail := avail, ci := ci, base := BitVec.ofNat 64 (q 0), size := q 1, irq := (q 3).testBit 2
                                 sup := (q 3).testBit 1 } }) s

/-- A host write of a producer index (R352). -/
def execQpiWrite (p : PartId) (queue : Fin 8) (v : BitVec 32) (s : State) : Host.Outcome State Fault Refusal :=
  .next (qpiWrite p queue v s)

/-! ## Rings (R353) -/

/-- The bits that name a ring descriptor. -/
def ringBits (v : Word) : Word := v &&& 0xFFFFFFFFFFFC0

/-- A write of FLOG; one that names a bad descriptor is ignored. -/
def flogWrite (p : PartId) (v0 : Word) (s : State) : State :=
  let v := ringBits v0
  if v = 0 then mapPart p (fun t => { t with flog := 0, flogRing := {} }) s
  else if ringOk s (ringDesc v) then mapPart p (fun t => { t with flog := v, flogRing := openRing s (ringDesc v) }) s
  else s

/-- A write of PROF, as of FLOG; what the ring before it holds is published. -/
def profWrite (p : PartId) (v0 : Word) (s : State) : State :=
  let v := ringBits v0
  if v = 0 then mapPart p (fun t => { t with profReg := 0, profRing := {} }) (publishProfile p s)
  else if ringOk s (ringDesc v) then
    let s := publishProfile p s
    mapPart p (fun t => { t with profReg := v, profRing := openRing s (ringDesc v) }) s
  else s

/-- A host write of FLOG (R353). -/
def execFlogWrite (p : PartId) (v : Word) (s : State) : Host.Outcome State Fault Refusal := .next (flogWrite p v s)
/-- A host write of PROF (R345, R353). -/
def execProfWrite (p : PartId) (v : Word) (s : State) : Host.Outcome State Fault Refusal := .next (profWrite p v s)

/-- A write of SPILL, which counts only while the partition is idle and has no queued records (R168). -/
def spillWrite (p : PartId) (v : Word) (s : State) : State :=
  if pstatState s p = 0 ∧ queuedRecords s p = 0 then mapPart p (fun t => { t with spill := v &&& 0xFFFFFFFFFFFFF }) s else s

/-- A host write of SPILL (R168, R351). -/
def execSpillWrite (p : PartId) (v : Word) (s : State) : Host.Outcome State Fault Refusal := .next (spillWrite p v s)

/-! ## Pre-emption by the host (R323, R351) -/

/-- A write of HPMREQ; a core that does not exist is none of the partition's. -/
def hpmreqWrite (p : PartId) (v : Word) (s : State) : State :=
  if h : Word.field v 0 8 < 192 then
    hostRequest p ⟨Word.field v 0 8, h⟩ ⟨Word.field v 8 2, by unfold Word.field; exact Nat.mod_lt _ (by decide)⟩ s
  else mapPart p (fun t => { t with hpmResult := 3, hpmTarget := none }) s

/-- A host write of HPMREQ (R351). -/
def execHpmreqWrite (p : PartId) (v : Word) (s : State) : Host.Outcome State Fault Refusal := .next (hpmreqWrite p v s)

/-! ## Partition reset and the watchdog (R333, R355) -/

/-- Clears the scratchpad and the accumulator store of a core (R216, R280). -/
def clearStores (c : CoreId) : State → State :=
  mapCore c fun k => { k with pad := [], acc := [], badPad := [], badAcc := [] }

/-- The registers that only the PF has, at their resets (R355, R358, R360, R363). The core owners and the debug sessions stay
as they are (R355, R357), and so does the record of the bring-up (assumption 78). -/
def resetPf (s : State) : State :=
  { s with pwrlim := 2800, pwrstat := 0, extasgn := 0, peertab := Vector.replicate 32 0 }

/-- A core of a partition that is reset: its stores, its trace registers, and the CSRs of its slots (R355). -/
def resetCore (c : CoreId) (s : State) : State :=
  (seqsOf c).foldl (fun s q => s.setSlot q {})
    (mapCore c (fun k => { k with trctl := 0, trbase := 0, trace := {}, frozen := none }) (clearStores c (traceFlush c s)))

/-- The steps of a partition reset up to its completion (R355). A pre-emption request of the host that was pending reads
2. -/
def resetPartition (p : PartId) (s : State) : State :=
  let pending := (s.part p).hpmTarget.isSome
  let s := mapPart p (fun t => { t with pstate := 2 }) s
  let s := logEvent p 7 0 0 0 (discardWork p s)
  let s := (allCores.filter fun c => (s.core c).owner == some p).foldl (fun s c => resetCore c s) s
  let s := s.setPart p { pstate := 2, hpmResult := if pending then 2 else 0, progress := s.cycle }
  let s := if p = 0 then resetPf s else s
  { dropCached p none none s with atc := s.atc.filter fun e => e.1 != p }

/-- PCTL.reset (R355). -/
def execPartitionReset (p : PartId) (s : State) : Host.Outcome State Fault Refusal := .next (resetPartition p s)
/-- A function-level reset (R355). -/
def execFunctionLevelReset (p : PartId) (s : State) : Host.Outcome State Fault Refusal := .next (resetPartition p s)
/-- The reset completes (R355, step 4). -/
def execPartitionResetDone (p : PartId) (s : State) : Host.Outcome State Fault Refusal :=
  .next (if (s.part p).pstate = 2 then mapPart p (fun t => { t with pstate := 0 }) s else s)

/-- The watchdog has run out: limit · 2^16 cycles without progress. -/
def watchdogDue (s : State) (p : PartId) : Bool :=
  (s.part p).wdog != 0 && hasWork s p && decide ((s.part p).wdog.toNat * 2 ^ 16 ≤ s.cycle - (s.part p).progress)

/-- The watchdog expires (R355). -/
def execWatchdogExpiry (p : PartId) (s : State) : Host.Outcome State Fault Refusal :=
  .next (if watchdogDue s p then discardPart p 2 0 s else s)

/-- An uncorrectable error in state that no instruction consumes (R333). -/
def execUncorrectableStateError (p : PartId) (s : State) : Host.Outcome State Fault Refusal := .next (discardPart p 3 0 s)

/-! ## Core ownership (R356) -/

/-- The owner that a PASSIGN value names. -/
def ownerOf (v : Word) : Option PartId := if v.getLsbD 4 then some ⟨Word.field v 0 4, by unfold Word.field; exact Nat.mod_lt _ (by decide)⟩ else none

/-- A write of PASSIGN[c]. One that changes v, or part under v = 1, changes the owner, and takes effect, with the clearing
of the core, once the core has drained; each such write is a change (R216, R356). -/
def passignWrite (c : CoreId) (v : Word) : State → State :=
  mapCore c fun k => { k with
    passign := v.extractLsb' 0 5
    newOwner := if ownerOf v = ownerOf (k.passign.zeroExtend 64) then k.newOwner else some (ownerOf v) }

/-- A host write of PASSIGN (R356). -/
def execPassignWrite (c : CoreId) (v : Word) (s : State) : Host.Outcome State Fault Refusal := .next (passignWrite c v s)

/-- The core holds no thread, no tile task and no waiting record. -/
def coreDrained (s : State) (c : CoreId) : Bool :=
  (busySeqs s c).isEmpty && engineLoad s (clusterOfCore c) (c.val % 8) == 0 && (s.core c).coreWait.isNone

/-- A drained core changes owner, and its scratchpad, accumulator store and trace registers are cleared (R216, R280,
R338, R356). -/
def execCoreOwnerChange (c : CoreId) (s : State) : Host.Outcome State Fault Refusal :=
  match (s.core c).newOwner with
  | none => .next s
  | some o =>
    if coreDrained s c then
      .next (clearStores c (mapCore c (fun k => { k with owner := o, newOwner := none, trctl := 0, trbase := 0, trace := {}, frozen := none })
        (traceFlush c s)))
    else .next s

/-! ## Debug sessions (R357) -/

/-- A cluster whose partition has left its session stops logging and replaying. -/
def endSessions (old : Word) (s : State) : State :=
  allClusters.foldl (fun s cl =>
    let left := (coresOf cl).any fun c => match (s.core c).owner with
      | some p => old.getLsbD p.val && !s.dbgsess.getLsbD p.val | none => false
    if replayMode s cl ≠ 0 ∧ left then endReplay cl false (publishReplay cl s) else s) s

/-- The frozen cycle of a core whose partition is in no session stops, and no sample is written in it. -/
def endFreeze (s : State) : State :=
  allCores.foldl (fun s c =>
    let on := match (s.core c).owner with | some p => inSession s p | none => false
    if on || (s.core c).frozen.isNone then s
    else mapCore c (fun k => { k with
      frozen := none
      trace := { k.trace with queue := k.trace.queue.filter fun e =>
        !(decide (s.cycle < e.1) && Word.field (e.2.headD 0) 60 4 == 4) } }) s) s

/-- A write of DBGSESS. -/
def dbgsessWrite (v : Word) (s : State) : State :=
  endFreeze (endSessions s.dbgsess { s with dbgsess := v &&& 0xFFFF })

/-- A host write of DBGSESS (R357). -/
def execDbgsessWrite (v : Word) (s : State) : Host.Outcome State Fault Refusal := .next (dbgsessWrite v s)

/-! ## MSI-X (R354) -/

/-- A vector is unmasked, and a pending message is sent. -/
def unmask (p : PartId) (vec : Fin 4) (s : State) : State :=
  let pending := (s.part p).pba.getLsbD vec.val
  let s := mapPart p (fun t => { t with
    msix := t.msix.set vec { t.msix[vec] with masked := false }, pba := t.pba &&& ~~~((1#4) <<< vec.val) }) s
  if pending then raiseVector p vec s else s

/-- A host write that unmasks a vector (R354). -/
def execMsixVectorUnmask (p : PartId) (vec : Fin 4) (s : State) : Host.Outcome State Fault Refusal := .next (unmask p vec s)

/-- A write of one of the two quads of an MSI-X table entry. -/
def msixWrite (p : PartId) (vec : Fin 4) (hi : Bool) (v : Word) (s : State) : State :=
  if hi then
    let s := mapPart p (fun t => { t with msix := t.msix.set vec { t.msix[vec] with data := v.extractLsb' 0 32 } }) s
    if v.getLsbD 32 then mapPart p (fun t => { t with msix := t.msix.set vec { t.msix[vec] with masked := true } }) s
    else unmask p vec s
  else mapPart p (fun t => { t with msix := t.msix.set vec { t.msix[vec] with addr := v } }) s

/-! ## Power (R363) -/

/-- A write of PWRLIM; a value outside the range is ignored. -/
def pwrlimWrite (v : Word) (s : State) : State :=
  let w := Word.field v 0 12
  if 1000 ≤ w ∧ w ≤ 2800 then { s with pwrlim := BitVec.ofNat 64 w } else s

/-- A host write of PWRLIM (R363). -/
def execPwrlimWrite (v : Word) (s : State) : Host.Outcome State Fault Refusal := .next (pwrlimWrite v s)

/-! ## Capacity-tier extents (R234, R360) -/

/-- The first address of the capacity-tier window (R218), and the unit of extents. -/
def tierBase : Nat := 0x4000000000000
def extentUnit : Nat := 0x10000000

/-- A window position from which `n` units are free. -/
def extentFits (s : State) (n a : Nat) : Bool :=
  s.extents.all fun x => decide (x.base + x.units * extentUnit ≤ a) || decide (a + n * extentUnit ≤ x.base)

/-- The lowest window position with `n` free units: the window's start, or the end of an extent. -/
def nextPosition (s : State) (n : Nat) : Option Nat :=
  (((tierBase :: s.extents.map fun x => x.base + x.units * extentUnit).filter fun a =>
    extentFits s n a && decide (a + n * extentUnit ≤ 2 * tierBase))).min?

/-- The fabric manager offers an extent (R360). -/
def execExtentOffer (units : Nat) (shared : Bool) (s : State) : Host.Outcome State Fault Refusal :=
  let v := s.extasgn
  match (if v.getLsbD 4 ∧ 0 < units then nextPosition s units else none) with
  | none => .next { s with outbox := s.outbox ++ [.declined units] }
  | some a =>
    let p : PartId := ⟨Word.field v 0 4, by unfold Word.field; exact Nat.mod_lt _ (by decide)⟩
    .next (logEvent p 3 0 (BitVec.ofNat 64 a) (BitVec.ofNat 64 units)
      { s with extents := { base := a, units := units, part := p, shared := shared, releasing := false } :: s.extents })

/-- A write of EXTREL names the window address of an extent. -/
def extrelWrite (v : Word) (s : State) : State :=
  { s with extents := s.extents.map fun x => if x.base = Word.field v 28 24 * extentUnit then { x with releasing := true } else x }

/-- A host write of EXTREL (R360). -/
def execExtrelWrite (v : Word) (s : State) : Host.Outcome State Fault Refusal := .next (extrelWrite v s)

/-- An address of an extent. -/
def Extent.holds (x : Extent) (a : Nat) : Bool := decide (x.base ≤ a) && decide (a < x.base + x.units * extentUnit)

/-- An extent leaves the window: no cache and no cell of the device holds its lines any more. -/
def dropExtent (x : Extent) (s : State) : State :=
  let keep (n : Nat) : Bool := !x.holds (64 * n)
  let s := allCores.foldl (fun s c => mapCore c (fun k => { k with
    l1 := k.l1.filter fun e => keep e.1, stq := k.stq.map fun l => l.filter fun e => keep e.1 }) s) s
  let s := allClusters.foldl (fun s cl => mapCluster cl (fun k => { k with buffer := k.buffer.filter fun e => keep e.1 }) s) s
  { s with extents := s.extents.filter (· != x), mem := s.mem.filter fun e => !x.holds e.1
           marks := s.marks.filter fun e => keep e.1, bad := s.bad.filter fun e => keep e.1 }

/-- An access to an extent is in flight: held at its lines, or the move of a relocation from or to one (R234). -/
def extentBusy (s : State) (x : Extent) : Bool :=
  (s.transit.any fun h => x.holds h.addr)
    || s.parts.toList.any fun p => p.darn.any fun j => match j.line with
      | some (l, t, _) => x.holds (64 * l) || x.holds (64 * t)
      | none => false

/-- A released extent whose accesses have drained returns to the fabric (R234, R360). -/
def execExtentReleaseDone (s : State) : Host.Outcome State Fault Refusal :=
  match s.extents.find? (·.releasing) with
  | none => .next s
  | some x =>
    if extentBusy s x then .next s
    else .next (logEvent x.part 4 0 (BitVec.ofNat 64 x.base) (BitVec.ofNat 64 x.units) (dropExtent x s))

/-! ## The registers of BAR0 (R350, R351) -/

/-- A register by its offset. -/
inductive HostReg where
  | pstat | pctl | qtab | qpi (n : Fin 8) | flog | prof | spill | wdog | hpmreq | peers | lptb | lasid | lheat | lkvm | lhpas
  | bstat | pwrlim | pwrstat | extasgn | extrel | dbgsess | passign (c : CoreId) | peertab (p : Fin 32)
  | msix (vec : Fin 4) (hi : Bool) | pba
  deriving DecidableEq, Repr

/-- The member of a run of registers of 8 bytes. -/
def regRun {k : Nat} (off lo : Nat) (f : Fin k → HostReg) : Option HostReg :=
  if h : lo ≤ off ∧ (off - lo) / 8 < k then some (f ⟨(off - lo) / 8, h.2⟩) else none

/-- The register at an offset that is a multiple of 8, in the block of a function. -/
def regAt (p : PartId) (off : Nat) : Option HostReg :=
  let pf (r : HostReg) : Option HostReg := if p = 0 then some r else none
  match off with
  | 0x0 => some .pstat | 0x8 => some .pctl | 0x10 => some .qtab | 0x80 => some .flog | 0x88 => some .prof | 0x90 => some .spill
  | 0x98 => some .wdog | 0xA0 => some .hpmreq | 0xA8 => some .peers | 0xB0 => some .lptb | 0xB8 => some .lasid
  | 0xC0 => some .lheat | 0xC8 => some .lkvm | 0xD0 => some .lhpas | 0x1000 => pf .bstat | 0x1008 => pf .pwrlim
  | 0x1010 => pf .pwrstat | 0x1018 => pf .extasgn | 0x1020 => pf .extrel | 0x1028 => pf .dbgsess
  | 0x4800 => some .pba
  | o => [regRun o 0x40 HostReg.qpi, (regRun o 0x2000 HostReg.passign).bind pf, (regRun o 0x3000 HostReg.peertab).bind pf,
      regRun (k := 8) o 0x4000 fun i => .msix ⟨i.val / 2, by omega⟩ (i.val % 2 == 1)].findSome? id

/-- The value of a PASSIGN entry: the last value written. -/
def passignValue (k : Core) : Word := k.passign.zeroExtend 64

/-- What a register reads as (R351 to R364). -/
def readReg (s : State) (p : PartId) (r : HostReg) : Word :=
  let t := s.part p
  match r with
  | .pstat => BitVec.ofNat 64 (threadsOf s p <<< 8 + pstatState s p)
  | .pctl => if t.prof then 2 else 0
  | .qtab => t.qtab | .qpi n => t.qpi[n].zeroExtend 64 | .flog => t.flog | .prof => t.profReg | .spill => t.spill
  | .wdog => t.wdog.zeroExtend 64 | .hpmreq => t.hpmResult.zeroExtend 64 <<< 16 | .peers => t.peers.zeroExtend 64
  | .lptb => t.lptb | .lasid => t.lasid | .lheat => t.lheat | .lkvm => t.lkvm | .lhpas => t.lhpas
  | .bstat => s.bstat | .pwrlim => s.pwrlim | .pwrstat => s.pwrstat | .extasgn => s.extasgn | .extrel => 0
  | .dbgsess => s.dbgsess | .passign c => passignValue (s.core c) | .peertab i => s.peertab[i]
  | .msix vec hi =>
    let e := t.msix[vec]
    if hi then e.data.zeroExtend 64 ||| (if e.masked then 0x100000000 else 0) else e.addr
  | .pba => t.pba.zeroExtend 64

/-- A host read of a function's BAR0 (R350): 8 aligned bytes, or 4, of a register; any other reads 0. -/
def bar0Read (s : State) (p : PartId) (off len : Nat) : Word :=
  match (if (len = 8 ∨ len = 4) ∧ off % len = 0 then regAt p (off / 8 * 8) else none) with
  | none => 0
  | some r =>
    if len = 8 then readReg s p r else BitVec.ofNat 64 (Word.field (readReg s p r) (8 * (off % 8)) 32)

/-- A device that is ready answers a register read, and a halted one a read of BSTAT alone (R361). -/
def readAnswered (s : State) (p : PartId) (off : Nat) : Bool :=
  Word.field s.bstat 0 4 == 1 || (Word.field s.bstat 0 4 == 2 && regAt p (off / 8 * 8) == some .bstat)

/-- The host reads a register. -/
def hostRead (p : PartId) (off len : Nat) (s : State) : State :=
  if readAnswered s p off then { s with outbox := s.outbox ++ [.registerData p (bar0Read s p off len)] } else s

/-- A write of PCTL: prof, then the flush, then the reset. -/
def pctlWrite (p : PartId) (v : Word) (s : State) : State :=
  let s := mapPart p (fun t => { t with prof := v.getLsbD 1 }) s
  let s := if v.getLsbD 2 then flushProfile p s else s
  if v.getLsbD 0 then resetPartition p s else s

/-- A write of 8 bytes to a register; reserved bits and read-only registers ignore it. -/
def writeReg (p : PartId) (r : HostReg) (v : Word) (s : State) : State :=
  match r with
  | .pctl => pctlWrite p v s
  | .qtab => mapPart p (fun t => { t with qtab := v &&& 0xFFFFFFFFFFE00 }) s
  | .qpi n => qpiWrite p n (v.extractLsb' 0 32) s
  | .flog => flogWrite p v s
  | .prof => profWrite p v s
  | .spill => spillWrite p v s
  | .wdog => mapPart p (fun t => { t with wdog := v.extractLsb' 0 32 }) s
  | .hpmreq => hpmreqWrite p v s
  | .peers => mapPart p (fun t => { t with peers := v.extractLsb' 0 32 }) s
  | .lptb => mapPart p (fun t => { t with lptb := v &&& Csr.mask .ptbase }) s
  | .lasid => mapPart p (fun t => { t with lasid := v &&& Csr.mask .asid }) s
  | .lheat => mapPart p (fun t => { t with lheat := v &&& Csr.mask .heatbase }) s
  | .lkvm => mapPart p (fun t => { t with lkvm := v &&& Csr.mask .kvmbase }) s
  | .lhpas => mapPart p (fun t => { t with lhpas := v &&& Csr.mask .hpasid }) s
  | .pwrlim => pwrlimWrite v s
  | .extasgn => { s with extasgn := v &&& 0x1F }
  | .extrel => extrelWrite v s
  | .dbgsess => dbgsessWrite v s
  | .passign c => passignWrite c v s
  | .peertab i => { s with peertab := s.peertab.set i (v &&& 0xFFFFFFFF0000FFFF) }
  | .msix vec hi => msixWrite p vec hi v s
  | .pstat | .bstat | .pwrstat | .pba => s

/-- A register whose upper half holds no field that a write acts on. -/
def lowOnly : HostReg → Bool
  | .qpi _ | .hpmreq | .passign _ | .pctl => true
  | _ => false

/-- A host write of a BAR0 register (R350): 8 bytes, or 4 bytes, which keep the other half; any other access is
ignored. The registers that have a row of their own act here as there. -/
def execBar0RegisterWrite (p : PartId) (off : Nat) (dword : Bool) (v : Word) (s : State) : Host.Outcome State Fault Refusal :=
  match (if off % (if dword then 4 else 8) = 0 then regAt p (off / 8 * 8) else none) with
  | none => .next s
  | some r =>
    if !dword then .next (writeReg p r v s)
    else if off % 8 = 4 then
      (if lowOnly r then .next s else .next (writeReg p r ((v.extractLsb' 0 32) ++ (readReg s p r).extractLsb' 0 32) s))
    else .next (writeReg p r ((readReg s p r).extractLsb' 32 32 ++ v.extractLsb' 0 32) s)

/-! ## BAR2 (R350) -/

/-- A host read through BAR2, at system scope; one that meets a fault is answered with Completer Abort, and has no other
effect. -/
def execBar2HostRead (p : PartId) (addr : Word) (len : Nat) (s : State) : Host.Outcome State Fault Refusal :=
  let a := hostAgent s p
  let r : M (List Byte) := do
    let parts ← collect (lineRuns (len + 1) addr len) fun r => do
      let l ← translate a .load r.1
      collect (List.range r.2) fun i => readByte a .system (l.plus i) r.1
    pure parts.flatten
  match r s with
  | .ok bs s' => .next { s' with outbox := s'.outbox ++ [.readData p bs] }
  | .error (.wait _) s' => .next { s with pri := s'.pri }
  | .error _ _ => .next { s with outbox := s.outbox ++ [.readAbort p] }

/-- A host write through BAR2, at system scope; one that meets a fault is dropped whole. -/
def execBar2HostWrite (p : PartId) (addr : Word) (data : List Byte) (s : State) : Host.Outcome State Fault Refusal :=
  let a := hostAgent s p
  let r : M Unit := do
    let parts ← collect (lineRuns (data.length + 1) addr data.length) fun r => do
      let l ← translate a .store r.1
      canWrite l r.1
      pure (l, r)
    forList parts fun e => writeLocBytes a .system e.1 ((data.drop (e.2.1 - addr).toNat).take e.2.2) e.2.1
  match r s with
  | .ok _ s' => .next s'
  | .error (.wait _) s' => .next { s with pri := s'.pri }
  | .error _ _ => .next s

/-! ## Peers (R358, R359) -/

/-- A request of a peer's partition `p` for physical bytes of this device: it is admitted when the partition lists the
peer and the bytes lie in HBM. No data makes it a read; an atomic of a peer shows itself as the write of its result. -/
def execPeerRequest (p : PartId) (peer : Fin 32) (addr : Word) (len : Nat) (data : List Byte) (s : State) :
    Host.Outcome State Fault Refusal :=
  let say (m : Message) (s : State) : State := { s with outbox := s.outbox ++ [m] }
  let n := if data.isEmpty then len else data.length
  if (s.part p).peers.getLsbD peer.val && decide (addr.toNat + n ≤ hbmTop) then
    let r : M (List Byte) :=
      if data.isEmpty then do
        let parts ← collect (lineRuns (n + 1) addr n) fun r => homeRead {} r.1.toNat r.2 r.1
        pure parts.flatten
      else do
        forList (lineRuns (n + 1) addr n) fun r => fun s =>
          if (follow s 2 0 (r.1.toNat / 64)).isSome then .ok () s else .error (.trap causeChain r.1) s
        forList (lineRuns (n + 1) addr n) fun r =>
          homeWrite {} r.1.toNat ((data.drop (r.1 - addr).toNat).take r.2) r.1
        pure []
    match r s with
    | .ok bs s' => .next (say (.readData p bs) (say (.peerAdmitted p peer.val) s'))
    | .error (.wait _) _ => .next s
    | .error _ _ => .next (say (.peerRefused p peer.val) s)
  else .next (say (.peerRefused p peer.val) s)

/-- A Kolnar Link port goes down (R358): later requests take another port of the mask, or fail. -/
def execKolnarPortDown (port : Nat) (s : State) : Host.Outcome State Fault Refusal :=
  if port < 16 then
    .next { s with klPorts := s.klPorts.setIfInBounds port none, bstat := s.bstat &&& ~~~((1#64) <<< (28 + port)) }
  else .next s

/-! ## Host memory (R235) -/

/-- The host invalidates a translation: the page of an address, in a function's address-translation cache, under every
PASID. -/
def execAtsInvalidation (p : PartId) (addr : Word) (s : State) : Host.Outcome State Fault Refusal :=
  .next { s with atc := s.atc.filter fun e => !(e.1 == p && e.2.2 == addr.toNat / 4096) }

/-- The oldest page request without an answer that was made on behalf of a sequencer, or of nobody (assumption 79). -/
def pendingPage (s : State) (q : SeqId) : Option PageReq :=
  s.pri.find? fun r => !r.failed && (r.owner == some q || r.owner.isNone)

/-- A page request has failed: its access meets the fault when it is made again. -/
def failPage (r : PageReq) (s : State) : State :=
  { s with pri := s.pri.map fun x => if x = r then { x with failed := true } else x }

/-- The host answers a page request: the page is reachable, or the access faults (R235). -/
def execPriPageResponse (q : SeqId) (ok : Bool) (s : State) : Host.Outcome State Fault Refusal :=
  match pendingPage s q with
  | none => .next s
  | some r =>
    if ok then
      .next { s with
        atc := (r.part, r.pasid, r.page) :: s.atc
        pri := s.pri.filter fun x => !(x.part == r.part && x.pasid == r.pasid && x.page == r.page) }
    else .next (failPage r s)

/-- The PCIe completion timeout of a waiting access expires (R235). -/
def execPcieCompletionTimeout (q : SeqId) (s : State) : Host.Outcome State Fault Refusal :=
  match pendingPage s q with
  | none => .next s
  | some r => .next (failPage r s)

end Sys2Proof.Machine
end

