-- ==== Sys2Proof/Machine/Kv.lean ====
section
/-! DEFINITION. The KV instructions, and the engines Mangle and Launder (R301 to R316). -/

namespace Sys2Proof.Machine

/-- The A format of KV (R301). -/
def wordKv (f : Nat) (b a d : Reg) : IWord := pack (BitVec.ofNat 11 f) b a d 0x1F

/-! ## Frames and their metadata (R297, R298, R302) -/

/-- No frame, and the end of the pool. -/
def noFrame : Nat := 0xFFFFFFFF
/-- The page of a frame (R295). -/
def kvPage (s : State) (kvm : Word) (k : Nat) : Word := kvVa s kvm + BitVec.ofNat 64 (32768 * k)
/-- The frame number that a page names, without the check that the window holds it. -/
def kvFrame (s : State) (kvm page : Word) : Nat := (page - kvVa s kvm).toNat / 32768
/-- The record of the frame of a page. -/
def recordOfPage (s : State) (kvm page : Word) : Word := kvRecord s kvm (kvFrame s kvm page)
/-- The present collection phase P. -/
def kvPhase (s : State) (kvm : Word) : Nat := Word.field (kvQuad s kvm 5) 0 32

/-- H1 of a record: tag, pin, state, used. -/
def headQuad (tag pin state used : Nat) : Nat := (tag % 2 ^ 32) <<< 32 + pin <<< 16 + state <<< 14 + used

/-- Makes an action on the descriptor that `kvmbase` names as one at device scope (R297). What the agent's own caches wrote
of the line may be written back before it (R177). -/
def onDesc {α : Type} (a : Agent) (kvm : Word) (m : M α) : M α := do
  modS (settleLine a (kvDesc kvm) 64)
  asOne a.writer (kvDesc kvm) (BitVec.ofNat 64 (kvDesc kvm)) m

/-- Quad `i` of the descriptor, read in such an action. -/
def descQuad (a : Agent) (kvm : Word) (i : Nat) : M Word :=
  homeQuad a.writer (kvDesc kvm + 8 * i) (BitVec.ofNat 64 (kvDesc kvm + 8 * i))

/-- Writes bytes of the descriptor in such an action; copies that the agent's own caches hold may take them (R176). -/
def descPut (a : Agent) (kvm : Word) (off : Nat) (bs : List Byte) : M Unit := do
  homeWrite { a.writer with src := .unit } (kvDesc kvm + off) bs (BitVec.ofNat 64 (kvDesc kvm + off))
  modS (showEntry a (kvDesc kvm + off) bs)

/-- Q3 of the descriptor: the pool's head and its count. -/
def poolQuad (head nfree : Nat) : List Byte := bytesOfNat 8 ((nfree % 2 ^ 32) <<< 32 + head)

/-- Takes a frame off the pool, as one action (R302); none when it is empty. -/
def takeFrame (a : Agent) (x : Ctx) (kvm : Word) : M (Option Nat) :=
  onDesc a kvm do
    let q3 ← descQuad a kvm 3
    let k := Word.field q3 0 32
    if k = noFrame then pure none
    else do
      let s ← getS
      let link ← loadN (a.atS x) .device (kvRecord s kvm k + 20) 4
      descPut a kvm 24 (poolQuad link (Word.field q3 32 32 + 2 ^ 32 - 1))
      pure (some k)

/-- Pops a frame from the pool and initialises its header (R302). -/
def popFrame (a : Agent) (x : Ctx) (kvm : Word) : M (Option Nat) := do
  match ← takeFrame a x kvm with
  | none => pure none
  | some k => do
    let s ← getS
    let r := kvRecord s kvm k
    storeN (a.atS x) .device r 8 0
    storeN (a.atS x) .device (r + 8) 8 (headQuad (kvPhase s kvm + 1) 0 1 0)
    storeN (a.atS x) .device (r + 16) 4 0
    pure (some k)

/-- `kvalloc` (R302). -/
def execKvalloc (rd : Reg) (s : State) : Host.Outcome State Fault Refusal :=
  run (wordKv 0 0 0 rd) (do
    guardKv
    let s ← getS
    releaseAt .device false
    match ← undone (popFrame s.agent s.me.ctx s.me.kvmbase) with
    | none => setX rd 0
    | some k => setX rd (kvPage s s.me.kvmbase k)
    pure .next) s

/-! ## Staging and committing (R303, R304) -/

/-- The element format of a table's format code (R278, R299). -/
def kvFmt (code : Nat) : Fmt := match code with | 1 => .bf16 | 2 => .fp16 | 3 => .e4m3 | _ => .e5m2

/-- The page that a token goes to, allocated and linked when it has to be (R303): `tail` is the entry's tail page, `q`
the token's position and `sl` its slot. -/
def stagePage (t : Word) (tab : SeqTable) (i : Nat) (tail : Word) (q sl : Nat) : M Word := do
  let s ← getS
  let x := s.me.ctx
  let kvm := s.me.kvmbase
  let a := s.vagent
  let h ← if tail = 0 then pure { next := 0, used := 0, pos0 := 0 } else readHead (a.atS x) kvm (kvFrame s kvm tail) t
  if tail = 0 ∨ h.pos0 + tab.slots ≤ q - sl then do
    check (if tail = 0 then q - sl == 0 else q - sl == h.pos0 + tab.slots) causeOperand t
    match ← popFrame a x kvm with
    | none => trap causeKvPool t
    | some k => do
      let n := kvPage s kvm k
      if tail = 0 then storeN a .device (entryAddr t i) 8 n.toNat
      else storeN (a.atS x) .device (recordOfPage s kvm tail) 8 n.toNat
      storeN a .device (entryAddr t i + 8) 8 n.toNat
      storeN (a.atS x) .device (recordOfPage s kvm n + 16) 4 (q - sl)
      pure n
  else do
    check (h.used == 0 || h.pos0 == q - sl) causeOperand t
    if h.used = 0 then storeN (a.atS x) .device (recordOfPage s kvm tail + 16) 4 (q - sl)
    pure tail

/-- Writes a token's rows, scales, position, mass and the used count of its page (R303). -/
def stageToken (tab : SeqTable) (page : Word) (q sl : Nat) (k v : Nat → Nat) : M Unit := do
  let s ← getS
  let a := s.vagent.atS s.me.ctx
  let r := recordOfPage s s.me.kvmbase page
  let row (side : Nat) (f : Nat → Nat) : M Unit := forList (List.range tab.hd) fun e =>
    storeN a .device (page + BitVec.ofNat 64 (side + sl * tab.rowBytes + e * tab.bytes)) tab.bytes (f e)
  row 0 k
  row 16384 v
  if tab.scaled then
    forList (List.range (tab.hd / 32)) fun e => do
      storeN a .device (r + BitVec.ofNat 64 (2112 + sl * (tab.hd / 32) + e)) 1 (k (tab.hd + e))
      storeN a .device (r + BitVec.ofNat 64 (2624 + sl * (tab.hd / 32) + e)) 1 (v (tab.hd + e))
  storeN a .device (r + BitVec.ofNat 64 (64 + 4 * sl)) 4 q
  storeN a .device (r + BitVec.ofNat 64 (1088 + 4 * sl)) 4 0
  let _ ← atomicAt a .device (r + 8) 2 fun h => some (h / 512 * 512 + max (h % 512) (sl + 1))

/-- `kvapp` (R303). What its limits ask of its operands alone comes before the table is read (R35). -/
def execKvapp (vn rs1 rs2 : Reg) (s : State) : Host.Outcome State Fault Refusal :=
  let w := wordKv 1 rs2 rs1 vn
  run w (do
    guardVec w
    guardKv
    let t ← getX rs1
    let b ← getX rs2
    let s ← getS
    let m := s.me
    let i := Word.field b 0 16
    let vv : Reg := vn + 1
    let os := [m.opw vn, m.opw vv]
    check (Word.field b 16 16 == 0 && Word.field b 48 16 == 0 && vn.toNat % 2 == 0
      && decide (vn.toNat + 1 < m.valloc)) causeOperand t
    check (m.opsOk os) causeOperand (w.zeroExtend 64)
    check (t.toNat % 64 == 0) causeAlignment t
    match ← readTable s.vagent t with
    | none => trap causeOperand t
    | some tab => do
      let n := tab.hd + if tab.scaled then tab.hd / 32 else 0
      check (decide (i < tab.nlh) && m.ew == 8 * tab.bytes && m.fmt == kvFmt tab.fmt && m.vl == n) causeOperand t
      let fill := fillAll m os m.vl fun _ => true
      if fill = .unfilled then waitFor .stream
      match fill with
      | .stop e c a => do
        beginVec true
        stopVec true os 0 e c a
      | _ => do
        releaseAt .device false
        undone do
          let tail ← loadN s.vagent .device (entryAddr t i + 8) 8
          let q := tab.len + Word.field b 32 16
          let sl := q % tab.slots
          let page ← stagePage t tab i (BitVec.ofNat 64 tail) q sl
          stageToken tab page q sl (m.read (m.opw vn) m.ew) (m.read (m.opw vv) m.ew)
          beginVec true
          closeVec false true os m.vl
        pure .next) s

/-- `kvcommit` (R304). -/
def execKvcommit (rs1 rs2 : Reg) (s : State) : Host.Outcome State Fault Refusal :=
  run (wordKv 2 rs2 rs1 0) (do
    guardKv
    let t ← getX rs1
    let n ← getX rs2
    check (decide (1 ≤ n.toNat) && decide (n.toNat ≤ 65536)) causeOperand n
    check (t.toNat % 64 == 0) causeAlignment t
    let s ← getS
    releaseAt .device false
    let old ← atomicAt s.agent .device t 4 fun l => if l + n.toNat ≤ 0xFFFFFFFF then some (l + n.toNat) else none
    check (decide (old + n.toNat ≤ 0xFFFFFFFF)) causeOperand n
    pure .next) s

/-! ## Binding a chain (R305) -/

/-- Registers a reader in the present phase, as one action on the descriptor; gives the phase (R305). -/
def registerReader (a : Agent) (kvm : Word) : M Nat :=
  onDesc a kvm do
    let q5 ← descQuad a kvm 5
    let ph := Word.field q5 0 32
    let c ← descQuad a kvm (6 + ph % 4 / 2)
    descPut a kvm (48 + 4 * (ph % 4)) (bytesOfNat 4 (Word.field c (32 * (ph % 2)) 32 + 1))
    pure ph

/-- `sbindkv`: the checks, the registration in the present phase, and the binding. -/
def bindKv (w : IWord) (n : Nat) (t b : Word) (vSide : Bool) : M Flow := do
  guardVec w
  guardKv
  let s ← getS
  check (s.me.valloc == 32 && !(s.me.binding n).bound) causeOperand (BitVec.ofNat 64 n)
  check (Word.field b 12 52 == 0) causeOperand t
  check (t.toNat % 64 == 0) causeAlignment t
  let i := Word.field b 0 12
  match ← readTable s.agent t with
  | none => trap causeOperand t
  | some tab => do
    check (decide (i < tab.nlh)) causeOperand t
    acquireAt .device false
    releaseFor s.agent .device false
    let kvm := s.me.kvmbase
    undone do
      let ph ← registerReader s.agent kvm
      let page ← loadN s.agent .device (entryAddr t i) 8
      modMe fun m => ((m.zeroReg n).setBinding n
        (.kv (newKvBinding t tab vSide tab.len (BitVec.ofNat 64 page) 0 (ph % 4)) m.ctx kvm)).dirtyVec
    pure .next

/-- `sbindkv` of side K (R305). -/
def execSbindkvK (n : BitVec 3) (rs1 rs2 : Reg) (s : State) : Host.Outcome State Fault Refusal :=
  let w := wordKv 3 rs2 rs1 (3#2 ++ n)
  run w (bindKv w (24 + n.toNat) (s.me.readX rs1) (s.me.readX rs2) false) s
/-- `sbindkv` of side V (R305). -/
def execSbindkvV (n : BitVec 3) (rs1 rs2 : Reg) (s : State) : Host.Outcome State Fault Refusal :=
  let w := wordKv 4 rs2 rs1 (3#2 ++ n)
  run w (bindKv w (24 + n.toNat) (s.me.readX rs1) (s.me.readX rs2) true) s

/-! ## Issuing jobs (R312, R315) -/

/-- What `mangle` and `launder` share with `darn` (R247): the descriptor is read and checked, a full job list waits, the
status quad `st` is cleared, and the job is enqueued. -/
def issueJob (rs1 : Reg) (st : Nat) (full : State → Bool) (ok : List Word → M Bool)
    (put : Word → List Word → State → State) : M Flow := do
  let d ← getX rs1
  check (d.toNat % 64 == 0) causeAlignment d
  let s ← getS
  let q ← quadsAt s.agent .sequencer d 8
  let good ← ok q
  check good causeOperand d
  if full s then waitFor .jobs
  storeN s.agent .sequencer (d + BitVec.ofNat 64 (8 * st)) 8 0
  releaseAt .device false
  modS (put d q)
  pure .next

/-- A Mangle descriptor keeps its map, Q3 and the bound of its chains apart (R311). -/
def mangleOk (q : List Word) : Bool :=
  let q1 := q.getD 1 0
  (elemRange 4 8).all (fun i => q.getD i 0 == 0) && (q.getD 2 0).toNat % 8 == 0 && Word.field q1 29 35 == 0
    && Word.field q1 12 4 == 0 && decide (1 ≤ Word.field q1 16 13)
    && decide (Word.field q1 0 12 + Word.field q1 16 13 ≤ 4096) && Word.field (q.getD 0 0) 0 6 == 0

/-- The chains of a descriptor are entries of its table (R311). A table that cannot be read, or that breaks its own map, is
found by the job, which fails with code 2 or 3 (assumption 47). -/
def chainsOk (q : List Word) : M Bool := do
  let s ← getS
  match ← tryM (readTable s.agent (q.getD 0 0)) with
  | .ok (some tab) => pure (decide (Word.field (q.getD 1 0) 0 12 + Word.field (q.getD 1 0) 16 13 ≤ tab.nlh))
  | _ => pure true

/-- The check of a Mangle descriptor at issue (R312). -/
def mangleCheck (q : List Word) : M Bool := if mangleOk q then chainsOk q else pure false

/-- `mangle` (R312). -/
def execMangle (rs1 : Reg) (s : State) : Host.Outcome State Fault Refusal :=
  run (wordKv 5 0 rs1 0) (do
    guardKv
    issueJob rs1 3 (fun s => decide (16 ≤ (s.part s.me.part).mangle.length)) mangleCheck fun d q s =>
      let q1 := q.getD 1 0
      let j : MangleJob :=
        { desc := d, table := q.getD 0 0, ch0 := Word.field q1 0 12, nch := Word.field q1 16 13, joinctr := q.getD 2 0
          ctx := s.me.ctx, kvm := s.me.kvmbase, chain := 0, runs := none, evicted := 0, compacted := 0, failed := none }
      mapPart s.me.part (fun p => { p with mangle := p.mangle ++ [j] }) s) s

/-- A Launder descriptor keeps its map, Q1 apart (R315). -/
def launderOk (q : List Word) : Bool :=
  (elemRange 2 8).all (fun i => q.getD i 0 == 0) && (q.getD 0 0).toNat % 8 == 0

/-- `launder` (R315). -/
def execLaunder (rs1 : Reg) (s : State) : Host.Outcome State Fault Refusal :=
  let w := wordKv 6 0 rs1 0
  run w (do
    guardS w
    guardKv
    issueJob rs1 1 (fun s => decide (16 ≤ (s.part s.me.part).launder.length)) (fun q => pure (launderOk q)) fun d q s =>
      let j : LaunderJob :=
        { desc := d, joinctr := q.getD 0 0, ctx := s.me.ctx, kvm := s.me.kvmbase, stage := 0, phase := 0
          mendedFrames := [], mended := 0, freed := 0, failed := none }
      mapPart s.me.part (fun p => { p with launder := p.launder ++ [j] }) s) s

/-- A job slot frees and a stalled `darn`, `mangle` or `launder` enqueues (R247, R312). -/
def execJobQueueRoom (q : SeqId) (s : State) : Host.Outcome State Fault Refusal :=
  resume q [.jobs] (fun w s =>
    if op w = 0x1E#6 then execDarn (Sys2Proof.rs1 w) s
    else if f11 w = 5#11 then execMangle (Sys2Proof.rs1 w) s
    else execLaunder (Sys2Proof.rs1 w) s) s

/-! ## Mangle (R313, R314) -/

/-- A page as Mangle walks it: its header, and position and decayed mass of each slot below used. -/
structure KvPageWalk where
  page : Word
  head : FrameHead
  live : Bool
  slots : List (Nat × Nat)
  deriving DecidableEq, Repr

/-- Reads one page of a chain and decays the masses of committed tokens. -/
def decayPage (j : MangleJob) (tab : SeqTable) (page : Word) : M KvPageWalk := do
  let s ← getS
  let a := kvAgent j.ctx
  let r := recordOfPage s j.kvm page
  let h ← readHead (kvAgent j.ctx) j.kvm (kvFrame s j.kvm page) j.desc
  let h1 ← loadN a .device (r + 8) 8
  let slots ← collect (List.range h.used) fun i => do
    let pos ← loadN a .device (r + BitVec.ofNat 64 (64 + 4 * i)) 4
    let ma := r + BitVec.ofNat 64 (1088 + 4 * i)
    let m ← loadN a .device ma 4
    if pos < tab.len then do
      let m' := (fp32.mul .rne false (fp32.decode false m) (fp32.decode false tab.decay)).bits
      storeN a .device ma 4 m'
      pure (pos, m')
    else pure (pos, m)
  pure { page := page, head := h, live := h1 >>> 14 % 4 == 1, slots := slots }

/-- The pages of a chain in order; a partition has fewer than 2^20 frames (R297). -/
def walkChain (j : MangleJob) (tab : SeqTable) : Nat → Word → M (List KvPageWalk)
  | 0, _ => pure []
  | f + 1, page => do
    if page = 0 then pure []
    else do
      let p ← decayPage j tab page
      let r ← walkChain j tab f p.head.next
      pure (p :: r)

/-- The product of a value and a finite number above 0, exact. -/
def FVal.scaleBy (d : Dy) : FVal → FVal
  | .fin a => .fin { neg := a.neg, m := a.m * d.m, e := a.e + d.e }
  | v => v

/-- The candidates of a page, in slot order (R313); with a threshold of ±0 there are none (R299). A NaN makes
no candidate (assumption 84). -/
def candidates (tab : SeqTable) (tail : Word) (p : KvPageWalk) : List Nat :=
  match fp32.decode false tab.theta with
  | .fin th =>
    if p.page = tail ∨ p.head.next = 0 ∨ p.live = false ∨ th.m = 0 then []
    else
      let total := fp32.windowRound false (p.slots.map fun x => termOf (fp32.decode false x.2))
      let n := p.slots.length
      (List.range n).filter fun i =>
        let x := p.slots.getD i (0, 0)
        let m := fp32.decode false x.2
        let sum := fp32.decode false total.bits
        decide (tab.sinks ≤ x.1) && decide (x.1 + tab.window < tab.len) && !m.isNan && !sum.isNan
          && FVal.lt false (.scaleBy ⟨false, n, 0⟩ m) (.scaleBy th sum)
  | _ => []

/-- Each page with its evicted slots: the first `e` candidates of the chain. -/
def selectSlots (tab : SeqTable) (tail : Word) : Nat → List KvPageWalk → List (Word × List Nat)
  | _, [] => []
  | e, p :: r =>
    let c := (candidates tab tail p).take e
    (p.page, c) :: selectSlots tab tail (e - c.length) r

/-- The runs of a chain: maximal sequences of pages that each hold a selected token, with the page before each. -/
def runsOf : Word → List (Word × List Nat) → List MangleRun
  | _, [] => []
  | pred, (p, sel) :: r =>
    let rest := runsOf p r
    if sel.isEmpty then rest
    else match rest with
      | m :: ms => if m.pred = p then { pred := pred, pages := (p, sel) :: m.pages } :: ms
        else { pred := pred, pages := [(p, sel)] } :: rest
      | [] => [{ pred := pred, pages := [(p, sel)] }]

/-- The table that a job acts on; none when its map or its chains break R299 or R311. -/
def jobTable (j : MangleJob) : M (Option SeqTable) := do
  let t ← readTable (deviceAgent j.ctx) j.table
  pure (t.bind fun tab => if j.ch0 + j.nch ≤ tab.nlh then some tab else none)

/-- The failure code of a trap that ends a job or a pass (R311, R315): 4 for an uncorrectable error, 2 for a fault. -/
def jobCode (cause : Nat) : Nat := if cause = causeData then 4 else 2

/-- Walks the next chain of a job and forms its runs. -/
def mangleWalk (j : MangleJob) : M MangleJob := do
  match ← jobTable j with
  | none => pure { j with failed := some 3 }
  | some tab => do
    if tab.phase ≠ 1 then pure { j with chain := j.nch }
    else do
      let e := entryAddr j.table (j.ch0 + j.chain)
      let tail ← loadN (deviceAgent j.ctx) .device (e + 8) 8
      let head ← loadN (deviceAgent j.ctx) .device e 8
      let ps ← walkChain j tab 1048576 (BitVec.ofNat 64 head)
      pure { j with runs := some (runsOf 0 (selectSlots tab (BitVec.ofNat 64 tail) tab.evictions ps)) }

/-- Holds a page: its pin goes from 0 to 0xFFFF; gives whether it could be held. -/
def holdPage (j : MangleJob) (page : Word) : M Bool := do
  let s ← getS
  let old ← atomicAt (kvAgent j.ctx) .device (recordOfPage s j.kvm page + 10) 2 fun p => if p = 0 then some 0xFFFF else none
  pure (old == 0)

def releasePage (j : MangleJob) (page : Word) : M Unit := do
  let s ← getS
  storeN (kvAgent j.ctx) .device (recordOfPage s j.kvm page + 10) 2 0

/-- Pops `n` frames; none when the pool runs out, the frames already popped staying live (R316). -/
def popFrames (j : MangleJob) : Nat → M (Option (List Nat))
  | 0 => pure (some [])
  | n + 1 => do
    match ← popFrame (kvAgent j.ctx) j.ctx j.kvm with
    | none => pure none
    | some k => do
      match ← popFrames j n with
      | none => pure none
      | some ks => pure (some (k :: ks))

/-- Copies bytes of KV structures. -/
def copyKv (j : MangleJob) (src dst : Word) (n : Nat) : M Unit :=
  forList (List.range n) fun i => do
    let b ← loadN (kvAgent j.ctx) .device (src + BitVec.ofNat 64 i) 1
    storeN (kvAgent j.ctx) .device (dst + BitVec.ofNat 64 i) 1 b

/-- Copies one token from a slot of a page to a slot of another (R314 step 3). -/
def copyToken (j : MangleJob) (tab : SeqTable) (src : Word) (i : Nat) (dst : Word) (k : Nat) : M Unit := do
  let s ← getS
  let rb := tab.rowBytes
  let ra := recordOfPage s j.kvm src
  let rz := recordOfPage s j.kvm dst
  let at' (w : Word) (base size n : Nat) : Word := w + BitVec.ofNat 64 (base + size * n)
  copyKv j (at' src 0 rb i) (at' dst 0 rb k) rb
  copyKv j (at' src 16384 rb i) (at' dst 16384 rb k) rb
  copyKv j (at' ra 64 4 i) (at' rz 64 4 k) 4
  copyKv j (at' ra 1088 4 i) (at' rz 1088 4 k) 4
  if tab.scaled then do
    copyKv j (at' ra 2112 (tab.hd / 32) i) (at' rz 2112 (tab.hd / 32) k) (tab.hd / 32)
    copyKv j (at' ra 2624 (tab.hd / 32) i) (at' rz 2624 (tab.hd / 32) k) (tab.hd / 32)

/-- Steps 2 to 4 of R314 for a run whose pages are held: gives whether the pool held out. -/
def compactRun (j : MangleJob) (tab : SeqTable) (r : MangleRun) : M Bool := do
  let s ← getS
  let a := kvAgent j.ctx
  let heads ← collect r.pages fun p => readHead (kvAgent j.ctx) j.kvm (kvFrame s j.kvm p.1) j.desc
  let alive := (r.pages.zip heads).flatMap fun x =>
    ((List.range x.2.used).filter fun i => !x.1.2.contains i).map fun i => (x.1.1, i)
  let after := match heads.getLast? with | some h => h.next | none => 0
  match ← popFrames j ((alive.length + tab.slots - 1) / tab.slots) with
  | none => pure false
  | some ks => do
    let fresh := ks.map (kvPage s j.kvm)
    forList (alive.zip (List.range alive.length)) fun x =>
      copyToken j tab x.1.1 x.1.2 (fresh.getD (x.2 / tab.slots) 0) (x.2 % tab.slots)
    forList (fresh.zip (List.range fresh.length)) fun x => do
      let n := min tab.slots (alive.length - x.2 * tab.slots)
      let _ ← atomicAt a .device (recordOfPage s j.kvm x.1 + 8) 2 fun h => some (h / 512 * 512 + n)
      storeN a .device (recordOfPage s j.kvm x.1) 8 (fresh.getD (x.2 + 1) after).toNat
    let target := (fresh.headD after).toNat
    if r.pred = 0 then storeN (deviceAgent j.ctx) .device (entryAddr j.table (j.ch0 + j.chain)) 8 target
    else storeN a .device (recordOfPage s j.kvm r.pred) 8 target
    pure true

/-- The held parts of a run: a page that could not be held splits it. -/
def heldParts (r : MangleRun) (ok : List Bool) : List MangleRun :=
  runsOf r.pred ((r.pages.zip ok).map fun x => (x.1.1, if x.2 then x.1.2 else []))

/-- A job that a fault, or an empty pool, ends: the first failure stands. -/
def MangleJob.fail (j : MangleJob) (code : Nat) : MangleJob :=
  if j.failed.isSome then j else { j with failed := some code }

/-- Compacts the held parts of a run in chain order; a failure ends the job there, and what was swapped before it stays
swapped and counted (R312). -/
def compactParts (j : MangleJob) (tab : SeqTable) : List MangleRun → M MangleJob
  | [] => pure j
  | r :: rs => do
    match ← tryM (compactRun j tab r) with
    | .ok true =>
      compactParts { j with evicted := j.evicted + (r.pages.map (·.2.length)).sum, compacted := min 65535 (j.compacted + 1) } tab rs
    | .ok false => pure (j.fail 1)
    | .error e => pure (j.fail (jobCode e.1))

/-- Holds the pages of a run one after another: which could be held, and the fault that ended it. -/
def holdPages (j : MangleJob) : List (Word × List Nat) → M (List Bool × Option Nat)
  | [] => pure ([], none)
  | p :: ps => do
    match ← tryM (holdPage j p.1) with
    | .ok b => do
      let r ← holdPages j ps
      pure (b :: r.1, r.2)
    | .error e => pure ([], some (jobCode e.1))

/-- Releases held pages; the code of the first that cannot be. -/
def releasePages (j : MangleJob) : List Word → M (Option Nat)
  | [] => pure none
  | p :: ps => do
    let e ← tryM (releasePage j p)
    let r ← releasePages j ps
    pure (match e with | .ok _ => r | .error e => some (jobCode e.1))

/-- Runs an action, and another after it also when the first is fatal to the partition (R316). -/
def ensuring {α : Type} (m : M α) (fin : M Unit) : M α := fun s =>
  match m s with
  | .error (.fatal p v) s' => .error (.fatal p v) (match fin s' with | .ok _ t => t | .error _ t => t)
  | r => r

/-- One run (R314): its pages are held, its parts compacted, and the holds released, also where a fault ends the job. -/
def mangleRun (j0 : MangleJob) (r : MangleRun) (rest : List MangleRun) : M MangleJob := do
  let j := { j0 with runs := some rest }
  match ← jobTable j with
  | none => pure (j.fail 3)
  | some tab => do
    let h ← holdPages j r.pages
    let held := ((r.pages.zip h.1).filter (·.2)).map (·.1.1)
    let j' ← match h.2 with
      | some c => pure (j.fail c)
      | none => ensuring (compactParts j tab (heldParts r h.1)) (do let _ ← releasePages j held)
    let e ← releasePages j held
    pure (match e with | some c => j'.fail c | none => j')

/-- The job of a partition that stands first has work to do. -/
def mangleWork (s : State) (p : PartId) : Bool :=
  match (s.part p).mangle with
  | j :: _ => j.failed.isNone && decide (j.chain < j.nch)
  | [] => false

def setMangle (p : PartId) (j : MangleJob) : State → State := mapPart p fun t => { t with mangle := j :: t.mangle.drop 1 }

/-- Mangle takes its next step in a partition's first job: it walks a chain, decaying its masses and selecting what is
evicted, or compacts one run (R313, R314). Partitions take turns. -/
def execMangleRun (p : PartId) (s : State) : Host.Outcome State Fault Refusal :=
  if roundRobin s.mangleServed (mangleWork s) ≠ some p then .next s
  else match (s.part p).mangle with
    | [] => .next s
    | j :: _ => event (do
        let step : M MangleJob := match j.runs with
          | none => mangleWalk j
          | some [] => pure { j with runs := none, chain := j.chain + 1 }
          | some (r :: rs) => mangleRun j r rs
        let r ← tryM step
        let j' := match r with | .ok j' => j' | .error e => j.fail (jobCode e.1)
        modS fun s => setMangle p j' { s with mangleServed := p.val }) s

/-- A Mangle job has ended: Q3 and the decrement of joinctr (R312). -/
def execMangleJobEnd (p : PartId) (s : State) : Host.Outcome State Fault Refusal :=
  match (s.part p).mangle with
  | [] => .next s
  | j :: _ =>
    if mangleWork s p then .next s
    else
      let st := match j.failed with | none => 1 <<< 62 | some c => 2 <<< 62 + c <<< 56
      event (do
        endJob j.ctx j.desc (j.desc + 24) (st + j.compacted <<< 32 + j.evicted) j.joinctr
        modS fun s => mapPart p (fun t => { t with mangle := t.mangle.drop 1, progress := s.cycle }) s) s

/-! ## Launder (R315) -/

/-- A pass that a fault ends: the first failure stands. -/
def LaunderJob.fail (j : LaunderJob) (code : Nat) : LaunderJob :=
  if j.failed.isSome then j else { j with failed := some code }

/-- The reader count of a phase, read in an action on the descriptor. -/
def readersAt (a : Agent) (kvm : Word) (phase : Nat) : M Nat := do
  let c ← descQuad a kvm (6 + phase % 4 / 2)
  pure (Word.field c (32 * (phase % 2)) 32)

/-- Step 1: the phase advances, unless the readers of four phases ago remain. -/
def launderPhase (j : LaunderJob) : M LaunderJob :=
  let a := kvAgent j.ctx
  onDesc a j.kvm do
    let q5 ← descQuad a j.kvm 5
    let p := (Word.field q5 0 32 + 1) % 2 ^ 32
    let n ← readersAt a j.kvm p
    if n ≠ 0 then pure (j.fail 1)
    else do
      descPut a j.kvm 40 (bytesOfNat 4 p)
      pure { j with stage := 1, phase := p }

/-- The frame that the lines of a frame lead to, when all of them are forwarded to its lines in order. -/
def forwardedTo (s : State) (f : Nat) : Option Nat :=
  let g := recordTarget s (f / 64) * 64
  if (List.range 512).all fun i => markOf s (f / 64 + i) == some .forwarded && recordTarget s (f / 64 + i) == g / 64 + i then
    if g % 32768 = 0 then some g else none
  else none

/-- A leaf names frame `g` in place of frame `f`, by a compare-and-set of the entry (R315): whether it did. -/
def swapFrame (a : Agent) (leaf f g : Nat) (page : Word) : M Bool :=
  asOne a.writer leaf page do
    let e ← homeQuad a.writer leaf page
    if pteFrame e ≠ f / 32768 then pure false
    else do
      let e' := e - BitVec.ofNat 64 (f / 32768 * 2 ^ 17) + BitVec.ofNat 64 (g / 32768 * 2 ^ 17)
      homeWrite a.writer leaf (bytesOfNat 8 e'.toNat) page
      pure true

/-- Step 3 at one page: its leaf is changed to name the target frame, and the page's translations are dropped. -/
def mendPage (j : LaunderJob) (page : Word) : M LaunderJob := do
  let l ← translate (kvAgent j.ctx) .plain page
  let s ← getS
  match l.place with
  | .pad _ _ => pure j
  | .phys pa =>
    let f := pa / 32768 * 32768
    match forwardedTo s f with
    | none => pure j
    | some g => do
      if ← swapFrame (kvAgent j.ctx) l.leaf f g page then do
        modS (dropCached j.ctx.part (some page) none)
        pure { j with mended := j.mended + 1, mendedFrames := j.mendedFrames ++ [f] }
      else pure j

/-- Steps 2 and 3 at one page: the frame's tag is set, and the page mended when it has been forwarded; with the next
page. -/
def markPage (page : Word) (j : LaunderJob) : M (LaunderJob × Word) := do
  let s ← getS
  let r := recordOfPage s j.kvm page
  let h ← readHead (kvAgent j.ctx) j.kvm (kvFrame s j.kvm page) j.desc
  storeN (kvAgent j.ctx) .device (r + 12) 4 j.phase
  let j ← mendPage j page
  pure (j, h.next)

/-- Step 2 along one chain. A fault ends the pass; what was mended before it stays. -/
def markChain : Nat → Word → LaunderJob → M LaunderJob
  | 0, _, j => pure j
  | n + 1, page, j =>
    if page = 0 then pure j
    else do
      match ← tryM (markPage page j) with
      | .ok r => markChain n r.2 r.1
      | .error e => pure (j.fail (jobCode e.1))

/-- The chains of a table. -/
def markEntries (t : Word) : Nat → Nat → LaunderJob → M LaunderJob
  | 0, _, j => pure j
  | n + 1, i, j => do
    match ← tryM (loadN (kvAgent j.ctx) .device (entryAddr t i) 8) with
    | .error e => pure (j.fail (jobCode e.1))
    | .ok head => do
      let j ← markChain 1048576 (BitVec.ofNat 64 head) j
      if j.failed.isSome then pure j else markEntries t n (i + 1) j

/-- The tables of the registry from one on. -/
def markTables : Nat → Word → LaunderJob → M LaunderJob
  | 0, _, j => pure j
  | n + 1, t, j => do
    if t = 0 then pure j
    else match ← tryM (readTable (kvAgent j.ctx) t) with
      | .error e => pure (j.fail (jobCode e.1))
      | .ok none => pure (j.fail 3)
      | .ok (some tab) => do
        let j ← if tab.phase = 2 then pure j else markEntries t tab.nlh 0 j
        if j.failed.isSome then pure j else markTables n tab.link j

/-- Steps 2 and 3: everything that the registry reaches is marked and mended, and the mended source lines released. -/
def launderMark (j : LaunderJob) : M LaunderJob := do
  let a := kvAgent j.ctx
  match ← tryM (descQuad a j.kvm 4) with
  | .error e => pure (j.fail (jobCode e.1))
  | .ok reg => do
    let j ← markTables 1048576 reg j
    if j.failed.isSome then pure j
    else do
      let s ← getS
      if midAccess s j.ctx.part then waitFor .transit
      modS fun s => j.mendedFrames.foldl (fun s f => releaseFrame f j.ctx.part.val s) s
      pure { j with stage := 2, mendedFrames := [] }

/-- a − b of two phases, as a signed 32-bit number. -/
def phaseDiff (a b : Nat) : Int := sextNat 32 (a + 2 ^ 32 - b % 2 ^ 32)

/-- Step 4 at one frame: live, unpinned and not reached becomes limbo. -/
def sweepFrame (j : LaunderJob) (k : Nat) : M Unit := do
  let s ← getS
  let a := kvRecord s j.kvm k + 8
  let h ← loadN (kvAgent j.ctx) .device a 8
  if h >>> 14 % 4 = 1 ∧ h >>> 16 % 65536 = 0 ∧ phaseDiff (h >>> 32) j.phase < 0 then
    storeN (kvAgent j.ctx) .device a 8 (headQuad j.phase 0 2 (h % 512))

/-- The phases whose readers may still hold a frame that left its chain in phase `tag`: from the greater of tag − 3 and
p − 3 to tag. -/
def holdingPhases (p tag : Nat) : List Nat :=
  (List.range 4).filterMap fun (i : Nat) => if phaseDiff p tag + (i : Int) ≤ 3 then some ((tag + 2 ^ 32 - i) % 2 ^ 32) else none

/-- Step 5 at one frame, with the push to the pool as one action on the descriptor: gives whether it went there. -/
def freeFrame (j : LaunderJob) (k : Nat) : M Bool := do
  let s ← getS
  let r := kvRecord s j.kvm k
  let a := kvAgent j.ctx
  let h ← loadN a .device (r + 8) 8
  if h >>> 14 % 4 = 2 ∧ h >>> 16 % 65536 = 0 then
    onDesc a j.kvm do
      let ns ← collect (holdingPhases j.phase (h >>> 32)) (readersAt a j.kvm)
      if ns.all (· == 0) then do
        let q3 ← descQuad a j.kvm 3
        storeN a .device (r + 8) 8 (headQuad (h >>> 32) 0 0 (h % 512))
        storeN a .device (r + 20) 4 (Word.field q3 0 32)
        descPut a j.kvm 24 (poolQuad k (Word.field q3 32 32 + 1))
        pure true
      else pure false
  else pure false

/-- Step 5 over the frames from one on: each that is freed counts, up to a fault. -/
def freeFrames : List Nat → LaunderJob → M LaunderJob
  | [], j => pure { j with stage := 4 }
  | k :: ks, j => do
    match ← tryM (freeFrame j k) with
    | .ok b => freeFrames ks (if b then { j with freed := j.freed + 1 } else j)
    | .error e => pure (j.fail (jobCode e.1))

/-- One stage of a pass. -/
def launderStep (j : LaunderJob) : M LaunderJob := do
  let s ← getS
  match j.stage with
  | 0 => launderPhase j
  | 1 => launderMark j
  | 2 => do
    forList (List.range (kvCount s j.kvm)) (sweepFrame j)
    pure { j with stage := 3 }
  | _ => freeFrames (List.range (kvCount s j.kvm)) j

def setLaunder (p : PartId) (j : LaunderJob) : State → State := mapPart p fun t => { t with launder := j :: t.launder.drop 1 }

/-- A partition's pass takes its next step, and after the last the status is written and joinctr decremented (R315). -/
def execLaunderPass (p : PartId) (s : State) : Host.Outcome State Fault Refusal :=
  match (s.part p).launder with
  | [] => .next s
  | j :: _ =>
    if j.failed.isNone ∧ j.stage < 4 then
      event (do
        let r ← tryM (launderStep j)
        modS (setLaunder p (match r with | .ok j' => j' | .error e => j.fail (jobCode e.1)))) s
    else
      let st := match j.failed with | none => 1 <<< 62 | some c => 2 <<< 62 + c <<< 56
      event (do
        endJob j.ctx j.desc (j.desc + 8) (st + (j.mended % 2 ^ 24) <<< 32 + j.freed) j.joinctr
        modS fun s => mapPart p (fun t => { t with launder := t.launder.drop 1, progress := s.cycle }) s) s

end Sys2Proof.Machine
end

