-- ==== Sys2Proof/Machine/LoadStore.lean ====
section
/-! DEFINITION. Scalar loads and stores (R94, R95). -/

namespace Sys2Proof.Machine

/-- A scalar load of `n` bytes, sign- or zero-extended: a relaxed access at sequencer scope. -/
def load (code n : Nat) (signed : Bool) (rd rs1 : Reg) (imm : BitVec 13) : State → Host.Outcome State Fault Refusal :=
  run (wordLd imm code rs1 rd) (asLoad do
    let s ← getS
    let a := s.me.readX rs1 + simm imm
    check (a.toNat % n == 0) causeAlignment a
    let v ← loadN s.agent .sequencer a n
    setX rd (BitVec.ofInt 64 (if signed then sextNat (8 * n) v else v))
    pure .next)

/-- A scalar store of the low `n` bytes of a register. -/
def store (code n : Nat) (rs1 data : Reg) (imm : BitVec 14) : State → Host.Outcome State Fault Refusal :=
  run (wordSt imm code rs1 data) do
    let s ← getS
    let a := s.me.readX rs1 + simm imm
    check (a.toNat % n == 0) causeAlignment a
    storeN s.agent .sequencer a n (s.me.readX data).toNat
    pure .next

/-- `ld.b` (R94). -/
def execLdB (rd rs1 : Reg) (imm : BitVec 13) (s : State) : Host.Outcome State Fault Refusal := load 0 1 true rd rs1 imm s
/-- `ld.h` (R94). -/
def execLdH (rd rs1 : Reg) (imm : BitVec 13) (s : State) : Host.Outcome State Fault Refusal := load 1 2 true rd rs1 imm s
/-- `ld.w` (R94). -/
def execLdW (rd rs1 : Reg) (imm : BitVec 13) (s : State) : Host.Outcome State Fault Refusal := load 2 4 true rd rs1 imm s
/-- `ld.d` (R94). -/
def execLdD (rd rs1 : Reg) (imm : BitVec 13) (s : State) : Host.Outcome State Fault Refusal := load 3 8 true rd rs1 imm s
/-- `ld.bu` (R94). -/
def execLdBu (rd rs1 : Reg) (imm : BitVec 13) (s : State) : Host.Outcome State Fault Refusal := load 4 1 false rd rs1 imm s
/-- `ld.hu` (R94). -/
def execLdHu (rd rs1 : Reg) (imm : BitVec 13) (s : State) : Host.Outcome State Fault Refusal := load 5 2 false rd rs1 imm s
/-- `ld.wu` (R94). -/
def execLdWu (rd rs1 : Reg) (imm : BitVec 13) (s : State) : Host.Outcome State Fault Refusal := load 6 4 false rd rs1 imm s
/-- `st.b` (R94). -/
def execStB (rs1 data : Reg) (imm : BitVec 14) (s : State) : Host.Outcome State Fault Refusal := store 0 1 rs1 data imm s
/-- `st.h` (R94). -/
def execStH (rs1 data : Reg) (imm : BitVec 14) (s : State) : Host.Outcome State Fault Refusal := store 1 2 rs1 data imm s
/-- `st.w` (R94). -/
def execStW (rs1 data : Reg) (imm : BitVec 14) (s : State) : Host.Outcome State Fault Refusal := store 2 4 rs1 data imm s
/-- `st.d` (R94). -/
def execStD (rs1 data : Reg) (imm : BitVec 14) (s : State) : Host.Outcome State Fault Refusal := store 3 8 rs1 data imm s

end Sys2Proof.Machine
end

