-- ==== Sys2Proof/Machine/Manage.lean ====
section
/-! DEFINITION. The management controller and the root of trust: device reset, bring-up, firmware, attestation, power and
temperature (R361 to R364). What they measure, and whether a check passes, is free (assumptions 22 and 23). -/

namespace Sys2Proof.Machine

/-- Assertion of PERST#, or removal of the rails (R361): every register at its Reset value. The cells of HBM are cleared
by the next bring-up; the model's own fields, and what has left the device, stay. -/
def execDeviceReset (s : State) : Host.Outcome State Fault Refusal :=
  .next { State.reset with
    mem := s.mem.filter fun e => decide (e.1 < hbmTop)
    bad := s.bad, fwStaged := s.fwStaged, fuseVersion := s.fuseVersion, fwVersion := s.fwVersion, identity := s.identity
    outbox := s.outbox
    script := s.script, cur := s.cur, ticks := s.ticks }

/-- BSTAT from its fields. -/
def bstatOf (cxl kl hbm code st state : Nat) : Word :=
  BitVec.ofNat 64 (cxl <<< 44 + kl <<< 28 + hbm <<< 20 + code <<< 8 + st <<< 4 + state)

/-- BSTAT.state changes, and the PF is told (R354). -/
def setBstat (v : Word) (s : State) : State := raiseVector 0 3 { s with bstat := v }

/-- A staged image takes effect if its signature verifies and its security version is not below that of the fuses; it
is dropped otherwise (R362). -/
def installFirmware (s : State) : State :=
  let v := s.free .bringUp 30
  { s with fwStaged := false
           fwVersion := if s.fwStaged ∧ s.free .bringUp 31 % 2 = 1 ∧ s.fuseVersion ≤ v then v else s.fwVersion }

/-- Bring-up after a reset (R361): its steps in order, up to a halt or to readiness. -/
def bringUp (s0 : State) : State :=
  let ask (i : Nat) : Nat := s0.free .bringUp i
  let s := installFirmware s0
  if ask 0 % 2 = 0 ∨ s.fwVersion < s.fuseVersion then setBstat (bstatOf 0 0 0 1 2 2) s
  else
    let failed := ask 1 % 256
    if failed ≠ 0 then setBstat (bstatOf 0 0 failed 2 3 2) s
    else if ask 2 % 2 = 0 then setBstat (bstatOf 0 0 0 3 4 2) s
    else
      let kl := ask 3 % 65536
      let ports : Vector (Option (BitVec 32)) 16 := Vector.ofFn fun i =>
        if kl.testBit i.val then some (BitVec.ofNat 32 (ask (5 + i.val))) else none
      setBstat (bstatOf (ask 4 % 16) kl 0 0 7 1)
        { s with mem := s.mem.filter (fun e => decide (hbmTop ≤ e.1)), marks := [], bad := [], transit := [], klPorts := ports }

/-- Release of PERST# (R361). A device that is ready or halted has been through its bring-up. -/
def execPerstRelease (s : State) : Host.Outcome State Fault Refusal :=
  .next (if s.bstat = 0 then bringUp s else s)

/-- An image is staged through the PF; it takes effect at the next reset (R362). -/
def execFirmwareUpdateStage (s : State) : Host.Outcome State Fault Refusal := .next { s with fwStaged := true }

/-! ## Attestation (R362)

What the rule does not give of an answer is free (assumption 22). -/

/-- An SPDM request is answered through the PF. -/
def answerSpdm (r : SpdmReply) (s : State) : Host.Outcome State Fault Refusal :=
  .next { s with outbox := s.outbox ++ [.spdm r] }

/-- GET_VERSION: SPDM 1.4. -/
def execGetVersion (s : State) : Host.Outcome State Fault Refusal := answerSpdm (.version 1 4) s
/-- GET_CAPABILITIES. -/
def execGetCapabilities (s : State) : Host.Outcome State Fault Refusal := answerSpdm (.capabilities (s.free .spdm 0)) s
/-- NEGOTIATE_ALGORITHMS: ML-DSA-87 and SHA3-512 only. -/
def execNegotiateAlgorithms (s : State) : Host.Outcome State Fault Refusal :=
  answerSpdm (.algorithms [.mlDsa87] [.sha3_512]) s
/-- GET_DIGESTS, for slot 0. -/
def execGetDigests (s : State) : Host.Outcome State Fault Refusal := answerSpdm (.digests [(0, s.free .spdm 1)]) s
/-- GET_CERTIFICATE, for slot 0: the identity key, and its chain. -/
def execGetCertificate (s : State) : Host.Outcome State Fault Refusal :=
  answerSpdm (.certificate 0 s.identity.pub (s.free .spdm 2)) s
/-- CHALLENGE: a nonce, and the signature of the transcript under the identity key. -/
def execChallenge (s : State) : Host.Outcome State Fault Refusal :=
  answerSpdm (.challengeAuth 0 (s.free .spdm 3) (Config.mlDsa87 s.identity.sec (s.free .spdm 4))) s
/-- GET_MEASUREMENTS: index 1 the ROM of the root of trust, 2 the image of the management controller, 3 the fuses. -/
def execGetMeasurements (s : State) : Host.Outcome State Fault Refusal :=
  answerSpdm (.measurements [(1, s.free .spdm 5), (2, s.free .spdm 6), (3, s.free .spdm 7)]) s

/-! ## Power and temperature (R363, R364) -/

/-- PWRSTAT from its fields. -/
def pwrstatOf (thr tj watts : Nat) : Word := BitVec.ofNat 64 (thr <<< 32 + tj <<< 24 + watts)

/-- Idle cycles are inserted in the next of the three places. Throttling that begins is told to the PF (R354). -/
def throttleMore (s : State) : State :=
  let s' := { s with throttle := min 3 (s.throttle + 1) }
  if s.throttle = 0 then raiseVector 0 3 s' else s'

/-- A junction reaches 110 °C (R364): every partition's work is discarded, the device stops issuing, and reports. -/
def trip (tj watts : Nat) (s : State) : State :=
  let s := allParts.foldl (fun s p => logEvent p 6 0 0 0 (discardWork p s)) s
  raiseVector 0 3 { s with
    tripped := true, outbox := s.outbox ++ [.tripReport], pwrstat := pwrstatOf (Word.field s.pwrstat 32 32) tj watts }

/-- The controller compares package power with the limit, and the hottest junction with its two limits (R363, R364). -/
def execPowerCheck (s : State) : Host.Outcome State Fault Refusal :=
  let watts := s.free .measure 0 % 4096
  let tj := s.free .measure 1 % 256
  let limit := Word.field s.pwrlim 0 12
  if 110 ≤ tj then .next (trip tj watts s)
  else
    let s' := if limit < watts ∨ 100 ≤ tj then throttleMore s
      else if watts * 100 ≤ limit * 95 then { s with throttle := s.throttle - 1 } else s
    let thr := Word.field s.pwrstat 32 32
    .next { s' with pwrstat := pwrstatOf (if s'.throttle = 0 then thr else min (thr + 1) (2 ^ 32 - 1)) tj watts }

/-- A junction reaches 100 °C, and the controller throttles whatever the limit (R364). -/
def execThermalThrottle (s : State) : Host.Outcome State Fault Refusal :=
  .next { throttleMore s with pwrstat := pwrstatOf (Word.field s.pwrstat 32 32) 100 (Word.field s.pwrstat 0 12) }

/-- A junction reaches 110 °C (R364). -/
def execThermalTrip (s : State) : Host.Outcome State Fault Refusal := .next (trip 110 (Word.field s.pwrstat 0 12) s)

end Sys2Proof.Machine
end

