-- ==== Sys2Proof/Machine/Sync.lean ====
section
/-! DEFINITION. Waits, fences, barriers, and the moments at which their waits end (R187, R190, R205, R206, R208 to
R212). -/

namespace Sys2Proof.Machine

/-- The word of a SYNC form (R209). -/
def wordSync (f : Nat) (m : BitVec 16) : IWord := packW (BitVec.ofNat 10 f) m 0x1B

/-- A count of `wait` is met: 15 names no class (R210). -/
def countMet (limit : BitVec 4) (n : Nat) : Bool := limit == 15 || decide (n ≤ limit.toNat)

/-- `wait` (R210): the operations it observes complete are acquired at their scopes (R189). -/
def execWait (ld st cp tt : BitVec 4) (s : State) : Host.Outcome State Fault Refusal :=
  run (wordSync 0 (tt ++ (cp ++ (st ++ ld)))) (do
    let s ← getS
    let q := s.cur
    if countMet ld (ldCount s q) && countMet st (stCount s q) && countMet cp (cpCount s q) && countMet tt (ttCount s q) then do
      modS fun s =>
        let a := if cp = 15 then 0 else s.me.doneCp
        let b := if tt = 15 then 0 else s.me.doneTt
        mapMe (fun t => { t with doneCp := if cp = 15 then t.doneCp else 0, doneTt := if tt = 15 then t.doneTt else 0 })
          (refreshTo (coreOf q) (max a b) false s)
      pure .next
    else waitFor .counts) s

/-- The counts of a stalled `wait` are met (R210). -/
def execWaitConditionMet (q : SeqId) (s : State) : Host.Outcome State Fault Refusal :=
  resume q [.counts] (fun w => let b := wBits w
    execWait (b.extractLsb' 0 4) (b.extractLsb' 4 4) (b.extractLsb' 8 4) (b.extractLsb' 12 4)) s

/-- `fence` (R187, R211). -/
def execFence (o : FenceOrder) (sc : Scope) (uo : BitVec 1) (s : State) : Host.Outcome State Fault Refusal :=
  run (wordSync 1 (0#10 ++ (uo ++ (o.toBits ++ sc.toBits)))) (do
    if o.releases then releaseAt sc (uo == 1)
    if o.acquires then acquireAt sc (uo == 1)
    pure .next) s

/-- `qfence` (R190, R212): the operations issued from now on remember it. -/
def execQfence (queues : BitVec 4) (tt : BitVec 1) (s : State) : Host.Outcome State Fault Refusal :=
  simple (fun t => { t with fences := t.fences ++ [{ mask := tt ++ queues, before := t.opNext }] }) s

/-! ## Barriers (R205) -/

/-- The scope of a level of a launch; none for an absent or an element level. -/
def barScope (s : State) (launch : Nat) (l : Nat) : Option Scope :=
  match s.launches[launch]? with
  | none => none
  | some k => (k.levels[l]?).getD none

/-- The thread of a participant waits at `bar l`. -/
def waitsAt (s : State) (launch n l : Nat) : Bool :=
  allSeqs.any fun q =>
    let t := s.slot q
    t.busy && t.launch == some (launch, n) && match t.waiting with
      | some h => h.kind == .barrier && (cA h.word).toNat == l
      | none => false

/-- Every participant of the caller's instance that has not exited has arrived as often as the caller: it has passed
the barrier, or it waits there. -/
def allArrived (s : State) (launch n l : Nat) : Bool :=
  match s.launches[launch]? with
  | none => true
  | some k =>
    match k.parts[n]? with
    | none => true
    | some me =>
      let c := me.arrived.getD l 0
      k.parts.zipIdx.all fun e =>
        e.2 == n || e.1.gone || e.1.hidx.take l != me.hidx.take l || decide (c < e.1.arrived.getD l 0)
          || (e.1.arrived.getD l 0 == c && waitsAt s launch e.2 l)

/-- A list of counts with the one at a place raised. -/
def bumpAt (l : List Nat) (i : Nat) : List Nat :=
  (List.range (max l.length (i + 1))).map fun j => l.getD j 0 + if j = i then 1 else 0

/-- `bar` (R205). -/
def execBar (level : BitVec 3) (s : State) : Host.Outcome State Fault Refusal :=
  run (wordGang 0 (0#2 ++ level) 5) (do
    let s ← getS
    let l := level.toNat
    match s.me.launch with
    | none => trap causeOperand (BitVec.ofNat 64 l)
    | some (launch, n) =>
      match barScope s launch l with
      | none => trap causeOperand (BitVec.ofNat 64 l)
      | some sc => do
        let again := match s.me.waiting with | some h => h.kind == .barrier | none => false
        if !again then releaseAt sc false
        let s ← getS
        if allArrived s launch n l then do
          acquireAt sc false
          modS fun s => { s with launches := s.launches.modify launch fun k =>
            { k with parts := k.parts.modify n fun p => { p with arrived := bumpAt p.arrived l } } }
          pure .next
        else waitFor .barrier) s

/-- A participant that waits at a barrier goes on once all have arrived (R205). -/
def execBarrierRelease (launch participant : Nat) (level : BitVec 3) (s : State) : Host.Outcome State Fault Refusal :=
  match allSeqs.find? fun q => (s.slot q).busy && (s.slot q).launch == some (launch, participant) with
  | none => .next s
  | some q => resume q [.barrier] (fun w => if cA w = level then execBar level else .next) s

/-! ## Arrival barriers (R206) -/

/-- `arrive` (R206). -/
def execArrive (rs1 : Reg) (s : State) : Host.Outcome State Fault Refusal :=
  run (wordGang 0 rs1 6) (do
    let s ← getS
    let b := s.me.readX rs1
    check (b.toNat % 16 == 0) causeAlignment b
    arriveAt s.agent .sequencer b (trap causeOperand b)
    pure .next) s

/-- `await` (R206). -/
def execAwait (rs1 rs2 : Reg) (s : State) : Host.Outcome State Fault Refusal :=
  run (wordGang rs2 rs1 7) (do
    let s ← getS
    let b := s.me.readX rs1
    let p := (s.me.readX rs2).toNat % 2 ^ 32
    check (b.toNat % 16 == 0) causeAlignment b
    let q1 ← loadN s.agent .sequencer (b + 8) 8
    check (barrierOk q1) causeOperand b
    let q0 ← loadN s.agent (barrierScope q1) b 8
    acquireAt (barrierScope q1) false
    if q0 / 2 ^ 32 = p then waitFor .phase else pure .next) s

/-- A waiting `await` observes the phase again (R206). -/
def execAwaitPhaseChange (q : SeqId) (s : State) : Host.Outcome State Fault Refusal :=
  resume q [.phase] (fun w => execAwait (Sys2Proof.rs1 w) (Sys2Proof.rs2 w)) s

end Sys2Proof.Machine
end

