-- ==== Sys2Proof/Machine/System.lean ====
section
/-! DEFINITION. System instructions, and the two ways in which no instruction executes (R34, R50, R101, R102, R319). -/

namespace Sys2Proof.Machine

/-- A word of the SYSTEM forms (R102). -/
def wordSys (f : Nat) (rs2 rs1 : Reg) : IWord := wordA f rs2 rs1 0 0x19

/-- `ecall` retires, and its trap follows (R102). -/
def execEcall (s : State) : Host.Outcome State Fault Refusal := 
  .next (retire (.thenTrap causeCall) (turnsOver s s))
/-- `ebreak` (R102). -/
def execEbreak (s : State) : Host.Outcome State Fault Refusal := 
  .next (retire (.thenTrap causeBreak) (turnsOver s s))

/-- `eret` (R102). -/
def execEret (s : State) : Host.Outcome State Fault Refusal :=
  run (wordSys 2 0 0) (do
    guardS (wordSys 2 0 0)
    returnFromTrap) s

/-- `ptflush` (R102, R225): it waits while an access of the partition is held, or a line is moving. -/
def execPtflush (rs1 rs2 : Reg) (s : State) : Host.Outcome State Fault Refusal :=
  run (wordSys 3 rs2 rs1) (do
    guardS (wordSys 3 rs2 rs1)
    let s ← getS
    let t := s.me
    if midAccess s t.part then waitFor .transit
    modS (dropCached t.part (if rs1 = 0 then none else some (t.readX rs1)) (if rs2 = 0 then none else some (t.readX rs2)))
    pure .next) s

/-- `icflush` (R50, R102): what the sequencer has observed is made visible to fetch, and the old copies of its core and of
its cluster's front end are dropped (R228). -/
def execIcflush (s : State) : Host.Outcome State Fault Refusal :=
  run (wordSys 4 0 0) (do
    releaseAt .device true
    let s ← getS
    modS (mapCore (coreOf s.cur) fun c => { c with icache := [] })
    modS (mapCluster (clusterOf s.cur) fun c => { c with icache := [] })
    pure .next) s

/-- `nop.sys` (R102). -/
def execNopSys (s : State) : Host.Outcome State Fault Refusal := simple id s

/-- A word that is no instruction (R34). -/
def execIllegalInstruction (w : IWord) (s : State) : Host.Outcome State Fault Refusal :=
  .next (takeTrap causeIllegal (w.zeroExtend 64) s.me.pc s)

/-- A fault on fetching the instruction word (R317, R319). -/
def execInstructionFetchFault (cause : Nat) (addr : Word) (s : State) : Host.Outcome State Fault Refusal :=
  .next (takeTrap cause addr addr s)

end Sys2Proof.Machine
end

