-- ==== Sys2Proof/Machine/Task.lean ====
section
/-! DEFINITION. Ending, spawning and joining threads, and publishing a strip chain (R165 to R168, R171, R197 to R200). -/

namespace Sys2Proof.Machine

/-- The word of a TASK form (R196). -/
def wordTask (f : Nat) (rs2 rs1 : Reg) : IWord := wordA f rs2 rs1 0 0x1C

/-- The exit decrements are made by the cluster's scheduler (R174). -/
def State.exitAgent (s : State) : Agent := { s.agent with core := none }

/-- The checks on a counter that an exit decrements, which come before every effect of the exit: its alignment, its
translation, and that its line can be read and changed (R197). -/
def counterReady (sc : Scope) (c : Word) : M Unit := do
  if c ≠ 0 then
    check (c.toNat % 8 == 0) causeAlignment c
    let s ← getS
    let l ← translate s.agent .atomic c
    canWrite l c
    let _ ← readLoc s.exitAgent sc l 8 c

/-- One exit decrement, by the cluster's scheduler through the translation of the thread (R166, R174, R197); gives the
counter's new value. -/
def exitDecrement (sc : Scope) (c : Word) : M Nat := do
  let s ← getS
  let l ← translate s.agent .atomic c
  let old ← rmwLoc s.exitAgent sc l 8 c fun v => some ((v + 2 ^ 64 - 1) % 2 ^ 64)
  pure ((old + 2 ^ 64 - 1) % 2 ^ 64)

/-- What `texit` does once its checks have passed and what the thread wrote is released: its bindings end, and the two
counters are decremented in order. -/
def exitEffects (t : Slot) : M Unit := do
  unbindAll
  if t.xjoin ≠ 0 then
    let v ← exitDecrement .cluster t.xjoin
    if v = 0 then modS fun s => pokeWaiting (clusterOf s.cur) s
  if t.xdone ≠ 0 then
    let v ← exitDecrement .system t.xdone
    if v = 0 then modS (raiseVector t.part 2)

/-- `texit` (R166, R197). -/
def execTexit (s : State) : Host.Outcome State Fault Refusal :=
  run (wordTask 0 0 0) (do
    drained
    let t ← getMe
    counterReady .cluster t.xjoin
    counterReady .system t.xdone
    releaseAt (if t.xdone ≠ 0 then .system else .cluster) false
    whole (exitEffects t)
    modS fun s => participantGone s.cur s
    freeSlot
    pure .ended) s

/-- `tspawn` (R167, R198). -/
def execTspawn (rs1 : Reg) (s : State) : Host.Outcome State Fault Refusal :=
  run (wordTask 1 0 rs1) (do
    let a ← getX rs1
    check (a.toNat % 32 == 0) causeAlignment a
    let r ← readCont a
    let s ← getS
    let k := contRec s.me.part a r s.cycle
    queuePlace k.level
    releaseAt .cluster false
    modS (enqueueCont (clusterOf s.cur) k)
    pure .next) s

/-- `tjoin` (R170, R199). -/
def execTjoin (rs1 rs2 : Reg) (s : State) : Host.Outcome State Fault Refusal :=
  run (wordTask 2 rs2 rs1) (do
    let j ← getX rs1
    let p ← getX rs2
    check (j.toNat % 8 == 0) causeAlignment j
    check (p.toNat % 32 == 0) causeAlignment p
    let s ← getS
    let v ← loadN s.agent .cluster j 8
    acquireAt .cluster false
    if v = 0 then pure .next
    else do
      let r ← readCont p
      let s ← getS
      let t := s.me
      let k := contRec t.part p r s.cycle
      queuePlace k.level
      drained
      releaseAt .cluster false
      unbindAll
      modS (enqueueCont (clusterOf s.cur) { k with
        xdone := t.xdone
        awaited := some { ctr := j, ctx := t.ctx, core := coreOf s.cur, last := s.cycle, poked := true, logged := false } })
      modS fun s => participantGone s.cur s
      freeSlot
      pure .ended) s

/-- `hwpub` (R200): the release comes before both writes. -/
def execHwpub (rs1 rs2 : Reg) (s : State) : Host.Outcome State Fault Refusal :=
  run (wordTask 3 rs2 rs1) (do
    let a ← getX rs1
    let h ← getX rs2
    check (a.toNat % 32 == 0) causeAlignment a
    let s ← getS
    let sc := s.me.scope
    let old ← loadN s.agent .sequencer a 8
    let tot ← loadN s.agent .sequencer (a + 8) 8
    check (decide (old ≤ h.toNat) && decide (h.toNat ≤ tot)) causeOperand h
    let _ ← translate s.agent .store a
    releaseAt sc false
    if h.toNat = tot then storeN s.agent sc (a + 16) 8 1
    storeN s.agent sc a 8 h.toNat
    modS (pokeAwaits (clusterOf s.cur) s.me.part a)
    pure .next) s

/-- Space has freed for a stalled enqueue: `tspawn`, `tjoin`, or a write of `tleave` (R168). -/
def execSpillSpaceFreed (q : SeqId) (s : State) : Host.Outcome State Fault Refusal :=
  resume q [.spill] (fun w =>
    if op w = 0x1C then
      if f11 w = 1 then execTspawn (Sys2Proof.rs1 w) else execTjoin (Sys2Proof.rs1 w) (Sys2Proof.rs2 w)
    else match ((f11 w).extractLsb' 9 2).toNat with
      | 0 => execCsrrw (Sys2Proof.rd w) (csrNo w) (Sys2Proof.rs1 w)
      | 1 => execCsrrs (Sys2Proof.rd w) (csrNo w) (Sys2Proof.rs1 w)
      | _ => execCsrrc (Sys2Proof.rd w) (csrNo w) (Sys2Proof.rs1 w)) s

end Sys2Proof.Machine
end

