-- ==== Sys2Proof/Machine/VAmo.lean ====
section
/-! DEFINITION. Vector atomics (R126, R127). -/

namespace Sys2Proof.Machine

/-- The address mode of a vector atomic: indexed offsets are read at the data width (R126). -/
def vamoAddr (mode : VamoMode) (r2 : Reg) (t : Slot) : VAddr :=
  match mode with
  | .unit => .unit
  | .strided => .strided (t.readX r2)
  | .indexed => .indexed r2 t.ew

/-- The int class at 32 or 64 bits. -/
def vamoInt (t : Slot) : Bool := clsInt t.fmt t.ew && (t.ew == 32 || t.ew == 64)

/-- A vector atomic (R126); host memory and the capacity tier support `far` ones (R207). -/
def vamo (f5 : Nat) (mode : VamoMode) (k : KReg) (vs3 rs1 rs2 : Reg) (ok : Slot → Bool) (far : Bool)
    (f : Nat → Nat → Nat → Nat) : State → Host.Outcome State Fault Refusal :=
  let w := pack (BitVec.ofNat 5 f5 ++ (mode.toBits ++ k)) rs2 rs1 vs3 0x2A
  run w (vatomic w k vs3 rs1 ok far (vamoAddr mode rs2) f)

/-- The lesser, or the greater, of two elements by a signed or unsigned order; the old one when they are equal. -/
def vamoPick (signed greater : Bool) (w old d : Nat) : Nat :=
  let x := intOf signed w old
  let y := intOf signed w d
  if (if greater then decide (x < y) else decide (y < x)) then d else old

/-- `vamoadd` (R126, R127). -/
def execVamoadd (mode : VamoMode) (k : KReg) (vs3 rs1 rs2 : Reg) (s : State) : Host.Outcome State Fault Refusal :=
  vamo 0 mode k vs3 rs1 rs2 vamoInt true (fun w a b => (a + b) % 2 ^ w) s
/-- `vamoand` (R126, R127). -/
def execVamoand (mode : VamoMode) (k : KReg) (vs3 rs1 rs2 : Reg) (s : State) : Host.Outcome State Fault Refusal :=
  vamo 1 mode k vs3 rs1 rs2 vamoInt false (fun _ a b => a &&& b) s
/-- `vamoor` (R126, R127). -/
def execVamoor (mode : VamoMode) (k : KReg) (vs3 rs1 rs2 : Reg) (s : State) : Host.Outcome State Fault Refusal :=
  vamo 2 mode k vs3 rs1 rs2 vamoInt false (fun _ a b => a ||| b) s
/-- `vamoxor` (R126, R127). -/
def execVamoxor (mode : VamoMode) (k : KReg) (vs3 rs1 rs2 : Reg) (s : State) : Host.Outcome State Fault Refusal :=
  vamo 3 mode k vs3 rs1 rs2 vamoInt false (fun _ a b => a ^^^ b) s
/-- `vamomin` (R126, R127). -/
def execVamomin (mode : VamoMode) (k : KReg) (vs3 rs1 rs2 : Reg) (s : State) : Host.Outcome State Fault Refusal :=
  vamo 4 mode k vs3 rs1 rs2 vamoInt false (vamoPick true false) s
/-- `vamomax` (R126, R127). -/
def execVamomax (mode : VamoMode) (k : KReg) (vs3 rs1 rs2 : Reg) (s : State) : Host.Outcome State Fault Refusal :=
  vamo 5 mode k vs3 rs1 rs2 vamoInt false (vamoPick true true) s
/-- `vamominu` (R126, R127). -/
def execVamominu (mode : VamoMode) (k : KReg) (vs3 rs1 rs2 : Reg) (s : State) : Host.Outcome State Fault Refusal :=
  vamo 6 mode k vs3 rs1 rs2 vamoInt false (vamoPick false false) s
/-- `vamomaxu` (R126, R127). -/
def execVamomaxu (mode : VamoMode) (k : KReg) (vs3 rs1 rs2 : Reg) (s : State) : Host.Outcome State Fault Refusal :=
  vamo 7 mode k vs3 rs1 rs2 vamoInt false (vamoPick false true) s
/-- `vamoswap` (R126, R127). -/
def execVamoswap (mode : VamoMode) (k : KReg) (vs3 rs1 rs2 : Reg) (s : State) : Host.Outcome State Fault Refusal :=
  vamo 8 mode k vs3 rs1 rs2 vamoInt true (fun _ _ b => b) s
/-- `vamofadd` (R126, R127). -/
def execVamofadd (mode : VamoMode) (k : KReg) (vs3 rs1 rs2 : Reg) (s : State) : Host.Outcome State Fault Refusal :=
  vamo 9 mode k vs3 rs1 rs2 (fun t => t.fmt == .fp32) false (fun _ a b => (fp32.add .rne false (fp32.decode false a) (fp32.decode false b)).bits) s

end Sys2Proof.Machine
end

