-- ==== Sys2Proof/Machine/VCvt.lean ====
section
/-! DEFINITION. Conversions and block scaling (R116, R117). -/

namespace Sys2Proof.Machine

/-- A conversion from elements of `sw` bits to the format of `vtype` (R116): `val` reads a source element's value and
`mode` gives the rounding of element `e`. -/
def vconvert (w : IWord) (k : KReg) (vd vs1 : Reg) (sw : Nat) (ok : Slot → Bool) (val : Slot → Nat → FVal)
    (mode : Slot → Nat → Rnd) : State → Host.Outcome State Fault Refusal :=
  run w do
    let os (t : Slot) : List VOp := [{ r := vs1, quarters := 4 * sw }, t.dst vd]
    vecChecks w clsAny os ok
    let t ← getMe
    elementLoop (os t) k vd t.ew t.vl t.vlmax 1 fun e =>
      convert (numFmtOf t.fmt t.ew) (mode t e) t.ftz (val t (t.read { r := vs1, quarters := 4 * sw } sw e))

/-- The width of a format other than the integers. -/
def fmtBits : Fmt → Nat
  | .fp32 => 32 | .fp16 => 16 | .bf16 => 16 | .e4m3 => 8 | .e5m2 => 8 | .e3m2 => 6 | .e2m3 => 6 | .e2m1 => 4 | .l6 => 6
  | _ => 64

/-- A value times a power of two. -/
def scaleVal (v : FVal) (k : Int) : FVal := match v with | .fin d => .fin (d.scale k) | x => x

/-- `vcvt` (R116). -/
def execVcvt (k : KReg) (vd vs1 : Reg) (src : SrcFmt) (s : State) : Host.Outcome State Fault Refusal :=
  vconvert (wordVM 0 0 k src.toBits vs1 vd 0x24) k vd vs1 (fmtBits src.toFmt) (fun _ => true)
    (fun t => fmtValue src.toFmt (fmtBits src.toFmt) t.ftz) (fun t _ => t.frmMode) s
/-- `vcvti` (R116). -/
def execVcvti (k : KReg) (vd vs1 : Reg) (src : IntWidth) (s : State) : Host.Outcome State Fault Refusal :=
  vconvert (wordVM 1 0 k (0#2 ++ src.toBits) vs1 vd 0x24) k vd vs1 src.bits (fun _ => true)
    (fun _ a => fvalOfInt (intOf true src.bits a)) (fun t _ => t.frmMode) s
/-- `vcvtu` (R116). -/
def execVcvtu (k : KReg) (vd vs1 : Reg) (src : IntWidth) (s : State) : Host.Outcome State Fault Refusal :=
  vconvert (wordVM 2 0 k (0#2 ++ src.toBits) vs1 vd 0x24) k vd vs1 src.bits (fun _ => true)
    (fun _ a => fvalOfInt (intOf false src.bits a)) (fun t _ => t.frmMode) s
/-- `vcvtsr` (R116). -/
def execVcvtsr (k : KReg) (vd vs1 : Reg) (src : SrcFmt) (s : State) : Host.Outcome State Fault Refusal :=
  vconvert (wordVM 3 0 k src.toBits vs1 vd 0x24) k vd vs1 (fmtBits src.toFmt) (fun t => !clsInt t.fmt t.ew)
    (fun t => fmtValue src.toFmt (fmtBits src.toFmt) t.ftz) (fun t e => .sr (srDraw t.srseed e)) s
/-- `vquant` (R77, R117). Under the scale 0xFF it converts a NaN, by the table of R76 (assumption 70). -/
def execVquant (k : KReg) (vd vs1 vs2 : Reg) (s : State) : Host.Outcome State Fault Refusal :=
  let w := wordVM 4 0 k vs2 vs1 vd 0x24
  run w (do
    let os (t : Slot) : List VOp := [{ r := vs1, quarters := 128 }, { r := vs2, quarters := 1 }, t.dst vd]
    vecChecks w clsMx os fun _ => true
    let t ← getMe
    elementLoop (os t) k vd t.ew t.vl t.vlmax 1 fun e =>
      let x := t.elem vs2.toNat 8 (e / 32)
      if x = 0xFF then convert (numFmtOf t.fmt t.ew) t.frmMode t.ftz defaultNan
      else convert (numFmtOf t.fmt t.ew) t.frmMode t.ftz
        (scaleVal (fp32.decode t.ftz (t.elem vs1.toNat 32 e)) (127 - (x : Int)))) s
/-- `vdequant` (R117). -/
def execVdequant (k : KReg) (vd vs1 vs2 : Reg) (s : State) : Host.Outcome State Fault Refusal :=
  let w := wordVM 5 0 k vs2 vs1 vd 0x24
  run w (do
    let os (t : Slot) : List VOp := [t.opw vs1, { r := vs2, quarters := 1 }, { r := vd, quarters := 128, dest := true }]
    vecChecks w clsMx os fun _ => true
    let t ← getMe
    elementLoop (os t) k vd 32 t.vl t.vlmax 1 fun e =>
      let x := t.elem vs2.toNat 8 (e / 32)
      let v := (fltOf t.fmt).decode t.ftz (t.read (t.opw vs1) t.ew e)
      if x = 0xFF || v.isNan then ⟨0x7FC00000, flagIf v.isSig flagNV⟩
      else convert (.flt fp32) t.frmMode t.ftz (scaleVal v ((x : Int) - 127))) s

end Sys2Proof.Machine
end

