-- ==== Sys2Proof/Machine/VInt.lean ====
section
/-! DEFINITION. Vector integer arithmetic, compares and moves (R108, R109). -/

namespace Sys2Proof.Machine

/-- An element-wise instruction of two sources at the width of `vtype`: its word, class, operands and the value of
an element, from the configuration, the index and the two source elements. -/
def vec2 (w : IWord) (cls : Fmt → Nat → Bool) (rep : Rep) (k : KReg) (vd vs1 vs2 : Reg)
    (f : Slot → Nat → Nat → Nat → FRes) : State → Host.Outcome State Fault Refusal :=
  run w do
    let os (t : Slot) := [t.opw vs1, { t.opw vs2 with rep := rep }, t.dst vd]
    vecChecks w cls os fun _ => true
    let t ← getMe
    elementLoop (os t) k vd t.ew t.vl t.vlmax 1 fun e =>
      f t e (t.read (t.opw vs1) t.ew e) (t.read { t.opw vs2 with rep := rep } t.ew e)

/-- An integer instruction: the result of an element is a number modulo 2^W, and no flag is raised. -/
def vint2 (f5 : Nat) (rep : Rep) (k : KReg) (vd vs1 vs2 : Reg) (f : Nat → Nat → Nat → Int) :
    State → Host.Outcome State Fault Refusal :=
  vec2 (wordV f5 rep k vs2 vs1 vd 0x21) clsInt rep k vd vs1 vs2 fun t _ a b => ⟨encodeInt t.ew (f t.ew a b), 0⟩

/-- A compare of two sources into a mask register. -/
def vecCmp (w : IWord) (cls : Fmt → Nat → Bool) (rep : Rep) (k kd : KReg) (vs1 vs2 : Reg)
    (f : Slot → Nat → Nat → Bool × FFlags) : State → Host.Outcome State Fault Refusal :=
  run w do
    let os (t : Slot) := [t.opw vs1, { t.opw vs2 with rep := rep }]
    vecChecks w cls os fun _ => true
    let t ← getMe
    maskLoop (os t) k kd fun e => f t (t.read (t.opw vs1) t.ew e) (t.read { t.opw vs2 with rep := rep } t.ew e)

/-- An integer compare. -/
def vintCmp (f5 : Nat) (rep : Rep) (k kd : KReg) (vs1 vs2 : Reg) (f : Nat → Nat → Nat → Bool) :
    State → Host.Outcome State Fault Refusal :=
  vecCmp (wordV f5 rep k vs2 vs1 (kField kd) 0x21) clsInt rep k kd vs1 vs2 fun t a b => (f t.ew a b, 0)

/-- A number clamped to the range of an integer format (R63). -/
def clampInt (signed : Bool) (w : Nat) (i : Int) : Int := max (intLo signed w) (min (intHi signed w) i)
/-- The signed value of a `w`-bit element. -/
def sv (w a : Nat) : Int := intOf true w a

/-- `vadd` (R108). -/
def execVadd (rep : Rep) (k : KReg) (vd vs1 vs2 : Reg) (s : State) : Host.Outcome State Fault Refusal :=
  vint2 0 rep k vd vs1 vs2 (fun _ a b => ((a + b : Nat) : Int)) s
/-- `vsub` (R108). -/
def execVsub (rep : Rep) (k : KReg) (vd vs1 vs2 : Reg) (s : State) : Host.Outcome State Fault Refusal :=
  vint2 1 rep k vd vs1 vs2 (fun _ a b => (a : Int) - b) s
/-- `vrsub` (R108). -/
def execVrsub (rep : Rep) (k : KReg) (vd vs1 vs2 : Reg) (s : State) : Host.Outcome State Fault Refusal :=
  vint2 2 rep k vd vs1 vs2 (fun _ a b => (b : Int) - a) s
/-- `vmul` (R108). -/
def execVmul (rep : Rep) (k : KReg) (vd vs1 vs2 : Reg) (s : State) : Host.Outcome State Fault Refusal :=
  vint2 3 rep k vd vs1 vs2 (fun _ a b => ((a * b : Nat) : Int)) s
/-- `vmulh` (R108). -/
def execVmulh (rep : Rep) (k : KReg) (vd vs1 vs2 : Reg) (s : State) : Host.Outcome State Fault Refusal :=
  vint2 4 rep k vd vs1 vs2 (fun w a b => (sv w a * sv w b) / 2 ^ w) s
/-- `vmulhu` (R108). -/
def execVmulhu (rep : Rep) (k : KReg) (vd vs1 vs2 : Reg) (s : State) : Host.Outcome State Fault Refusal :=
  vint2 5 rep k vd vs1 vs2 (fun w a b => (((a * b) / 2 ^ w : Nat) : Int)) s
/-- `vand` (R108). -/
def execVand (rep : Rep) (k : KReg) (vd vs1 vs2 : Reg) (s : State) : Host.Outcome State Fault Refusal :=
  vint2 6 rep k vd vs1 vs2 (fun _ a b => ((a &&& b : Nat) : Int)) s
/-- `vor` (R108). -/
def execVor (rep : Rep) (k : KReg) (vd vs1 vs2 : Reg) (s : State) : Host.Outcome State Fault Refusal :=
  vint2 7 rep k vd vs1 vs2 (fun _ a b => ((a ||| b : Nat) : Int)) s
/-- `vxor` (R108). -/
def execVxor (rep : Rep) (k : KReg) (vd vs1 vs2 : Reg) (s : State) : Host.Outcome State Fault Refusal :=
  vint2 8 rep k vd vs1 vs2 (fun _ a b => ((a ^^^ b : Nat) : Int)) s
/-- `vsll` (R108). -/
def execVsll (rep : Rep) (k : KReg) (vd vs1 vs2 : Reg) (s : State) : Host.Outcome State Fault Refusal :=
  vint2 9 rep k vd vs1 vs2 (fun w a b => ((a <<< (b % w) : Nat) : Int)) s
/-- `vsrl` (R108). -/
def execVsrl (rep : Rep) (k : KReg) (vd vs1 vs2 : Reg) (s : State) : Host.Outcome State Fault Refusal :=
  vint2 10 rep k vd vs1 vs2 (fun w a b => ((a >>> (b % w) : Nat) : Int)) s
/-- `vsra` (R108). -/
def execVsra (rep : Rep) (k : KReg) (vd vs1 vs2 : Reg) (s : State) : Host.Outcome State Fault Refusal :=
  vint2 11 rep k vd vs1 vs2 (fun w a b => sv w a / 2 ^ (b % w)) s
/-- `vmin` (R108). -/
def execVmin (rep : Rep) (k : KReg) (vd vs1 vs2 : Reg) (s : State) : Host.Outcome State Fault Refusal :=
  vint2 12 rep k vd vs1 vs2 (fun w a b => min (sv w a) (sv w b)) s
/-- `vmax` (R108). -/
def execVmax (rep : Rep) (k : KReg) (vd vs1 vs2 : Reg) (s : State) : Host.Outcome State Fault Refusal :=
  vint2 13 rep k vd vs1 vs2 (fun w a b => max (sv w a) (sv w b)) s
/-- `vminu` (R108). -/
def execVminu (rep : Rep) (k : KReg) (vd vs1 vs2 : Reg) (s : State) : Host.Outcome State Fault Refusal :=
  vint2 14 rep k vd vs1 vs2 (fun _ a b => ((min a b : Nat) : Int)) s
/-- `vmaxu` (R108). -/
def execVmaxu (rep : Rep) (k : KReg) (vd vs1 vs2 : Reg) (s : State) : Host.Outcome State Fault Refusal :=
  vint2 15 rep k vd vs1 vs2 (fun _ a b => ((max a b : Nat) : Int)) s
/-- `vsadd` (R108). -/
def execVsadd (rep : Rep) (k : KReg) (vd vs1 vs2 : Reg) (s : State) : Host.Outcome State Fault Refusal :=
  vint2 16 rep k vd vs1 vs2 (fun w a b => clampInt true w (sv w a + sv w b)) s
/-- `vsaddu` (R108). -/
def execVsaddu (rep : Rep) (k : KReg) (vd vs1 vs2 : Reg) (s : State) : Host.Outcome State Fault Refusal :=
  vint2 17 rep k vd vs1 vs2 (fun w a b => clampInt false w ((a + b : Nat) : Int)) s
/-- `vssub` (R108). -/
def execVssub (rep : Rep) (k : KReg) (vd vs1 vs2 : Reg) (s : State) : Host.Outcome State Fault Refusal :=
  vint2 18 rep k vd vs1 vs2 (fun w a b => clampInt true w (sv w a - sv w b)) s
/-- `vssubu` (R108). -/
def execVssubu (rep : Rep) (k : KReg) (vd vs1 vs2 : Reg) (s : State) : Host.Outcome State Fault Refusal :=
  vint2 19 rep k vd vs1 vs2 (fun w a b => clampInt false w ((a : Int) - b)) s
/-- `vdiv` (R108). -/
def execVdiv (rep : Rep) (k : KReg) (vd vs1 vs2 : Reg) (s : State) : Host.Outcome State Fault Refusal :=
  vint2 20 rep k vd vs1 vs2 (fun w a b => if b = 0 then -1 else (sv w a).tdiv (sv w b)) s
/-- `vdivu` (R108). -/
def execVdivu (rep : Rep) (k : KReg) (vd vs1 vs2 : Reg) (s : State) : Host.Outcome State Fault Refusal :=
  vint2 21 rep k vd vs1 vs2 (fun _ a b => if b = 0 then -1 else ((a / b : Nat) : Int)) s
/-- `vrem` (R108). -/
def execVrem (rep : Rep) (k : KReg) (vd vs1 vs2 : Reg) (s : State) : Host.Outcome State Fault Refusal :=
  vint2 22 rep k vd vs1 vs2 (fun w a b => if b = 0 then (a : Int) else (sv w a).tmod (sv w b)) s
/-- `vremu` (R108). -/
def execVremu (rep : Rep) (k : KReg) (vd vs1 vs2 : Reg) (s : State) : Host.Outcome State Fault Refusal :=
  vint2 23 rep k vd vs1 vs2 (fun _ a b => if b = 0 then (a : Int) else ((a % b : Nat) : Int)) s
/-- `vcmpeq` (R108). -/
def execVcmpeq (rep : Rep) (k kd : KReg) (vs1 vs2 : Reg) (s : State) : Host.Outcome State Fault Refusal :=
  vintCmp 24 rep k kd vs1 vs2 (fun _ a b => a == b) s
/-- `vcmpne` (R108). -/
def execVcmpne (rep : Rep) (k kd : KReg) (vs1 vs2 : Reg) (s : State) : Host.Outcome State Fault Refusal :=
  vintCmp 25 rep k kd vs1 vs2 (fun _ a b => a != b) s
/-- `vcmplt` (R108). -/
def execVcmplt (rep : Rep) (k kd : KReg) (vs1 vs2 : Reg) (s : State) : Host.Outcome State Fault Refusal :=
  vintCmp 26 rep k kd vs1 vs2 (fun w a b => decide (sv w a < sv w b)) s
/-- `vcmpltu` (R108). -/
def execVcmpltu (rep : Rep) (k kd : KReg) (vs1 vs2 : Reg) (s : State) : Host.Outcome State Fault Refusal :=
  vintCmp 27 rep k kd vs1 vs2 (fun _ a b => decide (a < b)) s
/-- `vcmple` (R108). -/
def execVcmple (rep : Rep) (k kd : KReg) (vs1 vs2 : Reg) (s : State) : Host.Outcome State Fault Refusal :=
  vintCmp 28 rep k kd vs1 vs2 (fun w a b => decide (sv w a ≤ sv w b)) s
/-- `vcmpleu` (R108). -/
def execVcmpleu (rep : Rep) (k kd : KReg) (vs1 vs2 : Reg) (s : State) : Host.Outcome State Fault Refusal :=
  vintCmp 29 rep k kd vs1 vs2 (fun _ a b => decide (a ≤ b)) s
/-- `vmerge` (R109): every element below `vl` is written, from vs2 where the bit of k is 1 and from vs1 where it is 0. -/
def execVmerge (rep : Rep) (k : KReg) (vd vs1 vs2 : Reg) (s : State) : Host.Outcome State Fault Refusal :=
  vec2 (wordV 30 rep k vs2 vs1 vd 0x21) clsAny rep 0 vd vs1 vs2 (fun t e a b => ⟨if t.kbit k e then b else a, 0⟩) s
/-- `vmv` (R109). -/
def execVmv (rep : Rep) (k : KReg) (vd vs2 : Reg) (s : State) : Host.Outcome State Fault Refusal :=
  let w := wordV 31 rep k vs2 0 vd 0x21
  run w (do
    let os (t : Slot) := [{ t.opw vs2 with rep := rep }, t.dst vd]
    vecChecks w clsAny os fun _ => true
    let t ← getMe
    elementLoop (os t) k vd t.ew t.vl t.vlmax 1 fun e => ⟨t.read { t.opw vs2 with rep := rep } t.ew e, 0⟩) s

end Sys2Proof.Machine
end

