-- ==== Sys2Proof/Machine/VFma.lean ====
section
/-! DEFINITION. Fused, widening, dot and quad forms (R112 to R115). -/

namespace Sys2Proof.Machine

/-- An accumulating instruction: the destination is the third source; `dq` is its width in quarter bits for R107, `dw`
its width in bits, and `ratio` source elements go to each of its elements. -/
def vacc (w : IWord) (cls : Fmt → Nat → Bool) (rep : Rep) (k : KReg) (vd vs1 vs2 : Reg) (dq dw : Nat → Nat) (ratio : Nat)
    (f : Slot → (Nat → Nat) → (Nat → Nat) → Nat → Nat → FRes) : State → Host.Outcome State Fault Refusal :=
  run w do
    let os (t : Slot) : List VOp := [t.opw vs1, { t.opw vs2 with rep := rep },
      { r := vd, quarters := dq t.ew, wide := ratio != 1 }, { r := vd, quarters := dq t.ew, wide := ratio != 1, dest := true }]
    vecChecks w cls os fun _ => true
    let t ← getMe
    elementLoop (os t) k vd (dw t.ew) ((t.vl + ratio - 1) / ratio) ((t.vlmax + ratio - 1) / ratio) ratio fun e =>
      f t (fun i => if i < t.vl then t.read (t.opw vs1) t.ew i else 0)
        (fun i => if i < t.vl then t.read { t.opw vs2 with rep := rep } t.ew i else 0) e (t.elem vd.toNat (dw t.ew) e)

/-- A fused product-sum of a format (R97, R112). -/
def vfma (f5 : Nat) (rep : Rep) (k : KReg) (vd vs1 vs2 : Reg) (negP negC : Bool) : State → Host.Outcome State Fault Refusal :=
  vacc (wordV f5 rep k vs2 vs1 vd 0x23) clsFp rep k vd vs1 vs2 (4 * ·) id 1 fun t a b e c =>
    let x := fltOf t.fmt
    x.fma t.frmMode t.ftz negP negC (x.decode t.ftz (a e)) (x.decode t.ftz (b e)) (x.decode t.ftz c)

/-- The quad form of an instruction of three sources (R115): unmasked, and every element below `vl` is written. -/
def vquad (f6 : Nat) (cls : Fmt → Nat → Bool) (vd vs1 vs2 vs3 : Reg) (f : Slot → Nat → Nat → Nat → FRes) :
    State → Host.Outcome State Fault Refusal :=
  let w := wordVQ f6 vs3 vs2 vs1 vd
  run w do
    let os (t : Slot) := [t.opw vs1, t.opw vs2, t.opw vs3, t.dst vd]
    vecChecks w cls os fun _ => true
    let t ← getMe
    elementLoop (os t) 0 vd t.ew t.vl t.vlmax 1 fun e =>
      f t (t.read (t.opw vs1) t.ew e) (t.read (t.opw vs2) t.ew e) (t.read (t.opw vs3) t.ew e)

/-- The fused forms of VQUAD. -/
def vquadFma (f6 : Nat) (vd vs1 vs2 vs3 : Reg) (negP negC : Bool) : State → Host.Outcome State Fault Refusal :=
  vquad f6 clsFp vd vs1 vs2 vs3 fun t a b c =>
    let x := fltOf t.fmt
    x.fma t.frmMode t.ftz negP negC (x.decode t.ftz a) (x.decode t.ftz b) (x.decode t.ftz c)

/-- `vfmacc` (R112). -/
def execVfmacc (rep : Rep) (k : KReg) (vd vs1 vs2 : Reg) (s : State) : Host.Outcome State Fault Refusal :=
  vfma 0 rep k vd vs1 vs2 false false s
/-- `vfnmacc` (R112). -/
def execVfnmacc (rep : Rep) (k : KReg) (vd vs1 vs2 : Reg) (s : State) : Host.Outcome State Fault Refusal :=
  vfma 1 rep k vd vs1 vs2 true true s
/-- `vfmsac` (R112). -/
def execVfmsac (rep : Rep) (k : KReg) (vd vs1 vs2 : Reg) (s : State) : Host.Outcome State Fault Refusal :=
  vfma 2 rep k vd vs1 vs2 false true s
/-- `vfnmsac` (R112). -/
def execVfnmsac (rep : Rep) (k : KReg) (vd vs1 vs2 : Reg) (s : State) : Host.Outcome State Fault Refusal :=
  vfma 3 rep k vd vs1 vs2 true false s
/-- `vfwmacc` (R113). -/
def execVfwmacc (rep : Rep) (k : KReg) (vd vs1 vs2 : Reg) (s : State) : Host.Outcome State Fault Refusal :=
  vacc (wordV 4 rep k vs2 vs1 vd 0x23) (fun f w => clsFp f w && w == 16) rep k vd vs1 vs2 (fun _ => 128) (fun _ => 32) 1
    (fun t a b e c =>
      let x := fltOf t.fmt
      fp32.fma t.frmMode t.ftz false false (x.decode t.ftz (a e)) (x.decode t.ftz (b e)) (fp32.decode t.ftz c)) s
/-- `vfdot4` (R113): the exact-window sum of four products and the accumulator, the last term. -/
def execVfdot4 (rep : Rep) (k : KReg) (vd vs1 vs2 : Reg) (s : State) : Host.Outcome State Fault Refusal :=
  vacc (wordV 5 rep k vs2 vs1 vd 0x23) clsMx8 rep k vd vs1 vs2 (fun _ => 32) (fun _ => 32) 4
    (fun t a b e c =>
      let x := fltOf t.fmt
      fp32.windowRound t.ftz (((List.range 4).map fun i =>
        termProd (x.decode t.ftz (a (4 * e + i))) (x.decode t.ftz (b (4 * e + i)))) ++ [termOf (fp32.decode t.ftz c)])) s
/-- `vl6mul` (R114). -/
def execVl6mul (rep : Rep) (k : KReg) (vd vs1 vs2 : Reg) (s : State) : Host.Outcome State Fault Refusal :=
  vec2 (wordV 6 rep k vs2 vs1 vd 0x23) clsL6 rep k vd vs1 vs2 (fun _ _ a b => l6Mul a b) s
/-- `vl6dot` (R113): as `vfdot4`, with the L6 products of R68. -/
def execVl6dot (rep : Rep) (k : KReg) (vd vs1 vs2 : Reg) (s : State) : Host.Outcome State Fault Refusal :=
  vacc (wordV 7 rep k vs2 vs1 vd 0x23) clsL6 rep k vd vs1 vs2 (fun _ => 32) (fun _ => 32) 4
    (fun t a b e c => fp32.windowRound t.ftz (((List.range 4).map fun i =>
      termVal (l6Product (a (4 * e + i)) (b (4 * e + i)))) ++ [termOf (fp32.decode t.ftz c)])) s
/-- `vmacc` (R112). -/
def execVmacc (rep : Rep) (k : KReg) (vd vs1 vs2 : Reg) (s : State) : Host.Outcome State Fault Refusal :=
  vacc (wordV 8 rep k vs2 vs1 vd 0x23) clsInt rep k vd vs1 vs2 (4 * ·) id 1 (fun t a b e c => ⟨(a e * b e + c) % 2 ^ t.ew, 0⟩) s
/-- `vwmacc` (R113). -/
def execVwmacc (rep : Rep) (k : KReg) (vd vs1 vs2 : Reg) (s : State) : Host.Outcome State Fault Refusal :=
  vacc (wordV 9 rep k vs2 vs1 vd 0x23) (fun f w => clsInt f w && decide (w ≤ 32)) rep k vd vs1 vs2 (8 * ·) (2 * ·) 1
    (fun t a b e c => ⟨encodeInt (2 * t.ew) (intOf (t.fmt == .int) t.ew (a e) * intOf (t.fmt == .int) t.ew (b e) + c), 0⟩) s
/-- `vfmadd` (R115). -/
def execVfmadd (vd vs1 vs2 vs3 : Reg) (s : State) : Host.Outcome State Fault Refusal :=
  vquadFma 0 vd vs1 vs2 vs3 false false s
/-- `vfmsub` (R115). -/
def execVfmsub (vd vs1 vs2 vs3 : Reg) (s : State) : Host.Outcome State Fault Refusal :=
  vquadFma 1 vd vs1 vs2 vs3 false true s
/-- `vfnmadd` (R115). -/
def execVfnmadd (vd vs1 vs2 vs3 : Reg) (s : State) : Host.Outcome State Fault Refusal :=
  vquadFma 2 vd vs1 vs2 vs3 true true s
/-- `vfnmsub` (R115). -/
def execVfnmsub (vd vs1 vs2 vs3 : Reg) (s : State) : Host.Outcome State Fault Refusal :=
  vquadFma 3 vd vs1 vs2 vs3 true false s
/-- `vbsel` (R115). -/
def execVbsel (vd vs1 vs2 vs3 : Reg) (s : State) : Host.Outcome State Fault Refusal :=
  vquad 4 clsAny vd vs1 vs2 vs3 (fun t a b c => ⟨(c &&& a) ||| ((2 ^ t.ew - 1 - c) &&& b), 0⟩) s
/-- `vmadd` (R115). -/
def execVmadd (vd vs1 vs2 vs3 : Reg) (s : State) : Host.Outcome State Fault Refusal :=
  vquad 5 clsInt vd vs1 vs2 vs3 (fun t a b c => ⟨(a * b + c) % 2 ^ t.ew, 0⟩) s

end Sys2Proof.Machine
end

