-- ==== Sys2Proof/Machine/VFp.lean ====
section
/-! DEFINITION. Vector floating point (R110, R111, R118). -/

namespace Sys2Proof.Machine

/-- A floating-point instruction of two sources, rounded in the mode of `frm` (R110). -/
def vfp2 (f5 : Nat) (rep : Rep) (k : KReg) (vd vs1 vs2 : Reg) (f : FFmt → Rnd → Bool → FVal → FVal → FRes) :
    State → Host.Outcome State Fault Refusal :=
  vec2 (wordV f5 rep k vs2 vs1 vd 0x22) clsFp rep k vd vs1 vs2 fun t _ a b =>
    let x := fltOf t.fmt
    f x t.frmMode t.ftz (x.decode t.ftz a) (x.decode t.ftz b)

/-- The magnitude bits of a with a sign made from both signs (R96). -/
def vsign (f5 : Nat) (rep : Rep) (k : KReg) (vd vs1 vs2 : Reg) (f : Bool → Bool → Bool) :
    State → Host.Outcome State Fault Refusal :=
  vec2 (wordV f5 rep k vs2 vs1 vd 0x22) clsFp rep k vd vs1 vs2 fun t _ a b =>
    let n := t.ew - 1
    ⟨(fltOf t.fmt).magnitude t.ftz a + if f (a.testBit n) (b.testBit n) then 2 ^ n else 0, 0⟩

/-- An instruction of one source (R111). -/
def vfp1 (f5 : Nat) (k : KReg) (vd vs1 : Reg) (f : FFmt → Rnd → Bool → Nat → FRes) :
    State → Host.Outcome State Fault Refusal :=
  let w := wordVM f5 0 k 0 vs1 vd 0x22
  run w do
    let os (t : Slot) := [t.opw vs1, t.dst vd]
    vecChecks w clsFp os fun _ => true
    let t ← getMe
    elementLoop (os t) k vd t.ew t.vl t.vlmax 1 fun e => f (fltOf t.fmt) t.frmMode t.ftz (t.read (t.opw vs1) t.ew e)

/-- A comparison into a mask register (R75). -/
def vfpCmp (f5 : Nat) (rep : Rep) (k kd : KReg) (vs1 vs2 : Reg) (c : FCmp) : State → Host.Outcome State Fault Refusal :=
  vecCmp (wordV f5 rep k vs2 vs1 (kField kd) 0x22) clsFp rep k kd vs1 vs2 fun t a b =>
    let x := fltOf t.fmt
    fcompare c (x.decode t.ftz a) (x.decode t.ftz b)

/-- The scale byte of a block (R118): its values, and emax. -/
def blockScale (vs : List FVal) (emax : Nat) : Nat :=
  if vs.any (fun v => match v with | .fin _ => false | _ => true) then 0xFF
  else
    let es := vs.filterMap fun v => match v with | .fin d => if d.m = 0 then none else some d.log2 | _ => none
    match es.max? with
    | none => 0x7F
    | some x => (min 254 (max 0 (x - emax + 127))).toNat

/-- `vfadd` (R110). -/
def execVfadd (rep : Rep) (k : KReg) (vd vs1 vs2 : Reg) (s : State) : Host.Outcome State Fault Refusal :=
  vfp2 0 rep k vd vs1 vs2 FFmt.add s
/-- `vfsub` (R110). -/
def execVfsub (rep : Rep) (k : KReg) (vd vs1 vs2 : Reg) (s : State) : Host.Outcome State Fault Refusal :=
  vfp2 1 rep k vd vs1 vs2 FFmt.sub s
/-- `vfmul` (R110). -/
def execVfmul (rep : Rep) (k : KReg) (vd vs1 vs2 : Reg) (s : State) : Host.Outcome State Fault Refusal :=
  vfp2 2 rep k vd vs1 vs2 FFmt.mul s
/-- `vfdiv` (R110). -/
def execVfdiv (rep : Rep) (k : KReg) (vd vs1 vs2 : Reg) (s : State) : Host.Outcome State Fault Refusal :=
  vfp2 3 rep k vd vs1 vs2 FFmt.div s
/-- `vfmin` (R110). -/
def execVfmin (rep : Rep) (k : KReg) (vd vs1 vs2 : Reg) (s : State) : Host.Outcome State Fault Refusal :=
  vfp2 4 rep k vd vs1 vs2 (fun x _ _ => x.minmax false) s
/-- `vfmax` (R110). -/
def execVfmax (rep : Rep) (k : KReg) (vd vs1 vs2 : Reg) (s : State) : Host.Outcome State Fault Refusal :=
  vfp2 5 rep k vd vs1 vs2 (fun x _ _ => x.minmax true) s
/-- `vfsgnj` (R110). -/
def execVfsgnj (rep : Rep) (k : KReg) (vd vs1 vs2 : Reg) (s : State) : Host.Outcome State Fault Refusal :=
  vsign 6 rep k vd vs1 vs2 (fun _ y => y) s
/-- `vfsgnjn` (R110). -/
def execVfsgnjn (rep : Rep) (k : KReg) (vd vs1 vs2 : Reg) (s : State) : Host.Outcome State Fault Refusal :=
  vsign 7 rep k vd vs1 vs2 (fun _ y => !y) s
/-- `vfsgnjx` (R110). -/
def execVfsgnjx (rep : Rep) (k : KReg) (vd vs1 vs2 : Reg) (s : State) : Host.Outcome State Fault Refusal :=
  vsign 8 rep k vd vs1 vs2 (fun x y => x != y) s
/-- `vfsqrt` (R111). -/
def execVfsqrt (k : KReg) (vd vs1 : Reg) (s : State) : Host.Outcome State Fault Refusal :=
  vfp1 9 k vd vs1 (fun x r z a => x.sqrt r z (x.decode z a)) s
/-- `vfrecip` (R111). -/
def execVfrecip (k : KReg) (vd vs1 : Reg) (s : State) : Host.Outcome State Fault Refusal :=
  vfp1 10 k vd vs1 (fun x r z a => x.recip r z (x.decode z a)) s
/-- `vfrsqrt` (R111). -/
def execVfrsqrt (k : KReg) (vd vs1 : Reg) (s : State) : Host.Outcome State Fault Refusal :=
  vfp1 11 k vd vs1 (fun x r z a => x.rsqrt r z (x.decode z a)) s
/-- `vfexp2` (R111). -/
def execVfexp2 (k : KReg) (vd vs1 : Reg) (s : State) : Host.Outcome State Fault Refusal :=
  vfp1 12 k vd vs1 (fun x r z a => x.exp2 r z (x.decode z a)) s
/-- `vflog2` (R111). -/
def execVflog2 (k : KReg) (vd vs1 : Reg) (s : State) : Host.Outcome State Fault Refusal :=
  vfp1 13 k vd vs1 (fun x r z a => x.log2 r z (x.decode z a)) s
/-- `vftanh` (R111). -/
def execVftanh (k : KReg) (vd vs1 : Reg) (s : State) : Host.Outcome State Fault Refusal :=
  vfp1 14 k vd vs1 (fun x r z a => x.tanh r z (x.decode z a)) s
/-- `vfclass` (R111). -/
def execVfclass (k : KReg) (vd vs1 : Reg) (s : State) : Host.Outcome State Fault Refusal :=
  vfp1 15 k vd vs1 (fun x _ z a => ⟨x.classify z a, 0⟩) s
/-- `vfcmpeq` (R110). -/
def execVfcmpeq (rep : Rep) (k kd : KReg) (vs1 vs2 : Reg) (s : State) : Host.Outcome State Fault Refusal :=
  vfpCmp 16 rep k kd vs1 vs2 .eq s
/-- `vfcmpne` (R110). -/
def execVfcmpne (rep : Rep) (k kd : KReg) (vs1 vs2 : Reg) (s : State) : Host.Outcome State Fault Refusal :=
  vfpCmp 17 rep k kd vs1 vs2 .ne s
/-- `vfcmplt` (R110). -/
def execVfcmplt (rep : Rep) (k kd : KReg) (vs1 vs2 : Reg) (s : State) : Host.Outcome State Fault Refusal :=
  vfpCmp 18 rep k kd vs1 vs2 .lt s
/-- `vfcmple` (R110). -/
def execVfcmple (rep : Rep) (k kd : KReg) (vs1 vs2 : Reg) (s : State) : Host.Outcome State Fault Refusal :=
  vfpCmp 19 rep k kd vs1 vs2 .le s
/-- `vfcmpgt` (R110). -/
def execVfcmpgt (rep : Rep) (k kd : KReg) (vs1 vs2 : Reg) (s : State) : Host.Outcome State Fault Refusal :=
  vfpCmp 20 rep k kd vs1 vs2 .gt s
/-- `vfcmpge` (R110). -/
def execVfcmpge (rep : Rep) (k kd : KReg) (vs1 vs2 : Reg) (s : State) : Host.Outcome State Fault Refusal :=
  vfpCmp 21 rep k kd vs1 vs2 .ge s
/-- `vfmaxexp` (R118): one E8M0 byte for each block of 32 elements; the mask selects the elements that count. -/
def execVfmaxexp (k : KReg) (vd vs1 rs2 : Reg) (s : State) : Host.Outcome State Fault Refusal :=
  let w := wordVM 22 0 k rs2 vs1 vd 0x22
  run w (do
    let os (t : Slot) := [t.opw vs1, { r := vd, quarters := 32, dest := true }]
    vecChecks w clsFp os fun t => t.fresh
    let t ← getMe
    let d := (t.vl + 31) / 32
    loopWith (fillAll t (os t) t.vl (t.kbit k)) (os t) vd 8
      { lo := t.firstLeft (t.vstart / 32), d := d, tail := d, dmax := (t.vlmax + 31) / 32, upto := (· / 32)
        act := fun _ => true, active := t.kbit k, top := t.vl } fun b =>
      ⟨blockScale (((elemRange (32 * b) (min (32 * b + 32) t.vl)).filter (t.kbit k ·)).map fun e =>
        (fltOf t.fmt).decode t.ftz (t.read (t.opw vs1) t.ew e)) rs2.toNat, 0⟩) s

end Sys2Proof.Machine
end

