-- ==== Sys2Proof/Machine/VMem.lean ====
section
/-! DEFINITION. Vector loads and stores (R120 to R125). -/

namespace Sys2Proof.Machine

/-- The word of a vector load or store (R120): index width, kind and mode in the f11 field. -/
def wordVMem (iw : BitVec 2) (kind mode : Nat) (k : KReg) (b rs1 v : Reg) (op : Nat) : IWord :=
  pack (iw ++ (BitVec.ofNat 3 kind ++ (BitVec.ofNat 3 mode ++ k))) b rs1 v (BitVec.ofNat 6 op)

/-- `vld` (R120 to R123). -/
def execVld (k : KReg) (v rs1 : Reg) (s : State) : Host.Outcome State Fault Refusal :=
  run (wordVMem 0 0 0 k 0 rs1 v 0x28) (asLoad (vload (wordVMem 0 0 0 k 0 rs1 v 0x28) k v rs1 (fun _ => .unit))) s
/-- `vlds` (R120 to R123). -/
def execVlds (k : KReg) (v rs1 rs2 : Reg) (s : State) : Host.Outcome State Fault Refusal :=
  run (wordVMem 0 0 1 k rs2 rs1 v 0x28) (asLoad (vload (wordVMem 0 0 1 k rs2 rs1 v 0x28) k v rs1 (fun t => .strided (t.readX rs2)))) s
/-- `vldxo` (R120 to R123). -/
def execVldxo (iw : IdxWidth) (k : KReg) (v rs1 vs2 : Reg) (s : State) : Host.Outcome State Fault Refusal :=
  run (wordVMem iw.toBits 0 2 k vs2 rs1 v 0x28) (asLoad (vload (wordVMem iw.toBits 0 2 k vs2 rs1 v 0x28) k v rs1 (fun t => .indexed vs2 (idxBits t.ew iw)))) s
/-- `vldx` (R120 to R123). -/
def execVldx (iw : IdxWidth) (k : KReg) (v rs1 vs2 : Reg) (s : State) : Host.Outcome State Fault Refusal :=
  run (wordVMem iw.toBits 0 3 k vs2 rs1 v 0x28) (asLoad (vload (wordVMem iw.toBits 0 3 k vs2 rs1 v 0x28) k v rs1 (fun t => .indexed vs2 (idxBits t.ew iw)))) s
/-- `vldk` (R124). -/
def execVldk (kd : KReg) (rs1 : Reg) (s : State) : Host.Outcome State Fault Refusal :=
  run (wordVMem 0 1 0 0 0 rs1 (kField kd) 0x28) (asLoad (vloadMask (wordVMem 0 1 0 0 0 rs1 (kField kd) 0x28) kd rs1)) s
/-- `vldw` (R125). -/
def execVldw (v rs1 : Reg) (s : State) : Host.Outcome State Fault Refusal :=
  run (wordVMem 0 2 0 0 0 rs1 v 0x28) (asLoad (vloadWhole (wordVMem 0 2 0 0 0 rs1 v 0x28) v rs1)) s
/-- `vst` (R120 to R123). -/
def execVst (k : KReg) (v rs1 : Reg) (s : State) : Host.Outcome State Fault Refusal :=
  run (wordVMem 0 0 0 k 0 rs1 v 0x29) (vstore (wordVMem 0 0 0 k 0 rs1 v 0x29) k v rs1 false (fun _ => .unit)) s
/-- `vsts` (R120 to R123). -/
def execVsts (k : KReg) (v rs1 rs2 : Reg) (s : State) : Host.Outcome State Fault Refusal :=
  run (wordVMem 0 0 1 k rs2 rs1 v 0x29) (vstore (wordVMem 0 0 1 k rs2 rs1 v 0x29) k v rs1 false (fun t => .strided (t.readX rs2))) s
/-- `vstxo` (R120 to R123). -/
def execVstxo (iw : IdxWidth) (k : KReg) (v rs1 vs2 : Reg) (s : State) : Host.Outcome State Fault Refusal :=
  run (wordVMem iw.toBits 0 2 k vs2 rs1 v 0x29) (vstore (wordVMem iw.toBits 0 2 k vs2 rs1 v 0x29) k v rs1 false (fun t => .indexed vs2 (idxBits t.ew iw))) s
/-- `vstx` (R120 to R123). -/
def execVstx (iw : IdxWidth) (k : KReg) (v rs1 vs2 : Reg) (s : State) : Host.Outcome State Fault Refusal :=
  run (wordVMem iw.toBits 0 3 k vs2 rs1 v 0x29) (vstore (wordVMem iw.toBits 0 3 k vs2 rs1 v 0x29) k v rs1 true (fun t => .indexed vs2 (idxBits t.ew iw))) s
/-- `vstk` (R124). -/
def execVstk (kd : KReg) (rs1 : Reg) (s : State) : Host.Outcome State Fault Refusal :=
  run (wordVMem 0 1 0 0 0 rs1 (kField kd) 0x29) (vstoreMask (wordVMem 0 1 0 0 0 rs1 (kField kd) 0x29) kd rs1) s
/-- `vstw` (R125). -/
def execVstw (v rs1 : Reg) (s : State) : Host.Outcome State Fault Refusal :=
  run (wordVMem 0 2 0 0 0 rs1 v 0x29) (vstoreWhole (wordVMem 0 2 0 0 0 rs1 v 0x29) v rs1) s

end Sys2Proof.Machine
end

