-- ==== Sys2Proof/Machine/VPerm.lean ====
section
/-! DEFINITION. Masks, compaction, conflicts, slides, gathers and element moves (R129 to R137). -/

namespace Sys2Proof.Machine

/-- A mask logic instruction (R129). -/
def maskLogic (w : IWord) (kd ka kb : KReg) (f : Bool → Bool → Bool) : State → Host.Outcome State Fault Refusal :=
  run w do
    vecChecks w clsAny (fun _ => []) fun _ => true
    let t ← getMe
    maskLoop [] 0 kd fun e => (f (t.kbit ka e) (t.kbit kb e), 0)

/-- The elements below `vl` whose bit of a mask register is 1, in ascending index. -/
def Slot.selected (t : Slot) (k : KReg) : List Nat := (List.range t.vl).filter (t.kbit k)

/-- An instruction that reads a mask into a scalar register (R130). -/
def maskCount (w : IWord) (rd : Reg) (f : Slot → Word) : State → Host.Outcome State Fault Refusal :=
  run w do
    vecChecks w clsAny (fun _ => []) fun _ => true
    let t ← getMe
    beginVec false
    setX rd (f t)
    closeVec false false [] (t.vl - t.vstart)
    pure .next

/-- Two groups of the configuration share no register. -/
def Slot.disjoint (t : Slot) (a b : Reg) : Bool :=
  !(t.opRegs (t.opw a)).any fun n => (t.opRegs (t.opw b)).contains n

/-- The requirements of `vcompress` and `vexpand` (R131). -/
def Slot.packOk (t : Slot) (k : KReg) (vd vs1 : Reg) : Bool := k != 0 && t.fresh && t.disjoint vd vs1

/-- An instruction that moves elements of vs1: `src t e` names the element that destination element `e` takes, or none
for 0; `from'` is the first element that may be written (R135, R136). Where it stopped at an element of its stream, the
elements below that took what lay beyond are still to be written when it resumes (R320; assumption 49). -/
def vmove (w : IWord) (k : KReg) (vd vs1 : Reg) (os : Slot → List VOp) (ok : Slot → Bool) (from' : Slot → Nat)
    (src : Slot → Nat → Option Nat) : State → Host.Outcome State Fault Refusal :=
  run w do
    vecChecks w clsAny os ok
    let t ← getMe
    let fill := fillAll t (os t) t.vl (t.kbit k)
    let have' (e : Nat) : Bool := match src t e with | some i => t.reaches (t.opw vs1) fill i | none => true
    let left (e : Nat) : Bool := decide (t.vstart ≤ e) ||
      match src t e with | some i => (t.binding vs1.toNat).bound && decide (t.vstart ≤ i) | none => false
    loopWith fill (os t) vd t.ew
      { lo := t.firstLeft 0, d := t.vl, tail := t.vl, dmax := t.vlmax
        act := fun e => t.kbit k e && decide (from' t ≤ e) && have' e && left e
        zero := fun e => t.maskedToZero k e && decide (from' t ≤ e) && decide (t.vstart ≤ e)
        active := t.kbit k, top := t.vl } fun e =>
      ⟨match src t e with | some i => t.read (t.opw vs1) t.ew i | none => 0, 0⟩

/-- `kand` (R129). -/
def execKand (kd ka kb : KReg) (s : State) : Host.Outcome State Fault Refusal :=
  maskLogic (wordVM 0 0 0 (kField kb) (kField ka) (kField kd) 37) kd ka kb (fun a b => a && b) s
/-- `kor` (R129). -/
def execKor (kd ka kb : KReg) (s : State) : Host.Outcome State Fault Refusal :=
  maskLogic (wordVM 1 0 0 (kField kb) (kField ka) (kField kd) 37) kd ka kb (fun a b => a || b) s
/-- `kxor` (R129). -/
def execKxor (kd ka kb : KReg) (s : State) : Host.Outcome State Fault Refusal :=
  maskLogic (wordVM 2 0 0 (kField kb) (kField ka) (kField kd) 37) kd ka kb (fun a b => a != b) s
/-- `kandn` (R129). -/
def execKandn (kd ka kb : KReg) (s : State) : Host.Outcome State Fault Refusal :=
  maskLogic (wordVM 3 0 0 (kField kb) (kField ka) (kField kd) 37) kd ka kb (fun a b => a && !b) s
/-- `knot` (R129). -/
def execKnot (kd ka : KReg) (s : State) : Host.Outcome State Fault Refusal :=
  maskLogic (wordVM 4 0 0 0 (kField ka) (kField kd) 37) kd ka 0 (fun a _ => !a) s
/-- `kpop` (R130). -/
def execKpop (rd : Reg) (ka : KReg) (s : State) : Host.Outcome State Fault Refusal :=
  maskCount (wordVM 5 0 0 0 (kField ka) rd 37) rd (fun t => BitVec.ofNat 64 (t.selected ka).length) s
/-- `kfirst` (R130). -/
def execKfirst (rd : Reg) (ka : KReg) (s : State) : Host.Outcome State Fault Refusal :=
  maskCount (wordVM 6 0 0 0 (kField ka) rd 37) rd (fun t => match (t.selected ka).head? with | some e => BitVec.ofNat 64 e | none => BitVec.allOnes 64) s
/-- `vcompress` (R131): the selected elements are the active ones, and the tail begins after the elements written. -/
def execVcompress (k : KReg) (vd vs1 : Reg) (s : State) : Host.Outcome State Fault Refusal :=
  let w := (wordVM 7 0 k 0 vs1 vd 37)
  run w (do
    let os (t : Slot) := [t.opw vs1, t.dst vd]
    vecChecks w clsAny os fun t => t.packOk k vd vs1
    let t ← getMe
    let sel := t.selected k
    let below (e : Nat) := (sel.filter fun i => decide (i < e)).length
    loopWith (fillAll t (os t) t.vl (t.kbit k)) (os t) vd t.ew
      { lo := t.firstLeft (below t.vstart), d := sel.length, tail := sel.length, dmax := t.vlmax, upto := below
        act := fun _ => true, active := t.kbit k, top := t.vl } fun j => ⟨t.read (t.opw vs1) t.ew (sel.getD j 0), 0⟩) s
/-- `vexpand` (R132): an element below a stop takes one below it. -/
def execVexpand (k : KReg) (vd vs1 : Reg) (s : State) : Host.Outcome State Fault Refusal :=
  let w := (wordVM 8 0 k 0 vs1 vd 37)
  run w (do
    let os (t : Slot) := [t.opw vs1, t.dst vd]
    vecChecks w clsAny os fun t => t.packOk k vd vs1
    let t ← getMe
    loopWith (fillAll t (os t) t.vl (t.kbit k)) (os t) vd t.ew (t.plainLoop id k t.vl t.vlmax) fun e =>
      ⟨t.read (t.opw vs1) t.ew ((List.range e).filter (t.kbit k)).length, 0⟩) s
/-- `vprefpop` (R133). -/
def execVprefpop (k : KReg) (vd : Reg) (ka : KReg) (s : State) : Host.Outcome State Fault Refusal :=
  let w := (wordVM 9 0 k 0 (kField ka) vd 37)
  run w (do
    let os (t : Slot) := [t.dst vd]
    vecChecks w clsInt os fun _ => true
    let t ← getMe
    elementLoop (os t) k vd t.ew t.vl t.vlmax 1 fun e => ⟨((List.range e).filter (t.kbit ka)).length % 2 ^ t.ew, 0⟩) s
/-- `vconflict` (R134). -/
def execVconflict (k : KReg) (vd vs1 : Reg) (s : State) : Host.Outcome State Fault Refusal :=
  let w := (wordVM 10 0 k 0 vs1 vd 37)
  run w (do
    let os (t : Slot) := [t.opw vs1, t.dst vd]
    vecChecks w clsInt os fun t => decide (8 ≤ t.ew) && decide (t.vl < 2 ^ t.ew) && t.fresh && t.disjoint vd vs1
    let t ← getMe
    let v := t.read (t.opw vs1) t.ew
    elementLoop (os t) k vd t.ew t.vl t.vlmax 1 fun e =>
      ⟨match ((List.range e).filter fun j => t.kbit k j && v j == v e).getLast? with | some j => j | none => 2 ^ t.ew - 1, 0⟩) s
/-- `vslideup` (R135). -/
def execVslideup (k : KReg) (vd vs1 rs2 : Reg) (s : State) : Host.Outcome State Fault Refusal :=
  vmove (wordVM 11 0 k rs2 vs1 vd 37) k vd vs1 (fun t => [t.opw vs1, t.dst vd]) (fun t => t.disjoint vd vs1)
    (fun t => (t.readX rs2).toNat) (fun t e => some (e - (t.readX rs2).toNat)) s
/-- `vslidedown` (R135). -/
def execVslidedown (k : KReg) (vd vs1 rs2 : Reg) (s : State) : Host.Outcome State Fault Refusal :=
  vmove (wordVM 12 0 k rs2 vs1 vd 37) k vd vs1 (fun t => [t.opw vs1, t.dst vd]) (fun _ => true) (fun _ => 0)
    (fun t e => let i := e + (t.readX rs2).toNat; if i < t.vl then some i else none) s
/-- `vrgather` (R136). -/
def execVrgather (k : KReg) (vd vs1 vs2 : Reg) (s : State) : Host.Outcome State Fault Refusal :=
  vmove (wordVM 13 0 k vs2 vs1 vd 37) k vd vs1 (fun t => [t.opw vs1, t.opw vs2, t.dst vd])
    (fun t => t.disjoint vd vs1 && t.disjoint vd vs2) (fun _ => 0)
    (fun t e => let i := t.read (t.opw vs2) t.ew e; if i < t.vl then some i else none) s
/-- `vid` (R137). -/
def execVid (k : KReg) (vd : Reg) (s : State) : Host.Outcome State Fault Refusal :=
  let w := (wordVM 14 0 k 0 0 vd 37)
  run w (do
    let os (t : Slot) := [t.dst vd]
    vecChecks w clsInt os fun _ => true
    let t ← getMe
    elementLoop (os t) k vd t.ew t.vl t.vlmax 1 fun e => ⟨e % 2 ^ t.ew, 0⟩) s
/-- `vmvx` (R137): no other element is written, the tail included. -/
def execVmvx (d src : Reg) (s : State) : Host.Outcome State Fault Refusal :=
  let w := (wordVM 15 0 0 0 src d 37)
  run w (do
    let os (t : Slot) := [t.dst d]
    vecChecks w clsAny os fun _ => true
    let t ← getMe
    if 1 ≤ t.vl ∧ t.vstart = 0 then
      loopWith .ready (os t) d t.ew
        { lo := 0, d := 1, tail := 0, dmax := 0, act := fun _ => true, active := fun _ => true, top := 1 } fun _ => ⟨(t.readX src).toNat % 2 ^ t.ew, 0⟩
    else do
      beginVec false
      closeVec false false (os t) 0
      pure .next) s
/-- `vmvxs` (R137). -/
def execVmvxs (d src : Reg) (s : State) : Host.Outcome State Fault Refusal :=
  let w := (wordVM 16 0 0 0 src d 37)
  run w (do
    let os (t : Slot) := [t.opw src]
    vecChecks w clsAny os fun _ => true
    let t ← getMe
    let fill := fillAll t (os t) (max t.vl 1) fun _ => true
    if fill = .unfilled then waitFor .stream
    beginVec false
    match fill with
    | .stop e c a => stopVec false (os t) (e - t.vstart) e c a
    | _ => do
      setX d (BitVec.ofInt 64 (intOf (t.fmt == .int) t.ew (t.read (t.opw src) t.ew 0)))
      closeVec false false (os t) (t.vl - t.vstart)
      pure .next) s

end Sys2Proof.Machine
end

