-- ==== Sys2Proof/Machine/VRed.lean ====
section
/-! DEFINITION. Reductions, segmented scans and the top-k merge (R138 to R143). -/

namespace Sys2Proof.Machine

/-- A reduction (R138): `f` gives the values of the elements written, in order, with the flags, from the configuration,
the active elements of vs1 and vs2. A stop at an element of a stream writes nothing, since every result takes all of them
(assumption 49), and a reduction where `vl` is 0 writes nothing. -/
def reduce (w : IWord) (cls : Fmt → Nat → Bool) (ok : Slot → Bool) (k : KReg) (vd vs1 vs2 : Reg)
    (f : Slot → List Nat → (Nat → Nat) → List Nat × FFlags) : State → Host.Outcome State Fault Refusal :=
  run w do
    let os (t : Slot) := [t.opw vs1, t.opw vs2, t.dst vd]
    vecChecks w cls os fun t => t.fresh && ok t
    let t ← getMe
    if t.vl = 0 then do
      beginVec false
      closeVec false false (os t) 0
      pure .next
    else
      let r := f t ((t.selected k).map (t.read (t.opw vs1) t.ew)) (t.read (t.opw vs2) t.ew)
      loopWith (fillAll t (os t) t.vl (t.kbit k)) (os t) vd t.ew
        { lo := t.firstLeft 0, d := r.1.length, tail := r.1.length, dmax := t.vlmax, upto := fun _ => 0
          act := fun _ => true, active := t.kbit k, top := t.vl } fun e => ⟨r.1.getD e 0, r.2⟩

/-- An integer reduction: a fold from the start value (R139). -/
def reduceInt (f5 : Nat) (k : KReg) (vd vs1 vs2 : Reg) (f : Nat → Nat → Nat → Nat) : State → Host.Outcome State Fault Refusal :=
  reduce (wordVM f5 0 k vs2 vs1 vd 0x26) clsInt (fun _ => true) k vd vs1 vs2 fun t xs b => ([xs.foldl (f t.ew) (b 0)], 0)

/-- The minimum or maximum of values (R75, R140): the numbers fold; NaNs alone give the one of R74. -/
def foldMinMax (x : FFmt) (isMax : Bool) (vs : List FVal) : FRes :=
  let nv := flagIf (vs.any FVal.isSig) flagNV
  match vs.filter fun v => !v.isNan with
  | [] => x.pickNan vs false
  | a :: r => ⟨x.store (r.foldl (fun m v => if (if isMax then m.lt true v else v.lt true m) then v else m) a), nv⟩

/-- A minimum or maximum reduction: the active elements, then the start value. -/
def reduceMinMax (f5 : Nat) (k : KReg) (vd vs1 vs2 : Reg) (isMax : Bool) : State → Host.Outcome State Fault Refusal :=
  reduce (wordVM f5 0 k vs2 vs1 vd 0x26) clsFp (fun _ => true) k vd vs1 vs2 fun t xs b =>
    let x := fltOf t.fmt
    let r := foldMinMax x isMax ((xs ++ [b 0]).map (x.decode t.ftz))
    ([r.bits], r.flags)

/-- The active elements of the segment that element `e` ends (R142). -/
def Slot.segment (t : Slot) (k kh : KReg) (e : Nat) : List Nat :=
  let h := (((List.range (e + 1)).filter (t.kbit kh)).getLast?).getD 0
  (elemRange h (e + 1)).filter (t.kbit k)

/-- A segmented scan (R142): `f` gives an output from the values of its segment. -/
def segScan (f5 : Nat) (cls : Fmt → Nat → Bool) (k kh : KReg) (vd vs1 : Reg) (f : Slot → List Nat → FRes) :
    State → Host.Outcome State Fault Refusal :=
  let w := wordVM f5 0 k (kField kh) vs1 vd 0x26
  run w do
    let os (t : Slot) := [t.opw vs1, t.dst vd]
    vecChecks w cls os fun t => t.fresh
    let t ← getMe
    elementLoop (os t) k vd t.ew t.vl t.vlmax 1 fun e => f t ((t.segment k kh e).map (t.read (t.opw vs1) t.ew))

/-- The place of a key in the descending order of `vtopk` (R143): 0 for the greatest; the NaNs rank last. FTZ has no part
in it (assumption 67). -/
def topRank (f : Fmt) (key : Nat) : Nat :=
  match f with
  | .int => 2 ^ 32 - 1 - (key + 2 ^ 31) % 2 ^ 32
  | .uint => 2 ^ 32 - 1 - key
  | _ => if (fp32.decode false key).isNan then 2 ^ 32
    else if key < 2 ^ 31 then 2 ^ 31 - 1 - key else key

/-- The first `n` entries of list and candidates, keys and identifiers, in the order of R143. -/
def topMerge (f : Fmt) (n : Nat) (entries : List (Nat × Nat)) : List (Nat × Nat) :=
  (sortByKey (fun x => topRank f x.1 * 2 ^ 32 + x.2) entries).take n

/-- `vredsum` (R139). -/
def execVredsum (k : KReg) (vd vs1 vs2 : Reg) (s : State) : Host.Outcome State Fault Refusal :=
  reduceInt 0 k vd vs1 vs2 (fun w a b => (a + b) % 2 ^ w) s
/-- `vredmin` (R139). -/
def execVredmin (k : KReg) (vd vs1 vs2 : Reg) (s : State) : Host.Outcome State Fault Refusal :=
  reduceInt 1 k vd vs1 vs2 (fun w a b => if sv w b < sv w a then b else a) s
/-- `vredmax` (R139). -/
def execVredmax (k : KReg) (vd vs1 vs2 : Reg) (s : State) : Host.Outcome State Fault Refusal :=
  reduceInt 2 k vd vs1 vs2 (fun w a b => if sv w a < sv w b then b else a) s
/-- `vredminu` (R139). -/
def execVredminu (k : KReg) (vd vs1 vs2 : Reg) (s : State) : Host.Outcome State Fault Refusal :=
  reduceInt 3 k vd vs1 vs2 (fun _ a b => min a b) s
/-- `vredmaxu` (R139). -/
def execVredmaxu (k : KReg) (vd vs1 vs2 : Reg) (s : State) : Host.Outcome State Fault Refusal :=
  reduceInt 4 k vd vs1 vs2 (fun _ a b => max a b) s
/-- `vredand` (R139). -/
def execVredand (k : KReg) (vd vs1 vs2 : Reg) (s : State) : Host.Outcome State Fault Refusal :=
  reduceInt 5 k vd vs1 vs2 (fun _ a b => a &&& b) s
/-- `vredor` (R139). -/
def execVredor (k : KReg) (vd vs1 vs2 : Reg) (s : State) : Host.Outcome State Fault Refusal :=
  reduceInt 6 k vd vs1 vs2 (fun _ a b => a ||| b) s
/-- `vredxor` (R139). -/
def execVredxor (k : KReg) (vd vs1 vs2 : Reg) (s : State) : Host.Outcome State Fault Refusal :=
  reduceInt 7 k vd vs1 vs2 (fun _ a b => a ^^^ b) s
/-- `vfredsum` (R140). -/
def execVfredsum (k : KReg) (vd vs1 vs2 : Reg) (s : State) : Host.Outcome State Fault Refusal :=
  reduce (wordVM 8 0 k vs2 vs1 vd 38) clsFp (fun _ => true) k vd vs1 vs2 (fun t xs b =>
    let x := fltOf t.fmt
    let r := x.windowRound t.ftz ((xs ++ [b 0]).map fun v => termOf (x.decode t.ftz v))
    ([r.bits], r.flags)) s
/-- `vfredsum2` (R141). -/
def execVfredsum2 (k : KReg) (vd vs1 vs2 : Reg) (s : State) : Host.Outcome State Fault Refusal :=
  reduce (wordVM 9 0 k vs2 vs1 vd 38) clsFp (fun t => t.fmt == .fp32) k vd vs1 vs2 (fun t xs b =>
    let r := pairOf (windowOf ([termOf (fp32.decode false (b 0)), termOf (fp32.decode false (b 1))]
      ++ xs.map fun v => termOf (fp32.decode t.ftz v)))
    ([r.1, r.2.1], r.2.2)) s
/-- `vfredmin` (R140). -/
def execVfredmin (k : KReg) (vd vs1 vs2 : Reg) (s : State) : Host.Outcome State Fault Refusal :=
  reduceMinMax 10 k vd vs1 vs2 false s
/-- `vfredmax` (R140). -/
def execVfredmax (k : KReg) (vd vs1 vs2 : Reg) (s : State) : Host.Outcome State Fault Refusal :=
  reduceMinMax 11 k vd vs1 vs2 true s
/-- `vtopk` (R143). -/
def execVtopk (k : KReg) (vd vs1 vs2 : Reg) (s : State) : Host.Outcome State Fault Refusal :=
  let w := (wordVM 12 0 k vs2 vs1 vd 38)
  run w (do
    let vi : Reg := vd + 1
    let os (t : Slot) := [t.opw vs1, t.opw vs2, t.opw vd, t.dst vd, t.opw vi, t.dst vi]
    vecChecks w (fun f ew => ew == 32 && (f == .fp32 || f == .int || f == .uint)) os fun t =>
      t.group == 1 && vd.toNat % 2 == 0 && vs1 != vs2 && !([vd, vi].contains vs1) && !([vd, vi].contains vs2) && t.fresh
    let t ← getMe
    let fill := fillAll t (os t) t.vl (t.kbit k)
    if fill = .unfilled then waitFor .stream
    beginVec false
    match fill with
    | .stop e c a => stopVec false (os t) (t.activeCount k t.vstart e) e c a
    | _ => do
      let entries := ((List.range t.vl).map fun e => (t.elem vd.toNat 32 e, t.elem vi.toNat 32 e))
        ++ (t.selected k).map fun e => (t.read (t.opw vs1) 32 e, t.read (t.opw vs2) 32 e)
      let top := topMerge t.fmt t.vl entries
      let nv := t.fmt == .fp32 && entries.any fun x => (fp32.decode false x.1).isSig
      modMe fun t' =>
        let t' := (top.zip (List.range t.vl)).foldl (fun t' x =>
          (t'.setElem vd.toNat 32 x.2 x.1.1).setElem vi.toNat 32 x.2 x.1.2) t'
        let t' := if t.tailZero then (elemRange t.vl t.vlmax).foldl (fun t' e =>
          (t'.setElem vd.toNat 32 e 0).setElem vi.toNat 32 e 0) t' else t'
        t'.raise (flagIf nv flagNV)
      endVec false (os t) (t.activeCount k t.vstart t.vl)
      pure .next) s
/-- `vsegscan` (R142). -/
def execVsegscan (k : KReg) (vd vs1 : Reg) (kh : KReg) (s : State) : Host.Outcome State Fault Refusal :=
  segScan 13 clsInt k kh vd vs1 (fun t xs => ⟨xs.sum % 2 ^ t.ew, 0⟩) s
/-- `vfsegscan` (R142). -/
def execVfsegscan (k : KReg) (vd vs1 : Reg) (kh : KReg) (s : State) : Host.Outcome State Fault Refusal :=
  segScan 14 clsFp k kh vd vs1 (fun t xs =>
    let x := fltOf t.fmt
    x.windowRound t.ftz (xs.map fun v => termOf (x.decode t.ftz v))) s

end Sys2Proof.Machine
end

