-- ==== Sys2Proof/Machine/VStr.lean ====
section
/-! DEFINITION. Strings, hash aggregation, automata steps, and the vector side of KV chains (R144 to R148, R308, R309). -/

namespace Sys2Proof.Machine

/-- The bytes of a `w`-bit element, the first one lowest (R144). -/
def elemBytes (w v : Nat) : List Nat := (List.range (w / 8)).map fun i => v >>> (8 * i) % 256

/-- Upper-case letters folded to lower case (R144). -/
def foldByte (b : Nat) : Nat := if 0x41 ≤ b ∧ b ≤ 0x5A then b + 0x20 else b

/-- −1, 0 or +1: the comparison at the first byte that differs. -/
def compareBytes : List (Nat × Nat) → Int
  | [] => 0
  | (a, b) :: r => if a < b then -1 else if b < a then 1 else compareBytes r

/-- The format class of the string instructions (R144). -/
def clsString (f : Fmt) (w : Nat) : Bool := clsInt f w && decide (8 ≤ w)

/-- A string instruction that writes a register. -/
def vstring (f5 : Nat) (k : KReg) (vd vs1 vs2 : Reg) (f : Nat → List Nat → List Nat → Int) :
    State → Host.Outcome State Fault Refusal :=
  vec2 (wordVM f5 0 k vs2 vs1 vd 0x27) clsString .none k vd vs1 vs2 fun t _ a b =>
    ⟨encodeInt t.ew (f t.ew (elemBytes t.ew a) (elemBytes t.ew b)), 0⟩

/-! ## Hash aggregation (R146, R147) -/

/-- The class of the instructions on 64-bit integers. -/
def clsInt64 (f : Fmt) (w : Nat) : Bool := clsInt f w && w == 64

/-- The offset in the issuing core's scratchpad of `n` bytes that lie in it, by either of its windows (R215). -/
def ownOffset (s : State) (a : Word) (n : Nat) : Option Nat :=
  match localPlace s s.agent .atomic a.toNat with
  | some (.pad c o) =>
    if localBase ≤ a.toNat ∧ c = coreOf s.cur ∧ o + n ≤ 0x400000 then some o else none
  | _ => none

/-- A table as its descriptor gives it: the offset of slot 0 in the scratchpad, the operation, the probe limit, the
number of slots and the seed. -/
structure HashTable where
  base : Nat
  op : Nat
  probes : Nat
  slots : Nat
  seed : Word
  deriving DecidableEq, Repr

/-- The table that four quads describe, when they keep the map of R146. -/
def hashTableOf (s : State) (q0 q1 q2 q3 : Word) : Option HashTable :=
  let lg := Word.field q1 0 8
  let p := Word.field q1 8 8
  let op := Word.field q1 16 8
  if q3 = 0 ∧ Word.field q1 24 40 = 0 ∧ op ≤ 2 ∧ 1 ≤ p ∧ p ≤ 64 ∧ 1 ≤ lg ∧ lg ≤ 17 ∧ Word.field q0 0 6 = 0 then
    (ownOffset s q0 (16 * 2 ^ lg)).map fun o => { base := o, op := op, probes := p, slots := 2 ^ lg, seed := q2 }
  else none

/-- A quad of the issuing core's scratchpad. -/
def ownQuad (o : Nat) (va : Word) : M Nat := fun s => readLoc s.agent .core { place := .pad (coreOf s.cur) o } 8 va s
def putOwnQuad (o v : Nat) (va : Word) : M Unit := fun s => writeLoc s.agent .core { place := .pad (coreOf s.cur) o } 8 v va s

/-- The key that marks an empty slot. -/
def emptyKey : Nat := 2 ^ 64 - 1

/-- The value of a slot after an update, and its first value. -/
def HashTable.update (h : HashTable) (old v : Nat) : Nat :=
  if h.op = 0 then (old + v) % 2 ^ 64 else if h.op = 1 then (old + 1) % 2 ^ 64 else max old v
def HashTable.first (h : HashTable) (v : Nat) : Nat := if h.op = 1 then 1 else v

/-- One element: the slots of its probe sequence in turn; whether one of them took it. -/
def probeTable (h : HashTable) (d : Word) (key v : Nat) : List Nat → M Bool
  | [] => pure false
  | j :: r => do
    let o := h.base + 16 * (((qmix64 (BitVec.ofNat 64 key) h.seed).toNat + j) % h.slots)
    let k ← ownQuad o d
    if k = key then do
      let old ← ownQuad (o + 8) d
      putOwnQuad (o + 8) (h.update old v) d
      pure true
    else if k = emptyKey then do
      putOwnQuad o key d
      putOwnQuad (o + 8) (h.first v) d
      pure true
    else probeTable h d key v r

/-- The effect of `vhacc` once the table at the descriptor `d` is known. -/
def aggregate (h : HashTable) (d : Word) (k : KReg) (vs1 vs2 : Reg) (os : List VOp) : M Flow := do
  let t ← getMe
  let fill := fillState t os k 1
  if fill = .unfilled then waitFor .stream
  beginVec true
  let hi := match fill with | .stop e _ _ => min e t.vl | _ => t.vl
  let es := (elemRange t.vstart hi).filter fun e => t.kbit k e && t.read (t.opw vs1) 64 e != emptyKey
  let (done, stop) ← untilTrap es fun e => do
    let ok ← probeTable h d (t.read (t.opw vs1) 64 e) (t.read (t.opw vs2) 64 e) (List.range h.probes)
    check ok causeTable d
  match stop, fill with
  | some (e, c, a), _ => stopVec true os done.length e c a
  | none, .stop e c a => stopVec true os done.length e c a
  | none, _ => do
    closeVec false true os done.length
    pure .next

/-! ## KV positions and masses (R308, R309) -/

/-- The KV binding of a register. -/
def Slot.kvBinding (t : Slot) (vn : Reg) : Option (KvBinding × Ctx × Word) :=
  match t.binding vn.toNat with
  | .kv b x kvm => some (b, x, kvm)
  | _ => none

/-- A token of a binding's last pop. -/
def KvBinding.popped (b : KvBinding) (e : Nat) : Option Popped := b.lastPop[e]?.join

/-- Element `e` of `vkvpos` (R308). -/
def kvPosition (b : KvBinding) (ew e : Nat) : Nat :=
  if ew = 32 then match b.popped e with | some p => p.pos | none => 2 ^ 32 - 1
  else match b.popped (e / (b.hd / 32)) with
    | some p => if b.scaled then (p.scales.getD (e % (b.hd / 32)) 0).toNat else 0x7F
    | none => 0x7F

/-- `vbcmp` (R144). -/
def execVbcmp (k : KReg) (vd vs1 vs2 : Reg) (s : State) : Host.Outcome State Fault Refusal :=
  vstring 0 k vd vs1 vs2 (fun _ a b => compareBytes (a.zip b)) s
/-- `vbeq` (R144). -/
def execVbeq (k kd : KReg) (vs1 vs2 : Reg) (s : State) : Host.Outcome State Fault Refusal :=
  vecCmp (wordVM 1 0 k vs2 vs1 (kField kd) 39) clsString .none k kd vs1 vs2 (fun t a b =>
    ((elemBytes t.ew a).map foldByte == (elemBytes t.ew b).map foldByte, 0)) s
/-- `vbfind` (R144). -/
def execVbfind (k : KReg) (vd vs1 vs2 : Reg) (s : State) : Host.Outcome State Fault Refusal :=
  vstring 2 k vd vs1 vs2 (fun w a b => (((a.findIdx? (· == b.headD 0)).getD (w / 8) : Nat) : Int)) s
/-- `vqmix` (R145). -/
def execVqmix (rep : Rep) (k : KReg) (vd vs1 vs2 : Reg) (s : State) : Host.Outcome State Fault Refusal :=
  vec2 (wordV 3 rep k vs2 vs1 vd 39) clsInt64 rep k vd vs1 vs2 (fun _ _ a b =>
    ⟨(qmix64 (BitVec.ofNat 64 a) (BitVec.ofNat 64 b)).toNat, 0⟩) s
/-- `vhacc xT, vs1, vs2` (R146, R147); xT stands in the vd field. -/
def execVhacc (k : KReg) (vd vs1 vs2 : Reg) (s : State) : Host.Outcome State Fault Refusal :=
  let w := (wordVM 4 0 k vs2 vs1 vd 39)
  run w (do
    let os (t : Slot) := [t.opw vs1, t.opw vs2]
    vecChecks w clsInt64 os fun _ => true
    let d ← getX vd
    let s ← getS
    match (if d.toNat % 32 = 0 then ownOffset s d 32 else none) with
    | none => trap causeOperand d
    | some o => do
      let q ← collect [0, 1, 2, 3] fun i => ownQuad (o + 8 * i) d
      let w64 (i : Nat) : Word := BitVec.ofNat 64 (q.getD i 0)
      match hashTableOf s (w64 0) (w64 1) (w64 2) (w64 3) with
      | none => trap causeOperand d
      | some h => aggregate h d k vs1 vs2 (os s.me)) s
/-- `vnfa vd, vs1, xT` (R148); xT stands in the vs2 field. -/
def execVnfa (k : KReg) (vd vs1 vs2 : Reg) (s : State) : Host.Outcome State Fault Refusal :=
  let w := (wordVM 5 0 k vs2 vs1 vd 39)
  run w (do
    let os (t : Slot) := [t.opw vs1, t.opw vd, t.dst vd]
    vecChecks w clsInt64 os fun t => t.disjoint vd vs1 && (t.readX vs2).toNat % 64 == 0
    let t ← getMe
    let fill := fillState t (os t) k 1
    if fill = .unfilled then waitFor .stream
    let hi := match fill with | .stop e _ _ => min e t.vl | _ => t.vl
    let (steps, stop) ← untilTrap ((elemRange t.vstart hi).filter (t.kbit k)) fun e => do
      let v := t.read (t.opw vs1) 64 e
      let table := t.readX vs2 + BitVec.ofNat 64 (4096 * (v / 256 % 1024))
      let start ← loadN (← getS).vagent t.scope (table + 2048) 8
      let step ← loadN (← getS).vagent t.scope (table + BitVec.ofNat 64 (8 * (v % 256))) 8
      pure (e, (2 * t.elem vd.toNat 64 e % 2 ^ 64 ||| start) &&& step)
    let stop := match stop, fill with | none, .stop e c a => some (e, c, a) | x, _ => x
    beginVec true
    modMe fun t' =>
      let t' := steps.foldl (fun t' x => t'.setElem vd.toNat 64 x.1 x.2) t'
      let t' := (elemRange t.vstart (match stop with | some (e, _) => e | none => t.vl)).foldl (fun t' e =>
        if t.maskedToZero k e then t'.setElem vd.toNat 64 e 0 else t') t'
      if t.tailZero && stop.isNone then (elemRange t.vl t.vlmax).foldl (fun t' e => t'.setElem vd.toNat 64 e 0) t' else t'
    match stop with
    | some (e, c, a) => stopVec true (os t) steps.length e c a
    | none => do
      endVec true (os t) steps.length
      pure .next) s
/-- `vkvmass` (R309). -/
def execVkvmass (k : KReg) (vs1 vn : Reg) (s : State) : Host.Outcome State Fault Refusal :=
  let w := (wordVM 6 0 k vn vs1 0 39)
  run w (do
    guardVec w
    guardKv
    let os (t : Slot) := [t.opw vs1]
    let t ← getMe
    check (t.fmt == .fp32 && (t.kvBinding vn).isSome && t.opsOk (os t)) causeOperand (w.zeroExtend 64)
    match t.kvBinding vn with
    | none => pure .next
    | some (b, x, kvm) => do
      let fill := fillState t (os t) k 1
      if fill = .unfilled then waitFor .stream
      let hi := match fill with | .stop e _ _ => min e t.vl | _ => t.vl
      let es := (elemRange t.vstart hi).filter fun e => t.kbit k e && (b.popped e).isSome
      let (ps, stop) ← untilTrap es fun e => do
        let s ← getS
        let p := (b.popped e).getD { frame := 0, slot := 0, pos := 0, scales := [] }
        let va := kvRecord s kvm p.frame + BitVec.ofNat 64 (1088 + 4 * p.slot)
        planElem (s.vagent.atS x) .atomic .device false e [{ addr := va, n := 4, bits := 32 }]
      let cut := match stop, fill with
        | some (e, c, a), _ => some (e, c, a)
        | none, .stop e c a => some (e, c, a)
        | none, _ => none
      performAll false (os t) none 1 List.length ps cut fun y => forList y.parts fun p => do
        let s ← getS
        let _ ← rmwLoc (s.vagent.atS x) .device p.1 4 p.2.addr fun m =>
          some (fp32.add .rne false (fp32.decode false m) (fp32.decode false (t.read (t.opw vs1) 32 y.e))).bits) s
/-- `vkvpos` (R308). -/
def execVkvpos (k : KReg) (vd vn : Reg) (s : State) : Host.Outcome State Fault Refusal :=
  let w := (wordVM 7 0 k 0 vn vd 39)
  run w (do
    guardVec w
    guardKv
    let os (t : Slot) := [t.dst vd]
    let t ← getMe
    check (((t.ew == 32 && clsInt t.fmt 32) || (t.ew == 8 && t.fmt == .uint)) && (t.kvBinding vn).isSome && t.opsOk (os t))
      causeOperand (w.zeroExtend 64)
    elementLoop (os t) k vd t.ew t.vl t.vlmax 1 fun e =>
      ⟨match t.kvBinding vn with | some (b, _, _) => kvPosition b t.ew e | none => 0, 0⟩) s

end Sys2Proof.Machine
end

