-- ==== Sys2Proof/Machine/Dispatch.lean ====
section
/-! DEFINITION. The dispatch: each instruction to its meaning. -/

namespace Sys2Proof.Machine

def exec (i : Instr) (s : State) : Host.Outcome State Fault Refusal :=
  match i with
  | .add rd rs1 rs2 => Sys2Proof.Machine.execAdd rd rs1 rs2 s
  | .sub rd rs1 rs2 => Sys2Proof.Machine.execSub rd rs1 rs2 s
  | .and rd rs1 rs2 => Sys2Proof.Machine.execAnd rd rs1 rs2 s
  | .or rd rs1 rs2 => Sys2Proof.Machine.execOr rd rs1 rs2 s
  | .xor rd rs1 rs2 => Sys2Proof.Machine.execXor rd rs1 rs2 s
  | .andn rd rs1 rs2 => Sys2Proof.Machine.execAndn rd rs1 rs2 s
  | .sll rd rs1 rs2 => Sys2Proof.Machine.execSll rd rs1 rs2 s
  | .srl rd rs1 rs2 => Sys2Proof.Machine.execSrl rd rs1 rs2 s
  | .sra rd rs1 rs2 => Sys2Proof.Machine.execSra rd rs1 rs2 s
  | .mul rd rs1 rs2 => Sys2Proof.Machine.execMul rd rs1 rs2 s
  | .mulh rd rs1 rs2 => Sys2Proof.Machine.execMulh rd rs1 rs2 s
  | .mulhu rd rs1 rs2 => Sys2Proof.Machine.execMulhu rd rs1 rs2 s
  | .mulhsu rd rs1 rs2 => Sys2Proof.Machine.execMulhsu rd rs1 rs2 s
  | .div rd rs1 rs2 => Sys2Proof.Machine.execDiv rd rs1 rs2 s
  | .divu rd rs1 rs2 => Sys2Proof.Machine.execDivu rd rs1 rs2 s
  | .rem rd rs1 rs2 => Sys2Proof.Machine.execRem rd rs1 rs2 s
  | .remu rd rs1 rs2 => Sys2Proof.Machine.execRemu rd rs1 rs2 s
  | .min rd rs1 rs2 => Sys2Proof.Machine.execMin rd rs1 rs2 s
  | .max rd rs1 rs2 => Sys2Proof.Machine.execMax rd rs1 rs2 s
  | .minu rd rs1 rs2 => Sys2Proof.Machine.execMinu rd rs1 rs2 s
  | .maxu rd rs1 rs2 => Sys2Proof.Machine.execMaxu rd rs1 rs2 s
  | .clz rd rs1 => Sys2Proof.Machine.execClz rd rs1 s
  | .ctz rd rs1 => Sys2Proof.Machine.execCtz rd rs1 s
  | .pop rd rs1 => Sys2Proof.Machine.execPop rd rs1 s
  | .bswap rd rs1 => Sys2Proof.Machine.execBswap rd rs1 s
  | .sh1add rd rs1 rs2 => Sys2Proof.Machine.execSh1add rd rs1 rs2 s
  | .sh2add rd rs1 rs2 => Sys2Proof.Machine.execSh2add rd rs1 rs2 s
  | .sh3add rd rs1 rs2 => Sys2Proof.Machine.execSh3add rd rs1 rs2 s
  | .rotl rd rs1 rs2 => Sys2Proof.Machine.execRotl rd rs1 rs2 s
  | .rotr rd rs1 rs2 => Sys2Proof.Machine.execRotr rd rs1 rs2 s
  | .addi rd rs1 imm => Sys2Proof.Machine.execAddi rd rs1 imm s
  | .andi rd rs1 imm => Sys2Proof.Machine.execAndi rd rs1 imm s
  | .ori rd rs1 imm => Sys2Proof.Machine.execOri rd rs1 imm s
  | .xori rd rs1 imm => Sys2Proof.Machine.execXori rd rs1 imm s
  | .ldhi rd imm => Sys2Proof.Machine.execLdhi rd imm s
  | .pcadd rd imm => Sys2Proof.Machine.execPcadd rd imm s
  | .slli rd rs1 shamt => Sys2Proof.Machine.execSlli rd rs1 shamt s
  | .srli rd rs1 shamt => Sys2Proof.Machine.execSrli rd rs1 shamt s
  | .srai rd rs1 shamt => Sys2Proof.Machine.execSrai rd rs1 shamt s
  | .rotli rd rs1 shamt => Sys2Proof.Machine.execRotli rd rs1 shamt s
  | .ldB rd rs1 imm => Sys2Proof.Machine.execLdB rd rs1 imm s
  | .ldH rd rs1 imm => Sys2Proof.Machine.execLdH rd rs1 imm s
  | .ldW rd rs1 imm => Sys2Proof.Machine.execLdW rd rs1 imm s
  | .ldD rd rs1 imm => Sys2Proof.Machine.execLdD rd rs1 imm s
  | .ldBu rd rs1 imm => Sys2Proof.Machine.execLdBu rd rs1 imm s
  | .ldHu rd rs1 imm => Sys2Proof.Machine.execLdHu rd rs1 imm s
  | .ldWu rd rs1 imm => Sys2Proof.Machine.execLdWu rd rs1 imm s
  | .stB rs1 data imm => Sys2Proof.Machine.execStB rs1 data imm s
  | .stH rs1 data imm => Sys2Proof.Machine.execStH rs1 data imm s
  | .stW rs1 data imm => Sys2Proof.Machine.execStW rs1 data imm s
  | .stD rs1 data imm => Sys2Proof.Machine.execStD rs1 data imm s
  | .bt n off => Sys2Proof.Machine.execBt n off s
  | .bf n off => Sys2Proof.Machine.execBf n off s
  | .bs off => Sys2Proof.Machine.execBs off s
  | .jal rd imm => Sys2Proof.Machine.execJal rd imm s
  | .jalr rd rs1 imm => Sys2Proof.Machine.execJalr rd rs1 imm s
  | .cmpeq n rs1 rs2 => Sys2Proof.Machine.execCmpeq n rs1 rs2 s
  | .cmpne n rs1 rs2 => Sys2Proof.Machine.execCmpne n rs1 rs2 s
  | .cmplt n rs1 rs2 => Sys2Proof.Machine.execCmplt n rs1 rs2 s
  | .cmpge n rs1 rs2 => Sys2Proof.Machine.execCmpge n rs1 rs2 s
  | .cmpltu n rs1 rs2 => Sys2Proof.Machine.execCmpltu n rs1 rs2 s
  | .cmpgeu n rs1 rs2 => Sys2Proof.Machine.execCmpgeu n rs1 rs2 s
  | .cand d a b => Sys2Proof.Machine.execCand d a b s
  | .cor d a b => Sys2Proof.Machine.execCor d a b s
  | .cxor d a b => Sys2Proof.Machine.execCxor d a b s
  | .candn d a b => Sys2Proof.Machine.execCandn d a b s
  | .cget rd a => Sys2Proof.Machine.execCget rd a s
  | .cmpeqi n rs1 imm => Sys2Proof.Machine.execCmpeqi n rs1 imm s
  | .cmpnei n rs1 imm => Sys2Proof.Machine.execCmpnei n rs1 imm s
  | .cmplti n rs1 imm => Sys2Proof.Machine.execCmplti n rs1 imm s
  | .cmpgei n rs1 imm => Sys2Proof.Machine.execCmpgei n rs1 imm s
  | .cmpltui n rs1 imm => Sys2Proof.Machine.execCmpltui n rs1 imm s
  | .cmpgeui n rs1 imm => Sys2Proof.Machine.execCmpgeui n rs1 imm s
  | .cmpgti n rs1 imm => Sys2Proof.Machine.execCmpgti n rs1 imm s
  | .cmplei n rs1 imm => Sys2Proof.Machine.execCmplei n rs1 imm s
  | .loop rs1 endOff => Sys2Proof.Machine.execLoop rs1 endOff s
  | .loopi count endOff => Sys2Proof.Machine.execLoopi count endOff s
  | .loopBackEdge => Sys2Proof.Machine.execLoopBackEdge s
  | .fadd p rm rd rs1 rs2 => Sys2Proof.Machine.execFadd p rm rd rs1 rs2 s
  | .fsub p rm rd rs1 rs2 => Sys2Proof.Machine.execFsub p rm rd rs1 rs2 s
  | .fmul p rm rd rs1 rs2 => Sys2Proof.Machine.execFmul p rm rd rs1 rs2 s
  | .fdiv p rm rd rs1 rs2 => Sys2Proof.Machine.execFdiv p rm rd rs1 rs2 s
  | .fsqrt p rm rd rs1 => Sys2Proof.Machine.execFsqrt p rm rd rs1 s
  | .fmin p rd rs1 rs2 => Sys2Proof.Machine.execFmin p rd rs1 rs2 s
  | .fmax p rd rs1 rs2 => Sys2Proof.Machine.execFmax p rd rs1 rs2 s
  | .fsgnj p rd rs1 rs2 => Sys2Proof.Machine.execFsgnj p rd rs1 rs2 s
  | .fsgnjn p rd rs1 rs2 => Sys2Proof.Machine.execFsgnjn p rd rs1 rs2 s
  | .fsgnjx p rd rs1 rs2 => Sys2Proof.Machine.execFsgnjx p rd rs1 rs2 s
  | .ftol p rm rd rs1 => Sys2Proof.Machine.execFtol p rm rd rs1 s
  | .ftolu p rm rd rs1 => Sys2Proof.Machine.execFtolu p rm rd rs1 s
  | .ftow p rm rd rs1 => Sys2Proof.Machine.execFtow p rm rd rs1 s
  | .ftowu p rm rd rs1 => Sys2Proof.Machine.execFtowu p rm rd rs1 s
  | .ltof p rm rd rs1 => Sys2Proof.Machine.execLtof p rm rd rs1 s
  | .lutof p rm rd rs1 => Sys2Proof.Machine.execLutof p rm rd rs1 s
  | .fprec p rm rd rs1 => Sys2Proof.Machine.execFprec p rm rd rs1 s
  | .fclass p rd rs1 => Sys2Proof.Machine.execFclass p rd rs1 s
  | .feq p n rs1 rs2 => Sys2Proof.Machine.execFeq p n rs1 rs2 s
  | .flt p n rs1 rs2 => Sys2Proof.Machine.execFlt p n rs1 rs2 s
  | .fle p n rs1 rs2 => Sys2Proof.Machine.execFle p n rs1 rs2 s
  | .fadd2 rd rs1 rs2 => Sys2Proof.Machine.execFadd2 rd rs1 rs2 s
  | .fmadd p rm rd rs1 rs2 rs3 => Sys2Proof.Machine.execFmadd p rm rd rs1 rs2 rs3 s
  | .fmsub p rm rd rs1 rs2 rs3 => Sys2Proof.Machine.execFmsub p rm rd rs1 rs2 rs3 s
  | .fnmadd p rm rd rs1 rs2 rs3 => Sys2Proof.Machine.execFnmadd p rm rd rs1 rs2 rs3 s
  | .fnmsub p rm rd rs1 rs2 rs3 => Sys2Proof.Machine.execFnmsub p rm rd rs1 rs2 rs3 s
  | .csrrw rd csr rs1 => Sys2Proof.Machine.execCsrrw rd csr rs1 s
  | .csrrs rd csr rs1 => Sys2Proof.Machine.execCsrrs rd csr rs1 s
  | .csrrc rd csr rs1 => Sys2Proof.Machine.execCsrrc rd csr rs1 s
  | .ecall => Sys2Proof.Machine.execEcall s
  | .ebreak => Sys2Proof.Machine.execEbreak s
  | .eret => Sys2Proof.Machine.execEret s
  | .ptflush rs1 rs2 => Sys2Proof.Machine.execPtflush rs1 rs2 s
  | .icflush => Sys2Proof.Machine.execIcflush s
  | .nopSys => Sys2Proof.Machine.execNopSys s
  | .amoswap sc o wd rd rs1 rs2 => Sys2Proof.Machine.execAmoswap sc o wd rd rs1 rs2 s
  | .amoadd sc o wd rd rs1 rs2 => Sys2Proof.Machine.execAmoadd sc o wd rd rs1 rs2 s
  | .amoand sc o wd rd rs1 rs2 => Sys2Proof.Machine.execAmoand sc o wd rd rs1 rs2 s
  | .amoor sc o wd rd rs1 rs2 => Sys2Proof.Machine.execAmoor sc o wd rd rs1 rs2 s
  | .amoxor sc o wd rd rs1 rs2 => Sys2Proof.Machine.execAmoxor sc o wd rd rs1 rs2 s
  | .amomin sc o wd rd rs1 rs2 => Sys2Proof.Machine.execAmomin sc o wd rd rs1 rs2 s
  | .amomax sc o wd rd rs1 rs2 => Sys2Proof.Machine.execAmomax sc o wd rd rs1 rs2 s
  | .amominu sc o wd rd rs1 rs2 => Sys2Proof.Machine.execAmominu sc o wd rd rs1 rs2 s
  | .amomaxu sc o wd rd rs1 rs2 => Sys2Proof.Machine.execAmomaxu sc o wd rd rs1 rs2 s
  | .amofadd sc o wd rd rs1 rs2 => Sys2Proof.Machine.execAmofadd sc o wd rd rs1 rs2 s
  | .amocas sc o wd rd rs1 rs2 => Sys2Proof.Machine.execAmocas sc o wd rd rs1 rs2 s
  | .amold sc o wd rd rs1 => Sys2Proof.Machine.execAmold sc o wd rd rs1 s
  | .amost sc o wd rs1 rs2 => Sys2Proof.Machine.execAmost sc o wd rs1 rs2 s
  | .amominp sc o rd rs1 rs2 => Sys2Proof.Machine.execAmominp sc o rd rs1 rs2 s
  | .wait ld st cp tt => Sys2Proof.Machine.execWait ld st cp tt s
  | .fence o sc uo => Sys2Proof.Machine.execFence o sc uo s
  | .qfence queues tt => Sys2Proof.Machine.execQfence queues tt s
  | .texit => Sys2Proof.Machine.execTexit s
  | .tspawn rs1 => Sys2Proof.Machine.execTspawn rs1 s
  | .tjoin rs1 rs2 => Sys2Proof.Machine.execTjoin rs1 rs2 s
  | .hwpub rs1 rs2 => Sys2Proof.Machine.execHwpub rs1 rs2 s
  | .gjoin off => Sys2Proof.Machine.execGjoin off s
  | .gdetach => Sys2Proof.Machine.execGdetach s
  | .lgrow rs1 => Sys2Proof.Machine.execLgrow rs1 s
  | .lshrink rs1 => Sys2Proof.Machine.execLshrink rs1 s
  | .valloc n => Sys2Proof.Machine.execValloc n s
  | .bar level => Sys2Proof.Machine.execBar level s
  | .arrive rs1 => Sys2Proof.Machine.execArrive rs1 s
  | .await rs1 rs2 => Sys2Proof.Machine.execAwait rs1 rs2 s
  | .darn rs1 => Sys2Proof.Machine.execDarn rs1 s
  | .peq n rs1 rs2 => Sys2Proof.Machine.execPeq n rs1 rs2 s
  | .fwdres rd rs1 => Sys2Proof.Machine.execFwdres rd rs1 s
  | .fwdmend rs1 => Sys2Proof.Machine.execFwdmend rs1 s
  | .fwdrel rs1 => Sys2Proof.Machine.execFwdrel rs1 s
  | .kvalloc rd => Sys2Proof.Machine.execKvalloc rd s
  | .kvapp vn rs1 rs2 => Sys2Proof.Machine.execKvapp vn rs1 rs2 s
  | .kvcommit rs1 rs2 => Sys2Proof.Machine.execKvcommit rs1 rs2 s
  | .sbindkvK n rs1 rs2 => Sys2Proof.Machine.execSbindkvK n rs1 rs2 s
  | .sbindkvV n rs1 rs2 => Sys2Proof.Machine.execSbindkvV n rs1 rs2 s
  | .mangle rs1 => Sys2Proof.Machine.execMangle rs1 s
  | .launder rs1 => Sys2Proof.Machine.execLaunder rs1 s
  | .setvl rd rs1 image => Sys2Proof.Machine.execSetvl rd rs1 image s
  | .setvlc rd rs1 image => Sys2Proof.Machine.execSetvlc rd rs1 image s
  | .vadd rep k vd vs1 vs2 => Sys2Proof.Machine.execVadd rep k vd vs1 vs2 s
  | .vsub rep k vd vs1 vs2 => Sys2Proof.Machine.execVsub rep k vd vs1 vs2 s
  | .vrsub rep k vd vs1 vs2 => Sys2Proof.Machine.execVrsub rep k vd vs1 vs2 s
  | .vmul rep k vd vs1 vs2 => Sys2Proof.Machine.execVmul rep k vd vs1 vs2 s
  | .vmulh rep k vd vs1 vs2 => Sys2Proof.Machine.execVmulh rep k vd vs1 vs2 s
  | .vmulhu rep k vd vs1 vs2 => Sys2Proof.Machine.execVmulhu rep k vd vs1 vs2 s
  | .vand rep k vd vs1 vs2 => Sys2Proof.Machine.execVand rep k vd vs1 vs2 s
  | .vor rep k vd vs1 vs2 => Sys2Proof.Machine.execVor rep k vd vs1 vs2 s
  | .vxor rep k vd vs1 vs2 => Sys2Proof.Machine.execVxor rep k vd vs1 vs2 s
  | .vsll rep k vd vs1 vs2 => Sys2Proof.Machine.execVsll rep k vd vs1 vs2 s
  | .vsrl rep k vd vs1 vs2 => Sys2Proof.Machine.execVsrl rep k vd vs1 vs2 s
  | .vsra rep k vd vs1 vs2 => Sys2Proof.Machine.execVsra rep k vd vs1 vs2 s
  | .vmin rep k vd vs1 vs2 => Sys2Proof.Machine.execVmin rep k vd vs1 vs2 s
  | .vmax rep k vd vs1 vs2 => Sys2Proof.Machine.execVmax rep k vd vs1 vs2 s
  | .vminu rep k vd vs1 vs2 => Sys2Proof.Machine.execVminu rep k vd vs1 vs2 s
  | .vmaxu rep k vd vs1 vs2 => Sys2Proof.Machine.execVmaxu rep k vd vs1 vs2 s
  | .vsadd rep k vd vs1 vs2 => Sys2Proof.Machine.execVsadd rep k vd vs1 vs2 s
  | .vsaddu rep k vd vs1 vs2 => Sys2Proof.Machine.execVsaddu rep k vd vs1 vs2 s
  | .vssub rep k vd vs1 vs2 => Sys2Proof.Machine.execVssub rep k vd vs1 vs2 s
  | .vssubu rep k vd vs1 vs2 => Sys2Proof.Machine.execVssubu rep k vd vs1 vs2 s
  | .vdiv rep k vd vs1 vs2 => Sys2Proof.Machine.execVdiv rep k vd vs1 vs2 s
  | .vdivu rep k vd vs1 vs2 => Sys2Proof.Machine.execVdivu rep k vd vs1 vs2 s
  | .vrem rep k vd vs1 vs2 => Sys2Proof.Machine.execVrem rep k vd vs1 vs2 s
  | .vremu rep k vd vs1 vs2 => Sys2Proof.Machine.execVremu rep k vd vs1 vs2 s
  | .vcmpeq rep k kd vs1 vs2 => Sys2Proof.Machine.execVcmpeq rep k kd vs1 vs2 s
  | .vcmpne rep k kd vs1 vs2 => Sys2Proof.Machine.execVcmpne rep k kd vs1 vs2 s
  | .vcmplt rep k kd vs1 vs2 => Sys2Proof.Machine.execVcmplt rep k kd vs1 vs2 s
  | .vcmpltu rep k kd vs1 vs2 => Sys2Proof.Machine.execVcmpltu rep k kd vs1 vs2 s
  | .vcmple rep k kd vs1 vs2 => Sys2Proof.Machine.execVcmple rep k kd vs1 vs2 s
  | .vcmpleu rep k kd vs1 vs2 => Sys2Proof.Machine.execVcmpleu rep k kd vs1 vs2 s
  | .vmerge rep k vd vs1 vs2 => Sys2Proof.Machine.execVmerge rep k vd vs1 vs2 s
  | .vmv rep k vd vs2 => Sys2Proof.Machine.execVmv rep k vd vs2 s
  | .vfadd rep k vd vs1 vs2 => Sys2Proof.Machine.execVfadd rep k vd vs1 vs2 s
  | .vfsub rep k vd vs1 vs2 => Sys2Proof.Machine.execVfsub rep k vd vs1 vs2 s
  | .vfmul rep k vd vs1 vs2 => Sys2Proof.Machine.execVfmul rep k vd vs1 vs2 s
  | .vfdiv rep k vd vs1 vs2 => Sys2Proof.Machine.execVfdiv rep k vd vs1 vs2 s
  | .vfmin rep k vd vs1 vs2 => Sys2Proof.Machine.execVfmin rep k vd vs1 vs2 s
  | .vfmax rep k vd vs1 vs2 => Sys2Proof.Machine.execVfmax rep k vd vs1 vs2 s
  | .vfsgnj rep k vd vs1 vs2 => Sys2Proof.Machine.execVfsgnj rep k vd vs1 vs2 s
  | .vfsgnjn rep k vd vs1 vs2 => Sys2Proof.Machine.execVfsgnjn rep k vd vs1 vs2 s
  | .vfsgnjx rep k vd vs1 vs2 => Sys2Proof.Machine.execVfsgnjx rep k vd vs1 vs2 s
  | .vfsqrt k vd vs1 => Sys2Proof.Machine.execVfsqrt k vd vs1 s
  | .vfrecip k vd vs1 => Sys2Proof.Machine.execVfrecip k vd vs1 s
  | .vfrsqrt k vd vs1 => Sys2Proof.Machine.execVfrsqrt k vd vs1 s
  | .vfexp2 k vd vs1 => Sys2Proof.Machine.execVfexp2 k vd vs1 s
  | .vflog2 k vd vs1 => Sys2Proof.Machine.execVflog2 k vd vs1 s
  | .vftanh k vd vs1 => Sys2Proof.Machine.execVftanh k vd vs1 s
  | .vfclass k vd vs1 => Sys2Proof.Machine.execVfclass k vd vs1 s
  | .vfcmpeq rep k kd vs1 vs2 => Sys2Proof.Machine.execVfcmpeq rep k kd vs1 vs2 s
  | .vfcmpne rep k kd vs1 vs2 => Sys2Proof.Machine.execVfcmpne rep k kd vs1 vs2 s
  | .vfcmplt rep k kd vs1 vs2 => Sys2Proof.Machine.execVfcmplt rep k kd vs1 vs2 s
  | .vfcmple rep k kd vs1 vs2 => Sys2Proof.Machine.execVfcmple rep k kd vs1 vs2 s
  | .vfcmpgt rep k kd vs1 vs2 => Sys2Proof.Machine.execVfcmpgt rep k kd vs1 vs2 s
  | .vfcmpge rep k kd vs1 vs2 => Sys2Proof.Machine.execVfcmpge rep k kd vs1 vs2 s
  | .vfmaxexp k vd vs1 rs2 => Sys2Proof.Machine.execVfmaxexp k vd vs1 rs2 s
  | .vfmacc rep k vd vs1 vs2 => Sys2Proof.Machine.execVfmacc rep k vd vs1 vs2 s
  | .vfnmacc rep k vd vs1 vs2 => Sys2Proof.Machine.execVfnmacc rep k vd vs1 vs2 s
  | .vfmsac rep k vd vs1 vs2 => Sys2Proof.Machine.execVfmsac rep k vd vs1 vs2 s
  | .vfnmsac rep k vd vs1 vs2 => Sys2Proof.Machine.execVfnmsac rep k vd vs1 vs2 s
  | .vfwmacc rep k vd vs1 vs2 => Sys2Proof.Machine.execVfwmacc rep k vd vs1 vs2 s
  | .vfdot4 rep k vd vs1 vs2 => Sys2Proof.Machine.execVfdot4 rep k vd vs1 vs2 s
  | .vl6mul rep k vd vs1 vs2 => Sys2Proof.Machine.execVl6mul rep k vd vs1 vs2 s
  | .vl6dot rep k vd vs1 vs2 => Sys2Proof.Machine.execVl6dot rep k vd vs1 vs2 s
  | .vmacc rep k vd vs1 vs2 => Sys2Proof.Machine.execVmacc rep k vd vs1 vs2 s
  | .vwmacc rep k vd vs1 vs2 => Sys2Proof.Machine.execVwmacc rep k vd vs1 vs2 s
  | .vcvt k vd vs1 src => Sys2Proof.Machine.execVcvt k vd vs1 src s
  | .vcvti k vd vs1 src => Sys2Proof.Machine.execVcvti k vd vs1 src s
  | .vcvtu k vd vs1 src => Sys2Proof.Machine.execVcvtu k vd vs1 src s
  | .vcvtsr k vd vs1 src => Sys2Proof.Machine.execVcvtsr k vd vs1 src s
  | .vquant k vd vs1 vs2 => Sys2Proof.Machine.execVquant k vd vs1 vs2 s
  | .vdequant k vd vs1 vs2 => Sys2Proof.Machine.execVdequant k vd vs1 vs2 s
  | .kand kd ka kb => Sys2Proof.Machine.execKand kd ka kb s
  | .kor kd ka kb => Sys2Proof.Machine.execKor kd ka kb s
  | .kxor kd ka kb => Sys2Proof.Machine.execKxor kd ka kb s
  | .kandn kd ka kb => Sys2Proof.Machine.execKandn kd ka kb s
  | .knot kd ka => Sys2Proof.Machine.execKnot kd ka s
  | .kpop rd ka => Sys2Proof.Machine.execKpop rd ka s
  | .kfirst rd ka => Sys2Proof.Machine.execKfirst rd ka s
  | .vcompress k vd vs1 => Sys2Proof.Machine.execVcompress k vd vs1 s
  | .vexpand k vd vs1 => Sys2Proof.Machine.execVexpand k vd vs1 s
  | .vprefpop k vd ka => Sys2Proof.Machine.execVprefpop k vd ka s
  | .vconflict k vd vs1 => Sys2Proof.Machine.execVconflict k vd vs1 s
  | .vslideup k vd vs1 rs2 => Sys2Proof.Machine.execVslideup k vd vs1 rs2 s
  | .vslidedown k vd vs1 rs2 => Sys2Proof.Machine.execVslidedown k vd vs1 rs2 s
  | .vrgather k vd vs1 vs2 => Sys2Proof.Machine.execVrgather k vd vs1 vs2 s
  | .vid k vd => Sys2Proof.Machine.execVid k vd s
  | .vmvx d src => Sys2Proof.Machine.execVmvx d src s
  | .vmvxs d src => Sys2Proof.Machine.execVmvxs d src s
  | .vredsum k vd vs1 vs2 => Sys2Proof.Machine.execVredsum k vd vs1 vs2 s
  | .vredmin k vd vs1 vs2 => Sys2Proof.Machine.execVredmin k vd vs1 vs2 s
  | .vredmax k vd vs1 vs2 => Sys2Proof.Machine.execVredmax k vd vs1 vs2 s
  | .vredminu k vd vs1 vs2 => Sys2Proof.Machine.execVredminu k vd vs1 vs2 s
  | .vredmaxu k vd vs1 vs2 => Sys2Proof.Machine.execVredmaxu k vd vs1 vs2 s
  | .vredand k vd vs1 vs2 => Sys2Proof.Machine.execVredand k vd vs1 vs2 s
  | .vredor k vd vs1 vs2 => Sys2Proof.Machine.execVredor k vd vs1 vs2 s
  | .vredxor k vd vs1 vs2 => Sys2Proof.Machine.execVredxor k vd vs1 vs2 s
  | .vfredsum k vd vs1 vs2 => Sys2Proof.Machine.execVfredsum k vd vs1 vs2 s
  | .vfredsum2 k vd vs1 vs2 => Sys2Proof.Machine.execVfredsum2 k vd vs1 vs2 s
  | .vfredmin k vd vs1 vs2 => Sys2Proof.Machine.execVfredmin k vd vs1 vs2 s
  | .vfredmax k vd vs1 vs2 => Sys2Proof.Machine.execVfredmax k vd vs1 vs2 s
  | .vtopk k vd vs1 vs2 => Sys2Proof.Machine.execVtopk k vd vs1 vs2 s
  | .vsegscan k vd vs1 kh => Sys2Proof.Machine.execVsegscan k vd vs1 kh s
  | .vfsegscan k vd vs1 kh => Sys2Proof.Machine.execVfsegscan k vd vs1 kh s
  | .vbcmp k vd vs1 vs2 => Sys2Proof.Machine.execVbcmp k vd vs1 vs2 s
  | .vbeq k kd vs1 vs2 => Sys2Proof.Machine.execVbeq k kd vs1 vs2 s
  | .vbfind k vd vs1 vs2 => Sys2Proof.Machine.execVbfind k vd vs1 vs2 s
  | .vqmix rep k vd vs1 vs2 => Sys2Proof.Machine.execVqmix rep k vd vs1 vs2 s
  | .vhacc k vd vs1 vs2 => Sys2Proof.Machine.execVhacc k vd vs1 vs2 s
  | .vnfa k vd vs1 vs2 => Sys2Proof.Machine.execVnfa k vd vs1 vs2 s
  | .vkvmass k vs1 vn => Sys2Proof.Machine.execVkvmass k vs1 vn s
  | .vkvpos k vd vn => Sys2Proof.Machine.execVkvpos k vd vn s
  | .vld k v rs1 => Sys2Proof.Machine.execVld k v rs1 s
  | .vlds k v rs1 rs2 => Sys2Proof.Machine.execVlds k v rs1 rs2 s
  | .vldxo iw k v rs1 vs2 => Sys2Proof.Machine.execVldxo iw k v rs1 vs2 s
  | .vldx iw k v rs1 vs2 => Sys2Proof.Machine.execVldx iw k v rs1 vs2 s
  | .vldk kd rs1 => Sys2Proof.Machine.execVldk kd rs1 s
  | .vldw v rs1 => Sys2Proof.Machine.execVldw v rs1 s
  | .vst k v rs1 => Sys2Proof.Machine.execVst k v rs1 s
  | .vsts k v rs1 rs2 => Sys2Proof.Machine.execVsts k v rs1 rs2 s
  | .vstxo iw k v rs1 vs2 => Sys2Proof.Machine.execVstxo iw k v rs1 vs2 s
  | .vstx iw k v rs1 vs2 => Sys2Proof.Machine.execVstx iw k v rs1 vs2 s
  | .vstk kd rs1 => Sys2Proof.Machine.execVstk kd rs1 s
  | .vstw v rs1 => Sys2Proof.Machine.execVstw v rs1 s
  | .vamoadd mode k vs3 rs1 rs2 => Sys2Proof.Machine.execVamoadd mode k vs3 rs1 rs2 s
  | .vamoand mode k vs3 rs1 rs2 => Sys2Proof.Machine.execVamoand mode k vs3 rs1 rs2 s
  | .vamoor mode k vs3 rs1 rs2 => Sys2Proof.Machine.execVamoor mode k vs3 rs1 rs2 s
  | .vamoxor mode k vs3 rs1 rs2 => Sys2Proof.Machine.execVamoxor mode k vs3 rs1 rs2 s
  | .vamomin mode k vs3 rs1 rs2 => Sys2Proof.Machine.execVamomin mode k vs3 rs1 rs2 s
  | .vamomax mode k vs3 rs1 rs2 => Sys2Proof.Machine.execVamomax mode k vs3 rs1 rs2 s
  | .vamominu mode k vs3 rs1 rs2 => Sys2Proof.Machine.execVamominu mode k vs3 rs1 rs2 s
  | .vamomaxu mode k vs3 rs1 rs2 => Sys2Proof.Machine.execVamomaxu mode k vs3 rs1 rs2 s
  | .vamoswap mode k vs3 rs1 rs2 => Sys2Proof.Machine.execVamoswap mode k vs3 rs1 rs2 s
  | .vamofadd mode k vs3 rs1 rs2 => Sys2Proof.Machine.execVamofadd mode k vs3 rs1 rs2 s
  | .vfmadd vd vs1 vs2 vs3 => Sys2Proof.Machine.execVfmadd vd vs1 vs2 vs3 s
  | .vfmsub vd vs1 vs2 vs3 => Sys2Proof.Machine.execVfmsub vd vs1 vs2 vs3 s
  | .vfnmadd vd vs1 vs2 vs3 => Sys2Proof.Machine.execVfnmadd vd vs1 vs2 vs3 s
  | .vfnmsub vd vs1 vs2 vs3 => Sys2Proof.Machine.execVfnmsub vd vs1 vs2 vs3 s
  | .vbsel vd vs1 vs2 vs3 => Sys2Proof.Machine.execVbsel vd vs1 vs2 vs3 s
  | .vmadd vd vs1 vs2 vs3 => Sys2Proof.Machine.execVmadd vd vs1 vs2 vs3 s
  | .tcopy q rs1 => Sys2Proof.Machine.execTcopy q rs1 s
  | .copy1d q rd rs1 rs2 => Sys2Proof.Machine.execCopy1d q rd rs1 rs2 s
  | .sbind n rs1 => Sys2Proof.Machine.execSbind n rs1 s
  | .sunbind n => Sys2Proof.Machine.execSunbind n s
  | .tqtile rs1 => Sys2Proof.Machine.execTqtile rs1 s
  | .mstage rs1 => Sys2Proof.Machine.execMstage rs1 s
  | .mchain rs1 => Sys2Proof.Machine.execMchain rs1 s
  | .mdense rs1 => Sys2Proof.Machine.execMdense rs1 s
  | .mload rs1 => Sys2Proof.Machine.execMload rs1 s
  | .mstore rs1 => Sys2Proof.Machine.execMstore rs1 s
  | .mzero rs1 => Sys2Proof.Machine.execMzero rs1 s
  | .tmark rs1 imm => Sys2Proof.Machine.execTmark rs1 imm s
  | .vtypeWrite v => Sys2Proof.Machine.execVtypeWrite v s
  | .vlWrite v => Sys2Proof.Machine.execVlWrite v s
  | .vstartWrite v => Sys2Proof.Machine.execVstartWrite v s
  | .vallocWrite v => Sys2Proof.Machine.execVallocWrite v s
  | .vstateWrite v => Sys2Proof.Machine.execVstateWrite v s
  | .lpcntWrite n v => Sys2Proof.Machine.execLpcntWrite n v s
  | .lpidxWrite n v => Sys2Proof.Machine.execLpidxWrite n v s
  | .lpdepthWrite v => Sys2Proof.Machine.execLpdepthWrite v s
  | .lpbegWrite n v => Sys2Proof.Machine.execLpbegWrite n v s
  | .lpendWrite n v => Sys2Proof.Machine.execLpendWrite n v s
  | .gjtimeoutWrite v => Sys2Proof.Machine.execGjtimeoutWrite v s
  | .frmWrite v => Sys2Proof.Machine.execFrmWrite v s
  | .statusWrite v => Sys2Proof.Machine.execStatusWrite v s
  | .ptbaseWrite v => Sys2Proof.Machine.execPtbaseWrite v s
  | .asidWrite v => Sys2Proof.Machine.execAsidWrite v s
  | .heatbaseWrite v => Sys2Proof.Machine.execHeatbaseWrite v s
  | .kvmbaseWrite v => Sys2Proof.Machine.execKvmbaseWrite v s
  | .lanemapWrite v => Sys2Proof.Machine.execLanemapWrite v s
  | .sdescWrite n v => Sys2Proof.Machine.execSdescWrite n v s
  | .sposWrite n v => Sys2Proof.Machine.execSposWrite n v s
  | .skvWrite n v => Sys2Proof.Machine.execSkvWrite n v s
  | .pmreqWrite v => Sys2Proof.Machine.execPmreqWrite v s
  | .tleaveWrite v => Sys2Proof.Machine.execTleaveWrite v s
  | .xjoinWrite v => Sys2Proof.Machine.execXjoinWrite v s
  | .xdoneWrite v => Sys2Proof.Machine.execXdoneWrite v s
  | .ttresRead rd => Sys2Proof.Machine.execTtresRead rd s
  | .trctlWrite v => Sys2Proof.Machine.execTrctlWrite v s
  | .rpctlWrite v => Sys2Proof.Machine.execRpctlWrite v s
  | .startRecordAdmission p => Sys2Proof.Machine.execStartRecordAdmission p s
  | .ctsPick cl => Sys2Proof.Machine.execCtsPick cl s
  | .recordAging cl idx => Sys2Proof.Machine.execRecordAging cl idx s
  | .joinCounterReread cl idx => Sys2Proof.Machine.execJoinCounterReread cl idx s
  | .gjoinTimeout q => Sys2Proof.Machine.execGjoinTimeout q s
  | .gjoinRejoin cl stream => Sys2Proof.Machine.execGjoinRejoin cl stream s
  | .barrierRelease launch participant level => Sys2Proof.Machine.execBarrierRelease launch participant level s
  | .awaitPhaseChange q => Sys2Proof.Machine.execAwaitPhaseChange q s
  | .waitConditionMet q => Sys2Proof.Machine.execWaitConditionMet q s
  | .setvlcResume q => Sys2Proof.Machine.execSetvlcResume q s
  | .issueCapacityFreed q => Sys2Proof.Machine.execIssueCapacityFreed q s
  | .spillSpaceFreed q => Sys2Proof.Machine.execSpillSpaceFreed q s
  | .jobQueueRoom q => Sys2Proof.Machine.execJobQueueRoom q s
  | .streamFill q => Sys2Proof.Machine.execStreamFill q s
  | .preemptionTaken q => Sys2Proof.Machine.execPreemptionTaken q s
  | .copyOperationEnd c idx upto => Sys2Proof.Machine.execCopyOperationEnd c idx upto s
  | .tileTaskReady cl idx => Sys2Proof.Machine.execTileTaskReady cl idx s
  | .tileTaskStart cl idx => Sys2Proof.Machine.execTileTaskStart cl idx s
  | .tileTaskEnd cl idx upto => Sys2Proof.Machine.execTileTaskEnd cl idx upto s
  | .homeAgentAccess line => Sys2Proof.Machine.execHomeAgentAccess line s
  | .darnLineMove p => Sys2Proof.Machine.execDarnLineMove p s
  | .darnJobEnd p => Sys2Proof.Machine.execDarnJobEnd p s
  | .mangleRun p => Sys2Proof.Machine.execMangleRun p s
  | .mangleJobEnd p => Sys2Proof.Machine.execMangleJobEnd p s
  | .launderPass p => Sys2Proof.Machine.execLaunderPass p s
  | .l1Writeback c line => Sys2Proof.Machine.execL1Writeback c line s
  | .traceHeadPublish c => Sys2Proof.Machine.execTraceHeadPublish c s
  | .sampleCounterWrap q => Sys2Proof.Machine.execSampleCounterWrap q s
  | .replayDivergence cl => Sys2Proof.Machine.execReplayDivergence cl s
  | .watchdogExpiry p => Sys2Proof.Machine.execWatchdogExpiry p s
  | .uncorrectableStateError p => Sys2Proof.Machine.execUncorrectableStateError p s
  | .laneRetire c lane => Sys2Proof.Machine.execLaneRetire c lane s
  | .qpiWrite p queue v => Sys2Proof.Machine.execQpiWrite p queue v s
  | .partitionReset p => Sys2Proof.Machine.execPartitionReset p s
  | .functionLevelReset p => Sys2Proof.Machine.execFunctionLevelReset p s
  | .partitionResetDone p => Sys2Proof.Machine.execPartitionResetDone p s
  | .profileFlush p => Sys2Proof.Machine.execProfileFlush p s
  | .hpmreqWrite p v => Sys2Proof.Machine.execHpmreqWrite p v s
  | .flogWrite p v => Sys2Proof.Machine.execFlogWrite p v s
  | .profWrite p v => Sys2Proof.Machine.execProfWrite p v s
  | .spillWrite p v => Sys2Proof.Machine.execSpillWrite p v s
  | .passignWrite c v => Sys2Proof.Machine.execPassignWrite c v s
  | .coreOwnerChange c => Sys2Proof.Machine.execCoreOwnerChange c s
  | .dbgsessWrite v => Sys2Proof.Machine.execDbgsessWrite v s
  | .pwrlimWrite v => Sys2Proof.Machine.execPwrlimWrite v s
  | .extrelWrite v => Sys2Proof.Machine.execExtrelWrite v s
  | .extentReleaseDone => Sys2Proof.Machine.execExtentReleaseDone s
  | .extentOffer units shared => Sys2Proof.Machine.execExtentOffer units shared s
  | .bar0RegisterWrite p off dword v => Sys2Proof.Machine.execBar0RegisterWrite p off dword v s
  | .bar2HostRead p addr len => Sys2Proof.Machine.execBar2HostRead p addr len s
  | .bar2HostWrite p addr data => Sys2Proof.Machine.execBar2HostWrite p addr data s
  | .peerRequest p peer addr len data => Sys2Proof.Machine.execPeerRequest p peer addr len data s
  | .kolnarPortDown port => Sys2Proof.Machine.execKolnarPortDown port s
  | .atsInvalidation p addr => Sys2Proof.Machine.execAtsInvalidation p addr s
  | .priPageResponse q ok => Sys2Proof.Machine.execPriPageResponse q ok s
  | .pcieCompletionTimeout q => Sys2Proof.Machine.execPcieCompletionTimeout q s
  | .perstRelease => Sys2Proof.Machine.execPerstRelease s
  | .firmwareUpdateStage => Sys2Proof.Machine.execFirmwareUpdateStage s
  | .getVersion => Sys2Proof.Machine.execGetVersion s
  | .getCapabilities => Sys2Proof.Machine.execGetCapabilities s
  | .negotiateAlgorithms => Sys2Proof.Machine.execNegotiateAlgorithms s
  | .getDigests => Sys2Proof.Machine.execGetDigests s
  | .getCertificate => Sys2Proof.Machine.execGetCertificate s
  | .challenge => Sys2Proof.Machine.execChallenge s
  | .getMeasurements => Sys2Proof.Machine.execGetMeasurements s
  | .powerCheck => Sys2Proof.Machine.execPowerCheck s
  | .thermalThrottle => Sys2Proof.Machine.execThermalThrottle s
  | .thermalTrip => Sys2Proof.Machine.execThermalTrip s
  | .illegalInstruction w => Sys2Proof.Machine.execIllegalInstruction w s
  | .instructionFetchFault cause addr => Sys2Proof.Machine.execInstructionFetchFault cause addr s
  | .deviceReset => Sys2Proof.Machine.execDeviceReset s
  | .msixVectorUnmask p vec => Sys2Proof.Machine.execMsixVectorUnmask p vec s
  | .profileCycleCount p => Sys2Proof.Machine.execProfileCycleCount p s

end Sys2Proof.Machine
end

