-- ==== Sys2Proof/Machine/Fetch.lean ====
section
/-! DEFINITION. What comes before an instruction executes: whose move it is, what may be issued, and the fetch of the
instruction word (R50, R88, R149, R156 to R158, R324). -/

namespace Sys2Proof.Machine

/-- The moves that come from outside the instruction streams: engines, schedulers, the host, the controller. The other
rows without a word are parts of an instruction, and no turn makes them by themselves; the profile counts and the sampling
of cycles are parts of the passing of time (`passTime`). -/
def externalMove : Instr → Bool
  | .startRecordAdmission .. | .ctsPick .. | .recordAging .. | .joinCounterReread .. | .gjoinTimeout ..
  | .gjoinRejoin .. | .barrierRelease .. | .awaitPhaseChange .. | .waitConditionMet .. | .setvlcResume ..
  | .issueCapacityFreed .. | .spillSpaceFreed .. | .jobQueueRoom .. | .streamFill .. | .preemptionTaken ..
  | .copyOperationEnd .. | .tileTaskReady .. | .tileTaskStart .. | .tileTaskEnd .. | .homeAgentAccess ..
  | .darnLineMove .. | .darnJobEnd .. | .mangleRun .. | .mangleJobEnd .. | .launderPass .. | .l1Writeback ..
  | .traceHeadPublish .. | .replayDivergence .. | .watchdogExpiry ..
  | .uncorrectableStateError .. | .partitionReset .. | .functionLevelReset .. | .partitionResetDone ..
  | .profileFlush .. | .laneRetire .. | .qpiWrite .. | .hpmreqWrite .. | .flogWrite .. | .profWrite ..
  | .spillWrite .. | .passignWrite .. | .coreOwnerChange .. | .dbgsessWrite .. | .pwrlimWrite .. | .extrelWrite ..
  | .extentReleaseDone | .extentOffer .. | .bar0RegisterWrite .. | .bar2HostRead .. | .bar2HostWrite ..
  | .peerRequest .. | .kolnarPortDown .. | .atsInvalidation .. | .priPageResponse .. | .pcieCompletionTimeout ..
  | .perstRelease | .firmwareUpdateStage | .getVersion | .getCapabilities | .negotiateAlgorithms | .getDigests
  | .getCertificate | .challenge | .getMeasurements | .powerCheck | .thermalThrottle | .thermalTrip | .deviceReset
  | .msixVectorUnmask .. => true
  | _ => false

/-- The moves of the host through its functions and to the root of trust, which a device that is not ready does not
answer (R361). -/
def hostMove : Instr → Bool
  | .partitionReset .. | .functionLevelReset .. | .profileFlush .. | .qpiWrite .. | .hpmreqWrite .. | .flogWrite ..
  | .profWrite .. | .spillWrite .. | .passignWrite .. | .dbgsessWrite .. | .pwrlimWrite .. | .extrelWrite ..
  | .bar0RegisterWrite .. | .bar2HostRead .. | .bar2HostWrite .. | .msixVectorUnmask .. | .firmwareUpdateStage
  | .getVersion | .getCapabilities | .negotiateAlgorithms | .getDigests | .getCertificate | .challenge
  | .getMeasurements => true
  | _ => false

/-- A move that can be made from outside the instruction streams. -/
def moveAllowed (i : Instr) (s : State) : Bool := externalMove i && (!hostMove i || Word.field s.bstat 0 4 == 1)

/-- The instructions at which the CFE waits for the lead's next program counter (R158); that of a `gjoin` is its label
in every case. -/
def transfersControl : Instr → Bool
  | .bt .. | .bf .. | .bs .. | .jal .. | .jalr .. | .loop .. | .loopi .. | .eret => true
  | _ => false

/-- A gang's slowest attached member stands 32 instructions behind (R157). -/
def driftFull (s : State) (q : SeqId) : Bool :=
  match (s.slot q).gpos with
  | none => false
  | some p => (attachedIn s (clusterOf q) (slotFin q)).any fun m =>
      match (s.slot m).gpos with | some k => decide (k + 32 ≤ p) | none => false

/-- The stream's next program counter is not known yet, and this member is not the lead that decides it. -/
def aheadOfLead (s : State) (q : SeqId) : Bool :=
  match (s.slot q).gpos, s.gangOf q with
  | some p, some g => g.path.length ≤ p + 1 - g.base && leadOf s q != some q
  | _, _ => false

/-- The instruction at the program counter ends a loop body that is active (R92). -/
def endsBody (t : Slot) : Bool := (List.range t.lpdepth).any fun n => (t.level n).fin == t.pc

/-- The word at a physical address, as memory has it. -/
def wordAt (s : State) (pa : Nat) : IWord := BitVec.ofNat 32 (deviceQuad s (pa / 8 * 8) >>> (8 * (pa % 8)))

/-- The words of a line of memory, each with its address. -/
def lineWords (s : State) (line : Nat) : List (Nat × IWord) :=
  (List.range 16).map fun i => (64 * line + 4 * i, wordAt s (64 * line + 4 * i))

/-- A cache of instruction words with newer copies in place of its own. -/
def keepWords (ws l : List (Nat × IWord)) : List (Nat × IWord) := ws ++ l.filter fun e => !(ws.any fun x => x.1 == e.1)

/-- The instruction cache of a core, or of a cluster front end, takes a line of memory (R50). -/
def prefetchCore (c : CoreId) (line : Nat) (s : State) : State :=
  mapCore c (fun k => { k with icache := keepWords (lineWords s line) k.icache }) s
def prefetchStream (cl : ClusterId) (line : Nat) (s : State) : State :=
  mapCluster cl (fun k => { k with icache := keepWords (lineWords s line) k.icache }) s

/-- The cache through which the running sequencer fetches: that of its cluster's front end while it is attached to a
gang's stream, else its core's own (R156, R158). -/
def fetchCache (s : State) : List (Nat × IWord) :=
  if s.me.gpos.isSome then (s.cluster (clusterOf s.cur)).icache else (s.core (coreOf s.cur)).icache

def keepFetched (pa : Nat) (w : IWord) (s : State) : State :=
  if s.me.gpos.isSome then mapCluster (clusterOf s.cur) (fun k => { k with icache := keepWords [(pa, w)] k.icache }) s
  else mapCore (coreOf s.cur) (fun k => { k with icache := keepWords [(pa, w)] k.icache }) s

/-- The word that the front end has delivered at a position of the running sequencer's stream (R156). -/
def deliveredWord (s : State) : Option IWord :=
  match s.me.gpos, s.gangOf s.cur with
  | some p, some g => (g.path[p - g.base]?).bind fun e => e.2
  | _, _ => none

/-- The front end keeps the word for the other attached members (R156). -/
def deliver (w : IWord) (s : State) : State :=
  match s.me.gpos, s.gangOf s.cur with
  | some p, some g => s.setGang (clusterOf s.cur) (slotFin s.cur)
      (some { g with path := g.path.modify (p - g.base) fun e => (e.1, some w) })
  | _, _ => s

/-- The word at a physical address, for the running sequencer: the cached one, which may be older than memory's (R50,
R223; assumption 5), or memory's. -/
def cachedFetch (pa : Nat) (pc : Word) : M IWord := fun s0 =>
  let s := settleLine s0.agent pa 4 s0
  let old := (fetchCache s).find? fun e => e.1 == pa
  match old, s.free .cachedWord 0 % 2 with
  | some (_, w), 1 => .ok w s
  | _, _ => match homeRead s.agent.writer pa 4 pc s with
    | .ok bs s' => .ok (BitVec.ofNat 32 (natOfBytes bs)) (keepFetched pa (BitVec.ofNat 32 (natOfBytes bs)) s')
    | .error e s' => .error e s'

/-- Fetches the word at the program counter: an attached member takes what the front end has delivered (R156); otherwise
the word is fetched through a cache. -/
def fetchWord : M IWord := fun s =>
  match deliveredWord s with
  | some w => .ok w s
  | none => (do
    let pc := s.me.pc
    let l ← translate s.agent .fetch pc
    match l.place with
    | .pad _ _ => trap causeAccess pc
    | .phys pa => do
      let w ← cachedFetch pa pc
      modS (deliver w)
      pure w) s

/-- The instruction that a word stands for; a word that decodes to none is an illegal instruction (R34). -/
noncomputable def instrOf (w : IWord) : Instr :=
  match decode w with
  | .ok i => i
  | .error _ => .illegalInstruction w

/-- The page tables and the word that `State.withFetchWord` places: four levels from address 0, one page of code. -/
def placeWord (w : IWord) (m : List Host.Cell) : List Host.Cell :=
  let quad (m : List Host.Cell) (a v : Nat) := Memory.writeBytes m a (bytesOfNat 8 v)
  let m := quad m 0 (1 + 1 <<< 17)
  let m := quad m 0x8000 (1 + 2 <<< 17)
  let m := quad m 0x10000 (1 + 3 <<< 17)
  let m := quad m 0x18000 (1 + 2 + 16 + 32 + 64 + 4 <<< 17)
  Memory.writeBytes m 0x20000 (bytesOfNat 4 w.toNat)

/-- A thread of partition 0 at address 0 in slot 0 of core 0, whose next move it is. -/
def placeThread (s : State) : State :=
  let s := mapCore 0 (fun c => { c with owner := some 0, frozen := none }) s
  let s := mapSlot 0 (fun t => { t with
    busy := true, part := 0, pc := 0, waiting := none, gmember := false, gpos := none, pmPending := [], bad := []
    ptbase := 0, status := t.status &&& ~~~3#64 }) s
  { s with script := .seq 0 :: s.script, tripped := false, bstat := s.bstat &&& ~~~0xF#64, cached := []
           marks := [], bad := [], transit := [] }

/-- No cache holds the words placed, or the tables. -/
def dropCopies (s : State) : State :=
  mapCluster 0 (fun c => { c with icache := [], buffer := [] })
    (mapCore 0 (fun c => { c with icache := [], l1 := [], stq := Vector.replicate 4 [] }) s)

end Sys2Proof.Machine
end

