-- ==== Sys2Proof/Machine/RegErrors.lean ====
section
/-! DEFINITION. Uncorrectable errors in registers: which registers an instruction reads and writes, the trap of one that reads
a bad register, and how an error ends (R334, R335; assumption 75). -/

namespace Sys2Proof.Machine

/-- The registers that an instruction uses: those it reads, and those it writes. -/
structure RegUse where
  xr : List Reg := []
  xw : List Reg := []
  vr : Slot → List VOp := fun _ => []
  vw : Slot → List VOp := fun _ => []
  kr : List KReg := []
  kw : List KReg := []
  /-- The mask under which a vector destination is written. -/
  under : KReg := 0
  /-- A vector destination is written whole, whatever the configuration, or only in its first element. -/
  whole : Bool := false
  first : Bool := false
  cr : List Nat := []
  cw : List Nat := []

namespace RegUse

/-- The CSRs that every vector instruction of a configuration reads: `vl`, `vtype`, `vstart`. -/
def vcsrs : List Nat := [0x000, 0x001, 0x002]
/-- Numbers of `cond`, `frm`, `srseed`. -/
def condCsr : Nat := 0x007
def frmCsr : Nat := 0x021
def seedCsr : Nat := 0x022

/-- An instruction that reads scalar registers, and writes one. -/
def xs (d : Reg) (l : List Reg) : RegUse := { xr := l, xw := [d] }
/-- One that only reads. -/
def src (l : List Reg) : RegUse := { xr := l }
/-- A floating-point instruction. -/
def fp (u : RegUse) : RegUse := { u with cr := frmCsr :: u.cr }
/-- An instruction that reads condition bits. -/
def cb (u : RegUse) : RegUse := { u with cr := condCsr :: u.cr }
/-- A vector instruction under a mask, with its sources, its destinations and its mask destinations. -/
def vec (k : KReg) (rs ws : Slot → List VOp) (kw : List KReg := []) : RegUse :=
  { vr := rs, vw := ws, kr := [k], kw := kw, under := k, cr := vcsrs, cw := [0x002] }
/-- The usual form: two sources and a destination of the width of `vtype`. -/
def v2 (rep : Rep) (k : KReg) (d a b : Reg) : RegUse := vec k (fun t => [t.opw a, { t.opw b with rep := rep }]) fun t => [t.dst d]
/-- One source and a destination. -/
def v1 (k : KReg) (d a : Reg) : RegUse := vec k (fun t => [t.opw a]) fun t => [t.dst d]
/-- A comparison of two sources into a mask. -/
def vc (rep : Rep) (k kd : KReg) (a b : Reg) : RegUse := vec k (fun t => [t.opw a, { t.opw b with rep := rep }]) (fun _ => []) [kd]
/-- An accumulating form, whose destination of `q` quarters is read too. -/
def va (q : Slot → Nat) (rep : Rep) (k : KReg) (d a b : Reg) : RegUse :=
  vec k (fun t => [t.opw a, { t.opw b with rep := rep }, { r := d, quarters := q t }]) fun t => [{ r := d, quarters := q t, dest := true }]
/-- A reduction. -/
def red (k : KReg) (d a b : Reg) : RegUse := { v2 .none k d a b with first := true }
/-- Four operands without a mask. -/
def v3 (d a b c : Reg) : RegUse := vec 0 (fun t => [t.opw a, t.opw b, t.opw c]) fun t => [t.dst d]
/-- Masks into a mask. -/
def kk (d : KReg) (l : List KReg) : RegUse := { kr := l, kw := [d], cr := vcsrs, cw := [0x002] }

end RegUse

open RegUse in
/-- The registers that each instruction uses, as its rule names them. -/
def regUse : Instr → RegUse
  | .add d a b | .sub d a b | .and d a b | .or d a b | .xor d a b | .andn d a b | .sll d a b | .srl d a b | .sra d a b
  | .mul d a b | .mulh d a b | .mulhu d a b | .mulhsu d a b | .div d a b | .divu d a b | .rem d a b | .remu d a b
  | .min d a b | .max d a b | .minu d a b | .maxu d a b | .sh1add d a b | .sh2add d a b | .sh3add d a b | .rotl d a b
  | .rotr d a b => xs d [a, b]
  | .clz d a | .ctz d a | .pop d a | .bswap d a => xs d [a]
  | .addi d a _ | .andi d a _ | .ori d a _ | .xori d a _ | .slli d a _ | .srli d a _ | .srai d a _ | .rotli d a _ => xs d [a]
  | .ldhi d _ | .pcadd d _ | .jal d _ => xs d []
  | .ldB d a _ | .ldH d a _ | .ldW d a _ | .ldD d a _ | .ldBu d a _ | .ldHu d a _ | .ldWu d a _ | .jalr d a _ => xs d [a]
  | .stB a x _ | .stH a x _ | .stW a x _ | .stD a x _ => src [a, x]
  | .bt _ _ | .bf _ _ => cb {}
  | .cmpeq _ a b | .cmpne _ a b | .cmplt _ a b | .cmpge _ a b | .cmpltu _ a b | .cmpgeu _ a b => src [a, b]
  | .cmpeqi _ a _ | .cmpnei _ a _ | .cmplti _ a _ | .cmpgei _ a _ | .cmpltui _ a _ | .cmpgeui _ a _ | .cmpgti _ a _
  | .cmplei _ a _ => src [a]
  | .cand .. | .cor .. | .cxor .. | .candn .. => cb {}
  | .cget d _ => cb (xs d [])
  | .loop a _ => src [a]
  | .fadd _ _ d a b | .fsub _ _ d a b | .fmul _ _ d a b | .fdiv _ _ d a b => fp (xs d [a, b])
  | .fmin _ d a b | .fmax _ d a b | .fsgnj _ d a b | .fsgnjn _ d a b | .fsgnjx _ d a b | .fadd2 d a b => fp (xs d [a, b])
  | .fsqrt _ _ d a | .ftol _ _ d a | .ftolu _ _ d a | .ftow _ _ d a | .ftowu _ _ d a | .ltof _ _ d a | .lutof _ _ d a
  | .fprec _ _ d a => fp (xs d [a])
  | .fclass _ d a => fp (xs d [a])
  | .feq _ _ a b | .flt _ _ a b | .fle _ _ a b => fp (src [a, b])
  | .fmadd _ _ d a b c | .fmsub _ _ d a b c | .fnmadd _ _ d a b c | .fnmsub _ _ d a b c => fp (xs d [a, b, c])
  | .csrrw d n a | .csrrs d n a | .csrrc d n a => { xr := [a], xw := [d], cr := [n.toNat], cw := [n.toNat] }
  | .eret => { cr := [0x1000, 0x1001] }
  | .ptflush a b => src [a, b]
  | .amoswap _ _ _ d a b | .amoadd _ _ _ d a b | .amoand _ _ _ d a b | .amoor _ _ _ d a b | .amoxor _ _ _ d a b
  | .amomin _ _ _ d a b | .amomax _ _ _ d a b | .amominu _ _ _ d a b | .amomaxu _ _ _ d a b | .amofadd _ _ _ d a b
  | .amominp _ _ d a b => xs d [a, b]
  | .amocas _ _ _ d a b => xs d [d, a, b]
  | .amold _ _ _ d a => xs d [a]
  | .amost _ _ _ a b => src [a, b]
  | .texit => { cr := [0x1043, 0x1044] }
  | .tspawn a => src [a]
  | .tjoin a b => src [a, b]
  | .hwpub a b => { xr := [a, b], cr := [0x001] }
  | .gjoin _ => { cr := [0x034] }
  | .lgrow a | .lshrink a | .arrive a => src [a]
  | .valloc _ => { cw := [0x000, 0x002, 0x003] }
  | .await a b => src [a, b]
  | .darn a | .fwdmend a | .fwdrel a => src [a]
  | .peq _ a b => src [a, b]
  | .fwdres d a => xs d [a]
  | .kvalloc d => { xw := [d], cr := [0x1013] }
  | .kvapp n a b => { xr := [a, b], vr := fun t => [t.opw n, t.opw (n + 1)], cr := 0x1013 :: vcsrs, cw := [0x002] }
  | .kvcommit a b => { xr := [a, b], cr := [0x1013] }
  | .sbindkvK _ a b | .sbindkvV _ a b => { xr := [a, b], cr := [0x1013] }
  | .mangle a | .launder a => { xr := [a], cr := [0x1013] }
  | .setvl d a _ => { xr := [a], xw := [d], cr := [0x003, 0x005], cw := [0x000, 0x001, 0x002] }
  | .setvlc d a _ => { xr := [a], xw := [d], cr := [0x003, 0x005, 0x008], cw := [0x000, 0x001, 0x002, 0x008] }
  | .vadd p k d a b | .vsub p k d a b | .vrsub p k d a b | .vmul p k d a b | .vmulh p k d a b | .vmulhu p k d a b
  | .vand p k d a b | .vor p k d a b | .vxor p k d a b | .vsll p k d a b | .vsrl p k d a b | .vsra p k d a b
  | .vmin p k d a b | .vmax p k d a b | .vminu p k d a b | .vmaxu p k d a b | .vsadd p k d a b | .vsaddu p k d a b
  | .vssub p k d a b | .vssubu p k d a b | .vdiv p k d a b | .vdivu p k d a b | .vrem p k d a b | .vremu p k d a b
  | .vl6mul p k d a b | .vqmix p k d a b => v2 p k d a b
  -- its mask selects, and every element is written
  | .vmerge p k d a b => { v2 p k d a b with under := 0 }
  | .vcmpeq p k kd a b | .vcmpne p k kd a b | .vcmplt p k kd a b | .vcmpltu p k kd a b | .vcmple p k kd a b
  | .vcmpleu p k kd a b => vc p k kd a b
  | .vmv p k d b => vec k (fun t => [{ t.opw b with rep := p }]) fun t => [t.dst d]
  | .vfadd p k d a b | .vfsub p k d a b | .vfmul p k d a b | .vfdiv p k d a b | .vfmin p k d a b | .vfmax p k d a b
  | .vfsgnj p k d a b | .vfsgnjn p k d a b | .vfsgnjx p k d a b => fp (v2 p k d a b)
  | .vfsqrt k d a | .vfrecip k d a | .vfrsqrt k d a | .vfexp2 k d a | .vflog2 k d a | .vftanh k d a | .vfclass k d a =>
    fp (v1 k d a)
  | .vfcmpeq p k kd a b | .vfcmpne p k kd a b | .vfcmplt p k kd a b | .vfcmple p k kd a b | .vfcmpgt p k kd a b
  | .vfcmpge p k kd a b => fp (vc p k kd a b)
  | .vfmaxexp k d a _ => fp { vec k (fun t => [t.opw a]) (fun _ => [{ r := d, quarters := 32, dest := true }]) with first := true }
  | .vfmacc p k d a b | .vfnmacc p k d a b | .vfmsac p k d a b | .vfnmsac p k d a b => fp (va (fun t => 4 * t.ew) p k d a b)
  | .vfwmacc p k d a b => fp (va (fun _ => 128) p k d a b)
  | .vfdot4 p k d a b | .vl6dot p k d a b => fp (va (fun _ => 32) p k d a b)
  | .vmacc p k d a b => va (fun t => 4 * t.ew) p k d a b
  | .vwmacc p k d a b => va (fun t => 8 * t.ew) p k d a b
  | .vcvt k d a f => fp (vec k (fun _ => [{ r := a, quarters := 4 * fmtBits f.toFmt }]) fun t => [t.dst d])
  | .vcvti k d a i | .vcvtu k d a i => fp (vec k (fun _ => [{ r := a, quarters := 4 * i.bits }]) fun t => [t.dst d])
  | .vcvtsr k d a f =>
    let u := vec k (fun _ => [{ r := a, quarters := 4 * fmtBits f.toFmt }]) fun t => [t.dst d]
    { u with cr := frmCsr :: seedCsr :: u.cr }
  | .vquant k d a b => fp (vec k (fun _ => [{ r := a, quarters := 128 }, { r := b, quarters := 1 }]) fun t => [t.dst d])
  | .vdequant k d a b => fp (vec k (fun t => [t.opw a, { r := b, quarters := 1 }]) fun _ => [{ r := d, quarters := 128, dest := true }])
  | .kand d a b | .kor d a b | .kxor d a b | .kandn d a b => kk d [a, b]
  | .knot d a => kk d [a]
  | .kpop d a | .kfirst d a => { xw := [d], kr := [a], cr := vcsrs, cw := [0x002] }
  -- the mask selects, and every element is written
  | .vcompress k d a => { v1 k d a with under := 0 }
  | .vexpand k d a | .vconflict k d a => v1 k d a
  | .vprefpop k d a => { vec k (fun _ => []) (fun t => [t.dst d]) with kr := [k, a] }
  | .vslideup k d a b | .vslidedown k d a b => { v1 k d a with xr := [b] }
  | .vrgather k d a b => v2 .none k d a b
  | .vid k d => vec k (fun _ => []) fun t => [t.dst d]
  | .vmvx d a => { vec 0 (fun _ => []) (fun t => [t.dst d]) with xr := [a], first := true }
  | .vmvxs d a => { vec 0 (fun t => [t.opw a]) (fun _ => []) with xw := [d] }
  | .vredsum k d a b | .vredmin k d a b | .vredmax k d a b | .vredminu k d a b | .vredmaxu k d a b | .vredand k d a b
  | .vredor k d a b | .vredxor k d a b => red k d a b
  | .vfredsum k d a b | .vfredsum2 k d a b | .vfredmin k d a b | .vfredmax k d a b => fp (red k d a b)
  | .vtopk k d a b =>
    { vec k (fun t => [t.opw a, t.opw b, t.opw d, t.opw (d + 1)]) (fun t => [t.dst d, t.dst (d + 1)]) with first := true }
  | .vsegscan k d a h => { v1 k d a with kr := [k, h] }
  | .vfsegscan k d a h => fp { v1 k d a with kr := [k, h] }
  | .vbcmp k d a b | .vbfind k d a b => v2 .none k d a b
  | .vbeq k kd a b => vc .none k kd a b
  | .vhacc k d a b => { vec k (fun t => [t.opw a, t.opw b]) (fun _ => []) with xr := [d] }
  | .vnfa k d a b => { vec k (fun t => [t.opw a, t.opw d]) (fun t => [t.dst d]) with xr := [b] }
  | .vkvmass k a _ => vec k (fun t => [t.opw a]) fun _ => []
  | .vkvpos k d _ => vec k (fun _ => []) fun t => [t.dst d]
  | .vld k d a => { vec k (fun _ => []) (fun t => [t.dst d]) with xr := [a] }
  | .vlds k d a b => { vec k (fun _ => []) (fun t => [t.dst d]) with xr := [a, b] }
  | .vldxo w k d a b | .vldx w k d a b =>
    { vec k (fun t => [{ r := b, quarters := 4 * idxBits t.ew w }]) (fun t => [t.dst d]) with xr := [a] }
  | .vldk d a => { kk d [] with xr := [a] }
  | .vldw d a => { vec 0 (fun _ => []) (fun t => [{ r := d, quarters := 4 * t.ew / t.group, dest := true }]) with xr := [a], whole := true }
  | .vst k d a => { vec k (fun t => [t.opw d]) (fun _ => []) with xr := [a] }
  | .vsts k d a b => { vec k (fun t => [t.opw d]) (fun _ => []) with xr := [a, b] }
  | .vstxo w k d a b | .vstx w k d a b =>
    { vec k (fun t => [t.opw d, { r := b, quarters := 4 * idxBits t.ew w }]) (fun _ => []) with xr := [a] }
  | .vstk d a => { xr := [a], kr := [d], cr := vcsrs, cw := [0x002] }
  | .vstw d a => { vec 0 (fun t => [{ r := d, quarters := 4 * t.ew / t.group }]) (fun _ => []) with xr := [a] }
  | .vamoadd m k c a b | .vamoand m k c a b | .vamoor m k c a b | .vamoxor m k c a b | .vamomin m k c a b | .vamomax m k c a b
  | .vamominu m k c a b | .vamomaxu m k c a b | .vamoswap m k c a b | .vamofadd m k c a b =>
    match m with
    | .unit => { vec k (fun t => [t.opw c]) (fun _ => []) with xr := [a] }
    | .strided => { vec k (fun t => [t.opw c]) (fun _ => []) with xr := [a, b] }
    | .indexed => { vec k (fun t => [t.opw c, t.opw b]) (fun _ => []) with xr := [a] }
  | .vfmadd d a b c | .vfmsub d a b c | .vfnmadd d a b c | .vfnmsub d a b c => fp (v3 d a b c)
  | .vbsel d a b c | .vmadd d a b c => v3 d a b c
  | .tcopy _ a => src [a]
  | .copy1d _ d a b => { xr := [d, a, b], cr := [0x001] }
  | .sbind _ a => src [a]
  | .tqtile a | .mstage a | .mchain a | .mdense a | .mload a | .mstore a | .mzero a =>
    { xr := [a], cr := (List.range 4).map (0x040 + ·) ++ (List.range 16).map (0x050 + ·) }
  | .tmark a _ => src [a]
  | _ => {}

/-- The levels of the loop stack that the test for a back-edge at an address reads, from level `d - 1` outward (R92): it goes
on outward while a body that ends there is done. -/
def levelsTested (t : Slot) (e : Word) : Nat → List Nat
  | 0 => []
  | d + 1 => d :: (if (t.level d).fin = e ∧ (t.level d).cnt = 0 then levelsTested t e d else [])

/-- A register can be struck at all: x0 and k0 are constants. -/
def badRegExists : BadReg → Bool
  | .x r => r != 0
  | .k r => r != 0
  | .csr n => n.toNat < 0x2000 && (csrOf n.toNat).isSome
  | _ => true

/-- The numbers of the registers of vector operands that are not streams. -/
def vregsOf (t : Slot) (os : List VOp) : List Nat := (os.filter fun o => !(t.binding o.r.toNat).bound).flatMap t.opRegs

/-- An instruction reads a register. -/
def RegUse.reads (u : RegUse) (t : Slot) : BadReg → Bool
  | .x r => u.xr.any fun a => a.toFin == r
  | .v r => (vregsOf t (u.vr t)).contains r.val
  | .k r => u.kr.any fun a => a.toFin == r
  | .loop l => (levelsTested t t.pc t.lpdepth).contains l.val
  | .csr n => u.cr.contains n.toNat

/-- The elements that an instruction writes cover a destination: all are written, or zeroed. -/
def RegUse.covers (u : RegUse) (t : Slot) : Bool :=
  u.whole || (t.vstart == 0 && (u.under == 0 || t.maskZero) && (t.tailZero || (!u.first && t.vl == t.vlmax))
    && t.vceil == 0)

/-- An instruction writes a register in full when it retires. -/
def RegUse.fills (u : RegUse) (t : Slot) : BadReg → Bool
  | .x r => u.xw.any fun a => a.toFin == r
  | .v r => u.covers t && (vregsOf t (u.vw t)).contains r.val
  | .k r => t.vstart == 0 && (u.under == 0 || t.maskZero) && (t.tailZero || t.vl == t.vlmax) && u.kw.any fun a => a.toFin == r
  | .loop _ => false
  | .csr n => u.cw.contains n.toNat

/-- The loop stack entry that `loop` and `loopi` write in full. -/
def fillsLoop (i : Instr) (t : Slot) : BadReg → Bool
  | .loop l => (match i with | .loop .. | .loopi .. => true | _ => false) && l.val == t.lpdepth
  | _ => false

/-- An instruction that requires S (R35, step 2). -/
def needsS : Instr → Bool
  | .eret | .ptflush .. | .fwdres .. | .fwdmend .. | .fwdrel .. | .launder .. => true
  | _ => false

/-- The vector instructions of step 3 of R35, by major opcode and form. -/
def isVector (i : Instr) (w : IWord) : Bool :=
  (decide (0x20 ≤ (op w).toNat) && decide ((op w).toNat ≤ 0x2C)) || match i with
    | .kvapp .. | .sbindkvK .. | .sbindkvV .. => true
    | _ => false

/-- The vector instructions that need no valid `vtype` (R35, step 4). -/
def configures : Instr → Bool
  | .setvl .. | .setvlc .. | .valloc .. => true
  | _ => false

/-- Steps 1 to 4 of R35 let an instruction pass. -/
def passesChecks (i : Instr) (w : IWord) (t : Slot) : Bool :=
  (match i with
    | .illegalInstruction _ => false
    | .csrrw _ n _ | .csrrs _ n _ | .csrrc _ n _ =>
      match csrOf n.toNat with
      | none => false
      | some c => decide (n.toNat < 0x2000) && (decide (n.toNat < 0x1000) || t.sup) && (t.sup || t.vstate != 0 || !c.firstUse)
    | _ => true)
  && (!needsS i || t.sup) && (!isVector i w || (t.vstate != 0 && (configures i || !t.vill)))

/-- The instruction reads a register with an error, and traps by it: code 11, after steps 1 to 4 of R35 (R334). -/
def consumesBad (i : Instr) (w : IWord) (t : Slot) : Bool := passesChecks i w t && t.bad.any ((regUse i).reads t)

/-- The trap of an instruction that has consumed a bad register (R334). -/
def registerTrap (s : State) : State := takeTrap causeData (BitVec.allOnes 64) s.me.pc s

/-- The bad registers that an instruction writes in full are noted, to be good when it retires. -/
def noteOverwrites (i : Instr) : State → State :=
  mapMe fun t => { t with overwrites := t.bad.filter fun r => (regUse i).fills t r || fillsLoop i t r }

/-- A register of a sequencer loses its data beyond correction (R334). -/
def strikeRegister (q : SeqId) (r : BadReg) (s : State) : State :=
  if badRegExists r then mapSlot q (fun t => { t with bad := if t.bad.contains r then t.bad else t.bad ++ [r] }) s else s

/-- A slice loses the data of a vector register: it strikes the register of the thread that holds the lane, and the lane is
to be retired (R334, R335). -/
def strikeSlice (c : CoreId) (lane : Fin 64) (r : Fin 32) (s : State) : State :=
  let s := match (busySeqs s c).find? fun q => (s.slot q).lpart.getLsbD lane.val with
    | some q => strikeRegister q (.v r) s
    | none => s
  mapCore c (fun k => { k with laneErrors := lane.val :: k.laneErrors }) s

end Sys2Proof.Machine
end

