-- ==== Sys2Proof/Machine/Step.lean ====
section
/-! DEFINITION. One step of the machine: the next move is taken from the script, or is free, and is made whole. -/

namespace Sys2Proof.Machine

/-- The next move, and the state without it in the script (assumption 1). -/
def nextMove (s : State) : Turn × State :=
  match s.script with
  | t :: r => (t, { s with script := r })
  | [] => (Config.nextTurn s.ticks, s)

/-- Time passes, and the free values of the next step are others. -/
def tick (s : State) : State := passTime (s.free .elapsed 0) { s with ticks := s.ticks + 1 }

/-- An instruction of the running sequencer executes, unless it consumes a register with an error (R334). -/
noncomputable def execChecked (i : Instr) (w : IWord) (s : State) : Host.Outcome State Fault Refusal :=
  if s.me.bad = [] then exec i s
  else if consumesBad i w s.me then .next (registerTrap s)
  else exec i (noteOverwrites i s)

/-- The word at the program counter is fetched, decoded and executed. -/
noncomputable def issue (s : State) : Host.Outcome State Fault Refusal :=
  match fetchWord s with
  | .error (.trap c a) s' => exec (.instructionFetchFault c a) (dropTurns s'.cur s')
  | .error (.wait _) s' => .next s'
  | .error (.fatal p a) s' => .next (discardPart p 1 a s')
  | .ok w s'' =>
    let s' := dropTurns s''.cur s''
    let i := instrOf w
    if aheadOfLead s' s'.cur && (transfersControl i || endsBody s'.me) then .next s' else execChecked i w s'

/-- The move of a sequencer: an idle slot does nothing; a pre-emption that is due comes first (R326); a waiting
instruction tries again; otherwise the next instruction issues, but not in a cycle that a sample freezes (R344). -/
noncomputable def stepSeq (q : SeqId) (s0 : State) : Host.Outcome State Fault Refusal :=
  let s := { s0 with cur := q }
  if s.me.busy = false then .next s
  else if deviceStopped s then .fault .deviceStopped
  else if preemptDue s.me then exec (.preemptionTaken q) s
  else match s.me.waiting with
    | some h => exec (instrOf h.word) s
    | none => if driftFull s q || (s.core (coreOf q)).frozen == some s.cycle then .next s else issue s

/-- What an error or a cache does by itself, or the host's read of a register: moves that are no row of the table. -/
def otherTurn (t : Turn) (s : State) : State :=
  match t with
  | .seq _ | .event _ => s
  | .lineError l => { s with bad := markBad l s.bad }
  | .padError c l => mapCore c (fun k => { k with badPad := markBad l k.badPad }) s
  | .accError c e => mapCore c (fun k => { k with badAcc := if k.badAcc.contains e then k.badAcc else e :: k.badAcc }) s
  | .registerError q r => strikeRegister q r s
  | .sliceError c lane r => strikeSlice c lane r s
  | .correctedError c lane location => correctLane c lane location s
  | .l1Error c l =>
    let held := l1Line s c l
    if held.valid = 0 then s else setL1 c l { held with bad := some 0 } s
  | .storeDrain q => drainQueue q true s
  | .prefetch c l => prefetchCore c l s
  | .streamPrefetch cl l => prefetchStream cl l s
  | .registerRead p off len => hostRead p off len s

/-- One step. -/
noncomputable def step (s : State) : Host.Outcome State Fault Refusal :=
  let (t, s1) := nextMove s
  let s2 := tick s1
  match t with
  | .seq q => stepSeq q s2
  | .event i => if moveAllowed i s2 then exec i s2 else .next s2
  | t => .next (otherTurn t s2)

/-- A state whose next step fetches and runs the instruction `w` (assumption 25). -/
def State.withFetchWord (s : State) (_nbits w : Nat) : State :=
  let s := dropCopies (placeThread s)
  { s with mem := placeWord (BitVec.ofNat 32 w) s.mem }

end Sys2Proof.Machine
end

