-- ==== Sys2Proof/Safety.lean ====
section
/-! DEFINITION. What a safe run is, and the words that the claims use: how an instruction completes, and what it leaves
unchanged. -/

namespace Sys2Proof

open Sys2Proof.Machine

/-- The one fault of the model is raised by a device that does not issue; a step of a device that issues ends in a next
state. -/
def issues (s : State) : Prop := deviceStopped s = false

/-- Slot `b` is slot `a` but for what the retirement of an instruction changes in any case: the program counter, the
loop stack, the hold of a waiting instruction, the place in a gang's stream, the sampling counter, and which registers
hold errors (R334). Every register, flag, mask, lane, configuration and trap register is the same. -/
def keepsSlot (a b : Slot) : Prop :=
  b = { a with pc := b.pc, loops := b.loops, lpdepth := b.lpdepth, pmPoint := b.pmPoint, waiting := b.waiting
               gpos := b.gpos, smpctl := b.smpctl, smpcnt := b.smpcnt, bad := b.bad, overwrites := b.overwrites }

/-- The registers that still hold errors when the instruction at hand has retired: not those that it wrote in full (R334). -/
def errorsAfter (t : Slot) : List BadReg := t.bad.filter fun r => !t.overwrites.contains r

/-- State `t` is state `s` but for what a retirement changes in any case: the slots as above, the trace records that a
core has still to write with the ends of its vector instructions, the cycle that a sample freezes, the streams of gangs,
and the time of a partition's last progress. All of memory, the
scratchpads, accumulators, caches, queues and device registers are the same. A slot of another thread that does not
wait is the same altogether. -/
structure RetireFrame (s t : State) : Prop where
  slots : ∀ q, keepsSlot (s.slot q) (t.slot q)
  others : ∀ q, q ≠ s.cur → (s.slot q).waiting = none → t.slot q = s.slot q
  cores : ∀ c, t.core c = { s.core c with trace := (t.core c).trace, vecEnds := (t.core c).vecEnds
                                          frozen := (t.core c).frozen }
  clusters : ∀ c, t.cluster c = { s.cluster c with gangs := (t.cluster c).gangs }
  parts : ∀ p, t.part p = { s.part p with progress := (t.part p).progress }
  rest : t = { s with slots := t.slots, cores := t.cores, clusters := t.clusters, parts := t.parts }

/-- An instruction that has left `u` retires into `t` as one at the address `e` that transfers no control: it goes on
where the back-edges of R92 at `e` lead, and nothing waits. -/
structure RetiresAt (e : Word) (u t : State) : Prop where
  frame : RetireFrame u t
  pc : t.me.pc = (u.me.edge e).pc
  loops : t.me.loops = (u.me.edge e).loops
  depth : t.me.lpdepth = (u.me.edge e).lpdepth
  idle : t.me.waiting = none
  errors : t.me.bad = errorsAfter u.me

/-- As `RetiresAt`, at the instruction's own address. -/
abbrev RetiresTo (u t : State) : Prop := RetiresAt u.me.pc u t

/-- An instruction completes, and its whole effect, beside that of every retirement, is to change its slot by `f`. One that
has waited for a moving line gives up its place in the line's queue as well, and what stood behind it performs (R241:
`turnsOver`, which does nothing where the instruction has not waited). -/
def completes (i : Instr) (s : State) (f : Slot → Slot) : Prop :=
  ∃ t, exec i s = .next t ∧ RetiresTo (turnsOver s (mapMe f s)) t

/-- An instruction completes, and writes `v` to register `r` and nothing else; x0 takes no write (R15). -/
def writesX (i : Instr) (s : State) (r : Reg) (v : Word) : Prop := completes i s (·.writeX r v)

/-- An instruction completes, and writes `b` to condition bit `n` and nothing else; c0 takes no write (R16). -/
def writesC (i : Instr) (s : State) (n : CBit) (b : Bool) : Prop := completes i s (·.writeC n b)

/-- An instruction completes with the state `u` as its whole effect, beside that of every retirement. -/
def completesAs (i : Instr) (s u : State) : Prop := ∃ t, exec i s = .next t ∧ RetiresTo (turnsOver s u) t

/-- An instruction completes by transferring control to `a` after its slot has changed by `f`: no level of the loop
stack is tested, and levels whose body does not hold the target are popped where `pops` (R93). -/
def jumps (i : Instr) (s : State) (f : Slot → Slot) (a : Word) (pops : Bool) : Prop :=
  ∃ t, exec i s = .next t ∧ RetireFrame (turnsOver s (mapMe f s)) t ∧ t.me.pc = a ∧ t.me.loops = (f s.me).loops
    ∧ t.me.lpdepth = (if pops then popTo (f s.me).loops a (f s.me).lpdepth else (f s.me).lpdepth) ∧ t.me.waiting = none
    ∧ t.me.bad = errorsAfter (f s.me)

/-- An instruction takes a trap: of the slot nothing changes but what trap entry writes (R101, R318), and of the rest
nothing changes. -/
def traps (i : Instr) (s : State) (cause : Nat) (etval : Word) : Prop :=
  exec i s = .next (takeTrap cause etval s.me.pc (turnsOver s s))

/-- An instruction that has issued waits, and nothing else has changed (R173). -/
def holdsFor (i : Instr) (s : State) (k : HoldKind) : Prop :=
  ∃ t h, exec i s = .next t ∧ t = mapMe (fun m => { m with waiting := some h }) (if k = .transit then s else turnsOver s s)
    ∧ h.kind = k

/-! ## Rounding -/

/-- The number that an exact value is. -/
def dyValue (d : Dy) : ℚ := (if d.neg then -1 else 1) * d.m * 2 ^ d.e

/-- The number that an element of a format is, if it is finite. -/
def elementValue (f : FFmt) (b : Nat) : Option ℚ :=
  match f.decode false b with
  | .fin d => some (dyValue d)
  | _ => none

/-- The result `r` and its flags are those of rounding the exact value `x` to the format `f` in the mode `m` (R70 to R73, R76).
In the range of the finite elements it is `x` or one of its two neighbours, the one that the mode names; beyond the range it is
the greatest element of the sign of `x`, or an infinity. -/
def roundsRight (f : FFmt) (m : Rnd) (x : ℚ) (r : FRes) : Prop :=
  let finite (u : ℚ) : Prop := ∃ b, elementValue f b = some u
  let greatest : Prop := ∃ v, elementValue f r.bits = some v ∧ 0 < v * x ∧ ∀ u, finite u → |u| ≤ |v|
  let infinite : Prop := f.decode false r.bits = .inf (decide (x < 0))
  let top : ℚ := f.maxFinite.1 * 2 ^ f.maxFinite.2
  ((∃ u, finite u ∧ |x| ≤ |u|) → ∃ v, elementValue f r.bits = some v
    ∧ (∀ u, finite u → ¬ (min x v < u ∧ u < max x v))
    ∧ (match m with
      | .rne => ∀ u, finite u → |v - x| ≤ |u - x| ∧ (u ≠ v → |v - x| = |u - x| → r.bits % 2 = 0)
      | .rmm => ∀ u, finite u → |v - x| ≤ |u - x| ∧ (|v - x| = |u - x| → |u| ≤ |v|)
      | .rtz => |v| ≤ |x|
      | .rdn => v ≤ x
      | .rup => x ≤ v
      | .sr _ => True)
    ∧ r.flags = if v = x then 0 else if |v| < 2 ^ (1 - (f.bias : ℤ)) then flagUF ||| flagNX else flagNX)
  ∧ ((∀ u, finite u → |u| < |x|) →
    r.flags.getLsbD 0 = true
    ∧ (f.nan ≠ .ieee → greatest)
    ∧ (f.nan = .ieee → match m with
      | .rtz => greatest
      | .rdn => if 0 < x then greatest else infinite
      | .rup => if 0 < x then infinite else greatest
      | .sr _ => greatest ∨ infinite
      | _ => if |x| < top + 2 ^ (f.maxFinite.2 - 1) then greatest else infinite))

/-! ## Vector instructions -/

/-- Lane `l`, bit `j` of the register slices belongs to element `e` of the group at `r`, at the width `w` (R103). -/
def inElement (t : Slot) (r w e l j : Nat) : Prop :=
  e % t.laneCount = l ∧ r * t.slice + e / t.laneCount * w ≤ j ∧ j < r * t.slice + e / t.laneCount * w + w

/-- The slices of a slot hold the whole of element `e` of the group at `r`. -/
def holdsElement (t : Slot) (r w e : Nat) : Prop :=
  e % t.laneCount < 64 ∧ r * t.slice + e / t.laneCount * w + w ≤ 32768

/-- The elements of a vector instruction: those from `lo` on below `d` are computed where `act` holds and zeroed
where `zero` does; those from `tail` on below `dmax` are zeroed under `vtype.tail` (R24, R106). -/
structure Elements where
  act : Nat → Bool
  zero : Nat → Bool
  lo : Nat
  d : Nat
  tail : Nat
  dmax : Nat

/-- The element-wise instruction of R106 with `d` destination elements of at most `dmax`, under mask `k`. -/
def Elements.masked (t : Slot) (k : KReg) (d dmax : Nat) : Elements :=
  { act := t.kbit k, zero := t.maskedToZero k, lo := t.vstart, d := d, tail := d, dmax := dmax }

/-- The instruction computes element `e`. -/
def Elements.computes (x : Elements) (e : Nat) : Prop := x.lo ≤ e ∧ e < x.d ∧ x.act e = true
/-- The instruction zeroes element `e`. -/
def Elements.clears (x : Elements) (t : Slot) (e : Nat) : Prop :=
  (x.lo ≤ e ∧ e < x.d ∧ x.act e = false ∧ x.zero e = true) ∨ (t.tailZero = true ∧ x.tail ≤ e ∧ e < x.dmax)

/-- The flags of the elements computed. -/
def Elements.flags (x : Elements) (f : Nat → FRes) : FFlags :=
  ((elemRange x.lo x.d).filter x.act).foldl (fun g e => g ||| (f e).flags) 0

/-- The streams after an instruction with the operands `os` has gone through: those it read or wrote have moved on by
`vl` (R270, R271). -/
def streamsAfter (t : Slot) (os : List VOp) : Vector Binding 8 :=
  Vector.ofFn fun n : Fin 8 =>
    let b := t.binding (24 + n.val)
    if os.any fun o => o.r.toNat == 24 + n.val && b.bound then b.pop t.vl else b

/-- `vstate` after an instruction that writes no register and no mask has gone through, from `t`: vector state is dirty where
the instruction began with another `vstart` than 0 or moved a stream (log entry 61). -/
def vstateAfter (t : Slot) (os : List VOp) : BitVec 2 :=
  if (t.vstart = 0 ∨ t.vbegun.isSome = true) ∧ ∀ o ∈ os, (t.binding o.r.toNat).bound = false then t.vstate else 3

/-- The lanes `lanes` are those of slot `t` with the `w`-bit elements of the group at `vd` written that an instruction
computes, `f e` giving element `e`, and those zeroed that it clears. Not a bit of another element or register differs. -/
def writtenInto (t : Slot) (lanes : Vector (BitVec 32768) 64) (vd : Reg) (w : Nat) (x : Elements) (f : Nat → FRes) : Prop :=
  (∀ e, holdsElement t vd.toNat w e →
    (x.clears t e → { t with lanes := lanes }.elem vd.toNat w e = 0)
    ∧ (x.computes e → ¬ x.clears t e → { t with lanes := lanes }.elem vd.toNat w e = (f e).bits % 2 ^ w))
  ∧ (∀ (l : Fin 64) (j : Nat), (∀ e, x.computes e ∨ x.clears t e → ¬ inElement t vd.toNat w e l.val j) →
    lanes[l].getLsbD j = t.lanes[l].getLsbD j)

/-- A slot whose vector instruction has begun by step `n`: one that finds another `vstart` than 0 dirties vector state
(log entry 61). -/
def vectorBegun (n : Nat) (t : Slot) : Slot :=
  if t.vbegun.isSome then t
  else if t.vstart = 0 then { t with vbegun := some n } else { t with vbegun := some n }.dirtyVec

/-- What is left of a vector instruction's progress when it has gone through: none (log entry 49). -/
def vectorDone (t : Slot) : Slot :=
  { t with vstart := 0, vbegun := none, vstop := t.vstop.filter fun v => v.pc != t.pc }

/-- A vector instruction goes through and writes the `w`-bit elements of the group at `vd`: `f e` gives element `e`. The
flags of the elements computed are added, `vstart` becomes 0, vector state is dirty, the streams among the operands move
on; nothing else changes. -/
def vectorWrites (i : Instr) (s : State) (os : List VOp) (vd : Reg) (w : Nat) (x : Elements) (f : Nat → FRes) : Prop :=
  ∃ lanes : Vector (BitVec 32768) 64, writtenInto s.me lanes vd w x f
    ∧ completes i s fun t => { vectorDone t with lanes := lanes, fflags := t.fflags ||| x.flags f, vstate := 3
                                                 streams := streamsAfter s.me os }

/-- A vector instruction stops at an element whose fill met a fault (R270, R272, R320): the elements of `x` are written and
no tail, `vstart` holds the element, the read streams drop what they buffered from it on, and the trap is taken. -/
def vectorStops (i : Instr) (s : State) (os : List VOp) (vd : Reg) (w : Nat) (x : Elements) (f : Nat → FRes)
    (e cause : Nat) (addr : Word) : Prop :=
  ∃ (lanes : Vector (BitVec 32768) 64) (u : State), writtenInto s.me lanes vd w { x with tail := 0, dmax := 0 } f
    ∧ exec i s = .next (takeTrap cause addr s.me.pc (turnsOver s u))
    ∧ RetireFrame (mapMe (fun t => { t with lanes := lanes, fflags := t.fflags ||| x.flags f, vstart := e
                                            vstate := 3, streams := u.me.streams, vbegun := none, vstop := u.me.vstop }) s) u
    ∧ ∀ r, u.me.binding r = (if (s.me.streamsOf os).contains r then (s.me.binding r).dropFrom e else s.me.binding r)

/-- The stores of a vector instruction whose destination is a write stream: the elements computed, in order, each at the
stream's address for it (R271), with its flags. -/
def streamStores (os : List VOp) (n : Nat) (x : Elements) (f : Nat → FRes) (s : State) : EStateM.Result Stop State Unit :=
  forList (elemRange x.lo x.d) (fun e =>
    if x.act e then do
      let r := f e
      sinkPut os n e r.bits 0
      modMe (·.raise r.flags)
    else pure ()) s

/-- What a vector instruction does whose checks pass, when its read streams are filled as `fill` says (R270, R271): it
waits for an element that is not filled; it stops at a fault, having written the elements below `upto`; else it goes
through, writing a register, or storing to a write stream and changing no register. -/
def vectorGives (i : Instr) (s : State) (fill : Fill) (upto : Nat → Nat) (os : List VOp) (vd : Reg) (w : Nat) (x : Elements)
    (f : Nat → FRes) : Prop :=
  (fill = .unfilled → holdsFor i s .stream)
  ∧ (fill = .ready → s.me.sinkOf os = none → vectorWrites i s os vd w x f)
  ∧ (∀ e c a, fill = .stop e c a → s.me.sinkOf os = none →
      vectorStops i s os vd w { x with d := min (upto e) x.d } f e c a)
  ∧ (∀ n, fill = .ready → s.me.sinkOf os = some n → ∃ u, RetireFrame (mapMe (vectorBegun s.ticks) s) u ∧
      ∀ v, streamStores os n x f u = .ok () v →
        completesAs i s (mapMe (fun t => { vectorDone t with vstate := 3, streams := streamsAfter s.me os }) v))

/-- The heat of performed elements has been counted (R233). -/
def heated (k : HeatKind) (xs : List Planned) (s : State) : State :=
  xs.foldl (fun s x => match x.parts.head? with | some p => countHeat k p.1 s | none => s) s

/-- A vector instruction with the operands `os` stops at an element with the trap found there, and `z` as its effect but for
`vstart`, which is `place`, for vector state, which is dirty, and for what its read streams buffered from there on, which
is dropped (R122, R127, R272). -/
def stopsAt (i : Instr) (s : State) (os : List VOp) (z : State) (place cause : Nat) (addr : Word) : Prop :=
  ∃ y, exec i s = .next (takeTrap cause addr s.me.pc (turnsOver s y))
    ∧ RetireFrame (mapMe (fun t => { t with
        vstart := place, vbegun := none, vstate := 3, streams := y.me.streams
        vstop := if os = [] then t.vstop else y.me.vstop }) z) y
    ∧ ∀ r, y.me.binding r = (if (s.me.streamsOf os).contains r then (s.me.binding r).dropFrom place else s.me.binding r)

/-- What is left of a vector instruction with the operands `os` that writes no register and no mask, when it has gone
through. -/
def vectorPast (s : State) (os : List VOp) (t : Slot) : Slot :=
  { vectorDone t with vstate := vstateAfter s.me os, streams := streamsAfter s.me os }

/-- A vector store or atomic whose planning has left `u`: it makes the accesses of `order`, one after the other, each as
`put` says. Where planning has met no `stop` it goes through; else it stops there (R320). Element `e` stands for the
`vstart` of `scale` times `e`; no register changes, and heat is counted for the elements below the stop. -/
def performs (i : Instr) (s : State) (os : List VOp) (heat : Option HeatKind) (scale : Nat) (order : List Planned)
    (stop : Option (Nat × Nat × Word)) (u : State) (put : Planned → M Unit) : Prop :=
  let hot (xs : List Planned) (z : State) : State := match heat with | some k => heated k xs z | none => z
  ∃ u', RetireFrame (mapMe (vectorBegun u.ticks) u) u' ∧ ∀ z, forList order put u' = .ok () z →
    match stop with
    | none => completesAs i s (mapMe (vectorPast s os) (hot order z))
    | some (e, c, a) => stopsAt i s os (hot (order.filter fun x => decide (x.e < e)) z) (scale * e) c a

/-- The mask registers `masks` are those of slot `t` with the bits of `kd` written that an instruction computes and zeroed
that it clears; k0 takes no write (R26). -/
def maskedInto (t : Slot) (masks : Vector (BitVec 524288) 8) (kd : KReg) (x : Elements) (f : Nat → Bool × FFlags) : Prop :=
  ∀ (k : KReg) e, e < 524288 → { t with masks := masks }.kbit k e
    = if k = kd ∧ k ≠ 0 then
        (if x.lo ≤ e ∧ e < x.d ∧ x.act e = true then (f e).1
         else if x.lo ≤ e ∧ e < x.d ∧ x.zero e = true then false
         else if t.tailZero = true ∧ x.tail ≤ e ∧ e < x.dmax then false
         else t.kbit k e)
      else t.kbit k e

/-- What a vector instruction does that writes bits of the mask register `kd`: as `vectorGives`, `f e` giving bit `e` and
its flags. -/
def maskGives (i : Instr) (s : State) (fill : Fill) (os : List VOp) (kd : KReg) (x : Elements) (f : Nat → Bool × FFlags) : Prop :=
  let flags (x : Elements) := x.flags fun e => ⟨0, (f e).2⟩
  (fill = .unfilled → holdsFor i s .stream)
  ∧ (fill = .ready → ∃ masks, maskedInto s.me masks kd x f
      ∧ completes i s fun t => { vectorDone t with
          masks := masks, fflags := t.fflags ||| flags x, vstate := if kd = 0 then vstateAfter s.me os else 3
          streams := streamsAfter s.me os })
  ∧ (∀ e c a, fill = .stop e c a → ∃ masks u,
      let y := { x with d := min e x.d, tail := 0, dmax := 0 }
      maskedInto s.me masks kd y f ∧ exec i s = .next (takeTrap c a s.me.pc (turnsOver s u))
      ∧ RetireFrame (mapMe (fun t => { t with masks := masks, fflags := t.fflags ||| flags y, vstart := e
                                              vstate := 3, streams := u.me.streams, vbegun := none
                                              vstop := u.me.vstop }) s) u
      ∧ ∀ r, u.me.binding r = (if (s.me.streamsOf os).contains r then (s.me.binding r).dropFrom e else s.me.binding r))

/-- A vector instruction with the operands `os` is not stopped before its first element (R35): vector state is on,
`vtype` is valid, and the operands keep R25, R107 and R269. -/
def vectorReady (s : State) (os : List VOp) : Prop := s.me.vstate ≠ 0 ∧ s.me.vill = false ∧ s.me.opsOk os = true

/-- Steps 3 to 5 of R35 for a vector instruction with the operands `os`; `ok` says that the format class and the limits of its
own are kept. Each trap has the instruction's word as its value (R317), and comes before any effect. -/
def vectorTraps (i : Instr) (s : State) (ok : Bool) (os : List VOp) : Prop :=
  ∀ w, encode i = some w →
    (s.me.vstate = 0 → traps i s causeFirstUse (w.zeroExtend 64))
    ∧ (s.me.vstate ≠ 0 → s.me.vill = true → traps i s causeIllegal (w.zeroExtend 64))
    ∧ (s.me.vstate ≠ 0 → s.me.vill = false → (ok && s.me.opsOk os) = false → traps i s causeOperand (w.zeroExtend 64))

/-- The whole of a vector instruction that writes elements: its traps, and what it does when there is none. -/
def vectorDoes (i : Instr) (s : State) (ok : Bool) (fill : Fill) (upto : Nat → Nat) (os : List VOp) (vd : Reg) (w : Nat)
    (x : Elements) (f : Nat → FRes) : Prop :=
  vectorTraps i s ok os ∧ (vectorReady s os → ok = true → vectorGives i s fill upto os vd w x f)

/-- The whole of a vector instruction that writes bits of a mask register. -/
def maskDoes (i : Instr) (s : State) (ok : Bool) (fill : Fill) (os : List VOp) (kd : KReg) (x : Elements)
    (f : Nat → Bool × FFlags) : Prop :=
  vectorTraps i s ok os ∧ (vectorReady s os → ok = true → maskGives i s fill os kd x f)

/-- The instruction of R106 that writes elements of `w` bits, `ratio` source elements to each (R113). -/
def elementwise (i : Instr) (s : State) (ok : Bool) (os : List VOp) (k : KReg) (vd : Reg) (w d dmax ratio : Nat)
    (f : Nat → FRes) : Prop :=
  vectorDoes i s ok (fillState s.me os k ratio) id os vd w (.masked s.me k d dmax) f

/-- What the running sequencer reads with a scalar load of one byte at a place (R95); none where the load would trap or
wait. -/
def seen (s : State) (l : Loc) : Option Byte :=
  match readByte s.agent .sequencer l 0 s with
  | .ok b _ => some b
  | .error _ _ => none

/-- The byte of storage that a place names: of a scratchpad, or the physical byte that forwarding records lead to
(R240). -/
def storageOf (s : State) (l : Loc) : (CoreId × Nat) ⊕ Nat :=
  match l.place with
  | .pad c o => .inl (c, o)
  | .phys pa => .inr (((follow s 64 0 (pa / 64)).map fun e => 64 * e.1 + pa % 64).getD pa)

/-- Two places stand in lines of different addresses that forwarding records make one line (R240). -/
def aliased (s : State) (l m : Loc) : Prop :=
  match l.place, m.place with
  | .phys a, .phys b => a / 64 ≠ b / 64 ∧ sameLine s (a / 64) (b / 64) = true
  | _, _ => False

/-- The offset or the physical address of a place. -/
def placeAddress (l : Loc) : Nat :=
  match l.place with
  | .pad _ o => o
  | .phys pa => pa

/-- A place whose accesses of sequencer scope perform at the core itself: a scratchpad, or memory of the device or of the
host on a page that is not SO (R179, R228, R236). -/
def nearPlace (l : Loc) : Bool :=
  match l.place with
  | .pad _ _ => true
  | .phys pa => l.ord != 1 && (match regionOf pa with | .peer _ => false | _ => true)

/-- The accesses that a line holds are replayed at line `t` (R241): they join what `t` holds, and all of that performs in
arrival order, up to the first load or atomic, whose instruction has still to make it; that and what is behind it is held
on. Where `t` is in transit it holds them all. -/
def replayedAt (line t : Nat) (s : State) : State :=
  let moved := s.transit.map fun h => if h.addr / 64 = line then { h with addr := 64 * t + h.addr % 64 } else h
  let mine := moved.filter fun h => h.addr / 64 == t
  let others := moved.filter fun h => h.addr / 64 != t
  if markOf s t = some .transit then { s with transit := moved }
  else
    let u := (mine.takeWhile fun h => !h.isTurn).foldl (fun u h => performAct h.addr h.act u) { s with transit := others }
    { u with transit := others ++ mine.dropWhile fun h => !h.isTurn }

/-- Memory reads the same at every physical address. -/
def sameMemory (s t : State) : Prop := ∀ a, Memory.read t.mem a = Memory.read s.mem a

end Sys2Proof
end

