-- ==== Sys2Proof/Certificates/Slice0/Obligations.lean ====
section
/-! DEFINITION. The statements for the provers. -/

open Sys2Proof Sys2Proof.Machine

/-! ## The scalar registers and the scalar instructions -/

/-- R15 and R16: x0 reads 0 and c0 reads 1, and neither takes a write; every other register and bit holds what was last
written to it, and a write leaves the others, and everything else of the slot, as they were. -/
def Obligations.RegistersAndConditionBits : Prop :=
  (∀ (t : Slot) (r q : Reg) (v : Word),
    (t.writeX r v).readX q = (if q = 0 then 0 else if q = r then v else t.readX q)
    ∧ t.writeX r v = { t with x := (t.writeX r v).x })
  ∧ (∀ (t : Slot) (n m : CBit) (b : Bool),
    (t.writeC n b).readC m = (if m = 0 then true else if m = n then b else t.readC m)
    ∧ t.writeC n b = { t with cond := (t.writeC n b).cond })

/-- R82 and R83: what the thirty ALU instructions write, for every operand; each completes and writes nothing else. -/
def Obligations.AluResults : Prop :=
  ∀ (s : State) (rd rs1 rs2 : Reg),
    let a := s.me.readX rs1
    let b := s.me.readX rs2
    let n := b.toNat % 64
    writesX (.add rd rs1 rs2) s rd (a + b)
    ∧ writesX (.sub rd rs1 rs2) s rd (a - b)
    ∧ writesX (.and rd rs1 rs2) s rd (a &&& b)
    ∧ writesX (.or rd rs1 rs2) s rd (a ||| b)
    ∧ writesX (.xor rd rs1 rs2) s rd (a ^^^ b)
    ∧ writesX (.andn rd rs1 rs2) s rd (a &&& ~~~b)
    ∧ writesX (.sll rd rs1 rs2) s rd (a <<< n)
    ∧ writesX (.srl rd rs1 rs2) s rd (a >>> n)
    ∧ writesX (.sra rd rs1 rs2) s rd (a.sshiftRight n)
    ∧ writesX (.rotl rd rs1 rs2) s rd (a <<< n ||| a >>> (64 - n))
    ∧ writesX (.rotr rd rs1 rs2) s rd (a >>> n ||| a <<< (64 - n))
    ∧ writesX (.mul rd rs1 rs2) s rd ((a.zeroExtend 128 * b.zeroExtend 128).extractLsb' 0 64)
    ∧ writesX (.mulh rd rs1 rs2) s rd ((a.signExtend 128 * b.signExtend 128).extractLsb' 64 64)
    ∧ writesX (.mulhu rd rs1 rs2) s rd ((a.zeroExtend 128 * b.zeroExtend 128).extractLsb' 64 64)
    ∧ writesX (.mulhsu rd rs1 rs2) s rd ((a.signExtend 128 * b.zeroExtend 128).extractLsb' 64 64)
    ∧ writesX (.div rd rs1 rs2) s rd (if b = 0 then BitVec.allOnes 64 else a.sdiv b)
    ∧ writesX (.divu rd rs1 rs2) s rd (if b = 0 then BitVec.allOnes 64 else a / b)
    ∧ writesX (.rem rd rs1 rs2) s rd (if b = 0 then a else a - b * a.sdiv b)
    ∧ writesX (.remu rd rs1 rs2) s rd (if b = 0 then a else a - b * (a / b))
    ∧ writesX (.min rd rs1 rs2) s rd (if a.slt b then a else b)
    ∧ writesX (.max rd rs1 rs2) s rd (if a.slt b then b else a)
    ∧ writesX (.minu rd rs1 rs2) s rd (if a.ult b then a else b)
    ∧ writesX (.maxu rd rs1 rs2) s rd (if a.ult b then b else a)
    ∧ writesX (.clz rd rs1) s rd a.clz
    ∧ writesX (.ctz rd rs1) s rd a.ctz
    ∧ writesX (.pop rd rs1) s rd a.cpop
    ∧ writesX (.bswap rd rs1) s rd (a.extractLsb' 0 8 ++ a.extractLsb' 8 8 ++ a.extractLsb' 16 8 ++ a.extractLsb' 24 8
        ++ a.extractLsb' 32 8 ++ a.extractLsb' 40 8 ++ a.extractLsb' 48 8 ++ a.extractLsb' 56 8)
    ∧ writesX (.sh1add rd rs1 rs2) s rd (2 * a + b)
    ∧ writesX (.sh2add rd rs1 rs2) s rd (4 * a + b)
    ∧ writesX (.sh3add rd rs1 rs2) s rd (8 * a + b)

/-- R84 to R87: the immediate forms, `ldhi` and `pcadd`; the compares write the one bit named, the condition logic combines
bits, and `cget` reads one. -/
def Obligations.ImmediatesAndComparisons : Prop :=
  (∀ (s : State) (rd rs1 : Reg) (i : BitVec 16) (j : BitVec 21) (sh : BitVec 6),
    let a := s.me.readX rs1
    let n := sh.toNat
    writesX (.addi rd rs1 i) s rd (a + i.signExtend 64)
    ∧ writesX (.andi rd rs1 i) s rd (a &&& i.signExtend 64)
    ∧ writesX (.ori rd rs1 i) s rd (a ||| i.zeroExtend 64)
    ∧ writesX (.xori rd rs1 i) s rd (a ^^^ i.zeroExtend 64)
    ∧ writesX (.ldhi rd j) s rd ((j ++ 0#16).signExtend 64)
    ∧ writesX (.pcadd rd j) s rd (s.me.pc + (j ++ 0#16).signExtend 64)
    ∧ writesX (.slli rd rs1 sh) s rd (a <<< n)
    ∧ writesX (.srli rd rs1 sh) s rd (a >>> n)
    ∧ writesX (.srai rd rs1 sh) s rd (a.sshiftRight n)
    ∧ writesX (.rotli rd rs1 sh) s rd (a <<< n ||| a >>> (64 - n)))
  ∧ (∀ (s : State) (n c d : CBit) (rd rs1 rs2 : Reg) (i : BitVec 16),
    let a := s.me.readX rs1
    let b := s.me.readX rs2
    let si := i.signExtend 64
    let zi := i.zeroExtend 64
    let p := s.me.readC c
    let q := s.me.readC d
    writesC (.cmpeq n rs1 rs2) s n (a == b)
    ∧ writesC (.cmpne n rs1 rs2) s n (!(a == b))
    ∧ writesC (.cmplt n rs1 rs2) s n (a.slt b)
    ∧ writesC (.cmpge n rs1 rs2) s n (!a.slt b)
    ∧ writesC (.cmpltu n rs1 rs2) s n (a.ult b)
    ∧ writesC (.cmpgeu n rs1 rs2) s n (!a.ult b)
    ∧ writesC (.cmpeqi n rs1 i) s n (a == si)
    ∧ writesC (.cmpnei n rs1 i) s n (!(a == si))
    ∧ writesC (.cmplti n rs1 i) s n (a.slt si)
    ∧ writesC (.cmpgei n rs1 i) s n (!a.slt si)
    ∧ writesC (.cmpgti n rs1 i) s n (si.slt a)
    ∧ writesC (.cmplei n rs1 i) s n (!si.slt a)
    ∧ writesC (.cmpltui n rs1 i) s n (a.ult zi)
    ∧ writesC (.cmpgeui n rs1 i) s n (!a.ult zi)
    ∧ writesC (.cand n c d) s n (p && q)
    ∧ writesC (.cor n c d) s n (p || q)
    ∧ writesC (.cxor n c d) s n (p ^^ q)
    ∧ writesC (.candn n c d) s n (p && !q)
    ∧ writesX (.cget rd c) s rd (if p then 1 else 0))

/-- R96, R97, R98 (with R70 to R76): the scalar floating-point instructions. Operands are read at the precision, subnormals
as zeros under FTZ; the result of the one rounding is written zero-extended and its flags are added to `fflags`. And what a
rounding is, in every binary format and mode: an exact value that lies in the range of the format becomes the nearest element,
of two equally near the even one, or the neighbour that the mode names (R70, R72); beyond the range it becomes an infinity or
the greatest element (R70, R76); and the flags say whether it was exact, tiny or out of range (R73). -/
def Obligations.ScalarFloatingPoint : Prop :=
  (∀ f ∈ [fp64, fp32, fp16, bf16, e5m2, e4m3, e3m2, e2m3, e2m1], ∀ (m : Rnd) (d : Dy),
    (∀ n, m = .sr n → n < 2 ^ 32) → roundsRight f m (dyValue d) (f.round m false d.exact))
  ∧ ∀ (s : State) (p : Prec) (rm : RM) (rd rs1 rs2 rs3 : Reg) (n : CBit),
    let f := match p with | .s => fp32 | .d => fp64
    let m : Rnd := match rm with
      | .rne => .rne | .rtz => .rtz | .rdn => .rdn | .rup => .rup | .rmm => .rmm
      | .dyn => s.me.frmMode
    let z := s.me.frm.getLsbD 3
    let bits (r : Reg) : Nat := (s.me.readX r).toNat % 2 ^ f.width
    let a := f.decode z (bits rs1)
    let b := f.decode z (bits rs2)
    let c := f.decode z (bits rs3)
    let writes (i : Instr) (v : Word) (g : FFlags) : Prop :=
      completes i s fun t => { t.writeX rd v with fflags := t.fflags ||| g }
    let gives (i : Instr) (r : FRes) : Prop := writes i (BitVec.ofNat 64 r.bits) r.flags
    let tests (i : Instr) (r : Bool × FFlags) : Prop :=
      completes i s fun t => { t.writeC n r.1 with fflags := t.fflags ||| r.2 }
    let magnitude := bits rs1 % 2 ^ (f.width - 1)
    let signed (x : Bool) : Word :=
      BitVec.ofNat 64 ((if z && decide (magnitude < 2 ^ f.fw) then 0 else magnitude) + x.toNat * 2 ^ (f.width - 1))
    let toInt (sg : Bool) (w : Nat) := convert (.int sg w) m z a
    gives (.fadd p rm rd rs1 rs2) (f.add m z a b)
    ∧ gives (.fsub p rm rd rs1 rs2) (f.sub m z a b)
    ∧ gives (.fmul p rm rd rs1 rs2) (f.mul m z a b)
    ∧ gives (.fdiv p rm rd rs1 rs2) (f.div m z a b)
    ∧ gives (.fsqrt p rm rd rs1) (f.sqrt m z a)
    ∧ gives (.fmin p rd rs1 rs2) (f.minmax false a b)
    ∧ gives (.fmax p rd rs1 rs2) (f.minmax true a b)
    ∧ writes (.fsgnj p rd rs1 rs2) (signed ((bits rs2).testBit (f.width - 1))) 0
    ∧ writes (.fsgnjn p rd rs1 rs2) (signed (!(bits rs2).testBit (f.width - 1))) 0
    ∧ writes (.fsgnjx p rd rs1 rs2) (signed ((bits rs1).testBit (f.width - 1) ^^ (bits rs2).testBit (f.width - 1))) 0
    ∧ writes (.ftol p rm rd rs1) (BitVec.ofNat 64 (toInt true 64).bits) (toInt true 64).flags
    ∧ writes (.ftolu p rm rd rs1) (BitVec.ofNat 64 (toInt false 64).bits) (toInt false 64).flags
    ∧ writes (.ftow p rm rd rs1) ((BitVec.ofNat 32 (toInt true 32).bits).signExtend 64) (toInt true 32).flags
    ∧ writes (.ftowu p rm rd rs1) ((BitVec.ofNat 32 (toInt false 32).bits).zeroExtend 64) (toInt false 32).flags
    ∧ gives (.ltof p rm rd rs1) (convert (.flt f) m z (fvalOfInt (s.me.readX rs1).toInt))
    ∧ gives (.lutof p rm rd rs1) (convert (.flt f) m z (fvalOfInt (s.me.readX rs1).toNat))
    ∧ gives (.fprec .s rm rd rs1) (convert (.flt fp32) m z (fp64.decode z (s.me.readX rs1).toNat))
    ∧ gives (.fprec .d rm rd rs1) (convert (.flt fp64) m z (fp32.decode z ((s.me.readX rs1).toNat % 2 ^ 32)))
    ∧ writes (.fclass p rd rs1) (BitVec.ofNat 64 (f.classify z (bits rs1))) 0
    ∧ tests (.feq p n rs1 rs2) (fcompare .eq a b)
    ∧ tests (.flt p n rs1 rs2) (fcompare .lt a b)
    ∧ tests (.fle p n rs1 rs2) (fcompare .le a b)
    ∧ gives (.fmadd p rm rd rs1 rs2 rs3) (f.fma m z false false a b c)
    ∧ gives (.fmsub p rm rd rs1 rs2 rs3) (f.fma m z false true a b c)
    ∧ gives (.fnmadd p rm rd rs1 rs2 rs3) (f.fma m z true true a b c)
    ∧ gives (.fnmsub p rm rd rs1 rs2 rs3) (f.fma m z true false a b c)
    ∧ (let x := (s.me.readX rs1).toNat
       let r := pairOf (windowOf [termOf (fp32.decode false (x % 2 ^ 32)), termOf (fp32.decode false (x / 2 ^ 32)),
         termOf (fp32.decode z ((s.me.readX rs2).toNat % 2 ^ 32))])
       writes (.fadd2 rd rs1 rs2) (BitVec.ofNat 64 (r.2.1 * 2 ^ 32 + r.1)) r.2.2)

/-! ## Branches, jumps and hardware loops -/

/-- R88, R89: the branches on a condition bit, and the jumps with their link and their one trap. -/
def Obligations.BranchesAndJumps : Prop :=
  ∀ (s : State) (n : CBit) (off : BitVec 21) (rd rs1 : Reg) (imm : BitVec 16),
    let t := s.me.pc + off.signExtend 64 * 4
    let a := s.me.readX rs1 + imm.signExtend 64
    (s.me.readC n = true → jumps (.bt n off) s id t true ∧ completes (.bf n off) s id)
    ∧ (s.me.readC n = false → completes (.bt n off) s id ∧ jumps (.bf n off) s id t true)
    ∧ jumps (.jal rd off) s (·.writeX rd (s.me.pc + 4)) t (rd == 0)
    ∧ (a.toNat % 4 = 0 → jumps (.jalr rd rs1 imm) s (·.writeX rd (s.me.pc + 4)) a (rd == 0))
    ∧ (a.toNat % 4 ≠ 0 → traps (.jalr rd rs1 imm) s causeMisaligned a)

/-- R90: the strip branch. A pass with c7 set that shows no decrease of the captured count for the second time traps; every
other such pass branches, and the table holds at most four entries, the one used last first. With c7 clear it falls
through and its entry is dropped. -/
def Obligations.StripBranch : Prop :=
  ∀ (s : State) (off : BitVec 21),
    let m := s.me
    let old := m.spt.find? fun e => e.addr == m.pc
    let rest := m.spt.filter fun e => e.addr != m.pc
    let takes (l : List SptEntry) : Prop :=
      jumps (.bs off) s (fun t => { t with spt := l }) (m.pc + off.signExtend 64 * 4) true
    (m.readC 7 = false → completes (.bs off) s fun t => { t with spt := rest })
    ∧ (m.readC 7 = true →
      (old = none → takes ({ addr := m.pc, count := m.captured, strikes := 0 } :: m.spt.take 3))
      ∧ (∀ e, old = some e → m.captured.toNat < e.count.toNat → takes ({ e with count := m.captured, strikes := 0 } :: rest))
      ∧ (∀ e, old = some e → e.count.toNat ≤ m.captured.toNat → e.strikes ≠ 1 →
          takes ({ e with strikes := e.strikes + 1 } :: rest))
      ∧ (∀ e, old = some e → e.count.toNat ≤ m.captured.toNat → e.strikes = 1 →
          traps (.bs off) s causeNoProgress m.setvlAddr))

/-- R91: `loop` and `loopi` push a level, skip the body on a zero count, and trap on a count or an end that is not allowed
and on a seventh level. -/
def Obligations.HardwareLoopEntry : Prop :=
  ∀ (s : State) (i : Instr) (n : Nat) (off : BitVec 13),
    ((∃ rs1, i = .loop rs1 off ∧ n = (s.me.readX rs1).toNat) ∨ (∃ k, i = .loopi k off ∧ n = k.toNat)) →
    let m := s.me
    let e := m.pc + off.zeroExtend 64 * 4
    let beyond := m.lpdepth ≠ 0 ∧ (m.level (m.lpdepth - 1)).fin.toNat < e.toNat
    (2 ^ 32 ≤ n → traps i s causeOperand (BitVec.ofNat 64 n))
    ∧ (n < 2 ^ 32 → beyond → traps i s causeOperand e)
    ∧ (¬ beyond → n = 0 → ∃ t, exec i s = .next t ∧ RetiresAt e (turnsOver s s) t)
    ∧ (n < 2 ^ 32 → ¬ beyond → n ≠ 0 → 6 ≤ m.lpdepth → traps i s causeLoop m.pc)
    ∧ (n < 2 ^ 32 → ¬ beyond → n ≠ 0 → m.lpdepth < 6 → completes i s fun t =>
        { t.setLevel m.lpdepth { beg := m.pc + 4, fin := e, cnt := BitVec.ofNat 32 (n - 1), idx := 0 } with
          lpdepth := m.lpdepth + 1 })

/-- R17, R92: the levels that end at an instruction pop, innermost first, as long as their counts are 0; the first that has a
count left goes round once more, and a level that ends elsewhere stops the tests. R93: a transfer pops exactly the inner levels
whose body does not hold the target, up to the first that does. -/
def Obligations.LoopStackRules : Prop :=
  (∀ s : State, ∃ t k, exec .loopBackEdge s = .next t
    ∧ (∀ q, q ≠ s.cur → t.slot q = s.slot q) ∧ t = { s with slots := t.slots } ∧ keepsSlot s.me t.me
    ∧ k ≤ s.me.lpdepth
    ∧ (∀ j, k ≤ j → j < s.me.lpdepth → (s.me.level j).fin = s.me.pc ∧ (s.me.level j).cnt = 0)
    ∧ t.me.lpdepth = k
    ∧ (k = 0 ∨ (s.me.level (k - 1)).fin ≠ s.me.pc → t.me.pc = s.me.pc + 4 ∧ t.me.loops = s.me.loops)
    ∧ (k ≠ 0 → (s.me.level (k - 1)).fin = s.me.pc →
        let l := s.me.level (k - 1)
        l.cnt ≠ 0 ∧ t.me.pc = l.beg ∧ t.me.loops = (s.me.setLevel (k - 1) { l with cnt := l.cnt - 1, idx := l.idx + 1 }).loops))
  ∧ (∀ (t : Slot) (a : Word),
    let r := t.transfer a true
    let holds (j : Nat) : Prop := (t.level j).beg.toNat ≤ a.toNat ∧ a.toNat ≤ (t.level j).fin.toNat
    r.pc = a ∧ r.loops = t.loops ∧ r.lpdepth ≤ t.lpdepth ∧ keepsSlot t r
    ∧ (r.lpdepth ≠ 0 → holds (r.lpdepth - 1))
    ∧ (∀ j, r.lpdepth ≤ j → j < t.lpdepth → ¬ holds j)
    ∧ (t.transfer a false).lpdepth = t.lpdepth ∧ (t.transfer a false).pc = a)

/-! ## Scalar loads and stores -/

/-- R94: a scalar load or store, its alignment trap, and its completion wherever its access translates and can be made; nothing
else than the effect of the access takes place. -/
def Obligations.ScalarLoadsAndStores : Prop :=
  (∀ (s : State) (i : Instr) (rd rs1 : Reg) (imm : BitVec 13) (n : Nat) (signed : Bool),
    ((i = .ldB rd rs1 imm ∧ n = 1 ∧ signed = true) ∨ (i = .ldH rd rs1 imm ∧ n = 2 ∧ signed = true)
      ∨ (i = .ldW rd rs1 imm ∧ n = 4 ∧ signed = true) ∨ (i = .ldD rd rs1 imm ∧ n = 8 ∧ signed = true)
      ∨ (i = .ldBu rd rs1 imm ∧ n = 1 ∧ signed = false) ∨ (i = .ldHu rd rs1 imm ∧ n = 2 ∧ signed = false)
      ∨ (i = .ldWu rd rs1 imm ∧ n = 4 ∧ signed = false)) →
    let a := s.me.readX rs1 + imm.signExtend 64
    (a.toNat % n ≠ 0 → exec i s = .next (takeTrap causeAlignment a s.me.pc (turnsOver s (endLoad (startLoad s)))))
    ∧ (a.toNat % n = 0 → ∀ l u v w, translate s.agent .load a (startLoad s) = .ok l u →
        readLoc s.agent .sequencer l n a u = .ok v w →
        completesAs i s (mapMe (·.writeX rd
          (if signed then (BitVec.ofNat (8 * n) v).signExtend 64 else (BitVec.ofNat (8 * n) v).zeroExtend 64)) w))
    ∧ (a.toNat % n = 0 → ∀ c e u, loadN s.agent .sequencer a n (startLoad s) = .error (.trap c e) u →
        exec i s = .next (takeTrap c e s.me.pc (turnsOver s (endLoad u)))))
  ∧ (∀ (s : State) (i : Instr) (rs1 data : Reg) (imm : BitVec 14) (n : Nat),
    ((i = .stB rs1 data imm ∧ n = 1) ∨ (i = .stH rs1 data imm ∧ n = 2) ∨ (i = .stW rs1 data imm ∧ n = 4)
      ∨ (i = .stD rs1 data imm ∧ n = 8)) →
    let a := s.me.readX rs1 + imm.signExtend 64
    (a.toNat % n ≠ 0 → traps i s causeAlignment a)
    ∧ (a.toNat % n = 0 → ∀ l u w, translate s.agent .store a s = .ok l u →
        writeLoc s.agent .sequencer l n (s.me.readX data).toNat a u = .ok () w → completesAs i s w)
    ∧ (a.toNat % n = 0 → ∀ c e u, storeN s.agent .sequencer a n (s.me.readX data).toNat s = .error (.trap c e) u →
        exec i s = .next (takeTrap c e s.me.pc (turnsOver s u))))

/-- R95, for the write that a scalar store makes at a near place: the stored bytes are read back, the lowest first, and every
byte of other storage that was readable at a near place reads as before, but where a forwarding record gives its line and the
stored one two names. -/
def Obligations.StoredBytesAreReadBack : Prop :=
  ∀ (s t : State) (l : Loc) (n v : Nat) (va : Word),
    (n = 1 ∨ n = 2 ∨ n = 4 ∨ n = 8) → va.toNat % n = 0 → placeAddress l % n = 0 → nearPlace l = true →
    writeLoc s.agent .sequencer l n v va s = .ok () t →
    ((∀ c o, l.place = .pad c o → isBad (s.core c).badPad (o / 64) = false) →
        ∀ i, i < n → seen t (l.plus i) = some (BitVec.ofNat 8 (v / 256 ^ i)))
    ∧ (∀ (m : Loc) (b : Byte), nearPlace m = true → ¬ aliased s l m → (∀ i, i < n → storageOf s m ≠ storageOf s (l.plus i)) →
        seen s m = some b → seen t m = some b)
    ∧ (∀ q, t.slot q = s.slot q) ∧ t.mem = s.mem

/-! ## Vector arithmetic -/

/-- R106, R108, R109: the integer arithmetic of `VINT`, `vmerge` and `vmv`, with their traps. The elements are numbers
modulo 2^W; a shift takes its distance modulo W; saturating forms clamp; a division by zero gives all ones, a remainder by
zero the dividend. -/
def Obligations.VectorIntegerArithmetic : Prop :=
  ∀ (s : State) (rep : Rep) (k : KReg) (vd vs1 vs2 : Reg),
    let t := s.me
    let w := t.ew
    let b2 : VOp := { t.opw vs2 with rep := rep }
    let os := [t.opw vs1, b2, t.dst vd]
    let isInt := t.fmt == .int || t.fmt == .uint
    let lo (signed : Bool) : Int := if signed then -2 ^ (w - 1) else 0
    let hi (signed : Bool) : Int := if signed then 2 ^ (w - 1) - 1 else 2 ^ w - 1
    let clamp (signed : Bool) (i : Int) : BitVec w := BitVec.ofInt w (max (lo signed) (min (hi signed) i))
    let gives (i : Instr) (ok : Bool) (k' : KReg) (f : Nat → BitVec w → BitVec w → BitVec w) : Prop :=
      elementwise i s ok os k' vd w t.vl t.vlmax 1 fun e =>
        ⟨(f e (BitVec.ofNat w (t.read (t.opw vs1) w e)) (BitVec.ofNat w (t.read b2 w e))).toNat, 0⟩
    let int (i : Instr) (f : BitVec w → BitVec w → BitVec w) : Prop := gives i isInt k fun _ => f
    int (.vadd rep k vd vs1 vs2) (fun a b => a + b)
    ∧ int (.vsub rep k vd vs1 vs2) (fun a b => a - b)
    ∧ int (.vrsub rep k vd vs1 vs2) (fun a b => b - a)
    ∧ int (.vmul rep k vd vs1 vs2) (fun a b => a * b)
    ∧ int (.vmulh rep k vd vs1 vs2) (fun a b => (a.signExtend (2 * w) * b.signExtend (2 * w)).extractLsb' w w)
    ∧ int (.vmulhu rep k vd vs1 vs2) (fun a b => (a.zeroExtend (2 * w) * b.zeroExtend (2 * w)).extractLsb' w w)
    ∧ int (.vand rep k vd vs1 vs2) (fun a b => a &&& b)
    ∧ int (.vor rep k vd vs1 vs2) (fun a b => a ||| b)
    ∧ int (.vxor rep k vd vs1 vs2) (fun a b => a ^^^ b)
    ∧ int (.vsll rep k vd vs1 vs2) (fun a b => a <<< (b.toNat % w))
    ∧ int (.vsrl rep k vd vs1 vs2) (fun a b => a >>> (b.toNat % w))
    ∧ int (.vsra rep k vd vs1 vs2) (fun a b => a.sshiftRight (b.toNat % w))
    ∧ int (.vmin rep k vd vs1 vs2) (fun a b => if a.slt b then a else b)
    ∧ int (.vmax rep k vd vs1 vs2) (fun a b => if a.slt b then b else a)
    ∧ int (.vminu rep k vd vs1 vs2) (fun a b => if a.ult b then a else b)
    ∧ int (.vmaxu rep k vd vs1 vs2) (fun a b => if a.ult b then b else a)
    ∧ int (.vsadd rep k vd vs1 vs2) (fun a b => clamp true (a.toInt + b.toInt))
    ∧ int (.vsaddu rep k vd vs1 vs2) (fun a b => clamp false (a.toNat + b.toNat))
    ∧ int (.vssub rep k vd vs1 vs2) (fun a b => clamp true (a.toInt - b.toInt))
    ∧ int (.vssubu rep k vd vs1 vs2) (fun a b => clamp false ((a.toNat : Int) - b.toNat))
    ∧ int (.vdiv rep k vd vs1 vs2) (fun a b => if b = 0 then BitVec.allOnes w else a.sdiv b)
    ∧ int (.vdivu rep k vd vs1 vs2) (fun a b => if b = 0 then BitVec.allOnes w else a / b)
    ∧ int (.vrem rep k vd vs1 vs2) (fun a b => if b = 0 then a else a - b * a.sdiv b)
    ∧ int (.vremu rep k vd vs1 vs2) (fun a b => if b = 0 then a else a - b * (a / b))
    ∧ gives (.vmerge rep k vd vs1 vs2) true 0 (fun e a b => if t.kbit k e then b else a)
    ∧ elementwise (.vmv rep k vd vs2) s true [b2, t.dst vd] k vd w t.vl t.vlmax 1 (fun e => ⟨t.read b2 w e, 0⟩)

/-- R26, R75, R108, R110: the integer and the floating-point compares, into a mask register. -/
def Obligations.VectorCompares : Prop :=
  ∀ (s : State) (rep : Rep) (k kd : KReg) (vs1 vs2 : Reg),
    let t := s.me
    let w := t.ew
    let b2 : VOp := { t.opw vs2 with rep := rep }
    let os := [t.opw vs1, b2]
    let isInt := t.fmt == .int || t.fmt == .uint
    let isFp := t.fmt == .fp32 || t.fmt == .fp16 || t.fmt == .bf16
    let a (e : Nat) : BitVec w := BitVec.ofNat w (t.read (t.opw vs1) w e)
    let b (e : Nat) : BitVec w := BitVec.ofNat w (t.read b2 w e)
    let gives (i : Instr) (ok : Bool) (f : Nat → Bool × FFlags) : Prop :=
      maskDoes i s ok (fillState t os k 1) os kd (.masked t k t.vl t.vlmax) f
    let int (i : Instr) (f : BitVec w → BitVec w → Bool) : Prop := gives i isInt fun e => (f (a e) (b e), 0)
    let fp (i : Instr) (c : FCmp) : Prop := gives i isFp fun e =>
      fcompare c ((fltOf t.fmt).decode t.ftz (t.read (t.opw vs1) w e)) ((fltOf t.fmt).decode t.ftz (t.read b2 w e))
    int (.vcmpeq rep k kd vs1 vs2) (fun a b => a == b)
    ∧ int (.vcmpne rep k kd vs1 vs2) (fun a b => !(a == b))
    ∧ int (.vcmplt rep k kd vs1 vs2) (fun a b => a.slt b)
    ∧ int (.vcmpltu rep k kd vs1 vs2) (fun a b => a.ult b)
    ∧ int (.vcmple rep k kd vs1 vs2) (fun a b => !b.slt a)
    ∧ int (.vcmpleu rep k kd vs1 vs2) (fun a b => !b.ult a)
    ∧ fp (.vfcmpeq rep k kd vs1 vs2) .eq
    ∧ fp (.vfcmpne rep k kd vs1 vs2) .ne
    ∧ fp (.vfcmplt rep k kd vs1 vs2) .lt
    ∧ fp (.vfcmple rep k kd vs1 vs2) .le
    ∧ fp (.vfcmpgt rep k kd vs1 vs2) .gt
    ∧ fp (.vfcmpge rep k kd vs1 vs2) .ge

/-- R110, R111, R118: the floating-point instructions of `VFP`, each rounding once in the mode of `frm`, and `vfmaxexp`,
which writes one scale byte for a block of 32 elements. -/
def Obligations.VectorFloatingPoint : Prop :=
  ∀ (s : State) (rep : Rep) (k : KReg) (vd vs1 vs2 rs2 : Reg),
    let t := s.me
    let w := t.ew
    let b2 : VOp := { t.opw vs2 with rep := rep }
    let isFp := t.fmt == .fp32 || t.fmt == .fp16 || t.fmt == .bf16
    let x := fltOf t.fmt
    let r := t.frmMode
    let av (e : Nat) : Nat := t.read (t.opw vs1) w e
    let bv (e : Nat) : Nat := t.read b2 w e
    let a (e : Nat) := x.decode t.ftz (av e)
    let b (e : Nat) := x.decode t.ftz (bv e)
    let two (i : Instr) (f : Nat → FRes) : Prop :=
      elementwise i s isFp [t.opw vs1, b2, t.dst vd] k vd w t.vl t.vlmax 1 f
    let one (i : Instr) (f : Nat → FRes) : Prop :=
      elementwise i s isFp [t.opw vs1, t.dst vd] k vd w t.vl t.vlmax 1 f
    let signed (f : Bool → Bool → Bool) (e : Nat) : FRes :=
      let magnitude := av e % 2 ^ (w - 1)
      ⟨(if t.ftz && decide (magnitude < 2 ^ x.fw) then 0 else magnitude)
        + (f ((av e).testBit (w - 1)) ((bv e).testBit (w - 1))).toNat * 2 ^ (w - 1), 0⟩
    two (.vfadd rep k vd vs1 vs2) (fun e => x.add r t.ftz (a e) (b e))
    ∧ two (.vfsub rep k vd vs1 vs2) (fun e => x.sub r t.ftz (a e) (b e))
    ∧ two (.vfmul rep k vd vs1 vs2) (fun e => x.mul r t.ftz (a e) (b e))
    ∧ two (.vfdiv rep k vd vs1 vs2) (fun e => x.div r t.ftz (a e) (b e))
    ∧ two (.vfmin rep k vd vs1 vs2) (fun e => x.minmax false (a e) (b e))
    ∧ two (.vfmax rep k vd vs1 vs2) (fun e => x.minmax true (a e) (b e))
    ∧ two (.vfsgnj rep k vd vs1 vs2) (signed fun _ y => y)
    ∧ two (.vfsgnjn rep k vd vs1 vs2) (signed fun _ y => !y)
    ∧ two (.vfsgnjx rep k vd vs1 vs2) (signed fun y z => y ^^ z)
    ∧ one (.vfsqrt k vd vs1) (fun e => x.sqrt r t.ftz (a e))
    ∧ one (.vfrecip k vd vs1) (fun e => x.recip r t.ftz (a e))
    ∧ one (.vfrsqrt k vd vs1) (fun e => x.rsqrt r t.ftz (a e))
    ∧ one (.vfexp2 k vd vs1) (fun e => x.exp2 r t.ftz (a e))
    ∧ one (.vflog2 k vd vs1) (fun e => x.log2 r t.ftz (a e))
    ∧ one (.vftanh k vd vs1) (fun e => x.tanh r t.ftz (a e))
    ∧ one (.vfclass k vd vs1) (fun e => ⟨x.classify t.ftz (av e), 0⟩)
    ∧ (let os := [t.opw vs1, { r := vd, quarters := 32, dest := true }]
       let d := (t.vl + 31) / 32
       vectorDoes (.vfmaxexp k vd vs1 rs2) s (isFp && t.fresh) (fillAll t os t.vl (t.kbit k)) (· / 32) os vd 8
         { act := fun _ => true, zero := fun _ => false, lo := t.firstLeft (t.vstart / 32)
           d := d, tail := d, dmax := (t.vlmax + 31) / 32 } fun n =>
           let block := (List.range 32).map (32 * n + ·) |>.filter fun e => decide (e < t.vl) && t.kbit k e
           let expts := block.filterMap fun e => match a e with | .fin v => if v.m = 0 then none else some v.log2 | _ => none
           ⟨if block.any (fun e => match a e with | .fin _ => false | _ => true) then 0xFF
            else match expts.max? with
              | none => 0x7F
              | some m => (min 254 (max 0 (m - rs2.toNat + 127))).toNat, 0⟩)

/-- R97, R112 to R115: the fused, widening and dot forms, whose destination is their third source, `vl6mul`, and the quad
forms of `VQUAD`, which no mask governs. -/
def Obligations.VectorFusedForms : Prop :=
  ∀ (s : State) (rep : Rep) (k : KReg) (vd vs1 vs2 vs3 : Reg),
    let t := s.me
    let w := t.ew
    let b2 : VOp := { t.opw vs2 with rep := rep }
    let isInt := t.fmt == .int || t.fmt == .uint
    let isFp := t.fmt == .fp32 || t.fmt == .fp16 || t.fmt == .bf16
    let x := fltOf t.fmt
    let r := t.frmMode
    let av (e : Nat) : Nat := if e < t.vl then t.read (t.opw vs1) w e else 0
    let bv (e : Nat) : Nat := if e < t.vl then t.read b2 w e else 0
    let acc (i : Instr) (ok : Bool) (q dw ratio : Nat) (f : Nat → Nat → FRes) : Prop :=
      let wide := ratio != 1
      elementwise i s ok [t.opw vs1, b2, { r := vd, quarters := q, wide := wide },
          { r := vd, quarters := q, wide := wide, dest := true }] k vd dw
        ((t.vl + ratio - 1) / ratio) ((t.vlmax + ratio - 1) / ratio) ratio fun e => f e (t.elem vd.toNat dw e)
    let fused (i : Instr) (np nc : Bool) : Prop := acc i isFp (4 * w) w 1 fun e c =>
      x.fma r t.ftz np nc (x.decode t.ftz (av e)) (x.decode t.ftz (bv e)) (x.decode t.ftz c)
    let quad (i : Instr) (ok : Bool) (f : Nat → Nat → Nat → FRes) : Prop :=
      elementwise i s ok [t.opw vs1, t.opw vs2, t.opw vs3, t.dst vd] 0 vd w t.vl t.vlmax 1 fun e =>
        f (t.read (t.opw vs1) w e) (t.read (t.opw vs2) w e) (t.read (t.opw vs3) w e)
    let quadFused (i : Instr) (np nc : Bool) : Prop := quad i isFp fun a b c =>
      x.fma r t.ftz np nc (x.decode t.ftz a) (x.decode t.ftz b) (x.decode t.ftz c)
    let int (a : Nat) : Int := if t.fmt == .int then (BitVec.ofNat w a).toInt else ((BitVec.ofNat w a).toNat : Int)
    fused (.vfmacc rep k vd vs1 vs2) false false
    ∧ fused (.vfnmacc rep k vd vs1 vs2) true true
    ∧ fused (.vfmsac rep k vd vs1 vs2) false true
    ∧ fused (.vfnmsac rep k vd vs1 vs2) true false
    ∧ acc (.vfwmacc rep k vd vs1 vs2) (isFp && w == 16) 128 32 1 (fun e c =>
        fp32.fma r t.ftz false false (x.decode t.ftz (av e)) (x.decode t.ftz (bv e)) (fp32.decode t.ftz c))
    ∧ acc (.vfdot4 rep k vd vs1 vs2) (t.fmt == .e4m3 || t.fmt == .e5m2) 32 32 4 (fun e c =>
        fp32.windowRound t.ftz [termProd (x.decode t.ftz (av (4 * e))) (x.decode t.ftz (bv (4 * e))),
          termProd (x.decode t.ftz (av (4 * e + 1))) (x.decode t.ftz (bv (4 * e + 1))),
          termProd (x.decode t.ftz (av (4 * e + 2))) (x.decode t.ftz (bv (4 * e + 2))),
          termProd (x.decode t.ftz (av (4 * e + 3))) (x.decode t.ftz (bv (4 * e + 3))), termOf (fp32.decode t.ftz c)])
    ∧ elementwise (.vl6mul rep k vd vs1 vs2) s (t.fmt == .l6) [t.opw vs1, b2, t.dst vd] k vd w t.vl t.vlmax 1
        (fun e => l6Mul (t.read (t.opw vs1) w e) (t.read b2 w e))
    ∧ acc (.vl6dot rep k vd vs1 vs2) (t.fmt == .l6) 32 32 4 (fun e c =>
        fp32.windowRound t.ftz [termVal (l6Product (av (4 * e)) (bv (4 * e))), termVal (l6Product (av (4 * e + 1)) (bv (4 * e + 1))),
          termVal (l6Product (av (4 * e + 2)) (bv (4 * e + 2))), termVal (l6Product (av (4 * e + 3)) (bv (4 * e + 3))),
          termOf (fp32.decode t.ftz c)])
    ∧ acc (.vmacc rep k vd vs1 vs2) isInt (4 * w) w 1 (fun e c => ⟨(av e * bv e + c) % 2 ^ w, 0⟩)
    ∧ acc (.vwmacc rep k vd vs1 vs2) (isInt && decide (w ≤ 32)) (8 * w) (2 * w) 1 (fun e c =>
        ⟨(BitVec.ofInt (2 * w) (int (av e) * int (bv e) + c)).toNat, 0⟩)
    ∧ quadFused (.vfmadd vd vs1 vs2 vs3) false false
    ∧ quadFused (.vfmsub vd vs1 vs2 vs3) false true
    ∧ quadFused (.vfnmadd vd vs1 vs2 vs3) true true
    ∧ quadFused (.vfnmsub vd vs1 vs2 vs3) true false
    ∧ quad (.vbsel vd vs1 vs2 vs3) true (fun a b c =>
        ⟨((BitVec.ofNat w c &&& BitVec.ofNat w a) ||| (~~~BitVec.ofNat w c &&& BitVec.ofNat w b)).toNat, 0⟩)
    ∧ quad (.vmadd vd vs1 vs2 vs3) isInt (fun a b c => ⟨(a * b + c) % 2 ^ w, 0⟩)

/-- R116, R117: the conversions to the format of `vtype`, rounded in the mode of `frm` or, for `vcvtsr`, by the draw of
the element; and block scaling with one E8M0 byte for 32 elements. -/
def Obligations.VectorConversions : Prop :=
  ∀ (s : State) (k : KReg) (vd vs1 vs2 : Reg) (src : SrcFmt) (iw : IntWidth),
    let t := s.me
    let w := t.ew
    let fm := numFmtOf t.fmt w
    let isMx := t.fmt == .e4m3 || t.fmt == .e5m2 || t.fmt == .e3m2 || t.fmt == .e2m3 || t.fmt == .e2m1
    let from' (i : Instr) (ok : Bool) (sw : Nat) (val : Nat → FVal) (mode : Nat → Rnd) : Prop :=
      let o : VOp := { r := vs1, quarters := 4 * sw }
      elementwise i s ok [o, t.dst vd] k vd w t.vl t.vlmax 1 fun e => convert fm (mode e) t.ftz (val (t.read o sw e))
    let fw := fmtBits src.toFmt
    from' (.vcvt k vd vs1 src) true fw (fmtValue src.toFmt fw t.ftz) (fun _ => t.frmMode)
    ∧ from' (.vcvti k vd vs1 iw) true iw.bits (fun a => fvalOfInt (BitVec.ofNat iw.bits a).toInt) (fun _ => t.frmMode)
    ∧ from' (.vcvtu k vd vs1 iw) true iw.bits (fun a => fvalOfInt (BitVec.ofNat iw.bits a).toNat) (fun _ => t.frmMode)
    ∧ from' (.vcvtsr k vd vs1 src) (!(t.fmt == .int || t.fmt == .uint)) fw (fmtValue src.toFmt fw t.ftz)
        (fun e => .sr (srDraw t.srseed e))
    ∧ elementwise (.vquant k vd vs1 vs2) s isMx [{ r := vs1, quarters := 128 }, { r := vs2, quarters := 1 }, t.dst vd] k vd w
        t.vl t.vlmax 1 (fun e =>
          let x := t.elem vs2.toNat 8 (e / 32)
          if x = 0xFF then convert fm t.frmMode t.ftz defaultNan
          else convert fm t.frmMode t.ftz (scaleVal (fp32.decode t.ftz (t.elem vs1.toNat 32 e)) (127 - (x : Int))))
    ∧ elementwise (.vdequant k vd vs1 vs2) s isMx [t.opw vs1, { r := vs2, quarters := 1 },
          { r := vd, quarters := 128, dest := true }] k vd 32 t.vl t.vlmax 1 (fun e =>
          let x := t.elem vs2.toNat 8 (e / 32)
          let v := (fltOf t.fmt).decode t.ftz (t.read (t.opw vs1) w e)
          if x = 0xFF ∨ v.isNan = true then ⟨0x7FC00000, if v.isSig then flagNV else 0⟩
          else convert (.flt fp32) t.frmMode t.ftz (scaleVal v ((x : Int) - 127)))

/-- R129, R130: mask logic, and the two instructions that read a mask into a scalar register. -/
def Obligations.MaskInstructions : Prop :=
  ∀ (s : State) (kd ka kb : KReg) (rd : Reg),
    let t := s.me
    let a (e : Nat) := t.kbit ka e
    let b (e : Nat) := t.kbit kb e
    let logic (i : Instr) (f : Nat → Bool) : Prop :=
      maskDoes i s true .ready [] kd (.masked t 0 t.vl t.vlmax) fun e => (f e, 0)
    let counts (i : Instr) (v : Word) : Prop :=
      vectorTraps i s true [] ∧ (vectorReady s [] →
        completes i s fun m => { vectorDone (m.writeX rd v) with vstate := vstateAfter t [] })
    let set := (List.range t.vl).filter a
    logic (.kand kd ka kb) (fun e => a e && b e)
    ∧ logic (.kor kd ka kb) (fun e => a e || b e)
    ∧ logic (.kxor kd ka kb) (fun e => a e ^^ b e)
    ∧ logic (.kandn kd ka kb) (fun e => a e && !b e)
    ∧ logic (.knot kd ka) (fun e => !a e)
    ∧ counts (.kpop rd ka) (BitVec.ofNat 64 set.length)
    ∧ (∀ e, e < t.vl → a e = true → (∀ d, d < e → a d = false) → counts (.kfirst rd ka) (BitVec.ofNat 64 e))
    ∧ ((∀ e, e < t.vl → a e = false) → counts (.kfirst rd ka) (BitVec.allOnes 64))

/-- R131 to R137: compaction, expansion, prefix counts, conflicts, slides, gathers, indices, and the moves between element 0
and a scalar register. -/
def Obligations.VectorPermutations : Prop :=
  ∀ (s : State) (k ka : KReg) (vd vs1 vs2 rs2 : Reg),
    let t := s.me
    let w := t.ew
    let isInt := t.fmt == .int || t.fmt == .uint
    let os := [t.opw vs1, t.dst vd]
    let v (e : Nat) : Nat := t.read (t.opw vs1) w e
    let n := (t.readX rs2).toNat
    let before (e : Nat) (p : Nat → Bool) : List Nat := (List.range e).filter p
    let fill (os : List VOp) (p : Nat → Bool) := fillAll t os t.vl p
    let moves (i : Instr) (os : List VOp) (ok : Bool) (first : Nat) (src : Nat → Option Nat) : Prop :=
      let late (e : Nat) : Bool := match src e with
        | some j => (t.binding vs1.toNat).bound && decide (t.vstart ≤ j)
        | none => false
      vectorDoes i s ok (fill os (t.kbit k)) id os vd w
        { act := fun e => t.kbit k e && decide (first ≤ e)
            && (match src e with | some j => t.reaches (t.opw vs1) (fill os (t.kbit k)) j | none => true)
            && (decide (t.vstart ≤ e) || late e)
          zero := fun e => !t.kbit k e && t.maskZero && decide (first ≤ e) && decide (t.vstart ≤ e)
          lo := t.firstLeft 0, d := t.vl, tail := t.vl, dmax := t.vlmax }
        fun e => ⟨match src e with | some j => v j | none => 0, 0⟩
    let sel := before t.vl (t.kbit k)
    let untouched (i : Instr) (ok : Bool) (os : List VOp) : Prop :=
      vectorTraps i s ok os ∧ (vectorReady s os → ok = true →
        completes i s fun m => { vectorDone m with vstate := vstateAfter t os, streams := streamsAfter t os })
    let chosen (e : Nat) : Nat := (sel.filter fun j => decide (j < e)).length
    vectorDoes (.vcompress k vd vs1) s (k != 0 && t.fresh && t.disjoint vd vs1) (fill os (t.kbit k)) chosen os vd w
        { act := fun _ => true, zero := fun _ => false, lo := t.firstLeft (chosen t.vstart)
          d := sel.length, tail := sel.length, dmax := t.vlmax }
        (fun j => ⟨v (sel.getD j 0), 0⟩)
    ∧ vectorDoes (.vexpand k vd vs1) s (k != 0 && t.fresh && t.disjoint vd vs1) (fill os (t.kbit k)) id os vd w
        (.masked t k t.vl t.vlmax) (fun e => ⟨v (before e (t.kbit k)).length, 0⟩)
    ∧ elementwise (.vprefpop k vd ka) s isInt [t.dst vd] k vd w t.vl t.vlmax 1
        (fun e => ⟨(before e (t.kbit ka)).length % 2 ^ w, 0⟩)
    ∧ elementwise (.vconflict k vd vs1) s (isInt && (decide (8 ≤ w) && decide (t.vl < 2 ^ w) && t.fresh && t.disjoint vd vs1)) os k
        vd w t.vl t.vlmax 1 (fun e => ⟨((before e fun j => t.kbit k j && v j == v e).getLast?).getD (2 ^ w - 1), 0⟩)
    ∧ moves (.vslideup k vd vs1 rs2) os (t.disjoint vd vs1) n (fun e => some (e - n))
    ∧ moves (.vslidedown k vd vs1 rs2) os true 0 (fun e => if e + n < t.vl then some (e + n) else none)
    ∧ moves (.vrgather k vd vs1 vs2) [t.opw vs1, t.opw vs2, t.dst vd] (t.disjoint vd vs1 && t.disjoint vd vs2) 0
        (fun e => let j := t.read (t.opw vs2) w e; if j < t.vl then some j else none)
    ∧ elementwise (.vid k vd) s isInt [t.dst vd] k vd w t.vl t.vlmax 1 (fun e => ⟨e % 2 ^ w, 0⟩)
    ∧ (if 1 ≤ t.vl ∧ t.vstart = 0 then vectorDoes (.vmvx vd vs1) s true .ready id [t.dst vd] vd w
          { act := fun _ => true, zero := fun _ => false, lo := 0, d := 1, tail := 0, dmax := 0 } (fun _ => ⟨(t.readX vs1).toNat % 2 ^ w, 0⟩)
       else untouched (.vmvx vd vs1) true [t.dst vd])
    ∧ (let os := [t.opw vs1]
       let f := fillAll t os (max t.vl 1) fun _ => true
       let bits := BitVec.ofNat w (v 0)
       vectorTraps (.vmvxs vd vs1) s true os ∧ (vectorReady s os →
         (f = .unfilled → holdsFor (.vmvxs vd vs1) s .stream)
         ∧ (∀ e c a, f = .stop e c a → ∃ u, exec (.vmvxs vd vs1) s = .next (takeTrap c a t.pc (turnsOver s u))
             ∧ u.me.vstart = e ∧ u.me.x = t.x ∧ u.me.lanes = t.lanes)
         ∧ (f = .ready → completes (.vmvxs vd vs1) s fun m =>
             { vectorDone (m.writeX vd (if t.fmt == .int then bits.signExtend 64 else bits.zeroExtend 64)) with
               vstate := vstateAfter t os, streams := streamsAfter t os })))

/-- R138 to R142: the reductions, which take the active elements of vs1 in order and a start value from vs2, and write
nothing where `vl` is 0; and the segmented scans. -/
def Obligations.VectorReductions : Prop :=
  ∀ (s : State) (k kh : KReg) (vd vs1 vs2 : Reg),
    let t := s.me
    let w := t.ew
    let isInt := t.fmt == .int || t.fmt == .uint
    let isFp := t.fmt == .fp32 || t.fmt == .fp16 || t.fmt == .bf16
    let x := fltOf t.fmt
    let from0 := t.fresh
    let os := [t.opw vs1, t.opw vs2, t.dst vd]
    let xs : List Nat := ((List.range t.vl).filter (t.kbit k)).map (t.read (t.opw vs1) w)
    let y (e : Nat) : Nat := t.read (t.opw vs2) w e
    let gives (i : Instr) (ok : Bool) (out : List Nat) (fl : FFlags) : Prop :=
      if t.vl = 0 then vectorTraps i s ok os ∧ (vectorReady s os → ok = true →
        completes i s fun m => { vectorDone m with vstate := vstateAfter t os, streams := streamsAfter t os })
      else vectorDoes i s ok (fillAll t os t.vl (t.kbit k)) (fun _ => 0) os vd w
        { act := fun _ => true, zero := fun _ => false, lo := t.firstLeft 0, d := out.length, tail := out.length, dmax := t.vlmax }
        fun e => ⟨out.getD e 0, fl⟩
    let int (i : Instr) (f : BitVec w → BitVec w → BitVec w) : Prop :=
      gives i (isInt && from0) [((xs.map (BitVec.ofNat w)).foldl f (BitVec.ofNat w (y 0))).toNat] 0
    let fp (i : Instr) (r : FRes) : Prop := gives i (isFp && from0) [r.bits] r.flags
    let vals := (xs ++ [y 0]).map (x.decode t.ftz)
    int (.vredsum k vd vs1 vs2) (fun a b => a + b)
    ∧ int (.vredmin k vd vs1 vs2) (fun a b => if b.slt a then b else a)
    ∧ int (.vredmax k vd vs1 vs2) (fun a b => if a.slt b then b else a)
    ∧ int (.vredminu k vd vs1 vs2) (fun a b => if b.ult a then b else a)
    ∧ int (.vredmaxu k vd vs1 vs2) (fun a b => if a.ult b then b else a)
    ∧ int (.vredand k vd vs1 vs2) (fun a b => a &&& b)
    ∧ int (.vredor k vd vs1 vs2) (fun a b => a ||| b)
    ∧ int (.vredxor k vd vs1 vs2) (fun a b => a ^^^ b)
    ∧ fp (.vfredsum k vd vs1 vs2) (x.windowRound t.ftz (vals.map termOf))
    ∧ (let r := pairOf (windowOf ([termOf (fp32.decode false (y 0)), termOf (fp32.decode false (y 1))]
           ++ xs.map fun a => termOf (fp32.decode t.ftz a)))
       gives (.vfredsum2 k vd vs1 vs2) (t.fmt == .fp32 && from0) [r.1, r.2.1] r.2.2)
    ∧ fp (.vfredmin k vd vs1 vs2) (foldMinMax x false vals)
    ∧ fp (.vfredmax k vd vs1 vs2) (foldMinMax x true vals)
    ∧ (let seg (e : Nat) : List Nat :=
         let head := (((List.range (e + 1)).filter (t.kbit kh)).getLast?).getD 0
         (((List.range (e + 1)).filter fun j => decide (head ≤ j) && t.kbit k j)).map (t.read (t.opw vs1) w)
       let scans (i : Instr) (ok : Bool) (f : List Nat → FRes) : Prop :=
         elementwise i s (ok && from0) [t.opw vs1, t.dst vd] k vd w t.vl t.vlmax 1 fun e => f (seg e)
       scans (.vsegscan k vd vs1 kh) isInt (fun l => ⟨l.sum % 2 ^ w, 0⟩)
       ∧ scans (.vfsegscan k vd vs1 kh) isFp (fun l => x.windowRound t.ftz (l.map fun a => termOf (x.decode t.ftz a))))

/-- R143: `vtopk` leaves in the pair of registers at vd the greatest of the list that it held and the active candidates, in
the order of the keys, ties by identifier, then the list's entries before the candidates and the lower index first; NaNs last. -/
def Obligations.TopKMerge : Prop :=
  ∀ (s : State) (k : KReg) (vd vs1 vs2 : Reg),
    let t := s.me
    let i := Instr.vtopk k vd vs1 vs2
    let vi : Reg := vd + 1
    let os := [t.opw vs1, t.opw vs2, t.opw vd, t.dst vd, t.opw vi, t.dst vi]
    let ok := t.ew == 32 && (t.fmt == .fp32 || t.fmt == .int || t.fmt == .uint)
      && (t.group == 1 && vd.toNat % 2 == 0 && vs1 != vs2 && !([vd, vi].contains vs1) && !([vd, vi].contains vs2) && t.fresh)
    let fill := fillAll t os t.vl (t.kbit k)
    let entries : List (Nat × Nat) := ((List.range t.vl).map fun e => (t.elem vd.toNat 32 e, t.elem vi.toNat 32 e))
      ++ ((List.range t.vl).filter (t.kbit k)).map fun e => (t.read (t.opw vs1) 32 e, t.read (t.opw vs2) 32 e)
    let key (n : Nat) := topRank t.fmt (entries.getD n (0, 0)).1
    let name (n : Nat) := (entries.getD n (0, 0)).2
    let precedes (m n : Nat) : Prop := key m < key n ∨ (key m = key n ∧ (name m < name n ∨ (name m = name n ∧ m < n)))
    let nv : FFlags := if t.fmt == .fp32 && entries.any (fun p => (fp32.decode false p.1).isSig) then flagNV else 0
    vectorTraps i s ok os ∧ (vectorReady s os → ok = true →
      (fill = .unfilled → holdsFor i s .stream)
      ∧ (∀ e c a, fill = .stop e c a → ∃ u, exec i s = .next (takeTrap c a t.pc (turnsOver s u))
          ∧ u.me.vstart = e ∧ u.me.x = t.x ∧ u.me.lanes = t.lanes)
      ∧ (fill = .ready → t.vl ≤ t.vlmax → ∃ lanes,
          let u : Slot := { t with lanes := lanes }
          let pair (e : Nat) : Nat × Nat := (u.elem vd.toNat 32 e, u.elem vi.toNat 32 e)
          completes i s (fun m => { vectorDone m with lanes := lanes, fflags := m.fflags ||| nv, vstate := 3
                                                      streams := streamsAfter t os })
          ∧ (∃ order : List Nat, order.Perm (List.range entries.length) ∧ order.Pairwise precedes
              ∧ ∀ e, e < t.vl → pair e = entries.getD (order.getD e 0) (0, 0))
          ∧ (t.tailZero = true → ∀ e, t.vl ≤ e → e < t.vlmax → pair e = (0, 0))
          ∧ (∀ (l : Fin 64) (j : Nat), (∀ e, e < (if t.tailZero then t.vlmax else t.vl) →
                ¬ inElement t vd.toNat 32 e l.val j ∧ ¬ inElement t vi.toNat 32 e l.val j) →
              lanes[l].getLsbD j = t.lanes[l].getLsbD j)))

/-! ## Atomics -/

/-- R207: the scalar atomics. An address that is not a multiple of the width traps first, then what translation finds; memory
of the host and of the capacity tier supports only `amoadd`, `amoswap`, `amocas`, `amold` and `amost`. A release comes
before, an acquire after; the old value goes to rd, zero-extended for `amofadd` and sign-extended for the others. What the
access reads and writes it reads and writes as one, as the last clause says where no home agent takes part. -/
def Obligations.ScalarAtomics : Prop :=
  (∀ (s : State) (sc : Scope) (o : Order) (wd : AmoWidth) (rd rs1 rs2 : Reg),
    let n := wd.bytes
    let a := s.me.readX rs1
    let atomic (i : Instr) (n : Nat) (rd : Reg) (k : AccKind) (far : Bool)
        (f : BitVec (8 * n) → Option (BitVec (8 * n))) (ext : BitVec (8 * n) → Word) : Prop :=
      (a.toNat % n ≠ 0 → traps i s causeAlignment a)
      ∧ (a.toNat % n = 0 → ∀ c e u, translate s.agent k a s = .error (.trap c e) u →
          exec i s = .next (takeTrap c e s.me.pc (turnsOver s u)))
      ∧ (a.toNat % n = 0 → ∀ l u, translate s.agent k a s = .ok l u →
          (far = false → farPlace l = true → exec i s = .next (takeTrap causeAccess a s.me.pc (turnsOver s u)))
          ∧ (far = true ∨ farPlace l = false → ∀ u1,
              (if o.releases then releaseAt sc false u = .ok () u1 else u1 = u) →
              let access := rmwLoc s.agent sc l n a (fun v => (f (BitVec.ofNat (8 * n) v)).map (·.toNat)) u1
              (∀ old u2, access = .ok old u2 →
                completesAs i s (mapMe (·.writeX rd (ext (BitVec.ofNat (8 * n) old)))
                  (if o.acquires then refreshTo (coreOf u2.cur) (scopeLevel sc) false u2 else u2)))
              ∧ (∀ c e u2, access = .error (.trap c e) u2 →
                exec i s = .next (takeTrap c e s.me.pc (turnsOver s u2)))))
    let b (m : Nat) : BitVec (8 * m) := BitVec.ofNat (8 * m) (s.me.readX rs2).toNat
    let x : BitVec (8 * n) := BitVec.ofNat (8 * n) (s.me.readX rd).toNat
    let signed (m : Nat) (v : BitVec (8 * m)) : Word := v.signExtend 64
    let rmw (i : Instr) (far : Bool) (f : BitVec (8 * n) → BitVec (8 * n) → BitVec (8 * n)) : Prop :=
      atomic i n rd .atomic far (fun v => some (f v (b n))) (signed n)
    rmw (.amoswap sc o wd rd rs1 rs2) true (fun _ b => b)
    ∧ rmw (.amoadd sc o wd rd rs1 rs2) true (fun v b => v + b)
    ∧ rmw (.amoand sc o wd rd rs1 rs2) false (fun v b => v &&& b)
    ∧ rmw (.amoor sc o wd rd rs1 rs2) false (fun v b => v ||| b)
    ∧ rmw (.amoxor sc o wd rd rs1 rs2) false (fun v b => v ^^^ b)
    ∧ rmw (.amomin sc o wd rd rs1 rs2) false (fun v b => if b.slt v then b else v)
    ∧ rmw (.amomax sc o wd rd rs1 rs2) false (fun v b => if v.slt b then b else v)
    ∧ rmw (.amominu sc o wd rd rs1 rs2) false (fun v b => if b.ult v then b else v)
    ∧ rmw (.amomaxu sc o wd rd rs1 rs2) false (fun v b => if v.ult b then b else v)
    ∧ (let f := match wd with | .w => fp32 | .d => fp64
       atomic (.amofadd sc o wd rd rs1 rs2) n rd .atomic false
         (fun v => some (BitVec.ofNat (8 * n) (f.add .rne false (f.decode false v.toNat) (f.decode false (b n).toNat)).bits))
         (·.zeroExtend 64))
    ∧ atomic (.amocas sc o wd rd rs1 rs2) n rd .atomic true (fun v => if v = x then some (b n) else none) (signed n)
    ∧ atomic (.amold sc o wd rd rs1) n rd .atomicLoad true (fun _ => none) (signed n)
    ∧ atomic (.amost sc o wd rs1 rs2) n 0 .atomic true (fun _ => some (b n)) (signed n)
    ∧ atomic (.amominp sc o rd rs1 rs2) 8 rd .atomic false
        (fun v => some (if packedLess (b 8).toNat v.toNat then b 8 else v)) (signed 8))
  ∧ (∀ (s t : State) (sc : Scope) (l : Loc) (n old : Nat) (va : Word) (f : Nat → Option Nat), atHome s.agent sc l = none →
      readLoc s.agent sc l n va s = .ok old t → rmwLoc s.agent sc l n va f s = (match f old with
        | none => .ok old t
        | some v => match writeLoc s.agent sc l n v va t with
          | .ok _ u => .ok old u
          | .error e u => .error e u))

/-! ## Vector memory -/

/-- R120 to R122, R64: the vector loads of elements. The checks come first; then every active element from `vstart` on is
translated and read, in index order, and written as R106 says. An element that traps stops the instruction there, with
the elements below it loaded. -/
def Obligations.VectorLoads : Prop :=
  ∀ (s : State) (k : KReg) (v rs1 rs2 vs2 : Reg) (iw : IdxWidth),
    let t := s.me
    let w := t.ew
    let base := t.readX rs1
    let loads (i : Instr) (m : VAddr) (addr : Nat → Word) : Prop :=
      let ok := memOpsOk t v m && indexApart t v m
      let es := ((elemRange t.vstart t.vl).filter (t.kbit k)).map fun e => (e, piecesOf base w e (addr e))
      (∀ iw, encode i = some iw → ∀ c, ((t.vstate = 0 ∧ c = causeFirstUse) ∨ (t.vstate ≠ 0 ∧ t.vill = true ∧ c = causeIllegal)
          ∨ (t.vstate ≠ 0 ∧ t.vill = false ∧ ok = false ∧ c = causeOperand)) →
        exec i s = .next (takeTrap c (iw.zeroExtend 64) t.pc (turnsOver s (endLoad (startLoad s)))))
      ∧ (t.vstate ≠ 0 → t.vill = false → ok = true → ∀ xs stop1 u vals stop z,
          plan .load t.scope true es (startLoad s) = .ok (xs, stop1) u → readAll t.scope xs stop1 u = .ok (vals, stop) z →
          let f (e : Nat) : FRes := ⟨(vals.lookup e).getD 0, 0⟩
          ∃ z', RetireFrame (mapMe (vectorBegun z.ticks) z) z' ∧
          let heat := heated m.heat (xs.take vals.length) z'
          match stop with
          | none => vals.map (·.1) = (elemRange t.vstart t.vl).filter (t.kbit k)
              ∧ ∃ lanes, writtenInto t lanes v w (.masked t k t.vl t.vlmax) f
              ∧ completesAs i s (mapMe (fun t => { vectorDone t with lanes := lanes, vstate := 3 }) heat)
          | some (e, c, a) => vals.map (·.1) = (elemRange t.vstart e).filter (t.kbit k) ∧ e < t.vl ∧ t.kbit k e = true
              ∧ ∃ lanes, writtenInto t lanes v w { Elements.masked t k e 0 with tail := 0 } f
              ∧ stopsAt i s [] (mapMe (fun t => { t with lanes := lanes }) heat) e c a)
    loads (.vld k v rs1) .unit (fun e => base + BitVec.ofNat 64 (e * (w / 8)))
    ∧ loads (.vlds k v rs1 rs2) (.strided (t.readX rs2)) (fun e => base + BitVec.ofNat 64 e * t.readX rs2)
    ∧ (let x := VAddr.indexed vs2 (idxBits w iw)
       let at' (e : Nat) : Word := base + (BitVec.ofNat (idxBits w iw) (t.elem vs2.toNat (idxBits w iw) e)).signExtend 64
       loads (.vldxo iw k v rs1 vs2) x at' ∧ loads (.vldx iw k v rs1 vs2) x at')

/-- R120 to R123, R320: the vector stores of elements. Every active element from `vstart` on is translated before the first of
them performs; then they perform in the order of R123, and no register changes. An element that cannot be accessed stops the
instruction there: all active elements below it perform, `vstart` names it, and above it none performs but such as an
unordered store may have performed (R122). -/
def Obligations.VectorStores : Prop :=
  ∀ (s : State) (k : KReg) (v rs1 rs2 vs2 : Reg) (iw : IdxWidth),
    let t := s.me
    let w := t.ew
    let base := t.readX rs1
    let stores (i : Instr) (unordered : Bool) (m : VAddr) (addr : Nat → Word) : Prop :=
      let ok := memOpsOk t v m
      let es := ((elemRange t.vstart t.vl).filter (t.kbit k)).map fun e => (e, piecesOf base w e (addr e))
      let put (x : Planned) := writePlanned t.scope (t.elem v.toNat w x.e) x
      vectorTraps i s ok []
      ∧ (t.vstate ≠ 0 → t.vill = false → ok = true → ∀ xs stop u, plan .store t.scope true es s = .ok (xs, stop) u →
          xs.map (·.e) = (elemRange t.vstart (match stop with | some (e, _) => e | none => t.vl)).filter (t.kbit k)
          ∧ (∀ e c a, stop = some (e, c, a) → e < t.vl ∧ t.kbit k e = true)
          ∧ (unordered = false ∨ stop = none → performs i s [] (some m.heat) 1 (storeOrder u unordered xs) stop u put)
          ∧ (∀ e c a above u1, unordered = true → stop = some (e, c, a) →
              collect (es.filter fun x => decide (e < x.1)) (fun x => tryM (planElem u.vagent .store t.scope true x.1 x.2)) u
                = .ok above u1 →
              ∃ more : List Planned, more.Sublist (above.filterMap fun r => match r with | .ok x => some x | .error _ => none)
                ∧ performs i s [] (some m.heat) 1 (storeOrder u1 true (xs ++ more)) stop u1 put))
    stores (.vst k v rs1) false .unit (fun e => base + BitVec.ofNat 64 (e * (w / 8)))
    ∧ stores (.vsts k v rs1 rs2) false (.strided (t.readX rs2)) (fun e => base + BitVec.ofNat 64 e * t.readX rs2)
    ∧ (let x := VAddr.indexed vs2 (idxBits w iw)
       let at' (e : Nat) : Word := base + (BitVec.ofNat (idxBits w iw) (t.elem vs2.toNat (idxBits w iw) e)).signExtend 64
       stores (.vstxo iw k v rs1 vs2) false x at' ∧ stores (.vstx iw k v rs1 vs2) true x at')

/-- R124, R125: masks and whole registers are loaded and stored as bytes from a base; a mask needs a `vstart` that is a
multiple of 8, a whole register a base that is a multiple of 64 and a register that no stream holds. A byte that cannot be
accessed stops the instruction, with the bytes below it moved; for a mask `vstart` is 8 times its index. -/
def Obligations.MaskAndRegisterTransfers : Prop :=
  ∀ (s : State) (v rs1 : Reg) (kd : KReg),
    let t := s.me
    let base := t.readX rs1
    let on := t.vstate ≠ 0 ∧ t.vill = false
    let loadTraps (i : Instr) (c : Nat) (a : Word) : Prop :=
      exec i s = .next (takeTrap c a t.pc (turnsOver s (endLoad (startLoad s))))
    let checks (i : Instr) (ok : Bool) : Prop := ∀ w, encode i = some w →
      ∀ c, ((t.vstate = 0 ∧ c = causeFirstUse) ∨ (t.vstate ≠ 0 ∧ t.vill = true ∧ c = causeIllegal)
        ∨ (on ∧ ok = false ∧ c = causeOperand)) → loadTraps i c (w.zeroExtend 64)
    let bytes (lo hi : Nat) : List (Nat × List Piece) :=
      (elemRange lo hi).map fun j => (j, [{ addr := base + BitVec.ofNat 64 j, n := 1, bits := 8 }])
    let loaded (lo hi : Nat) (gives : List (Nat × Nat) → Option (Nat × Nat × Word) → State → Prop) : Prop :=
      ∀ xs stop1 u vals stop z, plan .load t.scope true (bytes lo hi) (startLoad s) = .ok (xs, stop1) u →
        readAll t.scope xs stop1 u = .ok (vals, stop) z →
        ∃ z', RetireFrame (mapMe (vectorBegun z.ticks) z) z' ∧ gives vals stop (heated .unit (xs.take vals.length) z')
    let whole := decide (v.toNat < t.valloc) && !(t.binding v.toNat).bound
    let regBytes := t.laneCount * (t.slice / 8)
    checks (.vldk kd rs1) (t.vstart % 8 == 0)
    ∧ (on → t.vstart % 8 = 0 → loaded (t.vstart / 8) ((t.vl + 7) / 8) fun vals stop z =>
        let f (e : Nat) : Bool × FFlags := (((vals.lookup (e / 8)).getD 0).testBit (e % 8), 0)
        let x : Elements := { act := fun _ => true, zero := fun _ => false, lo := t.vstart, d := t.vl, tail := t.vl, dmax := t.vlmax }
        match stop with
        | none => ∃ masks, maskedInto t masks kd x f ∧ completesAs (.vldk kd rs1) s
            (mapMe (fun m => { vectorDone m with masks := masks, vstate := if kd = 0 then vstateAfter t [] else 3 }) z)
        | some (j, c, a) => ∃ masks, maskedInto t masks kd { x with d := 8 * j, tail := 0, dmax := 0 } f
            ∧ stopsAt (.vldk kd rs1) s [] (mapMe (fun m => { m with masks := masks }) z) (8 * j) c a)
    ∧ vectorTraps (.vstk kd rs1) s (t.vstart % 8 == 0) []
    ∧ (on → t.vstart % 8 = 0 → ∀ xs stop u,
        let n (j : Nat) := min 8 (t.vl - 8 * j)
        plan .store t.scope true ((elemRange (t.vstart / 8) ((t.vl + 7) / 8)).map fun j =>
          (j, [{ addr := base + BitVec.ofNat 64 j, n := 1, bits := n j }])) s = .ok (xs, stop) u →
        performs (.vstk kd rs1) s [] (some .unit) 8 (pageOrder u xs) stop u fun x => writePlanned t.scope
            (((List.range (n x.e)).map fun i => if t.kbit kd (8 * x.e + i) then 2 ^ i else 0).sum) x)
    ∧ checks (.vldw v rs1) whole
    ∧ (on → whole = true → base.toNat % 64 ≠ 0 → loadTraps (.vldw v rs1) causeAlignment base
        ∧ traps (.vstw v rs1) s causeAlignment base)
    ∧ (on → whole = true → base.toNat % 64 = 0 → loaded t.vstart regBytes fun vals stop z =>
        let f (e : Nat) : FRes := ⟨(vals.lookup e).getD 0, 0⟩
        let x : Elements := { act := fun _ => true, zero := fun _ => false, lo := t.vstart, d := regBytes, tail := 0, dmax := 0 }
        match stop with
        | none => ∃ lanes, writtenInto t lanes v 8 x f
            ∧ completesAs (.vldw v rs1) s (mapMe (fun m => { vectorDone m with lanes := lanes, vstate := 3 }) z)
        | some (j, c, a) => ∃ lanes, writtenInto t lanes v 8 { x with d := j } f
            ∧ stopsAt (.vldw v rs1) s [] (mapMe (fun m => { m with lanes := lanes }) z) j c a)
    ∧ vectorTraps (.vstw v rs1) s whole []
    ∧ (on → whole = true → base.toNat % 64 = 0 → ∀ xs stop u, plan .store t.scope true (bytes t.vstart regBytes) s = .ok (xs, stop) u →
        performs (.vstw v rs1) s [] (some .unit) 1 (pageOrder u xs) stop u fun x => writePlanned t.scope (t.elem v.toNat 8 x.e) x)

/-- R126, R127: the vector atomics. Every active element is translated before the first performs; then each is one
read-modify-write at the scope of `vtype`, in index order; no register changes. An element that cannot be accessed stops
the instruction: every active element below it has performed, and none at or above it. -/
def Obligations.VectorAtomics : Prop :=
  ∀ (s : State) (mode : VamoMode) (k : KReg) (vs3 rs1 rs2 : Reg),
    let t := s.me
    let w := t.ew
    let base := t.readX rs1
    let isInt := (t.fmt == .int || t.fmt == .uint) && (w == 32 || w == 64)
    let m : VAddr := match mode with | .unit => .unit | .strided => .strided (t.readX rs2) | .indexed => .indexed rs2 w
    let addr (e : Nat) : Word := match mode with
      | .unit => base + BitVec.ofNat 64 (e * (w / 8))
      | .strided => base + BitVec.ofNat 64 e * t.readX rs2
      | .indexed => base + (BitVec.ofNat w (t.elem rs2.toNat w e)).signExtend 64
    let atomic (i : Instr) (fits far : Bool) (f : BitVec w → BitVec w → BitVec w) : Prop :=
      let ok := fits && memOpsOk t vs3 m
      let es := ((elemRange t.vstart t.vl).filter (t.kbit k)).map fun e => (e, piecesOf base w e (addr e))
      vectorTraps i s ok []
      ∧ (t.vstate ≠ 0 → t.vill = false → ok = true → ∀ xs stop u, plan .atomic t.scope far es s = .ok (xs, stop) u →
          xs.map (·.e) = (elemRange t.vstart (match stop with | some (e, _) => e | none => t.vl)).filter (t.kbit k)
          ∧ (∀ e c a, stop = some (e, c, a) → e < t.vl ∧ t.kbit k e = true)
          ∧ performs i s [] (some m.heat) 1 xs stop u fun x => forList x.parts fun p => do
              let s ← getS
              let _ ← rmwLoc s.vagent t.scope p.1 p.2.n p.2.addr fun old =>
                some (f (BitVec.ofNat w old) (BitVec.ofNat w (t.elem vs3.toNat w x.e))).toNat)
    let int (i : Instr) (far : Bool) (f : BitVec w → BitVec w → BitVec w) : Prop := atomic i isInt far f
    int (.vamoadd mode k vs3 rs1 rs2) true (fun a b => a + b)
    ∧ int (.vamoand mode k vs3 rs1 rs2) false (fun a b => a &&& b)
    ∧ int (.vamoor mode k vs3 rs1 rs2) false (fun a b => a ||| b)
    ∧ int (.vamoxor mode k vs3 rs1 rs2) false (fun a b => a ^^^ b)
    ∧ int (.vamomin mode k vs3 rs1 rs2) false (fun a b => if b.slt a then b else a)
    ∧ int (.vamomax mode k vs3 rs1 rs2) false (fun a b => if a.slt b then b else a)
    ∧ int (.vamominu mode k vs3 rs1 rs2) false (fun a b => if b.ult a then b else a)
    ∧ int (.vamomaxu mode k vs3 rs1 rs2) false (fun a b => if a.ult b then b else a)
    ∧ int (.vamoswap mode k vs3 rs1 rs2) true (fun _ b => b)
    ∧ ((t.fmt = .fp32 → w = 32) → atomic (.vamofadd mode k vs3 rs1 rs2) (t.fmt == .fp32) false fun a b =>
        BitVec.ofNat w (fp32.add .rne false (fp32.decode false a.toNat) (fp32.decode false b.toNat)).bits)

/-! ## Strings, hashes, automata and the vector side of KV chains -/

/-- R144, R145: the string instructions take an element as a string of bytes, the lowest first; `vbeq` folds upper-case
letters; `vqmix` mixes an element with a seed. -/
def Obligations.VectorStrings : Prop :=
  ∀ (s : State) (rep : Rep) (k kd : KReg) (vd vs1 vs2 : Reg),
    let t := s.me
    let w := t.ew
    let isInt := t.fmt == .int || t.fmt == .uint
    let bytes (v : Nat) : List Nat := (List.range (w / 8)).map fun i => v / 256 ^ i % 256
    let lower (b : Nat) : Nat := if 0x41 ≤ b ∧ b ≤ 0x5A then b + 0x20 else b
    let a (e : Nat) : Nat := t.read (t.opw vs1) w e
    let b (e : Nat) : Nat := t.read (t.opw vs2) w e
    let os := [t.opw vs1, t.opw vs2, t.dst vd]
    let mix (h : BitVec 64) (seed : BitVec 64) : BitVec 64 :=
      let h := h ^^^ (seed * 0xA24BAED4963EE407#64)
      let h := (h ^^^ (h >>> 31)) * 0x9FB21C651E98DF25#64
      let h := (h ^^^ (h >>> 27)) * 0xD6E8FEB86659FD93#64
      h ^^^ (h >>> 33)
    elementwise (.vbcmp k vd vs1 vs2) s (isInt && decide (8 ≤ w)) os k vd w t.vl t.vlmax 1 (fun e =>
        ⟨if bytes (a e) = bytes (b e) then 0 else if bytes (a e) < bytes (b e) then 2 ^ w - 1 else 1 % 2 ^ w, 0⟩)
    ∧ maskDoes (.vbeq k kd vs1 vs2) s (isInt && decide (8 ≤ w)) (fillState t [t.opw vs1, t.opw vs2] k 1)
        [t.opw vs1, t.opw vs2] kd (.masked t k t.vl t.vlmax)
        (fun e => ((bytes (a e)).map lower == (bytes (b e)).map lower, 0))
    ∧ elementwise (.vbfind k vd vs1 vs2) s (isInt && decide (8 ≤ w)) os k vd w t.vl t.vlmax 1 (fun e =>
        ⟨((bytes (a e)).findIdx? (· == b e % 256)).getD (w / 8), 0⟩)
    ∧ elementwise (.vqmix rep k vd vs1 vs2) s (isInt && w == 64) [t.opw vs1, { t.opw vs2 with rep := rep }, t.dst vd] k vd w
        t.vl t.vlmax 1 (fun e =>
          ⟨(mix (BitVec.ofNat 64 (a e)) (BitVec.ofNat 64 (t.read { t.opw vs2 with rep := rep } w e))).toNat, 0⟩)

/-- R146, R147: `vhacc` aggregates the active elements into the table that a descriptor in the own scratchpad describes: an
element goes to the first slot of its probe sequence that holds its key or is empty. R148: `vnfa` steps the states of an automaton
by the symbol of each element. -/
def Obligations.HashAndAutomatonSteps : Prop :=
  (∀ (s : State) (k : KReg) (xt vs1 vs2 : Reg),
    let t := s.me
    let i := Instr.vhacc k xt vs1 vs2
    let d := t.readX xt
    let os := [t.opw vs1, t.opw vs2]
    let ok := (t.fmt == .int || t.fmt == .uint) && t.ew == 64
    let fill := fillState t os k 1
    let word (q : List Nat) (n : Nat) : Word := BitVec.ofNat 64 (q.getD n 0)
    let reach : Fill → Nat
      | .stop e _ _ => min e t.vl
      | _ => t.vl
    vectorTraps i s ok os
    ∧ (vectorReady s os → ok = true →
      (d.toNat % 32 ≠ 0 ∨ ownOffset s d 32 = none → traps i s causeOperand d)
      ∧ (∀ o q, d.toNat % 32 = 0 → ownOffset s d 32 = some o →
          collect [0, 1, 2, 3] (fun n => ownQuad (o + 8 * n) d) s = .ok q s →
          (hashTableOf s (word q 0) (word q 1) (word q 2) (word q 3) = none → traps i s causeOperand d)
          ∧ (∀ h, hashTableOf s (word q 0) (word q 1) (word q 2) (word q 3) = some h →
              (fill = .unfilled → holdsFor i s .stream)
              ∧ (fill ≠ .unfilled → ∃ u, RetireFrame (mapMe (vectorBegun s.ticks) s) u ∧ ∀ done stop z,
                  untilTrap ((elemRange t.vstart (reach fill)).filter fun e =>
                    t.kbit k e && t.read (t.opw vs1) 64 e != 2 ^ 64 - 1) (fun e => do
                      let took ← probeTable h d (t.read (t.opw vs1) 64 e) (t.read (t.opw vs2) 64 e) (List.range h.probes)
                      check took causeTable d) u = .ok (done, stop) z →
                  match stop, fill with
                  | some (e, c, a), _ => stopsAt i s os z e c a
                  | none, .stop e c a => stopsAt i s os z e c a
                  | none, _ => completesAs i s (mapMe (vectorPast s os) z)))))
    ∧ (∀ (h : HashTable) (key v : Nat) (ks : Nat → Nat),
        (∀ n, n < h.probes → ks n ≠ key ∧ ks n ≠ 2 ^ 64 - 1
          ∧ ownQuad (h.base + 16 * (((qmix64 (BitVec.ofNat 64 key) h.seed).toNat + n) % h.slots)) d s = .ok (ks n) s) →
        probeTable h d key v (List.range h.probes) s = .ok false s)
    ∧ (∀ (h : HashTable) (key v j : Nat) (ks : Nat → Nat),
        let at' (n : Nat) : Nat := h.base + 16 * (((qmix64 (BitVec.ofNat 64 key) h.seed).toNat + n) % h.slots)
        j < h.probes → (∀ n, n ≤ j → ownQuad (at' n) d s = .ok (ks n) s) → (∀ n, n < j → ks n ≠ key ∧ ks n ≠ 2 ^ 64 - 1) →
        (ks j = key → ∀ old u, ownQuad (at' j + 8) d s = .ok old s →
          putOwnQuad (at' j + 8) (if h.op = 0 then (old + v) % 2 ^ 64 else if h.op = 1 then (old + 1) % 2 ^ 64 else max old v) d s
            = .ok () u → probeTable h d key v (List.range h.probes) s = .ok true u)
        ∧ (ks j ≠ key → ks j = 2 ^ 64 - 1 → ∀ u z, putOwnQuad (at' j) key d s = .ok () u →
          putOwnQuad (at' j + 8) (if h.op = 1 then 1 else v) d u = .ok () z →
          probeTable h d key v (List.range h.probes) s = .ok true z)))
  ∧ (∀ (s : State) (k : KReg) (vd vs1 xt : Reg),
    let t := s.me
    let i := Instr.vnfa k vd vs1 xt
    let os := [t.opw vs1, t.opw vd, t.dst vd]
    let ok := (t.fmt == .int || t.fmt == .uint) && t.ew == 64 && (t.disjoint vd vs1 && (t.readX xt).toNat % 64 == 0)
    let fill := fillState t os k 1
    vectorTraps i s ok os
    ∧ (vectorReady s os → ok = true →
      (fill = .unfilled → holdsFor i s .stream)
      ∧ (fill ≠ .unfilled → ∀ steps stop z,
          untilTrap ((elemRange t.vstart (match fill with | .stop e _ _ => min e t.vl | _ => t.vl)).filter (t.kbit k)) (fun e => do
            let v := t.read (t.opw vs1) 64 e
            let table := t.readX xt + BitVec.ofNat 64 (4096 * (v / 256 % 1024))
            let start ← loadN (← getS).vagent t.scope (table + 2048) 8
            let step ← loadN (← getS).vagent t.scope (table + BitVec.ofNat 64 (8 * (v % 256))) 8
            pure (e, (2 * t.elem vd.toNat 64 e % 2 ^ 64 ||| start) &&& step)) s = .ok (steps, stop) z →
          let f (e : Nat) : FRes := ⟨(steps.lookup e).getD 0, 0⟩
          match (match stop, fill with | none, .stop e c a => some (e, c, a) | x, _ => x) with
          | none => ∃ lanes, writtenInto t lanes vd 64 (.masked t k t.vl t.vlmax) f
              ∧ completesAs i s (mapMe (fun t => { vectorDone t with
                  lanes := lanes, vstate := 3, streams := streamsAfter s.me os }) z)
          | some (e, c, a) => ∃ lanes, writtenInto t lanes vd 64 { Elements.masked t k e 0 with tail := 0 } f
              ∧ stopsAt i s os (mapMe (fun t => { t with lanes := lanes }) z) e c a)))

/-- R308, R309: `vkvpos` writes the positions, or the scales, of the tokens of a binding's last pop; `vkvmass` adds masses to
the records of those tokens, one FP32 addition each at device scope. -/
def Obligations.KvPositionsAndMasses : Prop :=
  ∀ (s : State) (k : KReg) (vd vs1 vn : Reg),
    let t := s.me
    let on := t.vstate ≠ 0 ∧ t.vill = false
    let isInt := t.fmt == .int || t.fmt == .uint
    let traps' (i : Instr) (ok : Bool) : Prop := ∀ w, encode i = some w →
      (t.vstate = 0 → traps i s causeFirstUse (w.zeroExtend 64))
      ∧ (t.vstate ≠ 0 → t.vill = true → traps i s causeIllegal (w.zeroExtend 64))
      ∧ (on → t.kvmbase.getLsbD 0 = false → traps i s causeOperand 0)
      ∧ (on → t.kvmbase.getLsbD 0 = true → ok = false → traps i s causeOperand (w.zeroExtend 64))
    (let i := Instr.vkvpos k vd vn
     let os := [t.dst vd]
     let ok := ((t.ew == 32 && isInt) || (t.ew == 8 && t.fmt == .uint)) && (t.kvBinding vn).isSome && t.opsOk os
     traps' i ok ∧ (on → t.kvmbase.getLsbD 0 = true → ok = true → ∀ b x kvm, t.binding vn.toNat = .kv b x kvm →
       vectorGives i s .ready id os vd t.ew (.masked t k t.vl t.vlmax) fun e =>
         ⟨if t.ew = 32 then (match b.lastPop[e]?.join with | some p => p.pos | none => 2 ^ 32 - 1)
          else match b.lastPop[e / (b.hd / 32)]?.join with
            | some p => if b.scaled then (p.scales.getD (e % (b.hd / 32)) 0).toNat else 0x7F
            | none => 0x7F, 0⟩))
    ∧ (let i := Instr.vkvmass k vs1 vn
       let os := [t.opw vs1]
       let ok := t.fmt == .fp32 && (t.kvBinding vn).isSome && t.opsOk os
       let fill := fillState t os k 1
       traps' i ok ∧ (on → t.kvmbase.getLsbD 0 = true → ok = true → ∀ b x kvm, t.binding vn.toNat = .kv b x kvm →
         (fill = .unfilled → holdsFor i s .stream)
         ∧ (fill ≠ .unfilled → ∀ ps stop u,
             let hi := match fill with | .stop e _ _ => min e t.vl | _ => t.vl
             untilTrap ((elemRange t.vstart hi).filter fun e => t.kbit k e && (b.lastPop[e]?.join).isSome) (fun e => do
               let s ← getS
               let p := (b.lastPop[e]?.join).getD { frame := 0, slot := 0, pos := 0, scales := [] }
               let va := kvRecord s kvm p.frame + BitVec.ofNat 64 (1088 + 4 * p.slot)
               planElem (s.vagent.atS x) .atomic .device false e [{ addr := va, n := 4, bits := 32 }]) s = .ok (ps, stop) u →
             performs i s os none 1 ps (match stop, fill with | none, .stop e c a => some (e, c, a) | x, _ => x) u fun y =>
               forList y.parts fun p => do
                 let s ← getS
                 let _ ← rmwLoc (s.vagent.atS x) .device p.1 4 p.2.addr fun m =>
                   some (fp32.add .rne false (fp32.decode false m) (fp32.decode false (t.read (t.opw vs1) 32 y.e))).bits)))

/-! ## The vector configuration -/

/-- R104, R105, R90, R172: `setvl` and `setvlc` apply the pending lane change, set the configuration, grant a strip, write rd
and c7 and open the strip; a strip breakpoint traps after them (R343). All three wait until every earlier vector
instruction of the sequencer has completed. `valloc` sets the allotment and clears every
vector and mask register. -/
def Obligations.VectorConfiguration : Prop :=
  ∀ (s : State) (rd rs1 : Reg) (image : BitVec 15) (n : AllocN),
    let m := s.me
    let img : Word := image.zeroExtend 64
    let round (g : Nat) : Nat := if image.extractLsb' 0 3 = 1 ∧ 4 ≤ g then g - g % 4 else g
    let lanes (u : Slot) (c : CoreId) : Word := u.pending &&& ~~~(s.core c).lanemap
    let opens (captured : Word) (chidx : Word) (g : Nat) (u : Slot) : Slot :=
      let v := ({ u with vtype := if u.vlmaxOf img = 0 then villWord else img, vl := if u.vlmaxOf img = 0 then 0 else g } : Slot).cutMasks
      { (v.writeX rd (BitVec.ofNat 64 v.vl)).writeC 7 (v.vl != 0) with
        vstart := 0, vstate := 3, chidx := chidx, setvlAddr := u.pc, captured := captured, strip := u.strip + 1 }
    let breaks (u : Slot) : Bool := !u.sup && (Word.field u.bpctl 32 2 == 2 || (Word.field u.bpctl 32 2 == 1 && u.bpaddr == u.pc
      && (u.bpctl.extractLsb' 0 32 == u.strip || u.bpctl.extractLsb' 0 32 == BitVec.allOnes 32)))
    let ends (i : Instr) (u : State) : Prop :=
      (breaks u.me = false → completesAs i s u)
      ∧ (breaks u.me = true → ∃ t, RetiresTo (turnsOver s u) t ∧ exec i s = .next (takeTrap causeBreak m.pc t.me.pc t))
    let off (i : Instr) : Prop := m.vstate = 0 → ∀ w, encode i = some w → traps i s causeFirstUse (w.zeroExtend 64)
    (let i := Instr.setvl rd rs1 image
     off i ∧ (m.vstate ≠ 0 →
       (s.vecDone = false → holdsFor i s .transit)
       ∧ (s.vecDone = true → lanes m (coreOf s.cur) = 0 → holdsFor i s .lane)
       ∧ (s.vecDone = true → lanes m (coreOf s.cur) ≠ 0 →
           let u := applyLanes s.cur s
           ends i (mapMe (opens (m.readX rs1) 0 (round (min (m.readX rs1).toNat (u.me.vlmaxOf img)))) u))))
    ∧ (let i := Instr.setvlc rd rs1 image
       let a := m.readX rs1
       let sc := (Scope.ofBits (image.extractLsb' 12 3)).getD .device
       let again := match m.waiting with | some h => h.kind == .chain | none => false
       let next : Slot := { m with lpart := if again then m.lpart else lanes m (coreOf s.cur) }
       let lane (v : State) : State := if again then v else applyLanes s.cur v
       let goes := again = true ∨ s.vecDone = true ∧ next.lpart ≠ 0
       off i ∧ (m.vstate ≠ 0 → (a.toNat % 32 ≠ 0 → traps i s causeAlignment a)
         ∧ (a.toNat % 32 = 0 →
           (again = false → s.vecDone = false → holdsFor i s .transit)
           ∧ (again = false → s.vecDone = true → next.lpart = 0 → holdsFor i s .lane)
           ∧ (goes → next.vlmaxOf img = 0 → ends i (mapMe (opens 0 0 0) (lane s)))
           ∧ (goes → next.vlmaxOf img ≠ 0 → ∀ hw total q2 cons u,
               quadsAt s.agent sc a 4 s = .ok [hw, total, q2, cons] u →
               (q2.toNat / 2 ≠ 0 → exec i s = .next (takeTrap causeOperand a m.pc (turnsOver s u)))
               ∧ (q2.toNat / 2 = 0 →
               let v := refreshTo (coreOf u.cur) (scopeLevel sc) false u
               let avail := min hw.toNat total.toNat - cons.toNat
               let g := round (min avail (next.vlmaxOf img))
               (total.toNat ≤ cons.toNat → ends i (mapMe (opens 0 cons 0) (lane v)))
               ∧ (cons.toNat < total.toNat → (hw.toNat ≤ cons.toNat
                     ∨ (image.extractLsb' 0 3 = 1 ∧ avail < 4 ∧ 4 ≤ total.toNat - cons.toNat)) →
                   ∃ h, exec i s = .next (mapMe (fun m => { m with waiting := some h }) (turnsOver s (lane v))) ∧ h.kind = .chain)
               ∧ (cons.toNat < total.toNat → cons.toNat < hw.toNat →
                   ¬ (image.extractLsb' 0 3 = 1 ∧ avail < 4 ∧ 4 ≤ total.toNat - cons.toNat) → ∀ y,
                   storeN s.agent sc (a + 24) 8 (cons.toNat + g) v = .ok () y →
                   ends i (mapMe (opens (total - cons) cons g) (lane y))))))))
    ∧ (let i := Instr.valloc n
       let bound := m.streams.toList.any Binding.bound
       (s.vecDone = false → holdsFor i s .transit)
         ∧ (s.vecDone = true → n.regs ≠ 32 → bound = true → traps i s causeOperand (BitVec.ofNat 64 n.regs))
         ∧ (s.vecDone = true → n.regs = 32 ∨ bound = false → completes i s fun m =>
             let v : Slot := { m with valloc := n.regs, lanes := Vector.replicate 64 0, masks := Vector.replicate 8 0
                                      vl := 0, vstart := 0, vstate := 3 }
             { v with vtype := if v.vill = false ∧ v.vlmax = 0 then villWord else v.vtype }))

/-! ## Traps, system instructions, waits and barriers -/

/-- R101, R318, R102: trap entry saves the address, the cause, the value and the level, goes to S at the handler, empties the
strip-progress table and detaches a gang member; nothing else changes. `eret` needs S and an aligned `epc`, and gives
back the level and the address. -/
def Obligations.TrapEntryAndReturn : Prop :=
  (∀ (s : State) (c : Nat) (v e : Word),
    let t := takeTrap c v e s
    t = { s with slots := t.slots } ∧ (∀ q, q ≠ s.cur → t.slot q = s.slot q)
    ∧ t.me = { s.me with
        epc := e, ecause := BitVec.ofNat 64 c, etval := v, pc := s.me.evec &&& ~~~3#64, spt := []
        status := if s.me.status.getLsbD 0 then 5 else 1
        gpos := none, waiting := none, pmPoint := false, vbegun := none, overwrites := [] })
  ∧ (∀ s : State,
    let sup := s.me.status.getLsbD 0
    (∀ w, encode .eret = some w → sup = false → traps .eret s causePrivilege (w.zeroExtend 64))
    ∧ (sup = true → s.me.epc.toNat % 4 ≠ 0 → traps .eret s causeMisaligned s.me.epc)
    ∧ (sup = true → s.me.epc.toNat % 4 = 0 →
        jumps .eret s (fun t => { t with status := BitVec.ofNat 64 (t.status.toNat / 4 % 4) }) s.me.epc false))

/-- R102, R50, R34, R319: the other system instructions, a word that is no instruction, and a fault on fetching one. `ecall`
and `ebreak` retire before their trap. -/
def Obligations.SystemInstructions : Prop :=
  ∀ (s : State) (rs1 rs2 : Reg) (w : IWord) (c : Nat) (a : Word),
    let after (i : Instr) (cause : Nat) : Prop :=
      ∃ t, RetiresTo (turnsOver s s) t ∧ exec i s = .next (takeTrap cause s.me.pc t.me.pc t)
    let va := s.me.readX rs1
    let as := s.me.readX rs2
    let dropped (e : Cached) : Prop := e.part = s.me.part ∧ (rs1 = 0 ∨ e.vpage = va.toNat / 2 ^ (15 + 12 * e.level))
      ∧ (rs2 = 0 ∨ e.asid = none ∨ e.asid = some (as.extractLsb' 0 16))
    let busy : Prop := (∃ h ∈ s.transit, h.part = some s.me.part) ∨ ∃ j ∈ (s.part s.me.part).darn, j.line ≠ none
    after .ecall causeCall ∧ after .ebreak causeBreak
    ∧ (∀ v, encode (.ptflush rs1 rs2) = some v → s.me.status.getLsbD 0 = false →
        traps (.ptflush rs1 rs2) s causePrivilege (v.zeroExtend 64))
    ∧ (s.me.status.getLsbD 0 = true → busy → holdsFor (.ptflush rs1 rs2) s .transit)
    ∧ (s.me.status.getLsbD 0 = true → ¬ busy →
        ∃ l, completesAs (.ptflush rs1 rs2) s { s with cached := l } ∧ ∀ e, e ∈ l ↔ e ∈ s.cached ∧ ¬ dropped e)
    ∧ (∀ u, releaseAt .device true s = .ok () u →
        completesAs .icflush s (mapCluster (clusterOf s.cur) (fun k => { k with icache := [] })
          (mapCore (coreOf s.cur) (fun k => { k with icache := [] }) u)))
    ∧ completes .nopSys s id
    ∧ exec (.illegalInstruction w) s = .next (takeTrap causeIllegal (w.zeroExtend 64) s.me.pc s)
    ∧ exec (.instructionFetchFault c a) s = .next (takeTrap c a a s)

/-- R210, R187, R190, R205, R206: `wait` stalls until its counts are met, and then acquires what the operations that it
observed have written; `fence` releases, acquires, or both; `qfence` is remembered by later operations; `bar`, `arrive`
and `await`. -/
def Obligations.Synchronization : Prop :=
  ∀ s : State,
    let c := coreOf s.cur
    (∀ ld st cp tt : BitVec 4,
      let met (x : BitVec 4) (n : Nat) : Prop := x = 15 ∨ n ≤ x.toNat
      let all := met st ((s.transit.filter fun h => h.isStore && h.owner == some s.cur).map (·.tick)).eraseDups.length
        ∧ met cp ((s.core c).copies.filter fun o => o.seq == s.cur).length
        ∧ met tt ((s.cluster (clusterOf s.cur)).tasks.filter fun t => t.seq == s.cur).length
      let reach := max (if cp = 15 then 0 else s.me.doneCp) (if tt = 15 then 0 else s.me.doneTt)
      (¬ all → holdsFor (.wait ld st cp tt) s .counts)
      ∧ (all → completesAs (.wait ld st cp tt) s (mapMe (fun t => { t with
          doneCp := if cp = 15 then t.doneCp else 0
          doneTt := if tt = 15 then t.doneTt else 0 }) (refreshTo c reach false s))))
    ∧ (∀ (o : FenceOrder) (sc : Scope) (uo : BitVec 1) (u : State),
        (if o = .acq then u = s else releaseAt sc (uo == 1) s = .ok () u) →
        completesAs (.fence o sc uo) s (if o = .rel then u else refreshTo c (scopeLevel sc) (uo == 1) u))
    ∧ (∀ (queues : BitVec 4) (tt : BitVec 1), completes (.qfence queues tt) s fun t =>
        { t with fences := t.fences ++ [{ mask := tt ++ queues, before := t.opNext }] })
    ∧ (∀ level : BitVec 3,
        let l := level.toNat
        let bad := s.me.launch = none ∨ ∃ p, s.me.launch = some p ∧ barScope s p.1 l = none
        let again := match s.me.waiting with | some h => h.kind == HoldKind.barrier | none => false
        (bad → traps (.bar level) s causeOperand (BitVec.ofNat 64 l))
        ∧ (∀ launch n sc u, s.me.launch = some (launch, n) → barScope s launch l = some sc →
            (if again then u = s else releaseAt sc false s = .ok () u) →
            (allArrived u launch n l = true →
              completesAs (.bar level) s { refreshTo c (scopeLevel sc) false u with
                launches := u.launches.modify launch fun k =>
                  { k with parts := k.parts.modify n fun p => { p with arrived := bumpAt p.arrived l } } })
            ∧ (allArrived u launch n l = false →
              ∃ h : Held, exec (.bar level) s = .next (mapMe (fun m => { m with waiting := some h }) (turnsOver s u))
                ∧ h.kind = .barrier)))
    ∧ (∀ rs1 rs2 : Reg,
        let b := s.me.readX rs1
        (b.toNat % 16 ≠ 0 → traps (.arrive rs1) s causeAlignment b ∧ traps (.await rs1 rs2) s causeAlignment b)
        ∧ (b.toNat % 16 = 0 → ∀ q1 u, loadN s.agent .sequencer (b + 8) 8 s = .ok q1 u →
          let fits := q1 / 2 ^ 35 = 0 ∧ q1 / 2 ^ 32 % 8 < 6 ∧ q1 % 2 ^ 32 ≠ 0
          let sc := barrierScope q1
          (¬ fits → exec (.arrive rs1) s = .next (takeTrap causeOperand b s.me.pc (turnsOver s u))
            ∧ exec (.await rs1 rs2) s = .next (takeTrap causeOperand b s.me.pc (turnsOver s u)))
          ∧ (fits → ∀ v old w, releaseFor s.agent sc false u = .ok () v →
              atomicAt s.agent sc b 8 (fun q0 => some (
                let pending := q0 % 2 ^ 32
                if pending ≤ 1 then (q0 / 2 ^ 32 + 1) % 2 ^ 32 * 2 ^ 32 + q1 % 2 ^ 32 else q0 - 1)) v = .ok old w →
              completesAs (.arrive rs1) s (refreshTo c (scopeLevel sc) false w))
          ∧ (fits → ∀ q0 v, loadN s.agent sc b 8 u = .ok q0 v →
              let w := refreshTo c (scopeLevel sc) false v
              (q0 / 2 ^ 32 ≠ (s.me.readX rs2).toNat % 2 ^ 32 → completesAs (.await rs1 rs2) s w)
              ∧ (q0 / 2 ^ 32 = (s.me.readX rs2).toNat % 2 ^ 32 →
                ∃ h : Held, exec (.await rs1 rs2) s = .next (mapMe (fun m => { m with waiting := some h }) (turnsOver s w))
                  ∧ h.kind = .phase))))

/-- R173 with R159, R168, R170 to R172, R205, R206, R208, R210, R247: the moment at which a wait may end runs the waiting
instruction again, from the beginning; where the slot does not wait in that way, nothing happens. -/
def Obligations.ResumedWaits : Prop :=
  ∀ (s : State) (q : SeqId),
    let u : State := { s with cur := q }
    let kinds : List (Instr × HoldKind) := [(.gjoinTimeout q, .gang), (.awaitPhaseChange q, .phase), (.waitConditionMet q, .counts),
      (.setvlcResume q, .chain), (.issueCapacityFreed q, .capacity), (.spillSpaceFreed q, .spill), (.jobQueueRoom q, .jobs)]
    (∀ e k, (e, k) ∈ kinds → (∀ h, (s.slot q).waiting = some h → (s.slot q).busy = true → deviceStopped s = false → h.kind ≠ k) →
      exec e s = .next s)
    ∧ (∀ h i, (s.slot q).waiting = some h → (s.slot q).busy = true → deviceStopped s = false → encode i = some h.word →
        let again (e : Instr) : Prop := ∃ t, exec e s = .next t ∧ exec i u = .next t
        (h.kind = .gang → (∃ off, i = .gjoin off) → again (.gjoinTimeout q))
        ∧ (h.kind = .phase → (∃ a b, i = .await a b) → again (.awaitPhaseChange q))
        ∧ (h.kind = .counts → (∃ ld st cp tt, i = .wait ld st cp tt) → again (.waitConditionMet q))
        ∧ (h.kind = .chain → (∃ rd rs1 im, i = .setvlc rd rs1 im) → again (.setvlcResume q))
        ∧ (h.kind = .capacity → (∃ a b rd rs1 rs2, i = .tcopy a rs1 ∨ i = .copy1d b rd rs1 rs2 ∨ i = .tqtile rs1 ∨ i = .mstage rs1
            ∨ i = .mchain rs1 ∨ i = .mdense rs1 ∨ i = .mload rs1 ∨ i = .mstore rs1 ∨ i = .mzero rs1) → again (.issueCapacityFreed q))
        ∧ (h.kind = .spill → (∃ rd rs1 rs2 csr, i = .tspawn rs1 ∨ i = .tjoin rs1 rs2 ∨ i = .csrrw rd csr rs1
            ∨ i = .csrrs rd csr rs1 ∨ i = .csrrc rd csr rs1) → again (.spillSpaceFreed q))
        ∧ (h.kind = .jobs → (∃ rs1, i = .darn rs1 ∨ i = .mangle rs1 ∨ i = .launder rs1) → again (.jobQueueRoom q))
        ∧ (∀ launch n level, h.kind = .barrier → i = .bar level →
            allSeqs.find? (fun r => (s.slot r).busy && (s.slot r).launch == some (launch, n)) = some q →
            again (.barrierRelease launch n level)))
    ∧ (∀ launch n level, (∀ r, (s.slot r).busy = true → (s.slot r).launch ≠ some (launch, n)) →
        exec (.barrierRelease launch n level) s = .next s)

/-! ## Threads, gangs and lanes -/

/-- R165 to R168, R197 to R200: `texit`, `tspawn`, `tjoin` and `hwpub`; a record joins its queue at the tail, and one beyond
the 64 at the head stands in the spill region. -/
def Obligations.TaskInstructions : Prop :=
  ∀ (s : State) (rs1 rs2 : Reg),
    let m := s.me
    let a := m.readX rs1
    let b := m.readX rs2
    let cl := clusterOf s.cur
    let holds (i : Instr) (u : State) (k : HoldKind) : Prop :=
      ∃ h : Held, exec i s = .next (mapMe (fun m => { m with waiting := some h }) (turnsOver s u)) ∧ h.kind = k
    let idle := (s.transit.filter fun h => h.isStore && h.owner == some s.cur) = []
      ∧ ((s.core (coreOf s.cur)).copies.filter fun o => o.seq == s.cur) = []
      ∧ ((s.cluster cl).tasks.filter fun t => t.seq == s.cur) = []
    (let i := Instr.texit
     (¬ idle → holdsFor i s .drain)
     ∧ (idle → m.xjoin ≠ 0 → m.xjoin.toNat % 8 ≠ 0 → traps i s causeAlignment m.xjoin)
     ∧ (idle → m.xjoin = 0 → m.xdone ≠ 0 → m.xdone.toNat % 8 ≠ 0 → traps i s causeAlignment m.xdone)
     ∧ (idle → ∀ u1 u2 u3 u4 u5 u6 v1 v2, counterReady .cluster m.xjoin s = .ok () u1 → counterReady .system m.xdone u1 = .ok () u2 →
         releaseAt (if m.xdone ≠ 0 then .system else .cluster) false u2 = .ok () u3 → unbindAll u3 = .ok () u4 →
         (if m.xjoin = 0 then u5 = u4
          else ∃ u, exitDecrement .cluster m.xjoin u4 = .ok v1 u ∧ u5 = (if v1 = 0 then pokeWaiting cl u else u)) →
         (if m.xdone = 0 then u6 = u5
          else ∃ u, exitDecrement .system m.xdone u5 = .ok v2 u ∧ u6 = (if v2 = 0 then raiseVector m.part 2 u else u)) →
         exec i s = .next (turnsOver s (endThread s.cur (participantGone s.cur u6)))))
    ∧ (let i := Instr.tspawn rs1
       (a.toNat % 32 ≠ 0 → traps i s causeAlignment a)
       ∧ (a.toNat % 32 = 0 → ∀ c e u, readCont a s = .error (.trap c e) u →
           exec i s = .next (takeTrap c e m.pc (turnsOver s u)))
       ∧ (a.toNat % 32 = 0 → ∀ r u, readCont a s = .ok r u →
           let k := contRec m.part a r u.cycle
           (queueRoom u cl m.part k.level = false → holds i u .spill)
           ∧ (queueRoom u cl m.part k.level = true → ∀ v, releaseAt .cluster false u = .ok () v →
             completesAs i s (enqueueCont cl k v))))
    ∧ (let i := Instr.tjoin rs1 rs2
       (a.toNat % 8 ≠ 0 → traps i s causeAlignment a)
       ∧ (a.toNat % 8 = 0 → b.toNat % 32 ≠ 0 → traps i s causeAlignment b)
       ∧ (a.toNat % 8 = 0 → b.toNat % 32 = 0 → ∀ v u, loadN s.agent .cluster a 8 s = .ok v u →
           let u1 := refreshTo (coreOf s.cur) (scopeLevel .cluster) false u
           (v = 0 → completesAs i s u1)
           ∧ (v ≠ 0 → ∀ r u2, readCont b u1 = .ok r u2 →
               let k := contRec m.part b r u2.cycle
               (queueRoom u2 cl m.part k.level = false → holds i u2 .spill)
               ∧ (queueRoom u2 cl m.part k.level = true → drained u2 = .error (.wait .drain) u2 → holds i u2 .drain)
               ∧ (queueRoom u2 cl m.part k.level = true → drained u2 = .ok () u2 → ∀ u3 u4,
                   releaseAt .cluster false u2 = .ok () u3 → unbindAll u3 = .ok () u4 →
                   ∃ w, w.ctr = a ∧ w.core = coreOf s.cur ∧ w.ctx = m.ctx ∧ w.poked = true
                     ∧ exec i s = .next (turnsOver s (endThread s.cur (participantGone s.cur
                       (enqueueCont cl { k with xdone := m.xdone, awaited := some w } u4))))))))
    ∧ (let i := Instr.hwpub rs1 rs2
       (a.toNat % 32 ≠ 0 → traps i s causeAlignment a)
       ∧ (a.toNat % 32 = 0 → ∀ old tot u1 u, loadN s.agent .sequencer a 8 s = .ok old u1 →
           loadN s.agent .sequencer (a + 8) 8 u1 = .ok tot u →
           (b.toNat < old ∨ tot < b.toNat → exec i s = .next (takeTrap causeOperand b m.pc (turnsOver s u)))
           ∧ (old ≤ b.toNat → b.toNat ≤ tot → ∀ l u2 u3 u4 u5, translate s.agent .store a u = .ok l u2 →
               releaseAt m.scope false u2 = .ok () u3 →
               (if b.toNat = tot then storeN s.agent m.scope (a + 16) 8 1 u3 = .ok () u4 else u4 = u3) →
               storeN s.agent m.scope a 8 b.toNat u4 = .ok () u5 → completesAs i s (pokeAwaits cl m.part a u5))))
    ∧ (let q := queueAt s cl m.part
       ∀ r : ContRec, r.part = m.part →
         let n := spillEntries (s.part m.part).spill
         ((q r.level).length < 64 ∨ n = 0 → enqueueCont cl r s
           = mapCluster cl (fun c => { c with queue := c.queue ++ [{ r with spilled := none }] }) s)
         ∧ (64 ≤ (q r.level).length → n ≠ 0 → ∃ i, i < n
           ∧ ((enqueueCont cl r s).cluster cl).queue
             = (s.cluster cl).queue ++ [{ r with spilled := some (spillSlice (s.part m.part).spill cl r.level + 64 * i) }]))

/-- R31 and R166: the state of a thread that a record has started: its entry, x4 and x5 from the record, every other scalar
register 0 and c1 to c7 clear, its lanes and allotment, vector state initial with no valid configuration, and the trap
registers as they were. -/
def Obligations.ThreadStart : Prop :=
  ∀ (s : State) (q : SeqId) (i : ThreadInit) (units : List Nat),
    let t := (startThread q i units s).slot q
    let old := s.slot q
    let p := s.part i.part
    let lanes := lanesOfUnits units &&& ~~~(s.core (coreOf q)).lanemap
    t.busy = true ∧ t.part = i.part ∧ t.pc = i.entry
    ∧ (∀ r : Reg, t.readX r = if r = 4 then i.arg else if r = 5 then i.x5 else 0)
    ∧ (∀ n : CBit, t.readC n = decide (n = 0))
    ∧ t.lpdepth = 0 ∧ t.vstate = 1 ∧ t.vill = true ∧ t.vl = 0 ∧ t.vstart = 0 ∧ t.valloc = i.alloc ∧ t.vceil = i.vceil
    ∧ (∀ (r : Reg) w e, t.elem r.toNat w e = 0) ∧ (∀ (k : KReg) e, k ≠ 0 → t.kbit k e = false)
    ∧ t.lpart = lanes ∧ t.pending = lanes ∧ t.request = i.request ∧ t.fflags = 0 ∧ t.frm = 0
    ∧ t.status = (if i.sup then 1 else 0) ∧ t.xjoin = i.xjoin ∧ t.xdone = i.xdone
    ∧ t.gslot.toNat = q.val % 4 ∧ t.gmember = i.gmember
    ∧ (t.epc, t.ecause, t.etval, t.evec) = (old.epc, old.ecause, old.etval, old.evec)
    ∧ (t.asid, t.ptbase, t.heatbase, t.kvmbase, t.hpasid) = (p.lasid, p.lptb, p.lheat, p.lkvm, p.lhpas)
    ∧ t.waiting = none ∧ t.spt = [] ∧ t.fences = [] ∧ t.ttres = []

/-- R158, R159, R203: the outcomes of `gjoin`, row by row, for every gang, position and hold; each row says where it retires and
where it holds. `gdetach` completes in every state. The delivery of a label (`gjoinRejoin`): every member that waits for it
within its T cycles gets its address, waits for nothing, and has its position in the stream, and no other slot changes. -/
def Obligations.GangStream : Prop :=
  (∀ (s : State) (off : BitVec 21),
    let i := Instr.gjoin off
    let m := s.me
    let cl := clusterOf s.cur
    let k := slotFin s.cur
    let l := m.pc + off.signExtend 64 * 4
    let waits : Prop := ∃ (u : State) (h : Held), RetireFrame s u ∧ u.me.pc = m.pc ∧ h.kind = .gang
      ∧ exec i s = .next (mapMe (fun m => { m with waiting := some h }) (turnsOver s u))
    let retires : Prop := jumps i s id l true
    let t := leadTimeout s cl k
    let late (h : GangHold) : Prop := t ≤ s.cycle - h.since
    let waited := match m.waiting with | some h => s.cycle - h.since | none => 0
    let here (g : Gang) (p : Nat) : Prop := s.gangOf s.cur = some g ∧ m.gmember = true ∧ m.gpos = some p
    let away (g : Gang) : Prop := s.gangOf s.cur = some g ∧ m.gmember = true ∧ m.gpos = none
    let awaits (j : Fin 8) : Prop := gangSeq cl k j ∈ awaitingLabel s cl k l
    (m.gmember = false ∨ s.gangOf s.cur = none → retires)
    ∧ (∀ g p, here g p → detachedIn s cl k = [] ∨ (g.path[p + 1 - g.base]?).isSome = true → retires)
    ∧ (∀ g p, here g p → attachedIn s cl k ≠ [] → detachedIn s cl k ≠ [] → g.path[p + 1 - g.base]? = none →
        (g.hold = none → t = 0 → retires)
        ∧ (g.hold = none → t ≠ 0 →
            ((∀ j ∈ detachedIn s cl k, awaits j) → retires) ∧ ((∃ j ∈ detachedIn s cl k, ¬ awaits j) → waits))
        ∧ (∀ h, g.hold = some h → (late h → p + 1 - g.base = g.path.length → retires)
            ∧ (late h → p + 1 - g.base ≠ g.path.length → retires ∨ waits)
            ∧ (¬ late h → waits)))
    ∧ (∀ g, away g → attachedIn s cl k = [] → ∃ t, exec i s = .next t ∧ t.me.pc = l ∧ t.me.waiting = none ∧ t.me.gpos ≠ none)
    ∧ (∀ g, away g → attachedIn s cl k ≠ [] → (∀ h, g.hold = some h → h.label ≠ l ∧ s.cur ∉ awaitingLabel s cl k h.label) →
        (m.gjtimeout.toNat ≤ waited → retires) ∧ (waited < m.gjtimeout.toNat → waits))
    ∧ (∀ g h, away g → attachedIn s cl k ≠ [] → g.hold = some h → h.label = l →
        let u := mapMe (fun t => { t with gpos := some h.pos }) s
        (¬ late h → m.waiting = none → (detachedIn u cl k ≠ [] → waits) ∧ (detachedIn u cl k = [] → retires))
        ∧ (late h → s.cur ∈ awaitingLabel s cl k l → ∃ t, exec i s = .next t ∧ t.me.pc = l ∧ t.me.waiting = none
            ∧ t.me.gpos = some (g.base + g.path.length))
        ∧ (late h ∨ m.waiting ≠ none → (late h → s.cur ∉ awaitingLabel s cl k l) →
            (m.gjtimeout.toNat ≤ waited → retires) ∧ (waited < m.gjtimeout.toNat → waits))))
  ∧ (∀ s : State, completes .gdetach s fun t => { t with gpos := none })
  ∧ (∀ (s : State) (c : ClusterId) (n : Fin 4),
    let i := Instr.gjoinRejoin c n
    let delivers (l : Word) (pos : Nat) (t : State) : Prop :=
      (∀ q ∈ awaitingLabel s c n l, (t.slot q).pc = l ∧ (t.slot q).waiting = none ∧ (t.slot q).gpos = some pos)
      ∧ ∀ q, q ∉ awaitingLabel s c n l → t.slot q = s.slot q
    ((s.cluster c).gangs[n] = none ∨ attachedIn s c n = [] → exec i s = .next s)
    ∧ (∀ g, (s.cluster c).gangs[n] = some g → attachedIn s c n ≠ [] →
        (g.hold = none → g.path = [] → exec i s = .next s)
        ∧ (∀ l, g.hold = none → g.path.getLast? = some l →
            ∃ t, exec i s = .next t ∧ RetireFrame s t ∧ delivers l.1 (g.base + g.path.length - 1) t)
        ∧ (∀ h, g.hold = some h → ∃ t, exec i s = .next t ∧ RetireFrame s t
            ∧ (if leadTimeout s c n ≤ s.cycle - h.since then delivers h.label (g.base + g.path.length) t
               else if ∀ j ∈ detachedIn s c n, gangSeq c n j ∈ awaitingLabel s c n h.label then
                 ((t.cluster c).gangs[n] = some { g with hold := none, path := g.path ++ [(h.label, none)] }
                   ∧ ∀ q, t.slot q = if q ∈ awaitingLabel s c n h.label then { s.slot q with gpos := some h.pos } else s.slot q)
               else ((t.cluster c).gangs[n] = some g
                   ∧ ∀ q, t.slot q = if q ∈ awaitingLabel s c n h.label then { s.slot q with gpos := some h.pos } else s.slot q)))))

/-- R204, R155, R335, R336: `lgrow` and `lshrink` change P and the request, never `lpart`; a lane retires when its slice has
reported an uncorrectable error or three corrected ones at one location, and is then in `lanemap` and in no thread's P. -/
def Obligations.LaneRequests : Prop :=
  ∀ (s : State) (rs1 : Reg) (c : CoreId) (lane : Fin 64),
    let n := (s.me.readX rs1).toNat
    let own := coreOf s.cur
    -- an uncorrectable error of the slice, or three corrected ones at one location within 2^24 cycles
    let due : Prop := lane.val ∈ (s.core c).laneErrors ∨ ∃ e ∈ (s.core c).corrected, e.1 = lane.val
      ∧ 3 ≤ ((s.core c).corrected.filter fun f => f.1 == lane.val && f.2.1 == e.2.1 && decide (e.2.2 ≤ f.2.2)
        && decide (f.2.2 ≤ e.2.2 + 2 ^ 24)).length
    (n = 0 ∨ 8 < n → traps (.lgrow rs1) s causeOperand (s.me.readX rs1) ∧ traps (.lshrink rs1) s causeOperand (s.me.readX rs1))
    ∧ (1 ≤ n → n ≤ 8 →
        completesAs (.lgrow rs1) s (reconsider own (if (s.core own).coreWait = none then
          mapMe (fun t => { t with pending := t.pending ||| (lanesOfUnits ((freeUnits s own).take n) &&& ~~~(s.core own).lanemap) }) s
          else s))
        ∧ completesAs (.lshrink rs1) s (reconsider own (mapMe (fun t =>
            let k := (unitsIn t.pending).length
            let less := min n (k - 1)
            { t with pending := t.pending &&& ~~~lanesOfUnits ((unitsIn t.pending).reverse.take less)
                     request := min t.request (k - less), elastic := false }) s)))
    ∧ ((s.core c).lanemap.getLsbD lane.val = true ∨ ¬ due → exec (.laneRetire c lane) s = .next s)
    ∧ ((s.core c).lanemap.getLsbD lane.val = false → due → ∃ t, exec (.laneRetire c lane) s = .next t
        ∧ (t.core c).lanemap = (s.core c).lanemap ||| (1#64 <<< lane.val)
        ∧ ∀ q, coreOf q = c → (t.slot q).busy = true → (t.slot q).pending.getLsbD lane.val = false)

/-- R323 to R325: a pending request is taken only at U and at a pre-emption point; it is a trap with code 18 at the program
counter, with the requester as its value; the thread's tile tasks are asked to stop and join its `ttres` list, and the
requester reads 1. -/
def Obligations.Preemption : Prop :=
  ∀ (s : State) (q : SeqId),
    let m := s.slot q
    let interruptible := ∃ h, m.waiting = some h ∧ h.kind ≠ .transit ∧ h.kind ≠ .page
    let due := m.busy = true ∧ m.pmPending ≠ [] ∧ m.status.getLsbD 0 = false ∧ (m.pmPoint = true ∨ m.lpdepth = 0 ∨ interruptible)
    let mine := (s.cluster (clusterOf q)).tasks.filter fun t => t.seq == q
    (¬ due → exec (.preemptionTaken q) s = .next s)
    ∧ (due → ∃ t, exec (.preemptionTaken q) s = .next t
        ∧ (let u := t.slot q
           u.epc = m.pc ∧ u.ecause = 18 ∧ u.status = 1 ∧ u.pc = m.evec &&& ~~~3#64 ∧ u.waiting = none ∧ u.pmPending = []
           ∧ u.etval = (match m.pmPending.head? with | some (.seq a) => BitVec.ofNat 64 a.val | _ => 0xFFFF)
           ∧ u.ttres = (m.ttres ++ mine.map (·.record)).take 128
           ∧ u.x = m.x ∧ u.cond = m.cond ∧ u.loops = m.loops ∧ u.lpdepth = m.lpdepth ∧ u.lanes = m.lanes ∧ u.masks = m.masks
           ∧ u.streams = m.streams ∧ u.vl = m.vl ∧ u.vtype = m.vtype ∧ u.vstart = m.vstart)
        ∧ (t.cluster (clusterOf q)).tasks
            = (s.cluster (clusterOf q)).tasks.map (fun k => if k.seq == q then { k with stop := true } else k)
        ∧ (∀ a, .seq a ∈ m.pmPending → (s.slot a).pmTarget = some q → (t.slot a).pmstat = 1)
        ∧ (∀ p, .host p ∈ m.pmPending → (s.part p).hpmTarget = some q → (t.part p).hpmResult = 1))

/-! ## Control and status registers -/

/-- R13, R29, R35, R49, R99, R100: the CSR instructions. The number, the level and the state of the vector unit are checked
first; then the old value is read and the new one written; a write with a reserved bit set traps, one to a register that
is read-only at the level is ignored. -/
def Obligations.CsrInstructions : Prop :=
  ∀ (s : State) (rd rs1 : Reg) (n : BitVec 14) (i : Instr) (reads writes : Bool) (f : Word → Word → Word),
    ((i = .csrrw rd n rs1 ∧ reads = (rd != 0) ∧ writes = true ∧ f = fun _ b => b)
      ∨ (i = .csrrs rd n rs1 ∧ reads = true ∧ writes = (rs1 != 0) ∧ f = fun t b => t ||| b)
      ∨ (i = .csrrc rd n rs1 ∧ reads = true ∧ writes = (rs1 != 0) ∧ f = fun t b => t &&& ~~~b)) →
    ∀ w, encode i = some w →
    let e : Word := w.zeroExtend 64
    let sup := s.me.status.getLsbD 0
    let c? := if n.toNat < 8192 then csrOf n.toNat else none
    (c? = none → traps i s causeIllegal e)
    ∧ (∀ c, c? = some c →
      let vec := n.toNat ≤ 4
      (4096 ≤ n.toNat → sup = false → traps i s causePrivilege e)
      ∧ (sup = false → vec → s.me.vstate = 0 → traps i s causeFirstUse e)
      ∧ (n.toNat < 4096 ∨ sup = true → sup = true ∨ ¬ vec ∨ s.me.vstate ≠ 0 → ∀ old u,
          (if reads then csrRead c s = .ok old u else old = 0 ∧ u = s) →
          let v := f old (if reads = true ∧ rd = rs1 ∧ rd ≠ 0 then old else s.me.readX rs1)
          let rw := c.access = .all ∨ (c.access = .superOnly ∧ sup = true)
          let written (t : Slot) : Slot := if reads then t.writeX rd old else t
          -- a write of `lpidxN` has its traps at either level
          let badIndex : Prop := ∃ n, c = .lpidx n ∧ (v &&& ~~~c.mask ≠ 0 ∨ s.me.lpdepth ≤ n.val)
          (writes = false ∨ (¬ rw ∧ ¬ badIndex) → completesAs i s (mapMe written u))
          ∧ (writes = true → (rw ∧ v &&& ~~~c.mask ≠ 0) ∨ (¬ rw ∧ badIndex) →
              exec i s = .next (takeTrap causeOperand e s.me.pc (turnsOver s u)))
          ∧ (writes = true → rw → v &&& ~~~c.mask = 0 →
              (∀ ends y, csrWritable c v w u = .ok ends y →
                (ends = false → completesAs i s (mapMe written y)) ∧ (ends = true → exec i s = .next (turnsOver s y)))
              ∧ (∀ k a y, csrWritable c v w u = .error (.trap k a) y →
                exec i s = .next (takeTrap k a s.me.pc (turnsOver s y))))))

/-- The rows that name the write of one CSR (R18, R19, R24, R27, R28, R30, R105, R203, R226, R233, R274, R296, R310, R323,
R329, R331, R332, R336, R338, R346): what is written, and when it traps with which value; the program counter stays, as the
instruction around the write is a CSR instruction (log entry 20), and the word that a trap names is that of
`csrrw x0, csr, x0`. What a write leaves of other registers (`vl`, the levels of the loop stack) is the model's choice (log
entry 69). -/
def Obligations.CsrWrites : Prop :=
  ∀ (s : State) (v : Word) (n : Fin 6) (k : Fin 8) (rd : Reg),
    let m := s.me
    let cl := clusterOf s.cur
    let core := s.core (coreOf s.cur)
    let sup := m.status.getLsbD 0
    let word (csr : Nat) : Word := ((encode (.csrrw 0 (BitVec.ofNat 14 csr) 0)).getD 0).zeroExtend 64
    let now (i : Instr) (u : State) : Prop := exec i s = .next (turnsOver s u)
    let refused (i : Instr) (c : Nat) (e : Word) (u : State) : Prop := exec i s = .next (takeTrap c e m.pc (turnsOver s u))
    let gives (i : Instr) (csr : Nat) (ok : Bool) (f : Slot → Slot) : Prop :=
      if ok then now i (mapMe f s) else refused i causeOperand (word csr) s
    -- a register of R29's U range that only S writes: U's writes are ignored
    let atS (i : Instr) (csr : Nat) (vec ok : Bool) (f : Slot → Slot) : Prop :=
      if sup then gives i csr ok f
      else if vec && m.vstate == 0 then refused i causeFirstUse (word csr) s else now i s
    -- a register of the S range
    let onlyS (i : Instr) (csr : Nat) (run : Prop) : Prop := if sup then run else refused i causePrivilege (word csr) s
    let below (b : Nat) : Bool := decide (v.toNat < 2 ^ b)
    let allowed (mask : Word) : Prop := v &&& ~~~mask = 0
    let desc (r : Word) : Nat := r.toNat / 64 % 2 ^ 46 * 64
    -- a register that names a descriptor, with the check of its map
    let described (i : Instr) (csr : Nat) (ok : List Word → Bool) (f : Slot → Slot) : Prop :=
      (¬ allowed 0xFFFFFFFFFFFC1 → refused i causeOperand (word csr) s)
      ∧ (allowed 0xFFFFFFFFFFFC1 → v.getLsbD 0 = false → now i (mapMe f s))
      ∧ (allowed 0xFFFFFFFFFFFC1 → v.getLsbD 0 = true →
          (hbmTop ≤ desc v → refused i causeOperand (BitVec.ofNat 64 (desc v)) s)
          ∧ (desc v < hbmTop → ∀ q u, descQuads (desc v) s = .ok q u →
              if ok q then now i (mapMe f u) else refused i causeOperand (BitVec.ofNat 64 (desc v)) u))
    -- waits until the accesses of the sequencer have performed
    let done : Bool := decide (heldBy s s.cur = 0)
    atS (.vtypeWrite v) 1 true (v &&& ~~~0x8000000000007FFF#64 == 0) (fun t =>
      if t.vlmaxOf (v &&& 0x7FFF) = 0 then { t with vtype := 0x8000000000000000, vl := 0 }.cutMasks
      else { t with vtype := v &&& 0x7FFF }.cutMasks)
    ∧ atS (.vlWrite v) 0 true (decide (v.toNat ≤ m.vlmax)) (fun t => { t with vl := v.toNat })
    ∧ (if sup = false ∧ m.vstate = 0 then refused (.vstartWrite v) causeFirstUse (word 2) s
       else gives (.vstartWrite v) 2 (below 20) fun t => { t with vstart := v.toNat, vstate := if sup then t.vstate else 3 })
    ∧ (if sup then
         (if v ≠ 8 ∧ v ≠ 16 ∧ v ≠ 32 then refused (.vallocWrite v) causeOperand v s
          else if s.vecDone = false then exec (.vallocWrite v) s = .next s
          else if v ≠ 32 ∧ m.streams.toList.any Binding.bound = true then refused (.vallocWrite v) causeOperand v s
          else now (.vallocWrite v) (mapMe (fun t =>
            let t := { t with valloc := v.toNat, lanes := Vector.replicate 64 0, masks := Vector.replicate 8 0, vl := 0, vstart := 0 }
            if t.vill = false ∧ t.vlmax = 0 then { t with vtype := 0x8000000000000000 } else t) s))
       else if m.vstate = 0 then refused (.vallocWrite v) causeFirstUse (word 3) s else now (.vallocWrite v) s)
    ∧ atS (.vstateWrite v) 6 false (below 2) (fun t => { t with vstate := v.extractLsb' 0 2 })
    ∧ gives (.lpcntWrite n v) (0x11 + n.val) (below 32 && decide (n.val < m.lpdepth))
        (fun t => t.setLevel n { t.level n with cnt := v.extractLsb' 0 32 })
    ∧ gives (.lpidxWrite n v) (0x18 + n.val) (below 32 && decide (n.val < m.lpdepth))
        (fun t => if sup then t.setLevel n { t.level n with idx := v.extractLsb' 0 32 } else t)
    ∧ atS (.lpdepthWrite v) 0x10 false (decide (v.toNat ≤ 6)) (fun t => { t with lpdepth := v.toNat })
    ∧ onlyS (.lpbegWrite n v) (0x1030 + n.val)
        (gives (.lpbegWrite n v) (0x1030 + n.val) (v.toNat % 4 == 0) fun t => t.setLevel n { t.level n with beg := v })
    ∧ onlyS (.lpendWrite n v) (0x1038 + n.val)
        (gives (.lpendWrite n v) (0x1038 + n.val) (v.toNat % 4 == 0) fun t => t.setLevel n { t.level n with fin := v })
    ∧ gives (.gjtimeoutWrite v) 0x34 (below 32) (fun t => { t with gjtimeout := v.extractLsb' 0 32 })
    ∧ gives (.frmWrite v) 0x21 (below 4 && decide (v.toNat % 8 < 5)) (fun t => { t with frm := v.extractLsb' 0 4 })
    ∧ onlyS (.statusWrite v) 0x1000 (gives (.statusWrite v) 0x1000 (below 4 && decide (v.toNat / 4 < 2)) fun t =>
        { t with status := (v &&& 12) ||| (t.status &&& 3) })
    ∧ onlyS (.ptbaseWrite v) 0x1011 (if v &&& ~~~0xFFFFFFFFFFE00#64 = 0 ∧ v.toNat < hbmTop ∧ done = false then
          exec (.ptbaseWrite v) s = .next s
        else gives (.ptbaseWrite v) 0x1011 (v &&& ~~~0xFFFFFFFFFFE00#64 == 0 && decide (v.toNat < hbmTop)) fun t =>
          { t with ptbase := v })
    ∧ onlyS (.asidWrite v) 0x1010 (if below 16 ∧ done = false then exec (.asidWrite v) s = .next s
        else gives (.asidWrite v) 0x1010 (below 16) fun t => { t with asid := v })
    ∧ onlyS (.heatbaseWrite v) 0x1012 (described (.heatbaseWrite v) 0x1012 heatDescOk fun t => { t with heatbase := v })
    ∧ onlyS (.kvmbaseWrite v) 0x1013 (described (.kvmbaseWrite v) 0x1013 kvDescOk fun t => { t with kvmbase := v })
    ∧ onlyS (.lanemapWrite v) 0x1020 (∃ t, exec (.lanemapWrite v) s = .next t
        ∧ (t.core (coreOf s.cur)).lanemap = core.lanemap ||| v)
    ∧ (if sup then (if v = 0 then ∀ u, unbindStream (24 + k.val) s = .ok () u → now (.sdescWrite k v) u
         else v.getLsbD 0 = false → ∀ u, bindStream (24 + k.val) v s = .ok () u → now (.sdescWrite k v) u)
       else now (.sdescWrite k v) s)
    ∧ (sup = true → ∀ table q tab u, v.getLsbD 0 = true → table = v &&& ~~~3#64 → m.valloc = 32 → m.streams[k] = .unbound →
        table.toNat % 64 = 0 → readTable s.agent table s = .ok q u → q = some tab →
        let phase := m.skv[k].toNat / 8192 % 4
        let reg := (m.kvRegs.find? fun e => e.1 == phase).getD (phase, m.kvmbase)
        ∃ b, now (.sdescWrite k v) (mapMe (fun t => { (t.zeroReg (24 + k.val)).setBinding (24 + k.val) (.kv b m.ctx reg.2) with
            kvRegs := t.kvRegs.erase reg, skv := t.skv.set k 0 }) u)
          ∧ b.table = table ∧ b.vSide = v.getLsbD 1 ∧ b.page = m.skv[k] &&& 0x1FFFFFFFFFF8000 ∧ b.slot = m.skv[k].toNat % 512
          ∧ b.phase = phase)
    ∧ (if sup then
         (match m.streams[k] with
          | .unbound => refused (.sposWrite k v) causeOperand (word (0x68 + k.val)) s
          | .mem d x _ _ => gives (.sposWrite k v) (0x68 + k.val) (decide (v.toNat ≤ d.total)) fun t =>
              { t with streams := t.streams.set k (.mem d x v.toNat []) }
          | .kv b x kvm => now (.sposWrite k v) (mapMe (fun t => { t with streams := t.streams.set k (.kv { b with
              limit := v.toNat / 2 ^ 32, delivered := v.toNat % 2 ^ 32, ahead := [], ended := false } x kvm) }) s))
       else now (.sposWrite k v) s)
    ∧ atS (.skvWrite k v) (0x74 + k.val) false (v &&& ~~~0x1FFFFFFFFFFE1FF#64 == 0) (fun t => match t.streams[k] with
        | .kv b x kvm => { t with streams := t.streams.set k (.kv { b with
            page := v &&& 0x1FFFFFFFFFF8000, phase := v.toNat / 8192 % 4, slot := v.toNat % 512, ahead := [], ended := false } x kvm) }
        | _ => { t with skv := t.skv.set k v })
    ∧ onlyS (.pmreqWrite v) 0x1040 (if h : v.toNat < 1024 ∧ v.toNat % 256 < 192 then
        (let c : CoreId := ⟨v.toNat % 256, h.2⟩
         let q : SeqId := seqOf c ⟨v.toNat / 256, by omega⟩
         match (s.core c).owner with
         | some o =>
           if o ≠ m.part then now (.pmreqWrite v) (mapMe (fun t => { t with pmstat := 3, pmTarget := none }) s)
           else if (s.slot q).busy then
             now (.pmreqWrite v) (mapMe (fun t => { t with pmstat := 0, pmTarget := some q })
               (mapSlot q (fun t => { t with
                 pmPending := if t.pmPending.contains (.seq s.cur) then t.pmPending else t.pmPending ++ [.seq s.cur] }) s))
           else now (.pmreqWrite v) (mapMe (fun t => { t with pmstat := 2, pmTarget := none }) s)
         | none => now (.pmreqWrite v) (mapMe (fun t => { t with pmstat := 2, pmTarget := none }) s))
        else refused (.pmreqWrite v) causeOperand (word 0x1040) s)
    ∧ onlyS (.tleaveWrite v) 0x1042 ((v.toNat % 32 ≠ 0 → refused (.tleaveWrite v) causeAlignment v s)
        ∧ (v.toNat % 32 = 0 → ∀ u, leaveThread v s = .ok () u → now (.tleaveWrite v) u))
    ∧ onlyS (.xjoinWrite v) 0x1043 (gives (.xjoinWrite v) 0x1043 (v.toNat % 8 == 0) fun t => { t with xjoin := v })
    ∧ onlyS (.xdoneWrite v) 0x1044 (gives (.xdoneWrite v) 0x1044 (v.toNat % 8 == 0) fun t => { t with xdone := v })
    ∧ (if sup then now (.ttresRead rd) (mapMe (fun t => { t with ttres := t.ttres.tail }.writeX rd (t.ttres.headD 0)) s)
       else ∀ w, encode (.csrrs rd 0x1045 0) = some w → refused (.ttresRead rd) causePrivilege (w.zeroExtend 64) s)
    ∧ onlyS (.trctlWrite v) 0x1050 (
        let i := Instr.trctlWrite v
        let d := desc core.trbase
        let was := core.trctl.getLsbD 0
        let put (u : State) : State := mapCore (coreOf s.cur) (fun c => { c with trctl := v }) u
        (¬ allowed 0xF1F → refused i causeOperand (word 0x1050) s)
        ∧ (allowed 0xF1F → v.getLsbD 0 = false → now i (put (if was then traceFlush (coreOf s.cur) s else s)))
        ∧ (allowed 0xF1F → v.getLsbD 0 = true →
          (hbmTop ≤ d → refused i causeOperand (BitVec.ofNat 64 d) s)
          ∧ (d < hbmTop → ∀ q u, descQuads d s = .ok q u → let good := ringMap d fun j => (q.getD j 0).toNat
              (good = false → refused i causeOperand (BitVec.ofNat 64 d) u)
              ∧ (good = true → was = true → core.trace.desc = d → now i (put u))
              ∧ (good = true → was = true → core.trace.desc ≠ d → let y := traceFlush (coreOf s.cur) u
                  now i (put (mapCore (coreOf s.cur) (fun c => { c with trace := { openRing y d with last := y.cycle } }) y)))
              ∧ (good = true → was = false → now i (put (mapCore (coreOf s.cur) (fun c => { c with
                  trace := { openRing u d with
                    last := u.cycle, queue := [(u.cycle, traceQuads 6 7 0 0 0 (BitVec.ofNat 64 u.cycle) 0)] } }) u))))))
    ∧ onlyS (.rpctlWrite v) 0x1058 (
        let i := Instr.rpctlWrite v
        let mode := v.toNat % 4
        let d := desc (s.cluster cl).rpbase
        let kept := (s.cluster cl).rpctl &&& 0x80 &&& ~~~v
        let mine : Bool := inSession s m.part
          && (coresOf cl).all fun c => match (s.core c).owner with | none => true | some o => o == m.part
        (¬ allowed 0x83 ∨ mode = 3 → refused i causeOperand (word 0x1058) s)
        ∧ (allowed 0x83 → mode = 0 → ∃ t, exec i s = .next t ∧ (t.cluster cl).rpctl = kept)
        ∧ (allowed 0x83 → mode = 1 ∨ mode = 2 → mine = false ∨ hbmTop ≤ d → refused i causeOperand (word 0x1058) s)
        ∧ (allowed 0x83 → mode = 1 ∨ mode = 2 → mine = true → d < hbmTop → ∀ q u, descQuads d s = .ok q u →
            let good := ringMap d fun j => (q.getD j 0).toNat
            -- an earlier log is published first
            let y := if replayMode u cl = 1 then (ringPublish (u.cluster cl).replay u).2 else u
            (good = false → refused i causeOperand (word 0x1058) u)
            ∧ (good = true → ∃ t, exec i s = .next t ∧ (t.cluster cl).replay = { openRing y d with last := y.cycle }
                ∧ (mode = 1 → (t.cluster cl).rpctl = 1 ||| kept)
                ∧ (mode = 2 → (t.cluster cl).rpTail = deviceQuad y (d + 24)
                    ∧ (deviceQuad y (d + 24) ≠ deviceQuad y (d + 16) → (t.cluster cl).rpctl = 2 ||| kept)
                    ∧ (deviceQuad y (d + 24) = deviceQuad y (d + 16) → (t.cluster cl).rpctl = kept)))))

/-! ## Forwarding and relocation -/

/-- R247 to R251: `darn`, `peq`, `fwdres`, `fwdmend` and `fwdrel`. `peq` compares where two pointers finally lead; `fwdres`
gives the final physical address and how many records were followed; `fwdrel` turns the partition's own records of a
frame back to lines of zeros, which hold no error any more, and traps on a line in transit. -/
def Obligations.ForwardingInstructions : Prop :=
  ∀ (s : State) (n : CBit) (rd rs1 rs2 : Reg),
    let m := s.me
    let a := m.readX rs1
    let b := m.readX rs2
    let sup := m.status.getLsbD 0
    (∀ x y u v, finalPlace a s = .ok x u → finalPlace b u = .ok y v →
      completesAs (.peq n rs1 rs2) s (mapMe (·.writeC n (x.1 == y.1)) v))
    ∧ (∀ l u pa, translate s.agent .load a s = .ok l u → l.place = .phys pa → pa < hbmTop →
        (∀ t h, follow u 2 0 (pa / 64) = some (t, h) → finalPlace a s = .ok (.phys (64 * t + pa % 64), h) u)
        ∧ (follow u 2 0 (pa / 64) = none → finalPlace a s = .error (.trap causeChain a) u))
    ∧ (∀ i w, (i = .fwdres rd rs1 ∨ i = .fwdmend rs1 ∨ i = .fwdrel rs1) → encode i = some w → sup = false →
        traps i s causePrivilege (w.zeroExtend 64))
    ∧ (sup = true →
        (0x1FFFFFFE0000000 ≤ a.toNat → a.toNat < 2 ^ 57 → traps (.fwdres rd rs1) s causeOperand a ∧ completes (.fwdmend rs1) s id)
        ∧ (a.toNat < 0x1FFFFFFE0000000 ∨ 2 ^ 57 ≤ a.toNat →
            (∀ pa h u, finalPlace a s = .ok (.phys pa, h) u →
              completesAs (.fwdres rd rs1) s (mapMe (·.writeX rd (BitVec.ofNat 64 (pa % 2 ^ 52 + h * 2 ^ 52))) u))
            ∧ (∀ l u pa, translate s.agent .plain a s = .ok l u → l.place = .phys pa →
                completesAs (.fwdmend rs1) s (mendChain (chainFrom u 64 (pa / 64)) u)))
        ∧ (let ok := a.toNat % 32768 = 0 ∧ (regionOf a.toNat = .hbm ∨ regionOf a.toNat = .tier)
           (¬ ok → traps (.fwdrel rs1) s causeOperand a)
           ∧ (ok → ∀ i, i < 512 → markOf s (a.toNat / 64 + i) = some .transit →
                (∀ j, j < i → markOf s (a.toNat / 64 + j) ≠ some .transit) →
                traps (.fwdrel rs1) s causeOperand (BitVec.ofNat 64 (a.toNat + 64 * i)))
           ∧ (ok → (∀ i, i < 512 → markOf s (a.toNat / 64 + i) ≠ some .transit) → ∃ mem marks bad,
                completesAs (.fwdrel rs1) s { s with mem := mem, marks := marks, bad := bad }
                ∧ ∀ l, let mine := a.toNat ≤ 64 * l ∧ 64 * l < a.toNat + 32768 ∧ markOf s l = some .forwarded
                    ∧ recordPart s l = m.part.val
                  markOf { s with marks := marks } l = (if mine then none else markOf s l)
                  ∧ isBad bad l = (if mine then false else isBad s.bad l)
                  ∧ ∀ i, i < 64 → Memory.read mem (64 * l + i) = (if mine then 0 else Memory.read s.mem (64 * l + i)))))
    ∧ (let i := Instr.darn rs1
       (a.toNat % 64 ≠ 0 → traps i s causeAlignment a)
       ∧ (a.toNat % 64 = 0 → ∀ q u, quadsAt s.agent .sequencer a 8 s = .ok q u →
           (darnOk q = false → exec i s = .next (takeTrap causeOperand a m.pc (turnsOver s u)))
           ∧ (darnOk q = true → 16 ≤ (s.part m.part).darn.length →
               ∃ h : Held, exec i s = .next (mapMe (fun m => { m with waiting := some h }) (turnsOver s u)) ∧ h.kind = .jobs)
           ∧ (darnOk q = true → (s.part m.part).darn.length < 16 → ∀ u1 u2, storeN s.agent .sequencer (a + 32) 8 0 u = .ok () u1 →
               releaseAt .device false u1 = .ok () u2 →
               completesAs i s (mapPart m.part (fun p => { p with darn := p.darn ++ [{
                 desc := a, src := q.getD 0 0, dst := q.getD 1 0, count := (q.getD 2 0).toNat, joinctr := q.getD 3 0
                 ctx := m.ctx, moved := 0, line := none, failed := none }] }) u2))))

/-- R240 to R245: a line's move. It begins with both lines N and the source turning T; then the data is copied to the
target quad by quad, an unreadable source being given back with what it holds performed at it; then the source becomes F,
with a record of the target and the partition, and what it held is performed at the target. A job that has ended writes its
status and decrements its counter; a fault of either access goes to the fault log (R365). -/
def Obligations.RelocationMoves : Prop :=
  ∀ (s : State) (p : PartId) (j : DarnJob) (rest : List DarnJob), (s.part p).darn = j :: rest →
    (∀ r, r ≠ p → ∀ k ∈ (s.part r).darn.head?, k.line = none) →
    let i := Instr.darnLineMove p
    let off := BitVec.ofNat 64 (64 * j.moved)
    -- the order in which the partitions are served next
    let turn (r : PartId) : Nat := (r.val + 15 - s.darnServed % 16) % 16
    let code (c : Nat) : List DarnJob := { j with line := none, failed := some c } :: rest
    let jobs (l : List DarnJob) (u : State) : State := mapPart p (fun t => { t with darn := l }) u
    (j.line = none → j.failed = none → j.moved < j.count → (∀ r, r ≠ p → darnWork s r = true → turn p < turn r) →
      ∀ a b u v, darnLine j (j.src + off) s = .ok a u → darnLine j (j.dst + off) u = .ok b v →
        let fails (c : Nat) : Prop := exec i s = .next { jobs (code c) v with darnServed := p.val }
        (∀ c, a = .error c → fails c)
        ∧ (∀ x c, a = .ok x → b = .error c → fails c)
        ∧ (∀ l no t no', a = .ok (l, no) → b = .ok (t, no') →
            (no = true → fails 3)
            ∧ (no = false → markOf v l ≠ none → fails 1)
            ∧ (no = false → markOf v l = none → markOf v t ≠ none ∨ l = t → fails 2)
            ∧ (no = false → markOf v l = none → markOf v t = none → l ≠ t →
                exec i s = .next (jobs ({ j with line := some (l, t, 0) } :: rest) (setMark l (some .transit) v)))))
    ∧ (∀ l t k, j.line = some (l, t, k) → k < 8 →
        (isBad s.bad l = true →
          exec i s = .next { jobs (code 5) (replayedAt l l (setMark l none s)) with darnServed := p.val })
        ∧ (isBad s.bad l = false → markOf s t = some .transit ∨ queued s t = true → exec i s = .next s)
        ∧ (isBad s.bad l = false → markOf s t ≠ some .transit → queued s t = false → ∃ z, exec i s = .next z
          ∧ (z.part p).darn = { j with line := some (l, t, k + 1) } :: rest
          ∧ ∀ a, Memory.read z.mem a
            = if a / 64 = t ∧ a % 64 / 8 = k then Memory.read s.mem (64 * l + a % 64) else Memory.read s.mem a))
    ∧ (∀ l t, j.line = some (l, t, 8) → t < 2 ^ 46 →
        let y := setMark l (some .forwarded)
          (cellWrite (64 * l) (bytesOfNat 8 (64 * t) ++ bytesOfNat 8 j.ctx.part.val ++ List.replicate 48 0) s)
        markOf y l = some .forwarded ∧ recordTarget y l = t ∧ recordPart y l = j.ctx.part.val
        ∧ exec i s = .next { jobs ({ j with line := none, moved := j.moved + 1 } :: rest)
            (replayedAt l t (moveCopies l t y)) with darnServed := p.val })
    ∧ (j.line = none → (j.failed ≠ none ∨ j.count ≤ j.moved) →
        let st := match j.failed with | none => 2 ^ 62 | some c => 2 ^ 63 + c * 2 ^ 56
        let logged (c : Nat) (addr : Word) (u : State) : State := logEvent j.ctx.part 8 (failureCode c) addr j.desc u
        ∀ u w,
          (storeN (deviceAgent j.ctx) .device (j.desc + 32) 8 (st + j.moved) s = .ok () u
            ∨ ∃ c e y, storeN (deviceAgent j.ctx) .device (j.desc + 32) 8 (st + j.moved) s = .error (.trap c e) y
              ∧ u = logged c (j.desc + 32) y) →
          ((j.joinctr = 0 ∧ w = u) ∨ (j.joinctr ≠ 0 ∧
            ((∃ v, decrementAt (deviceAgent j.ctx) .device j.joinctr u = .ok v w)
              ∨ ∃ c e y, decrementAt (deviceAgent j.ctx) .device j.joinctr u = .error (.trap c e) y
                ∧ w = logged c j.joinctr y))) →
          exec (.darnJobEnd p) s = .next (mapPart p (fun t => { t with darn := t.darn.tail, progress := w.cycle }) w))

/-- R177, R228, R241: the accesses that a home agent holds of a line that is not moving any more perform in arrival order at
the line, or at the target of its record, each as the write or the count that it is; a core's written bytes go from its L1
to the cluster's buffer, and from there to the cells. -/
def Obligations.HomeAgentsAndWriteback : Prop :=
  (∀ (s : State) (line : Nat), exec (.homeAgentAccess line) s = .next (match markOf s line with
      | some .transit => s
      | some .forwarded => replayedAt line (recordTarget s line) s
      | none => replayedAt line line s))
  ∧ (∀ (s : State) (pa n : Nat) (bs : List Byte) (d : Int) (sat : Bool),
      (∀ a, Memory.read (performAct pa (.write bs) s).mem a
        = if pa ≤ a ∧ a < pa + bs.length then bs.getD (a - pa) 0 else Memory.read s.mem a)
      ∧ (let old : Int := Memory.readNat s.mem pa n
         let u := performAct pa (.add n d sat) s
         (Memory.readNat u.mem pa n : Int) = (if sat = true ∧ 256 ^ n ≤ old + d then 256 ^ n - 1 else (old + d) % 256 ^ n)
         ∧ ∀ a, a < pa ∨ pa + n ≤ a → Memory.read u.mem a = Memory.read s.mem a))
  ∧ (∀ (s : State) (c : CoreId) (line : Nat),
    let cl := clusterOfCore c
    let l := l1Line s c line
    ((∀ e ∈ (s.cluster cl).buffer, e.1 ≠ line → sameLine s e.1 line = false) → l.dirty ≠ 0 →
      ∃ t, exec (.l1Writeback c line) s = .next t ∧ t.mem = s.mem
        ∧ (l1Line t c line).dirty = 0 ∧ (l1Line t c line).data = l.data
        ∧ ∀ i, i < 64 →
            if l.isDirty i then (bufLine t cl line).isDirty i = true ∧ (bufLine t cl line).byte i = l.byte i
            else (bufLine t cl line).has i = (bufLine s cl line).has i ∧ (bufLine t cl line).byte i = (bufLine s cl line).byte i)
    ∧ (l.dirty = 0 → (regionOf (64 * line) = .hbm ∨ regionOf (64 * line) = .tier) → markOf s line = none →
        queued s line = false →
        ∃ t, exec (.l1Writeback c line) s = .next t ∧ (bufLine t cl line).dirty = 0
          ∧ ∀ a, Memory.read t.mem a = if a / 64 = line ∧ (bufLine s cl line).isDirty (a % 64) = true
              then (bufLine s cl line).byte (a % 64) else Memory.read s.mem a))

/-! ## The KV cache -/

/-- R296, R302 to R305, R312, R315: the KV instructions. Each needs `kvmbase.en`. A popped frame's header, a staged token's
links, rows, scales, position and mass, and a binding's registration are spelled out, store by store. -/
def Obligations.KvInstructions : Prop :=
  ∀ (s : State) (rd vn rs1 rs2 : Reg) (n : BitVec 3),
    let m := s.me
    let a := m.readX rs1
    let b := m.readX rs2
    let en := m.kvmbase.getLsbD 0 = true
    let on := m.vstate ≠ 0 ∧ m.vill = false
    let ends (i : Instr) (c : Nat) (v : Word) (u : State) : Prop := exec i s = .next (takeTrap c v m.pc (turnsOver s u))
    let pageOf (u : State) (kvm : Word) (k : Nat) : Word := kvVa u kvm + BitVec.ofNat 64 (32768 * k)
    let frameOf (u : State) (kvm page : Word) : Nat := (page - kvVa u kvm).toNat / 32768
    -- R302: the pool's head leaves it, and its header is written, by agent `g`
    let pop (g : Agent) (x : Ctx) (kvm : Word) : M (Option Nat) := do
      let head ← onDesc g kvm do
        let q3 ← descQuad g kvm 3
        if q3.toNat % 2 ^ 32 = 2 ^ 32 - 1 then pure none
        else do
          let u ← getS
          let link ← loadN (g.atS x) .device (kvRecord u kvm (q3.toNat % 2 ^ 32) + 20) 4
          descPut g kvm 24 (bytesOfNat 8 ((q3.toNat / 2 ^ 32 + 2 ^ 32 - 1) % 2 ^ 32 * 2 ^ 32 + link))
          pure (some (q3.toNat % 2 ^ 32))
      match head with
      | none => pure none
      | some k => do
        let u ← getS
        let r := kvRecord u kvm k
        storeN (g.atS x) .device r 8 0
        storeN (g.atS x) .device (r + 8) 8 (((kvQuad u kvm 5).toNat + 1) % 2 ^ 32 * 2 ^ 32 + 2 ^ 14)
        storeN (g.atS x) .device (r + 16) 4 0
        pure (some k)
    -- R303: the page of a token at position q, and its slot's contents
    let stage (tab : SeqTable) (i j : Nat) (kRow vRow : Nat → Nat) : M Unit := do
      let old ← loadN s.vagent .device (a + BitVec.ofNat 64 (64 + 16 * i + 8)) 8
      let tail := BitVec.ofNat 64 old
      let q := tab.len + j
      let sl := q % tab.slots
      let u ← getS
      let x := u.me.ctx
      let kvm := u.me.kvmbase
      let g := u.vagent
      let rec' (page : Word) : Word := kvRecord u kvm (frameOf u kvm page)
      let h ← if tail = 0 then pure { next := 0, used := 0, pos0 := 0 } else readHead (g.atS x) kvm (frameOf u kvm tail) a
      let page ← if tail = 0 ∨ h.pos0 + tab.slots ≤ q - sl then do
          check (decide (q - sl = if tail = 0 then 0 else h.pos0 + tab.slots)) causeOperand a
          match ← pop g x kvm with
          | none => trap causeKvPool a
          | some k => do
            let new := pageOf u kvm k
            if tail = 0 then storeN g .device (a + BitVec.ofNat 64 (64 + 16 * i)) 8 new.toNat
            else storeN (g.atS x) .device (rec' tail) 8 new.toNat
            storeN g .device (a + BitVec.ofNat 64 (64 + 16 * i) + 8) 8 new.toNat
            storeN (g.atS x) .device (rec' new + 16) 4 (q - sl)
            pure new
        else do
          check (decide (h.used = 0 ∨ h.pos0 = q - sl)) causeOperand a
          if h.used = 0 then storeN (g.atS x) .device (rec' tail + 16) 4 (q - sl)
          pure tail
      let u' ← getS
      let g' := u'.vagent.atS u'.me.ctx
      let r := kvRecord u' u'.me.kvmbase (frameOf u' u'.me.kvmbase page)
      forList (List.range tab.hd) fun e =>
        storeN g' .device (page + BitVec.ofNat 64 (0 + sl * (tab.hd * tab.bytes) + e * tab.bytes)) tab.bytes (kRow e)
      forList (List.range tab.hd) fun e =>
        storeN g' .device (page + BitVec.ofNat 64 (16384 + sl * (tab.hd * tab.bytes) + e * tab.bytes)) tab.bytes (vRow e)
      if tab.scaled then
        forList (List.range (tab.hd / 32)) fun e => do
          storeN g' .device (r + BitVec.ofNat 64 (2112 + sl * (tab.hd / 32) + e)) 1 (kRow (tab.hd + e))
          storeN g' .device (r + BitVec.ofNat 64 (2624 + sl * (tab.hd / 32) + e)) 1 (vRow (tab.hd + e))
      storeN g' .device (r + BitVec.ofNat 64 (64 + 4 * sl)) 4 q
      storeN g' .device (r + BitVec.ofNat 64 (1088 + 4 * sl)) 4 0
      let _ ← atomicAt g' .device (r + 8) 2 fun w => some (w / 512 * 512 + max (w % 512) (sl + 1))
    -- R311: the map of a Mangle descriptor, and its chains within the table that it names
    let mangleMap (q : List Word) : M Bool :=
      let w (i : Nat) : Nat := (q.getD i 0).toNat
      let chains := w 1 % 2 ^ 12 + w 1 / 2 ^ 16 % 2 ^ 13
      if w 0 % 64 = 0 ∧ w 1 / 2 ^ 29 = 0 ∧ w 1 / 2 ^ 12 % 2 ^ 4 = 0 ∧ 1 ≤ w 1 / 2 ^ 16 % 2 ^ 13 ∧ chains ≤ 4096 ∧ w 2 % 8 = 0
          ∧ w 4 = 0 ∧ w 5 = 0 ∧ w 6 = 0 ∧ w 7 = 0 then do
        let u ← getS
        match ← tryM (readTable u.agent (q.getD 0 0)) with
        | .ok (some tab) => pure (decide (chains ≤ tab.nlh))
        | _ => pure true
      else pure false
    let launderMap (q : List Word) : M Bool :=
      pure (decide ((q.getD 0 0).toNat % 8 = 0 ∧ ∀ i ∈ elemRange 2 8, q.getD i 0 = 0))
    -- a job is issued as by `darn`
    let issues' (i : Instr) (st : Word) (ok : List Word → M Bool) (full : Bool) (put : List Word → Part → Part) : Prop :=
      (a.toNat % 64 ≠ 0 → traps i s causeAlignment a)
      ∧ (a.toNat % 64 = 0 → ∀ q u good u', quadsAt s.agent .sequencer a 8 s = .ok q u → ok q u = .ok good u' →
          (good = false → ends i causeOperand a u')
          ∧ (good = true → full = true →
              ∃ h : Held, exec i s = .next (mapMe (fun m => { m with waiting := some h }) (turnsOver s u')) ∧ h.kind = .jobs)
          ∧ (good = true → full = false → ∀ u1 u2, storeN s.agent .sequencer (a + st) 8 0 u' = .ok () u1 →
              releaseAt .device false u1 = .ok () u2 →
              completesAs i s (mapPart m.part (put q) u2)))
    (¬ en → traps (.kvalloc rd) s causeOperand 0 ∧ traps (.kvcommit rs1 rs2) s causeOperand 0 ∧ traps (.mangle rs1) s causeOperand 0
      ∧ (m.status.getLsbD 0 = true → traps (.launder rs1) s causeOperand 0)
      ∧ (on → traps (.kvapp vn rs1 rs2) s causeOperand 0 ∧ traps (.sbindkvK n rs1 rs2) s causeOperand 0
          ∧ traps (.sbindkvV n rs1 rs2) s causeOperand 0))
    ∧ (en → ∀ u, releaseAt .device false s = .ok () u →
        (∀ v, undone (pop s.agent m.ctx m.kvmbase) u = .ok none v → completesAs (.kvalloc rd) s (mapMe (·.writeX rd 0) v))
        ∧ (∀ k v, undone (pop s.agent m.ctx m.kvmbase) u = .ok (some k) v →
            completesAs (.kvalloc rd) s (mapMe (·.writeX rd (pageOf s m.kvmbase k)) v))
        ∧ (∀ c x v, undone (pop s.agent m.ctx m.kvmbase) u = .error (.trap c x) v → ends (.kvalloc rd) c x v))
    ∧ (let i := Instr.kvcommit rs1 rs2
       (en → b.toNat = 0 ∨ 65536 < b.toNat → traps i s causeOperand b)
       ∧ (en → 0 < b.toNat → b.toNat ≤ 65536 → a.toNat % 64 ≠ 0 → traps i s causeAlignment a)
       ∧ (en → a.toNat % 64 = 0 → b.toNat ≠ 0 → b.toNat ≤ 65536 → ∀ u old v, releaseAt .device false s = .ok () u →
           atomicAt s.agent .device a 4 (fun l => if l + b.toNat < 2 ^ 32 then some (l + b.toNat) else none) u = .ok old v →
           (old + b.toNat < 2 ^ 32 → completesAs i s v)
           ∧ (2 ^ 32 ≤ old + b.toNat → ends i causeOperand b v)))
    ∧ (en → issues' (.mangle rs1) 24 mangleMap (decide (16 ≤ (s.part m.part).mangle.length)) fun q p => { p with mangle := p.mangle ++ [{
        desc := a, table := q.getD 0 0, ch0 := (q.getD 1 0).toNat % 2 ^ 12, nch := (q.getD 1 0).toNat / 2 ^ 16 % 2 ^ 13
        joinctr := q.getD 2 0, ctx := m.ctx, kvm := m.kvmbase, chain := 0, runs := none, evicted := 0, compacted := 0, failed := none }] })
    ∧ (∀ w, encode (.launder rs1) = some w → m.status.getLsbD 0 = false → traps (.launder rs1) s causePrivilege (w.zeroExtend 64))
    ∧ (en → m.status.getLsbD 0 = true → issues' (.launder rs1) 8 launderMap (decide (16 ≤ (s.part m.part).launder.length)) fun q p =>
        { p with launder := p.launder ++ [{
          desc := a, joinctr := q.getD 0 0, ctx := m.ctx, kvm := m.kvmbase, stage := 0, phase := 0, mendedFrames := [], mended := 0
          freed := 0, failed := none }] })
    ∧ (∀ (i : Instr) (vSide : Bool), (i = .sbindkvK n rs1 rs2 ∧ vSide = false ∨ i = .sbindkvV n rs1 rs2 ∧ vSide = true) →
        let r := 24 + n.toNat
        let free := m.valloc = 32 ∧ m.binding r = .unbound
        let registers : M (Nat × Nat) := do
          let ph ← onDesc s.agent m.kvmbase do
            let q5 ← descQuad s.agent m.kvmbase 5
            let p := q5.toNat % 2 ^ 32
            let c ← descQuad s.agent m.kvmbase (6 + p % 4 / 2)
            descPut s.agent m.kvmbase (48 + 4 * (p % 4)) (bytesOfNat 4 (c.toNat / 2 ^ (32 * (p % 2)) % 2 ^ 32 + 1))
            pure p
          let head ← loadN s.agent .device (a + BitVec.ofNat 64 (64 + 16 * b.toNat)) 8
          pure (ph, head)
        (∀ w, encode i = some w → (m.vstate = 0 → traps i s causeFirstUse (w.zeroExtend 64))
          ∧ (m.vstate ≠ 0 → m.vill = true → traps i s causeIllegal (w.zeroExtend 64)))
        ∧ (on → en → ¬ free → traps i s causeOperand (BitVec.ofNat 64 r))
        ∧ (on → en → free → 4096 ≤ b.toNat → traps i s causeOperand a)
        ∧ (on → en → free → b.toNat < 4096 → a.toNat % 64 ≠ 0 → traps i s causeAlignment a)
        ∧ (on → en → free → b.toNat < 4096 → a.toNat % 64 = 0 → ∀ q u, readTable s.agent a s = .ok q u →
            (q = none → ends i causeOperand a u)
            ∧ (∀ tab, q = some tab → tab.nlh ≤ b.toNat → ends i causeOperand a u)
            ∧ (∀ tab, q = some tab → b.toNat < tab.nlh → ∀ v,
                releaseFor s.agent .device false (refreshTo (coreOf s.cur) (scopeLevel .device) false u) = .ok () v →
                (∀ p page z, undone registers v = .ok (p, page) z →
                  ∃ k, k.table = a ∧ k.vSide = vSide ∧ k.limit = tab.len ∧ k.delivered = 0 ∧ k.page = BitVec.ofNat 64 page ∧ k.slot = 0
                    ∧ k.phase = p % 4 ∧ k.ahead = [] ∧ k.ended = false ∧ k.lastPop = [] ∧ k.hd = tab.hd ∧ k.ew = 8 * tab.bytes
                    ∧ k.scaled = tab.scaled
                    ∧ completesAs i s (mapMe (fun t => { (t.zeroReg r).setBinding r (.kv k m.ctx m.kvmbase) with vstate := 3 }) z))
                ∧ (∀ c x z, undone registers v = .error (.trap c x) z → ends i c x z))))
    ∧ (let i := Instr.kvapp vn rs1 rs2
       let e := b.toNat % 2 ^ 16
       let os := [m.opw vn, m.opw (vn + 1)]
       let fields := b.toNat / 2 ^ 16 % 2 ^ 16 = 0 ∧ b.toNat / 2 ^ 48 = 0 ∧ vn.toNat % 2 = 0 ∧ vn.toNat + 1 < m.valloc
       (∀ w, encode i = some w → (m.vstate = 0 → traps i s causeFirstUse (w.zeroExtend 64))
         ∧ (m.vstate ≠ 0 → m.vill = true → traps i s causeIllegal (w.zeroExtend 64))
         ∧ (on → en → fields → m.opsOk os = false → traps i s causeOperand (w.zeroExtend 64)))
       ∧ (on → en → ¬ fields → traps i s causeOperand a)
       ∧ (on → en → fields → m.opsOk os = true → a.toNat % 64 ≠ 0 → traps i s causeAlignment a)
       ∧ (on → en → fields → m.opsOk os = true → a.toNat % 64 = 0 →
           (∀ u, readTable s.vagent a s = .ok none u → ends i causeOperand a u)
           ∧ (∀ tab u, readTable s.vagent a s = .ok (some tab) u →
               let ok := e < tab.nlh ∧ m.ew = 8 * tab.bytes ∧ m.fmt = kvFmt tab.fmt
                 ∧ m.vl = tab.hd + (if tab.scaled then tab.hd / 32 else 0)
               let fill := fillAll m os m.vl fun _ => true
               let token := stage tab e (b.toNat / 2 ^ 32 % 2 ^ 16) (m.read (m.opw vn) m.ew) (m.read (m.opw (vn + 1)) m.ew)
               (¬ ok → ends i causeOperand a u)
               ∧ (ok → fill = .unfilled →
                   ∃ h : Held, exec i s = .next (mapMe (fun m => { m with waiting := some h }) (turnsOver s u)) ∧ h.kind = .stream)
               ∧ (ok → ∀ z c x, fill = .stop z c x → stopsAt i s os u z c x)
               ∧ (ok → fill = .ready → ∀ v, releaseAt .device false u = .ok () v →
                   (∀ z, undone token v = .ok () z → completesAs i s (mapMe (vectorPast s os) z))
                   ∧ (∀ c x z, undone token v = .error (.trap c x) z → ends i c x z)))))

/-- R311 to R315: the steps of the jobs of Mangle and Launder, and their ends. A fault ends a job with code 2, an uncorrectable
error with code 4, at whatever it is met. Mangle decays the masses of a chain and selects from its candidates; the selected
pages form the maximal runs; a run's pages are held, its survivors copied to fresh frames, and these put in its place. Launder
advances the phase, marks and mends what the registry reaches, sweeps what it did not reach, and frees what no reader holds. -/
def Obligations.KvJobs : Prop :=
  ∀ (s : State) (p : PartId),
    let code (c : Nat) : Nat := if c = causeData then 4 else 2
    let status (failed : Option Nat) : Nat := match failed with | none => 2 ^ 62 | some c => 2 ^ 63 + c * 2 ^ 56
    -- the end of a job: its status is written, then its counter decremented, each fault going to the fault log (R365)
    let ended (i : Instr) (x : Ctx) (desc place : Word) (st : Nat) (ctr : Word) (dropped : Part → Part) : Prop :=
      let logged (c : Nat) (addr : Word) (u : State) : State := logEvent x.part 8 (failureCode c) addr desc u
      ∀ u w,
        (storeN (deviceAgent x) .device place 8 st s = .ok () u
          ∨ ∃ c e y, storeN (deviceAgent x) .device place 8 st s = .error (.trap c e) y ∧ u = logged c place y) →
        ((ctr = 0 ∧ w = u) ∨ (ctr ≠ 0 ∧ ((∃ v, decrementAt (deviceAgent x) .device ctr u = .ok v w)
          ∨ ∃ c e y, decrementAt (deviceAgent x) .device ctr u = .error (.trap c e) y ∧ w = logged c ctr y))) →
        exec i s = .next (mapPart p (fun t => { dropped t with progress := w.cycle }) w)
    (∀ j rest, (s.part p).mangle = j :: rest →
      let i := Instr.mangleRun p
      let turn (r : PartId) : Nat := (r.val + 15 - s.mangleServed % 16) % 16
      let step : M MangleJob := match j.runs with
        | none => mangleWalk j
        | some [] => pure { j with runs := none, chain := j.chain + 1 }
        | some (r :: rs) => mangleRun j r rs
      let put (k : MangleJob) (u : State) : State := mapPart p (fun t => { t with mangle := k :: t.mangle.tail }) { u with mangleServed := p.val }
      (j.failed = none → j.chain < j.nch → (∀ r, r ≠ p → mangleWork s r = true → turn p < turn r) →
        (∀ k u, step s = .ok k u → exec i s = .next (put k u))
        ∧ (∀ c e u, step s = .error (.trap c e) u → exec i s = .next (put { j with failed := some (code c) } u))
        ∧ (∀ k u, step s = .error (.wait k) u → exec i s = .next { s with pri := u.pri }))
      ∧ (j.failed ≠ none ∨ j.nch ≤ j.chain →
          ended (.mangleJobEnd p) j.ctx j.desc (j.desc + 24) (status j.failed + j.compacted * 2 ^ 32 + j.evicted) j.joinctr
            fun t => { t with mangle := t.mangle.tail }))
    ∧ (∀ j rest, (s.part p).launder = j :: rest →
      let i := Instr.launderPass p
      let put (k : LaunderJob) (u : State) : State := mapPart p (fun t => { t with launder := k :: t.launder.tail }) u
      let step : M LaunderJob := do
        let u ← getS
        match j.stage with
        | 0 => launderPhase j
        | 1 => launderMark j
        | 2 => do
          forList (List.range (kvCount u j.kvm)) (sweepFrame j)
          pure { j with stage := 3 }
        | _ => freeFrames (List.range (kvCount u j.kvm)) j
      (j.failed = none → j.stage < 4 →
        (∀ k u, step s = .ok k u → exec i s = .next (put k u))
        ∧ (∀ c e u, step s = .error (.trap c e) u → exec i s = .next (put { j with failed := some (code c) } u))
        ∧ (∀ k u, step s = .error (.wait k) u → exec i s = .next { s with pri := u.pri }))
      ∧ (j.failed ≠ none ∨ 4 ≤ j.stage →
          ended i j.ctx j.desc (j.desc + 8) (status j.failed + j.mended % 2 ^ 24 * 2 ^ 32 + j.freed) j.joinctr
            fun t => { t with launder := t.launder.tail }))
    -- R313
    ∧ (∀ (j : MangleJob) (tab : SeqTable) (page : Word) (n : Nat),
      let g := kvAgent j.ctx
      let d := deviceAgent j.ctx
      let at' (w : Word) (k : Nat) : Word := w + BitVec.ofNat 64 k
      let decay : M KvPageWalk := do
        let u ← getS
        let r := kvRecord u j.kvm ((page - kvVa u j.kvm).toNat / 32768)
        let h ← readHead g j.kvm ((page - kvVa u j.kvm).toNat / 32768) j.desc
        let h1 ← loadN g .device (r + 8) 8
        let slots ← collect (List.range h.used) fun i => do
          let pos ← loadN g .device (at' r (64 + 4 * i)) 4
          let mass ← loadN g .device (at' r (1088 + 4 * i)) 4
          if pos < tab.len then do
            let less := (fp32.mul .rne false (fp32.decode false mass) (fp32.decode false tab.decay)).bits
            storeN g .device (at' r (1088 + 4 * i)) 4 less
            pure (pos, less)
          else pure (pos, mass)
        pure { page := page, head := h, live := h1 / 2 ^ 14 % 4 == 1, slots := slots }
      walkChain j tab (n + 1) page = (if page = 0 then pure [] else do
          let pg ← decay
          let more ← walkChain j tab n pg.head.next
          pure (pg :: more))
      ∧ (∀ q, q.length = 8 → headOf q = if (q.getD 1 0).toNat / 2 ^ 9 % 2 ^ 5 = 0 ∧ ∀ i ∈ elemRange 3 8, q.getD i 0 = 0
          then some { next := q.getD 0 0, used := (q.getD 1 0).toNat % 2 ^ 9, pos0 := (q.getD 2 0).toNat % 2 ^ 32 } else none)
      ∧ mangleWalk j = (do
          match ← readTable d j.table with
          | none => pure { j with failed := some 3 }
          | some t =>
            if t.nlh < j.ch0 + j.nch then pure { j with failed := some 3 }
            else if t.phase ≠ 1 then pure { j with chain := j.nch }
            else do
              let e := at' j.table (64 + 16 * (j.ch0 + j.chain))
              let tail ← loadN d .device (e + 8) 8
              let head ← loadN d .device e 8
              let pages ← walkChain j t 1048576 (BitVec.ofNat 64 head)
              pure { j with runs := some (runsOf 0 (selectSlots t (BitVec.ofNat 64 tail) t.evictions pages)) }))
    ∧ (∀ (tab : SeqTable) (tail : Word) (pg : KvPageWalk) (th : Dy) (i : Nat), fp32.decode false tab.theta = .fin th → th.neg = false ∨ th.m = 0 →
        let mass (k : Nat) : FVal := fp32.decode false (pg.slots.getD k (0, 0)).2
        let pos := (pg.slots.getD i (0, 0)).1
        let sum := fp32.decode false (fp32.windowRound false (pg.slots.map fun x => termOf (fp32.decode false x.2))).bits
        let below : Prop := match mass i, sum with
          | .fin x, .fin y => pg.slots.length * dyValue x < dyValue th * dyValue y
          | .fin _, .inf neg => neg = false
          | .inf true, .fin _ => True
          | .inf true, .inf neg => neg = false
          | _, _ => False
        (i ∈ candidates tab tail pg ↔ i < pg.slots.length ∧ pg.page ≠ tail ∧ pg.head.next ≠ 0 ∧ pg.live = true ∧ th.m ≠ 0
          ∧ tab.sinks ≤ pos ∧ pos + tab.window < tab.len ∧ below)
        ∧ (candidates tab tail pg).Pairwise (· < ·))
    ∧ (∀ (tab : SeqTable) (tail : Word) (e : Nat) (pages : List KvPageWalk),
        (selectSlots tab tail e pages).map (·.1) = pages.map (·.page)
        ∧ ((selectSlots tab tail e pages).flatMap fun x => x.2.map fun i => (x.1, i))
          = (pages.flatMap fun pg => (candidates tab tail pg).map fun i => (pg.page, i)).take e)
    -- R314
    ∧ (∀ xs : List (Word × List Nat), (xs.map (·.1)).Nodup →
        (runsOf 0 xs).flatMap (·.pages) = xs.filter (fun x => !x.2.isEmpty)
        ∧ ∀ r ∈ runsOf 0 xs, ∃ before after, xs = before ++ r.pages ++ after ∧ r.pages ≠ []
            ∧ r.pred = (match before.getLast? with | some x => x.1 | none => 0)
            ∧ (∀ x, before.getLast? = some x → x.2 = []) ∧ (∀ x, after.head? = some x → x.2 = []))
    ∧ (∀ (j : MangleJob) (tab : SeqTable) (r : MangleRun) (rest : List MangleRun) (x : Word × List Nat) (xs : List (Word × List Nat)),
      let g := kvAgent j.ctx
      let at' (w : Word) (k : Nat) : Word := w + BitVec.ofNat 64 k
      let record (u : State) (page : Word) : Word := kvRecord u j.kvm ((page - kvVa u j.kvm).toNat / 32768)
      let copy (src dst : Word) (n : Nat) : M Unit := forList (List.range n) fun i => do
        let b ← loadN g .device (at' src i) 1
        storeN g .device (at' dst i) 1 b
      let token (u : State) (src : Word) (i : Nat) (dst : Word) (k : Nat) : M Unit := do
        let row := tab.hd * tab.bytes
        let sc := tab.hd / 32
        copy (at' src (0 + row * i)) (at' dst (0 + row * k)) row
        copy (at' src (16384 + row * i)) (at' dst (16384 + row * k)) row
        copy (at' (record u src) (64 + 4 * i)) (at' (record u dst) (64 + 4 * k)) 4
        copy (at' (record u src) (1088 + 4 * i)) (at' (record u dst) (1088 + 4 * k)) 4
        if tab.scaled then do
          copy (at' (record u src) (2112 + sc * i)) (at' (record u dst) (2112 + sc * k)) sc
          copy (at' (record u src) (2624 + sc * i)) (at' (record u dst) (2624 + sc * k)) sc
      holdPages j (x :: xs) = (do
          let u ← getS
          match ← tryM (atomicAt g .device (record u x.1 + 10) 2 fun pin => if pin = 0 then some 0xFFFF else none) with
          | .ok pin => do
            let more ← holdPages j xs
            pure (decide (pin = 0) :: more.1, more.2)
          | .error e => pure ([], some (code e.1)))
      ∧ holdPages j [] = pure ([], none)
      ∧ compactRun j tab r = (do
          let u ← getS
          let heads ← collect r.pages fun pg => readHead g j.kvm ((pg.1 - kvVa u j.kvm).toNat / 32768) j.desc
          let alive := (r.pages.zip heads).flatMap fun y =>
            ((List.range y.2.used).filter fun i => decide (i ∉ y.1.2)).map fun i => (y.1.1, i)
          let after : Word := match heads.getLast? with | some h => h.next | none => 0
          match ← popFrames j ((alive.length + tab.slots - 1) / tab.slots) with
          | none => pure false
          | some ks => do
            let fresh := ks.map fun k => kvVa u j.kvm + BitVec.ofNat 64 (32768 * k)
            forList (alive.zip (List.range alive.length)) fun y => do
              let v ← getS
              token v y.1.1 y.1.2 (fresh.getD (y.2 / tab.slots) 0) (y.2 % tab.slots)
            forList (fresh.zip (List.range fresh.length)) fun y => do
              let _ ← atomicAt g .device (record u y.1 + 8) 2 fun h =>
                some (h / 2 ^ 9 * 2 ^ 9 + min tab.slots (alive.length - y.2 * tab.slots))
              storeN g .device (record u y.1) 8 (fresh.getD (y.2 + 1) after).toNat
            if r.pred = 0 then storeN (deviceAgent j.ctx) .device (at' j.table (64 + 16 * (j.ch0 + j.chain))) 8 (fresh.headD after).toNat
            else storeN g .device (record u r.pred) 8 (fresh.headD after).toNat
            pure true)
      ∧ compactParts j tab (r :: rest) = (do
          match ← tryM (compactRun j tab r) with
          | .ok true => compactParts { j with
              evicted := j.evicted + (r.pages.map (·.2.length)).sum, compacted := min 65535 (j.compacted + 1) } tab rest
          | .ok false => pure (j.fail 1)
          | .error e => pure (j.fail (code e.1)))
      ∧ compactParts j tab [] = pure j
      ∧ popFrames j 0 = pure (some [])
      ∧ (∀ n, popFrames j (n + 1) = (do
          match ← popFrame g j.ctx j.kvm with
          | none => pure none
          | some k => do
            match ← popFrames j n with
            | none => pure none
            | some ks => pure (some (k :: ks))))
      ∧ (∀ c, (j.fail c).failed = if j.failed = none then some c else j.failed)
      ∧ releasePages j (x.1 :: xs.map (·.1)) = (do
          let u ← getS
          let e ← tryM (storeN g .device (record u x.1 + 10) 2 0)
          let more ← releasePages j (xs.map (·.1))
          pure (match e with | .ok _ => more | .error e => some (code e.1)))
      ∧ mangleRun j r rest = (do
          let k := { j with runs := some rest }
          match ← readTable (deviceAgent j.ctx) j.table with
          | none => pure (k.fail 3)
          | some t =>
            if t.nlh < j.ch0 + j.nch then pure (k.fail 3)
            else do
              let h ← holdPages k r.pages
              let held := ((r.pages.zip h.1).filter (·.2)).map (·.1.1)
              let parts := runsOf r.pred ((r.pages.zip h.1).map fun y => (y.1.1, if y.2 then y.1.2 else []))
              let k' ← match h.2 with
                | some c => pure (k.fail c)
                | none => ensuring (compactParts k t parts) (do let _ ← releasePages k held)
              let e ← releasePages k held
              pure (match e with | some c => k'.fail c | none => k')))
    -- R315
    ∧ (∀ (j : LaunderJob) (page t : Word) (f n i : Nat) (ks : List Nat),
      let g := kvAgent j.ctx
      let at' (w : Word) (k : Nat) : Word := w + BitVec.ofNat 64 k
      let difference (a b : Nat) : Int := (BitVec.ofNat 32 a - BitVec.ofNat 32 b).toInt
      let readers (ph : Nat) : M Nat := do
        let c ← descQuad g j.kvm (6 + ph % 4 / 2)
        pure (c.toNat / 2 ^ (32 * (ph % 2)) % 2 ^ 32)
      launderPhase j = onDesc g j.kvm (do
          let q5 ← descQuad g j.kvm 5
          let p' := (q5.toNat % 2 ^ 32 + 1) % 2 ^ 32
          let c ← readers p'
          if c ≠ 0 then pure (j.fail 1)
          else do
            descPut g j.kvm 40 (bytesOfNat 4 p')
            pure { j with stage := 1, phase := p' })
      ∧ launderMark j = (do
          match ← tryM (descQuad g j.kvm 4) with
          | .error e => pure (j.fail (code e.1))
          | .ok registry => do
            let k ← markTables 1048576 registry j
            if k.failed.isSome then pure k
            else do
              let u ← getS
              if midAccess u j.ctx.part then waitFor .transit
              modS fun u => k.mendedFrames.foldl (fun u f => releaseFrame f j.ctx.part.val u) u
              pure { k with stage := 2, mendedFrames := [] })
      ∧ markTables (n + 1) t j = (if t = 0 then pure j else do
          match ← tryM (readTable g t) with
          | .error e => pure (j.fail (code e.1))
          | .ok none => pure (j.fail 3)
          | .ok (some tab) => do
            let k ← if tab.phase = 2 then pure j else markEntries t tab.nlh 0 j
            if k.failed.isSome then pure k else markTables n tab.link k)
      ∧ markEntries t (n + 1) i j = (do
          match ← tryM (loadN g .device (at' t (64 + 16 * i)) 8) with
          | .error e => pure (j.fail (code e.1))
          | .ok head => do
            let k ← markChain 1048576 (BitVec.ofNat 64 head) j
            if k.failed.isSome then pure k else markEntries t n (i + 1) k)
      ∧ markEntries t 0 i j = pure j
      ∧ markChain (n + 1) page j = (if page = 0 then pure j else do
          match ← tryM (markPage page j) with
          | .ok r => markChain n r.2 r.1
          | .error e => pure (j.fail (code e.1)))
      ∧ markPage page j = (do
          let u ← getS
          let k := (page - kvVa u j.kvm).toNat / 32768
          let h ← readHead g j.kvm k j.desc
          storeN g .device (kvRecord u j.kvm k + 12) 4 j.phase
          let j' ← mendPage j page
          pure (j', h.next))
      ∧ (∀ u l v c o, translate g .plain page u = .ok l v → l.place = .pad c o → mendPage j page u = .ok j v)
      ∧ (∀ u l v, translate g .plain page u = .ok l v → ∀ pa, l.place = .phys pa →
          let old := pa / 32768 * 32768
          let mends (new : Nat) : Prop := new % 32768 = 0
            ∧ ∀ k < 512, markOf v (old / 64 + k) = some .forwarded ∧ recordTarget v (old / 64 + k) = new / 64 + k
          ((∀ new, ¬ mends new) → mendPage j page u = .ok j v)
          ∧ (∀ new, mends new → ∀ b w, asOne g.writer l.leaf page (do
              let e ← homeQuad g.writer l.leaf page
              if pteFrame e ≠ old / 32768 then pure false
              else do
                homeWrite g.writer l.leaf
                  (bytesOfNat 8 (e - BitVec.ofNat 64 (old / 32768 * 2 ^ 17) + BitVec.ofNat 64 (new / 32768 * 2 ^ 17)).toNat) page
                pure true) v = .ok b w →
              mendPage j page u = .ok (if b then { j with mended := j.mended + 1, mendedFrames := j.mendedFrames ++ [old] } else j)
                (if b then dropCached j.ctx.part (some page) none w else w)))
      ∧ sweepFrame j f = (do
          let u ← getS
          let h ← loadN g .device (kvRecord u j.kvm f + 8) 8
          if h / 2 ^ 14 % 4 = 1 ∧ h / 2 ^ 16 % 2 ^ 16 = 0 ∧ difference (h / 2 ^ 32) j.phase < 0 then
            storeN g .device (kvRecord u j.kvm f + 8) 8 (j.phase % 2 ^ 32 * 2 ^ 32 + 2 * 2 ^ 14 + h % 2 ^ 9))
      ∧ freeFrame j f = (do
          let u ← getS
          let r := kvRecord u j.kvm f
          let h ← loadN g .device (r + 8) 8
          let tag := h / 2 ^ 32
          if h / 2 ^ 14 % 4 = 2 ∧ h / 2 ^ 16 % 2 ^ 16 = 0 then
            onDesc g j.kvm do
              let held ← collect (((List.range 4).filter fun (k : Nat) => decide (difference j.phase tag + (k : Int) ≤ 3)).map
                fun k => (tag + 2 ^ 32 - k) % 2 ^ 32) readers
              if held.all (· == 0) then do
                let q3 ← descQuad g j.kvm 3
                storeN g .device (r + 8) 8 (tag % 2 ^ 32 * 2 ^ 32 + h % 2 ^ 9)
                storeN g .device (r + 20) 4 (q3.toNat % 2 ^ 32)
                descPut g j.kvm 24 (bytesOfNat 8 ((q3.toNat / 2 ^ 32 + 1) % 2 ^ 32 * 2 ^ 32 + f))
                pure true
              else pure false
          else pure false)
      ∧ freeFrames [] j = pure { j with stage := 4 }
      ∧ freeFrames (f :: ks) j = (do
          match ← tryM (freeFrame j f) with
          | .ok b => freeFrames ks (if b then { j with freed := j.freed + 1 } else j)
          | .error e => pure (j.fail (code e.1)))
      ∧ (∀ c, (j.fail c).failed = if j.failed = none then some c else j.failed))

/-! ## Copies, streams and tile tasks -/

/-- R252 to R274: issuing a copy, binding and unbinding a stream, prefetching, and a copy operation's progress. The addresses of
an element are those of R256 and R267; an element leaves at its destination what R259 and R261 say, and an operation ends at
the first element that cannot be performed, with the code and the address of R265 in Q14, `cpstat` and `cpaddr`. -/
def Obligations.CopyAndStreams : Prop :=
  (∀ (s : State) (q : BitVec 2) (rd rs1 rs2 : Reg) (n : BitVec 3),
    let m := s.me
    let a := m.readX rs1
    let k := m.readX rs2
    let c := coreOf s.cur
    let r := 24 + n.toNat
    let on := m.vstate ≠ 0 ∧ m.vill = false
    let free := m.valloc = 32 ∧ m.binding r = .unbound
    let room (u : State) := (u.core c).copies.length < 128
    let added (o : CopyOp) (u : State) : State :=
      mapCore c (fun k => { k with copies := k.copies ++ [o] }) (mapMe (fun t => { t with opNext := t.opNext + 1 }) u)
    let ends (i : Instr) (c : Nat) (v : Word) (u : State) : Prop := exec i s = .next (takeTrap c v m.pc (turnsOver s u))
    (∀ i w, (i = .tcopy q rs1 ∨ i = .copy1d q rd rs1 rs2 ∨ i = .sbind n rs1 ∨ i = .sunbind n) → encode i = some w →
      (m.vstate = 0 → traps i s causeFirstUse (w.zeroExtend 64)) ∧ (m.vstate ≠ 0 → m.vill = true → traps i s causeIllegal (w.zeroExtend 64)))
    ∧ (let i := Instr.tcopy q rs1
       (on → a.toNat % 128 ≠ 0 → traps i s causeAlignment a)
       ∧ (on → a.toNat % 128 = 0 → ∀ d u, quadsAt s.agent .sequencer a 16 s = .ok d u →
           (copyOpOf s q.toNat a d = none → ends i causeOperand a u)
           ∧ (∀ o, copyOpOf s q.toNat a d = some o →
               (¬ room u → ∃ h : Held, exec i s = .next (mapMe (fun m => { m with waiting := some h }) (turnsOver s u)) ∧ h.kind = .capacity)
               ∧ (room u → ∀ u1 u2, storeN s.agent .sequencer (a + 112) 8 0 u = .ok () u1 →
                   releaseFor s.agent o.scope false u1 = .ok () u2 → completesAs i s (added o u2)))))
    ∧ (∀ d o, copyOpOf s q.toNat a d = some o →
        let g (i : Nat) : Word := d.getD i 0
        let half (first i : Nat) : Word := ((g (first + i / 2) >>> (32 * (i % 2))).extractLsb' 0 32).signExtend 64
        let nd := (g 2).toNat % 8 + 1
        o.src = g 0 ∧ o.dst = g 1 ∧ o.sigaddr = g 3 ∧ o.esize = 2 ^ ((g 2).toNat / 2 ^ 3 % 4) ∧ o.op = (g 2).toNat / 2 ^ 8 % 4
        ∧ o.mcast = (g 2).extractLsb' 16 8 ∧ o.sig = (g 2).toNat / 2 ^ 24 % 4 ∧ o.next = (g 15).toNat % 2 ^ 40 ∧ o.isTcopy = true
        ∧ o.dims = (List.range nd).map (fun i => ((g (4 + i / 4)).toNat / 2 ^ (16 * (i % 4)) % 2 ^ 16, half 6 i, half 10 i))
        ∧ o.total = (o.dims.map (·.1)).prod ∧ o.desc = a ∧ o.queue = q.toNat ∧ o.seq = s.cur ∧ o.number = m.opNext ∧ o.ctx = m.ctx)
    ∧ (let i := Instr.copy1d q rd rs1 rs2
       (on → 2 ^ 40 ≤ k.toNat → traps i s causeOperand k)
       ∧ (on → k.toNat < 2 ^ 40 → ¬ room s → holdsFor i s .capacity)
       ∧ (on → k.toNat < 2 ^ 40 → room s → ∀ u, releaseFor s.agent (engineScope m.scope) false s = .ok () u →
           ∃ o : CopyOp, o.src = a ∧ o.dst = m.readX rd ∧ o.total = k.toNat ∧ o.dims = [(k.toNat, 1, 1)] ∧ o.esize = 1 ∧ o.op = 0
             ∧ o.mcast = 0 ∧ o.isTcopy = false ∧ o.next = 0 ∧ o.seq = s.cur ∧ o.queue = q.toNat ∧ o.scope = engineScope m.scope
             ∧ o.number = m.opNext ∧ o.sig = 0 ∧ completesAs i s (added o u)))
    -- R267, R268
    ∧ (let i := Instr.sbind n rs1
       (on → ¬ free → traps i s causeOperand (BitVec.ofNat 64 r))
       ∧ (on → free → a.toNat % 128 ≠ 0 → traps i s causeAlignment a)
       ∧ (on → free → a.toNat % 128 = 0 → ∀ d u, quadsAt s.agent .sequencer a 16 s = .ok d u →
           let g (i : Nat) : Word := d.getD i 0
           let nd := (g 1).toNat / 2 ^ 3 % 8 + 1
           let ew := 8 * 2 ^ ((g 1).toNat / 2 % 4)
           let count (i : Nat) : Nat := (g (2 + i / 4)).toNat / 2 ^ (16 * (i % 4)) % 2 ^ 16
           let total := ((List.range nd).map count).prod
           let valid : Prop := (∀ i ∈ elemRange 12 16, g i = 0) ∧ (g 1).toNat / 2 ^ 9 = 0 ∧ (g 1).toNat / 2 ^ 6 % 8 < 6
             ∧ (∀ i < nd, count i ≠ 0) ∧ (∀ i ∈ elemRange nd 8, count i = 0 ∧ g (4 + i) = 0) ∧ total ≤ 2 ^ 40
             ∧ (g 0).toNat % (ew / 8) = 0 ∧ ∀ i < nd, (g (4 + i)).toNat % (ew / 8) = 0
           let desc (sc : Scope) : StreamDesc :=
             { addr := a, base := g 0, dims := (List.range nd).map fun i => (count i, g (4 + i)), total := total, ew := ew, scope := sc
               write := (g 1).getLsbD 0 }
           (¬ valid → ends i causeOperand a u)
           ∧ (valid → ∀ sc, Scope.ofBits ((g 1).extractLsb' 6 3) = some sc → ∀ v, releaseFor s.agent (engineScope sc) false u = .ok () v →
               completesAs i s (mapMe (fun t => { (t.zeroReg r).setBinding r (.mem (desc sc) t.ctx 0 []) with vstate := 3 }) v))))
    ∧ (let i := Instr.sunbind n
       (on → m.binding r = .unbound → completes i s id)
       ∧ (on → ∀ d x p b, m.binding r = .mem d x p b →
           (d.write = true → heldOp s s.cur (.stream r) = true → holdsFor i s .transit)
           ∧ (d.write = false ∨ heldOp s s.cur (.stream r) = false →
               completesAs i s (mapMe (fun t => { (t.zeroReg r).setBinding r .unbound with vstate := 3 }) (dropStream s.cur r s))))
       ∧ (on → ∀ b x kvm u, m.binding r = .kv b x kvm → countMine kvm b.phase (-1) s = .ok () u →
           completesAs i s (mapMe (fun t => { (t.zeroReg r).setBinding r .unbound with vstate := 3 }) u))))
  ∧ (∀ (t : Slot) (r : Nat) (l : Fin 64) (j : Nat), j < 32768 →
      (t.zeroReg r).lanes[l].getLsbD j = (t.lanes[l].getLsbD j && !decide (r * t.slice ≤ j ∧ j < r * t.slice + t.slice)))
  -- R256, R267: element i of an operation, element p of a stream
  ∧ (∀ (o : CopyOp) (d : StreamDesc) (i : Nat),
      let at' (ds : List (Nat × Word)) : Word :=
        ((List.range ds.length).map fun k =>
          BitVec.ofNat 64 (i / ((ds.take k).map (·.1)).prod % (ds.getD k (1, 0)).1) * (ds.getD k (1, 0)).2).sum
      o.addresses i = (o.src + at' (o.dims.map fun x => (x.1, x.2.1)), o.dst + at' (o.dims.map fun x => (x.1, x.2.2)))
      ∧ d.address i = d.base + at' d.dims)
  -- R259, R261: what is read, and what is written where
  ∧ (∀ (co : CoreId) (i : Nat) (o : CopyOp) (va : Word) (s : State),
      let g := o.agent co
      let cluster := clusterOfCore co
      let named := (List.finRange 8).filter fun k => o.mcast.getLsbD k.val
      copySource co i o va = (if o.op = 1 then pure (none, 0) else do
          let l ← translate g .copyRead va
          pinForCopy co i l va
          let v ← readLoc g o.scope l o.esize va
          pure (some l, v))
      ∧ (o.mcast = 0 → copyDests co i o va = (do
          let l ← translate g (if 2 ≤ o.op then .copyAdd else .copyWrite) va
          check (decide (o.op < 2) || !farPlace l) causeAccess va
          pinForCopy co i l va
          canWrite l va
          if 2 ≤ o.op then do
            let _ ← readLoc g o.scope l o.esize va
          pure [l]))
      ∧ (o.mcast ≠ 0 → copyDests co i o va = (do
          let u ← getS
          let ds ← mcastPlaces u co o va
          if 2 ≤ o.op then forList ds fun l => do
            let _ ← readLoc g o.scope l o.esize va
          pure ds))
      ∧ (∀ off, padOffset o.dst.toNat = some off →
          let here := (BitVec.ofNat 64 off + (va - o.dst)).toNat
          (here + o.esize ≤ 2 ^ 22 → (∀ k ∈ named, (s.core (coreIn cluster k)).owner = some o.ctx.part) →
            mcastPlaces s co o va s = .ok (named.map fun k => { place := .pad (coreIn cluster k) here }) s)
          ∧ (2 ^ 22 < here + o.esize ∨ (∃ k ∈ named, (s.core (coreIn cluster k)).owner ≠ some o.ctx.part) →
            mcastPlaces s co o va s = .error (.trap causeAccess va) s))
      ∧ (padOffset o.dst.toNat = none → mcastPlaces s co o va s = .error (.trap causeAccess va) s)
      ∧ (∀ old v : Nat, copyResult 0 old v = v ∧ copyResult 1 old v = 0
        ∧ copyResult 2 old v = (fp32.add .rne false (fp32.decode false old) (fp32.decode false v)).bits
        ∧ copyResult 3 old v = (bf16.add .rne false (bf16.decode false old) (bf16.decode false v)).bits)
      ∧ (∀ x : CopyElem, ∃ v : M Nat,
          (x.source = none → v = pure 0)
          ∧ (∀ l, x.source = some l → v = pure x.value ∨ v = (do
              match ← tryM (readLoc g o.scope l o.esize x.sva) with
              | .ok v => pure v
              | .error _ => pure x.value))
          ∧ performCopy co o x s = (do
              let v ← v
              forList x.dests fun l =>
                if o.op < 2 then writeLoc g o.scope l o.esize (copyResult o.op 0 v) x.dva
                else do
                  let _ ← rmwLoc g o.scope l o.esize x.dva fun old => some (copyResult o.op old v)) s)
      ∧ (∀ xs, (copyOrder s xs).Perm xs)
      ∧ (∀ f k, planCopy co i o (f + 1) k = (do
          match ← tryM (copySource co i o (o.addresses k).1) with
          | .error e => pure ([], some (k, 0, (o.addresses k).1, e.1))
          | .ok x => do
            match ← tryM (copyDests co i o (o.addresses k).2) with
            | .error e => pure ([], some (k, 1, (o.addresses k).2, e.1))
            | .ok ds => do
              let more ← planCopy co i o f (k + 1)
              pure ({ i := k, sva := (o.addresses k).1, dva := (o.addresses k).2, source := x.1, value := x.2, dests := ds } :: more.1,
                more.2)))
      ∧ (∀ k, planCopy co i o 0 k = pure ([], none)))
  -- R264, R265: the end
  ∧ (∀ (co : CoreId) (i : Nat) (o : CopyOp) (next : Nat) (fail : Option (Nat × Nat × Word)) (s : State),
      let g := o.agent co
      let st := if fail = none then 1 else 2
      let code := match fail with | some f => f.1 | none => 0
      let recorded (k side : Nat) (addr : Word) (u : State) : State := mapSlot o.seq (fun t =>
        if t.cpstat.getLsbD 63 then t
        else { t with
          cpstat := BitVec.ofNat 64 (2 ^ 63 + side * 2 ^ 11 + (if o.isTcopy then 2 ^ 10 else 0) + o.queue * 2 ^ 8 + k), cpaddr := addr }) u
      (∀ k side addr u, recordCopyFailure o k side addr u = recorded k side addr u)
      ∧ ∀ u1 u2 u3 u4 z q c,
        heldOp s o.seq (.copy o.number) = false →
        forList o.pins (fun p => do let _ ← attempt (releasePin (g.atS o.ctx) o.kvm p)) s = .ok () u1 →
        releaseFor g o.scope false u1 = .ok () u2 →
        (if o.isTcopy then attempt (storeN g o.scope (o.desc + 112) 8 (st * 2 ^ 62 + code * 2 ^ 56 + next % 2 ^ 40)) else pure none) u2
          = .ok q u3 →
        heldOp u3 o.seq (.copy o.number) = false →
        signal g o.scope o.sig o.sigaddr u3 = .ok c u4 → endCopy co i o next fail s = .ok () z →
        (z.core co).copies = (u4.core co).copies.eraseIdx i
        ∧ (z.slot o.seq).doneCp = max (u4.slot o.seq).doneCp (scopeLevel o.scope)
        ∧ (let w1 := match fail with | some f => recorded f.1 f.2.1 f.2.2 u4 | none => u4
           let w2 := match q with | some (.trap k _) => recorded (failureCode k) 1 (o.desc + 112) w1 | _ => w1
           let w3 := match c with | some k => recorded k 1 o.sigaddr w2 | none => w2
           (z.slot o.seq).cpstat = (w3.slot o.seq).cpstat ∧ (z.slot o.seq).cpaddr = (w3.slot o.seq).cpaddr))
  ∧ (∀ (s : State) (e : SeqId), (s.slot e).busy = true → deviceStopped s = false → ∀ u, fillStreams e s = .ok () u →
      exec (.streamFill e) s = .next u)
  ∧ (∀ (s : State) (co : CoreId) (i upto : Nat),
      let x := Instr.copyOperationEnd co i upto
      ((s.core co).copies[i]? = none → exec x s = .next s)
      ∧ (∀ o, (s.core co).copies[i]? = some o → o.mayRun s co i = false → exec x s = .next s)
      ∧ (∀ o hi, (s.core co).copies[i]? = some o → o.mayRun s co i = true →
          let cuts (n : Nat) : Prop := 0 < n ∧ n < o.total ∧ (o.addresses (n - 1)).2.toNat / 8 = (o.addresses n).2.toNat / 8
          upto ≤ hi → (∀ n, upto ≤ n → n < hi → cuts n) → (hi = upto + 8 ∨ (hi < upto + 8 ∧ ¬ cuts hi)) →
          let top := min hi o.total
          (top ≤ o.next → o.next ≠ o.total → exec x s = .next s)
          ∧ (o.next < top ∨ o.next = o.total →
              ∀ xs stop u v, planCopy co i o (top - o.next) o.next (beginCopy co i o s) = .ok (xs, stop) u →
                forList (copyOrder u xs) (performCopy co o) u = .ok () v → ∀ p, (v.core co).copies[i]? = some p →
                let next := match stop with | some f => f.1 | none => max o.next top
                let fail := stop.map fun f => (failureCode f.2.2.2, f.2.1, f.2.2.1)
                let z := mapCore co (fun k => { k with copies := k.copies.set i { p with next := next } }) v
                (fail = none → next ≠ o.total → exec x s = .next z)
                ∧ (fail ≠ none ∨ next = o.total →
                    (∀ w, endCopy co i { p with next := next } next fail z = .ok () w → exec x s = .next w)
                    ∧ (∀ k w, endCopy co i { p with next := next } next fail z = .error (.wait k) w →
                        exec x s = .next { z with pri := w.pri })))))

/-- R275 to R293: the STAGE forms issue a tile task; a task whose awaits are met, which no fence holds and for which its
engines are free starts; it performs its rows, and ends done, stopped or refused. What a row computes (the elements, weights
and scales it reads, the terms of each output, the sums it rounds) and what it leaves in the accumulator store, in D and in the
task's flags is spelled out (R275 to R281, R288, R289). -/
def Obligations.TileTasks : Prop :=
  (∀ (s : State) (rs1 : Reg),
    let m := s.me
    let d := m.readX rs1
    let cl := clusterOf s.cur
    let ends (i : Instr) (u : State) : Prop := exec i s = .next (takeTrap causeOperand d m.pc (turnsOver s u))
    (∀ (i : Instr) (form : Option Nat),
      ((i = .tqtile rs1 ∧ form = none) ∨ (i = .mstage rs1 ∧ form = some 0) ∨ (i = .mchain rs1 ∧ form = some 1)
        ∨ (i = .mdense rs1 ∧ form = some 2) ∨ (i = .mload rs1 ∧ form = some 3) ∨ (i = .mstore rs1 ∧ form = some 4)
        ∨ (i = .mzero rs1 ∧ form = some 5)) →
      (d.toNat % 128 ≠ 0 → traps i s causeAlignment d)
      ∧ (d.toNat % 128 = 0 → ∀ r u, quadsAt s.agent .sequencer d 16 s = .ok r u →
          let old := r.getD 0 0
          let q0 := match form with | none => old | some o => (old &&& ~~~0xF#64) ||| BitVec.ofNat 64 o
          let q := q0 :: r.drop 1
          let resuming := old.toNat / 2 ^ 62 = 2
          let ok := recordOk s q = true ∧ (resuming → q0 = old)
          let mask := q0.extractLsb' 16 8
          let reach := engineReach (coreOf s.cur) mask (engineScope ((Scope.ofBits (q0.extractLsb' 26 3)).getD .device))
          let low := q0.toNat % 2 ^ 40
          let keeps := if resuming then old.toNat / 2 ^ 40 % 2 ^ 11 * 2 ^ 40 + old.toNat / 2 ^ 54 % 4 * 2 ^ 54 else 0
          let snap := if resuming then r.drop 8 else snapshotOf m
          (¬ ok → ends i u)
          ∧ (ok → ∀ ptab v,
              -- the pointer table of a chain
              collect (List.range (if q0.toNat % 16 = 1 then q0.toNat / 2 ^ 12 % 16 + 1 else 0)) (fun k => do
                let x ← loadN s.agent .sequencer (q.getD 2 0 + BitVec.ofNat 64 (8 * k)) 8
                pure (BitVec.ofNat 64 x)) u = .ok ptab v →
              let aligned := ∀ x ∈ ptab, x.toNat % 64 = 0
              (¬ aligned → ends i v)
              ∧ (aligned → ∀ w,
                  (if resuming then w = v
                   else forList snap.zipIdx (fun e => storeN s.agent .sequencer (d + BitVec.ofNat 64 (64 + 8 * e.2)) 8 e.1.toNat) v
                     = .ok () w) →
                  ((∃ e ∈ mayUse (coreOf s.cur) mask, 16 ≤ engineLoad s cl e) →
                    ∃ h : Held, exec i s = .next (mapMe (fun m => { m with waiting := some h }) (turnsOver s w)) ∧ h.kind = .capacity)
                  ∧ ((∀ e ∈ mayUse (coreOf s.cur) mask, engineLoad s cl e < 16) → ∀ w1 w2,
                      storeN s.agent .sequencer d 8 (low + keeps) w = .ok () w1 → releaseFor s.agent reach false w1 = .ok () w2 →
                      ∃ t : TileTask, t.record = d ∧ t.seq = s.cur ∧ t.number = m.opNext ∧ t.ctx = m.ctx ∧ t.running = false
                        ∧ t.engines = [] ∧ t.row = (if resuming then old.toNat / 2 ^ 40 % 2 ^ 11 else 0)
                        ∧ t.met0 = decide (q0.toNat / 64 % 4 = 0) ∧ t.met1 = decide (q0.toNat / 256 % 4 = 0) ∧ t.due = true
                        ∧ t.q.toList = ((BitVec.ofNat 64 low :: (q.drop 1).take 7 ++ snap) ++ List.replicate 16 0).take 16
                        ∧ t.ptab = (if q0.toNat % 16 = 1 then ptab else [q.getD 2 0])
                        ∧ completesAs i s (mapCluster cl (fun k => { k with tasks := k.tasks ++ [t] })
                            (mapMe (fun t => { t with opNext := t.opNext + 1 }) w2)))))))
    ∧ ((snapshotOf m).take 4 = m.tcfg.toList ∧ ∀ k < 16,
        ((snapshotOf m).getD (4 + k / 4) 0).toNat / 2 ^ (16 * (k % 4)) % 2 ^ 16 = (m.tsr.toList.getD k 0).toNat % 2 ^ 16))
  ∧ (∀ (s : State) (c : ClusterId) (i : Nat) (t : TileTask), (s.cluster c).tasks[i]? = some t →
      let put (f : TileTask → TileTask) (u : State) : State := match (u.cluster c).tasks[i]? with
        | some x => mapCluster c (fun k => { k with tasks := k.tasks.set i (f x) }) u
        | none => u
      let await (k : Nat) : M Bool := do
        let va := if k = 0 then t.q[4] else t.q[5]
        let l ← translate { ctx := t.ctx, core := some (coreOf t.seq), cluster := some c, seq := none } .load va
        let v ← readLoc { ctx := t.ctx, core := none, cluster := some c, seq := none } t.scope l 8 va
        pure (if t.q[0].toNat / 2 ^ (6 + 2 * k) % 4 = 1 then decide (v = 0) else decide (t.q[6].toNat / 2 ^ (32 * k) % 2 ^ 32 ≤ v))
      let awaits : M (Bool × Bool) := do
        let m0 ← if t.met0 then pure true else await 0
        let m1 ← if t.met1 then pure true else await 1
        pure (m0, m1)
      let reach := engineReach (coreOf t.seq) t.mask t.scope
      (t.running = true ∨ (t.due = false ∧ s.cycle < t.lastRead + 1024) → exec (.tileTaskReady c i) s = .next s)
      ∧ (t.running = false → (t.due = true ∨ t.lastRead + 1024 ≤ s.cycle) →
          (∀ b u, awaits s = .ok b u → exec (.tileTaskReady c i) s
            = .next (put (fun x => { x with met0 := b.1, met1 := b.2, due := false, lastRead := u.cycle }) u))
          ∧ (∀ k e u v, awaits s = .error (.trap k e) u → endTile c i 2 (failureCode k) 0 u = .ok () v →
              exec (.tileTaskReady c i) s = .next v))
      ∧ (placement s c t = none ∨ t.ready s = false → exec (.tileTaskStart c i) s = .next s)
      ∧ (∀ es, placement s c t = some es → t.ready s = true →
          let older : Prop := if replayMode s c = 2
            then ∃ u ∈ (s.cluster c).tasks.take i, u.ready s = true ∧ u.record = t.record ∧ u.ctx.part = t.ctx.part
            else ∃ u ∈ (s.cluster c).tasks.take i, u.ready s = true ∧ ∃ fs, placement s c u = some fs ∧ ∃ e ∈ fs, e ∈ es
          (mayPick s c (tilePick t es) = false ∨ older → exec (.tileTaskStart c i) s = .next s)
          ∧ (mayPick s c (tilePick t es) = true → ¬ older →
              let x : TileTask := { t with running := true, engines := es, began := s.cycle }
              ∀ u, forList es (fun e => acquireFor (t.agent c e) reach false)
                  (mapCluster c (fun k => { k with tasks := k.tasks.set i x })
                    (traceEngine 0 6 t.seq t.strip s.cycle t.record (BitVec.ofNat 64 (es.headD 0)) s)) = .ok () u →
                (snapshotOk x = true → exec (.tileTaskStart c i) s = .next (madePick c (tilePick t es) u))
                ∧ (snapshotOk x = false → ∀ v, endTile c i 3 5 t.row (madePick c (tilePick t es) u) = .ok () v →
                    exec (.tileTaskStart c i) s = .next v)))
      ∧ (∀ upto, t.running = false → t.stop = false → exec (.tileTaskEnd c i upto) s = .next s)
      ∧ (∀ upto u, t.running = false → t.stop = true → endTile c i 2 0 t.row s = .ok () u → exec (.tileTaskEnd c i upto) s = .next u)
      ∧ (∀ upto, t.running = true →
          let hi := min upto t.rows
          ∀ bad u v, firstBadRow c i t (elemRange t.row hi) s = .ok bad u →
            let n := match bad with | some b => b.1 | none => max t.row hi
            forList (sortByKey (fun b => s.free .copyOrder b) (elemRange t.row n)) (performRow c i) u = .ok () v →
            let z := put (fun x => { x with row := n }) v
            (∀ b w, bad = some b → endTile c i 2 b.2 b.1 z = .ok () w → exec (.tileTaskEnd c i upto) s = .next w)
            ∧ (bad = none → t.rows ≤ n → ∀ w, endTile c i 1 0 t.rows z = .ok () w → exec (.tileTaskEnd c i upto) s = .next w)
            ∧ (bad = none → n < t.rows → t.stop = true → ∀ w, endTile c i 2 0 n z = .ok () w → exec (.tileTaskEnd c i upto) s = .next w)
            ∧ (bad = none → n < t.rows → t.stop = false → exec (.tileTaskEnd c i upto) s = .next z))
      -- the row, on every engine of the task; its flags
      ∧ (∀ b outs u v, collect t.engines (rowOn c i t b) s = .ok outs u → forList outs (writeRow c t) u = .ok () v →
          performRow c i b s = .ok () (put (fun x => { x with
            ofl := x.ofl || outs.foldl (fun a o => a ||| o.flags) 0 &&& flagOF != 0
            nv := x.nv || outs.foldl (fun a o => a ||| o.flags) 0 &&& flagNV != 0 }) v))
      ∧ (∀ b bs, firstBadRow c i t (b :: bs) = (do
          match ← tryM (collect t.engines (rowOn c i t b)) with
          | .error e => pure (some (b, failureCode e.1))
          | .ok _ => firstBadRow c i t bs)))
  -- R278: the formats, the product
  ∧ (∀ v : Nat, (List.range 11).map engWidth = [32, 16, 16, 8, 8, 6, 6, 4, 6, 8, 4]
      ∧ engValue 0 v = fp32.decode false v ∧ engValue 1 v = bf16.decode false v ∧ engValue 2 v = fp16.decode false v
      ∧ engValue 3 v = e4m3.decode false v ∧ engValue 4 v = e5m2.decode false v ∧ engValue 5 v = e3m2.decode false v
      ∧ engValue 6 v = e2m3.decode false v ∧ engValue 7 v = e2m1.decode false v ∧ engValue 8 v = l6Decode v
      ∧ engValue 9 v = fvalOfInt (BitVec.ofNat 8 v).toInt ∧ engValue 10 v = fvalOfInt (BitVec.ofNat 4 v).toInt)
  ∧ (∀ c row e : Nat, engElem c row e =
      let b := row / 2 ^ (e * engWidth c) % 2 ^ engWidth c
      { v := engValue c b, l6 := if c = 8 then some b else none })
  ∧ (∀ w x : EngElem, engProduct w x = match w.l6, x.l6 with
      | some a, some b => termVal (l6Product a b)
      | _, _ => termProd w.v x.v)
  ∧ (∀ (w : EngElem) (sc : Nat), (w.scaled sc).l6 = w.l6
      ∧ ((w.scaled sc).v = if sc = 255 then defaultNan else match w.v with | .fin x => .fin (x.scale ((sc : Int) - 127)) | y => y))
  ∧ (∀ (c : ClusterId) (i : Nat) (t : TileTask) (e b k : Nat) (x : List EngElem) (ts : List Term) (outs : List (List Term)) (fl : FFlags),
      let core := engineCore c e
      let weightAt (row n scales sc : Nat) : EngElem :=
        if t.wscale then (engElem t.wfmt row n).scaled (scales / 2 ^ (8 * sc) % 256) else engElem t.wfmt row n
      let bytes (f n : Nat) : Nat := (n * engWidth f + 7) / 8
      let scales (base : Word) (used count : Nat) : M Nat :=
        if t.wscale then readW c i t base (64 * ((used + 63) / 64)) count else pure 0
      -- entry (row0 + b, col), a pair standing at 2p and 2p + 1
      let entry (col : Nat) : Nat := (t.row0 + b) * 2 ^ t.lgrow + col
      let column (col : Nat) : Nat := entry (if t.wide then 2 * (t.col0 + col) else t.col0 + col)
      let f := outFmt t.ofmt
      let none' : EngElem := ⟨.fin ⟨false, 0, 0⟩, none⟩
      -- R275, R276
      (∀ w : Nat → Nat → Nat → EngElem, ∀ lgs lgr out : Nat,
        let st := 2 ^ lgs
        let rad := 2 ^ lgr
        let r := out / st % rad
        let g := out / (rad * st) * st + out % st
        stageTerms lgs lgr w x.toArray out = (List.range rad).map fun j => engProduct (w g r j) (x.getD (out - r * st + j * st) none'))
      ∧ stageRow c i t k x = (do
          let n := 2 ^ t.lgn
          let rad := 2 ^ t.lgr k
          let base := t.ptab.getD k 0
          let ws ← readW c i t base 0 (bytes t.wfmt (n * rad))
          let sc ← scales base (bytes t.wfmt (n * rad)) (n * (rad / 32))
          pure ((List.range n).map fun out => stageTerms (t.lgs k) (t.lgr k)
            (fun g a j => weightAt ws (g * rad * rad + a * rad + j) sc ((g * rad + a) * (rad / 32) + j / 32)) x.toArray out))
      ∧ chainRows c i t [] x fl = pure (x, fl)
      ∧ (∀ ks, chainRows c i t (k :: ks) x fl = (do
          let sums ← stageRow c i t k x
          let out := sums.map fun ts => (outFmt t.ifmt).windowRound false ts
          chainRows c i t ks (out.map fun o => { v := (outFmt t.ifmt).decode false o.bits, l6 := none })
            (out.foldl (fun a o => a ||| o.flags) fl)))
      -- R277
      ∧ denseRow c i t x = (do
          let rows ← collect (List.range t.kdim) fun k => readW c i t t.q[2] (k * t.wstride) (bytes t.wfmt t.mdim)
          let sc ← scales t.q[2] (t.kdim * t.wstride) (t.kdim / 32 * t.mdim)
          pure ((List.range t.mdim).map fun m => (x.zip rows).zipIdx.map fun y =>
            engProduct (weightAt y.1.2 m sc (y.2 / 32 * t.mdim + m)) y.1.1))
      -- R289, R281
      ∧ (t.wide = false → accWrite core t b k ts = (do
          let old ← if t.accum then (do let v ← readAcc core (column k); pure [termOf (fp32.decode false v)]) else pure []
          let r := fp32.windowRound false (ts ++ old)
          pure ([(column k, r.bits)], r.flags)))
      ∧ (t.wide = true → accWrite core t b k ts = (do
          let hi ← if t.accum then readAcc core (column k) else pure 0
          let lo ← if t.accum then readAcc core (column k + 1) else pure 0
          let p := pairOf (windowOf (termOf (fp32.decode false hi) :: termOf (fp32.decode false lo) :: ts))
          pure ([(column k, p.1), (column k + 1, p.2.1)], p.2.2)))
      ∧ (t.st = true → computeOut c t e b outs fl = (do
          let rs := outs.map fun ts => f.windowRound false ts
          let l ← rowAt c t e t.q[3] t.dstride b (t.width * (f.width / 8))
          pure { core := core, entries := [], d := some (l, (rs.map (·.bits)).flatMap (bytesOfNat (f.width / 8)))
                 flags := rs.foldl (fun a r => a ||| r.flags) fl }))
      ∧ (t.st = false → computeOut c t e b outs fl = (do
          let ws ← collect outs.zipIdx fun o => accWrite core t b o.2 o.1
          pure { core := core, entries := ws.flatMap (·.1), d := none, flags := ws.foldl (fun a r => a ||| r.2) fl }))
      ∧ rowOfA c t e b = (do
          let l ← rowAt c t e t.q[1] t.astride b (bytes t.afmt t.alen)
          let v ← readLoc (t.agent c e) t.scope l (bytes t.afmt t.alen) t.q[1]
          pure ((List.range t.alen).map (engElem t.afmt v)))
      ∧ (t.op = 0 → rowOn c i t b e = (do
          let x ← rowOfA c t e b
          let outs ← stageRow c i t 0 x
          computeOut c t e b outs 0))
      ∧ (t.op = 1 → rowOn c i t b e = (do
          let x ← rowOfA c t e b
          let y ← chainRows c i t (List.range t.nst) x 0
          let outs ← stageRow c i t t.nst y.1
          computeOut c t e b outs y.2))
      ∧ (t.op = 2 → rowOn c i t b e = (do
          let x ← rowOfA c t e b
          let outs ← denseRow c i t x
          computeOut c t e b outs 0))
      ∧ (t.op = 3 → rowOn c i t b e = (do
          let x ← rowOfA c t e b
          let rs := x.map fun v => convert (.flt fp32) .rne false v.v
          pure { core := core, d := none, flags := rs.foldl (fun a r => a ||| r.flags) 0
                 entries := rs.zipIdx.flatMap fun r => (column r.2, r.1.bits) :: (if t.wide then [(column r.2 + 1, 0)] else []) }))
      ∧ (t.op = 4 → rowOn c i t b e = (do
          let rs ← collect (List.range t.ncols) fun col => do
            let hi ← readAcc core (column col)
            if t.wide then do
              let lo ← readAcc core (column col + 1)
              pure (f.add .rne false (fp32.decode false hi) (fp32.decode false lo))
            else pure (convert (.flt f) .rne false (fp32.decode false hi))
          let l ← rowAt c t e t.q[3] t.dstride b (t.width * (f.width / 8))
          pure { core := core, entries := [], d := some (l, (rs.map (·.bits)).flatMap (bytesOfNat (f.width / 8)))
                 flags := rs.foldl (fun a r => a ||| r.flags) 0 }))
      ∧ (5 ≤ t.op → rowOn c i t b e = (
          let zeros := (List.range t.ncols).flatMap fun col => (column col, 0) :: (if t.wide then [(column col + 1, 0)] else [])
          pure { core := core, entries := zeros, d := none, flags := 0 }))
      -- R288: where a row of A or D stands
      ∧ (∀ (s : State) (a : Word) (stride n : Nat),
          let o := a.toNat - localBase
          let own := 2 ^ 28 ≤ o ∧ o < 2 ^ 28 + 2 ^ 22
          let off := o % 2 ^ 22 + b * stride
          let at' := engineCore c (if own ∨ 1 < t.engines.length then e else o / 2 ^ 22)
          rowAt c t e a stride b n s = if (own ∨ o < 2 ^ 25) ∧ (s.core at').owner = some t.ctx.part ∧ off + n ≤ 2 ^ 22
            then .ok { place := .pad at' off } s else .error (.trap causeAccess (a + BitVec.ofNat 64 (b * stride))) s)
      -- what is written
      ∧ (∀ (s : State) (o : RowOut),
          (o.d = none → writeRow c t o s = .ok () (o.entries.foldl (fun u x => putAcc o.core x.1 x.2 u) s))
          ∧ ∀ k off bs, o.d = some ({ place := .pad k off }, bs) → writeRow c t o s
            = .ok () (bs.zipIdx.foldl (fun u x => padPut k (off + x.2) x.1 u) (o.entries.foldl (fun u x => putAcc o.core x.1 x.2 u) s)))
      ∧ (∀ (s : State) (k : CoreId) (n v n' : Nat) (y : Byte),
          Sparse.get 0 ((putAcc k n v s).core k).acc n' = (if n' = n then BitVec.ofNat 32 v else Sparse.get 0 (s.core k).acc n')
          ∧ (n ∉ ((putAcc k n v s).core k).badAcc)
          ∧ padByte (padPut k n y s) k n' = (if n' = n then y else padByte s k n')
          ∧ (n' ∈ (s.core k).badAcc → readAcc k n' s = .error (.trap causeData 0) s)
          ∧ (n' ∉ (s.core k).badAcc → readAcc k n' s = .ok (Sparse.get 0 (s.core k).acc n').toNat s)))

/-! ## Launches, scheduling, tracing -/

/-- R164, R352: the queue unit handles the next record of a queue: refused with its log code, or started whole at the places
found for it. R169: a pick takes the oldest ready record of the highest level that a core admits. R169, R170: ageing, and
the rereading of join counters. -/
def Obligations.Scheduling : Prop :=
  ∀ (s : State) (p : PartId) (n : Fin 8) (cl : ClusterId) (idx : Nat),
    (let i := Instr.startRecordAdmission p
     let hq := (s.part p).queues[n]
     let va := entryVa hq
     ((s.part p).pstate = 2 ∨ deviceStopped s = true → exec i s = .next s)
     ∧ ((∀ m : Fin 8, (s.part p).queues[m].avail = 0) → exec i s = .next s)
     ∧ ((s.part p).pstate ≠ 2 → deviceStopped s = false → hq.avail ≠ 0 → (∀ m : Fin 8, m ≠ n → (s.part p).queues[m].avail = 0) →
         (∀ e u, quadsAt (hostAgent s p) .system va 16 s = .error e u → (∀ k, e ≠ .wait k) → exec i s = .next (refuseRecord p n 5 va u))
         ∧ (∀ q u, quadsAt (hostAgent s p) .system va 16 s = .ok q u →
             let q2 := (q.getD 2 0).toNat
             let w := dropWaits (waitingCores u p n) u
             (startLevels q = none → exec i s = .next (refuseRecord p n 1 va u))
             ∧ (startLevels q ≠ none → q2 / 2 ^ 12 % 16 ≠ p.val → exec i s = .next (refuseRecord p n 2 va u))
             ∧ (∀ ls ts, startLevels q = some ls → q2 / 2 ^ 12 % 16 = p.val →
                 placeLaunch w { part := p, request := q2 % 16, shrinks := false } ls = some ts →
                 exec i s = .next (reconsiderAll (waitingCores u p n) (consumeRecord p n (startLaunch p q hq.sup ls ts w))))))
     ∧ (∀ code, ((refuseRecord p n code va s).part p).queues[n].ci = hq.ci + 1))
    ∧ (let i := Instr.ctsPick cl
       let r0 := replayIdle cl s
       let k := r0.cluster cl
       (deviceStopped s = true → exec i s = .next s)
       ∧ (deviceStopped s = false → choosePick r0 cl = none → exec i s = .next r0)
       ∧ (∀ r j q now, deviceStopped s = false → choosePick r0 cl = some (r, j, q, now) →
           exec i s = .next (makePick cl r j q now r0)
           ∧ (replayMode r0 cl ≠ 2 → k.queue[j]? = some r ∧ r.awaited = none ∧ placeRecord r0 r (placesOf cl r) = some (q, now)
               ∧ (∀ e ∈ k.queue, e.awaited = none → r.level < e.level → e.level < 4 → placeRecord r0 e (placesOf cl e) = none)
               ∧ (∀ (m : Nat) (e : ContRec), m < j → k.queue[m]? = some e → e.awaited = none → e.level = r.level → e.part = r.part →
                   placeRecord r0 e (placesOf cl e) = none))))
    ∧ (∀ r, (s.cluster cl).queue[idx]? = some r →
        let i := Instr.recordAging cl idx
        let above := ((s.cluster cl).queue.filter fun e => e.part == r.part && e.level == r.level + 1).length
        let room : Prop := above < 64 + spillEntries (s.part r.part).spill
        let left := mapCluster cl (fun k => { k with queue := k.queue.eraseIdx idx }) s
        (r.awaited = none → r.level < 3 → 2 ^ 16 ≤ s.cycle - r.since → room →
          (spillBad s r = true → exec i s = .next (discardPart r.part 3 0 left))
          ∧ (spillBad s r = false → ∀ bad u, refillHead cl r.part r.level 64 left = (bad, u) → exec i s
              = .next (if bad = none then enqueueCont cl { r with level := r.level + 1, since := s.cycle } u else discardPart r.part 3 0 u)))
        ∧ (r.awaited ≠ none ∨ 3 ≤ r.level ∨ s.cycle - r.since < 2 ^ 16 ∨ ¬ room → exec i s = .next s))
    -- R167, R168: the tail of a queue, in the cluster or in the spill region
    ∧ (∀ r : ContRec,
        let w := (s.part r.part).spill
        let per := w.toNat % 2 ^ 12 * 2 ^ 20 / 96 / 64
        let place := w.toNat / 2 ^ 12 % 2 ^ 40 * 4096 + (4 * cl.val + r.level) * (per * 64)
        let held := ((s.cluster cl).queue.filter fun e => e.part == r.part && e.level == r.level).length
        spillEntries w = per
        ∧ (held < 64 → enqueueCont cl r s = mapCluster cl (fun k => { k with queue := k.queue ++ [{ r with spilled := none }] }) s)
        ∧ (64 ≤ held → per ≠ 0 → ∃ k < per, ∃ x, x.queue = (s.cluster cl).queue ++ [{ r with spilled := some (place + 64 * k) }]
            ∧ enqueueCont cl r s = mapCluster cl (fun _ => x) (deviceWrite (place + 64 * k)
                ((List.range 64).map fun j => BitVec.ofNat 8 (s.free .spillByte (place + 64 * k + j))) s)))
    ∧ (∀ r a, (s.cluster cl).queue[idx]? = some r → r.awaited = some a →
        let i := Instr.joinCounterReread cl idx
        let put (x : ContRec) (u : State) := mapCluster cl (fun k => { k with queue := k.queue.set idx x }) u
        let reads : M Nat := do
          let l ← translate { ctx := a.ctx, core := some a.core, cluster := some cl, seq := none } .load a.ctr
          readLoc { ctx := a.ctx, core := none, cluster := some cl, seq := none } .cluster l 8 a.ctr
        let due := a.poked = true ∨ a.last + 1024 ≤ s.cycle
        let again := { a with last := s.cycle, poked := false }
        let worked (u : State) : State := if hasWork u r.part then u else mapPart r.part (fun t => { t with progress := u.cycle }) u
        (¬ due → exec i s = .next s)
        ∧ (due → spillBad s r = true → exec i s = .next (discardPart r.part 3 0 s))
        ∧ (∀ u, due → spillBad s r = false → reads s = .ok 0 u →
            exec i s = .next (put { r with awaited := none, since := u.cycle } (worked u)))
        ∧ (∀ v u, due → spillBad s r = false → v ≠ 0 → reads s = .ok v u → exec i s = .next (put { r with awaited := some again } u))
        ∧ (∀ c e u, due → spillBad s r = false → reads s = .error (.trap c e) u →
            let w := put { r with awaited := some { again with logged := true } } u
            exec i s = .next (if a.logged then w else logEvent r.part 8 (failureCode c) a.ctr r.addr w)))

/-- R339 to R347: `tmark` makes its record where the slot is traced. A record of a ring is written at base + z × (index mod size),
head is then the next index, published after 64 records and whenever the writer publishes, and what finds no space is counted in
`lost`; a trace record carries the cycles since the one before, with a sync record where they do not fit. A publication publishes
the trace, the log and the profile ring. R344: a cycle of a sampling counter. R345: a cycle counts in the entry of its key, an
entry with another key being spilled; a flush writes every entry of the partition to its ring. R346: a diverging replay ends. -/
def Obligations.TraceAndProfile : Prop :=
  (∀ (s : State) (rs1 : Reg) (im : BitVec 16),
    let c := coreOf s.cur
    let k := (s.core c).trctl
    let on := k.getLsbD 0 = true ∧ k.getLsbD 3 = true ∧ k.getLsbD (8 + s.cur.val % 4) = true
    let record := [BitVec.ofNat 64 (3 * 2 ^ 60 + 7 * 2 ^ 57 + s.cur.val % 4 * 2 ^ 55 + s.me.strip.toNat), s.me.pc, s.me.readX rs1
      , im.signExtend 64]
    ∃ t, exec (.tmark rs1 im) s = .next t ∧ (¬ on → RetiresTo (turnsOver s s) t)
      ∧ (on → RetiresTo (turnsOver s (traceAt c s.cycle record s)) t ∧ (s.cycle, record) ∈ (t.core c).trace.queue))
  -- R339: one record
  ∧ (∀ (s : State) (r : Ring) (z n time : Nat) (quads : List Word),
      let place := r.base + z * (r.head % r.size)
      let next := (r.head + 1) % 2 ^ 64
      let written := deviceWrite place (quads.flatMap fun w => bytesOfNat 8 w.toNat) s
      let full := (r.head + 2 ^ 64 - deviceQuad s (r.desc + 24)) % 2 ^ 64 = r.size
      let lost := min (r.lost + n) (2 ^ 64 - 1)
      let stored := { r with head := next, last := time, unpub := r.unpub + 1, unpubSince := if r.unpub = 0 then time else r.unpubSince }
      (¬ full → r.unpub < 63 → ringPut z n r time quads s = (stored, written))
      ∧ (¬ full → 63 ≤ r.unpub → ringPut z n r time quads s
          = ({ stored with unpub := 0 }, deviceWrite (r.desc + 16) (bytesOfNat 8 next) written))
      ∧ (full → ringPut z n r time quads s
          = ({ r with lost := lost, lostSince := r.lostSince + n }, deviceWrite (r.desc + 32) (bytesOfNat 8 lost) s)))
  -- R340, R341: the records of a cycle
  ∧ (∀ (s : State) (r : Ring) (time : Nat) (q0 : Word) (quads : List Word),
      let delta (x : Ring) (w : Word) : Word := w + BitVec.ofNat 64 ((time - x.last) * 2 ^ 32)
      let sync : Ring × State := if 2 ^ 23 ≤ time - r.last
        then ringStore 32 r time [BitVec.ofNat 64 (6 * 2 ^ 60 + 7 * 2 ^ 57), 0, BitVec.ofNat 64 time, 0] s else (r, s)
      (ringFull s r = true → traceWrite r time (q0 :: quads) s = ringDrop 1 r s)
      ∧ (ringFull s r = false → ringFull sync.2 sync.1 = true → traceWrite r time (q0 :: quads) s = ringDrop 1 sync.1 sync.2)
      ∧ (ringFull s r = false → ringFull sync.2 sync.1 = false →
          traceWrite r time (q0 :: quads) s = ringStore 32 sync.1 time (delta sync.1 q0 :: quads) sync.2)
      ∧ (r.lostSince ≠ 0 → ringFull s r = false → ringFull sync.2 sync.1 = false →
          let x := ringStore 32 sync.1 time
            [delta sync.1 (BitVec.ofNat 64 (5 * 2 ^ 60 + 7 * 2 ^ 57)), 0, BitVec.ofNat 64 sync.1.lostSince, 0] sync.2
          traceLost r time s = ({ x.1 with lostSince := 0 }, x.2))
      ∧ (r.lostSince = 0 ∨ ringFull s r = true → traceLost r time s = (r, s)))
  ∧ (∀ (s : State) (c : CoreId), (s.core c).trace.size ≠ 0 →
      let r := (s.core c).trace
      let due := r.queue.takeWhile fun e => decide (e.1 ≤ s.cycle)
      let x := due.foldl (fun a e => traceWrite a.1 e.1 e.2 a.2) (traceLost { r with queue := r.queue.drop due.length } s.cycle s)
      let late := x.1.unpub ≠ 0 ∧ 2 ^ 16 ≤ s.cycle - x.1.unpubSince
      closeTrace c s = mapCore c (fun k => { k with trace := if late then { x.1 with unpub := 0 } else x.1 })
        (if late then deviceWrite (x.1.desc + 16) (bytesOfNat 8 x.1.head) x.2 else x.2))
  -- R345: the spill of an entry
  ∧ (∀ (s : State) (e : ProfEntry),
      let key := e.part.val * 2 ^ 59 + e.reason * 2 ^ 55 + e.pc.toNat / 4
      let put := ringPut 16 e.count (s.part e.part).profRing s.cycle [BitVec.ofNat 64 (2 ^ 63 + key), BitVec.ofNat 64 e.count] s
      e.key = key ∧ e.index = (qmix64 (BitVec.ofNat 64 key) 0).toNat % 1024
      ∧ ((s.part e.part).profReg = 0 → spillEntry e s = s)
      ∧ ((s.part e.part).profReg ≠ 0 → spillEntry e s = mapPart e.part (fun t => { t with profRing := put.1 }) put.2))
  ∧ (∀ (s : State) (c : CoreId),
      let published (k : PartId) (u : State) : State := if (u.part k).profReg = 0 then u
        else mapPart k (fun t => { t with profRing := { t.profRing with unpub := 0 } })
          (deviceWrite ((u.part k).profRing.desc + 16) (bytesOfNat 8 (u.part k).profRing.head) u)
      let drained (u : State) : State :=
        (u.core c).profBuf.foldl (fun v e => spillEntry e v) (mapCore c (fun k => { k with profBuf := [] }) u)
      let cl := clusterOfCore c
      let log (u : State) : State := if (u.cluster cl).rpctl.toNat % 4 = 1 then
          mapCluster cl (fun k => { k with replay := { k.replay with unpub := 0 } })
            (deviceWrite ((u.cluster cl).replay.desc + 16) (bytesOfNat 8 (u.cluster cl).replay.head) u)
        else u
      let trace (u : State) : State := if (u.core c).trace.size = 0 then u
        else mapCore c (fun k => { k with trace := { k.trace with unpub := 0 } })
          (deviceWrite ((u.core c).trace.desc + 16) (bytesOfNat 8 (u.core c).trace.head) u)
      exec (.traceHeadPublish c) s = .next (match (log (trace s)).core c |>.owner with
        | some k => published k (drained (log (trace s)))
        | none => log (trace s))
      ∧ ∀ p, spillProfile c p s = (
          let u := drained s
          let mine := (u.core c).profile.filter fun e => e.2.part == p
          if mine = [] then u
          else published p (mine.foldl (fun v e => spillEntry e.2 v)
            (mapCore c (fun k => { k with profile := k.profile.filter fun e => e.2.part != p }) u))))
  ∧ (∀ (s : State) (p : PartId),
      exec (.profileFlush p) s = .next (allCores.foldl (fun u c => spillProfile c p u) s)
      ∧ (∃ t, exec (.profileFlush p) s = .next t ∧ t.slots = s.slots ∧ ∀ (o : CoreId), ∀ e ∈ (t.core o).profile, e.2.part ≠ p)
      ∧ exec (.profileCycleCount p) s = .next (if (s.part p).prof = false then s
          else (allSeqs.filter fun q => (s.slot q).busy && (s.slot q).part == p).foldl (fun u q => profileCycle q 0 u) s)
      ∧ ((s.part p).prof = true → ∃ t, exec (.profileCycleCount p) s = .next t ∧ t.slots = s.slots))
  ∧ (∀ (s : State) (q : SeqId) (i : Nat),
      let t := s.slot q
      let c := coreOf q
      let e : ProfEntry := { part := t.part, reason := stallReason s q i, pc := t.pc, count := 1 }
      let found := (s.core c).profile.find? fun x => x.1 == e.index
      let entry (x : ProfEntry) (u : State) : State := mapCore c (fun k => { k with profile := Sparse.insert e.index x k.profile }) u
      (found = none → profileCycle q i s = entry e s)
      ∧ (∀ x, found = some x → x.2.key = e.key → profileCycle q i s = entry { x.2 with count := x.2.count + 1 } s)
      ∧ (∀ x, found = some x → x.2.key ≠ e.key → (s.core c).profBuf.length < 8 →
          profileCycle q i s = entry e (mapCore c (fun k => { k with profBuf := k.profBuf ++ [x.2] }) s))
      ∧ (∀ x, found = some x → x.2.key ≠ e.key → 8 ≤ (s.core c).profBuf.length → (s.part t.part).profReg ≠ 0 →
          let l := min ((s.part t.part).profRing.lost + 1) (2 ^ 64 - 1)
          profileCycle q i s = mapPart t.part (fun p => { p with profRing := { p.profRing with
              lost := l, lostSince := p.profRing.lostSince + 1 } })
            (deviceWrite ((s.part t.part).profRing.desc + 32) (bytesOfNat 8 l) s)))
  -- R344
  ∧ (∀ (s : State) (q : SeqId),
      let t := s.slot q
      let i := Instr.sampleCounterWrap q
      let e := t.smpctl.toNat % 16
      let r := stallReason s q 0
      let f := t.smpctl.toNat / 2 ^ 12 % 16
      let counts := t.busy = true ∧ t.smpctl.getLsbD 7 = true ∧ (e = 0 ∨ (e = 3 ∧ (if f = 15 then r ≠ 0 else r = f)))
      let wraps := t.smpcnt = BitVec.allOnes 64
      let samples := wraps ∧ s.dbgsess.getLsbD t.part.val = true ∧ traced s q 4 = true
      let slot := { t with smpcnt := t.smpcnt + 1, smpctl := if wraps then t.smpctl ||| 0x100 else t.smpctl }
      (¬ counts → exec i s = .next s)
      ∧ (counts → ¬ samples → exec i s = .next (mapSlot q (fun _ => slot) s))
      ∧ (counts → samples → exec i s = .next (traceAt (coreOf q) (s.cycle + 1)
          [BitVec.ofNat 64 (4 * 2 ^ 60 + 7 * 2 ^ 57 + q.val % 4 * 2 ^ 55 + t.strip.toNat), t.pc, BitVec.ofNat 64 (e * 2 ^ 8 + r), 0]
          (mapCore (coreOf q) (fun k => { k with frozen := some (s.cycle + 1) }) (mapSlot q (fun _ => slot) s)))))
  -- R346
  ∧ (∀ (s : State) (cl : ClusterId),
      let i := Instr.replayDivergence cl
      let k := s.cluster cl
      let ended (u : State) : State := mapCluster cl (fun k => { k with rpctl := (k.rpctl &&& 0x80) ||| 0x80 }) u
      (namedPick s cl = none → exec i s = .next (if k.rpctl.toNat % 4 = 2 ∧ k.rpTail = deviceQuad s (k.replay.desc + 16)
          then mapCluster cl (fun k => { k with rpctl := k.rpctl &&& 0x80 }) s else s))
      ∧ (∀ x, namedPick s cl = some x →
          let other : Prop :=
            (∃ r ∈ k.queue, r.awaited = none ∧ ¬ (x.tile = false ∧ r.addr = x.record ∧ r.part.val = x.part ∧ r.level = x.prio))
            ∨ ∃ t ∈ k.tasks, t.ready s = true ∧ ¬ (x.tile = true ∧ t.record = x.record ∧ t.ctx.part.val = x.part)
          let possible : Prop := if x.tile = true
            then ∃ t ∈ k.tasks, t.ready s = true ∧ ∃ es, placement s cl t = some es ∧ tilePick t es = x
            else choosePick s cl ≠ none
          (2 ^ 20 ≤ s.cycle - k.rpSince → other → ¬ possible → exec i s = .next (ended s))
          ∧ (s.cycle - k.rpSince < 2 ^ 20 ∨ ¬ other ∨ possible → exec i s = .next s)))

/-! ## The host -/

/-- R350 to R354, R357, R363, R168: the reads and writes of the host at the registers of a function, and which of them are
ignored. -/
def Obligations.HostRegisters : Prop :=
  ∀ (s : State) (p : PartId) (n : Fin 8) (v : BitVec 32) (w : Word),
    let t := s.part p
    (let i := Instr.qpiWrite p n v
     let a := t.qtab.toNat / 2 ^ 9 % 2 ^ 43 * 512 + 64 * n.val
     let d (k : Nat) := deviceQuad s (a + 8 * k)
     let ok := a < hbmTop ∧ d 7 = 0 ∧ d 6 = 0 ∧ d 5 = 0 ∧ d 4 = 0 ∧ d 3 / 8 = 0 ∧ (∃ k, 4 ≤ k ∧ k ≤ 20 ∧ d 1 = 2 ^ k) ∧ d 0 % 128 = 0
       ∧ d 3 % 2 = 1
     let ahead := (v - BitVec.ofNat 32 (d 2)).toNat
     let ignored (code : Nat) := exec i s = .next (logEvent p 1 code (BitVec.ofNat 64 a) (BitVec.ofNat 64 n.val) s)
     (t.pstate = 2 → exec i s = .next s)
     ∧ (t.pstate ≠ 2 → ¬ ok → ignored 4)
     ∧ (t.pstate ≠ 2 → ok → d 1 < ahead → ignored 3)
     ∧ (t.pstate ≠ 2 → ok → ahead ≤ d 1 → exec i s = .next (mapPart p (fun t => { t with
         qpi := t.qpi.set n v
         queues := t.queues.set n { avail := ahead, ci := BitVec.ofNat 32 (d 2), base := BitVec.ofNat 64 (d 0), size := d 1
                                    irq := (d 3).testBit 2, sup := (d 3).testBit 1 } }) s)))
    ∧ (let b := w &&& 0xFFFFFFFFFFFC0
       (b = 0 → exec (.flogWrite p w) s = .next (mapPart p (fun t => { t with flog := 0, flogRing := {} }) s)
         ∧ exec (.profWrite p w) s = .next (mapPart p (fun t => { t with profReg := 0, profRing := {} }) (publishProfile p s)))
       ∧ (b ≠ 0 → ringOk s b.toNat = false → exec (.flogWrite p w) s = .next s ∧ exec (.profWrite p w) s = .next s)
       ∧ (b ≠ 0 → ringOk s b.toNat = true →
           exec (.flogWrite p w) s = .next (mapPart p (fun t => { t with flog := b, flogRing := openRing s b.toNat }) s)
           ∧ (let u := publishProfile p s
              exec (.profWrite p w) s = .next (mapPart p (fun t => { t with profReg := b, profRing := openRing u b.toNat }) u))))
    ∧ (let idle := t.pstate ≠ 2 ∧ (∀ q, (s.slot q).busy = true → (s.slot q).part ≠ p) ∧ ∀ cl, ∀ r ∈ (s.cluster cl).queue, r.part ≠ p
       (idle → exec (.spillWrite p w) s = .next (mapPart p (fun t => { t with spill := w &&& 0xFFFFFFFFFFFFF }) s))
       ∧ (¬ idle → exec (.spillWrite p w) s = .next s))
    ∧ (let q := w.toNat % 256 * 4 + w.toNat / 256 % 4
       let answers (r : BitVec 2) (g : Option SeqId) (u : State) :=
         exec (.hpmreqWrite p w) s = .next (mapPart p (fun t => { t with hpmResult := r, hpmTarget := g }) u)
       (192 ≤ w.toNat % 256 → answers 3 none s)
       ∧ (∀ h : q < 768, let x : SeqId := ⟨q, h⟩
           (∀ o, (s.core (coreOf x)).owner = some o → o ≠ p → answers 3 none s)
           ∧ ((s.core (coreOf x)).owner = none → answers 2 none s)
           ∧ ((s.core (coreOf x)).owner = some p → (s.slot x).busy = false → answers 2 none s)
           ∧ ((s.core (coreOf x)).owner = some p → (s.slot x).busy = true → answers 0 (some x) (mapSlot x (fun t => { t with
               pmPending := if t.pmPending.contains (.host p) then t.pmPending else t.pmPending ++ [.host p] }) s))))
    ∧ (let watts := w.toNat % 2 ^ 12
       exec (.pwrlimWrite w) s = .next (if 1000 ≤ watts ∧ watts ≤ 2800 then { s with pwrlim := BitVec.ofNat 64 watts } else s))
    ∧ (∃ u, exec (.dbgsessWrite w) s = .next u ∧ u.dbgsess = w &&& 0xFFFF ∧ u.slots = s.slots
        ∧ (∀ cl : ClusterId, (∃ c o, clusterOfCore c = cl ∧ (s.core c).owner = some o ∧ s.dbgsess.getLsbD o.val = true ∧ w.getLsbD o.val = false) →
            (u.cluster cl).rpctl.toNat % 4 = 0)
        ∧ (∀ cl : ClusterId, (∀ c o, clusterOfCore c = cl → (s.core c).owner = some o → s.dbgsess.getLsbD o.val = true → w.getLsbD o.val = true) →
            u.cluster cl = s.cluster cl))
    ∧ (∀ vec : Fin 4,
        let e := t.msix[vec]
        let u := mapPart p (fun t => { t with
          msix := t.msix.set vec { e with masked := false }, pba := t.pba &&& ~~~((1#4) <<< vec.val) }) s
        exec (.msixVectorUnmask p vec) s
          = .next (if t.pba.getLsbD vec.val then { u with outbox := u.outbox ++ [.msix p vec.val e.addr e.data] } else u))
    ∧ (∀ off dword,
        let i := Instr.bar0RegisterWrite p off dword w
        (off % (if dword then 4 else 8) ≠ 0 → exec i s = .next s)
        ∧ (regAt p (off / 8 * 8) = none → exec i s = .next s)
        ∧ (dword = false → off % 8 = 0 →
            (∀ m : Fin 8, off = 0x40 + 8 * m.val → exec i s = exec (.qpiWrite p m (w.extractLsb' 0 32)) s)
            ∧ (off = 0x80 → exec i s = exec (.flogWrite p w) s) ∧ (off = 0x88 → exec i s = exec (.profWrite p w) s)
            ∧ (off = 0x90 → exec i s = exec (.spillWrite p w) s) ∧ (off = 0xA0 → exec i s = exec (.hpmreqWrite p w) s)
            ∧ (off = 0x10 → exec i s = .next (mapPart p (fun t => { t with qtab := w &&& 0xFFFFFFFFFFE00 }) s))
            ∧ (off = 0x98 → exec i s = .next (mapPart p (fun t => { t with wdog := w.extractLsb' 0 32 }) s))
            ∧ (off = 0xA8 → exec i s = .next (mapPart p (fun t => { t with peers := w.extractLsb' 0 32 }) s))
            ∧ (p = 0 → off = 0x1008 → exec i s = exec (.pwrlimWrite w) s) ∧ (p = 0 → off = 0x1020 → exec i s = exec (.extrelWrite w) s)
            ∧ (p = 0 → off = 0x1028 → exec i s = exec (.dbgsessWrite w) s)
            ∧ (∀ c : CoreId, p = 0 → off = 0x2000 + 8 * c.val → exec i s = exec (.passignWrite c w) s)
            ∧ (p ≠ 0 → 0x1000 ≤ off → off < 0x4000 → exec i s = .next s)))
    ∧ (∀ off len, let read := bar0Read s p off len
        (¬ (len = 8 ∨ len = 4) ∨ off % len ≠ 0 ∨ regAt p (off / 8 * 8) = none → read = 0)
        ∧ (∀ r, regAt p (off / 8 * 8) = some r → off % len = 0 →
            (len = 8 → read = readReg s p r)
            ∧ (len = 4 → read = BitVec.ofNat 64 ((readReg s p r).toNat / 2 ^ (8 * (off % 8)) % 2 ^ 32)))
        ∧ (p ≠ 0 → 0x1000 ≤ off → off < 0x4000 → read = 0))
    ∧ (let threads := ((allSeqs.filter fun q => (s.slot q).busy && (s.slot q).part == p).length)
       readReg s p .pstat = BitVec.ofNat 64 (threads * 2 ^ 8 + if t.pstate = 2 then 2 else if threads = 0 then 0 else 1)
       ∧ readReg s p .hpmreq = BitVec.ofNat 64 (t.hpmResult.toNat * 2 ^ 16) ∧ readReg s p .qtab = t.qtab ∧ readReg s p (.qpi n) = t.qpi[n].zeroExtend 64
       ∧ readReg s p .flog = t.flog ∧ readReg s p .prof = t.profReg ∧ readReg s p .spill = t.spill ∧ readReg s p .bstat = s.bstat
       ∧ readReg s p .pwrlim = s.pwrlim ∧ readReg s p .pwrstat = s.pwrstat ∧ readReg s p .dbgsess = s.dbgsess
       ∧ ∀ c : CoreId, readReg s p (.passign c) = (s.core c).passign.zeroExtend 64)

/-- R333, R355: a discard leaves nothing of the partition's work; a reset also clears the registers of its function and the state
of its cores, and ends when it is done. R355: the watchdog. R356: a core changes owner once it has drained. -/
def Obligations.PartitionLifecycle : Prop :=
  ∀ (s : State) (p : PartId),
    let gone (t : State) : Prop :=
      (∀ q, (t.slot q).busy = true → (t.slot q).part ≠ p)
      ∧ (∀ (cl : ClusterId), (∀ r ∈ (t.cluster cl).queue, r.part ≠ p) ∧ ∀ x ∈ (t.cluster cl).tasks, x.ctx.part ≠ p)
      ∧ (∀ (c : CoreId), ∀ o ∈ (t.core c).copies, o.ctx.part ≠ p)
      ∧ (∀ h ∈ t.transit, h.part ≠ some p)
      ∧ (t.part p).darn = [] ∧ (t.part p).mangle = [] ∧ (t.part p).launder = []
    (∃ t, exec (.uncorrectableStateError p) s = .next t ∧ gone t)
    ∧ (let due := (s.part p).wdog ≠ 0 ∧ (s.part p).wdog.toNat * 2 ^ 16 ≤ s.cycle - (s.part p).progress
         ∧ ((∃ q, (s.slot q).busy = true ∧ (s.slot q).part = p) ∨ ∃ cl : ClusterId, ∃ r ∈ (s.cluster cl).queue, r.part = p ∧ r.awaited = none)
       (¬ due → exec (.watchdogExpiry p) s = .next s)
       ∧ (due → ∃ t, exec (.watchdogExpiry p) s = .next t ∧ gone t))
    ∧ (∀ i, (i = .partitionReset p ∨ i = .functionLevelReset p) → ∃ t, exec i s = .next t ∧ gone t
        ∧ t.part p = { pstate := 2, hpmResult := if (s.part p).hpmTarget = none then 0 else 2, progress := s.cycle }
        ∧ (p = 0 → t.pwrlim = 2800 ∧ t.pwrstat = 0 ∧ t.extasgn = 0 ∧ ∀ k : Fin 32, t.peertab[k] = 0) ∧ t.bstat = s.bstat
        ∧ (∀ c : CoreId, (t.core c).owner = (s.core c).owner)
        ∧ (∀ c : CoreId, (s.core c).owner = some p → (t.core c).pad = [] ∧ (t.core c).acc = [] ∧ ∀ q ∈ seqsOf c, t.slot q = {})
        ∧ (∀ e ∈ t.cached, e.part ≠ p) ∧ (∀ e ∈ t.atc, e.1 ≠ p) ∧ t.dbgsess = s.dbgsess)
    ∧ exec (.partitionResetDone p) s
        = .next (if (s.part p).pstate = 2 then mapPart p (fun t => { t with pstate := 0 }) s else s)
    ∧ (∀ (c : CoreId) (v : Word),
        let named (w : Word) : Option PartId := if w.getLsbD 4 then some ⟨w.toNat % 16, Nat.mod_lt _ (by decide)⟩ else none
        exec (.passignWrite c v) s = .next (mapCore c (fun k => { k with
          passign := v.extractLsb' 0 5
          newOwner := if named v = named (k.passign.zeroExtend 64) then k.newOwner else some (named v) }) s))
    ∧ (∀ c : CoreId,
        let i := Instr.coreOwnerChange c
        ((s.core c).newOwner = none → exec i s = .next s)
        ∧ (coreDrained s c = false → exec i s = .next s)
        ∧ (∀ o, (s.core c).newOwner = some o → coreDrained s c = true → ∃ t, exec i s = .next t
            ∧ (t.core c).owner = o ∧ (t.core c).newOwner = none ∧ (t.core c).pad = [] ∧ (t.core c).acc = []
            ∧ (t.core c).trctl = 0 ∧ (t.core c).trbase = 0 ∧ t.slots = s.slots))

/-- R350, R235, R358 to R360: reads and writes of the host through BAR2, peers, ports, host translations, and the extents of the
capacity tier. -/
def Obligations.HostTraffic : Prop :=
  ∀ (s : State) (p : PartId) (a : Word) (q : SeqId) (units : Nat) (shared : Bool),
    let say (m : Message) (u : State) : State := { u with outbox := u.outbox ++ [m] }
    let far := a.toNat / 2 ^ 57 ≠ 0 ∨ localBase ≤ a.toNat
    (∀ len, 0 < len → far → exec (.bar2HostRead p a len) s = .next (say (.readAbort p) s))
    ∧ (∀ data : List Byte, data ≠ [] → far → exec (.bar2HostWrite p a data) s = .next s)
    ∧ (let g := hostAgent s p
       let read : M (List Byte) := do
         let l ← translate g .load a
         let b ← readByte g .system l a
         pure [b]
       let write (b : Byte) : M Unit := do
         let l ← translate g .store a
         canWrite l a
         writeLocBytes g .system l [b] a
       let i := Instr.bar2HostRead p a 1
       (∀ bs u, read s = .ok bs u → exec i s = .next (say (.readData p bs) u))
       ∧ (∀ e u, read s = .error e u → exec i s = .next (match e with | .wait _ => { s with pri := u.pri } | _ => say (.readAbort p) s))
       ∧ (∀ b u, write b s = .ok () u → exec (.bar2HostWrite p a [b]) s = .next u)
       ∧ (∀ b e u, write b s = .error e u →
           exec (.bar2HostWrite p a [b]) s = .next (match e with | .wait _ => { s with pri := u.pri } | _ => s)))
    ∧ (∀ (peer : Fin 32) (len : Nat) (data : List Byte),
        ((s.part p).peers.getLsbD peer.val = false ∨ hbmTop < a.toNat + (if data.isEmpty then len else data.length) →
          exec (.peerRequest p peer a len data) s = .next (say (.peerRefused p peer.val) s))
        ∧ ((s.part p).peers.getLsbD peer.val = true → a.toNat + 1 ≤ hbmTop → ∀ bs u, homeRead {} a.toNat 1 a s = .ok bs u →
          exec (.peerRequest p peer a 1 []) s = .next (say (.readData p bs) (say (.peerAdmitted p peer.val) u))))
    ∧ (∀ port, exec (.kolnarPortDown port) s = .next (if port < 16 then
        { s with klPorts := s.klPorts.setIfInBounds port none, bstat := s.bstat &&& ~~~((1#64) <<< (28 + port)) } else s))
    ∧ (∃ t, exec (.atsInvalidation p a) s = .next t ∧ t = { s with atc := t.atc }
        ∧ ∀ e, e ∈ t.atc ↔ e ∈ s.atc ∧ ¬ (e.1 = p ∧ e.2.2 = a.toNat / 4096))
    ∧ (let asked := s.pri.find? fun r => !r.failed && (r.owner == some q || r.owner == none)
       (∀ r, asked = some r →
         let failed := { s with pri := s.pri.map fun x => if x = r then { x with failed := true } else x }
         exec (.priPageResponse q true) s = .next { s with
           atc := (r.part, r.pasid, r.page) :: s.atc, pri := s.pri.filter fun x => decide ((x.part, x.pasid, x.page) ≠ (r.part, r.pasid, r.page)) }
         ∧ exec (.priPageResponse q false) s = .next failed ∧ exec (.pcieCompletionTimeout q) s = .next failed)
       ∧ (asked = none → ∀ ok, exec (.priPageResponse q ok) s = .next s ∧ exec (.pcieCompletionTimeout q) s = .next s))
    -- R235: an access to a page of the host
    ∧ (∀ (g : Agent) (pa : Nat),
        let page := (pa - 2 ^ 51) / 4096
        let pasid := g.ctx.hpasid.extractLsb' 0 20
        let mine (r : PageReq) : Bool := r.isOf g page
        let need : Prop := regionOf pa = .host ∧ g.ctx.hpasid.getLsbD 31 = true
        (¬ need ∨ (g.ctx.part, pasid, page) ∈ s.atc → hostPage g pa a s = .ok () s)
        ∧ (need → (g.ctx.part, pasid, page) ∉ s.atc →
            (∀ r, s.pri.find? mine = some r → hostPage g pa a s = if r.failed
              then .error (.trap causeAccess a) { s with pri := s.pri.filter fun x => !mine x } else .error (.wait .page) s)
            ∧ (s.pri.find? mine = none →
                hostPage g pa a s = .ok () { s with atc := (g.ctx.part, pasid, page) :: s.atc }
                ∨ hostPage g pa a s = .error (.wait .page) { s with pri := s.pri ++ [{
                    part := g.ctx.part, pasid := pasid, page := page, owner := g.seq, src := g.src, failed := false }] })))
    ∧ (let v := s.extasgn
       let i := Instr.extentOffer units shared
       (v.getLsbD 4 = false ∨ units = 0 ∨ nextPosition s units = none → exec i s = .next (say (.declined units) s))
       ∧ (∀ b, v.getLsbD 4 = true → units ≠ 0 → nextPosition s units = some b →
           let r : PartId := ⟨v.toNat % 16, Nat.mod_lt _ (by decide)⟩
           (∀ y ∈ s.extents, b + units * 2 ^ 28 ≤ y.base ∨ y.base + y.units * 2 ^ 28 ≤ b) ∧ b + units * 2 ^ 28 ≤ 2 * tierBase
           ∧ ((∀ y ∈ s.extents, y.base % 2 ^ 28 = 0) → b % 2 ^ 28 = 0)
           ∧ exec i s = .next (logEvent r 3 0 (BitVec.ofNat 64 b) (BitVec.ofNat 64 units)
               { s with extents := { base := b, units := units, part := r, shared := shared, releasing := false } :: s.extents })))
    ∧ exec (.extrelWrite a) s = .next { s with extents := s.extents.map fun x =>
        if x.base = a.toNat / 2 ^ 28 % 2 ^ 24 * 2 ^ 28 then { x with releasing := true } else x }
    ∧ ((∀ x ∈ s.extents, x.releasing = false) → exec .extentReleaseDone s = .next s)
    ∧ (∀ x, s.extents.find? (·.releasing) = some x →
        ((∃ h ∈ s.transit, x.holds h.addr = true) ∨ (∃ k : PartId, ∃ j ∈ (s.part k).darn, ∃ l z n, j.line = some (l, z, n)
          ∧ (x.holds (64 * l) = true ∨ x.holds (64 * z) = true)) → exec .extentReleaseDone s = .next s))
    ∧ (∀ x, s.extents.find? (·.releasing) = some x → (∀ h ∈ s.transit, x.holds h.addr = false) →
        (∀ k : PartId, ∀ j ∈ (s.part k).darn, ∀ l z n, j.line = some (l, z, n) → x.holds (64 * l) = false ∧ x.holds (64 * z) = false) →
        ∃ t, exec .extentReleaseDone s = .next t ∧ t.slots = s.slots ∧ (∀ y, y ∈ t.extents ↔ y ∈ s.extents ∧ y ≠ x)
          ∧ ∀ e ∈ t.marks, x.holds (64 * e.1) = false)

/-- R361 to R364: bring-up, firmware and attestation, power and temperature, and the reset of the device. -/
def Obligations.Management : Prop :=
  ∀ s : State,
    let say (m : Message) (u : State) : State := { u with outbox := u.outbox ++ [m] }
    (s.bstat ≠ 0 → exec .perstRelease s = .next s)
    ∧ (s.bstat = 0 → ∃ t, exec .perstRelease s = .next t ∧ t.slots = s.slots
        ∧ (let state := t.bstat.toNat % 16
           let step := t.bstat.toNat / 16 % 16
           let code := t.bstat.toNat / 256 % 16
           (state = 1 ∧ step = 7 ∧ code = 0) ∨ (state = 2 ∧ step = 2 ∧ code = 1) ∨ (state = 2 ∧ step = 3 ∧ code = 2)
             ∨ (state = 2 ∧ step = 4 ∧ code = 3))
        ∧ (t.bstat.toNat % 16 = 1 → s.fuseVersion ≤ t.fwVersion ∧ t.marks = [] ∧ t.bad = [] ∧ ∀ b, b < hbmTop → Memory.read t.mem b = 0))
    ∧ exec .firmwareUpdateStage s = .next { s with fwStaged := true }
    ∧ (let answers (i : Instr) (r : SpdmReply) : Prop := exec i s = .next (say (.spdm r) s)
       answers .getVersion (.version 1 4) ∧ answers .negotiateAlgorithms (.algorithms [.mlDsa87] [.sha3_512])
       ∧ (∃ x, answers .getCapabilities (.capabilities x)) ∧ (∃ d, answers .getDigests (.digests [(0, d)]))
       ∧ (∃ c, answers .getCertificate (.certificate 0 s.identity.pub c))
       ∧ (∃ n x, answers .challenge (.challengeAuth 0 n (Config.mlDsa87 s.identity.sec x)))
       ∧ (∃ a b c, answers .getMeasurements (.measurements [(1, a), (2, b), (3, c)])))
    -- R361: before a device is ready it answers nothing of this
    ∧ (∀ i, i ∈ [Instr.getVersion, .getCapabilities, .negotiateAlgorithms, .getDigests, .getCertificate, .challenge, .getMeasurements,
        .firmwareUpdateStage] → (moveAllowed i s = true ↔ s.bstat.toNat % 16 = 1))
    ∧ (let watts := s.free .measure 0 % 4096
       let tj := s.free .measure 1 % 256
       let limit := s.pwrlim.toNat % 4096
       (110 ≤ tj → ∃ t, exec .powerCheck s = .next t ∧ t.tripped = true ∧ Message.tripReport ∈ t.outbox ∧ ∀ q, (t.slot q).busy = false)
       ∧ (tj < 110 → ∃ t, exec .powerCheck s = .next t ∧ t.slots = s.slots ∧ t.mem = s.mem
         ∧ t.pwrstat.toNat % 4096 = watts ∧ t.pwrstat.toNat / 2 ^ 24 % 256 = tj
         ∧ t.throttle = (if limit < watts ∨ 100 ≤ tj then min 3 (s.throttle + 1)
             else if watts * 100 ≤ limit * 95 then s.throttle - 1 else s.throttle)))
    ∧ (∃ t, exec .thermalThrottle s = .next t ∧ t.slots = s.slots ∧ t.mem = s.mem ∧ t.throttle = min 3 (s.throttle + 1)
        ∧ t.pwrstat.toNat / 2 ^ 24 % 256 = 100)
    ∧ (∃ t, exec .thermalTrip s = .next t ∧ t.tripped = true ∧ deviceStopped t = true ∧ Message.tripReport ∈ t.outbox
        ∧ ∀ q, (t.slot q).busy = false)
    ∧ (∃ t, exec .deviceReset s = .next t ∧ t.tripped = false ∧ t.bstat = 0 ∧ t.slots = State.reset.slots ∧ t.cores = State.reset.cores
        ∧ t.clusters = State.reset.clusters ∧ t.parts = State.reset.parts ∧ t.pwrlim = 2800 ∧ t.cached = [] ∧ t.extents = []
        ∧ ∀ b, b < hbmTop → Memory.read t.mem b = Memory.read s.mem b)

/-! ## The step, encodings, translation, and what holds of the whole machine -/

/-- R34, R50, R88, R156, R158, R326, R334, R344: a step runs the instruction that the word at the program counter decodes to; a word
that decodes to none, and a fetch that faults, are the illegal-instruction trap and the fetch fault; an instruction that reads a
register with an uncorrectable error traps. Before it: an empty slot does nothing, a pre-emption that is due comes first, a
waiting instruction runs again, and a frozen cycle issues nothing. An event is made where it is one that can be; the host reads a
register. The word is one that the front end has delivered to the gang, or one of the fetch cache, or memory's: which of the
latter two is free until `icflush` (log entry 5). -/
def Obligations.StepRunsDecoded : Prop :=
  ∀ (s : State) (rest : List Turn),
    let passed := Config.free .elapsed s.ticks 0
    let now : State := passTime passed { s with script := rest, ticks := s.ticks + 1 }
    now.cycle = s.cycle + passed ∧ now.script = rest ∧ now.ticks = s.ticks + 1
    ∧ (quiet s = true → now = { s with script := rest, ticks := s.ticks + 1, cycle := s.cycle + passed })
    ∧ (∀ q, s.script = .seq q :: rest →
      let u : State := { now with cur := q }
      let m := u.me
      let ready := m.busy = true ∧ deviceStopped u = false ∧ preemptDue m = false
      let idles := driftFull u q = true ∨ (u.core (coreOf q)).frozen = some u.cycle
      let issue := ready ∧ m.waiting = none ∧ ¬ idles
      let holds (v : State) (i : Instr) := aheadOfLead v v.cur = true ∧ (transfersControl i = true ∨ endsBody v.me = true)
      (m.busy = false → step s = .next u)
      ∧ (m.busy = true → deviceStopped u = true → step s = .fault .deviceStopped)
      ∧ (m.busy = true → deviceStopped u = false → preemptDue m = true → step s = exec (.preemptionTaken q) u)
      ∧ (∀ h i, ready → m.waiting = some h → decode h.word = .ok i → step s = exec i u)
      ∧ (ready → m.waiting = none → idles → step s = .next u)
      ∧ (∀ w x i, issue → fetchWord u = .ok w x → decode w = .ok i →
          let v := dropTurns x.cur x
          let consumes := ∃ r ∈ v.me.bad, (regUse i).reads v.me r = true
          (holds v i → step s = .next v)
          ∧ (¬ holds v i → v.me.bad = [] → step s = exec i v)
          ∧ (¬ holds v i → passesChecks i w v.me = true → consumes →
              step s = .next (takeTrap causeData (BitVec.allOnes 64) v.me.pc v))
          ∧ (¬ holds v i → v.me.bad ≠ [] → passesChecks i w v.me = false ∨ ¬ consumes → step s = exec i (noteOverwrites i v)))
      ∧ (∀ w x e, issue → fetchWord u = .ok w x → decode w = .error e →
          let v := dropTurns x.cur x
          ¬ holds v (.illegalInstruction w) →
          step s = exec (.illegalInstruction w) (if v.me.bad = [] then v else noteOverwrites (.illegalInstruction w) v))
      ∧ (∀ c a x, issue → fetchWord u = .error (.trap c a) x → step s = exec (.instructionFetchFault c a) (dropTurns x.cur x))
      ∧ (∀ k x, issue → fetchWord u = .error (.wait k) x → step s = .next x)
      ∧ (∀ p a x, issue → fetchWord u = .error (.fatal p a) x → step s = .next (discardPart p 1 a x))
      ∧ (∀ w, deliveredWord u = some w → fetchWord u = .ok w u)
      ∧ (∀ l v pa b0 b1 b2 b3 x, deliveredWord u = none → translate u.agent .fetch m.pc u = .ok l v → l.place = .phys pa →
          let z := settleLine v.agent pa 4 v
          homeRead z.agent.writer pa 4 m.pc z = .ok [b0, b1, b2, b3] x →
          let old := ((fetchCache z).find? fun e => e.1 == pa).map (·.2)
          (old = none → ∃ y, fetchWord u = .ok (wordOfBytes b0 b1 b2 b3) y ∧ y.slots = x.slots ∧ y.mem = x.mem)
          ∧ (∀ w, old = some w → ∃ y, fetchWord u = .ok (wordOfBytes b0 b1 b2 b3) y ∨ fetchWord u = .ok w y)))
    ∧ (∀ i, s.script = .event i :: rest → (moveAllowed i now = true → step s = exec i now) ∧ (moveAllowed i now = false → step s = .next now))
    ∧ (∀ q r, s.script = .registerError q r :: rest → step s = .next (if badRegExists r = true
        then mapSlot q (fun t => { t with bad := if r ∈ t.bad then t.bad else t.bad ++ [r] }) now else now))
    ∧ (∀ l, s.script = .lineError l :: rest → step s = .next { now with bad := markBad l now.bad })
    ∧ (∀ p off len, s.script = .registerRead p off len :: rest →
        let state := now.bstat.toNat % 16
        let answered := state = 1 ∨ (state = 2 ∧ regAt p (off / 8 * 8) = some .bstat)
        (answered → step s = .next { now with outbox := now.outbox ++ [.registerData p (bar0Read now p off len)] })
        ∧ (¬ answered → step s = .next now))

/-- R33 to R61, R62: the worked encodings of the spec decode to the instructions that it names for them, and its words that
break the encoding decode to none. -/
def Obligations.WorkedEncodings : Prop :=
  decode 0x00032148 = .ok (.ldD 5 4 0) ∧ decode 0x40142B60 = .ok (.setvl 13 5 0x4014) ∧ decode 0x00003128 = .ok (.vld 0 4 6)
  ∧ decode 0xA1072062 = .ok (.vfcmpgt .s1 0 1 4 7) ∧ decode 0x11262222 = .ok (.vfmul .s1 1 8 4 6)
  ∧ decode 0x00003969 = .ok (.vst 0 5 7) ∧ decode 0x00406B91 = .ok (.slli 14 13 2) ∧ decode 0x002D2941 = .ok (.sub 5 5 13)
  ∧ decode 0xFFFF9BCB = .ok (.bs 0x1FFFF3) ∧ decode 0x942F501A = .ok (.amoadd .device .rel .d 0 10 15)
  ∧ decode 0x0000001C = .ok .texit ∧ decode 0x40040418 = .ok (.csrrs 16 4 0) ∧ decode 0x00000002 = .ok (.addi 0 0 0)
  ∧ decode 0x40142B61 = .ok (.vxor .none 0 13 5 20)
  ∧ (∃ e, decode 0x40142B52 = .error e) ∧ (∃ e, decode 0xA1072462 = .error e) ∧ (∃ e, decode 0 = .error e)

/-- R33 to R61: every well-formed instruction with a word has an encoding that decodes to it, and a word that decodes is the
encoding of what it decodes to, which is well formed. -/
def Obligations.EncodeDecode : Prop :=
  (∀ i : Instr, i.wf = true → i.hasWord = true → ∃ w, encode i = some w ∧ decode w = .ok i ∧ decodeTableWord 32 w.toNat = some i)
  ∧ (∀ (w : IWord) (i : Instr), decode w = .ok i → i.wf = true ∧ i.hasWord = true ∧ encode i = some w)

/-- What the spec gives the machine after reset, and the model's invariant there: no core is owned, no slot holds a thread, and
every register that a table gives a reset value has it. -/
def Obligations.ResetState : Prop :=
  let s := State.reset
  (∀ q : SeqId,
    let t := s.slot q
    t.busy = false ∧ t.sup = false ∧ t.vill = true ∧ t.vl = 0 ∧ t.vstart = 0 ∧ t.vstate = 0 ∧ t.lpdepth = 0
    ∧ (∀ r, t.readX r = 0) ∧ (∀ n, t.readC n = decide (n = 0)) ∧ t.gjtimeout = 4096 ∧ t.fflags = 0 ∧ t.frm = 0
    ∧ t.evec = 0 ∧ t.smpctl = 0 ∧ t.bpctl = 0 ∧ (∀ k : Fin 8, t.streams[k] = .unbound))
  ∧ (∀ c : CoreId, let k := s.core c
      k.owner = none ∧ k.lanemap = 0 ∧ k.trctl = 0 ∧ (∀ o, Sparse.get 0 k.pad o = 0) ∧ (∀ e, Sparse.get 0 k.acc e = 0)
      ∧ Sparse.wf 0 k.pad = true ∧ Sparse.wf 0 k.acc = true)
  ∧ (∀ cl : ClusterId, let k := s.cluster cl
      k.queue = [] ∧ k.tasks = [] ∧ k.rpctl = 0 ∧ ∀ g : Fin 4, k.gangs[g] = none)
  ∧ (∀ p : PartId, let t := s.part p
      t.pstate = 0 ∧ t.qtab = 0 ∧ t.flog = 0 ∧ t.spill = 0 ∧ t.wdog = 0 ∧ t.peers = 0 ∧ t.prof = false ∧ t.lptb = 0)
  ∧ s.bstat = 0 ∧ s.pwrlim = 2800 ∧ s.pwrstat = 0 ∧ s.extasgn = 0 ∧ s.dbgsess = 0 ∧ (∀ i : Fin 32, s.peertab[i] = 0)
  ∧ Memory.wf s.mem = true ∧ ∀ a, Memory.read s.mem a = 0

/-- The invariant of the model's stores: every step keeps memory, the scratchpads and the accumulator stores in their one
canonical form, from every state that has them so. -/
def Obligations.StoresKeepTheirForm : Prop :=
  ∀ s t : State,
    let fine (u : State) : Prop := Memory.wf u.mem = true ∧ ∀ c : CoreId, Sparse.wf 0 (u.core c).pad = true ∧ Sparse.wf 0 (u.core c).acc = true
    fine s → step s = .next t → fine t

/-- Every instruction and every move ends in a next state: none is refused, and none faults. A step faults only where a
sequencer is to issue on a device that has stopped (R361, R364). -/
def Obligations.EveryInstructionEnds : Prop :=
  (∀ (i : Instr) (s : State), ∃ t, exec i s = .next t)
  ∧ ∀ s : State, (deviceStopped s = false → ∃ t, step s = .next t) ∧ (∀ r, step s ≠ .refused r)
      ∧ (∀ f, step s = .fault f → f = .deviceStopped ∧ deviceStopped s = true)

/-- R28, R29, R101, R31: no instruction that a thread executes at U changes the handler's address of any slot. -/
def Obligations.HandlerAddressIsTheSupervisors : Prop :=
  ∀ (i : Instr) (w : IWord) (s t : State), encode i = some w → s.me.status.getLsbD 0 = false → exec i s = .next t →
    ∀ q, (t.slot q).evec = (s.slot q).evec

/-- R214, R215, R218, R219 to R225: translation. An address of 2^57 and above, the local region, the walk of the tables level by
level, the checks on the leaf in their order, the bits A and D set by a compare-and-set that, failing, has the walk made again,
and what the caches keep of a walk that did not fault. When a core's own copy of an entry is written back before its walk reads
it, and when its copies take the bits that the walk sets, is free (assumption 62); an old cached entry may be used (assumption
4). -/
def Obligations.AddressTranslation : Prop :=
  ∀ (s : State) (a : Agent) (k : AccKind) (va : Word),
    let fails (c : Nat) : Prop := translate a k va s = .error (.trap c va) s
    let o := va.toNat - localBase
    let uncached : Prop := ∀ c ∈ s.cached, c.hits a va.toNat = false
    (2 ^ 57 ≤ va.toNat → fails causePage)
    ∧ (localBase ≤ va.toNat → va.toNat < 2 ^ 57 →
        (k = .fetch ∨ a.core = none → fails causeAccess)
        ∧ (∀ c, a.core = some c → k ≠ .fetch →
            let t := coreIn (clusterOfCore c) ⟨o / 0x400000 % 8, Nat.mod_lt _ (by decide)⟩
            (o < 0x2000000 → (s.core t).owner = some a.ctx.part → translate a k va s = .ok { place := .pad t (o % 0x400000) } s)
            ∧ (o < 0x2000000 → (s.core t).owner ≠ some a.ctx.part → fails causeAccess)
            ∧ (0x10000000 ≤ o → o < 0x10400000 → translate a k va s = .ok { place := .pad c (o - 0x10000000) } s)
            ∧ (0x2000000 ≤ o → o < 0x10000000 ∨ 0x10400000 ≤ o → fails causeAccess)))
    ∧ (∀ (lvl tab : Nat), lvl < 4 →
        let pa := tab + 8 * (if lvl = 3 then va.toNat / 2 ^ 51 % 64 else va.toNat / 2 ^ (15 + 12 * lvl) % 4096)
        (∀ e, cachedNode s a va lvl pa = some e → ∃ c ∈ s.cached, c.entry = e ∧ c.level = lvl ∧ c.part = a.ctx.part
          ∧ c.vpage = va.toNat / 2 ^ (15 + 12 * lvl) ∧ (∀ x, c.asid = some x → x.toNat = a.ctx.asid.toNat % 2 ^ 16) ∧ e.getLsbD 1 = false)
        ∧ (uncached →
          (∀ u, homeQuad a.writer pa va (settleLine a pa 8 s) = .error (.trap causeData va) u →
            walk a va lvl tab s = .error (.fatal a.ctx.part va) u)
          ∧ (∀ e u, homeQuad a.writer pa va (settleLine a pa 8 s) = .ok e u →
            let frame := e.toNat / 2 ^ 17 % 2 ^ 37
            (e.getLsbD 0 = false → walk a va lvl tab s = .error (.trap causePage va) u)
            ∧ (e.getLsbD 0 = true → e.getLsbD 1 = true →
                walk a va lvl tab s = .ok { lvl := lvl, leaf := pa, entry := e, nodes := [] } u)
            ∧ (e.getLsbD 0 = true → e.getLsbD 1 = false → lvl = 0 ∨ e.toNat / 4 % 2 ^ 15 ≠ 0 ∨ 0x13FFFFF < frame →
                walk a va lvl tab s = .error (.trap causePage va) u)
            ∧ (e.getLsbD 0 = true → e.getLsbD 1 = false → lvl ≠ 0 → e.toNat / 4 % 2 ^ 15 = 0 → frame ≤ 0x13FFFFF →
                (∀ f z, walk a va (lvl - 1) (frame * 32768) u = .error f z → walk a va lvl tab s = .error f z)
                ∧ (∀ w z, walk a va (lvl - 1) (frame * 32768) u = .ok w z →
                    let node : Cached := { part := a.ctx.part, asid := some (a.ctx.asid.extractLsb' 0 16)
                                           vpage := va.toNat / 2 ^ (15 + 12 * lvl), level := lvl, place := pa, entry := e }
                    walk a va lvl tab s = .ok { w with nodes := node :: w.nodes } z)))))
    ∧ (va.toNat < localBase → uncached →
        let top := a.ctx.ptbase.toNat / 2 ^ 9 % 2 ^ 43 * 512
        (∀ f u, walk a va 3 top s = .error f u → translate a k va s = .error f u)
        ∧ (∀ w u, walk a va 3 top s = .ok w u →
            let e := w.entry
            let reads := k ∈ [AccKind.load, .atomic, .atomicLoad, .copyRead, .copyAdd, .relocate]
            let writes := k ∈ [AccKind.store, .atomic, .copyWrite, .copyAdd, .relocate]
            let allowed := (reads → e.getLsbD 2 = true) ∧ (writes → e.getLsbD 3 = true) ∧ (k = .fetch → e.getLsbD 4 = true)
              ∧ (a.ctx.sup = true ∨ k = .plain ∨ e.getLsbD 5 = true)
            let frame := e.toNat / 2 ^ 17 % 2 ^ 37
            let pa := frame * 32768 + va.toNat % 2 ^ (15 + 12 * w.lvl)
            let marked := e ||| 0x40#64 ||| (if writes then 0x80#64 else 0#64)
            let fits := w.lvl < 3 ∧ e.getLsbD 16 = false ∧ e.toNat / 2 ^ 8 % 4 ≠ 3 ∧ e.toNat / 2 ^ 10 % 4 ≠ 3
              ∧ (e.getLsbD 3 = true → e.getLsbD 2 = true) ∧ frame % 2 ^ (12 * w.lvl) = 0
              ∧ (e.getLsbD 12 = true ↔ regionOf (frame * 32768) = .tier) ∧ (e.getLsbD 13 = true → regionOf (frame * 32768) = .hbm)
            let set : M Bool := asOne a.writer w.leaf va (do
              let q ← homeQuad a.writer w.leaf va
              if q = e then do
                homeWrite { a.writer with src := .unit } w.leaf (bytesOfNat 8 marked.toNat) va
                modS (showEntry a w.leaf (bytesOfNat 8 marked.toNat))
                pure true
              else pure false)
            (¬ fits → translate a k va s = .error (.trap causePage va) u)
            ∧ (fits → ¬ allowed → translate a k va s = .error (.trap causePermission va) u)
            ∧ (fits → allowed → marked ≠ e →
                (∀ v, set u = .ok false v → translate a k va s = walkTranslate a k va 1 v)
                ∧ (∀ v, set u = .error (.trap causeData va) v → translate a k va s = .error (.fatal a.ctx.part va) v)
                ∧ (∀ y v, set u = .error (.wait y) v → translate a k va s = .error (.wait y) v))
            ∧ (fits → allowed → ∀ v, (if marked = e then v = u else set u = .ok true v) →
                (allowedAt v k pa = false → translate a k va s = .error (.trap causeAccess va) v)
                ∧ (allowedAt v k pa = true → regionOf pa = .hbm →
                    ∃ l y, translate a k va s = .ok y { v with cached := l }
                      ∧ y.place = .phys pa ∧ y.ord = e.toNat / 2 ^ 8 % 4 ∧ y.skew = e.toNat / 2 ^ 10 % 4
                      ∧ y.nofwd = e.getLsbD 14 ∧ y.kv = e.getLsbD 13 ∧ y.leaf = w.leaf
                      ∧ (∃ c ∈ l, c.part = a.ctx.part ∧ c.level = w.lvl ∧ c.place = w.leaf ∧ c.entry = marked
                          ∧ c.vpage = va.toNat / 2 ^ (15 + 12 * w.lvl)
                          ∧ c.asid = (if e.getLsbD 1 = true ∧ e.getLsbD 15 = true then none else some (a.ctx.asid.extractLsb' 0 16)))))))
    ∧ (∀ pa, let present := s.extents.any fun x => decide (x.base ≤ pa ∧ pa < x.base + x.units * 2 ^ 28)
        allowedAt s k pa = match regionOf pa with
          | .hbm => true
          | .tier => present
          | .host => decide (k ≠ .fetch)
          | .peer _ => decide (k ∈ [AccKind.atomic, .atomicLoad, .copyRead, .copyWrite, .copyAdd, .plain])
          | .nothing => false)
end

