-- ==== Sys2Proof/Laws/Alu.lean ====
section
/-! SUPPORT. The arithmetic of R82 and R83 in other words: halves of products, quotients and remainders, counts of bits,
rotations. -/

namespace Sys2Proof.Laws

open Sys2Proof Sys2Proof.Machine

/-- The high half of a 128-bit number. -/
theorem highHalf_ofInt (p : Int) : (BitVec.ofInt 128 p).extractLsb' 64 64 = BitVec.ofInt 64 (p / 2 ^ 64) := by
  apply BitVec.eq_of_toNat_eq
  rw [BitVec.extractLsb'_toNat, BitVec.toNat_ofInt, BitVec.toNat_ofInt, Nat.shiftRight_eq_div_pow]
  have h1 : ((p % ((2 ^ 128 : Nat) : Int)).toNat : Int) = p % 2 ^ 128 := by
    rw [Int.toNat_of_nonneg (Int.emod_nonneg _ (by norm_num))]; norm_num
  have h2 : (((p / 2 ^ 64) % ((2 ^ 64 : Nat) : Int)).toNat : Int) = (p / 2 ^ 64) % 2 ^ 64 := by
    rw [Int.toNat_of_nonneg (Int.emod_nonneg _ (by norm_num))]; norm_num
  have : (((p % ((2 ^ 128 : Nat) : Int)).toNat / 2 ^ 64 % 2 ^ 64 : Nat) : Int) = (((p / 2 ^ 64) % ((2 ^ 64 : Nat) : Int)).toNat : Int) := by
    rw [Int.natCast_mod, Int.natCast_div, h1, h2]; push_cast; omega
  exact_mod_cast this

/-- The low half of a product. -/
theorem mul_lowHalf (a b : Word) : a * b = (a.zeroExtend 128 * b.zeroExtend 128).extractLsb' 0 64 := by
  apply BitVec.eq_of_toNat_eq
  simp [BitVec.extractLsb'_toNat, BitVec.toNat_mul, BitVec.toNat_setWidth]

/-- Zero extension keeps the unsigned value. -/
theorem zeroExtend_ofInt (b : Word) : b.zeroExtend 128 = BitVec.ofInt 128 b.toNat := by
  apply BitVec.eq_of_toNat_eq; simp

/-- Sign extension keeps the signed value. -/
theorem signExtend_ofInt (b : Word) : b.signExtend 128 = BitVec.ofInt 128 b.toInt := rfl

/-- The high half of an exact product is that of the product of the extended operands. -/
theorem highOf_mul (x y : Int) : highOf (x * y) = (BitVec.ofInt 128 x * BitVec.ofInt 128 y).extractLsb' 64 64 := by
  rw [← BitVec.ofInt_mul, highHalf_ofInt]; rfl

/-- The quotient of R83. -/
theorem divSigned_eq (a b : Word) : divSigned a b = if b = 0 then BitVec.allOnes 64 else a.sdiv b := by
  unfold divSigned
  split
  · rfl
  · apply BitVec.eq_of_toInt_eq
    rw [BitVec.toInt_sdiv, BitVec.toInt_ofInt]

/-- The unsigned quotient. -/
theorem divUnsigned_eq (a b : Word) : divUnsigned a b = if b = 0 then BitVec.allOnes 64 else a / b := rfl

/-- The remainder is a − b × quotient. -/
theorem remSigned_eq (a b : Word) : remSigned a b = if b = 0 then a else a - b * a.sdiv b := by
  unfold remSigned
  split
  · rfl
  · have h1 : a.sdiv b = BitVec.ofInt 64 (a.toInt.tdiv b.toInt) := by
      apply BitVec.eq_of_toInt_eq
      rw [BitVec.toInt_sdiv, BitVec.toInt_ofInt]
    have e := Int.tmod_add_mul_tdiv a.toInt b.toInt
    rw [h1]
    have : BitVec.ofInt 64 a.toInt = BitVec.ofInt 64 (a.toInt.tmod b.toInt) + BitVec.ofInt 64 b.toInt * BitVec.ofInt 64 (a.toInt.tdiv b.toInt) := by
      rw [← BitVec.ofInt_mul, ← BitVec.ofInt_add, e]
    rw [BitVec.ofInt_toInt, BitVec.ofInt_toInt] at this
    rw [eq_comm, BitVec.sub_eq_iff_eq_add]; exact this

/-- The unsigned remainder. -/
theorem remUnsigned_eq (a b : Word) : remUnsigned a b = if b = 0 then a else a - b * (a / b) := by
  unfold remUnsigned
  split
  · rfl
  · apply BitVec.eq_of_toNat_eq
    have h := Nat.mod_add_div a.toNat b.toNat
    have l : b.toNat * (a.toNat / b.toNat) ≤ a.toNat := Nat.mul_div_le _ _
    rw [BitVec.toNat_sub_of_le]
    · rw [BitVec.toNat_mul, BitVec.toNat_udiv, BitVec.toNat_umod, Nat.mod_eq_of_lt (lt_of_le_of_lt l a.isLt)]; omega
    · rw [BitVec.le_def, BitVec.toNat_mul, BitVec.toNat_udiv, Nat.mod_eq_of_lt (lt_of_le_of_lt l a.isLt)]; exact l

/-- Leading zeros. -/
theorem leadingZeros_eq (a : Word) : BitVec.ofNat 64 (leadingZeros a) = a.clz := by
  unfold leadingZeros
  apply BitVec.eq_of_toNat_eq
  split
  · subst_vars; decide
  · rename_i h
    have l := BitVec.two_pow_sub_clz_le_toNat_of_ne_zero (x := a) (by decide) h
    have u := BitVec.toNat_lt_two_pow_sub_clz (x := a)
    have c : a.clz.toNat < 64 := by
      by_contra hc
      have := a.clz.isLt
      have : a.toNat < 2 ^ 0 := lt_of_lt_of_le u (Nat.pow_le_pow_right (by decide) (by omega))
      apply h; apply BitVec.eq_of_toNat_eq; simp at this ⊢; simpa using this
    have e : Nat.log2 a.toNat = 63 - a.clz.toNat := by
      rw [Nat.log2_eq_iff (by intro z; apply h; apply BitVec.eq_of_toNat_eq; simpa using z)]
      refine ⟨by simpa using l, ?_⟩
      have : 63 - a.clz.toNat + 1 = 64 - a.clz.toNat := by omega
      rw [this]; exact u
    rw [e, BitVec.toNat_ofNat]; omega

/-- The first number that meets a condition. -/
theorem find_first_range (p : Nat → Bool) (k n m : Nat) (hk : k < n) (hp : p (m + k) = true) (hn : ∀ i < k, p (m + i) = false) :
    (List.range' m n).find? p = some (m + k) := by
  induction n generalizing m k with
  | zero => omega
  | succ n ih =>
    rw [List.range'_succ, List.find?_cons]
    cases k with
    | zero => simp at hp; simp [hp]
    | succ k =>
      have := hn 0 (by omega)
      simp at this
      rw [this]
      have := ih k (m + 1) (by omega) (by rw [← hp]; congr 1; omega) (fun i hi => by rw [← hn (i + 1) (by omega)]; congr 1; omega)
      simp only [this]; congr 1; omega

/-- Trailing zeros. -/
theorem trailingZeros_eq (a : Word) : BitVec.ofNat 64 (trailingZeros a) = a.ctz := by
  unfold trailingZeros
  by_cases h : a = 0
  · subst h
    have : (List.range 64).find? (fun i => (0 : Word).getLsbD i) = none := by rw [List.find?_eq_none]; simp
    have z : (0 : Word).reverse = 0#64 := by ext i; simp [BitVec.getElem_reverse, BitVec.getMsbD]
    rw [this]
    exact (show (64#64 : Word) = (0 : Word).reverse.clz by rw [z, BitVec.clz_eq_iff_eq_zero.mpr rfl]; simp)
  · have t := BitVec.getLsbD_true_ctz_of_ne_zero h
    have lt : a.ctz.toNat < 64 := by
      by_contra hc
      rw [BitVec.getLsbD_of_ge _ _ (by omega)] at t; exact absurd t (by decide)
    have := find_first_range (fun i => a.getLsbD i) a.ctz.toNat 64 0 lt (by simpa using t) (fun i hi => by simpa using BitVec.getLsbD_false_of_lt_ctz hi)
    have r : (List.range 64).find? (fun i => a.getLsbD i) = some a.ctz.toNat := by
      rw [List.range_eq_range']; rw [this, Nat.zero_add]
    rw [r]
    exact BitVec.eq_of_toNat_eq (by simp)

/-- Counting from the highest bit. -/
theorem popNat_succ_top (n v : Nat) : popNat (n + 1) v = (v.testBit n).toNat + popNat n v := by
  induction n generalizing v with
  | zero => simp [popNat, Nat.testBit_zero]; rcases Nat.mod_two_eq_zero_or_one v with h | h <;> simp [h]
  | succ n ih => rw [popNat, ih, popNat, Nat.testBit_succ]; omega

/-- One bits. -/
theorem onesIn_eq (a : Word) : BitVec.ofNat 64 (onesIn a) = a.cpop := by
  have : ∀ n k, popNat n a.toNat + k = a.cpopNatRec n k := by
    intro n
    induction n with
    | zero => intro k; simp [popNat, BitVec.cpopNatRec]
    | succ n ih => intro k; rw [BitVec.cpopNatRec_succ, ← ih, popNat_succ_top]; simp only [BitVec.getLsbD]; omega
  show BitVec.ofNat 64 (popNat 64 a.toNat) = BitVec.ofNat 64 (a.cpopNatRec 64 0)
  rw [← this 64 0, Nat.add_zero]

/-- A number with one byte more. -/
theorem natOfBytes_concat (l : List Byte) (b : Byte) : natOfBytes (l ++ [b]) = natOfBytes l + 256 ^ l.length * b.toNat := by
  induction l with
  | nil => simp [natOfBytes]
  | cons c r ih => simp only [List.cons_append, natOfBytes, ih, List.length_cons, Nat.pow_succ]; ring

/-- The bytes in reverse order. -/
theorem swapBytes_eq (a : Word) : swapBytes a = a.extractLsb' 0 8 ++ a.extractLsb' 8 8 ++ a.extractLsb' 16 8 ++ a.extractLsb' 24 8
        ++ a.extractLsb' 32 8 ++ a.extractLsb' 40 8 ++ a.extractLsb' 48 8 ++ a.extractLsb' 56 8 := by
  have e : bytesOfNat 8 a.toNat = (List.range 8).map (fun i => a.extractLsb' (8 * i) 8) := by
    apply List.ext_getElem
    · rfl
    · intro i h1 h2
      have h : i < 8 := h1
      interval_cases i <;> (apply BitVec.eq_of_toNat_eq; simp [bytesOfNat, BitVec.extractLsb'_toNat, Nat.shiftRight_eq_div_pow, Nat.div_div_eq_div_mul])
  unfold swapBytes
  rw [e]
  apply BitVec.eq_of_toNat_eq
  have ap : ∀ {n m : Nat} (x : BitVec n) (y : BitVec m), (x ++ y).toNat = x.toNat * 2 ^ m + y.toNat := by
    intro n m x y
    rw [BitVec.toNat_append, Nat.shiftLeft_eq, Nat.mul_comm, Nat.two_pow_add_eq_or_of_lt y.isLt, Nat.mul_comm]
  simp only [ap, BitVec.toNat_ofNat]
  simp only [List.range, List.range.loop, List.map, List.reverse_cons, List.reverse_nil, List.nil_append, List.cons_append, natOfBytes]
  have q : ∀ i, (a.extractLsb' i 8).toNat < 256 := fun i => (a.extractLsb' i 8).isLt
  have := q 0; have := q 8; have := q 16; have := q 24; have := q 32; have := q 40; have := q 48; have := q 56
  simp only [Nat.mul_zero, Nat.mul_one, show 8*2=16 from rfl, show 8*3=24 from rfl, show 8*4=32 from rfl, show 8*5=40 from rfl, show 8*6=48 from rfl, show 8*7=56 from rfl]
  omega

/-- Rotations as two shifts. -/
theorem rotateLeft_shifts (a : Word) (n : Nat) (h : n < 64) : a.rotateLeft n = a <<< n ||| a >>> (64 - n) := by
  rw [BitVec.rotateLeft_eq_rotateLeftAux_of_lt h]; rfl

/-- Rotations as two shifts. -/
theorem rotateRight_shifts (a : Word) (n : Nat) (h : n < 64) : a.rotateRight n = a >>> n ||| a <<< (64 - n) := by
  rw [BitVec.rotateRight_eq_rotateRightAux_of_lt h]; rfl

end Sys2Proof.Laws
end

