-- ==== Sys2Proof/Laws/State.lean ====
section
/-! SUPPORT. What each field of the state is after each of the updates that the meanings are built from. -/

namespace Sys2Proof.Machine

/-! ## Replacing a slot, a core, a cluster, a partition -/

@[simp] theorem setSlot_cores (s : State) (q : SeqId) (v : Slot) : (s.setSlot q v).cores = s.cores := rfl
@[simp] theorem setSlot_clusters (s : State) (q : SeqId) (v : Slot) : (s.setSlot q v).clusters = s.clusters := rfl
@[simp] theorem setSlot_parts (s : State) (q : SeqId) (v : Slot) : (s.setSlot q v).parts = s.parts := rfl
@[simp] theorem setSlot_mem (s : State) (q : SeqId) (v : Slot) : (s.setSlot q v).mem = s.mem := rfl
@[simp] theorem setSlot_marks (s : State) (q : SeqId) (v : Slot) : (s.setSlot q v).marks = s.marks := rfl
@[simp] theorem setSlot_transit (s : State) (q : SeqId) (v : Slot) : (s.setSlot q v).transit = s.transit := rfl
@[simp] theorem setSlot_bad (s : State) (q : SeqId) (v : Slot) : (s.setSlot q v).bad = s.bad := rfl
@[simp] theorem setSlot_cached (s : State) (q : SeqId) (v : Slot) : (s.setSlot q v).cached = s.cached := rfl
@[simp] theorem setSlot_atc (s : State) (q : SeqId) (v : Slot) : (s.setSlot q v).atc = s.atc := rfl
@[simp] theorem setSlot_pri (s : State) (q : SeqId) (v : Slot) : (s.setSlot q v).pri = s.pri := rfl
@[simp] theorem setSlot_launches (s : State) (q : SeqId) (v : Slot) : (s.setSlot q v).launches = s.launches := rfl
@[simp] theorem setSlot_darnServed (s : State) (q : SeqId) (v : Slot) : (s.setSlot q v).darnServed = s.darnServed := rfl
@[simp] theorem setSlot_mangleServed (s : State) (q : SeqId) (v : Slot) : (s.setSlot q v).mangleServed = s.mangleServed := rfl
@[simp] theorem setSlot_cycle (s : State) (q : SeqId) (v : Slot) : (s.setSlot q v).cycle = s.cycle := rfl
@[simp] theorem setSlot_peertab (s : State) (q : SeqId) (v : Slot) : (s.setSlot q v).peertab = s.peertab := rfl
@[simp] theorem setSlot_klPorts (s : State) (q : SeqId) (v : Slot) : (s.setSlot q v).klPorts = s.klPorts := rfl
@[simp] theorem setSlot_bstat (s : State) (q : SeqId) (v : Slot) : (s.setSlot q v).bstat = s.bstat := rfl
@[simp] theorem setSlot_pwrlim (s : State) (q : SeqId) (v : Slot) : (s.setSlot q v).pwrlim = s.pwrlim := rfl
@[simp] theorem setSlot_pwrstat (s : State) (q : SeqId) (v : Slot) : (s.setSlot q v).pwrstat = s.pwrstat := rfl
@[simp] theorem setSlot_throttle (s : State) (q : SeqId) (v : Slot) : (s.setSlot q v).throttle = s.throttle := rfl
@[simp] theorem setSlot_extasgn (s : State) (q : SeqId) (v : Slot) : (s.setSlot q v).extasgn = s.extasgn := rfl
@[simp] theorem setSlot_extents (s : State) (q : SeqId) (v : Slot) : (s.setSlot q v).extents = s.extents := rfl
@[simp] theorem setSlot_dbgsess (s : State) (q : SeqId) (v : Slot) : (s.setSlot q v).dbgsess = s.dbgsess := rfl
@[simp] theorem setSlot_fwStaged (s : State) (q : SeqId) (v : Slot) : (s.setSlot q v).fwStaged = s.fwStaged := rfl
@[simp] theorem setSlot_fuseVersion (s : State) (q : SeqId) (v : Slot) : (s.setSlot q v).fuseVersion = s.fuseVersion := rfl
@[simp] theorem setSlot_fwVersion (s : State) (q : SeqId) (v : Slot) : (s.setSlot q v).fwVersion = s.fwVersion := rfl
@[simp] theorem setSlot_identity (s : State) (q : SeqId) (v : Slot) : (s.setSlot q v).identity = s.identity := rfl
@[simp] theorem setSlot_tripped (s : State) (q : SeqId) (v : Slot) : (s.setSlot q v).tripped = s.tripped := rfl
@[simp] theorem setSlot_outbox (s : State) (q : SeqId) (v : Slot) : (s.setSlot q v).outbox = s.outbox := rfl
@[simp] theorem setSlot_script (s : State) (q : SeqId) (v : Slot) : (s.setSlot q v).script = s.script := rfl
@[simp] theorem setSlot_cur (s : State) (q : SeqId) (v : Slot) : (s.setSlot q v).cur = s.cur := rfl
@[simp] theorem setSlot_ticks (s : State) (q : SeqId) (v : Slot) : (s.setSlot q v).ticks = s.ticks := rfl

@[simp] theorem setCore_slots (s : State) (c : CoreId) (v : Core) : (s.setCore c v).slots = s.slots := rfl
@[simp] theorem setCore_clusters (s : State) (c : CoreId) (v : Core) : (s.setCore c v).clusters = s.clusters := rfl
@[simp] theorem setCore_parts (s : State) (c : CoreId) (v : Core) : (s.setCore c v).parts = s.parts := rfl
@[simp] theorem setCore_mem (s : State) (c : CoreId) (v : Core) : (s.setCore c v).mem = s.mem := rfl
@[simp] theorem setCore_marks (s : State) (c : CoreId) (v : Core) : (s.setCore c v).marks = s.marks := rfl
@[simp] theorem setCore_transit (s : State) (c : CoreId) (v : Core) : (s.setCore c v).transit = s.transit := rfl
@[simp] theorem setCore_bad (s : State) (c : CoreId) (v : Core) : (s.setCore c v).bad = s.bad := rfl
@[simp] theorem setCore_cached (s : State) (c : CoreId) (v : Core) : (s.setCore c v).cached = s.cached := rfl
@[simp] theorem setCore_atc (s : State) (c : CoreId) (v : Core) : (s.setCore c v).atc = s.atc := rfl
@[simp] theorem setCore_pri (s : State) (c : CoreId) (v : Core) : (s.setCore c v).pri = s.pri := rfl
@[simp] theorem setCore_launches (s : State) (c : CoreId) (v : Core) : (s.setCore c v).launches = s.launches := rfl
@[simp] theorem setCore_darnServed (s : State) (c : CoreId) (v : Core) : (s.setCore c v).darnServed = s.darnServed := rfl
@[simp] theorem setCore_mangleServed (s : State) (c : CoreId) (v : Core) : (s.setCore c v).mangleServed = s.mangleServed := rfl
@[simp] theorem setCore_cycle (s : State) (c : CoreId) (v : Core) : (s.setCore c v).cycle = s.cycle := rfl
@[simp] theorem setCore_peertab (s : State) (c : CoreId) (v : Core) : (s.setCore c v).peertab = s.peertab := rfl
@[simp] theorem setCore_klPorts (s : State) (c : CoreId) (v : Core) : (s.setCore c v).klPorts = s.klPorts := rfl
@[simp] theorem setCore_bstat (s : State) (c : CoreId) (v : Core) : (s.setCore c v).bstat = s.bstat := rfl
@[simp] theorem setCore_pwrlim (s : State) (c : CoreId) (v : Core) : (s.setCore c v).pwrlim = s.pwrlim := rfl
@[simp] theorem setCore_pwrstat (s : State) (c : CoreId) (v : Core) : (s.setCore c v).pwrstat = s.pwrstat := rfl
@[simp] theorem setCore_throttle (s : State) (c : CoreId) (v : Core) : (s.setCore c v).throttle = s.throttle := rfl
@[simp] theorem setCore_extasgn (s : State) (c : CoreId) (v : Core) : (s.setCore c v).extasgn = s.extasgn := rfl
@[simp] theorem setCore_extents (s : State) (c : CoreId) (v : Core) : (s.setCore c v).extents = s.extents := rfl
@[simp] theorem setCore_dbgsess (s : State) (c : CoreId) (v : Core) : (s.setCore c v).dbgsess = s.dbgsess := rfl
@[simp] theorem setCore_fwStaged (s : State) (c : CoreId) (v : Core) : (s.setCore c v).fwStaged = s.fwStaged := rfl
@[simp] theorem setCore_fuseVersion (s : State) (c : CoreId) (v : Core) : (s.setCore c v).fuseVersion = s.fuseVersion := rfl
@[simp] theorem setCore_fwVersion (s : State) (c : CoreId) (v : Core) : (s.setCore c v).fwVersion = s.fwVersion := rfl
@[simp] theorem setCore_identity (s : State) (c : CoreId) (v : Core) : (s.setCore c v).identity = s.identity := rfl
@[simp] theorem setCore_tripped (s : State) (c : CoreId) (v : Core) : (s.setCore c v).tripped = s.tripped := rfl
@[simp] theorem setCore_outbox (s : State) (c : CoreId) (v : Core) : (s.setCore c v).outbox = s.outbox := rfl
@[simp] theorem setCore_script (s : State) (c : CoreId) (v : Core) : (s.setCore c v).script = s.script := rfl
@[simp] theorem setCore_cur (s : State) (c : CoreId) (v : Core) : (s.setCore c v).cur = s.cur := rfl
@[simp] theorem setCore_ticks (s : State) (c : CoreId) (v : Core) : (s.setCore c v).ticks = s.ticks := rfl

@[simp] theorem setCluster_slots (s : State) (c : ClusterId) (v : Cluster) : (s.setCluster c v).slots = s.slots := rfl
@[simp] theorem setCluster_cores (s : State) (c : ClusterId) (v : Cluster) : (s.setCluster c v).cores = s.cores := rfl
@[simp] theorem setCluster_parts (s : State) (c : ClusterId) (v : Cluster) : (s.setCluster c v).parts = s.parts := rfl
@[simp] theorem setCluster_mem (s : State) (c : ClusterId) (v : Cluster) : (s.setCluster c v).mem = s.mem := rfl
@[simp] theorem setCluster_marks (s : State) (c : ClusterId) (v : Cluster) : (s.setCluster c v).marks = s.marks := rfl
@[simp] theorem setCluster_transit (s : State) (c : ClusterId) (v : Cluster) : (s.setCluster c v).transit = s.transit := rfl
@[simp] theorem setCluster_bad (s : State) (c : ClusterId) (v : Cluster) : (s.setCluster c v).bad = s.bad := rfl
@[simp] theorem setCluster_cached (s : State) (c : ClusterId) (v : Cluster) : (s.setCluster c v).cached = s.cached := rfl
@[simp] theorem setCluster_atc (s : State) (c : ClusterId) (v : Cluster) : (s.setCluster c v).atc = s.atc := rfl
@[simp] theorem setCluster_pri (s : State) (c : ClusterId) (v : Cluster) : (s.setCluster c v).pri = s.pri := rfl
@[simp] theorem setCluster_launches (s : State) (c : ClusterId) (v : Cluster) : (s.setCluster c v).launches = s.launches := rfl
@[simp] theorem setCluster_darnServed (s : State) (c : ClusterId) (v : Cluster) : (s.setCluster c v).darnServed = s.darnServed := rfl
@[simp] theorem setCluster_mangleServed (s : State) (c : ClusterId) (v : Cluster) : (s.setCluster c v).mangleServed = s.mangleServed := rfl
@[simp] theorem setCluster_cycle (s : State) (c : ClusterId) (v : Cluster) : (s.setCluster c v).cycle = s.cycle := rfl
@[simp] theorem setCluster_peertab (s : State) (c : ClusterId) (v : Cluster) : (s.setCluster c v).peertab = s.peertab := rfl
@[simp] theorem setCluster_klPorts (s : State) (c : ClusterId) (v : Cluster) : (s.setCluster c v).klPorts = s.klPorts := rfl
@[simp] theorem setCluster_bstat (s : State) (c : ClusterId) (v : Cluster) : (s.setCluster c v).bstat = s.bstat := rfl
@[simp] theorem setCluster_pwrlim (s : State) (c : ClusterId) (v : Cluster) : (s.setCluster c v).pwrlim = s.pwrlim := rfl
@[simp] theorem setCluster_pwrstat (s : State) (c : ClusterId) (v : Cluster) : (s.setCluster c v).pwrstat = s.pwrstat := rfl
@[simp] theorem setCluster_throttle (s : State) (c : ClusterId) (v : Cluster) : (s.setCluster c v).throttle = s.throttle := rfl
@[simp] theorem setCluster_extasgn (s : State) (c : ClusterId) (v : Cluster) : (s.setCluster c v).extasgn = s.extasgn := rfl
@[simp] theorem setCluster_extents (s : State) (c : ClusterId) (v : Cluster) : (s.setCluster c v).extents = s.extents := rfl
@[simp] theorem setCluster_dbgsess (s : State) (c : ClusterId) (v : Cluster) : (s.setCluster c v).dbgsess = s.dbgsess := rfl
@[simp] theorem setCluster_fwStaged (s : State) (c : ClusterId) (v : Cluster) : (s.setCluster c v).fwStaged = s.fwStaged := rfl
@[simp] theorem setCluster_fuseVersion (s : State) (c : ClusterId) (v : Cluster) : (s.setCluster c v).fuseVersion = s.fuseVersion := rfl
@[simp] theorem setCluster_fwVersion (s : State) (c : ClusterId) (v : Cluster) : (s.setCluster c v).fwVersion = s.fwVersion := rfl
@[simp] theorem setCluster_identity (s : State) (c : ClusterId) (v : Cluster) : (s.setCluster c v).identity = s.identity := rfl
@[simp] theorem setCluster_tripped (s : State) (c : ClusterId) (v : Cluster) : (s.setCluster c v).tripped = s.tripped := rfl
@[simp] theorem setCluster_outbox (s : State) (c : ClusterId) (v : Cluster) : (s.setCluster c v).outbox = s.outbox := rfl
@[simp] theorem setCluster_script (s : State) (c : ClusterId) (v : Cluster) : (s.setCluster c v).script = s.script := rfl
@[simp] theorem setCluster_cur (s : State) (c : ClusterId) (v : Cluster) : (s.setCluster c v).cur = s.cur := rfl
@[simp] theorem setCluster_ticks (s : State) (c : ClusterId) (v : Cluster) : (s.setCluster c v).ticks = s.ticks := rfl

@[simp] theorem setPart_slots (s : State) (p : PartId) (v : Part) : (s.setPart p v).slots = s.slots := rfl
@[simp] theorem setPart_cores (s : State) (p : PartId) (v : Part) : (s.setPart p v).cores = s.cores := rfl
@[simp] theorem setPart_clusters (s : State) (p : PartId) (v : Part) : (s.setPart p v).clusters = s.clusters := rfl
@[simp] theorem setPart_mem (s : State) (p : PartId) (v : Part) : (s.setPart p v).mem = s.mem := rfl
@[simp] theorem setPart_marks (s : State) (p : PartId) (v : Part) : (s.setPart p v).marks = s.marks := rfl
@[simp] theorem setPart_transit (s : State) (p : PartId) (v : Part) : (s.setPart p v).transit = s.transit := rfl
@[simp] theorem setPart_bad (s : State) (p : PartId) (v : Part) : (s.setPart p v).bad = s.bad := rfl
@[simp] theorem setPart_cached (s : State) (p : PartId) (v : Part) : (s.setPart p v).cached = s.cached := rfl
@[simp] theorem setPart_atc (s : State) (p : PartId) (v : Part) : (s.setPart p v).atc = s.atc := rfl
@[simp] theorem setPart_pri (s : State) (p : PartId) (v : Part) : (s.setPart p v).pri = s.pri := rfl
@[simp] theorem setPart_launches (s : State) (p : PartId) (v : Part) : (s.setPart p v).launches = s.launches := rfl
@[simp] theorem setPart_darnServed (s : State) (p : PartId) (v : Part) : (s.setPart p v).darnServed = s.darnServed := rfl
@[simp] theorem setPart_mangleServed (s : State) (p : PartId) (v : Part) : (s.setPart p v).mangleServed = s.mangleServed := rfl
@[simp] theorem setPart_cycle (s : State) (p : PartId) (v : Part) : (s.setPart p v).cycle = s.cycle := rfl
@[simp] theorem setPart_peertab (s : State) (p : PartId) (v : Part) : (s.setPart p v).peertab = s.peertab := rfl
@[simp] theorem setPart_klPorts (s : State) (p : PartId) (v : Part) : (s.setPart p v).klPorts = s.klPorts := rfl
@[simp] theorem setPart_bstat (s : State) (p : PartId) (v : Part) : (s.setPart p v).bstat = s.bstat := rfl
@[simp] theorem setPart_pwrlim (s : State) (p : PartId) (v : Part) : (s.setPart p v).pwrlim = s.pwrlim := rfl
@[simp] theorem setPart_pwrstat (s : State) (p : PartId) (v : Part) : (s.setPart p v).pwrstat = s.pwrstat := rfl
@[simp] theorem setPart_throttle (s : State) (p : PartId) (v : Part) : (s.setPart p v).throttle = s.throttle := rfl
@[simp] theorem setPart_extasgn (s : State) (p : PartId) (v : Part) : (s.setPart p v).extasgn = s.extasgn := rfl
@[simp] theorem setPart_extents (s : State) (p : PartId) (v : Part) : (s.setPart p v).extents = s.extents := rfl
@[simp] theorem setPart_dbgsess (s : State) (p : PartId) (v : Part) : (s.setPart p v).dbgsess = s.dbgsess := rfl
@[simp] theorem setPart_fwStaged (s : State) (p : PartId) (v : Part) : (s.setPart p v).fwStaged = s.fwStaged := rfl
@[simp] theorem setPart_fuseVersion (s : State) (p : PartId) (v : Part) : (s.setPart p v).fuseVersion = s.fuseVersion := rfl
@[simp] theorem setPart_fwVersion (s : State) (p : PartId) (v : Part) : (s.setPart p v).fwVersion = s.fwVersion := rfl
@[simp] theorem setPart_identity (s : State) (p : PartId) (v : Part) : (s.setPart p v).identity = s.identity := rfl
@[simp] theorem setPart_tripped (s : State) (p : PartId) (v : Part) : (s.setPart p v).tripped = s.tripped := rfl
@[simp] theorem setPart_outbox (s : State) (p : PartId) (v : Part) : (s.setPart p v).outbox = s.outbox := rfl
@[simp] theorem setPart_script (s : State) (p : PartId) (v : Part) : (s.setPart p v).script = s.script := rfl
@[simp] theorem setPart_cur (s : State) (p : PartId) (v : Part) : (s.setPart p v).cur = s.cur := rfl
@[simp] theorem setPart_ticks (s : State) (p : PartId) (v : Part) : (s.setPart p v).ticks = s.ticks := rfl

/-! ## Applying a function to one of them -/

@[simp] theorem mapSlot_cores (s : State) (q : SeqId) (f : Slot → Slot) : (mapSlot q f s).cores = s.cores := rfl
@[simp] theorem mapSlot_clusters (s : State) (q : SeqId) (f : Slot → Slot) : (mapSlot q f s).clusters = s.clusters := rfl
@[simp] theorem mapSlot_parts (s : State) (q : SeqId) (f : Slot → Slot) : (mapSlot q f s).parts = s.parts := rfl
@[simp] theorem mapSlot_mem (s : State) (q : SeqId) (f : Slot → Slot) : (mapSlot q f s).mem = s.mem := rfl
@[simp] theorem mapSlot_marks (s : State) (q : SeqId) (f : Slot → Slot) : (mapSlot q f s).marks = s.marks := rfl
@[simp] theorem mapSlot_transit (s : State) (q : SeqId) (f : Slot → Slot) : (mapSlot q f s).transit = s.transit := rfl
@[simp] theorem mapSlot_bad (s : State) (q : SeqId) (f : Slot → Slot) : (mapSlot q f s).bad = s.bad := rfl
@[simp] theorem mapSlot_cached (s : State) (q : SeqId) (f : Slot → Slot) : (mapSlot q f s).cached = s.cached := rfl
@[simp] theorem mapSlot_atc (s : State) (q : SeqId) (f : Slot → Slot) : (mapSlot q f s).atc = s.atc := rfl
@[simp] theorem mapSlot_pri (s : State) (q : SeqId) (f : Slot → Slot) : (mapSlot q f s).pri = s.pri := rfl
@[simp] theorem mapSlot_launches (s : State) (q : SeqId) (f : Slot → Slot) : (mapSlot q f s).launches = s.launches := rfl
@[simp] theorem mapSlot_darnServed (s : State) (q : SeqId) (f : Slot → Slot) : (mapSlot q f s).darnServed = s.darnServed := rfl
@[simp] theorem mapSlot_mangleServed (s : State) (q : SeqId) (f : Slot → Slot) : (mapSlot q f s).mangleServed = s.mangleServed := rfl
@[simp] theorem mapSlot_cycle (s : State) (q : SeqId) (f : Slot → Slot) : (mapSlot q f s).cycle = s.cycle := rfl
@[simp] theorem mapSlot_peertab (s : State) (q : SeqId) (f : Slot → Slot) : (mapSlot q f s).peertab = s.peertab := rfl
@[simp] theorem mapSlot_klPorts (s : State) (q : SeqId) (f : Slot → Slot) : (mapSlot q f s).klPorts = s.klPorts := rfl
@[simp] theorem mapSlot_bstat (s : State) (q : SeqId) (f : Slot → Slot) : (mapSlot q f s).bstat = s.bstat := rfl
@[simp] theorem mapSlot_pwrlim (s : State) (q : SeqId) (f : Slot → Slot) : (mapSlot q f s).pwrlim = s.pwrlim := rfl
@[simp] theorem mapSlot_pwrstat (s : State) (q : SeqId) (f : Slot → Slot) : (mapSlot q f s).pwrstat = s.pwrstat := rfl
@[simp] theorem mapSlot_throttle (s : State) (q : SeqId) (f : Slot → Slot) : (mapSlot q f s).throttle = s.throttle := rfl
@[simp] theorem mapSlot_extasgn (s : State) (q : SeqId) (f : Slot → Slot) : (mapSlot q f s).extasgn = s.extasgn := rfl
@[simp] theorem mapSlot_extents (s : State) (q : SeqId) (f : Slot → Slot) : (mapSlot q f s).extents = s.extents := rfl
@[simp] theorem mapSlot_dbgsess (s : State) (q : SeqId) (f : Slot → Slot) : (mapSlot q f s).dbgsess = s.dbgsess := rfl
@[simp] theorem mapSlot_fwStaged (s : State) (q : SeqId) (f : Slot → Slot) : (mapSlot q f s).fwStaged = s.fwStaged := rfl
@[simp] theorem mapSlot_fuseVersion (s : State) (q : SeqId) (f : Slot → Slot) : (mapSlot q f s).fuseVersion = s.fuseVersion := rfl
@[simp] theorem mapSlot_fwVersion (s : State) (q : SeqId) (f : Slot → Slot) : (mapSlot q f s).fwVersion = s.fwVersion := rfl
@[simp] theorem mapSlot_identity (s : State) (q : SeqId) (f : Slot → Slot) : (mapSlot q f s).identity = s.identity := rfl
@[simp] theorem mapSlot_tripped (s : State) (q : SeqId) (f : Slot → Slot) : (mapSlot q f s).tripped = s.tripped := rfl
@[simp] theorem mapSlot_outbox (s : State) (q : SeqId) (f : Slot → Slot) : (mapSlot q f s).outbox = s.outbox := rfl
@[simp] theorem mapSlot_script (s : State) (q : SeqId) (f : Slot → Slot) : (mapSlot q f s).script = s.script := rfl
@[simp] theorem mapSlot_cur (s : State) (q : SeqId) (f : Slot → Slot) : (mapSlot q f s).cur = s.cur := rfl
@[simp] theorem mapSlot_ticks (s : State) (q : SeqId) (f : Slot → Slot) : (mapSlot q f s).ticks = s.ticks := rfl

@[simp] theorem mapMe_cores (s : State) (f : Slot → Slot) : (mapMe f s).cores = s.cores := rfl
@[simp] theorem mapMe_clusters (s : State) (f : Slot → Slot) : (mapMe f s).clusters = s.clusters := rfl
@[simp] theorem mapMe_parts (s : State) (f : Slot → Slot) : (mapMe f s).parts = s.parts := rfl
@[simp] theorem mapMe_mem (s : State) (f : Slot → Slot) : (mapMe f s).mem = s.mem := rfl
@[simp] theorem mapMe_marks (s : State) (f : Slot → Slot) : (mapMe f s).marks = s.marks := rfl
@[simp] theorem mapMe_transit (s : State) (f : Slot → Slot) : (mapMe f s).transit = s.transit := rfl
@[simp] theorem mapMe_bad (s : State) (f : Slot → Slot) : (mapMe f s).bad = s.bad := rfl
@[simp] theorem mapMe_cached (s : State) (f : Slot → Slot) : (mapMe f s).cached = s.cached := rfl
@[simp] theorem mapMe_atc (s : State) (f : Slot → Slot) : (mapMe f s).atc = s.atc := rfl
@[simp] theorem mapMe_pri (s : State) (f : Slot → Slot) : (mapMe f s).pri = s.pri := rfl
@[simp] theorem mapMe_launches (s : State) (f : Slot → Slot) : (mapMe f s).launches = s.launches := rfl
@[simp] theorem mapMe_darnServed (s : State) (f : Slot → Slot) : (mapMe f s).darnServed = s.darnServed := rfl
@[simp] theorem mapMe_mangleServed (s : State) (f : Slot → Slot) : (mapMe f s).mangleServed = s.mangleServed := rfl
@[simp] theorem mapMe_cycle (s : State) (f : Slot → Slot) : (mapMe f s).cycle = s.cycle := rfl
@[simp] theorem mapMe_peertab (s : State) (f : Slot → Slot) : (mapMe f s).peertab = s.peertab := rfl
@[simp] theorem mapMe_klPorts (s : State) (f : Slot → Slot) : (mapMe f s).klPorts = s.klPorts := rfl
@[simp] theorem mapMe_bstat (s : State) (f : Slot → Slot) : (mapMe f s).bstat = s.bstat := rfl
@[simp] theorem mapMe_pwrlim (s : State) (f : Slot → Slot) : (mapMe f s).pwrlim = s.pwrlim := rfl
@[simp] theorem mapMe_pwrstat (s : State) (f : Slot → Slot) : (mapMe f s).pwrstat = s.pwrstat := rfl
@[simp] theorem mapMe_throttle (s : State) (f : Slot → Slot) : (mapMe f s).throttle = s.throttle := rfl
@[simp] theorem mapMe_extasgn (s : State) (f : Slot → Slot) : (mapMe f s).extasgn = s.extasgn := rfl
@[simp] theorem mapMe_extents (s : State) (f : Slot → Slot) : (mapMe f s).extents = s.extents := rfl
@[simp] theorem mapMe_dbgsess (s : State) (f : Slot → Slot) : (mapMe f s).dbgsess = s.dbgsess := rfl
@[simp] theorem mapMe_fwStaged (s : State) (f : Slot → Slot) : (mapMe f s).fwStaged = s.fwStaged := rfl
@[simp] theorem mapMe_fuseVersion (s : State) (f : Slot → Slot) : (mapMe f s).fuseVersion = s.fuseVersion := rfl
@[simp] theorem mapMe_fwVersion (s : State) (f : Slot → Slot) : (mapMe f s).fwVersion = s.fwVersion := rfl
@[simp] theorem mapMe_identity (s : State) (f : Slot → Slot) : (mapMe f s).identity = s.identity := rfl
@[simp] theorem mapMe_tripped (s : State) (f : Slot → Slot) : (mapMe f s).tripped = s.tripped := rfl
@[simp] theorem mapMe_outbox (s : State) (f : Slot → Slot) : (mapMe f s).outbox = s.outbox := rfl
@[simp] theorem mapMe_script (s : State) (f : Slot → Slot) : (mapMe f s).script = s.script := rfl
@[simp] theorem mapMe_cur (s : State) (f : Slot → Slot) : (mapMe f s).cur = s.cur := rfl
@[simp] theorem mapMe_ticks (s : State) (f : Slot → Slot) : (mapMe f s).ticks = s.ticks := rfl

@[simp] theorem mapCore_slots (s : State) (c : CoreId) (f : Core → Core) : (mapCore c f s).slots = s.slots := rfl
@[simp] theorem mapCore_clusters (s : State) (c : CoreId) (f : Core → Core) : (mapCore c f s).clusters = s.clusters := rfl
@[simp] theorem mapCore_parts (s : State) (c : CoreId) (f : Core → Core) : (mapCore c f s).parts = s.parts := rfl
@[simp] theorem mapCore_mem (s : State) (c : CoreId) (f : Core → Core) : (mapCore c f s).mem = s.mem := rfl
@[simp] theorem mapCore_marks (s : State) (c : CoreId) (f : Core → Core) : (mapCore c f s).marks = s.marks := rfl
@[simp] theorem mapCore_transit (s : State) (c : CoreId) (f : Core → Core) : (mapCore c f s).transit = s.transit := rfl
@[simp] theorem mapCore_bad (s : State) (c : CoreId) (f : Core → Core) : (mapCore c f s).bad = s.bad := rfl
@[simp] theorem mapCore_cached (s : State) (c : CoreId) (f : Core → Core) : (mapCore c f s).cached = s.cached := rfl
@[simp] theorem mapCore_atc (s : State) (c : CoreId) (f : Core → Core) : (mapCore c f s).atc = s.atc := rfl
@[simp] theorem mapCore_pri (s : State) (c : CoreId) (f : Core → Core) : (mapCore c f s).pri = s.pri := rfl
@[simp] theorem mapCore_launches (s : State) (c : CoreId) (f : Core → Core) : (mapCore c f s).launches = s.launches := rfl
@[simp] theorem mapCore_darnServed (s : State) (c : CoreId) (f : Core → Core) : (mapCore c f s).darnServed = s.darnServed := rfl
@[simp] theorem mapCore_mangleServed (s : State) (c : CoreId) (f : Core → Core) : (mapCore c f s).mangleServed = s.mangleServed := rfl
@[simp] theorem mapCore_cycle (s : State) (c : CoreId) (f : Core → Core) : (mapCore c f s).cycle = s.cycle := rfl
@[simp] theorem mapCore_peertab (s : State) (c : CoreId) (f : Core → Core) : (mapCore c f s).peertab = s.peertab := rfl
@[simp] theorem mapCore_klPorts (s : State) (c : CoreId) (f : Core → Core) : (mapCore c f s).klPorts = s.klPorts := rfl
@[simp] theorem mapCore_bstat (s : State) (c : CoreId) (f : Core → Core) : (mapCore c f s).bstat = s.bstat := rfl
@[simp] theorem mapCore_pwrlim (s : State) (c : CoreId) (f : Core → Core) : (mapCore c f s).pwrlim = s.pwrlim := rfl
@[simp] theorem mapCore_pwrstat (s : State) (c : CoreId) (f : Core → Core) : (mapCore c f s).pwrstat = s.pwrstat := rfl
@[simp] theorem mapCore_throttle (s : State) (c : CoreId) (f : Core → Core) : (mapCore c f s).throttle = s.throttle := rfl
@[simp] theorem mapCore_extasgn (s : State) (c : CoreId) (f : Core → Core) : (mapCore c f s).extasgn = s.extasgn := rfl
@[simp] theorem mapCore_extents (s : State) (c : CoreId) (f : Core → Core) : (mapCore c f s).extents = s.extents := rfl
@[simp] theorem mapCore_dbgsess (s : State) (c : CoreId) (f : Core → Core) : (mapCore c f s).dbgsess = s.dbgsess := rfl
@[simp] theorem mapCore_fwStaged (s : State) (c : CoreId) (f : Core → Core) : (mapCore c f s).fwStaged = s.fwStaged := rfl
@[simp] theorem mapCore_fuseVersion (s : State) (c : CoreId) (f : Core → Core) : (mapCore c f s).fuseVersion = s.fuseVersion := rfl
@[simp] theorem mapCore_fwVersion (s : State) (c : CoreId) (f : Core → Core) : (mapCore c f s).fwVersion = s.fwVersion := rfl
@[simp] theorem mapCore_identity (s : State) (c : CoreId) (f : Core → Core) : (mapCore c f s).identity = s.identity := rfl
@[simp] theorem mapCore_tripped (s : State) (c : CoreId) (f : Core → Core) : (mapCore c f s).tripped = s.tripped := rfl
@[simp] theorem mapCore_outbox (s : State) (c : CoreId) (f : Core → Core) : (mapCore c f s).outbox = s.outbox := rfl
@[simp] theorem mapCore_script (s : State) (c : CoreId) (f : Core → Core) : (mapCore c f s).script = s.script := rfl
@[simp] theorem mapCore_cur (s : State) (c : CoreId) (f : Core → Core) : (mapCore c f s).cur = s.cur := rfl
@[simp] theorem mapCore_ticks (s : State) (c : CoreId) (f : Core → Core) : (mapCore c f s).ticks = s.ticks := rfl

@[simp] theorem mapCluster_slots (s : State) (c : ClusterId) (f : Cluster → Cluster) : (mapCluster c f s).slots = s.slots := rfl
@[simp] theorem mapCluster_cores (s : State) (c : ClusterId) (f : Cluster → Cluster) : (mapCluster c f s).cores = s.cores := rfl
@[simp] theorem mapCluster_parts (s : State) (c : ClusterId) (f : Cluster → Cluster) : (mapCluster c f s).parts = s.parts := rfl
@[simp] theorem mapCluster_mem (s : State) (c : ClusterId) (f : Cluster → Cluster) : (mapCluster c f s).mem = s.mem := rfl
@[simp] theorem mapCluster_marks (s : State) (c : ClusterId) (f : Cluster → Cluster) : (mapCluster c f s).marks = s.marks := rfl
@[simp] theorem mapCluster_transit (s : State) (c : ClusterId) (f : Cluster → Cluster) : (mapCluster c f s).transit = s.transit := rfl
@[simp] theorem mapCluster_bad (s : State) (c : ClusterId) (f : Cluster → Cluster) : (mapCluster c f s).bad = s.bad := rfl
@[simp] theorem mapCluster_cached (s : State) (c : ClusterId) (f : Cluster → Cluster) : (mapCluster c f s).cached = s.cached := rfl
@[simp] theorem mapCluster_atc (s : State) (c : ClusterId) (f : Cluster → Cluster) : (mapCluster c f s).atc = s.atc := rfl
@[simp] theorem mapCluster_pri (s : State) (c : ClusterId) (f : Cluster → Cluster) : (mapCluster c f s).pri = s.pri := rfl
@[simp] theorem mapCluster_launches (s : State) (c : ClusterId) (f : Cluster → Cluster) : (mapCluster c f s).launches = s.launches := rfl
@[simp] theorem mapCluster_darnServed (s : State) (c : ClusterId) (f : Cluster → Cluster) : (mapCluster c f s).darnServed = s.darnServed := rfl
@[simp] theorem mapCluster_mangleServed (s : State) (c : ClusterId) (f : Cluster → Cluster) : (mapCluster c f s).mangleServed = s.mangleServed := rfl
@[simp] theorem mapCluster_cycle (s : State) (c : ClusterId) (f : Cluster → Cluster) : (mapCluster c f s).cycle = s.cycle := rfl
@[simp] theorem mapCluster_peertab (s : State) (c : ClusterId) (f : Cluster → Cluster) : (mapCluster c f s).peertab = s.peertab := rfl
@[simp] theorem mapCluster_klPorts (s : State) (c : ClusterId) (f : Cluster → Cluster) : (mapCluster c f s).klPorts = s.klPorts := rfl
@[simp] theorem mapCluster_bstat (s : State) (c : ClusterId) (f : Cluster → Cluster) : (mapCluster c f s).bstat = s.bstat := rfl
@[simp] theorem mapCluster_pwrlim (s : State) (c : ClusterId) (f : Cluster → Cluster) : (mapCluster c f s).pwrlim = s.pwrlim := rfl
@[simp] theorem mapCluster_pwrstat (s : State) (c : ClusterId) (f : Cluster → Cluster) : (mapCluster c f s).pwrstat = s.pwrstat := rfl
@[simp] theorem mapCluster_throttle (s : State) (c : ClusterId) (f : Cluster → Cluster) : (mapCluster c f s).throttle = s.throttle := rfl
@[simp] theorem mapCluster_extasgn (s : State) (c : ClusterId) (f : Cluster → Cluster) : (mapCluster c f s).extasgn = s.extasgn := rfl
@[simp] theorem mapCluster_extents (s : State) (c : ClusterId) (f : Cluster → Cluster) : (mapCluster c f s).extents = s.extents := rfl
@[simp] theorem mapCluster_dbgsess (s : State) (c : ClusterId) (f : Cluster → Cluster) : (mapCluster c f s).dbgsess = s.dbgsess := rfl
@[simp] theorem mapCluster_fwStaged (s : State) (c : ClusterId) (f : Cluster → Cluster) : (mapCluster c f s).fwStaged = s.fwStaged := rfl
@[simp] theorem mapCluster_fuseVersion (s : State) (c : ClusterId) (f : Cluster → Cluster) : (mapCluster c f s).fuseVersion = s.fuseVersion := rfl
@[simp] theorem mapCluster_fwVersion (s : State) (c : ClusterId) (f : Cluster → Cluster) : (mapCluster c f s).fwVersion = s.fwVersion := rfl
@[simp] theorem mapCluster_identity (s : State) (c : ClusterId) (f : Cluster → Cluster) : (mapCluster c f s).identity = s.identity := rfl
@[simp] theorem mapCluster_tripped (s : State) (c : ClusterId) (f : Cluster → Cluster) : (mapCluster c f s).tripped = s.tripped := rfl
@[simp] theorem mapCluster_outbox (s : State) (c : ClusterId) (f : Cluster → Cluster) : (mapCluster c f s).outbox = s.outbox := rfl
@[simp] theorem mapCluster_script (s : State) (c : ClusterId) (f : Cluster → Cluster) : (mapCluster c f s).script = s.script := rfl
@[simp] theorem mapCluster_cur (s : State) (c : ClusterId) (f : Cluster → Cluster) : (mapCluster c f s).cur = s.cur := rfl
@[simp] theorem mapCluster_ticks (s : State) (c : ClusterId) (f : Cluster → Cluster) : (mapCluster c f s).ticks = s.ticks := rfl

@[simp] theorem mapPart_slots (s : State) (p : PartId) (f : Part → Part) : (mapPart p f s).slots = s.slots := rfl
@[simp] theorem mapPart_cores (s : State) (p : PartId) (f : Part → Part) : (mapPart p f s).cores = s.cores := rfl
@[simp] theorem mapPart_clusters (s : State) (p : PartId) (f : Part → Part) : (mapPart p f s).clusters = s.clusters := rfl
@[simp] theorem mapPart_mem (s : State) (p : PartId) (f : Part → Part) : (mapPart p f s).mem = s.mem := rfl
@[simp] theorem mapPart_marks (s : State) (p : PartId) (f : Part → Part) : (mapPart p f s).marks = s.marks := rfl
@[simp] theorem mapPart_transit (s : State) (p : PartId) (f : Part → Part) : (mapPart p f s).transit = s.transit := rfl
@[simp] theorem mapPart_bad (s : State) (p : PartId) (f : Part → Part) : (mapPart p f s).bad = s.bad := rfl
@[simp] theorem mapPart_cached (s : State) (p : PartId) (f : Part → Part) : (mapPart p f s).cached = s.cached := rfl
@[simp] theorem mapPart_atc (s : State) (p : PartId) (f : Part → Part) : (mapPart p f s).atc = s.atc := rfl
@[simp] theorem mapPart_pri (s : State) (p : PartId) (f : Part → Part) : (mapPart p f s).pri = s.pri := rfl
@[simp] theorem mapPart_launches (s : State) (p : PartId) (f : Part → Part) : (mapPart p f s).launches = s.launches := rfl
@[simp] theorem mapPart_darnServed (s : State) (p : PartId) (f : Part → Part) : (mapPart p f s).darnServed = s.darnServed := rfl
@[simp] theorem mapPart_mangleServed (s : State) (p : PartId) (f : Part → Part) : (mapPart p f s).mangleServed = s.mangleServed := rfl
@[simp] theorem mapPart_cycle (s : State) (p : PartId) (f : Part → Part) : (mapPart p f s).cycle = s.cycle := rfl
@[simp] theorem mapPart_peertab (s : State) (p : PartId) (f : Part → Part) : (mapPart p f s).peertab = s.peertab := rfl
@[simp] theorem mapPart_klPorts (s : State) (p : PartId) (f : Part → Part) : (mapPart p f s).klPorts = s.klPorts := rfl
@[simp] theorem mapPart_bstat (s : State) (p : PartId) (f : Part → Part) : (mapPart p f s).bstat = s.bstat := rfl
@[simp] theorem mapPart_pwrlim (s : State) (p : PartId) (f : Part → Part) : (mapPart p f s).pwrlim = s.pwrlim := rfl
@[simp] theorem mapPart_pwrstat (s : State) (p : PartId) (f : Part → Part) : (mapPart p f s).pwrstat = s.pwrstat := rfl
@[simp] theorem mapPart_throttle (s : State) (p : PartId) (f : Part → Part) : (mapPart p f s).throttle = s.throttle := rfl
@[simp] theorem mapPart_extasgn (s : State) (p : PartId) (f : Part → Part) : (mapPart p f s).extasgn = s.extasgn := rfl
@[simp] theorem mapPart_extents (s : State) (p : PartId) (f : Part → Part) : (mapPart p f s).extents = s.extents := rfl
@[simp] theorem mapPart_dbgsess (s : State) (p : PartId) (f : Part → Part) : (mapPart p f s).dbgsess = s.dbgsess := rfl
@[simp] theorem mapPart_fwStaged (s : State) (p : PartId) (f : Part → Part) : (mapPart p f s).fwStaged = s.fwStaged := rfl
@[simp] theorem mapPart_fuseVersion (s : State) (p : PartId) (f : Part → Part) : (mapPart p f s).fuseVersion = s.fuseVersion := rfl
@[simp] theorem mapPart_fwVersion (s : State) (p : PartId) (f : Part → Part) : (mapPart p f s).fwVersion = s.fwVersion := rfl
@[simp] theorem mapPart_identity (s : State) (p : PartId) (f : Part → Part) : (mapPart p f s).identity = s.identity := rfl
@[simp] theorem mapPart_tripped (s : State) (p : PartId) (f : Part → Part) : (mapPart p f s).tripped = s.tripped := rfl
@[simp] theorem mapPart_outbox (s : State) (p : PartId) (f : Part → Part) : (mapPart p f s).outbox = s.outbox := rfl
@[simp] theorem mapPart_script (s : State) (p : PartId) (f : Part → Part) : (mapPart p f s).script = s.script := rfl
@[simp] theorem mapPart_cur (s : State) (p : PartId) (f : Part → Part) : (mapPart p f s).cur = s.cur := rfl
@[simp] theorem mapPart_ticks (s : State) (p : PartId) (f : Part → Part) : (mapPart p f s).ticks = s.ticks := rfl

/-! ## Reading back what was replaced -/

@[simp] theorem slot_setSlot_self (s : State) (q : SeqId) (v : Slot) : (s.setSlot q v).slot q = v := by
  simp [State.slot, State.setSlot]
@[simp] theorem slot_setSlot_ne (s : State) (q r : SeqId) (v : Slot) (h : r ≠ q) : (s.setSlot q v).slot r = s.slot r := by
  have h' : q.val ≠ r.val := fun e => h (Fin.ext e.symm)
  simp [State.slot, State.setSlot, h']
@[simp] theorem core_setCore_self (s : State) (c : CoreId) (v : Core) : (s.setCore c v).core c = v := by
  simp [State.core, State.setCore]
@[simp] theorem core_setCore_ne (s : State) (c d : CoreId) (v : Core) (h : d ≠ c) : (s.setCore c v).core d = s.core d := by
  have h' : c.val ≠ d.val := fun e => h (Fin.ext e.symm)
  simp [State.core, State.setCore, h']
@[simp] theorem cluster_setCluster_self (s : State) (c : ClusterId) (v : Cluster) : (s.setCluster c v).cluster c = v := by
  simp [State.cluster, State.setCluster]
@[simp] theorem cluster_setCluster_ne (s : State) (c d : ClusterId) (v : Cluster) (h : d ≠ c) :
    (s.setCluster c v).cluster d = s.cluster d := by
  have h' : c.val ≠ d.val := fun e => h (Fin.ext e.symm)
  simp [State.cluster, State.setCluster, h']
@[simp] theorem part_setPart_self (s : State) (p : PartId) (v : Part) : (s.setPart p v).part p = v := by
  simp [State.part, State.setPart]
@[simp] theorem part_setPart_ne (s : State) (p r : PartId) (v : Part) (h : r ≠ p) : (s.setPart p v).part r = s.part r := by
  have h' : p.val ≠ r.val := fun e => h (Fin.ext e.symm)
  simp [State.part, State.setPart, h']

@[simp] theorem core_setSlot (s : State) (q : SeqId) (v : Slot) (d : CoreId) : (s.setSlot q v).core d = s.core d := rfl
@[simp] theorem cluster_setSlot (s : State) (q : SeqId) (v : Slot) (d : ClusterId) : (s.setSlot q v).cluster d = s.cluster d := rfl
@[simp] theorem part_setSlot (s : State) (q : SeqId) (v : Slot) (r : PartId) : (s.setSlot q v).part r = s.part r := rfl
@[simp] theorem slot_setCore (s : State) (c : CoreId) (v : Core) (r : SeqId) : (s.setCore c v).slot r = s.slot r := rfl
@[simp] theorem cluster_setCore (s : State) (c : CoreId) (v : Core) (d : ClusterId) : (s.setCore c v).cluster d = s.cluster d := rfl
@[simp] theorem part_setCore (s : State) (c : CoreId) (v : Core) (r : PartId) : (s.setCore c v).part r = s.part r := rfl
@[simp] theorem me_setCore (s : State) (c : CoreId) (v : Core) : (s.setCore c v).me = s.me := rfl
@[simp] theorem slot_setCluster (s : State) (c : ClusterId) (v : Cluster) (r : SeqId) : (s.setCluster c v).slot r = s.slot r := rfl
@[simp] theorem core_setCluster (s : State) (c : ClusterId) (v : Cluster) (d : CoreId) : (s.setCluster c v).core d = s.core d := rfl
@[simp] theorem part_setCluster (s : State) (c : ClusterId) (v : Cluster) (r : PartId) : (s.setCluster c v).part r = s.part r := rfl
@[simp] theorem me_setCluster (s : State) (c : ClusterId) (v : Cluster) : (s.setCluster c v).me = s.me := rfl
@[simp] theorem slot_setPart (s : State) (p : PartId) (v : Part) (r : SeqId) : (s.setPart p v).slot r = s.slot r := rfl
@[simp] theorem core_setPart (s : State) (p : PartId) (v : Part) (d : CoreId) : (s.setPart p v).core d = s.core d := rfl
@[simp] theorem cluster_setPart (s : State) (p : PartId) (v : Part) (d : ClusterId) : (s.setPart p v).cluster d = s.cluster d := rfl
@[simp] theorem me_setPart (s : State) (p : PartId) (v : Part) : (s.setPart p v).me = s.me := rfl
@[simp] theorem core_mapSlot (s : State) (q : SeqId) (f : Slot → Slot) (d : CoreId) : (mapSlot q f s).core d = s.core d := rfl
@[simp] theorem cluster_mapSlot (s : State) (q : SeqId) (f : Slot → Slot) (d : ClusterId) : (mapSlot q f s).cluster d = s.cluster d := rfl
@[simp] theorem part_mapSlot (s : State) (q : SeqId) (f : Slot → Slot) (r : PartId) : (mapSlot q f s).part r = s.part r := rfl
@[simp] theorem core_mapMe (s : State) (f : Slot → Slot) (d : CoreId) : (mapMe f s).core d = s.core d := rfl
@[simp] theorem cluster_mapMe (s : State) (f : Slot → Slot) (d : ClusterId) : (mapMe f s).cluster d = s.cluster d := rfl
@[simp] theorem part_mapMe (s : State) (f : Slot → Slot) (r : PartId) : (mapMe f s).part r = s.part r := rfl
@[simp] theorem slot_mapCore (s : State) (c : CoreId) (f : Core → Core) (r : SeqId) : (mapCore c f s).slot r = s.slot r := rfl
@[simp] theorem cluster_mapCore (s : State) (c : CoreId) (f : Core → Core) (d : ClusterId) : (mapCore c f s).cluster d = s.cluster d := rfl
@[simp] theorem part_mapCore (s : State) (c : CoreId) (f : Core → Core) (r : PartId) : (mapCore c f s).part r = s.part r := rfl
@[simp] theorem me_mapCore (s : State) (c : CoreId) (f : Core → Core) : (mapCore c f s).me = s.me := rfl
@[simp] theorem slot_mapCluster (s : State) (c : ClusterId) (f : Cluster → Cluster) (r : SeqId) : (mapCluster c f s).slot r = s.slot r := rfl
@[simp] theorem core_mapCluster (s : State) (c : ClusterId) (f : Cluster → Cluster) (d : CoreId) : (mapCluster c f s).core d = s.core d := rfl
@[simp] theorem part_mapCluster (s : State) (c : ClusterId) (f : Cluster → Cluster) (r : PartId) : (mapCluster c f s).part r = s.part r := rfl
@[simp] theorem me_mapCluster (s : State) (c : ClusterId) (f : Cluster → Cluster) : (mapCluster c f s).me = s.me := rfl
@[simp] theorem slot_mapPart (s : State) (p : PartId) (f : Part → Part) (r : SeqId) : (mapPart p f s).slot r = s.slot r := rfl
@[simp] theorem core_mapPart (s : State) (p : PartId) (f : Part → Part) (d : CoreId) : (mapPart p f s).core d = s.core d := rfl
@[simp] theorem cluster_mapPart (s : State) (p : PartId) (f : Part → Part) (d : ClusterId) : (mapPart p f s).cluster d = s.cluster d := rfl
@[simp] theorem me_mapPart (s : State) (p : PartId) (f : Part → Part) : (mapPart p f s).me = s.me := rfl

@[simp] theorem slot_mapSlot_self (s : State) (q : SeqId) (f : Slot → Slot) : (mapSlot q f s).slot q = f (s.slot q) := by simp [mapSlot]
@[simp] theorem slot_mapSlot_ne (s : State) (q r : SeqId) (f : Slot → Slot) (h : r ≠ q) : (mapSlot q f s).slot r = s.slot r := by
  simp [mapSlot, h]
@[simp] theorem me_mapMe (s : State) (f : Slot → Slot) : (mapMe f s).me = f s.me := by
  show (s.setSlot s.cur (f s.me)).slot s.cur = f s.me
  simp
@[simp] theorem slot_mapMe_cur (s : State) (f : Slot → Slot) : (mapMe f s).slot s.cur = f s.me := by simp [mapMe, State.setMe]
@[simp] theorem slot_mapMe_ne (s : State) (r : SeqId) (f : Slot → Slot) (h : r ≠ s.cur) : (mapMe f s).slot r = s.slot r := by
  simp [mapMe, State.setMe, h]
@[simp] theorem core_mapCore_self (s : State) (c : CoreId) (f : Core → Core) : (mapCore c f s).core c = f (s.core c) := by simp [mapCore]
@[simp] theorem core_mapCore_ne (s : State) (c d : CoreId) (f : Core → Core) (h : d ≠ c) : (mapCore c f s).core d = s.core d := by
  simp [mapCore, h]
@[simp] theorem cluster_mapCluster_self (s : State) (c : ClusterId) (f : Cluster → Cluster) :
    (mapCluster c f s).cluster c = f (s.cluster c) := by simp [mapCluster]
@[simp] theorem cluster_mapCluster_ne (s : State) (c d : ClusterId) (f : Cluster → Cluster) (h : d ≠ c) :
    (mapCluster c f s).cluster d = s.cluster d := by simp [mapCluster, h]
@[simp] theorem part_mapPart_self (s : State) (p : PartId) (f : Part → Part) : (mapPart p f s).part p = f (s.part p) := by simp [mapPart]
@[simp] theorem part_mapPart_ne (s : State) (p r : PartId) (f : Part → Part) (h : r ≠ p) : (mapPart p f s).part r = s.part r := by
  simp [mapPart, h]

/-- Two slots that agree everywhere: the array is the same. -/
theorem slots_ext (s t : State) (h : ∀ q, s.slot q = t.slot q) : s.slots = t.slots := by
  apply Vector.ext
  intro i hi
  exact h ⟨i, hi⟩

/-! ## Fields of a slot after its register and flag updates -/

@[simp] theorem writeX_busy (t : Slot) (r : Reg) (v : Word) : (t.writeX r v).busy = t.busy := by unfold Slot.writeX; split <;> rfl
@[simp] theorem writeX_part (t : Slot) (r : Reg) (v : Word) : (t.writeX r v).part = t.part := by unfold Slot.writeX; split <;> rfl
@[simp] theorem writeX_pc (t : Slot) (r : Reg) (v : Word) : (t.writeX r v).pc = t.pc := by unfold Slot.writeX; split <;> rfl
@[simp] theorem writeX_cond (t : Slot) (r : Reg) (v : Word) : (t.writeX r v).cond = t.cond := by unfold Slot.writeX; split <;> rfl
@[simp] theorem writeX_lpdepth (t : Slot) (r : Reg) (v : Word) : (t.writeX r v).lpdepth = t.lpdepth := by unfold Slot.writeX; split <;> rfl
@[simp] theorem writeX_loops (t : Slot) (r : Reg) (v : Word) : (t.writeX r v).loops = t.loops := by unfold Slot.writeX; split <;> rfl
@[simp] theorem writeX_vstate (t : Slot) (r : Reg) (v : Word) : (t.writeX r v).vstate = t.vstate := by unfold Slot.writeX; split <;> rfl
@[simp] theorem writeX_vtype (t : Slot) (r : Reg) (v : Word) : (t.writeX r v).vtype = t.vtype := by unfold Slot.writeX; split <;> rfl
@[simp] theorem writeX_vl (t : Slot) (r : Reg) (v : Word) : (t.writeX r v).vl = t.vl := by unfold Slot.writeX; split <;> rfl
@[simp] theorem writeX_vstart (t : Slot) (r : Reg) (v : Word) : (t.writeX r v).vstart = t.vstart := by unfold Slot.writeX; split <;> rfl
@[simp] theorem writeX_valloc (t : Slot) (r : Reg) (v : Word) : (t.writeX r v).valloc = t.valloc := by unfold Slot.writeX; split <;> rfl
@[simp] theorem writeX_vceil (t : Slot) (r : Reg) (v : Word) : (t.writeX r v).vceil = t.vceil := by unfold Slot.writeX; split <;> rfl
@[simp] theorem writeX_lanes (t : Slot) (r : Reg) (v : Word) : (t.writeX r v).lanes = t.lanes := by unfold Slot.writeX; split <;> rfl
@[simp] theorem writeX_masks (t : Slot) (r : Reg) (v : Word) : (t.writeX r v).masks = t.masks := by unfold Slot.writeX; split <;> rfl
@[simp] theorem writeX_streams (t : Slot) (r : Reg) (v : Word) : (t.writeX r v).streams = t.streams := by unfold Slot.writeX; split <;> rfl
@[simp] theorem writeX_skv (t : Slot) (r : Reg) (v : Word) : (t.writeX r v).skv = t.skv := by unfold Slot.writeX; split <;> rfl
@[simp] theorem writeX_kvRegs (t : Slot) (r : Reg) (v : Word) : (t.writeX r v).kvRegs = t.kvRegs := by unfold Slot.writeX; split <;> rfl
@[simp] theorem writeX_fflags (t : Slot) (r : Reg) (v : Word) : (t.writeX r v).fflags = t.fflags := by unfold Slot.writeX; split <;> rfl
@[simp] theorem writeX_frm (t : Slot) (r : Reg) (v : Word) : (t.writeX r v).frm = t.frm := by unfold Slot.writeX; split <;> rfl
@[simp] theorem writeX_srseed (t : Slot) (r : Reg) (v : Word) : (t.writeX r v).srseed = t.srseed := by unfold Slot.writeX; split <;> rfl
@[simp] theorem writeX_lpart (t : Slot) (r : Reg) (v : Word) : (t.writeX r v).lpart = t.lpart := by unfold Slot.writeX; split <;> rfl
@[simp] theorem writeX_pending (t : Slot) (r : Reg) (v : Word) : (t.writeX r v).pending = t.pending := by unfold Slot.writeX; split <;> rfl
@[simp] theorem writeX_shrunk (t : Slot) (r : Reg) (v : Word) : (t.writeX r v).shrunk = t.shrunk := by unfold Slot.writeX; split <;> rfl
@[simp] theorem writeX_request (t : Slot) (r : Reg) (v : Word) : (t.writeX r v).request = t.request := by unfold Slot.writeX; split <;> rfl
@[simp] theorem writeX_elastic (t : Slot) (r : Reg) (v : Word) : (t.writeX r v).elastic = t.elastic := by unfold Slot.writeX; split <;> rfl
@[simp] theorem writeX_prio (t : Slot) (r : Reg) (v : Word) : (t.writeX r v).prio = t.prio := by unfold Slot.writeX; split <;> rfl
@[simp] theorem writeX_started (t : Slot) (r : Reg) (v : Word) : (t.writeX r v).started = t.started := by unfold Slot.writeX; split <;> rfl
@[simp] theorem writeX_gslot (t : Slot) (r : Reg) (v : Word) : (t.writeX r v).gslot = t.gslot := by unfold Slot.writeX; split <;> rfl
@[simp] theorem writeX_gmember (t : Slot) (r : Reg) (v : Word) : (t.writeX r v).gmember = t.gmember := by unfold Slot.writeX; split <;> rfl
@[simp] theorem writeX_gpos (t : Slot) (r : Reg) (v : Word) : (t.writeX r v).gpos = t.gpos := by unfold Slot.writeX; split <;> rfl
@[simp] theorem writeX_gjtimeout (t : Slot) (r : Reg) (v : Word) : (t.writeX r v).gjtimeout = t.gjtimeout := by unfold Slot.writeX; split <;> rfl
@[simp] theorem writeX_tcfg (t : Slot) (r : Reg) (v : Word) : (t.writeX r v).tcfg = t.tcfg := by unfold Slot.writeX; split <;> rfl
@[simp] theorem writeX_tsr (t : Slot) (r : Reg) (v : Word) : (t.writeX r v).tsr = t.tsr := by unfold Slot.writeX; split <;> rfl
@[simp] theorem writeX_cpstat (t : Slot) (r : Reg) (v : Word) : (t.writeX r v).cpstat = t.cpstat := by unfold Slot.writeX; split <;> rfl
@[simp] theorem writeX_cpaddr (t : Slot) (r : Reg) (v : Word) : (t.writeX r v).cpaddr = t.cpaddr := by unfold Slot.writeX; split <;> rfl
@[simp] theorem writeX_ttstat (t : Slot) (r : Reg) (v : Word) : (t.writeX r v).ttstat = t.ttstat := by unfold Slot.writeX; split <;> rfl
@[simp] theorem writeX_ttaddr (t : Slot) (r : Reg) (v : Word) : (t.writeX r v).ttaddr = t.ttaddr := by unfold Slot.writeX; split <;> rfl
@[simp] theorem writeX_status (t : Slot) (r : Reg) (v : Word) : (t.writeX r v).status = t.status := by unfold Slot.writeX; split <;> rfl
@[simp] theorem writeX_epc (t : Slot) (r : Reg) (v : Word) : (t.writeX r v).epc = t.epc := by unfold Slot.writeX; split <;> rfl
@[simp] theorem writeX_ecause (t : Slot) (r : Reg) (v : Word) : (t.writeX r v).ecause = t.ecause := by unfold Slot.writeX; split <;> rfl
@[simp] theorem writeX_etval (t : Slot) (r : Reg) (v : Word) : (t.writeX r v).etval = t.etval := by unfold Slot.writeX; split <;> rfl
@[simp] theorem writeX_evec (t : Slot) (r : Reg) (v : Word) : (t.writeX r v).evec = t.evec := by unfold Slot.writeX; split <;> rfl
@[simp] theorem writeX_asid (t : Slot) (r : Reg) (v : Word) : (t.writeX r v).asid = t.asid := by unfold Slot.writeX; split <;> rfl
@[simp] theorem writeX_ptbase (t : Slot) (r : Reg) (v : Word) : (t.writeX r v).ptbase = t.ptbase := by unfold Slot.writeX; split <;> rfl
@[simp] theorem writeX_heatbase (t : Slot) (r : Reg) (v : Word) : (t.writeX r v).heatbase = t.heatbase := by unfold Slot.writeX; split <;> rfl
@[simp] theorem writeX_kvmbase (t : Slot) (r : Reg) (v : Word) : (t.writeX r v).kvmbase = t.kvmbase := by unfold Slot.writeX; split <;> rfl
@[simp] theorem writeX_hpasid (t : Slot) (r : Reg) (v : Word) : (t.writeX r v).hpasid = t.hpasid := by unfold Slot.writeX; split <;> rfl
@[simp] theorem writeX_chidx (t : Slot) (r : Reg) (v : Word) : (t.writeX r v).chidx = t.chidx := by unfold Slot.writeX; split <;> rfl
@[simp] theorem writeX_hidx (t : Slot) (r : Reg) (v : Word) : (t.writeX r v).hidx = t.hidx := by unfold Slot.writeX; split <;> rfl
@[simp] theorem writeX_xjoin (t : Slot) (r : Reg) (v : Word) : (t.writeX r v).xjoin = t.xjoin := by unfold Slot.writeX; split <;> rfl
@[simp] theorem writeX_xdone (t : Slot) (r : Reg) (v : Word) : (t.writeX r v).xdone = t.xdone := by unfold Slot.writeX; split <;> rfl
@[simp] theorem writeX_launch (t : Slot) (r : Reg) (v : Word) : (t.writeX r v).launch = t.launch := by unfold Slot.writeX; split <;> rfl
@[simp] theorem writeX_ttres (t : Slot) (r : Reg) (v : Word) : (t.writeX r v).ttres = t.ttres := by unfold Slot.writeX; split <;> rfl
@[simp] theorem writeX_pmstat (t : Slot) (r : Reg) (v : Word) : (t.writeX r v).pmstat = t.pmstat := by unfold Slot.writeX; split <;> rfl
@[simp] theorem writeX_pmTarget (t : Slot) (r : Reg) (v : Word) : (t.writeX r v).pmTarget = t.pmTarget := by unfold Slot.writeX; split <;> rfl
@[simp] theorem writeX_pmPending (t : Slot) (r : Reg) (v : Word) : (t.writeX r v).pmPending = t.pmPending := by unfold Slot.writeX; split <;> rfl
@[simp] theorem writeX_pmPoint (t : Slot) (r : Reg) (v : Word) : (t.writeX r v).pmPoint = t.pmPoint := by unfold Slot.writeX; split <;> rfl
@[simp] theorem writeX_strip (t : Slot) (r : Reg) (v : Word) : (t.writeX r v).strip = t.strip := by unfold Slot.writeX; split <;> rfl
@[simp] theorem writeX_bpctl (t : Slot) (r : Reg) (v : Word) : (t.writeX r v).bpctl = t.bpctl := by unfold Slot.writeX; split <;> rfl
@[simp] theorem writeX_bpaddr (t : Slot) (r : Reg) (v : Word) : (t.writeX r v).bpaddr = t.bpaddr := by unfold Slot.writeX; split <;> rfl
@[simp] theorem writeX_smpctl (t : Slot) (r : Reg) (v : Word) : (t.writeX r v).smpctl = t.smpctl := by unfold Slot.writeX; split <;> rfl
@[simp] theorem writeX_smpcnt (t : Slot) (r : Reg) (v : Word) : (t.writeX r v).smpcnt = t.smpcnt := by unfold Slot.writeX; split <;> rfl
@[simp] theorem writeX_spt (t : Slot) (r : Reg) (v : Word) : (t.writeX r v).spt = t.spt := by unfold Slot.writeX; split <;> rfl
@[simp] theorem writeX_setvlAddr (t : Slot) (r : Reg) (v : Word) : (t.writeX r v).setvlAddr = t.setvlAddr := by unfold Slot.writeX; split <;> rfl
@[simp] theorem writeX_captured (t : Slot) (r : Reg) (v : Word) : (t.writeX r v).captured = t.captured := by unfold Slot.writeX; split <;> rfl
@[simp] theorem writeX_bad (t : Slot) (r : Reg) (v : Word) : (t.writeX r v).bad = t.bad := by unfold Slot.writeX; split <;> rfl
@[simp] theorem writeX_overwrites (t : Slot) (r : Reg) (v : Word) : (t.writeX r v).overwrites = t.overwrites := by unfold Slot.writeX; split <;> rfl
@[simp] theorem writeX_vbegun (t : Slot) (r : Reg) (v : Word) : (t.writeX r v).vbegun = t.vbegun := by unfold Slot.writeX; split <;> rfl
@[simp] theorem writeX_vstop (t : Slot) (r : Reg) (v : Word) : (t.writeX r v).vstop = t.vstop := by unfold Slot.writeX; split <;> rfl
@[simp] theorem writeX_waiting (t : Slot) (r : Reg) (v : Word) : (t.writeX r v).waiting = t.waiting := by unfold Slot.writeX; split <;> rfl
@[simp] theorem writeX_opNext (t : Slot) (r : Reg) (v : Word) : (t.writeX r v).opNext = t.opNext := by unfold Slot.writeX; split <;> rfl
@[simp] theorem writeX_doneCp (t : Slot) (r : Reg) (v : Word) : (t.writeX r v).doneCp = t.doneCp := by unfold Slot.writeX; split <;> rfl
@[simp] theorem writeX_doneTt (t : Slot) (r : Reg) (v : Word) : (t.writeX r v).doneTt = t.doneTt := by unfold Slot.writeX; split <;> rfl
@[simp] theorem writeX_fences (t : Slot) (r : Reg) (v : Word) : (t.writeX r v).fences = t.fences := by unfold Slot.writeX; split <;> rfl

@[simp] theorem writeC_busy (t : Slot) (n : CBit) (b : Bool) : (t.writeC n b).busy = t.busy := by unfold Slot.writeC; split <;> rfl
@[simp] theorem writeC_part (t : Slot) (n : CBit) (b : Bool) : (t.writeC n b).part = t.part := by unfold Slot.writeC; split <;> rfl
@[simp] theorem writeC_pc (t : Slot) (n : CBit) (b : Bool) : (t.writeC n b).pc = t.pc := by unfold Slot.writeC; split <;> rfl
@[simp] theorem writeC_x (t : Slot) (n : CBit) (b : Bool) : (t.writeC n b).x = t.x := by unfold Slot.writeC; split <;> rfl
@[simp] theorem writeC_lpdepth (t : Slot) (n : CBit) (b : Bool) : (t.writeC n b).lpdepth = t.lpdepth := by unfold Slot.writeC; split <;> rfl
@[simp] theorem writeC_loops (t : Slot) (n : CBit) (b : Bool) : (t.writeC n b).loops = t.loops := by unfold Slot.writeC; split <;> rfl
@[simp] theorem writeC_vstate (t : Slot) (n : CBit) (b : Bool) : (t.writeC n b).vstate = t.vstate := by unfold Slot.writeC; split <;> rfl
@[simp] theorem writeC_vtype (t : Slot) (n : CBit) (b : Bool) : (t.writeC n b).vtype = t.vtype := by unfold Slot.writeC; split <;> rfl
@[simp] theorem writeC_vl (t : Slot) (n : CBit) (b : Bool) : (t.writeC n b).vl = t.vl := by unfold Slot.writeC; split <;> rfl
@[simp] theorem writeC_vstart (t : Slot) (n : CBit) (b : Bool) : (t.writeC n b).vstart = t.vstart := by unfold Slot.writeC; split <;> rfl
@[simp] theorem writeC_valloc (t : Slot) (n : CBit) (b : Bool) : (t.writeC n b).valloc = t.valloc := by unfold Slot.writeC; split <;> rfl
@[simp] theorem writeC_vceil (t : Slot) (n : CBit) (b : Bool) : (t.writeC n b).vceil = t.vceil := by unfold Slot.writeC; split <;> rfl
@[simp] theorem writeC_lanes (t : Slot) (n : CBit) (b : Bool) : (t.writeC n b).lanes = t.lanes := by unfold Slot.writeC; split <;> rfl
@[simp] theorem writeC_masks (t : Slot) (n : CBit) (b : Bool) : (t.writeC n b).masks = t.masks := by unfold Slot.writeC; split <;> rfl
@[simp] theorem writeC_streams (t : Slot) (n : CBit) (b : Bool) : (t.writeC n b).streams = t.streams := by unfold Slot.writeC; split <;> rfl
@[simp] theorem writeC_skv (t : Slot) (n : CBit) (b : Bool) : (t.writeC n b).skv = t.skv := by unfold Slot.writeC; split <;> rfl
@[simp] theorem writeC_kvRegs (t : Slot) (n : CBit) (b : Bool) : (t.writeC n b).kvRegs = t.kvRegs := by unfold Slot.writeC; split <;> rfl
@[simp] theorem writeC_fflags (t : Slot) (n : CBit) (b : Bool) : (t.writeC n b).fflags = t.fflags := by unfold Slot.writeC; split <;> rfl
@[simp] theorem writeC_frm (t : Slot) (n : CBit) (b : Bool) : (t.writeC n b).frm = t.frm := by unfold Slot.writeC; split <;> rfl
@[simp] theorem writeC_srseed (t : Slot) (n : CBit) (b : Bool) : (t.writeC n b).srseed = t.srseed := by unfold Slot.writeC; split <;> rfl
@[simp] theorem writeC_lpart (t : Slot) (n : CBit) (b : Bool) : (t.writeC n b).lpart = t.lpart := by unfold Slot.writeC; split <;> rfl
@[simp] theorem writeC_pending (t : Slot) (n : CBit) (b : Bool) : (t.writeC n b).pending = t.pending := by unfold Slot.writeC; split <;> rfl
@[simp] theorem writeC_shrunk (t : Slot) (n : CBit) (b : Bool) : (t.writeC n b).shrunk = t.shrunk := by unfold Slot.writeC; split <;> rfl
@[simp] theorem writeC_request (t : Slot) (n : CBit) (b : Bool) : (t.writeC n b).request = t.request := by unfold Slot.writeC; split <;> rfl
@[simp] theorem writeC_elastic (t : Slot) (n : CBit) (b : Bool) : (t.writeC n b).elastic = t.elastic := by unfold Slot.writeC; split <;> rfl
@[simp] theorem writeC_prio (t : Slot) (n : CBit) (b : Bool) : (t.writeC n b).prio = t.prio := by unfold Slot.writeC; split <;> rfl
@[simp] theorem writeC_started (t : Slot) (n : CBit) (b : Bool) : (t.writeC n b).started = t.started := by unfold Slot.writeC; split <;> rfl
@[simp] theorem writeC_gslot (t : Slot) (n : CBit) (b : Bool) : (t.writeC n b).gslot = t.gslot := by unfold Slot.writeC; split <;> rfl
@[simp] theorem writeC_gmember (t : Slot) (n : CBit) (b : Bool) : (t.writeC n b).gmember = t.gmember := by unfold Slot.writeC; split <;> rfl
@[simp] theorem writeC_gpos (t : Slot) (n : CBit) (b : Bool) : (t.writeC n b).gpos = t.gpos := by unfold Slot.writeC; split <;> rfl
@[simp] theorem writeC_gjtimeout (t : Slot) (n : CBit) (b : Bool) : (t.writeC n b).gjtimeout = t.gjtimeout := by unfold Slot.writeC; split <;> rfl
@[simp] theorem writeC_tcfg (t : Slot) (n : CBit) (b : Bool) : (t.writeC n b).tcfg = t.tcfg := by unfold Slot.writeC; split <;> rfl
@[simp] theorem writeC_tsr (t : Slot) (n : CBit) (b : Bool) : (t.writeC n b).tsr = t.tsr := by unfold Slot.writeC; split <;> rfl
@[simp] theorem writeC_cpstat (t : Slot) (n : CBit) (b : Bool) : (t.writeC n b).cpstat = t.cpstat := by unfold Slot.writeC; split <;> rfl
@[simp] theorem writeC_cpaddr (t : Slot) (n : CBit) (b : Bool) : (t.writeC n b).cpaddr = t.cpaddr := by unfold Slot.writeC; split <;> rfl
@[simp] theorem writeC_ttstat (t : Slot) (n : CBit) (b : Bool) : (t.writeC n b).ttstat = t.ttstat := by unfold Slot.writeC; split <;> rfl
@[simp] theorem writeC_ttaddr (t : Slot) (n : CBit) (b : Bool) : (t.writeC n b).ttaddr = t.ttaddr := by unfold Slot.writeC; split <;> rfl
@[simp] theorem writeC_status (t : Slot) (n : CBit) (b : Bool) : (t.writeC n b).status = t.status := by unfold Slot.writeC; split <;> rfl
@[simp] theorem writeC_epc (t : Slot) (n : CBit) (b : Bool) : (t.writeC n b).epc = t.epc := by unfold Slot.writeC; split <;> rfl
@[simp] theorem writeC_ecause (t : Slot) (n : CBit) (b : Bool) : (t.writeC n b).ecause = t.ecause := by unfold Slot.writeC; split <;> rfl
@[simp] theorem writeC_etval (t : Slot) (n : CBit) (b : Bool) : (t.writeC n b).etval = t.etval := by unfold Slot.writeC; split <;> rfl
@[simp] theorem writeC_evec (t : Slot) (n : CBit) (b : Bool) : (t.writeC n b).evec = t.evec := by unfold Slot.writeC; split <;> rfl
@[simp] theorem writeC_asid (t : Slot) (n : CBit) (b : Bool) : (t.writeC n b).asid = t.asid := by unfold Slot.writeC; split <;> rfl
@[simp] theorem writeC_ptbase (t : Slot) (n : CBit) (b : Bool) : (t.writeC n b).ptbase = t.ptbase := by unfold Slot.writeC; split <;> rfl
@[simp] theorem writeC_heatbase (t : Slot) (n : CBit) (b : Bool) : (t.writeC n b).heatbase = t.heatbase := by unfold Slot.writeC; split <;> rfl
@[simp] theorem writeC_kvmbase (t : Slot) (n : CBit) (b : Bool) : (t.writeC n b).kvmbase = t.kvmbase := by unfold Slot.writeC; split <;> rfl
@[simp] theorem writeC_hpasid (t : Slot) (n : CBit) (b : Bool) : (t.writeC n b).hpasid = t.hpasid := by unfold Slot.writeC; split <;> rfl
@[simp] theorem writeC_chidx (t : Slot) (n : CBit) (b : Bool) : (t.writeC n b).chidx = t.chidx := by unfold Slot.writeC; split <;> rfl
@[simp] theorem writeC_hidx (t : Slot) (n : CBit) (b : Bool) : (t.writeC n b).hidx = t.hidx := by unfold Slot.writeC; split <;> rfl
@[simp] theorem writeC_xjoin (t : Slot) (n : CBit) (b : Bool) : (t.writeC n b).xjoin = t.xjoin := by unfold Slot.writeC; split <;> rfl
@[simp] theorem writeC_xdone (t : Slot) (n : CBit) (b : Bool) : (t.writeC n b).xdone = t.xdone := by unfold Slot.writeC; split <;> rfl
@[simp] theorem writeC_launch (t : Slot) (n : CBit) (b : Bool) : (t.writeC n b).launch = t.launch := by unfold Slot.writeC; split <;> rfl
@[simp] theorem writeC_ttres (t : Slot) (n : CBit) (b : Bool) : (t.writeC n b).ttres = t.ttres := by unfold Slot.writeC; split <;> rfl
@[simp] theorem writeC_pmstat (t : Slot) (n : CBit) (b : Bool) : (t.writeC n b).pmstat = t.pmstat := by unfold Slot.writeC; split <;> rfl
@[simp] theorem writeC_pmTarget (t : Slot) (n : CBit) (b : Bool) : (t.writeC n b).pmTarget = t.pmTarget := by unfold Slot.writeC; split <;> rfl
@[simp] theorem writeC_pmPending (t : Slot) (n : CBit) (b : Bool) : (t.writeC n b).pmPending = t.pmPending := by unfold Slot.writeC; split <;> rfl
@[simp] theorem writeC_pmPoint (t : Slot) (n : CBit) (b : Bool) : (t.writeC n b).pmPoint = t.pmPoint := by unfold Slot.writeC; split <;> rfl
@[simp] theorem writeC_strip (t : Slot) (n : CBit) (b : Bool) : (t.writeC n b).strip = t.strip := by unfold Slot.writeC; split <;> rfl
@[simp] theorem writeC_bpctl (t : Slot) (n : CBit) (b : Bool) : (t.writeC n b).bpctl = t.bpctl := by unfold Slot.writeC; split <;> rfl
@[simp] theorem writeC_bpaddr (t : Slot) (n : CBit) (b : Bool) : (t.writeC n b).bpaddr = t.bpaddr := by unfold Slot.writeC; split <;> rfl
@[simp] theorem writeC_smpctl (t : Slot) (n : CBit) (b : Bool) : (t.writeC n b).smpctl = t.smpctl := by unfold Slot.writeC; split <;> rfl
@[simp] theorem writeC_smpcnt (t : Slot) (n : CBit) (b : Bool) : (t.writeC n b).smpcnt = t.smpcnt := by unfold Slot.writeC; split <;> rfl
@[simp] theorem writeC_spt (t : Slot) (n : CBit) (b : Bool) : (t.writeC n b).spt = t.spt := by unfold Slot.writeC; split <;> rfl
@[simp] theorem writeC_setvlAddr (t : Slot) (n : CBit) (b : Bool) : (t.writeC n b).setvlAddr = t.setvlAddr := by unfold Slot.writeC; split <;> rfl
@[simp] theorem writeC_captured (t : Slot) (n : CBit) (b : Bool) : (t.writeC n b).captured = t.captured := by unfold Slot.writeC; split <;> rfl
@[simp] theorem writeC_bad (t : Slot) (n : CBit) (b : Bool) : (t.writeC n b).bad = t.bad := by unfold Slot.writeC; split <;> rfl
@[simp] theorem writeC_overwrites (t : Slot) (n : CBit) (b : Bool) : (t.writeC n b).overwrites = t.overwrites := by unfold Slot.writeC; split <;> rfl
@[simp] theorem writeC_vbegun (t : Slot) (n : CBit) (b : Bool) : (t.writeC n b).vbegun = t.vbegun := by unfold Slot.writeC; split <;> rfl
@[simp] theorem writeC_vstop (t : Slot) (n : CBit) (b : Bool) : (t.writeC n b).vstop = t.vstop := by unfold Slot.writeC; split <;> rfl
@[simp] theorem writeC_waiting (t : Slot) (n : CBit) (b : Bool) : (t.writeC n b).waiting = t.waiting := by unfold Slot.writeC; split <;> rfl
@[simp] theorem writeC_opNext (t : Slot) (n : CBit) (b : Bool) : (t.writeC n b).opNext = t.opNext := by unfold Slot.writeC; split <;> rfl
@[simp] theorem writeC_doneCp (t : Slot) (n : CBit) (b : Bool) : (t.writeC n b).doneCp = t.doneCp := by unfold Slot.writeC; split <;> rfl
@[simp] theorem writeC_doneTt (t : Slot) (n : CBit) (b : Bool) : (t.writeC n b).doneTt = t.doneTt := by unfold Slot.writeC; split <;> rfl
@[simp] theorem writeC_fences (t : Slot) (n : CBit) (b : Bool) : (t.writeC n b).fences = t.fences := by unfold Slot.writeC; split <;> rfl

@[simp] theorem raise_busy (t : Slot) (f : FFlags) : (t.raise f).busy = t.busy := rfl
@[simp] theorem raise_part (t : Slot) (f : FFlags) : (t.raise f).part = t.part := rfl
@[simp] theorem raise_pc (t : Slot) (f : FFlags) : (t.raise f).pc = t.pc := rfl
@[simp] theorem raise_x (t : Slot) (f : FFlags) : (t.raise f).x = t.x := rfl
@[simp] theorem raise_cond (t : Slot) (f : FFlags) : (t.raise f).cond = t.cond := rfl
@[simp] theorem raise_lpdepth (t : Slot) (f : FFlags) : (t.raise f).lpdepth = t.lpdepth := rfl
@[simp] theorem raise_loops (t : Slot) (f : FFlags) : (t.raise f).loops = t.loops := rfl
@[simp] theorem raise_vstate (t : Slot) (f : FFlags) : (t.raise f).vstate = t.vstate := rfl
@[simp] theorem raise_vtype (t : Slot) (f : FFlags) : (t.raise f).vtype = t.vtype := rfl
@[simp] theorem raise_vl (t : Slot) (f : FFlags) : (t.raise f).vl = t.vl := rfl
@[simp] theorem raise_vstart (t : Slot) (f : FFlags) : (t.raise f).vstart = t.vstart := rfl
@[simp] theorem raise_valloc (t : Slot) (f : FFlags) : (t.raise f).valloc = t.valloc := rfl
@[simp] theorem raise_vceil (t : Slot) (f : FFlags) : (t.raise f).vceil = t.vceil := rfl
@[simp] theorem raise_lanes (t : Slot) (f : FFlags) : (t.raise f).lanes = t.lanes := rfl
@[simp] theorem raise_masks (t : Slot) (f : FFlags) : (t.raise f).masks = t.masks := rfl
@[simp] theorem raise_streams (t : Slot) (f : FFlags) : (t.raise f).streams = t.streams := rfl
@[simp] theorem raise_skv (t : Slot) (f : FFlags) : (t.raise f).skv = t.skv := rfl
@[simp] theorem raise_kvRegs (t : Slot) (f : FFlags) : (t.raise f).kvRegs = t.kvRegs := rfl
@[simp] theorem raise_frm (t : Slot) (f : FFlags) : (t.raise f).frm = t.frm := rfl
@[simp] theorem raise_srseed (t : Slot) (f : FFlags) : (t.raise f).srseed = t.srseed := rfl
@[simp] theorem raise_lpart (t : Slot) (f : FFlags) : (t.raise f).lpart = t.lpart := rfl
@[simp] theorem raise_pending (t : Slot) (f : FFlags) : (t.raise f).pending = t.pending := rfl
@[simp] theorem raise_shrunk (t : Slot) (f : FFlags) : (t.raise f).shrunk = t.shrunk := rfl
@[simp] theorem raise_request (t : Slot) (f : FFlags) : (t.raise f).request = t.request := rfl
@[simp] theorem raise_elastic (t : Slot) (f : FFlags) : (t.raise f).elastic = t.elastic := rfl
@[simp] theorem raise_prio (t : Slot) (f : FFlags) : (t.raise f).prio = t.prio := rfl
@[simp] theorem raise_started (t : Slot) (f : FFlags) : (t.raise f).started = t.started := rfl
@[simp] theorem raise_gslot (t : Slot) (f : FFlags) : (t.raise f).gslot = t.gslot := rfl
@[simp] theorem raise_gmember (t : Slot) (f : FFlags) : (t.raise f).gmember = t.gmember := rfl
@[simp] theorem raise_gpos (t : Slot) (f : FFlags) : (t.raise f).gpos = t.gpos := rfl
@[simp] theorem raise_gjtimeout (t : Slot) (f : FFlags) : (t.raise f).gjtimeout = t.gjtimeout := rfl
@[simp] theorem raise_tcfg (t : Slot) (f : FFlags) : (t.raise f).tcfg = t.tcfg := rfl
@[simp] theorem raise_tsr (t : Slot) (f : FFlags) : (t.raise f).tsr = t.tsr := rfl
@[simp] theorem raise_cpstat (t : Slot) (f : FFlags) : (t.raise f).cpstat = t.cpstat := rfl
@[simp] theorem raise_cpaddr (t : Slot) (f : FFlags) : (t.raise f).cpaddr = t.cpaddr := rfl
@[simp] theorem raise_ttstat (t : Slot) (f : FFlags) : (t.raise f).ttstat = t.ttstat := rfl
@[simp] theorem raise_ttaddr (t : Slot) (f : FFlags) : (t.raise f).ttaddr = t.ttaddr := rfl
@[simp] theorem raise_status (t : Slot) (f : FFlags) : (t.raise f).status = t.status := rfl
@[simp] theorem raise_epc (t : Slot) (f : FFlags) : (t.raise f).epc = t.epc := rfl
@[simp] theorem raise_ecause (t : Slot) (f : FFlags) : (t.raise f).ecause = t.ecause := rfl
@[simp] theorem raise_etval (t : Slot) (f : FFlags) : (t.raise f).etval = t.etval := rfl
@[simp] theorem raise_evec (t : Slot) (f : FFlags) : (t.raise f).evec = t.evec := rfl
@[simp] theorem raise_asid (t : Slot) (f : FFlags) : (t.raise f).asid = t.asid := rfl
@[simp] theorem raise_ptbase (t : Slot) (f : FFlags) : (t.raise f).ptbase = t.ptbase := rfl
@[simp] theorem raise_heatbase (t : Slot) (f : FFlags) : (t.raise f).heatbase = t.heatbase := rfl
@[simp] theorem raise_kvmbase (t : Slot) (f : FFlags) : (t.raise f).kvmbase = t.kvmbase := rfl
@[simp] theorem raise_hpasid (t : Slot) (f : FFlags) : (t.raise f).hpasid = t.hpasid := rfl
@[simp] theorem raise_chidx (t : Slot) (f : FFlags) : (t.raise f).chidx = t.chidx := rfl
@[simp] theorem raise_hidx (t : Slot) (f : FFlags) : (t.raise f).hidx = t.hidx := rfl
@[simp] theorem raise_xjoin (t : Slot) (f : FFlags) : (t.raise f).xjoin = t.xjoin := rfl
@[simp] theorem raise_xdone (t : Slot) (f : FFlags) : (t.raise f).xdone = t.xdone := rfl
@[simp] theorem raise_launch (t : Slot) (f : FFlags) : (t.raise f).launch = t.launch := rfl
@[simp] theorem raise_ttres (t : Slot) (f : FFlags) : (t.raise f).ttres = t.ttres := rfl
@[simp] theorem raise_pmstat (t : Slot) (f : FFlags) : (t.raise f).pmstat = t.pmstat := rfl
@[simp] theorem raise_pmTarget (t : Slot) (f : FFlags) : (t.raise f).pmTarget = t.pmTarget := rfl
@[simp] theorem raise_pmPending (t : Slot) (f : FFlags) : (t.raise f).pmPending = t.pmPending := rfl
@[simp] theorem raise_pmPoint (t : Slot) (f : FFlags) : (t.raise f).pmPoint = t.pmPoint := rfl
@[simp] theorem raise_strip (t : Slot) (f : FFlags) : (t.raise f).strip = t.strip := rfl
@[simp] theorem raise_bpctl (t : Slot) (f : FFlags) : (t.raise f).bpctl = t.bpctl := rfl
@[simp] theorem raise_bpaddr (t : Slot) (f : FFlags) : (t.raise f).bpaddr = t.bpaddr := rfl
@[simp] theorem raise_smpctl (t : Slot) (f : FFlags) : (t.raise f).smpctl = t.smpctl := rfl
@[simp] theorem raise_smpcnt (t : Slot) (f : FFlags) : (t.raise f).smpcnt = t.smpcnt := rfl
@[simp] theorem raise_spt (t : Slot) (f : FFlags) : (t.raise f).spt = t.spt := rfl
@[simp] theorem raise_setvlAddr (t : Slot) (f : FFlags) : (t.raise f).setvlAddr = t.setvlAddr := rfl
@[simp] theorem raise_captured (t : Slot) (f : FFlags) : (t.raise f).captured = t.captured := rfl
@[simp] theorem raise_bad (t : Slot) (f : FFlags) : (t.raise f).bad = t.bad := rfl
@[simp] theorem raise_overwrites (t : Slot) (f : FFlags) : (t.raise f).overwrites = t.overwrites := rfl
@[simp] theorem raise_vbegun (t : Slot) (f : FFlags) : (t.raise f).vbegun = t.vbegun := rfl
@[simp] theorem raise_vstop (t : Slot) (f : FFlags) : (t.raise f).vstop = t.vstop := rfl
@[simp] theorem raise_waiting (t : Slot) (f : FFlags) : (t.raise f).waiting = t.waiting := rfl
@[simp] theorem raise_opNext (t : Slot) (f : FFlags) : (t.raise f).opNext = t.opNext := rfl
@[simp] theorem raise_doneCp (t : Slot) (f : FFlags) : (t.raise f).doneCp = t.doneCp := rfl
@[simp] theorem raise_doneTt (t : Slot) (f : FFlags) : (t.raise f).doneTt = t.doneTt := rfl
@[simp] theorem raise_fences (t : Slot) (f : FFlags) : (t.raise f).fences = t.fences := rfl
@[simp] theorem raise_fflags (t : Slot) (f : FFlags) : (t.raise f).fflags = t.fflags ||| f := rfl

@[simp] theorem edge_busy (t : Slot) (e : Word) : (t.edge e).busy = t.busy := rfl
@[simp] theorem edge_part (t : Slot) (e : Word) : (t.edge e).part = t.part := rfl
@[simp] theorem edge_x (t : Slot) (e : Word) : (t.edge e).x = t.x := rfl
@[simp] theorem edge_cond (t : Slot) (e : Word) : (t.edge e).cond = t.cond := rfl
@[simp] theorem edge_vstate (t : Slot) (e : Word) : (t.edge e).vstate = t.vstate := rfl
@[simp] theorem edge_vtype (t : Slot) (e : Word) : (t.edge e).vtype = t.vtype := rfl
@[simp] theorem edge_vl (t : Slot) (e : Word) : (t.edge e).vl = t.vl := rfl
@[simp] theorem edge_vstart (t : Slot) (e : Word) : (t.edge e).vstart = t.vstart := rfl
@[simp] theorem edge_valloc (t : Slot) (e : Word) : (t.edge e).valloc = t.valloc := rfl
@[simp] theorem edge_vceil (t : Slot) (e : Word) : (t.edge e).vceil = t.vceil := rfl
@[simp] theorem edge_lanes (t : Slot) (e : Word) : (t.edge e).lanes = t.lanes := rfl
@[simp] theorem edge_masks (t : Slot) (e : Word) : (t.edge e).masks = t.masks := rfl
@[simp] theorem edge_streams (t : Slot) (e : Word) : (t.edge e).streams = t.streams := rfl
@[simp] theorem edge_skv (t : Slot) (e : Word) : (t.edge e).skv = t.skv := rfl
@[simp] theorem edge_kvRegs (t : Slot) (e : Word) : (t.edge e).kvRegs = t.kvRegs := rfl
@[simp] theorem edge_fflags (t : Slot) (e : Word) : (t.edge e).fflags = t.fflags := rfl
@[simp] theorem edge_frm (t : Slot) (e : Word) : (t.edge e).frm = t.frm := rfl
@[simp] theorem edge_srseed (t : Slot) (e : Word) : (t.edge e).srseed = t.srseed := rfl
@[simp] theorem edge_lpart (t : Slot) (e : Word) : (t.edge e).lpart = t.lpart := rfl
@[simp] theorem edge_pending (t : Slot) (e : Word) : (t.edge e).pending = t.pending := rfl
@[simp] theorem edge_shrunk (t : Slot) (e : Word) : (t.edge e).shrunk = t.shrunk := rfl
@[simp] theorem edge_request (t : Slot) (e : Word) : (t.edge e).request = t.request := rfl
@[simp] theorem edge_elastic (t : Slot) (e : Word) : (t.edge e).elastic = t.elastic := rfl
@[simp] theorem edge_prio (t : Slot) (e : Word) : (t.edge e).prio = t.prio := rfl
@[simp] theorem edge_started (t : Slot) (e : Word) : (t.edge e).started = t.started := rfl
@[simp] theorem edge_gslot (t : Slot) (e : Word) : (t.edge e).gslot = t.gslot := rfl
@[simp] theorem edge_gmember (t : Slot) (e : Word) : (t.edge e).gmember = t.gmember := rfl
@[simp] theorem edge_gpos (t : Slot) (e : Word) : (t.edge e).gpos = t.gpos := rfl
@[simp] theorem edge_gjtimeout (t : Slot) (e : Word) : (t.edge e).gjtimeout = t.gjtimeout := rfl
@[simp] theorem edge_tcfg (t : Slot) (e : Word) : (t.edge e).tcfg = t.tcfg := rfl
@[simp] theorem edge_tsr (t : Slot) (e : Word) : (t.edge e).tsr = t.tsr := rfl
@[simp] theorem edge_cpstat (t : Slot) (e : Word) : (t.edge e).cpstat = t.cpstat := rfl
@[simp] theorem edge_cpaddr (t : Slot) (e : Word) : (t.edge e).cpaddr = t.cpaddr := rfl
@[simp] theorem edge_ttstat (t : Slot) (e : Word) : (t.edge e).ttstat = t.ttstat := rfl
@[simp] theorem edge_ttaddr (t : Slot) (e : Word) : (t.edge e).ttaddr = t.ttaddr := rfl
@[simp] theorem edge_status (t : Slot) (e : Word) : (t.edge e).status = t.status := rfl
@[simp] theorem edge_epc (t : Slot) (e : Word) : (t.edge e).epc = t.epc := rfl
@[simp] theorem edge_ecause (t : Slot) (e : Word) : (t.edge e).ecause = t.ecause := rfl
@[simp] theorem edge_etval (t : Slot) (e : Word) : (t.edge e).etval = t.etval := rfl
@[simp] theorem edge_evec (t : Slot) (e : Word) : (t.edge e).evec = t.evec := rfl
@[simp] theorem edge_asid (t : Slot) (e : Word) : (t.edge e).asid = t.asid := rfl
@[simp] theorem edge_ptbase (t : Slot) (e : Word) : (t.edge e).ptbase = t.ptbase := rfl
@[simp] theorem edge_heatbase (t : Slot) (e : Word) : (t.edge e).heatbase = t.heatbase := rfl
@[simp] theorem edge_kvmbase (t : Slot) (e : Word) : (t.edge e).kvmbase = t.kvmbase := rfl
@[simp] theorem edge_hpasid (t : Slot) (e : Word) : (t.edge e).hpasid = t.hpasid := rfl
@[simp] theorem edge_chidx (t : Slot) (e : Word) : (t.edge e).chidx = t.chidx := rfl
@[simp] theorem edge_hidx (t : Slot) (e : Word) : (t.edge e).hidx = t.hidx := rfl
@[simp] theorem edge_xjoin (t : Slot) (e : Word) : (t.edge e).xjoin = t.xjoin := rfl
@[simp] theorem edge_xdone (t : Slot) (e : Word) : (t.edge e).xdone = t.xdone := rfl
@[simp] theorem edge_launch (t : Slot) (e : Word) : (t.edge e).launch = t.launch := rfl
@[simp] theorem edge_ttres (t : Slot) (e : Word) : (t.edge e).ttres = t.ttres := rfl
@[simp] theorem edge_pmstat (t : Slot) (e : Word) : (t.edge e).pmstat = t.pmstat := rfl
@[simp] theorem edge_pmTarget (t : Slot) (e : Word) : (t.edge e).pmTarget = t.pmTarget := rfl
@[simp] theorem edge_pmPending (t : Slot) (e : Word) : (t.edge e).pmPending = t.pmPending := rfl
@[simp] theorem edge_strip (t : Slot) (e : Word) : (t.edge e).strip = t.strip := rfl
@[simp] theorem edge_bpctl (t : Slot) (e : Word) : (t.edge e).bpctl = t.bpctl := rfl
@[simp] theorem edge_bpaddr (t : Slot) (e : Word) : (t.edge e).bpaddr = t.bpaddr := rfl
@[simp] theorem edge_smpctl (t : Slot) (e : Word) : (t.edge e).smpctl = t.smpctl := rfl
@[simp] theorem edge_smpcnt (t : Slot) (e : Word) : (t.edge e).smpcnt = t.smpcnt := rfl
@[simp] theorem edge_spt (t : Slot) (e : Word) : (t.edge e).spt = t.spt := rfl
@[simp] theorem edge_setvlAddr (t : Slot) (e : Word) : (t.edge e).setvlAddr = t.setvlAddr := rfl
@[simp] theorem edge_captured (t : Slot) (e : Word) : (t.edge e).captured = t.captured := rfl
@[simp] theorem edge_bad (t : Slot) (e : Word) : (t.edge e).bad = t.bad := rfl
@[simp] theorem edge_overwrites (t : Slot) (e : Word) : (t.edge e).overwrites = t.overwrites := rfl
@[simp] theorem edge_vbegun (t : Slot) (e : Word) : (t.edge e).vbegun = t.vbegun := rfl
@[simp] theorem edge_vstop (t : Slot) (e : Word) : (t.edge e).vstop = t.vstop := rfl
@[simp] theorem edge_waiting (t : Slot) (e : Word) : (t.edge e).waiting = t.waiting := rfl
@[simp] theorem edge_opNext (t : Slot) (e : Word) : (t.edge e).opNext = t.opNext := rfl
@[simp] theorem edge_doneCp (t : Slot) (e : Word) : (t.edge e).doneCp = t.doneCp := rfl
@[simp] theorem edge_doneTt (t : Slot) (e : Word) : (t.edge e).doneTt = t.doneTt := rfl
@[simp] theorem edge_fences (t : Slot) (e : Word) : (t.edge e).fences = t.fences := rfl
@[simp] theorem transfer_busy (t : Slot) (a : Word) (p : Bool) : (t.transfer a p).busy = t.busy := rfl
@[simp] theorem transfer_part (t : Slot) (a : Word) (p : Bool) : (t.transfer a p).part = t.part := rfl
@[simp] theorem transfer_x (t : Slot) (a : Word) (p : Bool) : (t.transfer a p).x = t.x := rfl
@[simp] theorem transfer_cond (t : Slot) (a : Word) (p : Bool) : (t.transfer a p).cond = t.cond := rfl
@[simp] theorem transfer_loops (t : Slot) (a : Word) (p : Bool) : (t.transfer a p).loops = t.loops := rfl
@[simp] theorem transfer_vstate (t : Slot) (a : Word) (p : Bool) : (t.transfer a p).vstate = t.vstate := rfl
@[simp] theorem transfer_vtype (t : Slot) (a : Word) (p : Bool) : (t.transfer a p).vtype = t.vtype := rfl
@[simp] theorem transfer_vl (t : Slot) (a : Word) (p : Bool) : (t.transfer a p).vl = t.vl := rfl
@[simp] theorem transfer_vstart (t : Slot) (a : Word) (p : Bool) : (t.transfer a p).vstart = t.vstart := rfl
@[simp] theorem transfer_valloc (t : Slot) (a : Word) (p : Bool) : (t.transfer a p).valloc = t.valloc := rfl
@[simp] theorem transfer_vceil (t : Slot) (a : Word) (p : Bool) : (t.transfer a p).vceil = t.vceil := rfl
@[simp] theorem transfer_lanes (t : Slot) (a : Word) (p : Bool) : (t.transfer a p).lanes = t.lanes := rfl
@[simp] theorem transfer_masks (t : Slot) (a : Word) (p : Bool) : (t.transfer a p).masks = t.masks := rfl
@[simp] theorem transfer_streams (t : Slot) (a : Word) (p : Bool) : (t.transfer a p).streams = t.streams := rfl
@[simp] theorem transfer_skv (t : Slot) (a : Word) (p : Bool) : (t.transfer a p).skv = t.skv := rfl
@[simp] theorem transfer_kvRegs (t : Slot) (a : Word) (p : Bool) : (t.transfer a p).kvRegs = t.kvRegs := rfl
@[simp] theorem transfer_fflags (t : Slot) (a : Word) (p : Bool) : (t.transfer a p).fflags = t.fflags := rfl
@[simp] theorem transfer_frm (t : Slot) (a : Word) (p : Bool) : (t.transfer a p).frm = t.frm := rfl
@[simp] theorem transfer_srseed (t : Slot) (a : Word) (p : Bool) : (t.transfer a p).srseed = t.srseed := rfl
@[simp] theorem transfer_lpart (t : Slot) (a : Word) (p : Bool) : (t.transfer a p).lpart = t.lpart := rfl
@[simp] theorem transfer_pending (t : Slot) (a : Word) (p : Bool) : (t.transfer a p).pending = t.pending := rfl
@[simp] theorem transfer_shrunk (t : Slot) (a : Word) (p : Bool) : (t.transfer a p).shrunk = t.shrunk := rfl
@[simp] theorem transfer_request (t : Slot) (a : Word) (p : Bool) : (t.transfer a p).request = t.request := rfl
@[simp] theorem transfer_elastic (t : Slot) (a : Word) (p : Bool) : (t.transfer a p).elastic = t.elastic := rfl
@[simp] theorem transfer_prio (t : Slot) (a : Word) (p : Bool) : (t.transfer a p).prio = t.prio := rfl
@[simp] theorem transfer_started (t : Slot) (a : Word) (p : Bool) : (t.transfer a p).started = t.started := rfl
@[simp] theorem transfer_gslot (t : Slot) (a : Word) (p : Bool) : (t.transfer a p).gslot = t.gslot := rfl
@[simp] theorem transfer_gmember (t : Slot) (a : Word) (p : Bool) : (t.transfer a p).gmember = t.gmember := rfl
@[simp] theorem transfer_gpos (t : Slot) (a : Word) (p : Bool) : (t.transfer a p).gpos = t.gpos := rfl
@[simp] theorem transfer_gjtimeout (t : Slot) (a : Word) (p : Bool) : (t.transfer a p).gjtimeout = t.gjtimeout := rfl
@[simp] theorem transfer_tcfg (t : Slot) (a : Word) (p : Bool) : (t.transfer a p).tcfg = t.tcfg := rfl
@[simp] theorem transfer_tsr (t : Slot) (a : Word) (p : Bool) : (t.transfer a p).tsr = t.tsr := rfl
@[simp] theorem transfer_cpstat (t : Slot) (a : Word) (p : Bool) : (t.transfer a p).cpstat = t.cpstat := rfl
@[simp] theorem transfer_cpaddr (t : Slot) (a : Word) (p : Bool) : (t.transfer a p).cpaddr = t.cpaddr := rfl
@[simp] theorem transfer_ttstat (t : Slot) (a : Word) (p : Bool) : (t.transfer a p).ttstat = t.ttstat := rfl
@[simp] theorem transfer_ttaddr (t : Slot) (a : Word) (p : Bool) : (t.transfer a p).ttaddr = t.ttaddr := rfl
@[simp] theorem transfer_status (t : Slot) (a : Word) (p : Bool) : (t.transfer a p).status = t.status := rfl
@[simp] theorem transfer_epc (t : Slot) (a : Word) (p : Bool) : (t.transfer a p).epc = t.epc := rfl
@[simp] theorem transfer_ecause (t : Slot) (a : Word) (p : Bool) : (t.transfer a p).ecause = t.ecause := rfl
@[simp] theorem transfer_etval (t : Slot) (a : Word) (p : Bool) : (t.transfer a p).etval = t.etval := rfl
@[simp] theorem transfer_evec (t : Slot) (a : Word) (p : Bool) : (t.transfer a p).evec = t.evec := rfl
@[simp] theorem transfer_asid (t : Slot) (a : Word) (p : Bool) : (t.transfer a p).asid = t.asid := rfl
@[simp] theorem transfer_ptbase (t : Slot) (a : Word) (p : Bool) : (t.transfer a p).ptbase = t.ptbase := rfl
@[simp] theorem transfer_heatbase (t : Slot) (a : Word) (p : Bool) : (t.transfer a p).heatbase = t.heatbase := rfl
@[simp] theorem transfer_kvmbase (t : Slot) (a : Word) (p : Bool) : (t.transfer a p).kvmbase = t.kvmbase := rfl
@[simp] theorem transfer_hpasid (t : Slot) (a : Word) (p : Bool) : (t.transfer a p).hpasid = t.hpasid := rfl
@[simp] theorem transfer_chidx (t : Slot) (a : Word) (p : Bool) : (t.transfer a p).chidx = t.chidx := rfl
@[simp] theorem transfer_hidx (t : Slot) (a : Word) (p : Bool) : (t.transfer a p).hidx = t.hidx := rfl
@[simp] theorem transfer_xjoin (t : Slot) (a : Word) (p : Bool) : (t.transfer a p).xjoin = t.xjoin := rfl
@[simp] theorem transfer_xdone (t : Slot) (a : Word) (p : Bool) : (t.transfer a p).xdone = t.xdone := rfl
@[simp] theorem transfer_launch (t : Slot) (a : Word) (p : Bool) : (t.transfer a p).launch = t.launch := rfl
@[simp] theorem transfer_ttres (t : Slot) (a : Word) (p : Bool) : (t.transfer a p).ttres = t.ttres := rfl
@[simp] theorem transfer_pmstat (t : Slot) (a : Word) (p : Bool) : (t.transfer a p).pmstat = t.pmstat := rfl
@[simp] theorem transfer_pmTarget (t : Slot) (a : Word) (p : Bool) : (t.transfer a p).pmTarget = t.pmTarget := rfl
@[simp] theorem transfer_pmPending (t : Slot) (a : Word) (p : Bool) : (t.transfer a p).pmPending = t.pmPending := rfl
@[simp] theorem transfer_strip (t : Slot) (a : Word) (p : Bool) : (t.transfer a p).strip = t.strip := rfl
@[simp] theorem transfer_bpctl (t : Slot) (a : Word) (p : Bool) : (t.transfer a p).bpctl = t.bpctl := rfl
@[simp] theorem transfer_bpaddr (t : Slot) (a : Word) (p : Bool) : (t.transfer a p).bpaddr = t.bpaddr := rfl
@[simp] theorem transfer_smpctl (t : Slot) (a : Word) (p : Bool) : (t.transfer a p).smpctl = t.smpctl := rfl
@[simp] theorem transfer_smpcnt (t : Slot) (a : Word) (p : Bool) : (t.transfer a p).smpcnt = t.smpcnt := rfl
@[simp] theorem transfer_spt (t : Slot) (a : Word) (p : Bool) : (t.transfer a p).spt = t.spt := rfl
@[simp] theorem transfer_setvlAddr (t : Slot) (a : Word) (p : Bool) : (t.transfer a p).setvlAddr = t.setvlAddr := rfl
@[simp] theorem transfer_captured (t : Slot) (a : Word) (p : Bool) : (t.transfer a p).captured = t.captured := rfl
@[simp] theorem transfer_bad (t : Slot) (a : Word) (p : Bool) : (t.transfer a p).bad = t.bad := rfl
@[simp] theorem transfer_overwrites (t : Slot) (a : Word) (p : Bool) : (t.transfer a p).overwrites = t.overwrites := rfl
@[simp] theorem transfer_vbegun (t : Slot) (a : Word) (p : Bool) : (t.transfer a p).vbegun = t.vbegun := rfl
@[simp] theorem transfer_vstop (t : Slot) (a : Word) (p : Bool) : (t.transfer a p).vstop = t.vstop := rfl
@[simp] theorem transfer_waiting (t : Slot) (a : Word) (p : Bool) : (t.transfer a p).waiting = t.waiting := rfl
@[simp] theorem transfer_opNext (t : Slot) (a : Word) (p : Bool) : (t.transfer a p).opNext = t.opNext := rfl
@[simp] theorem transfer_doneCp (t : Slot) (a : Word) (p : Bool) : (t.transfer a p).doneCp = t.doneCp := rfl
@[simp] theorem transfer_doneTt (t : Slot) (a : Word) (p : Bool) : (t.transfer a p).doneTt = t.doneTt := rfl
@[simp] theorem transfer_fences (t : Slot) (a : Word) (p : Bool) : (t.transfer a p).fences = t.fences := rfl

/-! ## Register reads after writes (R15, R16) -/

@[simp] theorem readX_zero (t : Slot) : t.readX 0 = 0 := rfl
@[simp] theorem writeX_zero (t : Slot) (v : Word) : t.writeX 0 v = t := rfl
theorem readX_writeX_self (t : Slot) (r : Reg) (v : Word) (h : r ≠ 0) : (t.writeX r v).readX r = v := by
  unfold Slot.readX Slot.writeX
  rw [if_neg h, if_neg h]
  simp
theorem readX_writeX_ne (t : Slot) (r q : Reg) (v : Word) (h : q ≠ r) : (t.writeX r v).readX q = t.readX q := by
  unfold Slot.readX Slot.writeX
  split
  · rfl
  · split
    · rfl
    · have h' : r.toNat ≠ q.toNat := fun e => h (BitVec.eq_of_toNat_eq e.symm)
      simp [h']
theorem readX_writeX (t : Slot) (r q : Reg) (v : Word) :
    (t.writeX r v).readX q = if q = r ∧ r ≠ 0 then v else t.readX q := by
  by_cases h : q = r
  · subst h
    by_cases z : q = 0
    · subst z; rfl
    · rw [if_pos ⟨rfl, z⟩, readX_writeX_self _ _ _ z]
  · simp [readX_writeX_ne _ _ _ _ h, h]

end Sys2Proof.Machine
end

