-- ==== Sys2Proof/Laws/Retire.lean ====
section
/-! SUPPORT. What the retirement of an instruction does to the state, once and for all (R92, R93, R158, R159, R344). -/

namespace Sys2Proof.Laws

open Sys2Proof Sys2Proof.Machine

theorem keepsSlot_refl (a : Slot) : keepsSlot a a := rfl

theorem keepsSlot_trans {a b c : Slot} (h : keepsSlot a b) (g : keepsSlot b c) : keepsSlot a c := by
  unfold keepsSlot at *
  rw [g, h]

/-- Everything of a retirement's frame but the slots of other threads. -/
structure Quiet (s t : State) : Prop where
  slots : ∀ q, keepsSlot (s.slot q) (t.slot q)
  cores : ∀ c, t.core c = { s.core c with trace := (t.core c).trace, vecEnds := (t.core c).vecEnds
                                          frozen := (t.core c).frozen }
  clusters : ∀ c, t.cluster c = { s.cluster c with gangs := (t.cluster c).gangs }
  parts : ∀ p, t.part p = { s.part p with progress := (t.part p).progress }
  rest : t = { s with slots := t.slots, cores := t.cores, clusters := t.clusters, parts := t.parts }

theorem Quiet.refl (s : State) : Quiet s s :=
  ⟨fun _ => rfl, fun _ => rfl, fun _ => rfl, fun _ => rfl, rfl⟩

theorem Quiet.trans {s t u : State} (h : Quiet s t) (g : Quiet t u) : Quiet s u where
  slots q := keepsSlot_trans (h.slots q) (g.slots q)
  cores c := by rw [g.cores c, h.cores c]
  clusters c := by rw [g.clusters c, h.clusters c]
  parts p := by rw [g.parts p, h.parts p]
  rest := by rw [g.rest, h.rest]

theorem Quiet.cur {s t : State} (h : Quiet s t) : t.cur = s.cur := by rw [h.rest]

theorem quiet_mapSlot (q : SeqId) (f : Slot → Slot) (s : State) (h : keepsSlot (s.slot q) (f (s.slot q))) :
    Quiet s (mapSlot q f s) where
  slots r := by
    by_cases e : r = q
    · subst e; simpa using h
    · rw [slot_mapSlot_ne _ _ _ _ e]; rfl
  cores _ := rfl
  clusters _ := rfl
  parts _ := rfl
  rest := rfl

theorem quiet_mapPart (p : PartId) (n : Nat) (s : State) : Quiet s (mapPart p (fun t => { t with progress := n }) s) where
  slots _ := rfl
  cores _ := rfl
  clusters _ := rfl
  parts r := by
    by_cases e : r = p
    · subst e; simp
    · rw [part_mapPart_ne _ _ _ _ e]
  rest := rfl

theorem quiet_setGang (cl : ClusterId) (k : Fin 4) (g : Option Gang) (s : State) : Quiet s (s.setGang cl k g) where
  slots _ := rfl
  cores _ := rfl
  clusters c := by
    by_cases e : c = cl
    · subst e; simp [State.setGang]
    · unfold State.setGang; rw [cluster_mapCluster_ne _ _ _ _ e]
  parts _ := rfl
  rest := rfl

/-- What a core has still to write of its trace, the ends of its vector instructions, and the cycle that is frozen. -/
theorem quiet_mapCore (c : CoreId) (f : Core → Core) (s : State)
    (h : ∀ k, f k = { k with trace := (f k).trace, vecEnds := (f k).vecEnds, frozen := (f k).frozen }) : Quiet s (mapCore c f s) where
  slots _ := rfl
  cores d := by
    by_cases e : d = c
    · subst e; rw [core_mapCore_self]; exact h _
    · rw [core_mapCore_ne _ _ _ _ e]
  clusters _ := rfl
  parts _ := rfl
  rest := rfl

theorem quiet_traceAt (c : CoreId) (n : Nat) (rec : List Word) (s : State) : Quiet s (traceAt c n rec s) :=
  quiet_mapCore _ _ _ fun _ => rfl

/-- A sampling counter changes nothing but itself, the records of its core and the cycle that is frozen. -/
theorem quiet_countEventAs (q : SeqId) (e n r : Nat) (pc : Word) (s : State) : Quiet s (countEventAs q e n r pc s) := by
  unfold countEventAs
  dsimp only
  split
  · have h : Quiet s (s.setSlot q { s.slot q with
        smpcnt := BitVec.ofNat 64 ((s.slot q).smpcnt.toNat + n)
        smpctl := if (s.slot q).smpcnt.toNat + n < 2 ^ 64 then (s.slot q).smpctl else (s.slot q).smpctl ||| 0x100 }) :=
      quiet_mapSlot q (fun t => { t with
        smpcnt := BitVec.ofNat 64 ((s.slot q).smpcnt.toNat + n)
        smpctl := if (s.slot q).smpcnt.toNat + n < 2 ^ 64 then (s.slot q).smpctl else (s.slot q).smpctl ||| 0x100 }) s rfl
    split
    · exact h.trans ((quiet_mapCore _ _ _ fun _ => rfl).trans (quiet_traceAt _ _ _ _))
    · exact h
  · exact Quiet.refl s

/-- Slots keep their program counters, loop stacks and holds. -/
def SamePlace (s t : State) : Prop :=
  ∀ q, (t.slot q).pc = (s.slot q).pc ∧ (t.slot q).loops = (s.slot q).loops ∧ (t.slot q).lpdepth = (s.slot q).lpdepth
    ∧ (t.slot q).waiting = (s.slot q).waiting ∧ (t.slot q).pmPoint = (s.slot q).pmPoint ∧ (t.slot q).bad = (s.slot q).bad

theorem place_mapSlot (q : SeqId) (f : Slot → Slot) (s : State)
    (h : ∀ t, (f t).pc = t.pc ∧ (f t).loops = t.loops ∧ (f t).lpdepth = t.lpdepth ∧ (f t).waiting = t.waiting
      ∧ (f t).pmPoint = t.pmPoint ∧ (f t).bad = t.bad) : SamePlace s (mapSlot q f s) := by
  intro r
  by_cases e : r = q
  · subst e; simpa using h _
  · rw [slot_mapSlot_ne _ _ _ _ e]; simp

theorem place_countEventAs (q : SeqId) (e n r : Nat) (pc : Word) (s : State) : SamePlace s (countEventAs q e n r pc s) := by
  unfold countEventAs
  dsimp only
  split
  · have h := place_mapSlot q (fun t => { t with
        smpcnt := BitVec.ofNat 64 ((s.slot q).smpcnt.toNat + n)
        smpctl := if (s.slot q).smpcnt.toNat + n < 2 ^ 64 then (s.slot q).smpctl else (s.slot q).smpctl ||| 0x100 }) s
      (fun _ => ⟨rfl, rfl, rfl, rfl, rfl, rfl⟩)
    split
    · intro k
      have := h k
      simpa [mapSlot, traceAt, mapCore, State.slot, State.setSlot, State.setCore] using this
    · intro k
      have := h k
      simpa [mapSlot, State.slot, State.setSlot] using this
  · intro k; simp

/-- Another thread's slot is as it was, unless it waits. -/
def OthersStay (s t : State) : Prop := ∀ q, q ≠ s.cur → (s.slot q).waiting = none → t.slot q = s.slot q

/-- What one slot's change leaves of the others. -/
theorem others_mapSlot_cur (f : Slot → Slot) (s : State) : OthersStay s (mapSlot s.cur f s) :=
  fun _ h _ => slot_mapSlot_ne _ _ _ _ h

theorem slot_countEventAs_ne (q r : SeqId) (e n k : Nat) (pc : Word) (s : State) (h : r ≠ q) :
    (countEventAs q e n k pc s).slot r = s.slot r := by
  unfold countEventAs
  dsimp only
  split
  · split
    · show (s.setSlot q _).slot r = _
      exact slot_setSlot_ne _ _ _ _ h
    · exact slot_setSlot_ne _ _ _ _ h
  · rfl

/-- A rejoining member is the only slot that its rejoining changes. -/
theorem slot_reattach_ne (q r : SeqId) (l : Word) (pos : Nat) (s : State) (h : r ≠ q) :
    (reattach q l pos s).slot r = s.slot r := by
  unfold reattach
  rw [slot_mapSlot_ne _ _ _ _ h]
  exact slot_countEventAs_ne _ _ _ _ _ _ _ h

theorem quiet_reattach (q : SeqId) (l : Word) (pos : Nat) (s : State) : Quiet s (reattach q l pos s) := by
  unfold reattach
  exact (quiet_countEventAs _ _ _ _ _ _).trans (quiet_mapSlot _ _ _ rfl)

theorem quiet_foldl_reattach (l : Word) (pos : Nat) (qs : List SeqId) (s : State) :
    Quiet s (qs.foldl (fun s q => reattach q l pos s) s) := by
  induction qs generalizing s with
  | nil => exact Quiet.refl s
  | cons q r ih => exact (quiet_reattach q l pos s).trans (ih _)

theorem slot_foldl_reattach (l : Word) (pos : Nat) (qs : List SeqId) (s : State) (r : SeqId) (h : r ∉ qs) :
    (qs.foldl (fun s q => reattach q l pos s) s).slot r = s.slot r := by
  induction qs generalizing s with
  | nil => rfl
  | cons q t ih =>
    simp only [List.mem_cons, not_or] at h
    show (t.foldl _ (reattach q l pos s)).slot r = _
    rw [ih _ h.2, slot_reattach_ne _ _ _ _ _ h.1]

/-- A slot that does not wait awaits no label. -/
theorem not_awaiting (s : State) (cl : ClusterId) (k : Fin 4) (l : Word) (q : SeqId) (h : (s.slot q).waiting = none) :
    q ∉ awaitingLabel s cl k l := by
  intro m
  have := (List.mem_filter.mp m).2
  simp [heldLabel, h] at this

theorem quiet_extendStream (cl : ClusterId) (k : Fin 4) (n : Word) (s : State) : Quiet s (extendStream cl k n s) := by
  unfold extendStream
  split
  · exact Quiet.refl s
  · exact (quiet_setGang _ _ _ _).trans (quiet_foldl_reattach _ _ _ _)

theorem slot_extendStream (cl : ClusterId) (k : Fin 4) (n : Word) (s : State) (q : SeqId) (h : (s.slot q).waiting = none) :
    (extendStream cl k n s).slot q = s.slot q := by
  unfold extendStream
  split
  · rfl
  · exact (slot_foldl_reattach _ _ _ _ _ (not_awaiting (s.setGang cl k _) cl k n q h)).trans rfl

theorem quiet_trimPath (cl : ClusterId) (k : Fin 4) (s : State) : Quiet s (trimPath cl k s) := by
  unfold trimPath
  split
  · exact Quiet.refl s
  · split
    · exact Quiet.refl s
    · exact quiet_setGang _ _ _ _

theorem slot_trimPath (cl : ClusterId) (k : Fin 4) (s : State) (q : SeqId) : (trimPath cl k s).slot q = s.slot q := by
  unfold trimPath
  split
  · rfl
  · split <;> rfl

theorem quiet_gpos (q : SeqId) (g : Option Nat) (s : State) : Quiet s (mapSlot q (fun t => { t with gpos := g }) s) :=
  quiet_mapSlot _ _ _ rfl

theorem quiet_gangAdvance (q : SeqId) (s : State) : Quiet s (gangAdvance q s) := by
  unfold gangAdvance
  split
  · simp only
    split
    · split
      · exact (quiet_gpos _ _ _).trans (quiet_trimPath _ _ _)
      · exact quiet_gpos _ _ _
    · exact ((quiet_gpos _ _ _).trans (quiet_extendStream _ _ _ _)).trans (quiet_trimPath _ _ _)
  · exact Quiet.refl s

/-- A slot that does not wait keeps all but its place in the stream. -/
theorem slot_gangAdvance (q r : SeqId) (s : State) (h : (s.slot r).waiting = none) :
    (gangAdvance q s).slot r = { s.slot r with gpos := ((gangAdvance q s).slot r).gpos } := by
  unfold gangAdvance
  split
  · simp only
    split
    · split
      · rw [slot_trimPath]
        by_cases e : r = q
        · subst e; simp
        · rw [slot_mapSlot_ne _ _ _ _ e]
      · unfold detach
        by_cases e : r = q
        · subst e; simp
        · rw [slot_mapSlot_ne _ _ _ _ e]
    · rw [slot_trimPath]
      by_cases e : r = q
      · subst e
        rw [slot_extendStream _ _ _ _ _ (by simpa using h)]
        simp
      · rw [slot_extendStream _ _ _ _ _ (by rw [slot_mapSlot_ne _ _ _ _ e]; exact h), slot_mapSlot_ne _ _ _ _ e]
  · rfl

theorem slot_gangAdvance_ne (q r : SeqId) (s : State) (n : r ≠ q) (h : (s.slot r).waiting = none) :
    (gangAdvance q s).slot r = s.slot r := by
  unfold gangAdvance
  split
  · simp only
    split
    · split
      · rw [slot_trimPath, slot_mapSlot_ne _ _ _ _ n]
      · exact slot_mapSlot_ne _ _ _ _ n
    · rw [slot_trimPath, slot_extendStream _ _ _ _ _ (by rw [slot_mapSlot_ne _ _ _ _ n]; exact h), slot_mapSlot_ne _ _ _ _ n]
  · rfl

/-- Everything that retirement does (`retired`), from a state whose slot already stands at the next instruction. -/
theorem retired_spec (pc : Word) (s : State) :
    RetireFrame s (retired pc s) ∧ (retired pc s).cur = s.cur ∧ (retired pc s).me.pc = s.me.pc
      ∧ (retired pc s).me.loops = s.me.loops ∧ (retired pc s).me.lpdepth = s.me.lpdepth ∧ (retired pc s).me.waiting = none
      ∧ (retired pc s).me.bad = errorsAfter s.me := by
  have q1 : Quiet s (mapSlot s.cur (fun t => { t with
      waiting := none, bad := t.bad.filter fun r => !t.overwrites.contains r, overwrites := [] }) s) := quiet_mapSlot _ _ _ rfl
  generalize e1 : mapSlot s.cur (fun t => { t with
      waiting := none, bad := t.bad.filter fun r => !t.overwrites.contains r, overwrites := [] }) s = s1 at q1
  have c1 : s1.cur = s.cur := by rw [← e1]; rfl
  have m1 : s1.slot s.cur = { s.slot s.cur with waiting := none, bad := errorsAfter (s.slot s.cur), overwrites := [] } := by
    rw [← e1, slot_mapSlot_self]; rfl
  have o1 : ∀ r, r ≠ s.cur → s1.slot r = s.slot r := fun r h => by rw [← e1]; exact slot_mapSlot_ne _ _ _ _ h
  have q2 : Quiet s1 (mapPart s1.me.part (fun p => { p with progress := s1.cycle }) s1) := quiet_mapPart _ _ _
  generalize e2 : mapPart s1.me.part (fun p => { p with progress := s1.cycle }) s1 = s2 at q2
  have o2 : ∀ r, s2.slot r = s1.slot r := fun r => by rw [← e2]; rfl
  have c2 : s2.cur = s1.cur := by rw [← e2]; rfl
  have q3 : Quiet s2 (countEvent s2.cur 1 1 pc s2) := quiet_countEventAs _ _ _ _ _ _
  have p3 := place_countEventAs s2.cur 1 1 0 pc s2
  have o3 := fun r h => slot_countEventAs_ne s2.cur r 1 1 0 pc s2 h
  generalize e3 : countEvent s2.cur 1 1 pc s2 = s3 at q3
  have e3' : countEventAs s2.cur 1 1 0 pc s2 = s3 := e3
  rw [e3'] at p3 o3
  have c3 : s3.cur = s2.cur := q3.cur
  have q4 := quiet_gangAdvance s3.cur s3
  have hr : retired pc s = gangAdvance s2.cur s3 := by
    rw [← e3, ← e2, ← e1]; rfl
  have w3 : (s3.slot s.cur).waiting = none := by rw [(p3 s.cur).2.2.2.1, o2, m1]
  have hc : s2.cur = s3.cur := c3.symm
  have g := slot_gangAdvance s3.cur s.cur s3 w3
  have cc : (gangAdvance s3.cur s3).cur = s.cur := by rw [q4.cur, c3, c2, c1]
  have mm : ∀ {α : Type} (φ : Slot → α), (∀ t k, φ { t with gpos := k } = φ t) →
      φ (gangAdvance s3.cur s3).me = φ (s3.slot s.cur) := by
    intro α φ hφ
    have : (gangAdvance s3.cur s3).me = (gangAdvance s3.cur s3).slot s.cur := by
      show (gangAdvance s3.cur s3).slot (gangAdvance s3.cur s3).cur = _
      rw [cc]
    rw [this, g, hφ]
  have qq := ((q1.trans q2).trans q3).trans q4
  rw [hr, hc]
  have me : s.me = s.slot s.cur := rfl
  refine ⟨⟨qq.slots, ?_, qq.cores, qq.clusters, qq.parts, qq.rest⟩, cc, ?_, ?_, ?_, ?_, ?_⟩
  · intro r n w
    have n3 : r ≠ s3.cur := by rw [c3, c2, c1]; exact n
    have w' : (s3.slot r).waiting = none := by rw [(p3 r).2.2.2.1, o2, o1 r n]; exact w
    rw [slot_gangAdvance_ne _ _ _ n3 w', o3 r (by rw [← c3]; exact n3), o2, o1 r n]
  · rw [mm (·.pc) (fun _ _ => rfl), (p3 s.cur).1, o2, m1, me]
  · rw [mm (·.loops) (fun _ _ => rfl), (p3 s.cur).2.1, o2, m1, me]
  · rw [mm (·.lpdepth) (fun _ _ => rfl), (p3 s.cur).2.2.1, o2, m1, me]
  · rw [mm (·.waiting) (fun _ _ => rfl), w3]
  · rw [mm (·.bad) (fun _ _ => rfl), (p3 s.cur).2.2.2.2.2, o2, m1, me]

/-- A change of the running slot that retirement may make anyway is part of its frame. -/
theorem frame_of_mapMe {u t : State} (f : Slot → Slot) (hk : keepsSlot u.me (f u.me)) (h : RetireFrame (mapMe f u) t) :
    RetireFrame u t where
  slots q := by
    refine keepsSlot_trans ?_ (h.slots q)
    by_cases e : q = u.cur
    · subst e; rw [slot_mapMe_cur]; exact hk
    · rw [slot_mapMe_ne _ _ _ e]; rfl
  others q n w := by
    have := h.others q n (by rw [slot_mapMe_ne _ _ _ n]; exact w)
    rw [this, slot_mapMe_ne _ _ _ n]
  cores := h.cores
  clusters := h.clusters
  parts := h.parts
  rest := by rw [h.rest]; rfl

theorem keepsSlot_edge (a : Slot) (e : Word) : keepsSlot a (a.edge e) := rfl
theorem keepsSlot_transfer (a : Slot) (w : Word) (p : Bool) : keepsSlot a (a.transfer w p) := rfl

/-- The end of an instruction that transfers no control. -/
theorem retire_next (u : State) : RetiresTo u (retire .next u) := by
  obtain ⟨fr, cu, pc, lo, de, wa, er⟩ := retired_spec u.me.pc (mapMe (·.edge u.me.pc) u)
  have e : retire .next u = retired u.me.pc (mapMe (·.edge u.me.pc) u) := rfl
  rw [me_mapMe] at pc lo de er
  refine ⟨e ▸ frame_of_mapMe _ (keepsSlot_edge _ _) fr, e ▸ pc, e ▸ lo, e ▸ de, e ▸ wa, e ▸ er⟩

/-- The end of a hardware loop that is skipped (R91). -/
theorem retire_edgeAt (a : Word) (u : State) : RetiresAt a u (retire (.edgeAt a) u) := by
  obtain ⟨fr, cu, pc, lo, de, wa, er⟩ := retired_spec u.me.pc (mapMe (·.edge a) u)
  have e : retire (.edgeAt a) u = retired u.me.pc (mapMe (·.edge a) u) := rfl
  rw [me_mapMe] at pc lo de er
  refine ⟨e ▸ frame_of_mapMe _ (keepsSlot_edge _ _) fr, e ▸ pc, e ▸ lo, e ▸ de, e ▸ wa, e ▸ er⟩

/-- The end of an instruction that transfers control. -/
theorem retire_goto (a : Word) (pops : Bool) (u : State) :
    RetireFrame u (retire (.goto a pops) u) ∧ (retire (.goto a pops) u).me.pc = a
      ∧ (retire (.goto a pops) u).me.loops = u.me.loops
      ∧ (retire (.goto a pops) u).me.lpdepth = (if pops then popTo u.me.loops a u.me.lpdepth else u.me.lpdepth)
      ∧ (retire (.goto a pops) u).me.waiting = none
      ∧ (retire (.goto a pops) u).me.bad = errorsAfter u.me := by
  obtain ⟨fr, cu, pc, lo, de, wa, er⟩ := retired_spec u.me.pc (mapMe (·.transfer a pops) u)
  have e : retire (.goto a pops) u = retired u.me.pc (mapMe (·.transfer a pops) u) := rfl
  rw [me_mapMe] at pc lo de er
  exact ⟨e ▸ frame_of_mapMe _ (keepsSlot_transfer _ _ _) fr, e ▸ pc, e ▸ lo, e ▸ de, e ▸ wa, e ▸ er⟩

/-- What a retirement may change anyway may come before it. -/
theorem RetiresAt.of_quiet {e : Word} {a u t : State} (q : Quiet a u) (o : OthersStay a u)
    (hl : u.me.loops = a.me.loops) (hd : u.me.lpdepth = a.me.lpdepth) (hb : errorsAfter u.me = errorsAfter a.me)
    (h : RetiresAt e u t) : RetiresAt e a t where
  frame := {
    slots := fun k => keepsSlot_trans (q.slots k) (h.frame.slots k)
    others := fun k n w => by
      rw [h.frame.others k (by rw [q.cur]; exact n) (by rw [o k n w]; exact w), o k n w]
    cores := fun c => by rw [h.frame.cores c, q.cores c]
    clusters := fun c => by rw [h.frame.clusters c, q.clusters c]
    parts := fun p => by rw [h.frame.parts p, q.parts p]
    rest := by rw [h.frame.rest, q.rest] }
  pc := by rw [h.pc]; unfold Slot.edge; rw [hl, hd]
  loops := by rw [h.loops]; unfold Slot.edge; rw [hl, hd]
  depth := by rw [h.depth]; unfold Slot.edge; rw [hl, hd]
  idle := h.idle
  errors := by rw [h.errors, hb]

/-! ## Giving up places in transit queues -/

/-- The states differ in memory, in the transit queues and in the errors of lines only. -/
def SameButMemory (s t : State) : Prop := t = { s with mem := t.mem, transit := t.transit, bad := t.bad }

theorem SameButMemory.refl (s : State) : SameButMemory s s := rfl
theorem SameButMemory.trans {s t u : State} (h : SameButMemory s t) (g : SameButMemory t u) : SameButMemory s u := by
  unfold SameButMemory at *
  rw [g, h]
theorem SameButMemory.slots {s t : State} (h : SameButMemory s t) : t.slots = s.slots := by rw [h]
theorem SameButMemory.cur {s t : State} (h : SameButMemory s t) : t.cur = s.cur := by rw [h]
theorem SameButMemory.me {s t : State} (h : SameButMemory s t) : t.me = s.me := by
  unfold State.me State.slot; rw [h.slots, h.cur]

theorem performAct_same (pa : Nat) (a : HeldAct) (s : State) : SameButMemory s (performAct pa a s) := by
  cases a <;> rfl

theorem performHeld_same (l : List HeldAccess) (s : State) : SameButMemory s (performHeld l s) := by
  induction l generalizing s with
  | nil => rfl
  | cons h r ih =>
    unfold performHeld
    split
    · rfl
    · exact (performAct_same _ _ _).trans (ih _)

theorem drain_same (line : Nat) (s : State) : SameButMemory s (drain line s) :=
  SameButMemory.trans (t := { s with transit := s.transit.filter fun h => h.addr / 64 != line }) rfl (performHeld_same _ _)

/-- An instruction that gives up its places changes nothing but memory and the queues. -/
theorem dropTurns_same (q : SeqId) (s : State) : SameButMemory s (dropTurns q s) := by
  have : ∀ (l : List HeldAccess) (u : State), SameButMemory u
      (l.foldl (fun s h => if markOf s (h.addr / 64) = some .transit then s else drain (h.addr / 64) s) u) := by
    intro l
    induction l with
    | nil => intro u; rfl
    | cons x r ih =>
      intro u
      rw [List.foldl_cons]
      refine SameButMemory.trans ?_ (ih _)
      split
      · rfl
      · exact drain_same _ _
  exact SameButMemory.trans (t := { s with transit := s.transit.filter fun h => !(h.isTurn && h.owner == some q) }) rfl (this _ _)

theorem turnsOver_same (s u : State) : SameButMemory u (turnsOver s u) := by
  unfold turnsOver
  split
  · exact dropTurns_same _ _
  · rfl

@[simp] theorem turnsOver_me (s u : State) : (turnsOver s u).me = u.me := (turnsOver_same s u).me
@[simp] theorem turnsOver_cur (s u : State) : (turnsOver s u).cur = u.cur := (turnsOver_same s u).cur

/-- An instruction that has not waited holds no place. -/
theorem turnsOver_fresh {s : State} (h : s.me.waiting = none) (u : State) : turnsOver s u = u := by
  unfold turnsOver; rw [h]; rfl

theorem mapMe_same {u t : State} (f : Slot → Slot) (h : SameButMemory u t) : SameButMemory (mapMe f u) (mapMe f t) := by
  unfold SameButMemory at *
  rw [h]; rfl

/-- The parts of a state that transit queues and memory do not hold. -/
def withRest (x s : State) : State := { s with slots := x.slots, cores := x.cores, clusters := x.clusters, parts := x.parts }

theorem performHeld_rest (x : State) (l : List HeldAccess) (s : State) : performHeld l (withRest x s) = withRest x (performHeld l s) := by
  induction l generalizing s with
  | nil => rfl
  | cons h r ih =>
    unfold performHeld
    split
    · rfl
    · have : performAct h.addr h.act (withRest x s) = withRest x (performAct h.addr h.act s) := by cases h.act <;> rfl
      rw [this, ih]

theorem drain_rest (x : State) (n : Nat) (s : State) : drain n (withRest x s) = withRest x (drain n s) :=
  performHeld_rest x _ { s with transit := s.transit.filter fun h => h.addr / 64 != n }

theorem dropTurns_rest (x : State) (q : SeqId) (s : State) : dropTurns q (withRest x s) = withRest x (dropTurns q s) := by
  have key : ∀ (l : List HeldAccess) (u : State),
      l.foldl (fun s h => if markOf s (h.addr / 64) = some .transit then s else drain (h.addr / 64) s) (withRest x u)
        = withRest x (l.foldl (fun s h => if markOf s (h.addr / 64) = some .transit then s else drain (h.addr / 64) s) u) := by
    intro l
    induction l with
    | nil => intro u; rfl
    | cons h r ih =>
      intro u
      rw [List.foldl_cons, List.foldl_cons]
      have : markOf (withRest x u) (h.addr / 64) = markOf u (h.addr / 64) := rfl
      rw [this]
      split
      · exact ih u
      · rw [drain_rest, ih]
  exact key _ { s with transit := s.transit.filter fun h => !(h.isTurn && h.owner == some q) }

theorem turnsOver_rest (s a u : State) (h : u = withRest u a) : turnsOver s u = withRest u (turnsOver s a) := by
  unfold turnsOver
  split
  · have := dropTurns_rest u s.cur a
    rw [← h] at this
    exact this
  · exact h

/-- Giving up places keeps what a retirement may change apart from what it may not. -/
theorem quiet_turnsOver (s : State) {a u : State} (q : Quiet a u) : Quiet (turnsOver s a) (turnsOver s u) := by
  have e := turnsOver_rest s a u q.rest
  have sa := turnsOver_same s a
  refine ⟨?_, ?_, ?_, ?_, ?_⟩
  · intro r; rw [e, sa]; exact q.slots r
  · intro c; rw [e, sa]; exact q.cores c
  · intro c; rw [e, sa]; exact q.clusters c
  · intro p; rw [e, sa]; exact q.parts p
  · rw [e]; rfl

theorem others_turnsOver (s : State) {a u : State} (o : OthersStay a u) : OthersStay (turnsOver s a) (turnsOver s u) := by
  intro r hr hw
  have sa := turnsOver_same s a
  have su := turnsOver_same s u
  have ea : (turnsOver s a).slot r = a.slot r := by unfold State.slot; rw [sa.slots]
  have eu : (turnsOver s u).slot r = u.slot r := by unfold State.slot; rw [su.slots]
  rw [sa.cur] at hr
  rw [ea] at hw
  rw [ea, eu, o r hr hw]

/-- The end of an instruction that has come from `s` to `u`, which is `a` but for what a retirement may change. -/
theorem retires_next {s a u : State} (q : Quiet a u) (o : OthersStay a u) (hp : u.me.pc = a.me.pc)
    (hl : u.me.loops = a.me.loops) (hd : u.me.lpdepth = a.me.lpdepth) (hb : errorsAfter u.me = errorsAfter a.me) :
    RetiresTo (turnsOver s a) (retire .next (turnsOver s u)) := by
  have r := retire_next (turnsOver s u)
  refine RetiresAt.of_quiet (quiet_turnsOver s q) (others_turnsOver s o) (by simpa using hl) (by simpa using hd) (by simpa using hb) ?_
  have : (turnsOver s u).me.pc = (turnsOver s a).me.pc := by simpa using hp
  rw [← this]
  exact r

/-- An instruction that cannot stop completes with its change of the slot. -/
theorem completes_simple {i : Instr} {s : State} {f : Slot → Slot} (h : exec i s = simple f s) : completes i s f :=
  ⟨retire .next (turnsOver s (mapMe f s)), h, retire_next _⟩

/-- An instruction that is run through to its end completes. -/
theorem completesAs_run {i : Instr} {s u : State} {w : IWord} {m : M Flow} (h : exec i s = run w m s)
    (hm : m s = .ok .next u) : completesAs i s u :=
  ⟨retire .next (turnsOver s u), by rw [h]; unfold run; rw [hm], retire_next _⟩

/-- An instruction that is run through to a transfer of control. -/
theorem jumps_run {i : Instr} {s : State} {f : Slot → Slot} {w : IWord} {m : M Flow} {a : Word} {p : Bool}
    (h : exec i s = run w m s) (hm : m s = .ok (.goto a p) (mapMe f s)) : jumps i s f a p := by
  obtain ⟨h1, h2, h3, h4, h5, h6⟩ := retire_goto a p (turnsOver s (mapMe f s))
  rw [turnsOver_me, me_mapMe] at h3 h4 h6
  exact ⟨_, by rw [h]; unfold run; rw [hm], h1, h2, h3, h4, h5, h6⟩

/-- An instruction that is run and traps before it has changed anything. -/
theorem traps_run {i : Instr} {s : State} {w : IWord} {m : M Flow} {c : Nat} {v : Word} (h : exec i s = run w m s)
    (hm : m s = .error (.trap c v) s) : traps i s c v := by
  unfold traps
  rw [h]; unfold run; rw [hm]

/-- An instruction that is run and waits before it has changed anything. -/
theorem holds_run {i : Instr} {s : State} {w : IWord} {m : M Flow} {k : HoldKind} (h : exec i s = run w m s)
    (hm : m s = .error (.wait k) s) : holdsFor i s k := by
  have e : (if k = .transit then s else turnsOver s s).me = s.me := by split <;> simp
  refine ⟨hold w k (if k = .transit then s else turnsOver s s), (match s.me.waiting with
    | some h => if h.word = w then { h with kind := k } else { word := w, kind := k, since := s.cycle }
    | none => { word := w, kind := k, since := s.cycle }), ?_, ?_, ?_⟩
  · rw [h]; unfold run; rw [hm]
  · have c : (if k = .transit then s else turnsOver s s).cycle = s.cycle := by
      split
      · rfl
      · rw [turnsOver_same s s]
    unfold hold mapMe
    rw [e, c]
    all_goals rfl
  · split
    · split <;> rfl
    · rfl

/-- Memory is part of what a retirement leaves alone. -/
theorem frame_memory {s t : State} (h : RetireFrame s t) : t.mem = s.mem := by rw [h.rest]

end Sys2Proof.Laws
end

