-- ==== Sys2Proof/Laws/Run.lean ====
section
/-! SUPPORT. How the actions of the meanings run: one lemma for each of the small actions, and for their sequence. -/

namespace Sys2Proof.Laws

open Sys2Proof Sys2Proof.Machine

/-- One action after another. -/
theorem bind_run {α β : Type} (x : M α) (f : α → M β) (s : State) :
    (x >>= f) s = match x s with | .ok a s' => f a s' | .error e s' => .error e s' := by
  show EStateM.bind x f s = _
  unfold EStateM.bind
  cases x s <;> rfl

theorem pure_run {α : Type} (a : α) (s : State) : (pure a : M α) s = .ok a s := rfl
theorem getX_run (r : Reg) (s : State) : getX r s = .ok (s.me.readX r) s := rfl
theorem setX_run (r : Reg) (v : Word) (s : State) : setX r v s = .ok () (mapMe (·.writeX r v) s) := rfl
theorem getC_run (n : CBit) (s : State) : getC n s = .ok (s.me.readC n) s := rfl
theorem setC_run (n : CBit) (b : Bool) (s : State) : setC n b s = .ok () (mapMe (·.writeC n b) s) := rfl
theorem getMe_run (s : State) : getMe s = .ok s.me s := rfl
theorem getS_run (s : State) : getS s = .ok s s := rfl
theorem modS_run (f : State → State) (s : State) : modS f s = .ok () (f s) := rfl
theorem modMe_run (f : Slot → Slot) (s : State) : modMe f s = .ok () (mapMe f s) := rfl
theorem trap_run {α : Type} (c : Nat) (v : Word) (s : State) : (trap c v : M α) s = .error (.trap c v) s := rfl
theorem waitFor_run {α : Type} (k : HoldKind) (s : State) : (waitFor k : M α) s = .error (.wait k) s := rfl

theorem check_pass (b : Bool) (c : Nat) (v : Word) (s : State) (h : b = true) : check b c v s = .ok () s := by
  unfold check; rw [if_pos h]

theorem check_fail (b : Bool) (c : Nat) (v : Word) (s : State) (h : b = false) : check b c v s = .error (.trap c v) s := by
  unfold check; rw [h]; rfl

/-- Leaving the slot alone. -/
theorem mapMe_id (s : State) : mapMe id s = s := by
  unfold mapMe State.setMe State.setSlot State.me State.slot
  simp

/-- Two changes of the running slot. -/
theorem mapMe_mapMe (f g : Slot → Slot) (s : State) : mapMe f (mapMe g s) = mapMe (fun t => f (g t)) s := by
  unfold mapMe State.setMe State.setSlot State.me State.slot
  simp

/-- Two changes that agree on the running slot. -/
theorem mapMe_congr {f g : Slot → Slot} {s : State} (h : f s.me = g s.me) : mapMe f s = mapMe g s := by
  unfold mapMe; rw [h]

/-- An instruction that is run through to its end, and has changed its slot. -/
theorem completes_run {i : Instr} {s : State} {f : Slot → Slot} {w : IWord} {m : M Flow} (h : exec i s = run w m s)
    (hm : m s = .ok .next (mapMe f s)) : completes i s f := completesAs_run h hm

/-- An instruction that retires with a transfer of control. -/
theorem jumps_goto {i : Instr} {s : State} {f : Slot → Slot} {a : Word} {p : Bool}
    (h : exec i s = .next (retire (.goto a p) (turnsOver s (mapMe f s)))) : jumps i s f a p := by
  obtain ⟨h1, h2, h3, h4, h5, h6⟩ := retire_goto a p (turnsOver s (mapMe f s))
  rw [turnsOver_me, me_mapMe] at h3 h4 h6
  exact ⟨_, h, h1, h2, h3, h4, h5, h6⟩

end Sys2Proof.Laws
end

