-- ==== Sys2Proof/Laws/Frame.lean ====
section
/-! SUPPORT. An access to memory that goes through changes no slot. -/

namespace Sys2Proof.Laws

open Sys2Proof Sys2Proof.Machine

/-- The slots and whose turn it is are the same. -/
def SameSlots (s t : State) : Prop := t.slots = s.slots ∧ t.cur = s.cur

theorem SameSlots.refl (s : State) : SameSlots s s := ⟨rfl, rfl⟩
theorem SameSlots.trans {s t u : State} (h : SameSlots s t) (g : SameSlots t u) : SameSlots s u :=
  ⟨g.1.trans h.1, g.2.trans h.2⟩
theorem SameSlots.me {s t : State} (h : SameSlots s t) : t.me = s.me := by
  unfold State.me State.slot; rw [h.1, h.2]

/-- An action that, when it goes through, leaves the slots. -/
def Keeps {α : Type} (m : M α) : Prop := ∀ s a t, m s = .ok a t → SameSlots s t

theorem Keeps.pure {α : Type} (a : α) : Keeps (pure a : M α) := by
  intro s b t h; cases h; exact SameSlots.refl s

theorem Keeps.bind {α β : Type} {m : M α} {f : α → M β} (h : Keeps m) (g : ∀ a, Keeps (f a)) : Keeps (m >>= f) := by
  intro s b t e
  rw [bind_run] at e
  split at e
  · rename_i a u ha
    exact (h s a u ha).trans (g a u b t e)
  · cases e

theorem Keeps.getS : Keeps getS := by intro s a t h; cases h; exact SameSlots.refl s
theorem Keeps.getMe : Keeps getMe := by intro s a t h; cases h; exact SameSlots.refl s
theorem Keeps.check (b : Bool) (c : Nat) (v : Word) : Keeps (check b c v) := by
  intro s a t h
  unfold Machine.check at h
  split at h
  · cases h; exact SameSlots.refl s
  · cases h
theorem Keeps.modS {f : State → State} (h : ∀ s, SameSlots s (f s)) : Keeps (modS f) := by
  intro s a t e; cases e; exact h s

theorem Keeps.forList {α : Type} (l : List α) {f : α → M Unit} (h : ∀ a, Keeps (f a)) : Keeps (forList l f) := by
  induction l with
  | nil => intro s a t e; cases e; exact SameSlots.refl s
  | cons x r ih =>
    intro s a t e
    unfold Machine.forList at e
    split at e
    · rename_i s' hx
      exact (h x s _ s' hx).trans (ih s' a t e)
    · cases e

theorem Keeps.collect {α β : Type} (l : List α) {f : α → M β} (h : ∀ a, Keeps (f a)) : Keeps (collect l f) := by
  induction l with
  | nil => intro s a t e; cases e; exact SameSlots.refl s
  | cons x r ih =>
    intro s a t e
    unfold Machine.collect at e
    split at e
    · rename_i b s' hx
      split at e
      · rename_i bs s'' hr
        cases e
        exact (h x s _ s' hx).trans (ih s' _ _ hr)
      · cases e
    · cases e

theorem SameButMemory.slotsToo {s t : State} (h : SameButMemory s t) : SameSlots s t := ⟨h.slots, h.cur⟩

theorem same_setL1 (c : CoreId) (n : Nat) (l : Line) (s : State) : SameSlots s (setL1 c n l s) := ⟨rfl, rfl⟩
theorem same_setBuf (c : ClusterId) (n : Nat) (l : Line) (s : State) : SameSlots s (setBuf c n l s) := ⟨rfl, rfl⟩
theorem same_setStq (q : SeqId) (n : Nat) (l : Line) (s : State) : SameSlots s (setStq q n l s) := ⟨rfl, rfl⟩
theorem same_padPut (c : CoreId) (o : Nat) (b : Byte) (s : State) : SameSlots s (padPut c o b s) := ⟨rfl, rfl⟩
theorem same_keepEntry (c : Cached) (s : State) : SameSlots s (keepEntry c s) := ⟨rfl, rfl⟩

theorem same_foldl {α : Type} (f : State → α → State) (h : ∀ s a, SameSlots s (f s a)) (l : List α) (s : State) :
    SameSlots s (l.foldl f s) := by
  induction l generalizing s with
  | nil => exact SameSlots.refl s
  | cons a l ih => exact (h s a).trans (ih _)

theorem same_foldr {α : Type} (f : α → State → State) (h : ∀ a s, SameSlots s (f a s)) (l : List α) (s : State) :
    SameSlots s (l.foldr f s) := by
  induction l with
  | nil => exact SameSlots.refl s
  | cons a l ih => exact ih.trans (h a _)

theorem same_remember (a : Agent) (va : Nat) (w : Walked) (e : Word) (s : State) : SameSlots s (remember a va w e s) :=
  (same_foldr _ (fun _ _ => same_keepEntry _ _) _ _).trans (same_keepEntry _ _)

theorem same_arrive (w : Writer) (pa : Nat) (a : HeldAct) (s : State) : SameSlots s (arrive w pa a s) := by
  unfold arrive
  split
  · exact ⟨rfl, rfl⟩
  · exact (performAct_same _ _ _).slotsToo

theorem same_takeTurn (w : Writer) (pa : Nat) (s : State) : SameSlots s (takeTurn w pa s) := by
  unfold takeTurn
  split
  · exact SameSlots.refl s
  · split
    · exact SameSlots.refl s
    · exact SameSlots.trans (t := { s with transit := _ }) ⟨rfl, rfl⟩ (same_arrive _ _ _ _)

theorem same_homeBack {w : Writer} {cl : ClusterId} {pa : Nat} {b : List Byte} {s t : State}
    (h : homeBack w cl pa b s = some t) : SameSlots s t := by
  unfold homeBack at h
  split at h
  · cases h
  · split at h
    · cases h; exact (performAct_same _ _ _).slotsToo
    · split at h
      · cases h
      · dsimp only at h
        cases h
        split
        · exact ⟨rfl, rfl⟩
        · exact SameSlots.trans (t := { s with transit := _ }) ⟨rfl, rfl⟩ (drain_same _ _).slotsToo

theorem same_deviceAct (pa : Nat) (a : HeldAct) (s : State) : SameSlots s (deviceAct pa a s) := by
  unfold deviceAct
  split
  · exact SameSlots.refl s
  · exact same_arrive _ _ _ _

theorem same_gatherAt (c : Option CoreId) (cl : Option ClusterId) (n : Nat) (s : State) : SameSlots s (gatherAt c cl n s) := by
  unfold gatherAt
  split
  · exact SameSlots.refl s
  · cases c <;> cases cl <;> exact ⟨rfl, rfl⟩

theorem same_stqBack (q : SeqId) (n : Nat) (uo : Bool) (s : State) : SameSlots s (stqBack q n uo s) := by
  unfold stqBack
  dsimp only
  split
  · exact SameSlots.refl s
  · exact ⟨rfl, rfl⟩

theorem same_l1Back (c : CoreId) (n : Nat) (uo : Bool) (s : State) : SameSlots s (l1Back c n uo s) := by
  unfold l1Back
  dsimp only
  split
  · exact SameSlots.refl s
  · exact ⟨rfl, rfl⟩

theorem same_bufByteBack (cl : ClusterId) (n i : Nat) (s : State) : SameSlots s (bufByteBack cl n i s) := by
  unfold bufByteBack
  dsimp only
  split
  · split
    · rename_i e; exact (same_homeBack e).trans ⟨rfl, rfl⟩
    · exact SameSlots.refl s
  · split
    · rename_i e; exact (same_homeBack e).trans ⟨rfl, rfl⟩
    · exact SameSlots.refl s
  · exact ⟨rfl, rfl⟩

theorem same_bufBack (cl : ClusterId) (n : Nat) (uo : Bool) (s : State) : SameSlots s (bufBack cl n uo s) := by
  unfold bufBack
  dsimp only
  split
  · exact SameSlots.refl s
  · have k' : ∀ m : BitVec 64, SameSlots s ((List.range 64).foldl
        (fun s i => if m.getLsbD i then bufByteBack cl n i s else s) s) := fun m =>
      same_foldl _ (fun u i => by
        split
        · exact same_bufByteBack _ _ _ _
        · exact SameSlots.refl u) _ s
    split
    · exact (k' _).trans ⟨rfl, rfl⟩
    · exact k' _

/-- Pushing an agent's written bytes of a line down to the home changes no slot. -/
theorem same_pushDown (c : Option CoreId) (cl : Option ClusterId) (q : Option SeqId) (n : Nat) (s : State) :
    SameSlots s (pushDown c cl q n s) := by
  unfold pushDown
  dsimp only
  have k1 := same_gatherAt c cl n s
  generalize gatherAt c cl n s = s1 at k1
  refine k1.trans ?_
  cases q <;> cases c <;> cases cl <;> dsimp only
  · exact SameSlots.refl _
  · exact same_bufBack _ _ _ _
  · exact same_l1Back _ _ _ _
  · exact (same_l1Back _ _ _ _).trans (same_bufBack _ _ _ _)
  · exact same_stqBack _ _ _ _
  · exact (same_stqBack _ _ _ _).trans (same_bufBack _ _ _ _)
  · exact (same_stqBack _ _ _ _).trans (same_l1Back _ _ _ _)
  · exact ((same_stqBack _ _ _ _).trans (same_l1Back _ _ _ _)).trans (same_bufBack _ _ _ _)

/-- The write-back before a walk or a fetch reads changes no slot. -/
theorem same_settleLine (a : Agent) (pa n : Nat) (s : State) : SameSlots s (settleLine a pa n s) := by
  unfold settleLine
  split
  · exact same_pushDown _ _ _ _ _
  · exact SameSlots.refl s

theorem same_showEntry (a : Agent) (pa : Nat) (bs : List Byte) (s : State) : SameSlots s (showEntry a pa bs s) := by
  obtain ⟨x, c, cl, q, r⟩ := a
  unfold showEntry
  cases c <;> cases cl <;> dsimp only <;> (try split_ifs) <;> exact ⟨rfl, rfl⟩

theorem homeRead_same {w : Writer} {pa n : Nat} {va : Word} {s t : State} {b : List Byte} (h : homeRead w pa n va s = .ok b t) :
    t = s := by
  unfold homeRead at h
  split at h
  · cases h
  · split at h
    · cases h
    · split at h
      · cases h
      · cases h; rfl

theorem Keeps.homeRead (w : Writer) (pa n : Nat) (va : Word) : Keeps (homeRead w pa n va) := by
  intro s a t h
  rw [homeRead_same h]; exact SameSlots.refl s

theorem Keeps.homeWrite (w : Writer) (pa : Nat) (b : List Byte) (va : Word) : Keeps (homeWrite w pa b va) := by
  intro s a t h
  unfold Machine.homeWrite at h
  split at h
  · cases h
  · split at h
    · cases h
    · split at h
      · split at h
        · cases h
        · cases h; exact same_arrive _ _ _ _
      · cases h; exact same_arrive _ _ _ _

theorem Keeps.homeSettled (w : Writer) (pa : Nat) (va : Word) : Keeps (homeSettled w pa va) := by
  intro s a t h
  unfold Machine.homeSettled at h
  split at h
  · cases h
  · split at h
    · cases h
    · cases h; exact SameSlots.refl s

theorem Keeps.asOne {α : Type} (w : Writer) (pa : Nat) (va : Word) {m : M α} (k : Keeps m) : Keeps (asOne w pa va m) := by
  intro s x t h
  unfold Machine.asOne at h
  split at h
  · cases h
  · rename_i s1 e
    have k1 := Keeps.homeSettled _ _ _ _ _ _ e
    split at h
    · exact k1.trans (k _ _ _ h)
    · dsimp only at h
      split at h
      · rename_i e2
        cases h
        have k2 := k _ _ _ e2
        refine k1.trans (SameSlots.trans (t := { s1 with transit := _ }) ⟨rfl, rfl⟩ (k2.trans ?_))
        exact ⟨(drain_same _ _).slots, (drain_same _ _).cur⟩
      · cases h

theorem Keeps.homeQuad (w : Writer) (pa : Nat) (va : Word) : Keeps (homeQuad w pa va) := by
  intro s x t h
  unfold Machine.homeQuad at h
  split at h
  · rename_i e; cases h; exact Keeps.homeRead _ _ _ _ _ _ _ e
  · cases h

theorem Keeps.entryFault {α : Type} (a : Agent) (va : Word) {m : M α} (k : Keeps m) : Keeps (entryFault a va m) := by
  intro s x t h
  unfold Machine.entryFault at h
  split at h
  · split at h <;> cases h
  · exact k _ _ _ h

theorem Keeps.readEntry (a : Agent) (pa : Nat) (va : Word) : Keeps (readEntry a pa va) := by
  intro s x t h
  exact (same_settleLine a pa 8 s).trans (Keeps.entryFault a va (Keeps.homeQuad _ _ _) _ _ _ h)

theorem Keeps.nodeAt (a : Agent) (va : Word) (lvl pa : Nat) : Keeps (nodeAt a va lvl pa) := by
  intro s x t h
  unfold Machine.nodeAt at h
  split at h
  · cases h; exact SameSlots.refl s
  · exact Keeps.readEntry _ _ _ _ _ _ h

theorem Keeps.walk (a : Agent) (va : Word) (lvl t : Nat) : Keeps (walk a va lvl t) := by
  induction lvl generalizing t with
  | zero =>
    intro s x u h
    unfold Machine.walk at h
    dsimp only at h
    split at h
    · cases h
    · rename_i e
      split at h
      · cases h
      · split at h
        · cases h; exact Keeps.nodeAt _ _ _ _ _ _ _ e
        · cases h
  | succ l ih =>
    intro s x u h
    unfold Machine.walk at h
    dsimp only at h
    split at h
    · cases h
    · rename_i e
      have k := Keeps.nodeAt _ _ _ _ _ _ _ e
      split at h
      · cases h
      · split at h
        · cases h; exact k
        · split at h
          · cases h
          · split at h
            · cases h
            · rename_i e'
              cases h
              exact k.trans (ih _ _ _ _ e')

theorem Keeps.hostPage (a : Agent) (pa : Nat) (va : Word) : Keeps (hostPage a pa va) := by
  intro s x t h
  unfold Machine.hostPage at h
  split at h
  · dsimp only at h
    split at h
    · cases h; exact SameSlots.refl s
    · split at h
      · split at h <;> cases h
      · split at h
        · cases h
        · cases h; exact ⟨rfl, rfl⟩
  · cases h; exact SameSlots.refl s

theorem Keeps.peerPage (pa : Nat) (va : Word) : Keeps (peerPage pa va) := by
  intro s x t h
  unfold Machine.peerPage at h
  split at h
  · dsimp only at h
    split at h
    · cases h; exact SameSlots.refl s
    · cases h
  · cases h; exact SameSlots.refl s

theorem Keeps.locOf (a : Agent) (pa : Nat) (va : Word) (leaf : Nat) (e : Word) : Keeps (locOf a pa va leaf e) :=
  (Keeps.hostPage _ _ _).bind fun _ => (Keeps.peerPage _ _).bind fun _ => Keeps.pure _

theorem Keeps.setBits (a : Agent) (leaf : Nat) (old new va : Word) : Keeps (setBits a leaf old new va) := by
  unfold Machine.setBits
  split
  · exact Keeps.pure _
  · refine Keeps.entryFault _ _ (Keeps.asOne _ _ _ ((Keeps.homeQuad _ _ _).bind fun q => ?_))
    dsimp only
    split
    · exact (Keeps.homeWrite _ _ _ _).bind fun _ => (Keeps.modS fun _ => same_showEntry _ _ _ _).bind fun _ => Keeps.pure _
    · exact Keeps.pure _

theorem Keeps.waitFor {α : Type} (k : HoldKind) : Keeps (waitFor k : M α) := by
  intro s a t h; cases h

theorem Keeps.walkTranslate (a : Agent) (k : AccKind) (va : Word) (n : Nat) : Keeps (walkTranslate a k va n) := by
  induction n with
  | zero => exact Keeps.waitFor _
  | succ n ih =>
    unfold Machine.walkTranslate
    refine (Keeps.walk _ _ _ _).bind fun w => (Keeps.check _ _ _).bind fun _ => (Keeps.check _ _ _).bind fun _ => ?_
    refine (Keeps.setBits _ _ _ _ _).bind fun b => ?_
    cases b
    · exact ih
    · exact Keeps.getS.bind fun _ => (Keeps.check _ _ _).bind fun _ =>
        (Keeps.modS fun _ => same_remember _ _ _ _ _).bind fun _ => Keeps.locOf _ _ _ _ _

theorem Keeps.cachedTranslate (a : Agent) (k : AccKind) (va : Word) (c : Cached) : Keeps (cachedTranslate a k va c) := by
  unfold Machine.cachedTranslate
  refine (Keeps.check _ _ _).bind fun _ => (Keeps.setBits _ _ _ _ _).bind fun b => ?_
  cases b
  · exact Keeps.walkTranslate _ _ _ _
  · refine Keeps.getS.bind fun _ => (Keeps.check _ _ _).bind fun _ => (Keeps.modS fun s => ?_).bind fun _ => Keeps.locOf _ _ _ _ _
    split
    · exact SameSlots.refl s
    · exact same_keepEntry _ _

/-- A translation that goes through leaves the slots. -/
theorem Keeps.translate (a : Agent) (k : AccKind) (va : Word) : Keeps (translate a k va) := by
  intro s x t h
  unfold Machine.translate at h
  split at h
  · cases h
  · split at h
    · split at h
      · cases h
      · cases h; exact SameSlots.refl s
    · split at h
      · exact Keeps.cachedTranslate _ _ _ _ _ _ _ h
      · exact Keeps.walkTranslate _ _ _ _ _ _ _ h

theorem Keeps.homeGran (w : Writer) (pa : Nat) (va : Word) : Keeps (homeGran w pa va) := by
  intro s x t h
  unfold Machine.homeGran at h
  split at h
  · cases h; exact SameSlots.refl s
  · cases h; exact SameSlots.refl s
  · exact Keeps.homeRead _ _ _ _ _ _ _ h

theorem Keeps.bufGran (w : Writer) (cl : ClusterId) (ord n g : Nat) (va : Word) : Keeps (bufGran w cl ord n g va) := by
  intro s x t h
  unfold Machine.bufGran at h
  dsimp only at h
  split at h
  · split at h <;> cases h
    exact SameSlots.refl s
  · split at h
    · cases h
    · rename_i e
      cases h
      exact (Keeps.homeGran _ _ _ _ _ _ e).trans (same_setBuf _ _ _ _)

theorem Keeps.fillL1 (w : Writer) (c : CoreId) (ord n : Nat) (va : Word) : Keeps (fillL1 w c ord n va) := by
  refine Keeps.forList _ fun g => ?_
  intro s x t h
  dsimp only at h
  split at h
  · cases h; exact SameSlots.refl s
  · split at h
    · cases h
    · rename_i e
      cases h
      exact (Keeps.bufGran _ _ _ _ _ _ _ _ _ e).trans ⟨rfl, rfl⟩

theorem same_showRead (a : Agent) (lvl ord n g : Nat) (bs : List Byte) (s : State) : SameSlots s (showRead a lvl ord n g bs s) := by
  obtain ⟨x, c, cl, q, r⟩ := a
  unfold showRead
  dsimp only
  cases c <;> cases cl <;> dsimp only <;> (try split_ifs) <;> exact ⟨rfl, rfl⟩

theorem Keeps.levelGran (a : Agent) (lvl ord n g : Nat) (va : Word) : Keeps (levelGran a lvl ord n g va) := by
  have hk : Keeps (fun s => match Machine.homeGran { a.writer with ord := ord } (64 * n + g) va s with
      | .ok bs s' => (.ok bs (showRead a lvl ord n g bs s') : EStateM.Result Stop State (List Byte))
      | .error e s' => .error e s') := by
    intro s x t h
    dsimp only at h
    split at h
    · rename_i e; cases h; exact (Keeps.homeGran _ _ _ _ _ _ e).trans (same_showRead _ _ _ _ _ _ _)
    · cases h
  have hb : ∀ cl, Keeps (fun s => match Machine.bufGran a.writer cl ord n g va s with
      | .ok bs s' => (.ok bs (showRead a lvl ord n g bs s') : EStateM.Result Stop State (List Byte))
      | .error e s' => .error e s') := by
    intro cl s x t h
    dsimp only at h
    split at h
    · rename_i e; cases h; exact (Keeps.bufGran _ _ _ _ _ _ _ _ _ e).trans (same_showRead _ _ _ _ _ _ _)
    · cases h
  have hf : ∀ c, Keeps (fun s => match Machine.fillL1 a.writer c ord n va s with
      | .ok _ s' => (.ok ((l1Line s' c n).bytesAt g 8) s' : EStateM.Result Stop State (List Byte))
      | .error e s' => .error e s') := by
    intro c s x t h
    dsimp only at h
    split at h
    · rename_i e; cases h; exact Keeps.fillL1 _ _ _ _ _ _ _ _ e
    · cases h
  obtain ⟨x, c, cl, q, r⟩ := a
  rcases lvl with _ | _ | _ | _ | lvl <;> cases c <;> cases cl <;> first | exact hk | exact hb _ | exact hf _

theorem Keeps.readGran (a : Agent) (lvl ord pa k : Nat) (va : Word) : Keeps (readGran a lvl ord pa k va) := by
  intro s0 x t h
  unfold Machine.readGran at h
  dsimp only at h
  have key : SameSlots s0 (if ord = 1 then pushDown a.core a.cluster a.queue (pa / 64) (gatherAt a.core a.cluster (pa / 64) s0)
      else gatherAt a.core a.cluster (pa / 64) s0) := by
    split
    · exact (same_gatherAt _ _ _ _).trans (same_pushDown _ _ _ _ _)
    · exact same_gatherAt _ _ _ _
  generalize (if ord = 1 then pushDown a.core a.cluster a.queue (pa / 64) (gatherAt a.core a.cluster (pa / 64) s0)
      else gatherAt a.core a.cluster (pa / 64) s0) = s1 at key h
  split at h
  · cases h
  · split at h
    · cases h
    · split at h
      · cases h; exact key
      · split at h
        · cases h
        · rename_i e; cases h; exact key.trans (Keeps.levelGran _ _ _ _ _ _ _ _ _ e)

theorem same_queueWithout (a : Agent) (n i k : Nat) (s : State) : SameSlots s (queueWithout a n i k s) := by
  unfold queueWithout
  split
  · exact ⟨rfl, rfl⟩
  · exact SameSlots.refl s

theorem same_showWrite (a : Agent) (lvl n i : Nat) (bs : List Byte) (s : State) : SameSlots s (showWrite a lvl n i bs s) := by
  have k := same_queueWithout a n i bs.length s
  unfold showWrite
  generalize queueWithout a n i bs.length s = u at k
  refine k.trans ?_
  obtain ⟨x, c, cl, q, r⟩ := a
  dsimp only
  cases c <;> cases cl <;> dsimp only <;> (try split_ifs) <;> exact ⟨rfl, rfl⟩

theorem same_dropNear (a : Agent) (n i k : Nat) (s : State) : SameSlots s (dropNear a n i k s) := by
  have k' := same_queueWithout a n i k s
  unfold dropNear
  generalize queueWithout a n i k s = u at k'
  refine k'.trans ?_
  obtain ⟨x, c, cl, q, r⟩ := a
  dsimp only
  cases c <;> cases cl <;> exact ⟨rfl, rfl⟩

theorem Keeps.homePut (w : Writer) (pa : Nat) (bs : List Byte) (va : Word) : Keeps (homePut w pa bs va) := by
  intro s x t h
  unfold Machine.homePut at h
  split at h
  · cases h; exact SameSlots.refl s
  · cases h; exact SameSlots.refl s
  · exact Keeps.homeWrite _ _ _ _ _ _ _ h

theorem Keeps.writeGran (a : Agent) (lvl ord pa : Nat) (bs : List Byte) (va : Word) : Keeps (writeGran a lvl ord pa bs va) := by
  intro s0 x t h
  unfold Machine.writeGran at h
  dsimp only at h
  have k0 := same_gatherAt a.core a.cluster (pa / 64) s0
  generalize gatherAt a.core a.cluster (pa / 64) s0 = s at k0 h
  refine k0.trans ?_
  split at h
  · cases h; exact same_setStq _ _ _ _
  · cases h; exact (same_setL1 _ _ _ _).trans (same_showWrite _ _ _ _ _ _)
  · cases h; exact (same_setBuf _ _ _ _).trans (same_showWrite _ _ _ _ _ _)
  · split at h
    · split at h
      · rename_i e
        cases h
        exact (same_pushDown _ _ _ _ _).trans ((Keeps.homePut _ _ _ _ _ _ _ e).trans (same_dropNear _ _ _ _ _))
      · cases h
    · split at h
      · rename_i e
        cases h
        exact (Keeps.homePut _ _ _ _ _ _ _ e).trans (same_showWrite _ _ _ _ _ _)
      · cases h

theorem Keeps.strongOrder (a : Agent) (ord : Nat) : Keeps (strongOrder a ord) := by
  intro s x t h
  unfold Machine.strongOrder at h
  split at h
  · cases h
  · cases h; exact SameSlots.refl s

theorem Keeps.readBytes (a : Agent) (sc : Scope) (l : Loc) (n : Nat) (va : Word) : Keeps (readBytes a sc l n va) := by
  unfold Machine.readBytes
  split
  · intro s x t h
    dsimp only at h
    split at h
    · cases h
    · cases h; exact SameSlots.refl s
  · exact (Keeps.strongOrder _ _).bind fun _ => (Keeps.collect _ fun _ => Keeps.readGran _ _ _ _ _ _).bind fun _ => Keeps.pure _

theorem Keeps.readByte (a : Agent) (sc : Scope) (l : Loc) (va : Word) : Keeps (readByte a sc l va) :=
  (Keeps.readBytes _ _ _ _ _).bind fun _ => Keeps.pure _

theorem Keeps.readLoc (a : Agent) (sc : Scope) (l : Loc) (n : Nat) (va : Word) : Keeps (readLoc a sc l n va) :=
  (Keeps.readBytes _ _ _ _ _).bind fun _ => Keeps.pure _

theorem Keeps.writeBytesAt (a : Agent) (sc : Scope) (l : Loc) (bs : List Byte) (va : Word) : Keeps (writeBytesAt a sc l bs va) := by
  unfold Machine.writeBytesAt
  split
  · exact Keeps.modS fun s => same_foldl _ (fun _ _ => same_padPut _ _ _ _) _ _
  · exact (Keeps.strongOrder _ _).bind fun _ => Keeps.forList _ fun _ => Keeps.writeGran _ _ _ _ _ _

theorem Keeps.canWrite (l : Loc) (va : Word) : Keeps (canWrite l va) := by
  intro s x t h
  unfold Machine.canWrite at h
  split at h
  · cases h; exact SameSlots.refl s
  · split at h
    · split at h
      · cases h; exact SameSlots.refl s
      · cases h
    · split at h
      · cases h; exact SameSlots.refl s
      · cases h
    · cases h; exact SameSlots.refl s

theorem Keeps.writeLocBytes (a : Agent) (sc : Scope) (l : Loc) (bs : List Byte) (va : Word) : Keeps (writeLocBytes a sc l bs va) :=
  (Keeps.canWrite _ _).bind fun _ => Keeps.writeBytesAt _ _ _ _ _

/-- A write to a place that goes through leaves the slots. -/
theorem Keeps.writeLoc (a : Agent) (sc : Scope) (l : Loc) (n v : Nat) (va : Word) : Keeps (writeLoc a sc l n v va) :=
  Keeps.writeLocBytes _ _ _ _ _

theorem Keeps.loadN (a : Agent) (sc : Scope) (va : Word) (n : Nat) : Keeps (loadN a sc va n) :=
  (Keeps.translate _ _ _).bind fun _ => Keeps.readLoc _ _ _ _ _

theorem Keeps.storeN (a : Agent) (sc : Scope) (va : Word) (n v : Nat) : Keeps (storeN a sc va n v) :=
  (Keeps.translate _ _ _).bind fun _ => Keeps.writeLoc _ _ _ _ _ _

/-- A read-modify-write that goes through leaves the slots. -/
theorem Keeps.rmwLoc (a : Agent) (sc : Scope) (l : Loc) (n : Nat) (va : Word) (f : Nat → Option Nat) :
    Keeps (rmwLoc a sc l n va f) := by
  have act : Keeps (show M Nat from do
      let old ← Machine.readLoc a sc l n va
      match f old with
      | none => Pure.pure old
      | some v => do
        Machine.writeLoc a sc l n v va
        Pure.pure old) := by
    refine (Keeps.readLoc _ _ _ _ _).bind fun old => ?_
    split
    · exact Keeps.pure _
    · exact (Keeps.writeLoc _ _ _ _ _ _).bind fun _ => Keeps.pure _
  unfold Machine.rmwLoc
  dsimp only
  split
  · exact (Keeps.strongOrder _ _).bind fun _ => Keeps.asOne _ _ _ act
  · exact act

end Sys2Proof.Laws
end

