-- ==== Sys2Proof/Laws/Store.lean ====
section
/-! SUPPORT. Sparse stores: a write keeps the canonical form, and a read gives what was written last. -/

namespace Sys2Proof.Laws

open Sys2Proof.Machine

section
variable {α : Type} [DecidableEq α] {d : α}

/-- A lower bound of the keys, or none. -/
def above (lo : Option Nat) (a : Nat) : Prop := match lo with | none => True | some b => b < a

theorem wfFrom_cons {lo : Option Nat} {k : Nat} {v : α} {r : List (Nat × α)} :
    Sparse.wfFrom d lo ((k, v) :: r) = true ↔ above lo k ∧ v ≠ d ∧ Sparse.wfFrom d (some k) r = true := by
  cases lo <;> simp [Sparse.wfFrom, above, and_assoc]

/-- Keys below the bound of a canonical list are not listed. -/
theorem get_below {l : List (Nat × α)} {b a : Nat} (h : Sparse.wfFrom d (some b) l = true) (le : a ≤ b) : Sparse.get d l a = d := by
  induction l generalizing b with
  | nil => rfl
  | cons e r ih =>
    obtain ⟨k, v⟩ := e
    obtain ⟨h1, h2, h3⟩ := wfFrom_cons.mp h
    have : b < k := h1
    have ne : k ≠ a := by omega
    simp only [Sparse.get, if_neg ne]
    exact ih h3 (by omega)

theorem wfFrom_mono {l : List (Nat × α)} {lo : Option Nat} {b : Nat} (h : Sparse.wfFrom d (some b) l = true)
    (le : ∀ c, lo = some c → c ≤ b) : Sparse.wfFrom d lo l = true := by
  cases l with
  | nil => rfl
  | cons e r =>
    obtain ⟨k, v⟩ := e
    obtain ⟨h1, h2, h3⟩ := wfFrom_cons.mp h
    refine wfFrom_cons.mpr ⟨?_, h2, h3⟩
    cases lo with
    | none => trivial
    | some c => have := le c rfl; have : b < k := h1; show c < k; omega

theorem wfFrom_insert {l : List (Nat × α)} {lo : Option Nat} {a : Nat} {v : α} (h : Sparse.wfFrom d lo l = true)
    (ha : above lo a) (hv : v ≠ d) : Sparse.wfFrom d lo (Sparse.insert a v l) = true := by
  induction l generalizing lo with
  | nil => exact wfFrom_cons.mpr ⟨ha, hv, rfl⟩
  | cons e r ih =>
    obtain ⟨k, w⟩ := e
    obtain ⟨h1, h2, h3⟩ := wfFrom_cons.mp h
    unfold Sparse.insert
    split
    · rename_i lt
      exact wfFrom_cons.mpr ⟨ha, hv, wfFrom_cons.mpr ⟨lt, h2, h3⟩⟩
    · split
      · rename_i e
        subst e
        exact wfFrom_cons.mpr ⟨ha, hv, h3⟩
      · exact wfFrom_cons.mpr ⟨h1, h2, ih h3 (show k < a by omega)⟩

theorem wfFrom_filter {l : List (Nat × α)} {lo : Option Nat} (p : Nat × α → Bool) (h : Sparse.wfFrom d lo l = true) :
    Sparse.wfFrom d lo (l.filter p) = true := by
  induction l generalizing lo with
  | nil => rfl
  | cons e r ih =>
    obtain ⟨k, w⟩ := e
    obtain ⟨h1, h2, h3⟩ := wfFrom_cons.mp h
    simp only [List.filter_cons]
    split
    · exact wfFrom_cons.mpr ⟨h1, h2, ih h3⟩
    · refine wfFrom_mono (ih h3) ?_
      intro c e
      subst e
      exact Nat.le_of_lt h1

/-- A write keeps the canonical form. -/
theorem wf_set {l : List (Nat × α)} (a : Nat) (v : α) (h : Sparse.wf d l = true) : Sparse.wf d (Sparse.set d l a v) = true := by
  unfold Sparse.set
  split
  · exact wfFrom_filter _ h
  · rename_i hv
    exact wfFrom_insert h trivial hv

omit [DecidableEq α] in
theorem get_insert_self (l : List (Nat × α)) (a : Nat) (v : α) : Sparse.get d (Sparse.insert a v l) a = v := by
  induction l with
  | nil => simp [Sparse.insert, Sparse.get]
  | cons e r ih =>
    obtain ⟨k, w⟩ := e
    unfold Sparse.insert
    split
    · simp [Sparse.get]
    · split
      · simp [Sparse.get]
      · rename_i h1 h2
        simp only [Sparse.get, if_neg (show k ≠ a by omega)]
        exact ih

omit [DecidableEq α] in
theorem get_insert_ne (l : List (Nat × α)) (a b : Nat) (v : α) (h : b ≠ a) :
    Sparse.get d (Sparse.insert a v l) b = Sparse.get d l b := by
  induction l with
  | nil => simp [Sparse.insert, Sparse.get, Ne.symm h]
  | cons e r ih =>
    obtain ⟨k, w⟩ := e
    unfold Sparse.insert
    split
    · simp [Sparse.get, Ne.symm h]
    · split
      · rename_i e
        subst e
        simp [Sparse.get, Ne.symm h]
      · simp only [Sparse.get]
        split
        · rfl
        · exact ih

omit [DecidableEq α] in
theorem get_erase_self (l : List (Nat × α)) (a : Nat) : Sparse.get d (Sparse.erase l a) a = d := by
  induction l with
  | nil => rfl
  | cons e r ih =>
    obtain ⟨k, w⟩ := e
    unfold Sparse.erase at *
    simp only [List.filter_cons]
    split
    · rename_i h
      have : k ≠ a := by simpa using h
      simp only [Sparse.get, if_neg this]
      exact ih
    · exact ih

omit [DecidableEq α] in
theorem get_erase_ne (l : List (Nat × α)) (a b : Nat) (h : b ≠ a) : Sparse.get d (Sparse.erase l a) b = Sparse.get d l b := by
  induction l with
  | nil => rfl
  | cons e r ih =>
    obtain ⟨k, w⟩ := e
    unfold Sparse.erase at *
    simp only [List.filter_cons]
    split
    · simp only [Sparse.get]
      split
      · rfl
      · exact ih
    · rename_i hk
      have : k = a := by simpa using hk
      subst this
      simp only [Sparse.get, if_neg (Ne.symm h)]
      exact ih

/-- A read after a write. -/
theorem get_set (l : List (Nat × α)) (a b : Nat) (v : α) :
    Sparse.get d (Sparse.set d l a v) b = if b = a then v else Sparse.get d l b := by
  unfold Sparse.set
  split
  · rename_i hv
    split
    · rename_i e; subst e; rw [get_erase_self, hv]
    · rename_i e; exact get_erase_ne _ _ _ e
  · split
    · rename_i e; subst e; exact get_insert_self _ _ _
    · rename_i e; exact get_insert_ne _ _ _ _ e

end

/-! ## Physical memory -/

theorem memory_wf_write (m : List Host.Cell) (a : Nat) (b : Byte) (h : Memory.wf m = true) : Memory.wf (Memory.write m a b) = true :=
  wf_set a b h

theorem memory_wf_writeBytes (m : List Host.Cell) (a : Nat) (bs : List Byte) (h : Memory.wf m = true) :
    Memory.wf (Memory.writeBytes m a bs) = true := by
  induction bs generalizing m a with
  | nil => exact h
  | cons b r ih => exact ih _ _ (memory_wf_write _ _ _ h)

theorem memory_wf_filter (m : List Host.Cell) (p : Host.Cell → Bool) (h : Memory.wf m = true) : Memory.wf (m.filter p) = true :=
  wfFrom_filter p h

@[simp] theorem memory_read_write (m : List Host.Cell) (a b : Nat) (v : Byte) :
    Memory.read (Memory.write m a v) b = if b = a then v else Memory.read m b := get_set _ _ _ _

/-- A byte after several were written: the one at its place, or the old one outside them. -/
theorem memory_read_writeBytes (m : List Host.Cell) (a b : Nat) (bs : List Byte) :
    Memory.read (Memory.writeBytes m a bs) b = if a ≤ b ∧ b < a + bs.length then bs.getD (b - a) 0 else Memory.read m b := by
  induction bs generalizing m a with
  | nil => simp [Memory.writeBytes]
  | cons x r ih =>
    simp only [Memory.writeBytes, ih, memory_read_write, List.length_cons]
    by_cases h1 : b = a
    · subst h1
      simp
    · by_cases h2 : a + 1 ≤ b ∧ b < a + 1 + r.length
      · rw [if_pos h2, if_pos (by omega)]
        have : b - a = (b - (a + 1)) + 1 := by omega
        rw [this, List.getD_cons_succ]
      · rw [if_neg h2, if_neg h1, if_neg (by omega)]

theorem cellWrite_wf (pa : Nat) (bs : List Byte) (s : State) (h : Memory.wf s.mem = true) : Memory.wf (cellWrite pa bs s).mem = true :=
  memory_wf_writeBytes _ _ _ h

/-- The canonical form survives every access that performs at its address. -/
theorem performAct_wf (pa : Nat) (a : HeldAct) (s : State) (m : Memory.wf s.mem = true) :
    Memory.wf (performAct pa a s).mem = true := by
  cases a with
  | write bs => exact cellWrite_wf _ _ _ m
  | add n d sat => exact cellWrite_wf _ _ _ m
  | turn => exact m

theorem performHeld_wf (l : List HeldAccess) (s : State) (m : Memory.wf s.mem = true) : Memory.wf (performHeld l s).mem = true := by
  induction l generalizing s with
  | nil => exact m
  | cons h r ih =>
    unfold performHeld
    split
    · exact m
    · exact ih _ (performAct_wf _ _ _ m)

theorem drain_wf (line : Nat) (s : State) (m : Memory.wf s.mem = true) : Memory.wf (drain line s).mem = true :=
  performHeld_wf _ _ m

theorem replay_wf (line target : Nat) (s : State) (m : Memory.wf s.mem = true) : Memory.wf (replay line target s).mem = true := by
  unfold replay
  dsimp only
  split
  · exact m
  · exact drain_wf _ _ m

theorem arrive_wf (w : Writer) (pa : Nat) (a : HeldAct) (s : State) (m : Memory.wf s.mem = true) :
    Memory.wf (arrive w pa a s).mem = true := by
  unfold arrive
  split
  · exact m
  · exact performAct_wf _ _ _ m

theorem takeTurn_wf (w : Writer) (pa : Nat) (s : State) (m : Memory.wf s.mem = true) : Memory.wf (takeTurn w pa s).mem = true := by
  unfold takeTurn
  split
  · exact m
  · split
    · exact m
    · exact arrive_wf _ _ _ _ m

theorem dropTurns_wf (q : SeqId) (s : State) (m : Memory.wf s.mem = true) : Memory.wf (dropTurns q s).mem = true := by
  unfold dropTurns
  have : ∀ (l : List HeldAccess) (u : State), Memory.wf u.mem = true →
      Memory.wf (l.foldl (fun s h => if markOf s (h.addr / 64) = some .transit then s else drain (h.addr / 64) s) u).mem = true := by
    intro l
    induction l with
    | nil => intro u h; exact h
    | cons x r ih =>
      intro u h
      rw [List.foldl_cons]
      apply ih
      split
      · exact h
      · exact drain_wf _ _ h
  exact this _ _ m

theorem turnsOver_wf (s s' : State) (m : Memory.wf s'.mem = true) : Memory.wf (turnsOver s s').mem = true := by
  unfold turnsOver
  split
  · exact dropTurns_wf _ _ m
  · exact m

theorem deviceAct_wf (pa : Nat) (a : HeldAct) (s : State) (m : Memory.wf s.mem = true) : Memory.wf (deviceAct pa a s).mem = true := by
  unfold deviceAct
  split
  · exact m
  · exact arrive_wf _ _ _ _ m

theorem deviceWrite_wf (pa : Nat) (bs : List Byte) (s : State) (m : Memory.wf s.mem = true) :
    Memory.wf (deviceWrite pa bs s).mem = true := deviceAct_wf _ _ _ m

/-- The canonical form survives a write at a home agent. -/
theorem homeWrite_wf {w : Writer} {pa : Nat} {bs : List Byte} {va : Word} {s t : State} (h : homeWrite w pa bs va s = .ok () t)
    (m : Memory.wf s.mem = true) : Memory.wf t.mem = true := by
  unfold homeWrite at h
  split at h
  · cases h
  · split at h
    · cases h
    · split at h
      · split at h
        · cases h
        · cases h; exact arrive_wf _ _ _ _ m
      · cases h; exact arrive_wf _ _ _ _ m

/-- The canonical form survives a write-back. -/
theorem homeBack_wf {w : Writer} {cl : ClusterId} {pa : Nat} {bs : List Byte} {s t : State} (h : homeBack w cl pa bs s = some t)
    (m : Memory.wf s.mem = true) : Memory.wf t.mem = true := by
  unfold homeBack at h
  split at h
  · cases h
  · split at h
    · cases h; exact performAct_wf _ _ _ m
    · split at h
      · cases h
      · dsimp only at h
        cases h
        split
        · exact m
        · exact drain_wf _ _ m

/-! ## Numbers and bytes -/

@[simp] theorem bytesOfNat_length (n v : Nat) : (bytesOfNat n v).length = n := by
  induction n generalizing v with
  | zero => rfl
  | succ n ih => simp [bytesOfNat, ih]

theorem natOfBytes_bytesOfNat (n v : Nat) : natOfBytes (bytesOfNat n v) = v % 256 ^ n := by
  induction n generalizing v with
  | zero => simp [bytesOfNat, natOfBytes, Nat.mod_one]
  | succ n ih =>
    simp only [bytesOfNat, natOfBytes, ih, BitVec.toNat_ofNat]
    rw [show 256 ^ (n + 1) = 256 * 256 ^ n by rw [Nat.pow_succ, Nat.mul_comm], Nat.mod_mul]

end Sys2Proof.Laws
end

