-- ==== Sys2Proof/Laws/Line.lean ====
section
/-! SUPPORT. One byte of a line, of a cache and of a scratchpad, after another has been put (R228, R95). -/

namespace Sys2Proof.Laws

open Sys2Proof Sys2Proof.Machine

theorem line_byte_put_self (l : Line) (i : Nat) (b : Byte) (d u : Bool) (h : i < 64) : (l.put i b d u).byte i = b := by
  apply BitVec.eq_of_getLsbD_eq
  intro j hj
  simp only [Line.byte, Line.put, BitVec.getLsbD_extractLsb', BitVec.getLsbD_or, BitVec.getLsbD_and, BitVec.getLsbD_not,
    BitVec.getLsbD_shiftLeft, BitVec.getLsbD_setWidth]
  have h1 : 8 * i + j < 512 := by omega
  have h2 : ¬ (8 * i + j < 8 * i) := by omega
  have h3 : 8 * i + j - 8 * i = j := by omega
  have h4 : (0xFF#512).getLsbD j = true := by
    rw [BitVec.getLsbD_ofNat]
    have : (255 : Nat).testBit j = true := by interval_cases j <;> rfl
    simp [this, show j < 512 by omega]
  simp [h1, h2, h3, h4, hj, show j < 512 by omega]

theorem line_byte_put_ne (l : Line) (i k : Nat) (b : Byte) (d u : Bool) (h : k ≠ i) : (l.put i b d u).byte k = l.byte k := by
  apply BitVec.eq_of_getLsbD_eq
  intro j hj
  simp only [Line.byte, Line.put, BitVec.getLsbD_extractLsb', BitVec.getLsbD_or, BitVec.getLsbD_and, BitVec.getLsbD_not,
    BitVec.getLsbD_shiftLeft, BitVec.getLsbD_setWidth]
  by_cases h1 : 8 * k + j < 512
  · by_cases h2 : 8 * k + j < 8 * i
    · simp [h1, h2, hj]
    · have h3 : 8 ≤ 8 * k + j - 8 * i := by omega
      have h4 : (0xFF#512).getLsbD (8 * k + j - 8 * i) = false := by
        rw [BitVec.getLsbD_ofNat]
        have : (255 : Nat).testBit (8 * k + j - 8 * i) = false := Nat.testBit_lt_two_pow (lt_of_lt_of_le (by decide : 255 < 2 ^ 8) (Nat.pow_le_pow_right (by decide) h3))
        simp [this]
      have h5 : b.getLsbD (8 * k + j - 8 * i) = false := BitVec.getLsbD_of_ge _ _ h3
      simp [h1, h2, hj, h4, h5]
  · have : (l.data.getLsbD (8 * k + j)) = false := BitVec.getLsbD_of_ge _ _ (by omega)
    simp [h1, this]

theorem bit_set (v : BitVec 64) (i k : Nat) : (v ||| (1#64 <<< i)).getLsbD k = (v.getLsbD k || (decide (k = i) && decide (k < 64))) := by
  simp only [BitVec.getLsbD_or, BitVec.getLsbD_shiftLeft]
  by_cases h : k = i
  · subst h
    by_cases g : k < 64 <;> simp [g]
  · by_cases g : k < i
    · simp [g, h]
    · have : (1#64).getLsbD (k - i) = false := by
        rw [BitVec.getLsbD_one]; simp; omega
      simp [h, this]

theorem line_has_put (l : Line) (i k : Nat) (b : Byte) (d u : Bool) :
    (l.put i b d u).has k = (l.has k || (decide (k = i) && decide (k < 64))) := by
  unfold Line.has Line.put withBit
  rw [if_pos rfl]
  exact bit_set _ _ _

theorem line_byte_putAll (l : Line) (bs : List Byte) (d u : Bool) (i k : Nat) (h : i + bs.length ≤ 64) :
    (l.putAll i bs d u).byte k = if i ≤ k ∧ k < i + bs.length then bs.getD (k - i) 0 else l.byte k := by
  have key : ∀ (bs : List Byte) (m : Nat) (l : Line), i + m + bs.length ≤ 64 →
      ((bs.zipIdx m).foldl (fun l e => l.put (i + e.2) e.1 d u) l).byte k
        = if i + m ≤ k ∧ k < i + m + bs.length then bs.getD (k - (i + m)) 0 else l.byte k := by
    intro bs
    induction bs with
    | nil => intro m l _; simp
    | cons c r ih =>
      intro m l hm
      simp only [List.length_cons] at hm
      rw [List.zipIdx_cons, List.foldl_cons, ih (m + 1) _ (by omega)]
      by_cases e : k = i + m
      · subst e
        rw [if_neg (by omega), if_pos (by simp), line_byte_put_self _ _ _ _ _ (by omega)]
        simp
      · rw [line_byte_put_ne _ _ _ _ _ _ e]
        simp only [List.length_cons]
        by_cases g : i + (m + 1) ≤ k ∧ k < i + (m + 1) + r.length
        · rw [if_pos g, if_pos (by omega)]
          have : k - (i + m) = (k - (i + (m + 1))) + 1 := by omega
          rw [this, List.getD_cons_succ]
        · rw [if_neg g, if_neg (by omega)]
  exact key bs 0 l h

theorem line_has_putAll (l : Line) (bs : List Byte) (d u : Bool) (i k : Nat) (h : i + bs.length ≤ 64) :
    (l.putAll i bs d u).has k = (l.has k || decide (i ≤ k ∧ k < i + bs.length)) := by
  have key : ∀ (bs : List Byte) (m : Nat) (l : Line), i + m + bs.length ≤ 64 →
      ((bs.zipIdx m).foldl (fun l e => l.put (i + e.2) e.1 d u) l).has k
        = (l.has k || decide (i + m ≤ k ∧ k < i + m + bs.length)) := by
    intro bs
    induction bs with
    | nil => intro m l _; simp
    | cons c r ih =>
      intro m l hm
      simp only [List.length_cons] at hm
      rw [List.zipIdx_cons, List.foldl_cons, ih (m + 1) _ (by omega), line_has_put]
      rw [Bool.eq_iff_iff]
      simp only [Bool.or_eq_true, Bool.and_eq_true, decide_eq_true_eq, List.length_cons]
      constructor
      · rintro ((h | h) | h)
        · exact .inl h
        · right; omega
        · right; omega
      · rintro (h | h)
        · exact .inl (.inl h)
        · by_cases e : k = i + m
          · exact .inl (.inr ⟨e, by omega⟩)
          · right; omega
  exact key bs 0 l h

/-! ## The lines of a core -/

@[simp] theorem lineIn_putLine_self (ls : List (Nat × Line)) (n : Nat) (l : Line) : lineIn (putLine ls n l) n = l := by
  unfold lineIn putLine; rw [get_set]; simp

theorem lineIn_putLine_ne (ls : List (Nat × Line)) (n m : Nat) (l : Line) (h : m ≠ n) : lineIn (putLine ls n l) m = lineIn ls m := by
  unfold lineIn putLine; rw [get_set, if_neg h]

@[simp] theorem l1Line_setL1_self (c : CoreId) (n : Nat) (l : Line) (s : State) : l1Line (setL1 c n l s) c n = l := by
  unfold l1Line setL1; simp

theorem l1Line_setL1_ne (c : CoreId) (n m : Nat) (l : Line) (s : State) (h : m ≠ n) : l1Line (setL1 c n l s) c m = l1Line s c m := by
  unfold l1Line setL1; simp [lineIn_putLine_ne _ _ _ _ h]

@[simp] theorem bufLine_setL1 (c : CoreId) (n m : Nat) (l : Line) (s : State) (cl : ClusterId) : bufLine (setL1 c n l s) cl m = bufLine s cl m := rfl

end Sys2Proof.Laws
end

