-- ==== Sys2Proof/Laws/Vec.lean ====
section
/-! SUPPORT. Elements of vector registers after a write of one, and the loop that every element-wise instruction shares
(R103, R106). -/

namespace Sys2Proof.Laws

open Sys2Proof Sys2Proof.Machine

/-- One bit of a lane after a write of `w` bits at offset `o`. -/
theorem patch_bit (b : BitVec 32768) (o w v j : Nat) :
    ((b &&& ~~~(BitVec.ofNat 32768 (2 ^ w - 1) <<< o)) ||| (BitVec.ofNat 32768 (v % 2 ^ w) <<< o)).getLsbD j
      = if o ≤ j ∧ j < o + w then (decide (j < 32768) && v.testBit (j - o)) else b.getLsbD j := by
  by_cases hj : j < 32768
  · simp only [BitVec.getLsbD_or, BitVec.getLsbD_and, BitVec.getLsbD_not, BitVec.getLsbD_shiftLeft, BitVec.getLsbD_ofNat,
      Nat.testBit_mod_two_pow, Nat.testBit_two_pow_sub_one]
    by_cases h1 : o ≤ j
    · by_cases h2 : j < o + w
      · simp [hj, h1, h2, show ¬ j < o by omega, show j - o < w by omega, show j - o < 32768 by omega]
      · simp [hj, h1, h2, show ¬ j < o by omega, show ¬ j - o < w by omega]
    · simp [hj, h1, show j < o by omega]
  · rw [BitVec.getLsbD_of_ge _ _ (by omega), BitVec.getLsbD_of_ge b j (by omega)]
    split <;> simp [hj]

@[simp] theorem setElem_laneCount (t : Slot) (r w e v : Nat) : (t.setElem r w e v).laneCount = t.laneCount := rfl
@[simp] theorem setElem_slice (t : Slot) (r w e v : Nat) : (t.setElem r w e v).slice = t.slice := rfl

/-- One bit of the lanes after a write of an element. -/
theorem setElem_bit (t : Slot) (r w e v : Nat) (l : Fin 64) (j : Nat) :
    ((t.setElem r w e v).lanes[l]).getLsbD j
      = if e % t.laneCount = l.val ∧ r * t.slice + e / t.laneCount * w ≤ j ∧ j < r * t.slice + e / t.laneCount * w + w
        then (decide (j < 32768) && v.testBit (j - (r * t.slice + e / t.laneCount * w)))
        else (t.lanes[l]).getLsbD j := by
  unfold Slot.setElem
  dsimp only
  by_cases h : e % t.laneCount = l.val
  · have hb : t.lanes.toArray.getD (e % t.laneCount) 0 = t.lanes[l] := by
      rw [h]; simp [Array.getD]
    have e1 : (t.lanes.setIfInBounds (e % t.laneCount) ((t.lanes.toArray.getD (e % t.laneCount) 0 &&&
        ~~~(BitVec.ofNat 32768 (2 ^ w - 1) <<< (r * t.slice + e / t.laneCount * w))) |||
        (BitVec.ofNat 32768 (v % 2 ^ w) <<< (r * t.slice + e / t.laneCount * w))))[l]
        = ((t.lanes[l] &&& ~~~(BitVec.ofNat 32768 (2 ^ w - 1) <<< (r * t.slice + e / t.laneCount * w))) |||
        (BitVec.ofNat 32768 (v % 2 ^ w) <<< (r * t.slice + e / t.laneCount * w))) := by
      rw [hb]
      have : ∀ x, (t.lanes.setIfInBounds (e % t.laneCount) x)[l] = x := by
        intro x
        show (t.lanes.setIfInBounds (e % t.laneCount) x)[l.val] = x
        rw [Vector.getElem_setIfInBounds, if_pos h]
      exact this _
    rw [e1, patch_bit]
    simp [h]
  · have : ∀ x, (t.lanes.setIfInBounds (e % t.laneCount) x)[l] = t.lanes[l] := by
      intro x
      show (t.lanes.setIfInBounds (e % t.laneCount) x)[l.val] = t.lanes[l.val]
      rw [Vector.getElem_setIfInBounds, if_neg h]
    rw [this]
    simp [h]

/-- Bit `j` of element `e`, for an element that its slot holds. -/
theorem elem_testBit (t : Slot) (r w e j : Nat) (h : e % t.laneCount < 64) :
    (t.elem r w e).testBit j = (decide (j < w) && (t.lanes[(⟨e % t.laneCount, h⟩ : Fin 64)]).getLsbD (r * t.slice + e / t.laneCount * w + j)) := by
  unfold Slot.elem
  dsimp only
  have hb : t.lanes.toArray.getD (e % t.laneCount) 0 = t.lanes[(⟨e % t.laneCount, h⟩ : Fin 64)] := by simp [Array.getD, h]
  rw [hb, ← BitVec.getLsbD, BitVec.getLsbD_extractLsb']

/-- A bit belongs to one element of a group at most. -/
theorem inElement_unique {t : Slot} {r w e d l j : Nat} (h : inElement t r w e l j) (g : inElement t r w d l j) : e = d := by
  obtain ⟨h1, h2, h3⟩ := h
  obtain ⟨g1, g2, g3⟩ := g
  have q : e / t.laneCount = d / t.laneCount := by
    by_contra n
    rcases Nat.lt_or_gt_of_ne n with a | a
    · have := Nat.mul_le_mul_right w (Nat.succ_le_of_lt a)
      rw [Nat.succ_mul] at this
      omega
    · have := Nat.mul_le_mul_right w (Nat.succ_le_of_lt a)
      rw [Nat.succ_mul] at this
      omega
  have a := Nat.div_add_mod e t.laneCount
  have b := Nat.div_add_mod d t.laneCount
  rw [q, h1] at a
  rw [g1] at b
  omega

/-- One pass of the loop over elements: what it computes, what it zeroes, and the flags. -/
def pass (act zero : Nat → Bool) (r w : Nat) (f : Nat → FRes) (t : Slot) (e : Nat) : Slot :=
  if act e then (t.setElem r w e (f e).bits).raise (f e).flags else if zero e then t.setElem r w e 0 else t

/-- What a pass leaves of an element that it writes. -/
def passValue (act : Nat → Bool) (f : Nat → FRes) (e : Nat) : Nat := if act e then (f e).bits else 0

theorem pass_frame (act zero : Nat → Bool) (r w : Nat) (f : Nat → FRes) (t : Slot) (e : Nat) :
    pass act zero r w f t e = { t with lanes := (pass act zero r w f t e).lanes
                                       fflags := t.fflags ||| (if act e then (f e).flags else 0) } := by
  unfold pass
  split
  · rfl
  · split
    · simp [Slot.setElem]
    · simp

theorem pass_bit (act zero : Nat → Bool) (r w : Nat) (f : Nat → FRes) (t : Slot) (e : Nat) (l : Fin 64) (j : Nat) :
    ((pass act zero r w f t e).lanes[l]).getLsbD j
      = if (act e = true ∨ zero e = true) ∧ e % t.laneCount = l.val ∧ r * t.slice + e / t.laneCount * w ≤ j
            ∧ j < r * t.slice + e / t.laneCount * w + w
        then (decide (j < 32768) && (passValue act f e).testBit (j - (r * t.slice + e / t.laneCount * w)))
        else (t.lanes[l]).getLsbD j := by
  unfold pass passValue
  by_cases a : act e = true
  · rw [if_pos a, if_pos a]
    show (((t.setElem r w e (f e).bits).lanes[l]).getLsbD j) = _
    rw [setElem_bit]
    simp [a]
  · rw [if_neg a, if_neg a]
    by_cases z : zero e = true
    · rw [if_pos z, setElem_bit]
      simp [z]
    · rw [if_neg z]
      simp [a, z]

/-- A whole loop over elements without repetition. -/
theorem passes_spec (act zero : Nat → Bool) (r w : Nat) (f : Nat → FRes) (es : List Nat) (nd : es.Nodup) (t : Slot) :
    let u := es.foldl (pass act zero r w f) t
    u = { t with lanes := u.lanes, fflags := (es.filter act).foldl (fun g e => g ||| (f e).flags) t.fflags }
    ∧ (∀ (l : Fin 64) (j e : Nat), e ∈ es → (act e = true ∨ zero e = true) → inElement t r w e l.val j →
        (u.lanes[l]).getLsbD j = (decide (j < 32768) && (passValue act f e).testBit (j - (r * t.slice + e / t.laneCount * w))))
    ∧ (∀ (l : Fin 64) (j : Nat), (∀ e ∈ es, act e = true ∨ zero e = true → ¬ inElement t r w e l.val j) →
        (u.lanes[l]).getLsbD j = (t.lanes[l]).getLsbD j) := by
  induction es generalizing t with
  | nil => exact ⟨rfl, by simp, by simp⟩
  | cons a es ih =>
    have nd' := List.nodup_cons.mp nd
    intro u
    obtain ⟨h1, h2, h3⟩ := ih nd'.2 (pass act zero r w f t a)
    have fr := pass_frame act zero r w f t a
    have lc : (pass act zero r w f t a).laneCount = t.laneCount := by rw [fr]; rfl
    have sl : (pass act zero r w f t a).slice = t.slice := by rw [fr]; rfl
    have inE : ∀ e l j, inElement (pass act zero r w f t a) r w e l j ↔ inElement t r w e l j := by
      intro e l j; unfold inElement; rw [lc, sl]
    refine ⟨?_, ?_, ?_⟩
    · have e1 : (pass act zero r w f t a).fflags = t.fflags ||| (if act a then (f a).flags else 0) := by rw [fr]
      have e2 : (es.filter act).foldl (fun g e => g ||| (f e).flags) (pass act zero r w f t a).fflags
          = ((a :: es).filter act).foldl (fun g e => g ||| (f e).flags) t.fflags := by
        rw [e1, List.filter_cons]
        by_cases c : act a = true
        · simp only [c, if_true, List.foldl_cons]
        · have c' : act a = false := by simpa using c
          simp [c']
      have e3 := congrArg (fun z : Slot => { z with lanes := u.lanes, fflags := ((a :: es).filter act).foldl (fun g e => g ||| (f e).flags) t.fflags }) fr
      have h1' : u = { pass act zero r w f t a with lanes := u.lanes, fflags := (es.filter act).foldl (fun g e => g ||| (f e).flags) (pass act zero r w f t a).fflags } := h1
      rw [e2] at h1'
      exact h1'.trans e3
    · intro l j e he ha hi
      rcases List.mem_cons.mp he with rfl | he
      · have := h3 l j (by
          intro e' he' _ hi'
          rw [inE] at hi'
          have := inElement_unique hi hi'
          subst this; exact nd'.1 he')
        show ((es.foldl (pass act zero r w f) (pass act zero r w f t e)).lanes[l]).getLsbD j = _
        rw [this, pass_bit, if_pos ⟨ha, hi⟩]
      · have := h2 l j e he ha ((inE _ _ _).mpr hi)
        show ((es.foldl (pass act zero r w f) (pass act zero r w f t a)).lanes[l]).getLsbD j = _
        rw [this, sl, lc]
    · intro l j hn
      have := h3 l j (by intro e he ha hi; exact hn e (List.mem_cons_of_mem _ he) ha ((inE _ _ _).mp hi))
      show ((es.foldl (pass act zero r w f) (pass act zero r w f t a)).lanes[l]).getLsbD j = _
      rw [this, pass_bit, if_neg]
      rintro ⟨ha, hi⟩
      exact hn a (List.mem_cons_self) ha hi

/-- The value of an element whose bits are those of a number. -/
theorem elem_of_bits (t : Slot) (r w e v : Nat) (h : holdsElement t r w e)
    (hb : ∀ j, inElement t r w e (e % t.laneCount) j →
      (t.lanes[(⟨e % t.laneCount, h.1⟩ : Fin 64)]).getLsbD j = (decide (j < 32768) && v.testBit (j - (r * t.slice + e / t.laneCount * w)))) :
    t.elem r w e = v % 2 ^ w := by
  apply Nat.eq_of_testBit_eq
  intro j
  rw [elem_testBit _ _ _ _ _ h.1, Nat.testBit_mod_two_pow]
  by_cases c : j < w
  · have := h.2
    rw [hb _ ⟨rfl, by omega, by omega⟩]
    have e1 : r * t.slice + e / t.laneCount * w + j - (r * t.slice + e / t.laneCount * w) = j := by omega
    rw [e1]
    simp [c, show r * t.slice + e / t.laneCount * w + j < 32768 by omega]
  · simp [c]

/-! ## The ends of the loop -/

theorem nodup_eraseDups_nat (l : List Nat) : l.eraseDups.Nodup := by
  induction h : l.length using Nat.strong_induction_on generalizing l with
  | _ n ih =>
    cases l with
    | nil => simp
    | cons a r =>
      rw [List.eraseDups_cons, List.nodup_cons]
      refine ⟨?_, ?_⟩
      · rw [List.mem_eraseDups, List.mem_filter]; simp
      · have le := List.length_filter_le (fun b => !b == a) r
        simp only [List.length_cons] at h
        exact ih _ (by omega) _ rfl

/-- A bound register is one of v24 to v31. -/
theorem bound_range {t : Slot} {r : Nat} (h : (t.binding r).bound = true) : 24 ≤ r ∧ r < 32 := by
  unfold Slot.binding at h
  split at h
  · assumption
  · simp [Binding.bound] at h

theorem binding_setBinding (t : Slot) (r q : Nat) (b : Binding) (hr : 24 ≤ r ∧ r < 32) :
    (t.setBinding r b).binding q = if q = r then b else t.binding q := by
  unfold Slot.setBinding Slot.binding
  by_cases hq : 24 ≤ q ∧ q < 32
  · rw [if_pos hq, if_pos hq]
    by_cases e : q = r
    · subst e
      rw [if_pos rfl]
      simp [Array.getD, show q - 24 < 8 by omega]
    · rw [if_neg e]
      simp [Array.getD, show q - 24 < 8 by omega, show ¬ r - 24 = q - 24 by omega]
  · rw [if_neg hq, if_neg hq, if_neg (by rintro rfl; exact hq hr)]

theorem setBinding_frame (t : Slot) (r : Nat) (b : Binding) : t.setBinding r b = { t with streams := (t.setBinding r b).streams } := rfl

/-- The pops of an instruction that goes through. -/
theorem pops_spec (v : Nat) (ns : List Nat) (nd : ns.Nodup) (hr : ∀ n ∈ ns, 24 ≤ n ∧ n < 32) (t : Slot) (ht : t.vl = v) :
    let u := ns.foldl (fun t n => t.setBinding n ((t.binding n).pop t.vl)) t
    u = { t with streams := u.streams } ∧ ∀ q, u.binding q = if q ∈ ns then (t.binding q).pop v else t.binding q := by
  induction ns generalizing t with
  | nil => exact ⟨rfl, by simp⟩
  | cons a ns ih =>
    have nd' := List.nodup_cons.mp nd
    intro u
    obtain ⟨h1, h2⟩ := ih nd'.2 (fun n h => hr n (List.mem_cons_of_mem _ h)) (t.setBinding a ((t.binding a).pop t.vl)) ht
    refine ⟨h1, ?_⟩
    intro q
    show (ns.foldl _ (t.setBinding a ((t.binding a).pop t.vl))).binding q = _
    rw [h2, binding_setBinding _ _ _ _ (hr a List.mem_cons_self), ht]
    by_cases e : q = a
    · subst e; simp [nd'.1]
    · simp [e]

theorem streams_ext (a b : Slot) (h : ∀ q, a.binding q = b.binding q) : a.streams = b.streams := by
  apply Vector.ext
  intro i hi
  have := h (24 + i)
  unfold Slot.binding at this
  rw [if_pos (by omega), if_pos (by omega)] at this
  simpa [Array.getD, hi] using this

theorem binding_streamsAfter (t : Slot) (os : List VOp) (q : Nat) :
    ({ t with streams := streamsAfter t os } : Slot).binding q
      = if os.any (fun o => o.r.toNat == q && (t.binding q).bound) then (t.binding q).pop t.vl else t.binding q := by
  by_cases hq : 24 ≤ q ∧ q < 32
  · have e : ({ t with streams := streamsAfter t os } : Slot).binding q = (streamsAfter t os)[q - 24] := by
      unfold Slot.binding
      rw [if_pos hq]
      simp [Array.getD, show q - 24 < 8 by omega]
    rw [e]
    unfold streamsAfter
    rw [Vector.getElem_ofFn]
    have : 24 + (q - 24) = q := by omega
    simp only [this]
  · have b : t.binding q = .unbound := by unfold Slot.binding; rw [if_neg hq]
    have e : ({ t with streams := streamsAfter t os } : Slot).binding q = .unbound := by unfold Slot.binding; rw [if_neg hq]
    rw [e, b]
    simp [Binding.bound]

/-- The streams after an instruction without a write stream among its operands. -/
theorem pops_streams (t : Slot) (os : List VOp) (h : t.sinkOf os = none) :
    (t.streamsOf os ++ (t.sinkOf os).toList).foldl (fun t n => t.setBinding n ((t.binding n).pop t.vl)) t
      = { t with streams := streamsAfter t os } := by
  rw [h, Option.toList_none, List.append_nil]
  have hr : ∀ n ∈ t.streamsOf os, 24 ≤ n ∧ n < 32 := by
    intro n hn
    unfold Slot.streamsOf at hn
    rw [List.mem_eraseDups, List.mem_map] at hn
    obtain ⟨o, ho, rfl⟩ := hn
    rw [List.mem_filter] at ho
    have := ho.2
    simp only [Bool.and_eq_true] at this
    exact bound_range this.2
  obtain ⟨h1, h2⟩ := pops_spec t.vl _ (nodup_eraseDups_nat _) hr t rfl
  rw [show t.streamsOf os = ((os.filter fun o => !o.dest && (t.binding o.r.toNat).bound).map (·.r.toNat)).eraseDups from rfl, h1]
  congr 1
  refine streams_ext _ { t with streams := streamsAfter t os } ?_
  intro q
  rw [h2, binding_streamsAfter]
  have : (q ∈ ((os.filter fun o => !o.dest && (t.binding o.r.toNat).bound).map (·.r.toNat)).eraseDups)
      ↔ (os.any fun o => o.r.toNat == q && (t.binding q).bound) = true := by
    rw [List.mem_eraseDups, List.mem_map, List.any_eq_true]
    constructor
    · rintro ⟨o, ho, rfl⟩
      rw [List.mem_filter] at ho
      have := ho.2
      simp only [Bool.and_eq_true] at this
      exact ⟨o, ho.1, by simp [this.2]⟩
    · rintro ⟨o, ho, hb⟩
      simp only [Bool.and_eq_true, beq_iff_eq] at hb
      refine ⟨o, ?_, hb.1⟩
      rw [List.mem_filter]
      refine ⟨ho, ?_⟩
      have hd : o.dest = false := by
        by_contra c
        have c' : o.dest = true := by simpa using c
        unfold Slot.sinkOf at h
        rw [Option.map_eq_none_iff, List.find?_eq_none] at h
        exact h o ho (by simp [c', hb.1, hb.2])
      simp [hd, hb.1, hb.2]
  by_cases c : (os.any fun o => o.r.toNat == q && (t.binding q).bound) = true
  · rw [if_pos c, if_pos (this.mpr c)]
  · rw [if_neg c, if_neg (fun m => c (this.mp m))]

theorem mem_elemRange (lo hi e : Nat) : e ∈ elemRange lo hi ↔ lo ≤ e ∧ e < hi := by
  unfold elemRange
  rw [List.mem_map]
  constructor
  · rintro ⟨a, ha, rfl⟩
    rw [List.mem_range] at ha
    omega
  · rintro ⟨h1, h2⟩
    exact ⟨e - lo, by rw [List.mem_range]; omega, by omega⟩

theorem nodup_elemRange (lo hi : Nat) : (elemRange lo hi).Nodup := by
  unfold elemRange
  exact List.Nodup.map (fun a b h => by simpa using h) List.nodup_range

theorem or_foldl (f : Nat → FRes) (l : List Nat) (g : FFlags) :
    l.foldl (fun g e => g ||| (f e).flags) g = g ||| l.foldl (fun g e => g ||| (f e).flags) 0 := by
  induction l generalizing g with
  | nil => simp
  | cons a l ih => rw [List.foldl_cons, ih, List.foldl_cons, ih (0 ||| (f a).flags)]; simp [BitVec.or_assoc]

/-- The slot that the loop leaves, before `vstart`, `vstate` and the streams are set. -/
def looped (t : Slot) (vd : Reg) (w : Nat) (x : Elements) (f : Nat → FRes) : Slot :=
  let u := (elemRange x.lo x.d).foldl (pass x.act x.zero vd.toNat w f) t
  if t.tailZero then (elemRange x.tail x.dmax).foldl (fun t' e => t'.setElem vd.toNat w e 0) u else u

theorem looped_spec (t : Slot) (vd : Reg) (w : Nat) (x : Elements) (f : Nat → FRes) :
    looped t vd w x f = { t with lanes := (looped t vd w x f).lanes, fflags := t.fflags ||| x.flags f }
    ∧ (∀ e, holdsElement t vd.toNat w e →
        (x.clears t e → { t with lanes := (looped t vd w x f).lanes }.elem vd.toNat w e = 0)
        ∧ (x.computes e → ¬ x.clears t e → { t with lanes := (looped t vd w x f).lanes }.elem vd.toNat w e = (f e).bits % 2 ^ w))
    ∧ (∀ (l : Fin 64) (j : Nat), (∀ e, x.computes e ∨ x.clears t e → ¬ inElement t vd.toNat w e l.val j) →
        ((looped t vd w x f).lanes[l]).getLsbD j = (t.lanes[l]).getLsbD j) := by
  obtain ⟨a1, a2, a3⟩ := passes_spec x.act x.zero vd.toNat w f _ (nodup_elemRange x.lo x.d) t
  generalize hu : (elemRange x.lo x.d).foldl (pass x.act x.zero vd.toNat w f) t = u at a1 a2 a3
  obtain ⟨b1, b2, b3⟩ := passes_spec (fun _ => false) (fun _ => t.tailZero) vd.toNat w f _ (nodup_elemRange x.tail x.dmax) u
  have hz : ∀ (l : List Nat) (u : Slot), l.foldl (pass (fun _ => false) (fun _ => t.tailZero) vd.toNat w f) u
      = if t.tailZero then l.foldl (fun t' e => t'.setElem vd.toNat w e 0) u else u := by
    intro l
    induction l with
    | nil => intro u; simp
    | cons a l ih =>
      intro u
      rw [List.foldl_cons, ih]
      by_cases c : t.tailZero = true
      · simp [c, pass]
      · have c' : t.tailZero = false := by simpa using c
        simp [c', pass]
  have hl : looped t vd w x f = (elemRange x.tail x.dmax).foldl (pass (fun _ => false) (fun _ => t.tailZero) vd.toNat w f) u := by
    rw [hz, ← hu]; rfl
  rw [← hl] at b1 b2 b3
  generalize looped t vd w x f = v at b1 b2 b3
  have lcu : u.laneCount = t.laneCount := by rw [a1]; rfl
  have slu : u.slice = t.slice := by rw [a1]; rfl
  have inE : ∀ e l j, inElement u vd.toNat w e l j ↔ inElement t vd.toNat w e l j := by
    intro e l j; unfold inElement; rw [lcu, slu]
  have ff : u.fflags = t.fflags ||| x.flags f := by rw [a1]; exact or_foldl _ _ _
  refine ⟨?_, ?_, ?_⟩
  · have e3 := congrArg (fun z : Slot => { z with lanes := v.lanes, fflags := t.fflags ||| x.flags f }) a1
    have b1' : v = { u with lanes := v.lanes, fflags := u.fflags } := by
      have : (elemRange x.tail x.dmax).filter (fun _ => false) = [] := by simp
      rw [this] at b1
      exact b1
    rw [ff] at b1'
    exact b1'.trans e3
  · intro e he
    refine ⟨?_, ?_⟩
    · intro hc
      have := elem_of_bits { t with lanes := v.lanes } vd.toNat w e 0 he ?_
      · simpa using this
      · intro j hj
        show (v.lanes[(⟨e % t.laneCount, he.1⟩ : Fin 64)]).getLsbD j = _
        by_cases tl : t.tailZero = true ∧ x.tail ≤ e ∧ e < x.dmax
        · rw [b2 ⟨e % t.laneCount, he.1⟩ j e ((mem_elemRange _ _ _).mpr tl.2) (.inr tl.1) ((inE _ _ _).mpr hj)]
          simp [passValue]
        · rw [b3 ⟨e % t.laneCount, he.1⟩ j (by
            intro e' m c' i'
            have := inElement_unique hj ((inE _ _ _).mp i')
            subst this
            rcases c' with c' | c'
            · simp at c'
            · exact tl ⟨c', (mem_elemRange _ _ _).mp m⟩)]
          rcases hc with hc | hc
          · rw [a2 ⟨e % t.laneCount, he.1⟩ j e ((mem_elemRange _ _ _).mpr ⟨hc.1, hc.2.1⟩) (.inr hc.2.2.2) hj]
            simp [passValue, hc.2.2.1]
          · exact absurd hc tl
    · intro hc hn
      refine elem_of_bits { t with lanes := v.lanes } vd.toNat w e _ he ?_
      intro j hj
      show (v.lanes[(⟨e % t.laneCount, he.1⟩ : Fin 64)]).getLsbD j = _
      rw [b3 ⟨e % t.laneCount, he.1⟩ j (by
          intro e' m c' i'
          have := inElement_unique hj ((inE _ _ _).mp i')
          subst this
          rcases c' with c' | c'
          · simp at c'
          · exact hn (.inr ⟨c', (mem_elemRange _ _ _).mp m⟩))]
      rw [a2 ⟨e % t.laneCount, he.1⟩ j e ((mem_elemRange _ _ _).mpr ⟨hc.1, hc.2.1⟩) (.inl hc.2.2) hj]
      simp only [passValue, hc.2.2, if_true]
      rfl
  · intro l j hn
    rw [b3 l j (by
      intro e m c i'
      rcases c with c | c
      · simp at c
      · exact hn e (.inr (.inr ⟨c, (mem_elemRange _ _ _).mp m⟩)) ((inE _ _ _).mp i'))]
    refine a3 l j ?_
    intro e m c i'
    have m' := (mem_elemRange _ _ _).mp m
    by_cases ac : x.act e = true
    · exact hn e (.inl ⟨m'.1, m'.2, ac⟩) i'
    · have ac' : x.act e = false := by simpa using ac
      exact hn e (.inr (.inl ⟨m'.1, m'.2, ac', by rcases c with c | c; exact absurd c ac; exact c⟩)) i'

/-- A trace record of a vector instruction changes no slot. -/
theorem traceVec_run (kind pipe : Nat) (q2 : Word) (s : State) :
    ∃ u, traceVec kind pipe q2 s = .ok () u ∧ Quiet s u ∧ u.slots = s.slots := by
  unfold traceVec
  refine ⟨_, rfl, ?_, ?_⟩
  · dsimp only
    split
    · exact (quiet_mapCore _ _ _ fun _ => rfl).trans (quiet_traceAt _ _ _ _)
    · exact Quiet.refl s
  · dsimp only
    split
    · rfl
    · rfl

theorem me_of_slots {s u : State} (h : u.slots = s.slots) (c : u.cur = s.cur) : u.me = s.me := by
  unfold State.me State.slot; rw [h, c]

theorem dirtyVec_eq (t : Slot) (h : t.vstate ≠ 0) : t.dirtyVec = { t with vstate := 3 } := by
  unfold Slot.dirtyVec
  split
  · rfl
  · rename_i n
    have : t.vstate = 3 := by
      have : ∀ v : BitVec 2, v ≠ 0 → ¬ (v = 1 ∨ v = 2) → v = 3 := by decide
      exact this _ h n
    rw [← this]

theorem quiet_mapMe_both {s u : State} (f g : Slot → Slot) (q : Quiet s u) (k : keepsSlot (f s.me) (g u.me)) :
    Quiet (mapMe f s) (mapMe g u) where
  slots r := by
    by_cases e : r = s.cur
    · subst e
      rw [slot_mapMe_cur]
      have : (mapMe g u).slot s.cur = g u.me := by rw [← q.cur, slot_mapMe_cur]
      rw [this]; exact k
    · rw [slot_mapMe_ne _ _ _ e, slot_mapMe_ne _ _ _ (by rw [q.cur]; exact e)]
      exact q.slots r
  cores c := q.cores c
  clusters c := q.clusters c
  parts p := q.parts p
  rest := by rw [q.rest]; rfl

/-- What the beginning of a vector instruction leaves of its slot. -/
theorem vectorBegun_frame (n : Nat) (t : Slot) :
    vectorBegun n t = { t with vbegun := (vectorBegun n t).vbegun, vstate := (vectorBegun n t).vstate } := by
  unfold vectorBegun Slot.dirtyVec
  split
  · rfl
  · split
    · rfl
    · dsimp only; split <;> rfl

theorem vectorBegun_on (n : Nat) {t : Slot} (h : t.vstate ≠ 0) : (vectorBegun n t).vstate ≠ 0 := by
  unfold vectorBegun
  split
  · exact h
  · split
    · exact h
    · rw [dirtyVec_eq { t with vbegun := some n } h]; exact (by decide : (3#2) ≠ 0)

/-- The beginning of a vector instruction. -/
theorem beginVec_run (mem : Bool) (s : State) : ∃ u, beginVec mem s = .ok () u ∧ Quiet (mapMe (vectorBegun s.ticks) s) u
    ∧ u.slots = (mapMe (vectorBegun s.ticks) s).slots := by
  by_cases h : s.me.vbegun.isNone = true
  · obtain ⟨u, h1, h2, h3⟩ := traceVec_run 0 (s.vpipe mem) (BitVec.ofNat 64 (s.me.vstart <<< 20 + s.me.vl)) s
    have m1 := me_of_slots h3 h2.cur
    refine ⟨mapMe (vectorBegun s.ticks) u, ?_, ?_, ?_⟩
    · unfold beginVec
      rw [bind_run, getS_run]
      dsimp only
      rw [if_pos h, bind_run, h1]
      dsimp only
      rw [modMe_run]
      congr 1
      refine mapMe_congr ?_
      rw [m1]
      unfold vectorBegun
      rw [if_neg (c := s.me.vbegun.isSome = true) (by simpa using h)]
    · exact quiet_mapMe_both _ _ h2 (by rw [m1]; exact keepsSlot_refl _)
    · unfold mapMe State.setMe State.setSlot
      rw [m1, h2.cur, h3]
  · refine ⟨s, ?_, ?_, ?_⟩
    · unfold beginVec
      rw [bind_run, getS_run]
      dsimp only
      rw [if_neg h]
      rfl
    all_goals
      have e : mapMe (vectorBegun s.ticks) s = s := by
        have : vectorBegun s.ticks s.me = id s.me := by
          unfold vectorBegun
          rw [if_pos (by simpa [Option.isSome_iff_ne_none] using h)]
          rfl
        rw [mapMe_congr this, mapMe_id]
      rw [e]
    · exact Quiet.refl s

/-- What the end of a vector instruction does to its slot. -/
def vecEnd (writes : Bool) (os : List VOp) (t : Slot) : Slot :=
  let ns := t.streamsOf os ++ (t.sinkOf os).toList
  let u := { ns.foldl (fun t n => t.setBinding n ((t.binding n).pop t.vl)) t with
    vstart := 0, vbegun := none, vstop := t.vstop.filter fun v => v.pc != t.pc }
  if writes || !ns.isEmpty then u.dirtyVec else u

/-- The end of a vector instruction whose streams move on as `streamsAfter` says. -/
theorem vecEnd_of {writes : Bool} {os : List VOp} {t : Slot} (v : t.vstate ≠ 0)
    (h : (t.streamsOf os ++ (t.sinkOf os).toList).foldl (fun t n => t.setBinding n ((t.binding n).pop t.vl)) t
      = { t with streams := streamsAfter t os }) :
    vecEnd writes os t = { vectorDone t with
      streams := streamsAfter t os
      vstate := if writes || !(t.streamsOf os ++ (t.sinkOf os).toList).isEmpty then 3 else t.vstate } := by
  unfold vecEnd
  dsimp only
  rw [h]
  split
  · exact dirtyVec_eq { vectorDone t with streams := streamsAfter t os } v
  · rfl

/-- The sampling counter changes only itself. -/
theorem countEventAs_me (e n r : Nat) (pc : Word) (s : State) :
    ∃ a b, (countEventAs s.cur e n r pc s).me = { s.me with smpctl := a, smpcnt := b } := by
  have c : (countEventAs s.cur e n r pc s).me = (countEventAs s.cur e n r pc s).slot s.cur := by
    show (countEventAs s.cur e n r pc s).slot (countEventAs s.cur e n r pc s).cur = _
    rw [(quiet_countEventAs s.cur e n r pc s).cur]
  rw [c]
  have k : ∀ v : Slot, (s.setSlot s.cur v).slot s.cur = v := fun v => slot_setSlot_self _ _ _
  have k' : ∀ (v : Slot) f n rec, (traceAt (coreOf s.cur) n rec (mapCore (coreOf s.cur) f (s.setSlot s.cur v))).slot s.cur = v :=
    fun v _ _ _ => slot_setSlot_self _ _ _
  unfold countEventAs
  dsimp only
  by_cases h : ((s.slot s.cur).smpctl.getLsbD 7 && (s.slot s.cur).busy && Word.field (s.slot s.cur).smpctl 0 4 == e) = true
  · rw [if_pos h]
    by_cases h2 : 2 ^ 64 ≤ (s.slot s.cur).smpcnt.toNat + n ∧ inSession s (s.slot s.cur).part = true ∧ traced s s.cur 4 = true
    · rw [if_pos h2, k']; exact ⟨_, _, rfl⟩
    · rw [if_neg h2, k]; exact ⟨_, _, rfl⟩
  · rw [if_neg h]; exact ⟨s.me.smpctl, s.me.smpcnt, rfl⟩

/-- The end of a vector instruction. -/
theorem closeVec_run (writes mem : Bool) (os : List VOp) (n : Nat) (s : State) :
    ∃ u a b, closeVec writes mem os n s = .ok () u ∧ Quiet (mapMe (vecEnd writes os) s) u
      ∧ OthersStay (mapMe (vecEnd writes os) s) u ∧ u.me = { vecEnd writes os s.me with smpctl := a, smpcnt := b } := by
  obtain ⟨u1, h1, q1, s1⟩ := traceVec_run 1 (s.vpipe mem) (BitVec.ofNat 64 s.me.vl) s
  have m1 := me_of_slots s1 q1.cur
  obtain ⟨a, b, m2⟩ := countEventAs_me 2 n 0 s.me.pc u1
  have cu : u1.cur = s.cur := q1.cur
  rw [cu] at m2
  have q2 := quiet_countEventAs s.cur 2 n 0 s.me.pc u1
  have dv : ∀ (t : Slot) a b, ({ t with smpctl := a, smpcnt := b } : Slot).dirtyVec = { t.dirtyVec with smpctl := a, smpcnt := b } := by
    intro t a b; unfold Slot.dirtyVec; dsimp only; split <;> rfl
  have fo : ∀ (ns : List Nat) (t : Slot) a b, ns.foldl (fun t n => t.setBinding n ((t.binding n).pop t.vl)) ({ t with smpctl := a, smpcnt := b } : Slot)
      = { ns.foldl (fun t n => t.setBinding n ((t.binding n).pop t.vl)) t with smpctl := a, smpcnt := b } := by
    intro ns
    induction ns with
    | nil => intro t a b; rfl
    | cons c ns ih =>
      intro t a b
      rw [List.foldl_cons, List.foldl_cons]
      exact ih (t.setBinding c ((t.binding c).pop t.vl)) a b
  have ve : ∀ (t : Slot) a b, vecEnd writes os { t with smpctl := a, smpcnt := b } = { vecEnd writes os t with smpctl := a, smpcnt := b } := by
    intro t a b
    have e1 : ({ t with smpctl := a, smpcnt := b } : Slot).streamsOf os = t.streamsOf os := rfl
    have e2 : ({ t with smpctl := a, smpcnt := b } : Slot).sinkOf os = t.sinkOf os := rfl
    unfold vecEnd
    rw [e1, e2]
    dsimp only
    rw [fo]
    generalize (t.streamsOf os ++ (t.sinkOf os).toList).foldl (fun t n => t.setBinding n ((t.binding n).pop t.vl)) t = y
    split
    · exact dv { y with vstart := 0, vbegun := none, vstop := t.vstop.filter fun v => v.pc != t.pc } a b
    · rfl
  generalize hu : countEventAs s.cur 2 n 0 s.me.pc u1 = u2 at m2 q2
  have m3 : u2.me = { s.me with smpctl := a, smpcnt := b } := by rw [m2, m1]
  have q3 := q1.trans q2
  have c3 : u2.cur = s.cur := q3.cur
  refine ⟨mapMe (vecEnd writes os) u2, a, b, ?_, ?_, ?_, ?_⟩
  · unfold closeVec
    rw [bind_run, getS_run]
    dsimp only
    rw [bind_run, h1]
    dsimp only
    rw [bind_run, modS_run]
    dsimp only
    have : countEvent s.cur 2 n s.me.pc u1 = u2 := hu
    rw [this]
    rfl
  · exact quiet_mapMe_both _ _ q3 (by rw [m3]; exact (congrArg (keepsSlot (vecEnd writes os s.me)) (ve s.me a b)).mpr rfl)
  · intro r hr hw
    have hr' : r ≠ s.cur := hr
    have : u2.slot r = u1.slot r := by rw [← hu]; exact slot_countEventAs_ne _ _ _ _ _ _ _ hr'
    rw [slot_mapMe_ne _ _ _ hr', slot_mapMe_ne _ _ _ (by rw [c3]; exact hr'), this]
    unfold State.slot; rw [s1]
  · rw [me_mapMe, m3]; exact ve s.me a b

/-- What a quiet change leaves of the others' slots, when its state has the same slots as another. -/
theorem slot_of_slots {s u : State} (h : u.slots = s.slots) (q : SeqId) : u.slot q = s.slot q := by
  unfold State.slot; rw [h]

/-- The whole of an instruction's end, from a slot that has become `g` since it began. -/
theorem closed_run {s u1 : State} {g : Slot} {writes mem : Bool} {os : List VOp} {n : Nat} {B F : Slot → Slot}
    (q1 : Quiet (mapMe B s) u1) (s1 : u1.slots = (mapMe B s).slots) (fin : vecEnd writes os g = F s.me) :
    ∃ u3, closeVec writes mem os n (mapMe (fun _ => g) u1) = .ok () u3
      ∧ RetiresTo (turnsOver s (mapMe F s)) (retire .next (turnsOver s u3)) := by
  obtain ⟨u3, a, b, h3, q3, o3, m3⟩ := closeVec_run writes mem os n (mapMe (fun _ => g) u1)
  refine ⟨u3, h3, ?_⟩
  have fe : mapMe (vecEnd writes os) (mapMe (fun _ => g) u1) = mapMe (fun _ => vecEnd writes os g) u1 := mapMe_mapMe _ _ _
  rw [fe, fin] at q3 o3
  rw [me_mapMe, fin] at m3
  have be : mapMe (fun _ => F s.me) (mapMe B s) = mapMe F s := by rw [mapMe_mapMe]; exact mapMe_congr rfl
  have qa : Quiet (mapMe F s) (mapMe (fun _ => F s.me) u1) := by
    rw [← be]
    exact quiet_mapMe_both _ _ q1 (keepsSlot_refl _)
  have c1 : u1.cur = s.cur := q1.cur
  refine retires_next (qa.trans q3) ?_ ?_ ?_ ?_ ?_
  · intro r hr hw
    have hr' : r ≠ s.cur := hr
    have e1 : u1.slot r = s.slot r := by rw [slot_of_slots s1, slot_mapMe_ne _ _ _ hr']
    rw [slot_mapMe_ne _ _ _ hr'] at hw
    rw [o3 r (by show r ≠ u1.cur; rw [c1]; exact hr') (by rw [slot_mapMe_ne _ _ _ (by rw [c1]; exact hr'), e1]; exact hw),
      slot_mapMe_ne _ _ _ (by rw [c1]; exact hr'), slot_mapMe_ne _ _ _ hr', e1]
  · rw [m3, me_mapMe]
  · rw [m3, me_mapMe]
  · rw [m3, me_mapMe]
  · rw [m3, me_mapMe]; rfl

/-- What the drops at a stop leave of the bindings. -/
theorem drops_spec (e : Nat) (ns : List Nat) (nd : ns.Nodup) (hr : ∀ n ∈ ns, 24 ≤ n ∧ n < 32) (t : Slot) :
    let u := ns.foldl (fun t n => t.setBinding n ((t.binding n).dropFrom e)) t
    u = { t with streams := u.streams } ∧ ∀ q, u.binding q = if q ∈ ns then (t.binding q).dropFrom e else t.binding q := by
  induction ns generalizing t with
  | nil => exact ⟨rfl, by simp⟩
  | cons a ns ih =>
    have nd' := List.nodup_cons.mp nd
    intro u
    obtain ⟨h1, h2⟩ := ih nd'.2 (fun n h => hr n (List.mem_cons_of_mem _ h)) (t.setBinding a ((t.binding a).dropFrom e))
    refine ⟨h1, ?_⟩
    intro q
    show (ns.foldl _ (t.setBinding a ((t.binding a).dropFrom e))).binding q = _
    rw [h2, binding_setBinding _ _ _ _ (hr a List.mem_cons_self)]
    by_cases c : q = a
    · subst c; simp [nd'.1]
    · simp [c]

theorem streamsOf_range {t : Slot} {os : List VOp} : ∀ n ∈ t.streamsOf os, 24 ≤ n ∧ n < 32 := by
  intro n hn
  unfold Slot.streamsOf at hn
  rw [List.mem_eraseDups, List.mem_map] at hn
  obtain ⟨o, ho, rfl⟩ := hn
  rw [List.mem_filter] at ho
  have := ho.2
  simp only [Bool.and_eq_true] at this
  exact bound_range this.2

/-- The stop of a vector instruction. -/
theorem stopVec_run {α : Type} (stored mem : Bool) (os : List VOp) (n e cause : Nat) (addr : Word) (s : State) (hv : s.me.vstate ≠ 0) :
    ∃ u : State, (stopWith stored mem os n e cause addr : M α) s = .error (.trap cause addr) u
      ∧ Quiet (mapMe (fun t => { t with vstart := e, vstate := 3, streams := u.me.streams, vbegun := none, vstop := u.me.vstop }) s) u
      ∧ OthersStay s u ∧ ∀ r, u.me.binding r = if (s.me.streamsOf os).contains r then (s.me.binding r).dropFrom e else s.me.binding r := by
  obtain ⟨u1, h1, q1, s1⟩ := traceVec_run 1 (s.vpipe mem) (BitVec.ofNat 64 (1 <<< 40 + e <<< 20 + s.me.vl)) s
  have m1 := me_of_slots s1 q1.cur
  obtain ⟨a, b, m2⟩ := countEventAs_me 2 n 0 s.me.pc u1
  have cu : u1.cur = s.cur := q1.cur
  rw [cu, m1] at m2
  have q2 := quiet_countEventAs s.cur 2 n 0 s.me.pc u1
  have o2 := fun r h => slot_countEventAs_ne s.cur r 2 n 0 s.me.pc u1 h
  generalize hu : countEventAs s.cur 2 n 0 s.me.pc u1 = u2 at m2 q2 o2
  have qq := q1.trans q2
  obtain ⟨d1, d2⟩ := drops_spec e (u2.me.streamsOf os) (nodup_eraseDups_nat _) streamsOf_range u2.me
  generalize hd : (u2.me.streamsOf os).foldl (fun t n => t.setBinding n ((t.binding n).dropFrom e)) u2.me = y at d1 d2
  generalize hvs : (if (u2.me.streamsOf os).isEmpty && (u2.me.sinkOf os).isNone then u2.me.vstop
      else some { pc := u2.me.pc, place := e, stored := stored } : Option StreamStop) = vs
  have vy : y.vstate ≠ 0 := by rw [d1, m2]; exact hv
  have run : (stopWith stored mem os n e cause addr : M α) s = .error (.trap cause addr)
      (mapMe (fun _ => { y with vstart := e, vbegun := none, vstop := vs, vstate := 3 }) u2) := by
    unfold stopWith
    rw [bind_run, getS_run]
    dsimp only
    rw [bind_run, h1]
    dsimp only
    rw [bind_run, modS_run]
    dsimp only
    rw [show countEvent s.cur 2 n s.me.pc u1 = u2 from hu, bind_run, modMe_run]
    dsimp only
    rw [trap_run]
    congr 1
    refine mapMe_congr ?_
    rw [hd, hvs]
    exact dirtyVec_eq { y with vstart := e, vbegun := none, vstop := vs } vy
  have me' := me_mapMe u2 (fun _ => ({ y with vstart := e, vbegun := none, vstop := vs, vstate := 3 } : Slot))
  refine ⟨_, run, ?_, ?_, ?_⟩
  · rw [me']
    refine quiet_mapMe_both _ _ qq ?_
    have : ({ y with vstart := e, vbegun := none, vstop := vs, vstate := 3 } : Slot)
        = { s.me with vstart := e, vbegun := none, vstop := vs, vstate := 3, streams := y.streams, smpctl := a, smpcnt := b } := by
      have d1' : y = { s.me with smpctl := a, smpcnt := b, streams := y.streams } := by
        have := d1
        rw [m2] at this
        exact this
      exact congrArg (fun z : Slot => ({ z with vstart := e, vbegun := none, vstop := vs, vstate := 3 } : Slot)) d1'
    exact (congrArg (keepsSlot _) this).mpr rfl
  · intro r hr _
    rw [slot_mapMe_ne _ _ _ (by rw [qq.cur]; exact hr), o2 r hr]
    exact slot_of_slots s1 r
  · intro r
    rw [me']
    have b' : ({ y with vstart := e, vbegun := none, vstop := vs, vstate := 3 } : Slot).binding r = y.binding r := rfl
    have e1 : u2.me.streamsOf os = s.me.streamsOf os := by rw [m2]; rfl
    have e2 : u2.me.binding r = s.me.binding r := by rw [m2]; rfl
    rw [b', d2, e1, e2]
    simp

/-- The stop, from a slot that has become `g` since the instruction began. -/
theorem stopped_run {α : Type} {s u1 : State} {g : Slot} {os : List VOp} {n e c : Nat} {a : Word} {B : Slot → Slot}
    {F : State → Slot → Slot} (q1 : Quiet (mapMe B s) u1) (s1 : u1.slots = (mapMe B s).slots) (gv : g.vstate ≠ 0)
    (gs : g.streams = s.me.streams)
    (hF : ∀ u : State, ({ g with vstart := e, vstate := 3, streams := u.me.streams, vbegun := none, vstop := u.me.vstop } : Slot) = F u s.me) :
    ∃ u, (stopVec false os n e c a : M α) (mapMe (fun _ => g) u1) = .error (.trap c a) u ∧ RetireFrame (mapMe (F u) s) u
      ∧ ∀ r, u.me.binding r = if (s.me.streamsOf os).contains r then (s.me.binding r).dropFrom e else s.me.binding r := by
  have gme := me_mapMe u1 (fun _ => g)
  obtain ⟨u, r1, r2, r3, r4⟩ := stopVec_run (α := α) false false os n e c a (mapMe (fun _ => g) u1) (by rw [gme]; exact gv)
  rw [gme] at r4
  have bs : ∀ n, g.binding n = s.me.binding n := fun n => by unfold Slot.binding; rw [gs]
  have bso : g.streamsOf os = s.me.streamsOf os := by
    unfold Slot.streamsOf
    simp only [bs]
  have c1 : u1.cur = s.cur := q1.cur
  refine ⟨u, r1, ?_, fun r => by rw [r4, bso, bs]⟩
  have qb : Quiet (mapMe (F u) s) u := by
    refine Quiet.trans ?_ r2
    rw [mapMe_mapMe]
    have be : mapMe (fun _ => F u s.me) (mapMe B s) = mapMe (F u) s := by rw [mapMe_mapMe]; exact mapMe_congr rfl
    rw [← be]
    refine quiet_mapMe_both _ _ q1 ?_
    rw [← hF u]
    exact keepsSlot_refl _
  refine ⟨qb.slots, ?_, qb.cores, qb.clusters, qb.parts, qb.rest⟩
  intro r hr hw
  have hr' : r ≠ s.cur := hr
  rw [slot_mapMe_ne _ _ _ hr'] at hw ⊢
  have e1 : (mapMe (fun _ => g) u1).slot r = s.slot r := by
    rw [slot_mapMe_ne _ _ _ (by rw [c1]; exact hr'), slot_of_slots s1, slot_mapMe_ne _ _ _ hr']
  rw [← e1]
  exact r3 r (by show r ≠ u1.cur; rw [c1]; exact hr') (by rw [e1]; exact hw)

/-! ## The loop over elements -/

/-- The elements of a loop. -/
def loopElements (l : VLoop) : Elements := ⟨l.act, l.zero, l.lo, l.d, l.tail, l.dmax⟩

/-- A slot that differs only in how its instruction has begun holds the same elements. -/
theorem writtenInto_begun (n : Nat) {t : Slot} {lanes : Vector (BitVec 32768) 64} {vd : Reg} {w : Nat} {x : Elements}
    {f : Nat → FRes} (h : writtenInto (vectorBegun n t) lanes vd w x f) : writtenInto t lanes vd w x f := by
  rw [vectorBegun_frame] at h
  exact h

/-- What the loop leaves of the slot of an instruction that has begun. -/
theorem looped_begun (n : Nat) (t : Slot) (vd : Reg) (w : Nat) (x : Elements) (f : Nat → FRes) :
    looped (vectorBegun n t) vd w x f = { t with
      vbegun := (vectorBegun n t).vbegun, vstate := (vectorBegun n t).vstate
      lanes := (looped (vectorBegun n t) vd w x f).lanes, fflags := t.fflags ||| x.flags f }
    ∧ writtenInto t (looped (vectorBegun n t) vd w x f).lanes vd w x f := by
  obtain ⟨l1, l2, l3⟩ := looped_spec (vectorBegun n t) vd w x f
  refine ⟨?_, writtenInto_begun n ⟨l2, l3⟩⟩
  generalize looped (vectorBegun n t) vd w x f = g at l1
  rw [vectorBegun_frame] at l1
  exact l1

/-- The loop of the element-wise instructions, when its sources are filled and its destination is a register: the
instruction goes through, and this is all that it does. -/
theorem loopWith_done {i : Instr} {s : State} {wd : IWord} {m : M Flow} {os : List VOp} {l : VLoop}
    {vd : Reg} {w : Nat} {f : Nat → FRes} (hi : exec i s = run wd m s)
    (hm : m s = loopWith .ready os vd w l f s) (hs : s.me.sinkOf os = none) (hv : s.me.vstate ≠ 0) :
    vectorWrites i s os vd w (loopElements l) f := by
  obtain ⟨l1, l2⟩ := looped_begun s.ticks s.me vd w (loopElements l) f
  refine ⟨_, l2, ?_⟩
  obtain ⟨u1, h1, q1, s1⟩ := beginVec_run false s
  have m1 := (me_of_slots s1 q1.cur).trans (me_mapMe _ _)
  generalize hg : looped (vectorBegun s.ticks s.me) vd w (loopElements l) f = g at l1
  have gs : g.sinkOf os = none := by rw [l1]; exact hs
  have gv : g.vstate ≠ 0 := by rw [l1]; exact vectorBegun_on _ hv
  have fin : vecEnd true os g = { vectorDone s.me with
      lanes := g.lanes, fflags := s.me.fflags ||| (loopElements l).flags f, vstate := 3, streams := streamsAfter s.me os } := by
    rw [vecEnd_of gv (pops_streams g os gs)]
    have : streamsAfter g os = streamsAfter s.me os := by rw [l1]; rfl
    rw [this]
    exact congrArg (fun z : Slot => ({ vectorDone z with streams := streamsAfter s.me os, vstate := 3 } : Slot)) l1
  obtain ⟨u3, h3, r3⟩ := closed_run (mem := false) (n := tally l.active s.me.vstart l.top) (F := fun t => { vectorDone t with
      lanes := g.lanes, fflags := t.fflags ||| (loopElements l).flags f, vstate := 3, streams := streamsAfter s.me os }) q1 s1 fin
  have lm : loopWith .ready os vd w l f s = .ok .next u3 := by
    unfold loopWith
    rw [bind_run, getMe_run]
    dsimp only
    rw [if_neg (by decide)]
    rw [bind_run, h1]
    dsimp only
    rw [hs]
    dsimp only
    rw [bind_run, modMe_run]
    dsimp only
    rw [show ∀ F : Slot → Slot, F u1.me = g → mapMe F u1 = mapMe (fun _ => g) u1 from fun F h => mapMe_congr h]
    · rw [bind_run, show endVec false os (tally l.active s.me.vstart l.top) (mapMe (fun _ => g) u1) = .ok () u3 from h3]
      rfl
    · rw [m1, ← hg]
      have tz : s.me.tailZero = (vectorBegun s.ticks s.me).tailZero := by rw [vectorBegun_frame]; rfl
      simp only [decide_true, Bool.and_true, tz]
      rfl
  exact ⟨_, by rw [hi]; unfold run; rw [hm, lm], r3⟩

/-- The loop waits for an element of a stream that is not filled. -/
theorem loopWith_wait {i : Instr} {s : State} {wd : IWord} {m : M Flow} {os : List VOp} {l : VLoop}
    {vd : Reg} {w : Nat} {f : Nat → FRes} (hi : exec i s = run wd m s)
    (hm : m s = loopWith .unfilled os vd w l f s) : holdsFor i s .stream := by
  refine holds_run hi ?_
  rw [hm]
  unfold loopWith
  rw [bind_run, getMe_run]
  dsimp only
  rw [if_pos rfl]
  rfl

/-- The loop stops at an element whose fill met a fault. -/
theorem loopWith_stop {i : Instr} {s : State} {wd : IWord} {m : M Flow} {os : List VOp} {l : VLoop}
    {vd : Reg} {w : Nat} {f : Nat → FRes} {e c : Nat} {a : Word} (hi : exec i s = run wd m s)
    (hm : m s = loopWith (.stop e c a) os vd w l f s) (hs : s.me.sinkOf os = none)
    (hv : s.me.vstate ≠ 0) : vectorStops i s os vd w { loopElements l with d := min (l.upto e) l.d } f e c a := by
  obtain ⟨l1, l2⟩ := looped_begun s.ticks s.me vd w { loopElements l with d := min (l.upto e) l.d, tail := 0, dmax := 0 } f
  obtain ⟨u1, h1, q1, s1⟩ := beginVec_run false s
  have m1 := (me_of_slots s1 q1.cur).trans (me_mapMe _ _)
  generalize hg : looped (vectorBegun s.ticks s.me) vd w { loopElements l with d := min (l.upto e) l.d, tail := 0, dmax := 0 } f = g at l1 l2
  have gv : g.vstate ≠ 0 := by rw [l1]; exact vectorBegun_on _ hv
  have hF : ∀ u : State, ({ g with vstart := e, vstate := 3, streams := u.me.streams, vbegun := none, vstop := u.me.vstop } : Slot)
      = { s.me with lanes := g.lanes
                    fflags := s.me.fflags ||| ({ loopElements l with d := min (l.upto e) l.d } : Elements).flags f
                    vstart := e, vstate := 3, streams := u.me.streams, vbegun := none, vstop := u.me.vstop } := by
    intro u
    exact congrArg (fun z : Slot => ({ z with vstart := e, vstate := 3, streams := u.me.streams, vbegun := none, vstop := u.me.vstop } : Slot)) l1
  obtain ⟨u, r1, r2, r3⟩ := stopped_run (α := Flow) (os := os) (n := tally l.active s.me.vstart e) (c := c) (a := a)
    (F := fun u t => { t with lanes := g.lanes
                              fflags := t.fflags ||| ({ loopElements l with d := min (l.upto e) l.d } : Elements).flags f
                              vstart := e, vstate := 3, streams := u.me.streams, vbegun := none, vstop := u.me.vstop })
    q1 s1 gv (by rw [l1]) hF
  refine ⟨g.lanes, u, l2, ?_, r2, r3⟩
  rw [hi]; unfold run; rw [hm]
  have : loopWith (.stop e c a) os vd w l f s = .error (.trap c a) u := by
    unfold loopWith
    rw [bind_run, getMe_run]
    dsimp only
    rw [if_neg (by simp)]
    rw [bind_run, h1]
    dsimp only
    rw [hs]
    dsimp only
    rw [bind_run, modMe_run]
    dsimp only
    rw [← r1]
    congr 1
    refine mapMe_congr ?_
    rw [m1, ← hg]
    simp [looped, elemRange]
    rfl
  rw [this]

end Sys2Proof.Laws
end

