-- ==== Sys2Proof/Laws/Mask.lean ====
section
/-! SUPPORT. The loop of the instructions that write a mask register. -/

namespace Sys2Proof.Laws

open Sys2Proof Sys2Proof.Machine

/-- One bit of a patched mask. -/
theorem patch_kbit (m : BitVec 524288) (e j : Nat) (b : Bool) (h : j < 524288) :
    ((m &&& ~~~((1#524288) <<< e)) ||| (if b then (1#524288) <<< e else 0)).getLsbD j = if j = e then b else m.getLsbD j := by
  have one : ∀ j : Nat, (1#524288).getLsbD j = decide (j = 0) := by
    intro j
    cases j with
    | zero => simp
    | succ j =>
      simp [BitVec.getLsbD_one]
  rw [BitVec.getLsbD_or, BitVec.getLsbD_and, BitVec.getLsbD_not, BitVec.getLsbD_shiftLeft, one]
  by_cases c : j = e
  · subst c
    cases b <;> simp [h]
  · by_cases l : j < e
    · have : ((if b then (1#524288) <<< e else 0) : BitVec 524288).getLsbD j = false := by
        cases b
        · simp
        · simp [BitVec.getLsbD_shiftLeft, l]
      rw [this]
      simp [c, l, h]
    · have z : j - e ≠ 0 := by omega
      have : ((if b then (1#524288) <<< e else 0) : BitVec 524288).getLsbD j = false := by
        cases b
        · simp
        · simp only [if_true, BitVec.getLsbD_shiftLeft, one]; simp [z]
      rw [this]
      simp [c, l, h, z]

theorem setKbit_kbit (t : Slot) (kd k : KReg) (e j : Nat) (b : Bool) (h : j < 524288) :
    (t.setKbit kd e b).kbit k j = if k = kd ∧ k ≠ 0 ∧ j = e then b else t.kbit k j := by
  unfold Slot.setKbit
  by_cases z : kd = 0
  · rw [if_pos z, if_neg]
    rintro ⟨a, b, _⟩
    exact b (a.trans z)
  · rw [if_neg z]
    unfold Slot.kbit
    by_cases k0 : k = 0
    · rw [if_pos k0, if_pos k0, if_neg (fun a => a.2.1 k0)]
    · rw [if_neg k0, if_neg k0]
      by_cases ke : k = kd
      · subst ke
        simp only [Fin.getElem_fin, Vector.getElem_set_self]
        rw [patch_kbit _ _ _ _ h]
        have k0' : k ≠ 0#3 := k0
        simp [k0']
      · have : kd.toFin.val ≠ k.toFin.val := fun a => ke (BitVec.eq_of_toFin_eq (Fin.ext a.symm))
        simp only [Fin.getElem_fin]
        rw [Vector.getElem_set_ne _ _ this]
        exact (if_neg (fun x : k = kd ∧ k ≠ 0 ∧ j = e => ke x.1)).symm

/-- One pass of the loop. -/
def maskPass (act zero : Nat → Bool) (kd : KReg) (f : Nat → Bool × FFlags) (t : Slot) (e : Nat) : Slot :=
  if act e then (t.setKbit kd e (f e).1).raise (f e).2 else if zero e then t.setKbit kd e false else t

theorem setKbit_frame (t : Slot) (kd : KReg) (e : Nat) (b : Bool) : t.setKbit kd e b = { t with masks := (t.setKbit kd e b).masks } := by
  unfold Slot.setKbit
  split <;> rfl

theorem maskPass_frame (act zero : Nat → Bool) (kd : KReg) (f : Nat → Bool × FFlags) (t : Slot) (e : Nat) :
    maskPass act zero kd f t e = { t with masks := (maskPass act zero kd f t e).masks
                                          fflags := t.fflags ||| (if act e then (f e).2 else 0) } := by
  unfold maskPass
  by_cases a : act e = true
  · rw [if_pos a, if_pos a]
    unfold Slot.setKbit
    split <;> rfl
  · rw [if_neg a, if_neg a]
    have z : t.fflags ||| 0 = t.fflags := by simp
    rw [z]
    by_cases c : zero e = true
    · rw [if_pos c]; exact setKbit_frame t kd e false
    · rw [if_neg c]

theorem maskPass_kbit (act zero : Nat → Bool) (kd k : KReg) (f : Nat → Bool × FFlags) (t : Slot) (e j : Nat) (h : j < 524288) :
    (maskPass act zero kd f t e).kbit k j
      = if (k = kd ∧ k ≠ 0 ∧ j = e) ∧ (act e = true ∨ zero e = true) then (act e && (f e).1) else t.kbit k j := by
  unfold maskPass
  by_cases a : act e = true
  · rw [if_pos a]
    show (t.setKbit kd e (f e).1).kbit k j = _
    rw [setKbit_kbit _ _ _ _ _ _ h]
    simp [a]
  · rw [if_neg a]
    by_cases c : zero e = true
    · rw [if_pos c, setKbit_kbit _ _ _ _ _ _ h]
      simp [a, c]
    · rw [if_neg c]
      simp [a, c]

theorem maskPasses_spec (act zero : Nat → Bool) (kd : KReg) (f : Nat → Bool × FFlags) (es : List Nat) (nd : es.Nodup) (t : Slot) :
    let u := es.foldl (maskPass act zero kd f) t
    u = { t with masks := u.masks, fflags := (es.filter act).foldl (fun g e => g ||| (f e).2) t.fflags }
    ∧ ∀ k j, j < 524288 → u.kbit k j
        = if (k = kd ∧ k ≠ 0 ∧ j ∈ es) ∧ (act j = true ∨ zero j = true) then (act j && (f j).1) else t.kbit k j := by
  induction es generalizing t with
  | nil => exact ⟨rfl, by simp⟩
  | cons a es ih =>
    have nd' := List.nodup_cons.mp nd
    intro u
    obtain ⟨h1, h2⟩ := ih nd'.2 (maskPass act zero kd f t a)
    have fr := maskPass_frame act zero kd f t a
    generalize hp : maskPass act zero kd f t a = p at h1 h2 fr
    have hu : u = es.foldl (maskPass act zero kd f) p := by rw [← hp]; rfl
    rw [← hu] at h1 h2
    refine ⟨?_, ?_⟩
    · have e1 : p.fflags = t.fflags ||| (if act a then (f a).2 else 0) := by rw [fr]
      have e2 : (es.filter act).foldl (fun g e => g ||| (f e).2) p.fflags
          = ((a :: es).filter act).foldl (fun g e => g ||| (f e).2) t.fflags := by
        rw [e1, List.filter_cons]
        by_cases c : act a = true
        · simp [c]
        · simp [c]
      rw [e2] at h1
      exact h1.trans (congrArg (fun z : Slot => { z with masks := u.masks
                                                         fflags := ((a :: es).filter act).foldl (fun g e => g ||| (f e).2) t.fflags }) fr)
    · intro k j hj
      rw [h2 k j hj, ← hp, maskPass_kbit _ _ _ _ _ _ _ _ hj]
      by_cases c : j = a
      · subst c
        simp [nd'.1]
      · simp [c]

/-- The slot that the loop leaves, before `vstart`, `vstate` and the streams are set. -/
def maskLooped (t : Slot) (kd : KReg) (x : Elements) (f : Nat → Bool × FFlags) : Slot :=
  let u := (elemRange x.lo x.d).foldl (maskPass x.act x.zero kd f) t
  if t.tailZero then (elemRange x.tail x.dmax).foldl (fun t' e => t'.setKbit kd e false) u else u

theorem or_foldl_mask (f : Nat → Bool × FFlags) (l : List Nat) (g : FFlags) :
    l.foldl (fun g e => g ||| (f e).2) g = g ||| l.foldl (fun g e => g ||| (f e).2) 0 := by
  induction l generalizing g with
  | nil => simp
  | cons a l ih => rw [List.foldl_cons, ih, List.foldl_cons, ih (0 ||| (f a).2)]; simp [BitVec.or_assoc]

/-- The tail begins where the elements end, or there is none. -/
theorem maskLooped_spec (t : Slot) (kd : KReg) (x : Elements) (f : Nat → Bool × FFlags) (hx : x.dmax ≤ x.tail ∨ x.d ≤ x.tail) :
    maskLooped t kd x f = { t with masks := (maskLooped t kd x f).masks, fflags := t.fflags ||| x.flags fun e => ⟨0, (f e).2⟩ }
    ∧ maskedInto t (maskLooped t kd x f).masks kd x f := by
  obtain ⟨a1, a2⟩ := maskPasses_spec x.act x.zero kd f _ (nodup_elemRange x.lo x.d) t
  generalize hu : (elemRange x.lo x.d).foldl (maskPass x.act x.zero kd f) t = u at a1 a2
  obtain ⟨b1, b2⟩ := maskPasses_spec (fun _ => false) (fun _ => t.tailZero) kd f _ (nodup_elemRange x.tail x.dmax) u
  have hz : ∀ (l : List Nat) (u : Slot), l.foldl (maskPass (fun _ => false) (fun _ => t.tailZero) kd f) u
      = if t.tailZero then l.foldl (fun t' e => t'.setKbit kd e false) u else u := by
    intro l
    induction l with
    | nil => intro u; simp
    | cons a l ih =>
      intro u
      rw [List.foldl_cons, ih]
      by_cases c : t.tailZero = true
      · simp [c, maskPass]
      · have c' : t.tailZero = false := by simpa using c
        simp [c', maskPass]
  have hl : maskLooped t kd x f = (elemRange x.tail x.dmax).foldl (maskPass (fun _ => false) (fun _ => t.tailZero) kd f) u := by
    rw [hz, ← hu]; rfl
  rw [← hl] at b1 b2
  generalize maskLooped t kd x f = v at b1 b2
  have ff : u.fflags = t.fflags ||| x.flags fun e => ⟨0, (f e).2⟩ := by rw [a1]; exact or_foldl_mask _ _ _
  have b1' : v = { u with masks := v.masks, fflags := u.fflags } := by
    have : (elemRange x.tail x.dmax).filter (fun _ => false) = [] := by simp
    rw [this] at b1
    exact b1
  refine ⟨?_, ?_⟩
  · rw [ff] at b1'
    exact b1'.trans (congrArg (fun z : Slot => { z with masks := v.masks, fflags := t.fflags ||| x.flags fun e => ⟨0, (f e).2⟩ }) a1)
  · intro k j hj
    have e1 : ({ t with masks := v.masks } : Slot).kbit k j = v.kbit k j := rfl
    rw [e1, b2 k j hj, a2 k j hj]
    simp only [mem_elemRange, Bool.false_eq_true, false_or, Bool.false_and]
    by_cases c : k = kd ∧ k ≠ 0
    · rw [if_pos c]
      by_cases tl : t.tailZero = true ∧ x.tail ≤ j ∧ j < x.dmax
      · rw [if_pos ⟨⟨c.1, c.2, tl.2⟩, tl.1⟩]
        have : ¬ j < x.d := by omega
        simp [tl, this]
      · rw [if_neg (fun a => tl ⟨a.2, a.1.2.2⟩), if_neg tl]
        obtain ⟨rfl, k0⟩ := c
        have k0' : k ≠ 0#3 := k0
        by_cases r : x.lo ≤ j ∧ j < x.d
        · by_cases ac : x.act j = true
          · simp [r, ac, k0']
          · simp only [Bool.not_eq_true] at ac
            by_cases zr : x.zero j = true
            · simp [r, ac, zr, k0']
            · simp [r, ac, zr]
        · rw [if_neg (fun a => r a.1.2.2), if_neg (fun a => r ⟨a.1, a.2.1⟩), if_neg (fun a => r ⟨a.1, a.2.1⟩)]
    · rw [if_neg c, if_neg (fun a => c ⟨a.1.1, a.1.2.1⟩), if_neg (fun a => c ⟨a.1.1, a.1.2.1⟩)]

theorem maskLooped_begun (n : Nat) (t : Slot) (kd : KReg) (x : Elements) (f : Nat → Bool × FFlags)
    (hx : x.dmax ≤ x.tail ∨ x.d ≤ x.tail) :
    maskLooped (vectorBegun n t) kd x f = { t with
      vbegun := (vectorBegun n t).vbegun, vstate := (vectorBegun n t).vstate
      masks := (maskLooped (vectorBegun n t) kd x f).masks, fflags := t.fflags ||| x.flags fun e => ⟨0, (f e).2⟩ }
    ∧ maskedInto t (maskLooped (vectorBegun n t) kd x f).masks kd x f := by
  obtain ⟨l1, l2⟩ := maskLooped_spec (vectorBegun n t) kd x f hx
  generalize maskLooped (vectorBegun n t) kd x f = g at l1 l2
  rw [vectorBegun_frame] at l1 l2
  exact ⟨l1, l2⟩

/-- Whether an instruction that writes no register and no mask leaves vector state dirty. -/
theorem vstateAfter_eq (n : Nat) {t : Slot} {os : List VOp} (h : t.sinkOf os = none) (v : t.vstate ≠ 0) :
    (if !(t.streamsOf os).isEmpty then 3 else (vectorBegun n t).vstate) = vstateAfter t os := by
  have e : (t.streamsOf os).isEmpty = true ↔ ∀ o ∈ os, (t.binding o.r.toNat).bound = false := by
    rw [List.isEmpty_iff]
    constructor
    · intro he o ho
      by_contra c
      have c' : (t.binding o.r.toNat).bound = true := by simpa using c
      by_cases d : o.dest = true
      · unfold Slot.sinkOf at h
        rw [Option.map_eq_none_iff, List.find?_eq_none] at h
        exact h o ho (by simp [d, c'])
      · have : o.r.toNat ∈ t.streamsOf os := by
          unfold Slot.streamsOf
          rw [List.mem_eraseDups, List.mem_map]
          exact ⟨o, by rw [List.mem_filter]; simp [ho, d, c'], rfl⟩
        rw [he] at this
        cases this
    · intro he
      rw [List.eq_nil_iff_forall_not_mem]
      intro n hn
      unfold Slot.streamsOf at hn
      rw [List.mem_eraseDups, List.mem_map] at hn
      obtain ⟨o, ho, rfl⟩ := hn
      rw [List.mem_filter] at ho
      have := ho.2
      simp [he o ho.1] at this
  unfold vstateAfter
  by_cases c : (t.streamsOf os).isEmpty = true
  · have a := e.mp c
    simp only [c, Bool.not_true, Bool.false_eq_true, if_false]
    unfold vectorBegun
    by_cases b : t.vbegun.isSome = true
    · rw [if_pos b, if_pos ⟨.inr b, a⟩]
    · rw [if_neg b]
      by_cases z : t.vstart = 0
      · rw [if_pos z, if_pos ⟨.inl z, a⟩]
      · rw [if_neg z, if_neg (fun x => x.1.elim z b), dirtyVec_eq { t with vbegun := some n } v]
  · rw [if_pos (by simpa using c), if_neg (fun x => c (e.mpr x.2))]

/-- The loop of the instructions that write a mask register, without a write stream among the operands. -/
theorem maskLoop_gives {i : Instr} {s : State} {wd : IWord} {m : M Flow} {os : List VOp} {k kd : KReg} {f : Nat → Bool × FFlags}
    (hi : exec i s = run wd m s) (hm : m s = maskLoop os k kd f s) (hs : s.me.sinkOf os = none) (hv : s.me.vstate ≠ 0) :
    maskGives i s (fillState s.me os k 1) os kd (.masked s.me k s.me.vl s.me.vlmax) f := by
  have pf : (fun (t' : Slot) e => if s.me.kbit k e = true then (t'.setKbit kd e (f e).1).raise (f e).2
      else if s.me.maskZero = true then t'.setKbit kd e false else t')
      = maskPass (s.me.kbit k) (fun e => !s.me.kbit k e && s.me.maskZero) kd f := by
    funext t' e
    unfold maskPass
    by_cases c : s.me.kbit k e = true
    · simp [c]
    · simp [c]
  generalize hf : fillState s.me os k 1 = fill
  refine ⟨?_, ?_, ?_⟩
  · intro h
    refine holds_run hi ?_
    rw [hm]
    unfold maskLoop
    rw [bind_run, getMe_run]
    dsimp only
    rw [hf, if_pos h]
    rfl
  · intro h
    subst h
    obtain ⟨l1, l2⟩ := maskLooped_begun s.ticks s.me kd (.masked s.me k s.me.vl s.me.vlmax) f (.inr (Nat.le_refl _))
    refine ⟨_, l2, ?_⟩
    obtain ⟨u1, h1, q1, s1⟩ := beginVec_run false s
    have m1 := (me_of_slots s1 q1.cur).trans (me_mapMe _ _)
    generalize hg : maskLooped (vectorBegun s.ticks s.me) kd (.masked s.me k s.me.vl s.me.vlmax) f = g at l1
    generalize hfl : (Elements.masked s.me k s.me.vl s.me.vlmax).flags (fun e => ⟨0, (f e).2⟩) = fl at l1
    have gs : g.sinkOf os = none := by rw [l1]; exact hs
    have gso : g.streamsOf os = s.me.streamsOf os := by rw [l1]; rfl
    have gv : g.vstate ≠ 0 := by rw [l1]; exact vectorBegun_on _ hv
    have gvs : g.vstate = (vectorBegun s.ticks s.me).vstate := by rw [l1]
    have fin : vecEnd (kd != 0) os g = { vectorDone s.me with
        masks := g.masks, fflags := s.me.fflags ||| fl
        vstate := if kd = 0 then vstateAfter s.me os else 3, streams := streamsAfter s.me os } := by
      rw [vecEnd_of gv (pops_streams g os gs)]
      have e1 : streamsAfter g os = streamsAfter s.me os := by rw [l1]; rfl
      have e2 : (if (kd != 0) || !(g.streamsOf os ++ (g.sinkOf os).toList).isEmpty then 3 else g.vstate)
          = if kd = 0 then vstateAfter s.me os else 3 := by
        rw [← vstateAfter_eq s.ticks hs hv, gs, gso, gvs, Option.toList_none, List.append_nil]
        by_cases c : kd = 0
        · subst c; simp
        · have c' : (kd != 0) = true := by simpa using c
          rw [if_neg c, c', Bool.true_or, if_pos rfl]
      rw [e1, e2]
      exact congrArg (fun z : Slot => ({ vectorDone z with
        streams := streamsAfter s.me os, vstate := if kd = 0 then vstateAfter s.me os else 3 } : Slot)) l1
    obtain ⟨u3, h3, r3⟩ := closed_run (mem := false) (n := s.me.activeCount k s.me.vstart s.me.vl) (F := fun t => { vectorDone t with
        masks := g.masks, fflags := t.fflags ||| fl
        vstate := if kd = 0 then vstateAfter s.me os else 3, streams := streamsAfter s.me os }) q1 s1 fin
    have lm : maskLoop os k kd f s = .ok .next u3 := by
      unfold maskLoop
      rw [bind_run, getMe_run]
      dsimp only
      rw [hf, if_neg (by decide)]
      rw [bind_run, h1]
      dsimp only
      rw [bind_run, modMe_run]
      dsimp only
      rw [show ∀ F : Slot → Slot, F u1.me = g → mapMe F u1 = mapMe (fun _ => g) u1 from fun F h => mapMe_congr h]
      · rw [bind_run, h3]
        rfl
      · rw [m1, ← hg]
        have tz : s.me.tailZero = (vectorBegun s.ticks s.me).tailZero := by rw [vectorBegun_frame]; rfl
        simp only [decide_true, Bool.and_true]
        rw [pf, tz]
        rfl
    rw [← hfl] at r3
    exact ⟨_, by rw [hi]; unfold run; rw [hm, lm], r3⟩
  · intro e c a h
    subst h
    obtain ⟨l1, l2⟩ := maskLooped_begun s.ticks s.me kd
      { Elements.masked s.me k s.me.vl s.me.vlmax with d := min e s.me.vl, tail := 0, dmax := 0 } f (.inl (Nat.le_refl _))
    obtain ⟨u1, h1, q1, s1⟩ := beginVec_run false s
    have m1 := (me_of_slots s1 q1.cur).trans (me_mapMe _ _)
    generalize hg : maskLooped (vectorBegun s.ticks s.me) kd
      { Elements.masked s.me k s.me.vl s.me.vlmax with d := min e s.me.vl, tail := 0, dmax := 0 } f = g at l1 l2
    have gv : g.vstate ≠ 0 := by rw [l1]; exact vectorBegun_on _ hv
    have hF : ∀ u : State, ({ g with vstart := e, vstate := 3, streams := u.me.streams, vbegun := none, vstop := u.me.vstop } : Slot)
        = { s.me with masks := g.masks
                      fflags := s.me.fflags ||| ({ Elements.masked s.me k s.me.vl s.me.vlmax with
                        d := min e s.me.vl, tail := 0, dmax := 0 } : Elements).flags fun e => ⟨0, (f e).2⟩
                      vstart := e, vstate := 3, streams := u.me.streams, vbegun := none, vstop := u.me.vstop } := by
      intro u
      exact congrArg (fun z : Slot => ({ z with vstart := e, vstate := 3, streams := u.me.streams, vbegun := none, vstop := u.me.vstop } : Slot)) l1
    obtain ⟨u, r1, r2, r3⟩ := stopped_run (α := Flow) (os := os) (n := s.me.activeCount k s.me.vstart e) (c := c) (a := a)
      (F := fun u t => { t with masks := g.masks
                                fflags := t.fflags ||| ({ Elements.masked s.me k s.me.vl s.me.vlmax with
                                  d := min e s.me.vl, tail := 0, dmax := 0 } : Elements).flags fun e => ⟨0, (f e).2⟩
                                vstart := e, vstate := 3, streams := u.me.streams, vbegun := none, vstop := u.me.vstop })
      q1 s1 gv (by rw [l1]) hF
    refine ⟨g.masks, u, l2, ?_, r2, r3⟩
    rw [hi]; unfold run; rw [hm]
    have : maskLoop os k kd f s = .error (.trap c a) u := by
      unfold maskLoop
      rw [bind_run, getMe_run]
      dsimp only
      rw [hf, if_neg (by simp)]
      rw [bind_run, h1]
      dsimp only
      rw [bind_run, modMe_run]
      dsimp only
      rw [← r1]
      congr 1
      refine mapMe_congr ?_
      rw [m1, ← hg, pf]
      simp [maskLooped, elemRange, Elements.masked]
      rfl
    rw [this]

end Sys2Proof.Laws
end

