-- ==== Sys2Proof/Laws/VecDoes.lean ====
section
/-! SUPPORT. A vector instruction as a whole: its checks and its loop. -/

namespace Sys2Proof.Laws

open Sys2Proof Sys2Proof.Machine

theorem guardVec_run (w : IWord) (s : State) : guardVec w s
    = if s.me.vstate = 0 then .error (.trap causeFirstUse (w.zeroExtend 64)) s
      else if s.me.vill = true then .error (.trap causeIllegal (w.zeroExtend 64)) s else .ok () s := by
  have g : guardVec w s = (match guardVecOn w s with
      | .ok _ u => check (!u.me.vill) causeIllegal (w.zeroExtend 64) u
      | .error e u => .error e u) := by
    unfold guardVec
    show EStateM.bind _ _ s = _
    unfold EStateM.bind
    cases guardVecOn w s <;> rfl
  rw [g]
  unfold guardVecOn
  by_cases h : s.me.vstate = 0
  · rw [if_pos h, check_fail _ _ _ _ (by simp [h])]
  · rw [if_neg h, check_pass _ _ _ _ (by simpa using h)]
    dsimp only
    by_cases v : s.me.vill = true
    · rw [if_pos v, check_fail _ _ _ _ (by simp [v])]
    · rw [if_neg v, check_pass _ _ _ _ (by simp [v])]

theorem vecChecks_run (w : IWord) (cls : Fmt → Nat → Bool) (os : Slot → List VOp) (extra : Slot → Bool) (s : State) :
    vecChecks w cls os extra s
    = if s.me.vstate = 0 then .error (.trap causeFirstUse (w.zeroExtend 64)) s
      else if s.me.vill = true then .error (.trap causeIllegal (w.zeroExtend 64)) s
      else if (cls s.me.fmt s.me.ew && extra s.me && s.me.opsOk (os s.me)) = true then .ok () s
      else .error (.trap causeOperand (w.zeroExtend 64)) s := by
  unfold vecChecks
  rw [bind_run, guardVec_run]
  by_cases h : s.me.vstate = 0
  · rw [if_pos h, if_pos h]
  · rw [if_neg h, if_neg h]
    by_cases v : s.me.vill = true
    · rw [if_pos v, if_pos v]
    · rw [if_neg v, if_neg v]
      dsimp only
      rw [bind_run, getMe_run]
      dsimp only
      by_cases c : (cls s.me.fmt s.me.ew && extra s.me && s.me.opsOk (os s.me)) = true
      · rw [if_pos c, check_pass _ _ _ _ c]
      · rw [if_neg c, check_fail _ _ _ _ (by simpa using c)]

/-- The traps of an instruction that begins with the checks. -/
theorem vectorTraps_run {i : Instr} {s : State} {wd : IWord} {cls : Fmt → Nat → Bool} {os : Slot → List VOp}
    {extra : Slot → Bool} {g : Unit → M Flow} (hi : exec i s = run wd (vecChecks wd cls os extra >>= g) s)
    (hw : encode i = some wd) : vectorTraps i s (cls s.me.fmt s.me.ew && extra s.me) (os s.me) := by
  intro w h
  have e : w = wd := by rw [hw] at h; exact (Option.some.inj h).symm
  subst e
  refine ⟨?_, ?_, ?_⟩
  · intro c
    refine traps_run hi ?_
    rw [bind_run, vecChecks_run, if_pos c]
  · intro c v
    refine traps_run hi ?_
    rw [bind_run, vecChecks_run, if_neg c, if_pos v]
  · intro c v o
    refine traps_run hi ?_
    rw [bind_run, vecChecks_run, if_neg c, if_neg (by simp [v]), if_neg (by simp [o])]

/-- The checks pass. -/
theorem vecChecks_pass {s : State} {wd : IWord} {cls : Fmt → Nat → Bool} {os : Slot → List VOp} {extra : Slot → Bool}
    (h : vectorReady s (os s.me)) (ok : (cls s.me.fmt s.me.ew && extra s.me) = true) : vecChecks wd cls os extra s = .ok () s := by
  rw [vecChecks_run, if_neg h.1, if_neg (by simp [h.2.1]), if_pos (by rw [ok, h.2.2]; rfl)]

theorem stopWith_error {α : Type} (st mem : Bool) (os : List VOp) (n e c : Nat) (a : Word) (s : State) :
    ∃ r u, (stopWith st mem os n e c a : M α) s = .error r u := by
  obtain ⟨u, h, _⟩ := traceVec_run 1 (s.vpipe mem) (BitVec.ofNat 64 (1 <<< 40 + e <<< 20 + s.me.vl)) s
  unfold stopWith
  rw [bind_run, getS_run]
  dsimp only
  rw [bind_run, h]
  dsimp only
  rw [bind_run, modS_run]
  dsimp only
  rw [bind_run, modMe_run]
  exact ⟨_, _, rfl⟩

/-- When a store to a write stream goes through: the count of elements done matters only to one that does not. -/
theorem sinkPut_ok (os : List VOp) (n e v a : Nat) (s u : State) : sinkPut os n e v a s = .ok () u ↔
    match s.me.binding n with
    | .mem d x pos _ => if d.total ≤ pos + e then s = u
        else storeN (engineAgent x (coreOf s.cur) s.cur (.stream n)) d.scope (d.address (pos + e)) (d.ew / 8) v s = .ok () u
    | _ => s = u := by
  unfold sinkPut
  cases s.me.binding n with
  | mem d x pos q =>
    dsimp only
    split
    · constructor
      · intro h; cases h; rfl
      · intro h; rw [h]
    · cases hs : storeN (engineAgent x (coreOf s.cur) s.cur (.stream n)) d.scope (d.address (pos + e)) (d.ew / 8) v s with
      | ok y s' => exact Iff.rfl
      | error r s' =>
        cases r with
        | trap c f =>
          obtain ⟨r', u', hr⟩ := stopWith_error (α := Unit) true false os a e c f s'
          dsimp only
          rw [hr]
          constructor <;> intro h <;> cases h
        | wait k => constructor <;> intro h <;> cases h
        | fatal p a => constructor <;> intro h <;> cases h
  | unbound =>
    constructor
    · intro h; cases h; rfl
    · intro h; rw [h]
  | kv k w o =>
    constructor
    · intro h; cases h; rfl
    · intro h; rw [h]

/-- The stores to a write stream change only the flags of the slot. -/
theorem sinkPut_keeps (os : List VOp) (n e v a : Nat) : Keeps (sinkPut os n e v a) := by
  intro s x t h
  rw [show x = () from rfl, sinkPut_ok] at h
  split at h
  · split at h
    · rw [h]; exact SameSlots.refl _
    · exact Keeps.storeN _ _ _ _ _ _ _ _ h
  · rw [h]; exact SameSlots.refl _

/-- Where one list of actions goes through, so does another whose actions do the same where they go through. -/
theorem forList_ok {α : Type} (l : List α) {f g : α → M Unit} (h : ∀ a s u, f a s = .ok () u → g a s = .ok () u) {s u : State}
    (e : forList l f s = .ok () u) : forList l g s = .ok () u := by
  induction l generalizing s with
  | nil => exact e
  | cons x r ih =>
    unfold forList at e ⊢
    split at e
    · rename_i s' hx
      rw [h x s s' hx]
      exact ih e
    · cases e

theorem stores_flags (os : List VOp) (n : Nat) (act : Nat → Bool) (f : Nat → FRes) (l : List Nat) (s v : State)
    (h : forList l (fun e => if act e then do
      let r := f e
      sinkPut os n e r.bits 0
      modMe (·.raise r.flags)
    else pure ()) s = .ok () v) :
    v.cur = s.cur ∧ v.me = { s.me with fflags := v.me.fflags } ∧ ∀ q, q ≠ s.cur → v.slot q = s.slot q := by
  induction l generalizing s with
  | nil => cases h; exact ⟨rfl, rfl, fun _ _ => rfl⟩
  | cons a l ih =>
    unfold forList at h
    split at h
    · rename_i s' ha
      obtain ⟨i1, i2, i3⟩ := ih s' h
      by_cases c : act a = true
      · rw [if_pos c, bind_run] at ha
        split at ha
        · rename_i u hu
          have k := sinkPut_keeps _ _ _ _ _ _ _ _ hu
          rw [modMe_run] at ha
          cases ha
          have e1 : (mapMe (·.raise (f a).flags) u).me = u.me.raise (f a).flags := me_mapMe _ _
          refine ⟨i1.trans k.2, ?_, ?_⟩
          · rw [e1, k.me] at i2
            exact i2
          · intro q hq
            have hq' : q ≠ u.cur := by rw [k.2]; exact hq
            rw [i3 q hq', slot_mapMe_ne _ _ _ hq']
            unfold State.slot; rw [k.1]
        · cases ha
      · rw [if_neg c] at ha
        cases ha
        exact ⟨i1, i2, i3⟩
    · cases h

/-- The pops of an instruction with a write stream and no register that is both source and destination. -/
theorem pops_sink (t : Slot) (os : List VOp) (n : Nat) (h : t.sinkOf os = some n)
    (one : ∀ a ∈ os, ∀ b ∈ os, a.dest = true → b.dest = true → a.r = b.r)
    (sep : ∀ a ∈ os, ∀ b ∈ os, a.dest = true → b.dest = false → a.r = b.r → (t.binding a.r.toNat).bound = false) :
    (t.streamsOf os ++ (t.sinkOf os).toList).foldl (fun t n => t.setBinding n ((t.binding n).pop t.vl)) t
      = { t with streams := streamsAfter t os } := by
  rw [h]
  unfold Slot.sinkOf at h
  rw [Option.map_eq_some_iff] at h
  obtain ⟨o, ho, hn⟩ := h
  have hp := List.find?_some ho
  have hm := List.mem_of_find?_eq_some ho
  simp only [Bool.and_eq_true] at hp
  have hns : n ∉ t.streamsOf os := by
    intro m
    unfold Slot.streamsOf at m
    rw [List.mem_eraseDups, List.mem_map] at m
    obtain ⟨q, hq, rfl⟩ := m
    rw [List.mem_filter] at hq
    simp only [Bool.and_eq_true, Bool.not_eq_true'] at hq
    have := sep o hm q hq.1 hp.1 hq.2.1 (BitVec.eq_of_toNat_eq hn)
    rw [this] at hp
    exact absurd hp.2 (by simp)
  have nd : (t.streamsOf os ++ [n]).Nodup := by
    rw [List.nodup_append]
    exact ⟨nodup_eraseDups_nat _, by simp, by rintro a ha b hb rfl; simp at hb; subst hb; exact hns ha⟩
  have hr : ∀ m ∈ t.streamsOf os ++ [n], 24 ≤ m ∧ m < 32 := by
    intro m hm
    rcases List.mem_append.mp hm with hm | hm
    · exact streamsOf_range m hm
    · simp at hm; subst hm; rw [← hn]; exact bound_range hp.2
  obtain ⟨h1, h2⟩ := pops_spec t.vl _ nd hr t rfl
  show (t.streamsOf os ++ [n]).foldl _ t = _
  rw [h1]
  congr 1
  refine streams_ext _ { t with streams := streamsAfter t os } ?_
  intro q
  rw [h2, binding_streamsAfter]
  have : (q ∈ t.streamsOf os ++ [n]) ↔ (os.any fun o => o.r.toNat == q && (t.binding q).bound) = true := by
    rw [List.mem_append, List.any_eq_true]
    unfold Slot.streamsOf
    rw [List.mem_eraseDups, List.mem_map]
    constructor
    · rintro (⟨o, ho, rfl⟩ | hq)
      · rw [List.mem_filter] at ho
        have := ho.2
        simp only [Bool.and_eq_true] at this
        exact ⟨o, ho.1, by simp [this.2]⟩
      · simp at hq; subst hq
        exact ⟨o, hm, by rw [← hn]; simp [hp.2]⟩
    · rintro ⟨q', hq', hb⟩
      simp only [Bool.and_eq_true, beq_iff_eq] at hb
      by_cases d : q'.dest = true
      · right
        have e := one _ hq' _ hm d hp.1
        simp only [List.mem_singleton]
        rw [← hb.1, e]; exact hn
      · left
        refine ⟨q', ?_, hb.1⟩
        rw [List.mem_filter]
        refine ⟨hq', ?_⟩
        simp [d, hb.1, hb.2]
  by_cases c : (os.any fun o => o.r.toNat == q && (t.binding q).bound) = true
  · rw [if_pos c, if_pos (this.mpr c)]
  · rw [if_neg c, if_neg (fun m => c (this.mp m))]

/-- Where the operand checks pass, a bound register is not both a source and the destination. -/
theorem opsOk_sep {t : Slot} {os : List VOp} (h : t.opsOk os = true) : ∀ a ∈ os, ∀ b ∈ os, a.dest = true → b.dest = false →
    a.r = b.r → (t.binding a.r.toNat).bound = false := by
  intro a ha b hb da db e
  unfold Slot.opsOk at h
  simp only [Bool.and_eq_true, List.all_eq_true] at h
  have own : ∀ o ∈ os, (t.binding o.r.toNat).bound = true → (t.binding o.r.toNat).writes = o.dest := by
    intro o ho hbd
    have so := (h.1 o ho).2
    have oo := (h.1 o ho).1
    unfold Slot.streamOk at so
    rw [List.all_eq_true] at so
    have g : 0 < t.groupOf o := by
      unfold Slot.groupOf groupFor
      cases q : List.find? (fun k => decide (t.group * o.quarters ≤ 2 ^ k * (4 * t.ew))) (List.range 5) with
      | none => simp
      | some k => simp
    have := so o.r.toNat (by
      unfold Slot.opRegs
      rw [List.mem_map]
      exact ⟨0, by simp [g], by simp⟩)
    simp only [hbd, Bool.not_true, Bool.false_or, Bool.and_eq_true, beq_iff_eq] at this
    exact this.1.2
  by_contra c
  have c' : (t.binding a.r.toNat).bound = true := by simpa using c
  have x := own a ha c'
  have y := own b hb (by rw [← e]; exact c')
  rw [← e, x, da, db] at y
  exact absurd y (by simp)

/-- The loop with a write stream as its destination. -/
theorem loopWith_sink {i : Instr} {s : State} {wd : IWord} {m : M Flow} {os : List VOp} {l : VLoop}
    {vd : Reg} {w n : Nat} {f : Nat → FRes} (hi : exec i s = run wd m s)
    (hm : m s = loopWith .ready os vd w l f s) (hs : s.me.sinkOf os = some n)
    (hr : vectorReady s os) (one : ∀ a ∈ os, ∀ b ∈ os, a.dest = true → b.dest = true → a.r = b.r) :
    ∃ u, RetireFrame (mapMe (vectorBegun s.ticks) s) u ∧ ∀ v, streamStores os n (loopElements l) f u = .ok () v →
      completesAs i s (mapMe (fun t => { vectorDone t with vstate := 3, streams := streamsAfter s.me os }) v) := by
  obtain ⟨u1, h1, q1, s1⟩ := beginVec_run false s
  have m1 := (me_of_slots s1 q1.cur).trans (me_mapMe _ _)
  refine ⟨u1, ⟨q1.slots, fun q _ _ => slot_of_slots s1 q, q1.cores, q1.clusters, q1.parts, q1.rest⟩, ?_⟩
  intro v hv
  unfold streamStores at hv
  obtain ⟨c1, c2, c3⟩ := stores_flags _ _ _ _ _ _ _ hv
  rw [m1] at c2
  obtain ⟨u3, a, b, h3, q3, o3, m3⟩ := closeVec_run true false os (tally l.active s.me.vstart l.top) v
  have lm : loopWith .ready os vd w l f s = .ok .next u3 := by
    unfold loopWith
    rw [bind_run, getMe_run]
    dsimp only
    rw [if_neg (by decide)]
    rw [bind_run, h1]
    dsimp only
    rw [hs]
    dsimp only
    rw [bind_run]
    rw [show forList (elemRange l.lo l.d) (fun e => if l.act e = true then do
        let r := f e
        sinkPut os n e r.bits (tally l.active s.me.vstart e)
        modMe (·.raise r.flags)
      else pure ()) u1 = .ok () v from forList_ok _ (by
        intro e x y hxy
        by_cases c : l.act e = true
        · have c' : (loopElements l).act e = true := c
          rw [if_pos c'] at hxy
          rw [if_pos c]
          rw [bind_run] at hxy ⊢
          split at hxy
          · rename_i hq
            rw [(sinkPut_ok _ _ _ _ _ _ _).mpr ((sinkPut_ok _ _ _ _ _ _ _).mp hq)]
            exact hxy
          · cases hxy
        · have c' : ¬ (loopElements l).act e = true := c
          rw [if_neg c'] at hxy
          rw [if_neg c]
          exact hxy) hv]
    dsimp only
    rw [bind_run, show endVec false os (tally l.active s.me.vstart l.top) v = .ok () u3 from h3]
    rfl
  have be := vectorBegun_frame s.ticks s.me
  have on := vectorBegun_on s.ticks hr.1
  generalize vectorBegun s.ticks s.me = bg at be on c2
  have bd : ∀ r, v.me.binding r = s.me.binding r := fun r => by rw [c2, be]; rfl
  have vs : v.me.sinkOf os = some n := by rw [c2, be]; exact hs
  have vv : v.me.vstate ≠ 0 := by rw [c2]; exact on
  have sa : streamsAfter v.me os = streamsAfter s.me os := by rw [c2, be]; rfl
  have ve : vecEnd true os v.me = { vectorDone v.me with vstate := 3, streams := streamsAfter s.me os } := by
    rw [vecEnd_of vv (pops_sink v.me os n vs one (fun a ha b hb x y z => by rw [bd]; exact opsOk_sep hr.2.2 a ha b hb x y z)), sa]
    rfl
  have eq : mapMe (vecEnd true os) v = mapMe (fun t => { vectorDone t with vstate := 3, streams := streamsAfter s.me os }) v :=
    mapMe_congr ve
  rw [eq] at q3 o3
  refine ⟨_, by rw [hi]; unfold run; rw [hm, lm], retires_next q3 o3 ?_ ?_ ?_ ?_⟩
  · rw [m3, ve, me_mapMe]
  · rw [m3, ve, me_mapMe]
  · rw [m3, ve, me_mapMe]
  · rw [m3, ve, me_mapMe]; rfl

/-- What the loop does, however far its streams are filled. -/
theorem loopWith_gives {i : Instr} {s : State} {wd : IWord} {m : M Flow} {fill : Fill} {os : List VOp}
    {l : VLoop} {vd : Reg} {w : Nat} {f : Nat → FRes} (hi : exec i s = run wd m s)
    (hm : m s = loopWith fill os vd w l f s) (hr : vectorReady s os)
    (one : ∀ a ∈ os, ∀ b ∈ os, a.dest = true → b.dest = true → a.r = b.r) :
    vectorGives i s fill l.upto os vd w (loopElements l) f := by
  refine ⟨?_, ?_, ?_, ?_⟩
  · rintro rfl; exact loopWith_wait hi hm
  · rintro rfl h; exact loopWith_done hi hm h hr.1
  · rintro e c a rfl h; exact loopWith_stop hi hm h hr.1
  · rintro n rfl h; exact loopWith_sink hi hm h hr one

/-- An instruction that checks its operands and goes through the loop. -/
theorem vectorDoes_run {i : Instr} {s : State} {wd : IWord} {cls : Fmt → Nat → Bool} {os : Slot → List VOp}
    {extra : Slot → Bool} {g : Unit → M Flow} {fill : Fill}
    {l : VLoop} {vd : Reg} {w : Nat} {f : Nat → FRes}
    (hi : exec i s = run wd (vecChecks wd cls os extra >>= g) s) (hw : encode i = some wd)
    (hm : g () s = loopWith fill (os s.me) vd w l f s)
    (one : ∀ a ∈ os s.me, ∀ b ∈ os s.me, a.dest = true → b.dest = true → a.r = b.r) :
    vectorDoes i s (cls s.me.fmt s.me.ew && extra s.me) fill l.upto (os s.me) vd w (loopElements l) f := by
  refine ⟨vectorTraps_run hi hw, fun hr ok => loopWith_gives hi ?_ hr one⟩
  rw [bind_run, vecChecks_pass hr ok]
  exact hm

/-- An element-wise instruction. -/
theorem elementwise_run {i : Instr} {s : State} {wd : IWord} {cls : Fmt → Nat → Bool} {os : Slot → List VOp}
    {extra : Slot → Bool} {g : Unit → M Flow} {k : KReg} {vd : Reg} {w d dmax ratio : Nat} {f : Nat → FRes}
    (hi : exec i s = run wd (vecChecks wd cls os extra >>= g) s) (hw : encode i = some wd)
    (hm : g () s = elementLoop (os s.me) k vd w d dmax ratio f s)
    (one : ∀ a ∈ os s.me, ∀ b ∈ os s.me, a.dest = true → b.dest = true → a.r = b.r) :
    elementwise i s (cls s.me.fmt s.me.ew && extra s.me) (os s.me) k vd w d dmax ratio f := by
  exact vectorDoes_run (l := s.me.plainLoop id k d dmax) hi hw hm one

/-- An instruction that checks its operands and writes a mask. -/
theorem maskDoes_run {i : Instr} {s : State} {wd : IWord} {cls : Fmt → Nat → Bool} {os : Slot → List VOp}
    {extra : Slot → Bool} {g : Unit → M Flow} {k kd : KReg} {f : Nat → Bool × FFlags}
    (hi : exec i s = run wd (vecChecks wd cls os extra >>= g) s) (hw : encode i = some wd)
    (hm : g () s = maskLoop (os s.me) k kd f s) (hs : ∀ o ∈ os s.me, o.dest = false) :
    maskDoes i s (cls s.me.fmt s.me.ew && extra s.me) (fillState s.me (os s.me) k 1) (os s.me) kd
      (.masked s.me k s.me.vl s.me.vlmax) f := by
  refine ⟨vectorTraps_run hi hw, fun hr ok => maskLoop_gives hi ?_ ?_ hr.1⟩
  · rw [bind_run, vecChecks_pass hr ok]
    exact hm
  · unfold Slot.sinkOf
    rw [Option.map_eq_none_iff, List.find?_eq_none]
    intro o ho
    simp [hs o ho]

/-- The words of the V formats, as the encoder writes them. -/
theorem wordV_pack (f5 : Nat) (rep : Rep) (k : KReg) (vs2 vs1 vd : Reg) (op : Nat) :
    wordV f5 rep k vs2 vs1 vd op = pack (BitVec.ofNat 5 f5 ++ rep.rsz ++ rep.repBit ++ k) vs2 vs1 vd (BitVec.ofNat 6 op) := by
  have e : BitVec.ofNat 5 f5 ++ (rep.rsz ++ (rep.repBit ++ k)) = BitVec.ofNat 5 f5 ++ rep.rsz ++ rep.repBit ++ k := by
    apply BitVec.eq_of_toNat_eq
    simp only [BitVec.toNat_append]
    apply Nat.eq_of_testBit_eq
    intro i
    simp only [Nat.testBit_or, Nat.testBit_shiftLeft]
    have q : i - 3 - 1 = i - 4 := by omega
    have u : i - 4 - 2 = i - 6 := by omega
    by_cases a : 3 ≤ i
    · by_cases b : 4 ≤ i
      · by_cases c : 6 ≤ i
        · simp [a, b, c, q, u, show 1 ≤ i - 3 by omega, show 2 ≤ i - 4 by omega, Bool.or_assoc]
        · simp [a, b, c, q, u, show 1 ≤ i - 3 by omega, show ¬ 2 ≤ i - 4 by omega, Bool.or_assoc]
      · simp [a, b, show ¬ 1 ≤ i - 3 by omega, show ¬ 6 ≤ i by omega]
    · simp [a, show ¬ 6 ≤ i by omega, show ¬ 4 ≤ i by omega]
  unfold wordV
  rw [e]

theorem wordVM_pack (f5 mode : Nat) (k : KReg) (b a d : Reg) (op : Nat) :
    wordVM f5 mode k b a d op = pack (BitVec.ofNat 5 f5 ++ BitVec.ofNat 3 mode ++ k) b a d (BitVec.ofNat 6 op) := by
  have e : BitVec.ofNat 5 f5 ++ (BitVec.ofNat 3 mode ++ k) = BitVec.ofNat 5 f5 ++ BitVec.ofNat 3 mode ++ k := by
    apply BitVec.eq_of_toNat_eq
    simp only [BitVec.toNat_append]
    apply Nat.eq_of_testBit_eq
    intro i
    simp only [Nat.testBit_or, Nat.testBit_shiftLeft]
    by_cases a : 3 ≤ i
    · by_cases b : 6 ≤ i
      · simp [a, b, show 3 ≤ i - 3 by omega, Bool.or_assoc, show i - 3 - 3 = i - 6 by omega]
      · simp [a, b, show ¬ 3 ≤ i - 3 by omega]
    · simp [a, show ¬ 6 ≤ i by omega]
  unfold wordVM
  rw [e]

/-- The words of the vector loads and stores, as the encoder writes them. -/
theorem wordVMem_pack (iw : BitVec 2) (kind mode : Nat) (k : KReg) (b rs1 v : Reg) (op : Nat) :
    wordVMem iw kind mode k b rs1 v op = pack (iw ++ BitVec.ofNat 3 kind ++ BitVec.ofNat 3 mode ++ k) b rs1 v (BitVec.ofNat 6 op) := by
  have e : iw ++ (BitVec.ofNat 3 kind ++ (BitVec.ofNat 3 mode ++ k)) = iw ++ BitVec.ofNat 3 kind ++ BitVec.ofNat 3 mode ++ k := by
    apply BitVec.eq_of_toNat_eq
    simp only [BitVec.toNat_append]
    apply Nat.eq_of_testBit_eq
    intro i
    simp only [Nat.testBit_or, Nat.testBit_shiftLeft]
    have q : i - 3 - 3 = i - 6 := by omega
    have r : i - 6 - 3 = i - 9 := by omega
    by_cases a : 3 ≤ i
    · by_cases b : 6 ≤ i
      · by_cases c : 9 ≤ i
        · simp [a, b, c, q, r, show 3 ≤ i - 3 by omega, show 3 ≤ i - 6 by omega, Bool.or_assoc]
        · simp [a, b, c, q, r, show 3 ≤ i - 3 by omega, show ¬ 3 ≤ i - 6 by omega, Bool.or_assoc]
      · simp [a, b, show ¬ 3 ≤ i - 3 by omega, show ¬ 9 ≤ i by omega]
    · simp [a, show ¬ 6 ≤ i by omega, show ¬ 9 ≤ i by omega]
  unfold wordVMem
  rw [e]
end Sys2Proof.Laws
end

