-- ==== Sys2Proof/Tests/Slice0.lean ====
section
/-! SUPPORT. Tests: decoding, small runs of one step, and witnesses that the hypotheses of the statements can be met.
The expected values are worked out by hand from the rules named. -/

namespace Sys2Proof.Tests

open Sys2Proof.Machine

set_option Elab.async false

/-! ## Small states -/

/-- A thread of partition 0 at U in slot 0 of core 0, which partition 0 owns, with lanes 0 to 7. -/
def start (f : Slot → Slot) : State :=
  mapCore 0 (fun k => { k with owner := some 0 }) (mapSlot 0 (fun t => f { t with
    busy := true, pc := 0x1000, evec := 0x8000, vstate := 3, valloc := 32, lpart := 0xFF, pending := 0xFF, request := 1 }) State.reset)

/-- The same with a configuration image in force (R19). -/
def startVec (image : Word) (vl : Nat) (f : Slot → Slot) : State := start fun t => f { t with vtype := image, vl := vl }

/-- Elements of a vector register at a width. -/
def put (r w : Nat) (l : List Nat) (t : Slot) : Slot := l.zipIdx.foldl (fun t e => t.setElem r w e.2 e.1) t
def got (r w n : Nat) (t : Slot) : List Nat := (List.range n).map (t.elem r w)

/-- What is seen after an instruction that answers a next state. -/
def after {α : Type} (i : Instr) (s : State) (see : State → α) : Option α :=
  match exec i s with
  | .next t => some (see t)
  | _ => none

/-- What is seen after a step. -/
noncomputable def stepped {α : Type} (s : State) (see : State → α) : Option α :=
  match step s with
  | .next t => some (see t)
  | _ => none

/-- An action goes through. -/
def goes {α : Type} (r : EStateM.Result Stop State α) : Bool := match r with | .ok _ _ => true | .error _ _ => false
/-- An action ends in a trap, with its cause. -/
def trapOf {α : Type} (r : EStateM.Result Stop State α) : Option Nat :=
  match r with | .error (.trap c _) _ => some c | _ => none

/-- The first address of a core's own scratchpad (R215). -/
def pad : Word := 0x01FFFFFFF0000000

/-- A copy operation of four bytes within the scratchpad of core 0. -/
def aCopy (src dst : Word) : CopyOp :=
  { seq := 0, queue := 0, number := 0, fences := [], ctx := {}, scope := .core, op := 0, esize := 1, src := src, dst := dst
    dims := [(4, 1, 1)], total := 4, next := 0, mcast := 0, sig := 0, sigaddr := 0, isTcopy := false, desc := 0, pins := [], kvm := 0, strip := 0
    begun := none }

/-- Quads in the scratchpad of core 0, from an offset on. -/
def inPad (off : Nat) (l : List Nat) : State → State :=
  mapCore 0 fun k => { k with pad := Memory.writeBytes k.pad off (l.flatMap (bytesOfNat 8)) }

/-- A quad of that scratchpad. -/
def padQuad (off : Nat) (s : State) : Nat := Memory.readNat (s.core 0).pad off 8

/-- Quads of memory from a physical address on. -/
def inMem (pa : Nat) (l : List Nat) (s : State) : State := { s with mem := Memory.writeBytes s.mem pa (l.flatMap (bytesOfNat 8)) }

/-- Page tables that map the page at 0 to frame 4, readable, writable and executable at U. -/
def mapped (s : State) : State :=
  inMem 0 [1 + 1 <<< 17] (inMem 0x8000 [1 + 2 <<< 17] (inMem 0x10000 [1 + 3 <<< 17] (inMem 0x18000 [0xFF + 4 <<< 17] s)))
/-! ## Well-formedness and reserved words -/

theorem test_wf_refuses :
    (Instr.loop 1 0).wf = false ∧ (Instr.loopi 5 0).wf = false ∧ (Instr.amold .device .rel .d 1 2).wf = false
    ∧ (Instr.amost .device .acq .d 1 2).wf = false ∧ (Instr.qfence 0 0).wf = false ∧ (Instr.vmerge .none 0 1 2 3).wf = false
    ∧ (Instr.vamoadd .unit 0 1 2 3).wf = false ∧ (Instr.vamofadd .unit 0 1 2 31).wf = false ∧ (Instr.bar2HostRead 0 0 0).wf = false := by
  decide +kernel

theorem test_wf_admits :
    (Instr.loop 1 1).wf = true ∧ (Instr.amold .device .acq .d 1 2).wf = true ∧ (Instr.vmerge .none 1 1 2 3).wf = true
    ∧ (Instr.vamoadd .unit 0 1 2 0).wf = true ∧ (Instr.vamoadd .strided 0 1 2 3).wf = true ∧ (Instr.qfence 1 0).wf = true := by
  decide +kernel

/-- R34, R36, R39, R45, R47, R51, R52, R58, R59, R61: words with a reserved value or bit. -/
theorem test_decode_refuses :
    [0x00000000, 0x40142B52, 0xA1072462, 0x02000021, 0x00000015, 0x00002115, 0x0000038B, 0x01400016, 0xC000001A, 0x0040001B,
      0xF0000021, 0x00010024, 0xC0000028, 0x0300002A, 0x0001202A, 0x03C00001, 0x00070008, 0x0007011D].all
      (fun w => match decode w with | .ok _ => false | .error _ => true) = true := by
  decide +kernel
/-! ## Decoding

One word for each instruction with a word, its bits put together from the encoding tables of chapter 03 and of the opcode table, with the
operands at scattered values. -/
theorem test_decode_alu_a :
    decode 0x00082C41 = .ok (.add 17 5 8)
    ∧ decode 0x0035C181 = .ok (.sub 6 24 21)
    ∧ decode 0x004C6241 = .ok (.and 9 12 12)
    ∧ decode 0x0061FD81 = .ok (.or 22 31 1)
    ∧ decode 0x008B7241 = .ok (.xor 9 14 11)
    ∧ decode 0x00B86101 = .ok (.andn 4 12 24)
    ∧ decode 0x00C6A541 = .ok (.sll 21 20 6)
    ∧ decode 0x00E67341 = .ok (.srl 13 14 6)
    ∧ decode 0x01143B81 = .ok (.sra 14 7 20)
    ∧ decode 0x0128FD81 = .ok (.mul 22 31 8)
    ∧ decode 0x015A13C1 = .ok (.mulh 15 2 26)
    ∧ decode 0x0162BF41 = .ok (.mulhu 29 23 2)
    ∧ decode 0x018DD2C1 = .ok (.mulhsu 11 26 13)
    ∧ decode 0x01A51FC1 = .ok (.div 31 3 5)
    ∧ decode 0x01C65E41 = .ok (.divu 25 11 6)
    ∧ decode 0x01EA4AC1 = .ok (.rem 11 9 10) :=
  ⟨rfl, rfl, rfl, rfl, rfl, rfl, rfl, rfl, rfl, rfl, rfl, rfl, rfl, rfl, rfl, rfl⟩

theorem test_decode_alu_b :
    decode 0x0212E181 = .ok (.remu 6 28 18)
    ∧ decode 0x02313841 = .ok (.min 1 7 17)
    ∧ decode 0x0247D441 = .ok (.max 17 26 7)
    ∧ decode 0x027A9BC1 = .ok (.minu 15 19 26)
    ∧ decode 0x0281DB81 = .ok (.maxu 14 27 1)
    ∧ decode 0x02A0DA81 = .ok (.clz 10 27)
    ∧ decode 0x02C01AC1 = .ok (.ctz 11 3)
    ∧ decode 0x02E0F481 = .ok (.pop 18 30)
    ∧ decode 0x0300FE41 = .ok (.bswap 25 31)
    ∧ decode 0x03277CC1 = .ok (.sh1add 19 15 7)
    ∧ decode 0x034927C1 = .ok (.sh2add 31 4 9)
    ∧ decode 0x036A2C81 = .ok (.sh3add 18 5 10)
    ∧ decode 0x038A5BC1 = .ok (.rotl 15 11 10)
    ∧ decode 0x03A9D141 = .ok (.rotr 5 26 9) :=
  ⟨rfl, rfl, rfl, rfl, rfl, rfl, rfl, rfl, rfl, rfl, rfl, rfl, rfl, rfl⟩

theorem test_decode_single_rows :
    decode 0x05041382 = .ok (.addi 14 2 0x504)
    ∧ decode 0xB7F46983 = .ok (.andi 6 13 0xb7f4)
    ∧ decode 0x55F78F04 = .ok (.ori 28 17 0x55f7)
    ∧ decode 0x99A39945 = .ok (.xori 5 19 0x99a3)
    ∧ decode 0xB3C06146 = .ok (.ldhi 5 0x16780c)
    ∧ decode 0x188190C7 = .ok (.pcadd 3 0x31032)
    ∧ decode 0x9889C3CB = .ok (.bs 0x131138)
    ∧ decode 0x9C14DD4C = .ok (.jal 21 0x13829b)
    ∧ decode 0x2B37684D = .ok (.jalr 1 13 0x2b37)
    ∧ decode 0x146CC02E = .ok (.tmark 24 0x146c) :=
  ⟨rfl, rfl, rfl, rfl, rfl, rfl, rfl, rfl, rfl, rfl⟩

theorem test_decode_loads :
    decode 0x93200E08 = .ok (.ldB 24 1 0x1264)
    ∧ decode 0x2BA9E448 = .ok (.ldH 17 28 0x575)
    ∧ decode 0x77B20C88 = .ok (.ldW 18 1 0xef6)
    ∧ decode 0x11231588 = .ok (.ldD 22 2 0x224)
    ∧ decode 0x65FCA648 = .ok (.ldBu 25 20 0xcbf)
    ∧ decode 0x73CD0F88 = .ok (.ldHu 30 1 0xe79)
    ∧ decode 0x9A468D88 = .ok (.ldWu 22 17 0x1348) :=
  ⟨rfl, rfl, rfl, rfl, rfl, rfl, rfl⟩

theorem test_decode_stores :
    decode 0x2174DD49 = .ok (.stB 27 21 0x85d)
    ∧ decode 0xAC252A49 = .ok (.stH 5 9 0x2b09)
    ∧ decode 0xB0D68249 = .ok (.stW 16 9 0x2c35)
    ∧ decode 0x9B23CC89 = .ok (.stD 25 18 0x26c8) :=
  ⟨rfl, rfl, rfl, rfl⟩

theorem test_decode_branches :
    decode 0x7278FB0A = .ok (.bt 4 0xe4f1f)
    ∧ decode 0x8AE359CA = .ok (.bf 7 0x115c6b) :=
  ⟨rfl, rfl⟩

theorem test_decode_compares :
    decode 0x0018C98E = .ok (.cmpeq 6 25 24)
    ∧ decode 0x003FE94E = .ok (.cmpne 5 29 31)
    ∧ decode 0x0045990E = .ok (.cmplt 4 19 5)
    ∧ decode 0x006998CE = .ok (.cmpge 3 19 9)
    ∧ decode 0x008FF90E = .ok (.cmpltu 4 31 15)
    ∧ decode 0x00A411CE = .ok (.cmpgeu 7 2 4)
    ∧ decode 0x0204294E = .ok (.cand 5 5 4)
    ∧ decode 0x022318CE = .ok (.cor 3 3 3)
    ∧ decode 0x0246098E = .ok (.cxor 6 1 6)
    ∧ decode 0x0262110E = .ok (.candn 4 2 2)
    ∧ decode 0x0300328E = .ok (.cget 10 6) :=
  ⟨rfl, rfl, rfl, rfl, rfl, rfl, rfl, rfl, rfl, rfl, rfl⟩

theorem test_decode_compare_immediates_a :
    decode 0x5EF9494F = .ok (.cmpeqi 5 9 0x5ef9)
    ∧ decode 0xAE6982CF = .ok (.cmpnei 3 16 0xae69)
    ∧ decode 0xAB6E350F = .ok (.cmplti 4 6 0xab6e)
    ∧ decode 0xD3D20F4F = .ok (.cmpgei 5 1 0xd3d2) :=
  ⟨rfl, rfl, rfl, rfl⟩

theorem test_decode_compare_immediates_b :
    decode 0x98A06850 = .ok (.cmpltui 1 13 0x98a0)
    ∧ decode 0x03B6B310 = .ok (.cmpgeui 4 22 0x3b6)
    ∧ decode 0x7E96F490 = .ok (.cmpgti 2 30 0x7e96)
    ∧ decode 0xB8F2C790 = .ok (.cmplei 6 24 0xb8f2) :=
  ⟨rfl, rfl, rfl, rfl⟩

theorem test_decode_shifts :
    decode 0x05C0FB91 = .ok (.slli 14 31 0x2e)
    ∧ decode 0x09E0FB11 = .ok (.srli 12 31 15)
    ∧ decode 0x16201611 = .ok (.srai 24 2 0x31)
    ∧ decode 0x1B400F91 = .ok (.rotli 30 1 26) :=
  ⟨rfl, rfl, rfl, rfl⟩

theorem test_decode_loops :
    decode 0x62388015 = .ok (.loop 16 0xc47)
    ∧ decode 0xCD0CE655 = .ok (.loopi 0x9cc 0x19a1) :=
  ⟨rfl, rfl⟩

theorem test_decode_fp_scalar_a :
    decode 0x01073E56 = .ok (.fadd .s .rmm 25 7 7)
    ∧ decode 0x02F2DDD6 = .ok (.fsub .d .rup 23 27 18)
    ∧ decode 0x045B6496 = .ok (.fmul .s .rtz 18 12 27)
    ∧ decode 0x066EA756 = .ok (.fdiv .d .rtz 29 20 14)
    ∧ decode 0x08206556 = .ok (.fsqrt .d .rne 21 12)
    ∧ decode 0x0A389C56 = .ok (.fmin .d 17 19 24)
    ∧ decode 0x0C211756 = .ok (.fmax .d 29 2 1)
    ∧ decode 0x0E2911D6 = .ok (.fsgnj .d 7 2 9)
    ∧ decode 0x103FAF16 = .ok (.fsgnjn .d 28 21 31)
    ∧ decode 0x12025596 = .ok (.fsgnjx .s 22 10 2)
    ∧ decode 0x14E0A856 = .ok (.ftol .d .rup 1 21)
    ∧ decode 0x164015D6 = .ok (.ftolu .s .rtz 23 2)
    ∧ decode 0x18409116 = .ok (.ftow .s .rtz 4 18)
    ∧ decode 0x1AC01596 = .ok (.ftowu .s .rup 22 2)
    ∧ decode 0x1CC019D6 = .ok (.ltof .s .rup 7 3)
    ∧ decode 0x1E0070D6 = .ok (.lutof .s .rne 3 14) :=
  ⟨rfl, rfl, rfl, rfl, rfl, rfl, rfl, rfl, rfl, rfl, rfl, rfl, rfl, rfl, rfl, rfl⟩

theorem test_decode_fp_scalar_b :
    decode 0x2000C716 = .ok (.fprec .s .rne 28 24)
    ∧ decode 0x2220ACD6 = .ok (.fclass .d 19 21)
    ∧ decode 0x241590D6 = .ok (.feq .s 3 18 21)
    ∧ decode 0x260861D6 = .ok (.flt .s 7 12 8)
    ∧ decode 0x283C8956 = .ok (.fle .d 5 17 28)
    ∧ decode 0x2A0B7B96 = .ok (.fadd2 14 15 11) :=
  ⟨rfl, rfl, rfl, rfl, rfl, rfl⟩

theorem test_decode_fp_fused :
    decode 0xE35A80D7 = .ok (.fmadd .s .dyn 3 16 26 26)
    ∧ decode 0x8ED1E157 = .ok (.fmsub .d .rmm 5 28 17 22)
    ∧ decode 0x5315ABD7 = .ok (.fnmadd .s .rdn 15 21 21 24)
    ∧ decode 0xFC912657 = .ok (.fnmsub .d .dyn 25 4 17 4) :=
  ⟨rfl, rfl, rfl, rfl⟩

theorem test_decode_csr :
    decode 0x384C9A98 = .ok (.csrrw 10 0x384c 19)
    ∧ decode 0x74F3B3D8 = .ok (.csrrs 15 0x34f3 22)
    ∧ decode 0xB00B0AD8 = .ok (.csrrc 11 0x300b 1) :=
  ⟨rfl, rfl, rfl⟩

theorem test_decode_system :
    decode 0x00000019 = .ok (.ecall)
    ∧ decode 0x00200019 = .ok (.ebreak)
    ∧ decode 0x00400019 = .ok (.eret)
    ∧ decode 0x006F7819 = .ok (.ptflush 15 15)
    ∧ decode 0x00800019 = .ok (.icflush)
    ∧ decode 0x00A00019 = .ok (.nopSys) :=
  ⟨rfl, rfl, rfl, rfl, rfl, rfl⟩

theorem test_decode_atomics :
    decode 0x101D855A = .ok (.amoswap .sequencer .rel .w 21 16 29)
    ∧ decode 0x0C242B9A = .ok (.amoadd .sequencer .acq .d 14 5 4)
    ∧ decode 0xA044719A = .ok (.amoand .system .rlx .w 6 14 4)
    ∧ decode 0x947CC65A = .ok (.amoor .device .rel .d 25 24 28)
    ∧ decode 0x4C82B05A = .ok (.amoxor .cluster .acq .d 1 22 2)
    ∧ decode 0x6CA4D3DA = .ok (.amomin .die .acq .d 15 26 4)
    ∧ decode 0x54C2A6DA = .ok (.amomax .cluster .rel .d 27 20 2)
    ∧ decode 0x2CEE6FDA = .ok (.amominu .core .acq .d 31 13 14)
    ∧ decode 0x1D042E1A = .ok (.amomaxu .sequencer .ar .d 24 5 4)
    ∧ decode 0x85223D5A = .ok (.amofadd .device .rlx .d 21 7 2)
    ∧ decode 0x2151185A = .ok (.amocas .core .rlx .w 1 3 17)
    ∧ decode 0x696019DA = .ok (.amold .die .acq .w 7 3)
    ∧ decode 0x319B281A = .ok (.amost .core .rel .w 5 27)
    ∧ decode 0x05B4EA5A = .ok (.amominp .sequencer .rlx 9 29 20) :=
  ⟨rfl, rfl, rfl, rfl, rfl, rfl, rfl, rfl, rfl, rfl, rfl, rfl, rfl, rfl⟩

theorem test_decode_waits :
    decode 0x003192DB = .ok (.wait 11 4 6 12)
    ∧ decode 0x00400A9B = .ok (.fence .acq .cluster 1)
    ∧ decode 0x008005DB = .ok (.qfence 7 1) :=
  ⟨rfl, rfl, rfl⟩

theorem test_decode_tasks :
    decode 0x0000001C = .ok (.texit)
    ∧ decode 0x0020981C = .ok (.tspawn 19)
    ∧ decode 0x005CD81C = .ok (.tjoin 27 28)
    ∧ decode 0x0075B81C = .ok (.hwpub 23 21) :=
  ⟨rfl, rfl, rfl, rfl⟩

theorem test_decode_gang_lane_sync :
    decode 0xDA6C101D = .ok (.gjoin 0x1b4d82)
    ∧ decode 0x0000005D = .ok (.gdetach)
    ∧ decode 0x0000889D = .ok (.lgrow 17)
    ∧ decode 0x000018DD = .ok (.lshrink 3)
    ∧ decode 0x0000011D = .ok (.valloc .n8)
    ∧ decode 0x0000095D = .ok (.bar 1)
    ∧ decode 0x0000D99D = .ok (.arrive 27)
    ∧ decode 0x000639DD = .ok (.await 7 6) :=
  ⟨rfl, rfl, rfl, rfl, rfl, rfl, rfl, rfl⟩

theorem test_decode_forwarding :
    decode 0x0000301E = .ok (.darn 6)
    ∧ decode 0x0030E15E = .ok (.peq 5 28 16)
    ∧ decode 0x0040825E = .ok (.fwdres 9 16)
    ∧ decode 0x0060D81E = .ok (.fwdmend 27)
    ∧ decode 0x0080A81E = .ok (.fwdrel 21) :=
  ⟨rfl, rfl, rfl, rfl, rfl⟩

theorem test_decode_kv :
    decode 0x000001DF = .ok (.kvalloc 7)
    ∧ decode 0x002CDD9F = .ok (.kvapp 22 27 12)
    ∧ decode 0x005B601F = .ok (.kvcommit 12 27)
    ∧ decode 0x006C77DF = .ok (.sbindkvK 7 14 12)
    ∧ decode 0x0087AF9F = .ok (.sbindkvV 6 21 7)
    ∧ decode 0x00A0F81F = .ok (.mangle 31)
    ∧ decode 0x00C0581F = .ok (.launder 11) :=
  ⟨rfl, rfl, rfl, rfl, rfl, rfl, rfl⟩

theorem test_decode_setvl :
    decode 0x05E8A460 = .ok (.setvl 17 20 0x5e8)
    ∧ decode 0xED53F1A0 = .ok (.setvlc 6 30 0x6d53) :=
  ⟨rfl, rfl⟩

theorem test_decode_vint_a :
    decode 0x007896E1 = .ok (.vadd .none 3 27 18 24)
    ∧ decode 0x0959B921 = .ok (.vsub .s1 2 4 23 25)
    ∧ decode 0x17364F21 = .ok (.vrsub .s64 1 28 9 22)
    ∧ decode 0x1FBD2561 = .ok (.vmul .s64 5 21 4 29)
    ∧ decode 0x252A87E1 = .ok (.vmulh .s16 1 31 16 10)
    ∧ decode 0x28964A21 = .ok (.vmulhu .none 4 8 9 22)
    ∧ decode 0x377187A1 = .ok (.vand .s64 3 30 16 17)
    ∧ decode 0x39B9DFA1 = .ok (.vor .s1 5 30 27 25)
    ∧ decode 0x43E9B2E1 = .ok (.vxor .s4 7 11 22 9)
    ∧ decode 0x4B5A3221 = .ok (.vsll .s4 2 8 6 26)
    ∧ decode 0x57FB4C21 = .ok (.vsrl .s64 7 16 9 27)
    ∧ decode 0x5D8B16E1 = .ok (.vsra .s16 4 27 2 11)
    ∧ decode 0x60A43561 = .ok (.vmin .none 5 21 6 4)
    ∧ decode 0x686C25E1 = .ok (.vmax .none 3 23 4 12)
    ∧ decode 0x71246FE1 = .ok (.vminu .s1 1 31 13 4)
    ∧ decode 0x7D698261 = .ok (.vmaxu .s16 3 9 16 9) :=
  ⟨rfl, rfl, rfl, rfl, rfl, rfl, rfl, rfl, rfl, rfl, rfl, rfl, rfl, rfl, rfl, rfl⟩

theorem test_decode_vint_b :
    decode 0x856B24A1 = .ok (.vsadd .s16 3 18 4 11)
    ∧ decode 0x887C2AE1 = .ok (.vsaddu .none 3 11 5 28)
    ∧ decode 0x9064B461 = .ok (.vssub .none 3 17 22 4)
    ∧ decode 0x9972FC61 = .ok (.vssubu .s1 3 17 31 18)
    ∧ decode 0xA7921F61 = .ok (.vdiv .s64 4 29 3 18)
    ∧ decode 0xAFA8A5A1 = .ok (.vdivu .s64 5 22 20 8)
    ∧ decode 0xB188B8E1 = .ok (.vrem .s1 4 3 23 8)
    ∧ decode 0xBB65CC21 = .ok (.vremu .s4 3 16 25 5)
    ∧ decode 0xC59391E1 = .ok (.vcmpeq .s16 4 7 18 19)
    ∧ decode 0xC8CBC8A1 = .ok (.vcmpne .none 6 2 25 11)
    ∧ decode 0xD3214961 = .ok (.vcmplt .s4 1 5 9 1)
    ∧ decode 0xDBA10921 = .ok (.vcmpltu .s4 5 4 1 1)
    ∧ decode 0xE0570921 = .ok (.vcmple .none 2 4 1 23)
    ∧ decode 0xE955B921 = .ok (.vcmpleu .s1 2 4 23 21)
    ∧ decode 0xF7E6FBE1 = .ok (.vmerge .s64 7 15 31 6)
    ∧ decode 0xFD970361 = .ok (.vmv .s16 4 13 23) :=
  ⟨rfl, rfl, rfl, rfl, rfl, rfl, rfl, rfl, rfl, rfl, rfl, rfl, rfl, rfl, rfl, rfl⟩

theorem test_decode_vfp_a :
    decode 0x059F0962 = .ok (.vfadd .s16 4 5 1 31)
    ∧ decode 0x0DE78622 = .ok (.vfsub .s16 7 24 16 7)
    ∧ decode 0x15972422 = .ok (.vfmul .s16 4 16 4 23)
    ∧ decode 0x1F423DA2 = .ok (.vfdiv .s64 2 22 7 2)
    ∧ decode 0x20500B62 = .ok (.vfmin .none 2 13 1 16)
    ∧ decode 0x2D313E22 = .ok (.vfmax .s16 1 24 7 17)
    ∧ decode 0x35595E22 = .ok (.vfsgnj .s16 2 24 11 25)
    ∧ decode 0x3FE9C362 = .ok (.vfsgnjn .s64 7 13 24 9)
    ∧ decode 0x43BB75A2 = .ok (.vfsgnjx .s4 5 22 14 27)
    ∧ decode 0x484009A2 = .ok (.vfsqrt 2 6 1)
    ∧ decode 0x50405EE2 = .ok (.vfrecip 2 27 11)
    ∧ decode 0x58C0CAE2 = .ok (.vfrsqrt 6 11 25)
    ∧ decode 0x60805162 = .ok (.vfexp2 4 5 10)
    ∧ decode 0x68A0FDA2 = .ok (.vflog2 5 22 31)
    ∧ decode 0x7040A9E2 = .ok (.vftanh 2 7 21)
    ∧ decode 0x78E021E2 = .ok (.vfclass 7 7 4) :=
  ⟨rfl, rfl, rfl, rfl, rfl, rfl, rfl, rfl, rfl, rfl, rfl, rfl, rfl, rfl, rfl, rfl⟩

theorem test_decode_vfp_b :
    decode 0x83985162 = .ok (.vfcmpeq .s4 4 5 10 24)
    ∧ decode 0x8BE171E2 = .ok (.vfcmpne .s4 7 7 14 1)
    ∧ decode 0x95D53922 = .ok (.vfcmplt .s16 6 4 7 21)
    ∧ decode 0x99B01962 = .ok (.vfcmple .s1 5 5 3 16)
    ∧ decode 0xA15C30E2 = .ok (.vfcmpgt .s1 2 3 6 28)
    ∧ decode 0xA93711A2 = .ok (.vfcmpge .s1 1 6 2 23)
    ∧ decode 0xB0AFCB22 = .ok (.vfmaxexp 5 12 25 15) :=
  ⟨rfl, rfl, rfl, rfl, rfl, rfl, rfl⟩

theorem test_decode_vfma :
    decode 0x03D4FC63 = .ok (.vfmacc .s4 6 17 31 20)
    ∧ decode 0x0F239D23 = .ok (.vfnmacc .s64 1 20 19 3)
    ∧ decode 0x11EF0EA3 = .ok (.vfmsac .s1 7 26 1 15)
    ∧ decode 0x1F292463 = .ok (.vfnmsac .s64 1 17 4 9)
    ∧ decode 0x204FBFA3 = .ok (.vfwmacc .none 2 30 23 15)
    ∧ decode 0x2944CCA3 = .ok (.vfdot4 .s1 2 18 25 4)
    ∧ decode 0x35445FE3 = .ok (.vl6mul .s16 2 31 11 4)
    ∧ decode 0x38BFA6E3 = .ok (.vl6dot .none 5 27 20 31)
    ∧ decode 0x412F6BA3 = .ok (.vmacc .s1 1 14 13 15)
    ∧ decode 0x482639E3 = .ok (.vwmacc .none 1 7 7 6) :=
  ⟨rfl, rfl, rfl, rfl, rfl, rfl, rfl, rfl, rfl, rfl⟩

theorem test_decode_vcvt :
    decode 0x00A912A4 = .ok (.vcvt 5 10 2 .e2m1)
    ∧ decode 0x0823A1A4 = .ok (.vcvti 1 6 20 .e16)
    ∧ decode 0x10241A24 = .ok (.vcvtu 1 8 3 .e32)
    ∧ decode 0x1829F3A4 = .ok (.vcvtsr 1 14 30 .e2m1)
    ∧ decode 0x20E6C3A4 = .ok (.vquant 7 14 24 6)
    ∧ decode 0x28DF4EE4 = .ok (.vdequant 6 27 9 31) :=
  ⟨rfl, rfl, rfl, rfl, rfl, rfl⟩

theorem test_decode_vmask_perm_a :
    decode 0x000318E5 = .ok (.kand 3 3 3)
    ∧ decode 0x080130E5 = .ok (.kor 3 6 1)
    ∧ decode 0x100629A5 = .ok (.kxor 6 5 6)
    ∧ decode 0x18033125 = .ok (.kandn 4 6 3)
    ∧ decode 0x20000925 = .ok (.knot 4 1)
    ∧ decode 0x28001AE5 = .ok (.kpop 11 3)
    ∧ decode 0x300031E5 = .ok (.kfirst 7 6)
    ∧ decode 0x38201C25 = .ok (.vcompress 1 16 3)
    ∧ decode 0x40A05CA5 = .ok (.vexpand 5 18 11)
    ∧ decode 0x48C03725 = .ok (.vprefpop 6 28 6)
    ∧ decode 0x5060DEE5 = .ok (.vconflict 3 27 27)
    ∧ decode 0x5848C4E5 = .ok (.vslideup 2 19 24 8)
    ∧ decode 0x60646CA5 = .ok (.vslidedown 3 18 13 4)
    ∧ decode 0x68379565 = .ok (.vrgather 1 21 18 23)
    ∧ decode 0x70800765 = .ok (.vid 4 29)
    ∧ decode 0x7800FAA5 = .ok (.vmvx 10 31) :=
  ⟨rfl, rfl, rfl, rfl, rfl, rfl, rfl, rfl, rfl, rfl, rfl, rfl, rfl, rfl, rfl, rfl⟩

theorem test_decode_vmask_perm_b :
    decode 0x800023A5 = .ok (.vmvxs 14 4) :=
  rfl

theorem test_decode_vred :
    decode 0x00B9A626 = .ok (.vredsum 5 24 20 25)
    ∧ decode 0x086F8066 = .ok (.vredmin 3 1 16 15)
    ∧ decode 0x10CCD126 = .ok (.vredmax 6 4 26 12)
    ∧ decode 0x18844D26 = .ok (.vredminu 4 20 9 4)
    ∧ decode 0x2091A8A6 = .ok (.vredmaxu 4 2 21 17)
    ∧ decode 0x2881D1A6 = .ok (.vredand 4 6 26 1)
    ∧ decode 0x3046EBE6 = .ok (.vredor 2 15 29 6)
    ∧ decode 0x38D85D26 = .ok (.vredxor 6 20 11 24)
    ∧ decode 0x40FB5FE6 = .ok (.vfredsum 7 31 11 27)
    ∧ decode 0x48F8CAE6 = .ok (.vfredsum2 7 11 25 24)
    ∧ decode 0x50AD3FE6 = .ok (.vfredmin 5 31 7 13)
    ∧ decode 0x58E25F26 = .ok (.vfredmax 7 28 11 2)
    ∧ decode 0x60704766 = .ok (.vtopk 3 29 8 16)
    ∧ decode 0x68C558A6 = .ok (.vsegscan 6 2 11 5)
    ∧ decode 0x7041C2A6 = .ok (.vfsegscan 2 10 24 1) :=
  ⟨rfl, rfl, rfl, rfl, rfl, rfl, rfl, rfl, rfl, rfl, rfl, rfl, rfl, rfl, rfl⟩

theorem test_decode_vstr :
    decode 0x0070EEA7 = .ok (.vbcmp 3 26 29 16)
    ∧ decode 0x08BAA927 = .ok (.vbeq 5 4 21 26)
    ∧ decode 0x10D356E7 = .ok (.vbfind 6 27 10 19)
    ∧ decode 0x19CAEEA7 = .ok (.vqmix .s1 6 26 29 10)
    ∧ decode 0x203999A7 = .ok (.vhacc 1 6 19 25)
    ∧ decode 0x28BA8AA7 = .ok (.vnfa 5 10 17 26)
    ∧ decode 0x3027E827 = .ok (.vkvmass 1 29 7)
    ∧ decode 0x38A05627 = .ok (.vkvpos 5 24 10) :=
  ⟨rfl, rfl, rfl, rfl, rfl, rfl, rfl, rfl⟩

theorem test_decode_vload :
    decode 0x00207668 = .ok (.vld 1 25 14)
    ∧ decode 0x018D48A8 = .ok (.vlds 4 2 9 13)
    ∧ decode 0x423638A8 = .ok (.vldxo .x32 1 2 7 22)
    ∧ decode 0x43691EA8 = .ok (.vldx .x32 3 26 3 9)
    ∧ decode 0x080029E8 = .ok (.vldk 7 5)
    ∧ decode 0x10003DE8 = .ok (.vldw 23 7) :=
  ⟨rfl, rfl, rfl, rfl, rfl, rfl⟩

theorem test_decode_vstore :
    decode 0x00C088A9 = .ok (.vst 6 2 17)
    ∧ decode 0x018FB0A9 = .ok (.vsts 4 2 22 15)
    ∧ decode 0x8295AA69 = .ok (.vstxo .x64 4 9 21 21)
    ∧ decode 0x037CD969 = .ok (.vstx .data 3 5 27 28)
    ∧ decode 0x08002929 = .ok (.vstk 4 5)
    ∧ decode 0x10004DA9 = .ok (.vstw 22 9) :=
  ⟨rfl, rfl, rfl, rfl, rfl, rfl⟩

theorem test_decode_vamo :
    decode 0x023E46EA = .ok (.vamoadd .indexed 1 27 8 30)
    ∧ decode 0x096CA3AA = .ok (.vamoand .strided 3 14 20 12)
    ∧ decode 0x11A2522A = .ok (.vamoor .strided 5 8 10 2)
    ∧ decode 0x19CB0CEA = .ok (.vamoxor .strided 6 19 1 11)
    ∧ decode 0x22A1336A = .ok (.vamomin .indexed 5 13 6 1)
    ∧ decode 0x29FD31AA = .ok (.vamomax .strided 7 6 6 29)
    ∧ decode 0x329F80AA = .ok (.vamominu .indexed 4 2 16 31)
    ∧ decode 0x3942C6EA = .ok (.vamomaxu .strided 2 27 24 2)
    ∧ decode 0x4263A5AA = .ok (.vamoswap .indexed 3 22 20 3)
    ∧ decode 0x49E1ECEA = .ok (.vamofadd .strided 7 19 29 1) :=
  ⟨rfl, rfl, rfl, rfl, rfl, rfl, rfl, rfl, rfl, rfl⟩

theorem test_decode_vq :
    decode 0x002E8AEB = .ok (.vfmadd 11 17 14 1)
    ∧ decode 0x0522586B = .ok (.vfmsub 1 11 2 9)
    ∧ decode 0x0B86B06B = .ok (.vfnmadd 1 22 6 28)
    ∧ decode 0x0FCBB62B = .ok (.vfnmsub 24 22 11 30)
    ∧ decode 0x102354AB = .ok (.vbsel 18 10 3 1)
    ∧ decode 0x178C7BAB = .ok (.vmadd 14 15 12 28) :=
  ⟨rfl, rfl, rfl, rfl, rfl, rfl⟩

theorem test_decode_copy_stream :
    decode 0x0040782C = .ok (.tcopy 2 15)
    ∧ decode 0x00F216AC = .ok (.copy1d 3 26 2 18)
    ∧ decode 0x010016EC = .ok (.sbind 3 2)
    ∧ decode 0x018007AC = .ok (.sunbind 6) :=
  ⟨rfl, rfl, rfl, rfl⟩

theorem test_decode_stage :
    decode 0x0000782D = .ok (.tqtile 15)
    ∧ decode 0x0020E82D = .ok (.mstage 29)
    ∧ decode 0x0040402D = .ok (.mchain 8)
    ∧ decode 0x0060B82D = .ok (.mdense 23)
    ∧ decode 0x0080A82D = .ok (.mload 21)
    ∧ decode 0x00A0F82D = .ok (.mstore 31)
    ∧ decode 0x00C0902D = .ok (.mzero 18) :=
  ⟨rfl, rfl, rfl, rfl, rfl, rfl, rfl⟩
/-! ## One step of single instructions -/

theorem test_add_wraps : after (.add 3 1 2) (start fun t => (t.writeX 1 (-1)).writeX 2 2) (·.me.readX 3) = some 1 := by
  decide +kernel
theorem test_x0_takes_no_write : after (.addi 0 0 7) (start id) (fun s => (s.me.readX 0, s.me.pc)) = some (0, 0x1004) := by
  decide +kernel
theorem test_sub_borrows : after (.sub 1 1 2) (start fun t => (t.writeX 1 3).writeX 2 5) (·.me.readX 1) = some (-2) := by
  decide +kernel
theorem test_andn : after (.andn 3 1 2) (start fun t => (t.writeX 1 0xFF).writeX 2 0x0F) (·.me.readX 3) = some 0xF0 := by
  decide +kernel
theorem test_sra_keeps_the_sign :
    after (.sra 3 1 2) (start fun t => (t.writeX 1 0x8000000000000000).writeX 2 0x43) (·.me.readX 3) = some 0xF000000000000000 := by
  decide +kernel
theorem test_mulh_signs : after (.mulh 3 1 2) (start fun t => (t.writeX 1 (-1)).writeX 2 (-1)) (·.me.readX 3) = some 0 := by
  decide +kernel
theorem test_mulhsu_signs : after (.mulhsu 3 1 2) (start fun t => (t.writeX 1 (-1)).writeX 2 (-1)) (·.me.readX 3) = some (-1) := by
  decide +kernel
/-- R83: the quotient of the least number by −1 is the least number; a division by zero gives all ones. -/
theorem test_div_corners :
    (after (.div 3 1 2) (start fun t => (t.writeX 1 0x8000000000000000).writeX 2 (-1)) (·.me.readX 3) = some 0x8000000000000000)
    ∧ (after (.div 3 1 0) (start fun t => t.writeX 1 5) (·.me.readX 3) = some (-1)) := by decide +kernel
theorem test_rem_corners :
    (after (.rem 3 1 2) (start fun t => (t.writeX 1 (-7)).writeX 2 2) (·.me.readX 3) = some (-1))
    ∧ (after (.remu 3 1 0) (start fun t => t.writeX 1 5) (·.me.readX 3) = some 5) := by decide +kernel
theorem test_max_is_signed : after (.max 3 1 2) (start fun t => (t.writeX 1 (-1)).writeX 2 1) (·.me.readX 3) = some 1 := by
  decide +kernel
theorem test_minu_is_unsigned : after (.minu 3 1 2) (start fun t => (t.writeX 1 (-1)).writeX 2 1) (·.me.readX 3) = some 1 := by
  decide +kernel
theorem test_clz_of_zero : after (.clz 3 0) (start id) (·.me.readX 3) = some 64 := by decide +kernel
theorem test_ctz_of_zero : after (.ctz 3 0) (start id) (·.me.readX 3) = some 64 := by decide +kernel
theorem test_bswap : after (.bswap 3 1) (start fun t => t.writeX 1 0x0102030405060708) (·.me.readX 3) = some 0x0807060504030201 := by
  decide +kernel
theorem test_rotl_full : after (.rotl 3 1 2) (start fun t => (t.writeX 1 5).writeX 2 64) (·.me.readX 3) = some 5 := by
  decide +kernel
theorem test_addi_extends : after (.addi 3 0 0xFFFF) (start id) (·.me.readX 3) = some (-1) := by decide +kernel
theorem test_ori_does_not : after (.ori 3 0 0xFFFF) (start id) (·.me.readX 3) = some 0xFFFF := by decide +kernel
theorem test_ldhi_extends : after (.ldhi 3 0x100000) (start id) (·.me.readX 3) = some 0xFFFFFFF000000000 := by decide +kernel
theorem test_pcadd : after (.pcadd 3 1) (start id) (·.me.readX 3) = some 0x11000 := by decide +kernel
theorem test_srli : after (.srli 3 1 63) (start fun t => t.writeX 1 (-1)) (·.me.readX 3) = some 1 := by decide +kernel
theorem test_cmpltui_zero_extends : after (.cmpltui 2 1 0xFFFF) (start fun t => t.writeX 1 0xFFFE) (·.me.readC 2) = some true := by
  decide +kernel
theorem test_cmplti_sign_extends : after (.cmplti 2 1 0xFFFF) (start fun t => t.writeX 1 0xFFFE) (·.me.readC 2) = some false := by
  decide +kernel
theorem test_c0_takes_no_write : after (.cmpne 0 0 0) (start id) (·.me.readC 0) = some true := by decide +kernel
theorem test_candn : after (.candn 3 0 2) (start id) (·.me.readC 3) = some true := by decide +kernel

/-- 1.5 + 2.25 = 3.75, exactly; 1 / 3 is inexact. -/
theorem test_fadd : after (.fadd .s .rne 3 1 2) (start fun t => (t.writeX 1 0x3FC00000).writeX 2 0x40100000)
    (fun s => (s.me.readX 3, s.me.fflags)) = some (0x40700000, 0) := by decide +kernel
theorem test_fdiv_inexact : after (.fdiv .s .rne 3 1 2) (start fun t => (t.writeX 1 0x3F800000).writeX 2 0x40400000)
    (fun s => (s.me.readX 3, s.me.fflags)) = some (0x3EAAAAAB, 1) := by decide +kernel
theorem test_fsqrt_of_a_negative : after (.fsqrt .s .rne 3 1) (start fun t => t.writeX 1 0xBF800000)
    (fun s => (s.me.readX 3, s.me.fflags)) = some (0x7FC00000, 16) := by decide +kernel
theorem test_ftow_saturates : after (.ftow .s .rtz 3 1) (start fun t => t.writeX 1 0x4F000000)
    (fun s => (s.me.readX 3, s.me.fflags)) = some (0x7FFFFFFF, 16) := by decide +kernel
theorem test_fmadd_rounds_once :
    after (.fmadd .s .rne 4 1 2 3) (start fun t => ((t.writeX 1 0x3F800001).writeX 2 0x3F800001).writeX 3 0xBF800002)
      (·.me.readX 4) = some 0x28800000 := by decide +kernel
theorem test_feq_of_nan : after (.feq .s 2 1 1) (start fun t => t.writeX 1 0x7FC00000)
    (fun s => (s.me.readC 2, s.me.fflags)) = some (false, 0) := by decide +kernel

theorem test_bt_not_taken : after (.bt 2 8) (start id) (·.me.pc) = some 0x1004 := by decide +kernel
theorem test_bf_backward : after (.bf 2 0x1FFFFF) (start id) (·.me.pc) = some 0xFFC := by decide +kernel
theorem test_jal_links : after (.jal 1 2) (start id) (fun s => (s.me.pc, s.me.readX 1)) = some (0x1008, 0x1004) := by decide +kernel
theorem test_jalr_misaligned : after (.jalr 1 2 2) (start id)
    (fun s => (s.me.pc, s.me.epc, s.me.ecause, s.me.etval, s.me.readX 1)) = some (0x8000, 0x1000, 5, 2, 0) := by decide +kernel
/-- R91, R92: a body of one instruction runs twice. -/
theorem test_loopi_pushes : after (.loopi 2 1) (start id)
    (fun s => (s.me.lpdepth, (s.me.level 0).cnt, (s.me.level 0).beg, (s.me.level 0).fin)) = some (1, 1, 0x1004, 0x1004) := by
  decide +kernel
theorem test_loop_back_edge :
    after (.addi 1 1 1) (start fun t => { t with lpdepth := 1, pc := 0x1004 }.setLevel 0 { beg := 0x1004, fin := 0x1004, cnt := 1, idx := 0 })
      (fun s => (s.me.pc, s.me.lpdepth, (s.me.level 0).cnt, (s.me.level 0).idx)) = some (0x1004, 1, 0, 1) := by decide +kernel
theorem test_loop_pops :
    after .loopBackEdge (start fun t => { t with lpdepth := 1, pc := 0x1004 }.setLevel 0 { beg := 0x1004, fin := 0x1004, cnt := 0, idx := 1 })
      (fun s => (s.me.pc, s.me.lpdepth)) = some (0x1008, 0) := by decide +kernel
theorem test_bs_second_strike_traps :
    after (.bs 0x1FFFFF) (start fun t => { t.writeC 7 true with spt := [{ addr := 0x1000, count := 5, strikes := 1 }], captured := 5, setvlAddr := 0x900 })
      (fun s => (s.me.ecause, s.me.etval)) = some (13, 0x900) := by decide +kernel

theorem test_ldB_extends : after (.ldB 3 1 1) (inPad 0 [0x80FF] (start fun t => t.writeX 1 pad)) (·.me.readX 3) = some (-128) := by
  decide +kernel
theorem test_ldD_is_little_endian : after (.ldD 3 1 8) (inPad 8 [0x1122334455667788] (start fun t => t.writeX 1 pad)) (·.me.readX 3)
    = some 0x1122334455667788 := by decide +kernel
theorem test_ldW_misaligned : after (.ldW 3 1 2) (start fun t => t.writeX 1 pad) (fun s => (s.me.ecause, s.me.etval)) = some (6, pad + 2) := by
  decide +kernel
theorem test_stH_stores_two_bytes :
    after (.stH 1 2 2) (inPad 0 [0xFFFFFFFFFFFFFFFF] (start fun t => (t.writeX 1 pad).writeX 2 0xABCD1234)) (padQuad 0)
      = some 0xFFFFFFFF1234FFFF := by decide +kernel
theorem test_store_through_a_page :
    after (.stW 0 2 8) (mapped (start fun t => t.writeX 2 0x11223344)) (fun s => (s.me.pc, stqLine s 0 (0x20000 / 64) |>.byte 8))
      = some (0x1004, 0x44) := by decide +kernel
theorem test_load_unmapped : after (.ldD 3 1 0) (mapped (start fun t => t.writeX 1 0x8000)) (fun s => (s.me.ecause, s.me.etval)) = some (7, 0x8000) := by
  decide +kernel

theorem test_amoadd_returns_the_old_value :
    after (.amoadd .core .rlx .w 3 1 2) (inPad 0 [0xFFFFFFFF] (start fun t => (t.writeX 1 pad).writeX 2 2))
      (fun s => (s.me.readX 3, padQuad 0 s)) = some (-1, 1) := by decide +kernel
theorem test_amocas_fails : after (.amocas .core .rlx .d 3 1 2) (inPad 0 [7] (start fun t => ((t.writeX 1 pad).writeX 2 9).writeX 3 8))
    (fun s => (s.me.readX 3, padQuad 0 s)) = some (7, 7) := by decide +kernel
theorem test_amocas_swaps : after (.amocas .core .rlx .d 3 1 2) (inPad 0 [7] (start fun t => ((t.writeX 1 pad).writeX 2 9).writeX 3 7))
    (fun s => (s.me.readX 3, padQuad 0 s)) = some (7, 9) := by decide +kernel
theorem test_amominu : after (.amominu .core .rlx .d 3 1 2) (inPad 0 [7] (start fun t => (t.writeX 1 pad).writeX 2 (-1)))
    (fun s => padQuad 0 s) = some 7 := by decide +kernel

/-! ## System instructions, CSRs, waits -/

theorem test_ecall : after .ecall (start id) (fun s => (s.me.pc, s.me.epc, s.me.ecause, s.me.etval, s.me.status)) = some (0x8000, 0x1004, 16, 0x1000, 1) := by
  decide +kernel
theorem test_eret : after .eret (start fun t => { t with status := 5, epc := 0x2000 }) (fun s => (s.me.pc, s.me.status)) = some (0x2000, 1) := by
  decide +kernel
theorem test_eret_at_u : after .eret (start id) (fun s => (s.me.ecause, s.me.etval)) = some (3, 0x00400019) := by decide +kernel
theorem test_illegal : after (.illegalInstruction 0) (start id) (fun s => (s.me.ecause, s.me.etval)) = some (1, 0) := by decide +kernel
theorem test_csr_read_vlmax :
    after (.csrrs 16 4 0) (startVec 0x4014 3 id) (·.me.readX 16) = some 256 := by decide +kernel
theorem test_texit_frees_the_slot : after .texit (start id) (fun s => ((s.slot 0).busy, (s.slot 0).evec)) = some (false, 0x8000) := by decide +kernel
theorem test_wait_holds :
    after (.wait 15 15 0 15) (mapCore 0 (fun k => { k with copies := [aCopy 0 0] }) (start id))
      (fun s => (s.me.pc, s.me.waiting.map (·.kind))) = some (0x1000, some .counts) := by decide +kernel
theorem test_wait_passes : after (.wait 0 0 0 0) (start id) (fun s => (s.me.pc, s.me.waiting)) = some (0x1004, none) := by decide +kernel
theorem test_csr_of_the_supervisor : after (.csrrw 1 0x1011 2) (start id) (fun s => (s.me.ecause, s.me.readX 1)) = some (3, 0) := by
  decide +kernel
/-- R49, chapter 22: rd is written before the CSR takes X[rs1]. -/
theorem test_csr_no_swap : after (.csrrw 1 0x1004 1) (start fun t => { t.writeX 1 0x4000 with status := 1, evec := 0x8000 })
    (fun s => (s.me.readX 1, s.me.evec)) = some (0x8000, 0x8000) := by decide +kernel
theorem test_csr_write : after (.csrrw 1 0x1004 2) (start fun t => { t.writeX 2 0x4000 with status := 1, evec := 0x8000 })
    (fun s => (s.me.readX 1, s.me.evec)) = some (0x8000, 0x4000) := by decide +kernel
theorem test_csr_set_bits : after (.csrrs 1 0x020 2) (start fun t => { t.writeX 2 2 with fflags := 1 })
    (fun s => (s.me.readX 1, s.me.fflags)) = some (1, 3) := by decide +kernel
theorem test_csr_clear_bits : after (.csrrc 1 0x020 2) (start fun t => { t.writeX 2 1 with fflags := 3 })
    (fun s => (s.me.readX 1, s.me.fflags)) = some (3, 2) := by decide +kernel
theorem test_frm_reserved_mode : after (.csrrw 0 0x021 2) (start fun t => t.writeX 2 5) (fun s => (s.me.ecause, s.me.frm)) = some (2, 0) := by
  decide +kernel
/-! ## One step of vector instructions

The images: 0x0004 is int at 32 bits, 0x000C uint at 32, 0x0002 int at 8, 0x000D uint at 64, 0x0014 fp32, 0x001B fp16, 0x002A e4m3, all
of sequencer scope (R19 to R21). -/

theorem test_setvl : after (.setvl 13 5 0x0014) (start fun t => t.writeX 5 300) (fun s => (s.me.readX 13, s.me.vl, s.me.readC 7, s.me.vtype))
    = some (256, 256, true, 0x0014) := by decide +kernel
theorem test_setvl_of_nothing : after (.setvl 13 0 0x0014) (start id) (fun s => (s.me.readX 13, s.me.readC 7)) = some (0, false) := by
  decide +kernel
theorem test_setvl_invalid : after (.setvl 13 5 0x0010) (start fun t => t.writeX 5 3) (fun s => (s.me.vill, s.me.vl)) = some (true, 0) := by
  decide +kernel
theorem test_valloc_keeps_the_lanes : after (.valloc .n16) (start id) (fun s => (s.me.valloc, s.me.vill)) = some (16, true) := by decide +kernel

theorem test_vadd_wraps : after (.vadd .none 0 3 1 2) (startVec 0x0004 3 (put 1 32 [1, 0xFFFFFFFF, 7] ∘ put 2 32 [1, 2, 3])) (got 3 32 3 ·.me)
    = some [2, 1, 10] := by decide +kernel
theorem test_vadd_masked : after (.vadd .none 1 3 1 2) (startVec 0x0004 3 ((·.setKbit 1 1 true) ∘ put 1 32 [1, 2, 3] ∘ put 2 32 [4, 5, 6] ∘ put 3 32 [9, 9, 9]))
    (got 3 32 3 ·.me) = some [9, 7, 9] := by decide +kernel
theorem test_vadd_tail_zero : after (.vadd .none 0 3 1 2) (startVec 0x0404 1 (put 1 32 [1] ∘ put 2 32 [4] ∘ put 3 32 [9, 9, 9])) (got 3 32 3 ·.me)
    = some [5, 0, 0] := by decide +kernel
theorem test_vadd_from_vstart : after (.vadd .none 0 3 1 2) (startVec 0x0004 2 ((fun t => { t with vstart := 1 }) ∘ put 1 32 [1, 1] ∘ put 2 32 [4, 4]))
    (fun s => (got 3 32 2 s.me, s.me.vstart)) = some ([0, 5], 0) := by decide +kernel
theorem test_vsub_replicated : after (.vsub .s1 0 3 1 2) (startVec 0x0004 2 (put 1 32 [5, 6] ∘ put 2 32 [2, 9])) (got 3 32 2 ·.me)
    = some [3, 4] := by decide +kernel
theorem test_vrsub : after (.vrsub .none 0 3 1 2) (startVec 0x0002 1 (put 1 8 [5] ∘ put 2 8 [2])) (got 3 8 1 ·.me) = some [0xFD] := by decide +kernel
theorem test_vsadd_saturates : after (.vsadd .none 0 3 1 2) (startVec 0x0002 2 (put 1 8 [127, 0x80] ∘ put 2 8 [1, 0xFF])) (got 3 8 2 ·.me)
    = some [127, 0x80] := by decide +kernel
theorem test_vssubu_floors : after (.vssubu .none 0 3 1 2) (startVec 0x0002 1 (put 1 8 [1] ∘ put 2 8 [2])) (got 3 8 1 ·.me) = some [0] := by decide +kernel
theorem test_vmulh : after (.vmulh .none 0 3 1 2) (startVec 0x0002 1 (put 1 8 [0x80] ∘ put 2 8 [0x80])) (got 3 8 1 ·.me) = some [0x40] := by decide +kernel
theorem test_vdiv_by_zero : after (.vdiv .none 0 3 1 2) (startVec 0x0002 1 (put 1 8 [5])) (got 3 8 1 ·.me) = some [0xFF] := by decide +kernel
theorem test_vsra_modulo : after (.vsra .none 0 3 1 2) (startVec 0x0002 1 (put 1 8 [0x80] ∘ put 2 8 [9])) (got 3 8 1 ·.me) = some [0xC0] := by decide +kernel
theorem test_vmerge : after (.vmerge .none 1 3 1 2) (startVec 0x0002 2 ((·.setKbit 1 1 true) ∘ put 1 8 [1, 2] ∘ put 2 8 [3, 4])) (got 3 8 2 ·.me)
    = some [1, 4] := by decide +kernel
theorem test_vcmplt_is_signed : after (.vcmplt .none 0 1 1 2) (startVec 0x0002 2 (put 1 8 [0xFF, 1] ∘ put 2 8 [0, 0])) (fun s => (s.me.kbit 1 0, s.me.kbit 1 1))
    = some (true, false) := by decide +kernel
theorem test_vint_at_vill : after (.vadd .none 0 3 1 2) (start fun t => t) (fun s => (s.me.ecause, s.me.pc)) = some (1, 0x8000) := by decide +kernel
theorem test_vint_first_use : after (.vadd .none 0 3 1 2) (startVec 0x0004 1 fun t => { t with vstate := 0 }) (·.me.ecause) = some 4 := by decide +kernel
theorem test_vint_wrong_class : after (.vadd .none 0 3 1 2) (startVec 0x0014 1 id) (·.me.ecause) = some 2 := by decide +kernel

theorem test_vfadd : after (.vfadd .none 0 3 1 2) (startVec 0x0014 2 (put 1 32 [0x3FC00000, 0x7F7FFFFF] ∘ put 2 32 [0x40100000, 0x7F7FFFFF]))
    (fun s => (got 3 32 2 s.me, s.me.fflags)) = some ([0x40700000, 0x7F800000], 5) := by decide +kernel
theorem test_vfcmpgt_k17 : after (.vfcmpgt .s1 0 1 4 7) (startVec 0x0014 2 (put 4 32 [0x40000000, 0x3F000000] ∘ put 7 32 [0x3F800000]))
    (fun s => (s.me.kbit 1 0, s.me.kbit 1 1)) = some (true, false) := by decide +kernel
theorem test_vfmacc : after (.vfmacc .none 0 3 1 2) (startVec 0x0014 1 (put 1 32 [0x40000000] ∘ put 2 32 [0x40400000] ∘ put 3 32 [0x3F800000]))
    (got 3 32 1 ·.me) = some [0x40E00000] := by decide +kernel
theorem test_vmacc : after (.vmacc .none 0 3 1 2) (startVec 0x0002 1 (put 1 8 [20] ∘ put 2 8 [13] ∘ put 3 8 [3])) (got 3 8 1 ·.me) = some [7] := by
  decide +kernel
theorem test_vbsel : after (.vbsel 4 1 2 3) (startVec 0x0002 1 (put 1 8 [0xF0] ∘ put 2 8 [0x0F] ∘ put 3 8 [0x3C])) (got 4 8 1 ·.me) = some [0x33] := by
  decide +kernel
theorem test_vcvti : after (.vcvti 0 3 1 .e32) (startVec 0x0014 1 (put 1 32 [0xFFFFFFFE])) (got 3 32 1 ·.me) = some [0xC0000000] := by decide +kernel
theorem test_vcvt_to_fp16 : after (.vcvt 0 4 2 .fp32) (startVec 0x001B 1 (put 2 32 [0x3FC00000])) (got 4 16 1 ·.me) = some [0x3E00] := by decide +kernel
/-- R60, R118: the greatest exponent is that of 8.0, and 3 − 2 + 127 = 128. -/
theorem test_vfmaxexp : after (.vfmaxexp 0 3 1 2) (startVec 0x0014 2 (put 1 32 [0x41000000, 0x3F800000])) (got 3 8 1 ·.me) = some [128] := by decide +kernel
theorem test_vdequant : after (.vdequant 0 4 1 2) (startVec 0x002A 1 (put 1 8 [0x38] ∘ put 2 8 [128])) (got 4 32 1 ·.me) = some [0x40000000] := by
  decide +kernel

theorem test_kandn : after (.kandn 1 2 3) (startVec 0x0002 2 ((·.setKbit 3 0 true) ∘ (·.setKbit 2 1 true) ∘ (·.setKbit 2 0 true)))
    (fun s => (s.me.kbit 1 0, s.me.kbit 1 1)) = some (false, true) := by decide +kernel
theorem test_kfirst_of_none : after (.kfirst 3 1) (startVec 0x0002 2 id) (·.me.readX 3) = some (-1) := by decide +kernel
theorem test_kpop : after (.kpop 3 1) (startVec 0x0002 3 ((·.setKbit 1 0 true) ∘ (·.setKbit 1 2 true) ∘ (·.setKbit 1 3 true))) (·.me.readX 3) = some 2 := by
  decide +kernel
theorem test_vcompress : after (.vcompress 1 3 1) (startVec 0x0002 3 ((·.setKbit 1 0 true) ∘ (·.setKbit 1 2 true) ∘ put 1 8 [7, 8, 9] ∘ put 3 8 [1, 1, 1]))
    (got 3 8 3 ·.me) = some [7, 9, 1] := by decide +kernel
theorem test_vexpand : after (.vexpand 1 3 1) (startVec 0x0002 3 ((·.setKbit 1 0 true) ∘ (·.setKbit 1 2 true) ∘ put 1 8 [7, 8, 9] ∘ put 3 8 [1, 1, 1]))
    (got 3 8 3 ·.me) = some [7, 1, 8] := by decide +kernel
theorem test_vslideup : after (.vslideup 0 3 1 2) (startVec 0x0002 3 ((·.writeX 2 1) ∘ put 1 8 [7, 8, 9] ∘ put 3 8 [1, 1, 1])) (got 3 8 3 ·.me)
    = some [1, 7, 8] := by decide +kernel
theorem test_vslidedown : after (.vslidedown 0 3 1 2) (startVec 0x0002 3 ((·.writeX 2 1) ∘ put 1 8 [7, 8, 9] ∘ put 3 8 [1, 1, 1])) (got 3 8 3 ·.me)
    = some [8, 9, 0] := by decide +kernel
theorem test_vrgather : after (.vrgather 0 3 1 2) (startVec 0x0002 3 (put 1 8 [7, 8, 9] ∘ put 2 8 [2, 0, 3])) (got 3 8 3 ·.me) = some [9, 7, 0] := by
  decide +kernel
theorem test_vid : after (.vid 0 3) (startVec 0x0002 3 id) (got 3 8 3 ·.me) = some [0, 1, 2] := by decide +kernel
theorem test_vconflict : after (.vconflict 0 3 1) (startVec 0x0002 3 (put 1 8 [7, 8, 7])) (got 3 8 3 ·.me) = some [0xFF, 0xFF, 0] := by decide +kernel
theorem test_vprefpop : after (.vprefpop 0 3 1) (startVec 0x0002 3 ((·.setKbit 1 0 true) ∘ (·.setKbit 1 1 true))) (got 3 8 3 ·.me) = some [0, 1, 2] := by
  decide +kernel
/-- R24, R27: an instruction that writes nothing leaves `vstate`; one that clears `vstart` has written it. -/
theorem test_nothing_written_keeps_vstate :
    let s := startVec 0x0002 0 fun t => { t with vstate := 2 }
    after (.vredsum 0 2 1 1) s (·.me.vstate) = some 2 ∧ after (.kpop 3 1) s (·.me.vstate) = some 2
    ∧ after (.vmvx 3 1) s (·.me.vstate) = some 2 ∧ after (.vid 0 3) s (·.me.vstate) = some 3
    ∧ after (.kpop 3 1) (startVec 0x0002 4 fun t => { t with vstate := 2, vstart := 1 }) (·.me.vstate) = some 3 := by decide +kernel

theorem test_vmvxs_extends : after (.vmvxs 3 1) (startVec 0x0002 1 (put 1 8 [0x80])) (·.me.readX 3) = some (-128) := by decide +kernel
theorem test_vmvx : after (.vmvx 3 1) (startVec 0x0002 2 ((·.writeX 1 0x1FF) ∘ put 3 8 [1, 1])) (got 3 8 2 ·.me) = some [0xFF, 1] := by decide +kernel
theorem test_vredsum : after (.vredsum 0 3 1 2) (startVec 0x0002 3 (put 1 8 [1, 2, 0xFF] ∘ put 2 8 [10])) (got 3 8 1 ·.me) = some [12] := by decide +kernel
theorem test_vredmaxu_masked : after (.vredmaxu 1 3 1 2) (startVec 0x0002 3 ((·.setKbit 1 1 true) ∘ put 1 8 [9, 5, 0xFF] ∘ put 2 8 [3])) (got 3 8 1 ·.me)
    = some [5] := by decide +kernel
theorem test_vfredsum : after (.vfredsum 0 3 1 2) (startVec 0x0014 2 (put 1 32 [0x3F800000, 0x40000000] ∘ put 2 32 [0x3F000000])) (got 3 32 1 ·.me)
    = some [0x40600000] := by decide +kernel
theorem test_vsegscan : after (.vsegscan 0 3 1 2) (startVec 0x0002 4 ((·.setKbit 2 2 true) ∘ put 1 8 [1, 2, 3, 4])) (got 3 8 4 ·.me) = some [1, 3, 3, 7] := by
  decide +kernel
theorem test_vtopk : after (.vtopk 0 4 1 2) (startVec 0x000C 2 (put 1 32 [5, 9] ∘ put 2 32 [50, 90] ∘ put 4 32 [7, 1] ∘ put 5 32 [70, 10]))
    (fun s => (got 4 32 2 s.me, got 5 32 2 s.me)) = some ([9, 7], [90, 70]) := by decide +kernel

theorem test_vld : after (.vld 0 4 6) (inPad 0 [0x0000000200000001, 3] (startVec 0x0004 3 (·.writeX 6 pad))) (got 4 32 3 ·.me) = some [1, 2, 3] := by
  decide +kernel
theorem test_vlds : after (.vlds 0 4 6 7) (inPad 0 [1, 2, 3] (startVec 0x0004 3 ((·.writeX 6 pad) ∘ (·.writeX 7 8)))) (got 4 32 3 ·.me) = some [1, 2, 3] := by
  decide +kernel
theorem test_vldx : after (.vldx .data 0 4 6 8) (inPad 0 [0x201, 0x403] (startVec 0x0002 2 ((·.writeX 6 pad) ∘ put 8 8 [9, 1]))) (got 4 8 2 ·.me)
    = some [4, 2] := by decide +kernel
theorem test_vst : after (.vst 0 5 7) (inPad 0 [0xFFFFFFFFFFFFFFFF] (startVec 0x0002 3 ((·.writeX 7 pad) ∘ put 5 8 [1, 2, 3]))) (padQuad 0)
    = some 0xFFFFFFFFFF030201 := by decide +kernel
theorem test_vst_masked : after (.vst 1 5 7) (startVec 0x0002 3 ((·.setKbit 1 1 true) ∘ (·.writeX 7 pad) ∘ put 5 8 [1, 2, 3])) (padQuad 0)
    = some 0x0200 := by decide +kernel
theorem test_vsts : after (.vsts 0 5 7 8) (startVec 0x0002 2 ((·.writeX 7 pad) ∘ (·.writeX 8 2) ∘ put 5 8 [1, 2])) (padQuad 0) = some 0x020001 := by
  decide +kernel
theorem test_vldk : after (.vldk 1 6) (inPad 0 [5] (startVec 0x0002 3 (·.writeX 6 pad))) (fun s => (s.me.kbit 1 0, s.me.kbit 1 1, s.me.kbit 1 2))
    = some (true, false, true) := by decide +kernel
theorem test_vstk : after (.vstk 1 6) (inPad 0 [0xFFFF] (startVec 0x0002 3 ((·.setKbit 1 0 true) ∘ (·.writeX 6 pad)))) (padQuad 0) = some 0xFFF9 := by
  decide +kernel
theorem test_vamoadd : after (.vamoadd .unit 0 1 6 0) (inPad 0 [0x0000000200000001] (startVec 0x0004 2 ((·.writeX 6 pad) ∘ put 1 32 [10, 20]))) (padQuad 0)
    = some 0x000000160000000B := by decide +kernel
theorem test_vld_stops_at_a_fault :
    after (.vlds 0 4 6 7) (startVec 0x0002 2 ((·.writeX 6 (pad + 0x3FFFFF)) ∘ (·.writeX 7 1))) (fun s => (s.me.ecause, s.me.vstart, s.me.etval))
      = some (9, 1, pad + 0x400000) := by decide +kernel

theorem test_vbcmp : after (.vbcmp 0 3 1 2) (startVec 0x000D 2 (put 1 64 [0x0102, 5] ∘ put 2 64 [0x0201, 5])) (got 3 64 2 ·.me) = some [1, 0] := by
  decide +kernel
theorem test_vbeq_folds : after (.vbeq 0 1 1 2) (startVec 0x0002 2 (put 1 8 [0x41, 0x5B] ∘ put 2 8 [0x61, 0x7B])) (fun s => (s.me.kbit 1 0, s.me.kbit 1 1))
    = some (true, false) := by decide +kernel
theorem test_vbfind : after (.vbfind 0 3 1 2) (startVec 0x000D 2 (put 1 64 [0x030201, 0] ∘ put 2 64 [3, 9])) (got 3 64 2 ·.me) = some [2, 8] := by
  decide +kernel
/-- R145: Qmix64(0, 0) = 0. -/
theorem test_vqmix_of_zeros : after (.vqmix .none 0 3 1 2) (startVec 0x000D 1 (put 3 64 [7])) (got 3 64 1 ·.me) = some [0] := by decide +kernel
/-- R147: two equal keys are added in one slot; Qmix64(0, 0) = 0 names slot 0. -/
theorem test_vhacc : after (.vhacc 0 9 1 2) (inPad 0 [(pad + 64).toNat, 0x0101, 0, 0] (inPad 64 [2 ^ 64 - 1, 0, 2 ^ 64 - 1, 0]
      (startVec 0x000D 2 ((·.writeX 9 pad) ∘ put 1 64 [0, 0] ∘ put 2 64 [5, 6])))) (fun s => (padQuad 64 s, padQuad 72 s)) = some (0, 11) := by
  decide +kernel
/-- The worked program of chapter 07, step 1: the states 0x10 and 0x01, and the byte '.', give 0x20 and 0x02. -/
theorem test_vnfa : after (.vnfa 0 4 9 6) (inPad 0x170 [0x2A] (inPad 0x800 [0x11] (startVec 0x000D 2 ((·.writeX 6 pad) ∘ put 9 64 [0x2E, 0x2E] ∘ put 4 64 [0x10, 0x01]))))
    (got 4 64 2 ·.me) = some [0x20, 0x02] := by decide +kernel
/-! ## Witnesses: the hypotheses of the statements can be met

For each statement with hypotheses, states and operands that meet those of its clauses. Where a hypothesis says that an
action of the machine goes through, or traps, the witness says so with `runs` and `fails`. -/

/-- An action goes through in a state. -/
def runs {α : Type} (m : M α) (s : State) : Bool := goes (m s)
/-- The cause with which an action traps in a state. -/
def fails {α : Type} (m : M α) (s : State) : Option Nat := trapOf (m s)

theorem runs_iff {α : Type} (m : M α) (s : State) : runs m s = true ↔ ∃ a u, m s = .ok a u := by
  unfold runs goes
  cases h : m s <;> simp

theorem fails_iff {α : Type} (m : M α) (s : State) (c : Nat) : fails m s = some c ↔ ∃ e u, m s = .error (.trap c e) u := by
  unfold fails trapOf
  split
  · rename_i c' e u h
    simp [h, eq_comm]
  · rename_i h
    constructor
    · simp
    · rintro ⟨e, u, h'⟩
      exact absurd h' (h c e u)

theorem test_witness_BranchesAndJumps :
    (start id).me.readC 0 = true ∧ (start id).me.readC 7 = false
    ∧ ((start id).me.readX 1 + (0x7FFC#16).signExtend 64).toNat % 4 = 0 ∧ ((start id).me.readX 1 + (0xFFFF#16).signExtend 64).toNat % 4 ≠ 0 := by
  decide +kernel

theorem test_witness_StripBranch :
    let at' (c7 : Bool) (l : List SptEntry) (n : Word) : Slot := (start fun t => { t.writeC 7 c7 with spt := l, captured := n }).me
    let old (t : Slot) := t.spt.find? fun e => e.addr == t.pc
    let e : SptEntry := { addr := 0x1000, count := 5, strikes := 0 }
    (at' false [] 0).readC 7 = false ∧ (at' true [] 0).readC 7 = true ∧ old (at' true [] 0) = none
    ∧ old (at' true [e] 4) = some e ∧ (at' true [e] 4).captured.toNat < e.count.toNat
    ∧ old (at' true [e] 5) = some e ∧ e.count.toNat ≤ (at' true [e] 5).captured.toNat ∧ e.strikes ≠ 1
    ∧ old (at' true [{ e with strikes := 1 }] 5) = some { e with strikes := 1 } := by decide +kernel

theorem test_witness_HardwareLoopEntry :
    let at' (d : Nat) (n : Word) : Slot := (start fun t => { t.writeX 1 n with lpdepth := d }.setLevel (d - 1) { beg := 0x1000, fin := 0x1010, cnt := 0, idx := 0 }).me
    let fin (t : Slot) := (t.level (t.lpdepth - 1)).fin.toNat
    let e (off : BitVec 13) : Word := 0x1000 + off.zeroExtend 64 * 4
    2 ^ 32 ≤ ((at' 0 0x100000000).readX 1).toNat ∧ ((at' 0 0xFFFFFFFF).readX 1).toNat < 2 ^ 32
    ∧ (at' 1 1).lpdepth ≠ 0 ∧ fin (at' 1 1) < (e 5).toNat ∧ ¬ fin (at' 1 1) < (e 4).toNat
    ∧ ((at' 0 0).readX 1).toNat = 0 ∧ 6 ≤ (at' 6 1).lpdepth ∧ ¬ fin (at' 6 1) < (e 4).toNat
    ∧ (at' 5 1).lpdepth < 6 ∧ ¬ fin (at' 5 1) < (e 4).toNat := by decide +kernel

theorem test_witness_LoopStackRules :
    let l : LoopLevel := { beg := 0x1000, fin := 0x1000, cnt := 0, idx := 0 }
    let t : Slot := ((start fun t => { t with lpdepth := 2 }).me.setLevel 1 l).setLevel 0 { l with cnt := 1 }
    -- the inner level ends here with its count spent, the outer has one left
    (t.level 1).fin = t.pc ∧ (t.level 1).cnt = 0 ∧ (t.level 0).fin = t.pc ∧ (t.level 0).cnt ≠ 0
    ∧ (t.transfer 0x1000 true).lpdepth = 2 ∧ (t.transfer 0x1004 true).lpdepth = 0 := by decide +kernel

theorem test_witness_ScalarLoadsAndStores :
    let s := start fun t => t.writeX 1 pad
    (s.me.readX 1 + (1#13).signExtend 64).toNat % 2 ≠ 0 ∧ (s.me.readX 1 + (8#13).signExtend 64).toNat % 8 = 0
    ∧ runs (do let l ← translate s.agent .load pad; readLoc s.agent .sequencer l 8 pad) s = true
    ∧ runs (do let l ← translate s.agent .store pad; writeLoc s.agent .sequencer l 8 5 pad) s = true
    ∧ runs (do let l ← translate (mapped s).agent .store 8; writeLoc (mapped s).agent .sequencer l 4 5 8) (mapped s) = true
    ∧ fails (translate s.agent .load 0x8000) (mapped s) = some causePage
    ∧ fails (translate s.agent .store 0x8000) (mapped s) = some causePage := by decide +kernel

theorem test_witness_StoredBytesAreReadBack :
    let s := start id
    let l : Loc := { place := .pad 0 (0x400000 - 8) }
    (pad + 0x3FFFF8).toNat % 8 = 0 ∧ placeAddress l % 8 = 0 ∧ nearPlace l = true
    ∧ runs (writeLoc s.agent .sequencer l 8 5 (pad + 0x3FFFF8)) s = true
    ∧ isBad (s.core 0).badPad ((0x400000 - 8) / 64) = false
    ∧ nearPlace { place := .phys 0x20000 } = true ∧ seen s { place := .pad 0 0 } = some 0
    ∧ runs (writeLoc s.agent .sequencer { place := .phys 0x20000 } 1 5 0) s = true := by decide +kernel

/-- A vector slot whose register v24 reads a stream of the elements `buf` (R268). -/
def streaming (image : Word) (vl : Nat) (write : Bool) (buf : List (Nat ⊕ (Nat × Word))) : State :=
  startVec image vl fun t => t.setBinding 24 (.mem { addr := 0, base := pad, dims := [(8, 4)], total := 8, ew := 32
                                                     scope := .sequencer, write := write } t.ctx 0 buf)

/-- What the statements of vector instructions suppose: the instruction is not stopped before its first element, and its
streams are filled, are not, or have met a fault; or its destination is a write stream. -/
theorem test_witness_vector_statements :
    let s := startVec 0x0004 3 id
    let os (t : Slot) : List VOp := [t.opw 24, t.opw 2, t.dst 3]
    let ready (s : State) : Bool := s.me.vstate != 0 && !s.me.vill && s.me.opsOk (os s.me)
    let full := streaming 0x0004 2 false [.inl 1, .inl 2]
    let half := streaming 0x0004 2 false [.inl 1]
    let bad := streaming 0x0004 2 false [.inl 1, .inr (7, 0x40)]
    let sink := streaming 0x0004 2 true []
    ready s = true ∧ fillState s.me (os s.me) 0 1 = .ready ∧ s.me.sinkOf (os s.me) = none
    ∧ ready full = true ∧ fillState full.me (os full.me) 0 1 = .ready
    ∧ ready half = true ∧ fillState half.me (os half.me) 0 1 = .unfilled
    ∧ ready bad = true ∧ fillState bad.me (os bad.me) 0 1 = .stop 1 7 0x40
    ∧ fillAll bad.me (os bad.me) 2 (fun _ => true) = .stop 1 7 0x40
    ∧ sink.me.opsOk [sink.me.opw 1, sink.me.opw 2, sink.me.dst 24] = true
    ∧ sink.me.sinkOf [sink.me.opw 1, sink.me.opw 2, sink.me.dst 24] = some 24
    ∧ (start fun t => { t with vstate := 0 }).me.vstate = 0 ∧ (start id).me.vill = true
    ∧ s.me.opsOk [s.me.opw 1, s.me.opw 31] = true ∧ (s.me.opsOk [{ r := 1, quarters := 1, dest := true }, { r := 1, quarters := 128 }]) = false := by
  decide +kernel

/-- The stores that a write stream makes go through (R271). -/
theorem test_witness_stream_stores :
    let s := streaming 0x0004 2 true []
    goes (streamStores [s.me.opw 1, s.me.opw 2, s.me.dst 24] 24 (.masked s.me 0 2 256) (fun e => ⟨e, 0⟩) s) = true := by
  decide +kernel
/-- The operands of the vector statements keep their rules, and the class of the format is the one asked for. -/
def vecReady (s : State) (cls : Bool) (os : Slot → List VOp) : Bool :=
  s.me.vstate != 0 && !s.me.vill && s.me.opsOk (os s.me) && cls

theorem test_witness_VectorIntegerArithmetic :
    let s := startVec 0x0004 256 id
    vecReady s (s.me.fmt == .int || s.me.fmt == .uint) (fun t => [t.opw 1, { t.opw 2 with rep := .s1 }, t.dst 31]) = true
    ∧ s.me.vlmax = 256 ∧ (s.me.fmt == .int) = true ∧ (startVec 0x0014 1 id).me.fmt = .fp32 := by decide +kernel

theorem test_witness_VectorCompares :
    let s := startVec 0x0014 256 id
    vecReady s (s.me.fmt == .fp32) (fun t => [t.opw 1, t.opw 2]) = true
    ∧ vecReady (startVec 0x0004 0 id) ((startVec 0x0004 0 id).me.fmt == .int) (fun t => [t.opw 1, t.opw 1]) = true := by decide +kernel

theorem test_witness_VectorFloatingPoint :
    let s := startVec 0x0014 33 id
    vecReady s (s.me.fmt == .fp32) (fun t => [t.opw 1, t.opw 2, t.dst 3]) = true
    ∧ vecReady s (s.me.fmt == .fp32 && s.me.vstart == 0) (fun t => [t.opw 1, { r := 3, quarters := 32, dest := true }]) = true
    ∧ (startVec 0x0014 33 fun t => { t with vstart := 1 }).me.vstart ≠ 0 := by decide +kernel

theorem test_witness_VectorFusedForms :
    let s := startVec 0x001B 3 id
    let d (q r : Nat) : List VOp := [{ r := r, quarters := q }, { r := r, quarters := q, dest := true }]
    vecReady s (s.me.fmt == .fp16 && s.me.ew == 16) (fun t => [t.opw 1, t.opw 2] ++ d 128 4) = true
    ∧ vecReady (startVec 0x002A 4 id) ((startVec 0x002A 4 id).me.fmt == .e4m3) (fun t => [t.opw 1, t.opw 2] ++ d 32 4) = true
    ∧ vecReady (startVec 0x0004 4 id) (decide ((startVec 0x0004 4 id).me.ew ≤ 32)) (fun t => [t.opw 1, t.opw 2] ++ d 256 4) = true
    ∧ (startVec 0x0051 4 id).me.fmt = .l6 ∧ (startVec 0x0051 4 id).me.vill = false
    ∧ vecReady (startVec 0x0051 4 id) true (fun t => [t.opw 1, t.opw 2, t.dst 3]) = true
    ∧ vecReady (startVec 0x0014 1 id) true (fun t => [t.opw 1, t.opw 2, t.opw 3, t.dst 4]) = true := by decide +kernel

theorem test_witness_VectorConversions :
    let s := startVec 0x002A 64 id
    vecReady s (s.me.fmt == .e4m3) (fun t => [{ r := 4, quarters := 128 }, { r := 2, quarters := 1 }, t.dst 3]) = true
    ∧ vecReady s (s.me.fmt == .e4m3) (fun t => [t.opw 1, { r := 2, quarters := 1 }, { r := 4, quarters := 128, dest := true }]) = true
    ∧ vecReady (startVec 0x001B 3 id) true (fun t => [{ r := 2, quarters := 128 }, t.dst 4]) = true := by decide +kernel

theorem test_witness_MaskInstructions :
    let s := startVec 0x0004 3 ((·.setKbit 1 2 true))
    vecReady s true (fun _ => []) = true
    ∧ (2 < s.me.vl ∧ s.me.kbit 1 2 = true ∧ s.me.kbit 1 0 = false ∧ s.me.kbit 1 1 = false)
    ∧ (∀ e, e < 3 → s.me.kbit 2 e = false) := by decide +kernel

theorem test_witness_VectorPermutations :
    let s := startVec 0x0004 3 id
    vecReady s ((1 : KReg) != 0 && s.me.vstart == 0 && s.me.disjoint 3 1) (fun t => [t.opw 1, t.dst 3]) = true
    ∧ vecReady s (decide (8 ≤ s.me.ew) && decide (s.me.vl < 2 ^ s.me.ew)) (fun t => [t.opw 1, t.dst 3]) = true
    ∧ s.me.disjoint 3 3 = false ∧ s.me.disjoint 3 1 = true ∧ s.me.disjoint 3 2 = true
    ∧ (let t := (streaming 0x0004 2 false [.inl 1, .inr (7, 0x40)]).me
       fillAll t [t.opw 24] 2 (fun _ => true) = .stop 1 7 0x40 ∧ fillAll t [t.opw 24] 3 (fun _ => false) = .unfilled
       ∧ fillAll t [t.opw 24] 2 (fun _ => false) = .ready) := by decide +kernel

theorem test_witness_VectorReductions :
    let s := startVec 0x0014 3 id
    vecReady s (s.me.fmt == .fp32 && s.me.vstart == 0) (fun t => [t.opw 1, t.opw 2, t.dst 3]) = true
    ∧ fillAll s.me [s.me.opw 1, s.me.opw 2, s.me.dst 3] s.me.vl (s.me.kbit 0) = .ready
    ∧ vecReady (startVec 0x0004 0 id) ((startVec 0x0004 0 id).me.vstart == 0) (fun t => [t.opw 1, t.opw 2, t.dst 3]) = true := by
  decide +kernel

theorem test_witness_TopKMerge :
    let s := startVec 0x000C 256 id
    let full := streaming 0x000C 2 false [.inl 1, .inl 2]
    let half := streaming 0x000C 2 false []
    let os (t : Slot) (a : Reg) : List VOp := [t.opw a, t.opw 2, t.opw 4, t.dst 4, t.opw 5, t.dst 5]
    let ok (t : Slot) (a : Reg) := t.ew == 32 && (t.fmt == .fp32 || t.fmt == .int || t.fmt == .uint)
      && (t.group == 1 && (4 : Reg).toNat % 2 == 0 && a != 2 && !([4, 5].contains a) && !([4, 5].contains 2) && t.vstart == 0)
    vecReady s (ok s.me 1) (os · 1) = true ∧ fillAll s.me (os s.me 1) s.me.vl (s.me.kbit 0) = .ready ∧ s.me.vl ≤ s.me.vlmax
    ∧ vecReady full (ok full.me 24) (os · 24) = true ∧ fillAll full.me (os full.me 24) 2 (full.me.kbit 0) = .ready
    ∧ vecReady half (ok half.me 24) (os · 24) = true ∧ fillAll half.me (os half.me 24) 2 (half.me.kbit 0) = .unfilled := by
  decide +kernel

theorem test_witness_ScalarAtomics :
    let s := start fun t => t.writeX 1 pad
    -- the far place is an extent of the capacity tier, which page tables map at 0x8000
    let far := inMem 0x18008 [0x10FF + (2 ^ 35) <<< 17] (mapped { s with
      extents := [{ base := 2 ^ 50, units := 1, part := 0, shared := false, releasing := false }] })
    (s.me.readX 1 + 2).toNat % 4 ≠ 0 ∧ (s.me.readX 1).toNat % 8 = 0
    ∧ fails (translate s.agent .atomic 0x8000) (mapped s) = some causePage
    ∧ runs (do let l ← translate s.agent .atomic pad; releaseAt .device false; rmwLoc s.agent .device l 8 pad (fun v => some (v + 1))) s = true
    ∧ runs (do let l ← translate (mapped s).agent .atomicLoad 8; rmwLoc (mapped s).agent .core l 8 8 (fun _ => none)) (mapped s) = true
    ∧ fails (do let l ← translate s.agent .atomic pad; rmwLoc s.agent .device l 8 pad (fun v => some (v + 1)))
        (mapCore 0 (fun k => { k with badPad := [(0, 0)] }) s) = some causeData
    ∧ atHome s.agent .device { place := .pad 0 0 } = none ∧ runs (readLoc s.agent .device { place := .pad 0 0 } 8 pad) s = true
    ∧ farPlace { place := .pad 0 0 } = false
    ∧ (match translate far.agent .atomic 0x8000 far with | .ok l _ => farPlace l | .error _ _ => false) = true
    ∧ runs (do let l ← translate far.agent .atomic 0x8000; rmwLoc far.agent .system l 8 0x8000 (fun v => some (v + 1))) far = true := by
  decide +kernel

/-- The elements of a unit-stride access of 32-bit elements at the scratchpad. -/
def words (n : Nat) : List (Nat × List Piece) := (List.range n).map fun e => (e, piecesOf pad 32 e (pad + BitVec.ofNat 64 (4 * e)))

theorem test_witness_VectorLoads :
    let s := startVec 0x0004 3 ((·.writeX 6 pad))
    let x : VAddr := .indexed 8 32
    (memOpsOk s.me 4 .unit && indexApart s.me 4 .unit) = true ∧ (memOpsOk s.me 4 x && indexApart s.me 4 x) = true
    ∧ (memOpsOk s.me 4 (.strided 8) && indexApart s.me 4 (.strided 8)) = true
    ∧ runs (do let (xs, st) ← plan .load s.me.scope true (words 3); readAll s.me.scope xs st) (startLoad s) = true
    -- the third word of a strided access lies beyond the scratchpad
    ∧ (match plan .load .device true [(0, piecesOf pad 32 0 pad), (1, piecesOf pad 32 1 (pad + 0x400000))] s with
        | .ok (xs, st) _ => xs.length == 1 && st == some (1, causeAccess, pad + 0x400000)
        | .error _ _ => false) = true := by decide +kernel

theorem test_witness_VectorStores :
    let s := startVec 0x0004 3 ((·.writeX 6 pad) ∘ put 4 32 [1, 2, 3])
    (memOpsOk s.me 4 .unit && memOpsOk s.me 4 (.strided 8) && memOpsOk s.me 4 (.indexed 8 32)) = true
    ∧ runs (do
        let (xs, st) ← plan .store s.me.scope true (words 3)
        check st.isNone 0 0
        modS (mapMe (vectorBegun 0))
        forList (storeOrder s false xs) fun x => writePlanned s.me.scope (s.me.elem 4 32 x.e) x) s = true
    ∧ runs (do
        let (xs, _) ← plan .store s.me.scope true (words 1)
        forList (storeOrder s true xs) fun x => writePlanned s.me.scope (s.me.elem 4 32 x.e) x) s = true
    -- a stop at the second element, above which one more can be accessed
    ∧ (let es := [(0, piecesOf pad 32 0 pad), (1, piecesOf pad 32 1 (pad + 0x400000)), (2, piecesOf pad 32 2 (pad + 8))]
       (match plan .store s.me.scope true es s with | .ok (_, st) _ => st == some (1, causeAccess, pad + 0x400000) | .error _ _ => false) = true
       ∧ runs (collect (es.filter fun x => decide (1 < x.1)) fun x => tryM (planElem s.vagent .store s.me.scope true x.1 x.2)) s = true) := by
  decide +kernel

theorem test_witness_MaskAndRegisterTransfers :
    let s := startVec 0x0004 9 ((·.writeX 6 pad) ∘ (·.writeX 7 (pad + 32)))
    let bytes : List (Nat × List Piece) := (elemRange 0 2).map fun j => (j, [{ addr := pad + BitVec.ofNat 64 j, n := 1, bits := 8 }])
    s.me.vstate ≠ 0 ∧ s.me.vill = false ∧ s.me.vstart % 8 = 0 ∧ (8 : Reg).toNat < s.me.valloc ∧ (s.me.binding 8).bound = false
    ∧ (s.me.readX 7).toNat % 64 ≠ 0 ∧ (s.me.readX 6).toNat % 64 = 0
    ∧ (startVec 0x0004 9 fun t => { t with vstart := 1 }).me.vstart % 8 ≠ 0
    ∧ runs (do let (xs, st) ← plan .load s.me.scope true bytes; readAll s.me.scope xs st) (startLoad s) = true
    ∧ runs (do
        let (xs, st) ← plan .store s.me.scope true bytes
        check st.isNone 0 0
        modS (mapMe (vectorBegun 0))
        forList (pageOrder s xs) fun x => writePlanned s.me.scope 1 x) s = true := by decide +kernel

theorem test_witness_VectorAtomics :
    let s := startVec 0x0004 3 ((·.writeX 6 pad))
    let isInt := (s.me.fmt == .int || s.me.fmt == .uint) && (s.me.ew == 32 || s.me.ew == 64)
    (isInt && memOpsOk s.me 4 .unit && memOpsOk s.me 4 (.indexed 8 32)) = true
    ∧ ((startVec 0x0014 3 id).me.fmt == .fp32) = true ∧ (startVec 0x0014 3 id).me.ew = 32
    ∧ runs (do
        let (xs, st) ← plan .atomic s.me.scope true (words 3)
        check st.isNone 0 0
        modS (mapMe (vectorBegun 0))
        forList xs fun x => forList x.parts fun p => do
          let _ ← rmwLoc s.vagent s.me.scope p.1 p.2.n p.2.addr fun old => some (old + 1)) s = true := by decide +kernel
theorem test_witness_VectorStrings :
    let s := startVec 0x000D 128 id
    let t := startVec 0x0002 1 id
    vecReady s ((s.me.fmt == .int || s.me.fmt == .uint) && decide (8 ≤ s.me.ew) && s.me.ew == 64) (fun t => [t.opw 1, t.opw 2, t.dst 3]) = true
    ∧ vecReady t ((t.me.fmt == .int || t.me.fmt == .uint) && decide (8 ≤ t.me.ew)) (fun t => [t.opw 1, t.opw 2]) = true := by
  decide +kernel

/-- A table of two slots at offset 64 of the scratchpad, and its descriptor at offset 0 (R146). -/
def hashState (keys : List Nat) : State :=
  inPad 0 [(pad + 64).toNat, 0x0101, 0, 0] (inPad 64 keys (startVec 0x000D 2 (·.writeX 9 pad)))

theorem test_witness_HashAndAutomatonSteps :
    let s := hashState [2 ^ 64 - 1, 0, 2 ^ 64 - 1, 0]
    let h := hashTableOf s (pad + 64) 0x0101 0 0
    pad.toNat % 32 = 0 ∧ ownOffset s pad 32 = some 0 ∧ ownOffset s (pad + 0x3FFFE0) 32 = some 0x3FFFE0 ∧ ownOffset s (pad + 0x3FFFF0) 32 = none
    ∧ (match collect [0, 1, 2, 3] (fun n => ownQuad (0 + 8 * n) pad) s with
        | .ok q _ => q == [(pad + 64).toNat, 0x0101, 0, 0]
        | .error _ _ => false) = true
    ∧ h.isSome = true ∧ hashTableOf s (pad + 65) 0x0101 0 0 = none
    ∧ (h.any fun h => goes (probeTable h pad 0 5 (List.range h.probes) s)) = true
    -- the first slot of key 0 holds the key, and is empty
    ∧ (h.any fun h => decide (0 < h.probes) && (match ownQuad h.base pad (hashState [0, 7, 2 ^ 64 - 1, 0]) with | .ok k _ => k == 0 | .error _ _ => false)
        && (match ownQuad h.base pad s with | .ok k _ => k == 2 ^ 64 - 1 | .error _ _ => false)) = true
    ∧ (let t := (startVec 0x000D 2 (·.writeX 6 pad))
       runs (do let a ← loadN t.agent t.me.scope (pad + 2048) 8; let b ← loadN t.agent t.me.scope (pad + 8) 8; pure (a &&& b)) t = true
       ∧ (t.me.disjoint 4 9 && (t.me.readX 6).toNat % 64 == 0) = true
       ∧ t.me.opsOk [t.me.opw 9, t.me.opw 4, t.me.dst 4] = true) := by decide +kernel

/-! ### KV states -/

/-- A KV descriptor at the physical address 0x28000: records at 0x20000, pages from the virtual address 0x10000000, 256 frames, an empty
pool, whose phase is 0. The metadata records lie on the page at the virtual address 0. -/
def kvState (pool : Nat) (f : Slot → Slot) : State :=
  inMem 0x28000 [0, 0x10000000, 256, pool, 0, 0, 0, 0] (mapped (start fun t => f { t with kvmbase := 0x28001 }))

/-- A binding of a chain whose last pop delivered one token, in frame 0 at slot 0. -/
def kvBound (scaled : Bool) : Binding :=
  .kv { table := pad, vSide := false, limit := 4, delivered := 1, page := 0x10000000, slot := 1, phase := 0, hd := 32, ew := 16
        scaled := scaled, ahead := [], ended := false
        lastPop := [some { frame := 0, slot := 0, pos := 3, scales := [1] }] } { part := 0, ptbase := 0, asid := 0, hpasid := 0, sup := false } 0x28001

theorem test_witness_KvPositionsAndMasses :
    let s := kvState 0 fun t => { t.setBinding 24 (kvBound true) with vtype := 0x0014, vl := 1 }
    s.me.vstate ≠ 0 ∧ s.me.vill = false ∧ s.me.kvmbase.getLsbD 0 = true ∧ (start id).me.kvmbase.getLsbD 0 = false
    ∧ (s.me.kvBinding 24).isSome = true ∧ s.me.binding 24 = kvBound true ∧ (s.me.fmt == .fp32) = true ∧ s.me.opsOk [s.me.opw 1] = true
    ∧ fillState s.me [s.me.opw 1] 0 1 = .ready
    ∧ ((kvState 0 fun t => { t with vtype := 0x0004, vl := 1 }).me.ew == 32) = true
    ∧ (let p : Popped := { frame := 0, slot := 0, pos := 3, scales := [1] }
       let x := s.me.ctx
       let va := kvRecord s 0x28001 p.frame + BitVec.ofNat 64 (1088 + 4 * p.slot)
       runs (do
         let y ← planElem (s.vagent.atS x) .atomic .device false 0 [{ addr := va, n := 4, bits := 32 }]
         forList y.parts fun p => do
           let _ ← rmwLoc (s.vagent.atS x) .device p.1 4 p.2.addr fun m => some (m + 1)) s = true) := by decide +kernel

theorem test_witness_VectorConfiguration :
    let s := startVec 0x0004 1 (·.writeX 5 pad)
    let chain (q : List Nat) := inPad 0 q s
    let reads (s : State) : Option (List Word) := match quadsAt s.agent .sequencer pad 4 s with | .ok q _ => some q | .error _ _ => none
    s.me.vstate ≠ 0 ∧ s.me.pending &&& ~~~(s.core 0).lanemap ≠ 0 ∧ (start fun t => { t with pending := 0 }).me.pending = 0
    ∧ (s.me.readX 5).toNat % 32 = 0 ∧ (s.me.readX 5 + 8).toNat % 32 ≠ 0
    ∧ ({ s.me with lpart := s.me.pending } : Slot).vlmaxOf 0x0004 ≠ 0 ∧ ({ s.me with lpart := s.me.pending } : Slot).vlmaxOf 0x0010 = 0
    -- the chain is consumed, has nothing published, has something, and has less than a group of four 6-bit elements
    ∧ reads (chain [8, 8, 0, 8]) = some [8, 8, 0, 8] ∧ reads (chain [4, 8, 0, 4]) = some [4, 8, 0, 4]
    ∧ reads (chain [8, 8, 0, 7]) = some [8, 8, 0, 7] ∧ reads (chain [3, 8, 0, 0]) = some [3, 8, 0, 0]
    ∧ runs (storeN s.agent .sequencer (pad + 24) 8 8) (chain [8, 8, 0, 7]) = true
    ∧ (s.me.streams.toList.any Binding.bound) = false ∧ ((streaming 0x0004 2 false []).me.streams.toList.any Binding.bound) = true
    ∧ (AllocN.n32).regs = 32 ∧ (AllocN.n16).regs ≠ 32 := by decide +kernel

theorem test_witness_strip_breakpoint :
    let s := startVec 0x0004 1 fun t => { t with bpctl := 2 <<< 32 }
    s.me.sup = false ∧ Word.field s.me.bpctl 32 2 = 2 ∧ Word.field (startVec 0x0004 1 id).me.bpctl 32 2 = 0 := by decide +kernel

theorem test_witness_TrapEntryAndReturn :
    let at' (st e : Word) : Slot := (start fun t => { t with status := st, epc := e }).me
    (at' 0 0).status.getLsbD 0 = false ∧ (at' 1 2).status.getLsbD 0 = true ∧ (at' 1 2).epc.toNat % 4 ≠ 0 ∧ (at' 1 4).epc.toNat % 4 = 0 := by
  decide +kernel

theorem test_witness_SystemInstructions :
    let s := start fun t => { t with status := 1 }
    let h : HeldAccess := { part := some 0, owner := none, core := none, src := .unit, tick := 0, ord := 0, addr := 0, act := .write [] }
    let j : DarnJob := { desc := 0, src := 0, dst := 0x8000, count := 1, joinctr := 0, ctx := {}, moved := 0, line := some (1, 2, 0), failed := none }
    s.me.status.getLsbD 0 = true ∧ s.transit = [] ∧ (start id).me.status.getLsbD 0 = false
    ∧ h ∈ ({ s with transit := [h] } : State).transit ∧ h.part = some s.me.part
    ∧ j ∈ ((mapPart 0 (fun t => { t with darn := [j] }) s).part 0).darn ∧ j.line ≠ none
    ∧ runs (releaseAt .device true) s = true := by decide +kernel

/-- A launch of two participants with one level of cluster scope (R205). -/
def launched (f : Slot → Slot) : State :=
  { start (fun t => f { t with launch := some (0, 0) }) with
    launches := [{ levels := [some .cluster], parts := [{ hidx := [], arrived := [1], gone := false }, { hidx := [], arrived := [0], gone := false }] }] }

theorem test_witness_Synchronization :
    let s := start (·.writeX 1 pad)
    let copying := mapCore 0 (fun k => { k with copies := [aCopy 0 0] }) s
    let two := launched id
    -- `wait`: nothing outstanding; a copy outstanding
    (s.core 0).copies = [] ∧ ((copying.core 0).copies.filter fun o => o.seq == copying.cur).length = 1
    ∧ runs (releaseAt .device false) s = true
    -- `bar`: no launch, a level that is absent, the other participant not arrived, arrived
    ∧ s.me.launch = none ∧ barScope two 0 1 = none ∧ barScope two 0 0 = some .cluster
    ∧ allArrived two 0 0 0 = false
    ∧ allArrived { two with launches := two.launches.map fun k => { k with parts := k.parts.set 1 { hidx := [], arrived := [2], gone := false } } } 0 0 0 = true
    ∧ runs (releaseAt .cluster false) two = true
    -- `arrive` and `await`: the address, a count of 0, and the phase
    ∧ (s.me.readX 1).toNat % 16 = 0 ∧ (s.me.readX 1 + 8).toNat % 16 ≠ 0
    ∧ (match loadN s.agent .sequencer (pad + 8) 8 (inPad 0 [1, 1] s) with | .ok q _ => q == 1 | .error _ _ => false) = true
    ∧ (match loadN s.agent .sequencer (pad + 8) 8 s with | .ok q _ => q == 0 | .error _ _ => false) = true
    ∧ runs (do
        releaseFor s.agent .sequencer false
        atomicAt s.agent .sequencer pad 8 fun q => some (q + 1)) (inPad 0 [1, 1] s) = true
    ∧ (match loadN s.agent .sequencer pad 8 (inPad 0 [2 ^ 32 + 1, 1] s) with | .ok q _ => q / 2 ^ 32 == 1 | .error _ _ => false) = true := by
  decide +kernel

/-- Slot 0 waits in an instruction. -/
def waitingFor (i : Instr) (k : HoldKind) : State :=
  start fun t => { t with waiting := (encode i).map fun w => { word := w, kind := k, since := 0 } }

theorem test_witness_ResumedWaits :
    let is (i : Instr) (k : HoldKind) : Bool :=
      let s := waitingFor i k
      (s.slot 0).busy && !deviceStopped s && match (s.slot 0).waiting with | some h => h.kind == k && encode i == some h.word | none => false
    is (.gjoin 1) .gang && is (.await 1 2) .phase && is (.wait 0 0 0 0) .counts && is (.setvlc 1 2 4) .chain
      && is (.tcopy 3 1) .capacity && is (.mload 1) .capacity && is (.tspawn 1) .spill && is (.csrrw 1 0x1042 2) .spill
      && is (.darn 1) .jobs && is (.launder 1) .jobs && is (.bar 0) .barrier = true
    ∧ (∀ h, ((start id).slot 0).waiting = some h → h.kind ≠ .gang)
    ∧ (allSeqs.find? fun r => ((launched id).slot r).busy && ((launched id).slot r).launch == some (0, 0)) = some 0 := by decide +kernel

theorem test_witness_resumed_barrier_of_nobody : ∀ r : SeqId, (State.reset.slot r).launch ≠ some (0, 0) := by
  intro r
  simp [State.slot, State.reset]

theorem test_witness_TaskInstructions :
    let s := start ((·.writeX 1 pad) ∘ (·.writeX 2 (pad + 32)))
    let x := start fun t => { t with xjoin := pad }
    s.transit = [] ∧ (s.core 0).copies = [] ∧ (s.cluster 0).tasks = []
    ∧ x.me.xjoin ≠ 0 ∧ x.me.xjoin.toNat % 8 = 0 ∧ (pad + 4).toNat % 8 ≠ 0 ∧ s.me.xdone = 0
    ∧ runs (counterReady .cluster pad) x = true ∧ runs (counterReady .system 0) x = true ∧ runs (releaseAt .cluster false) x = true
    ∧ runs unbindAll x = true ∧ runs (decrementAt x.agent .cluster pad) x = true
    -- `tspawn` and `tjoin`: the record, and room for it
    ∧ pad.toNat % 32 = 0 ∧ (pad + 16).toNat % 32 ≠ 0
    ∧ runs (readCont pad) (inPad 0 [0x1000, 0, 0, 1] s) = true ∧ fails (readCont 0x8000) (mapped s) = some causePage
    ∧ queueRoom s 0 0 0 = true
    ∧ (let r : ContRec := { addr := 0, code := 0, frame := 0, joinctr := 0, request := 1, alloc := 8, elastic := false, vceil := 0, level := 0
                            prio := 0, part := 0, xdone := 0, awaited := none, bound := none, since := 0, spilled := none }
       queueRoom (mapCluster 0 (fun k => { k with queue := List.replicate 64 r }) s) 0 0 0 = false
       ∧ queueRoom (mapCluster 0 (fun k => { k with queue := List.replicate 63 r }) s) 0 0 0 = true)
    ∧ ({ s with transit := [{ part := some 0, owner := some 0, core := none, src := .scalar, tick := 0, ord := 0, addr := 0, act := .write [] }] } : State).transit.filter
        (fun h => h.owner == some 0) ≠ []
    ∧ (match loadN s.agent .cluster pad 8 s with | .ok v _ => v == 0 | .error _ _ => false) = true
    ∧ (match loadN s.agent .cluster pad 8 (inPad 0 [1] s) with | .ok v _ => v == 1 | .error _ _ => false) = true
    ∧ runs drained s = true
    -- `hwpub`
    ∧ (match loadN s.agent .sequencer (pad + 8) 8 (inPad 0 [1, 4] s) with | .ok v _ => v == 4 | .error _ _ => false) = true
    ∧ runs (do
        let _ ← translate s.agent .store pad
        releaseAt .sequencer false
        storeN s.agent .sequencer (pad + 16) 8 1
        storeN s.agent .sequencer pad 8 4) s = true := by decide +kernel
/-- A gang of the cores 0 and 1 in stream 0 of cluster 0; core 0 is attached at position `p`, core 1 at `q`. -/
def ganged (p q : Option Nat) (hold : Option GangHold) (waits : Option Held) (f : Slot → Slot) : State :=
  mapSlot 4 (fun t => { t with busy := true, pc := 0x1000, gmember := true, gpos := q, waiting := waits })
    (mapCluster 0 (fun k => { k with gangs := k.gangs.set 0 (some { members := 3, path := [(0x1000, none)], base := 5, hold := hold }) })
      (start fun t => f { t with gmember := true, gpos := p }))

theorem test_witness_GangStream :
    let l : Word := 0x1004
    let h : GangHold := { label := l, since := 0, pos := 5 }
    let held : Option Held := (encode (.gjoin 1)).map fun w => { word := w, kind := .gang, since := 0 }
    let now (t : Slot) : Slot := { t with gjtimeout := 0 }
    let again (t : Slot) : Slot := { t with waiting := held }
    let late (s : State) : Bool := decide (leadTimeout s 0 0 ≤ s.cycle - h.since)
    -- no gang; a gang without detached members
    (start id).me.gmember = false ∧ (start id).gangOf 0 = none ∧ detachedIn (ganged (some 5) (some 5) none none id) 0 0 = []
    ∧ ((ganged (some 5) none none none id).gangOf 0).isSome = true ∧ (ganged (some 5) none none none id).me.gpos = some 5
    -- a lead that need not wait, one that all the others await, and one that must wait
    ∧ (∀ w ∈ [none, held], attachedIn (ganged (some 5) none none w id) 0 0 = [0] ∧ detachedIn (ganged (some 5) none none w id) 0 0 = [1])
    ∧ leadTimeout (ganged (some 5) none none none now) 0 0 = 0 ∧ leadTimeout (ganged (some 5) none none none id) 0 0 = 4096
    ∧ awaitingLabel (ganged (some 5) none none held id) 0 0 l = [4] ∧ awaitingLabel (ganged (some 5) none none none id) 0 0 l = []
    ∧ late (ganged (some 5) none (some h) none now) = true ∧ late (ganged (some 5) none (some h) none id) = false
    -- the thread itself is detached: no stream, another label, the label of the hold with and without others to wait for
    ∧ attachedIn (ganged none none none none id) 0 0 = [] ∧ attachedIn (ganged none (some 5) none none id) 0 0 = [4]
    ∧ (0 ∉ awaitingLabel (ganged none (some 5) (some { h with label := 0 }) none id) 0 0 0)
    ∧ detachedIn (mapMe (fun t => { t with gpos := some h.pos }) (ganged none (some 5) (some h) none id)) 0 0 = []
    ∧ late (ganged none (some 5) (some h) none id) = false ∧ (ganged none (some 5) (some h) none id).me.waiting = none
    ∧ late (mapSlot 4 now (ganged none (some 5) (some h) none again)) = true
    ∧ 0 ∈ awaitingLabel (mapSlot 4 now (ganged none (some 5) (some h) none again)) 0 0 l
    ∧ 0 ∉ awaitingLabel (mapSlot 4 now (ganged none (some 5) (some h) none id)) 0 0 l
    ∧ (ganged none (some 5) none none id).me.gjtimeout.toNat ≠ 0 ∧ (ganged none (some 5) none none now).me.gjtimeout.toNat = 0
    -- the delivery of a label
    ∧ ((start id).cluster 0).gangs[(0 : Fin 4)] = none := by decide +kernel

theorem test_witness_LaneRequests :
    let n (v : Word) : Nat := ((start (·.writeX 1 v)).me.readX 1).toNat
    n 0 = 0 ∧ 8 < n 9 ∧ (1 ≤ n 1 ∧ n 1 ≤ 8) ∧ (1 ≤ n 8 ∧ n 8 ≤ 8) ∧ ((start id).core 0).lanemap.getLsbD 63 = false
    ∧ ((mapCore 0 (fun k => { k with lanemap := 1 }) (start id)).core 0).lanemap.getLsbD 0 = true := by decide +kernel

theorem test_witness_Preemption :
    let s (d : Nat) (p : Bool) (f : Slot → Slot) := (start fun t => f { t with pmPending := [.seq 5, .host 0], lpdepth := d, pmPoint := p }).slot 0
    let due (m : Slot) : Bool := m.busy && !m.pmPending.isEmpty && !m.status.getLsbD 0 && (m.pmPoint || m.lpdepth == 0)
    due (s 0 false id) = true ∧ due (s 1 true id) = true ∧ due (s 1 false id) = false
    ∧ due (s 0 false fun t => { t with status := 1 }) = false
    ∧ (match (waitingFor (.wait 0 0 0 0) .counts).me.waiting with | some h => h.kind != .transit && h.kind != .page | none => false) = true
    ∧ ((mapSlot 5 (fun t => { t with pmTarget := some 0 }) (start id)).slot 5).pmTarget = some 0
    ∧ ((mapPart 0 (fun t => { t with hpmTarget := some 0 }) (start id)).part 0).hpmTarget = some 0 := by decide +kernel

theorem test_witness_CsrInstructions :
    let u := start id
    let s := start fun t => { t with status := 1 }
    csrOf 0x009 = none ∧ csrOf 0x1004 = some .evec ∧ csrOf 0x000 = some .vl ∧ csrOf 0x020 = some .fflags ∧ csrOf 0x0C3 = some .cycle
    ∧ u.me.status.getLsbD 0 = false ∧ s.me.status.getLsbD 0 = true ∧ (start fun t => { t with vstate := 0 }).me.vstate = 0
    ∧ runs (csrRead .fflags) u = true ∧ runs (csrRead .vlmax) u = true ∧ runs (csrRead .evec) s = true
    ∧ Csr.fflags.access = .all ∧ Csr.evec.access = .superOnly ∧ Csr.cycle.access = .readOnly
    ∧ (0x20#64) &&& ~~~Csr.fflags.mask ≠ 0 ∧ (0x1F#64) &&& ~~~Csr.fflags.mask = 0
    ∧ (encode (.csrrw 1 0x020 2)).isSome = true ∧ (encode (.csrrs 1 0x1004 2)).isSome = true ∧ (encode (.csrrc 1 0x3FFF 2)).isSome = true
    ∧ runs (csrWritable .fflags 3 0) u = true ∧ runs (csrWritable .evec 0x8000 0) s = true := by decide +kernel

theorem test_witness_CsrWrites :
    let s := start fun t => { t with status := 1 }
    let b := start fun t => { (t.setBinding 24 (kvBound false)) with status := 1 }
    s.me.status.getLsbD 0 = true ∧ runs (unbindStream 24) b = true
    -- a stream descriptor of one dimension of one element at 128 bytes into the scratchpad
    ∧ runs (bindStream 24 (pad + 128)) (inPad 128 [pad.toNat, 4, 1, 0, 4] s) = true
    -- a sequence table of one chain of BF16 rows of 32 elements
    ∧ (match readTable s.agent pad (inPad 0 [0, 0, 0, 0x100001] s) with | .ok q _ => q.isSome | .error _ _ => false) = true
    ∧ (pad ||| 1).getLsbD 0 = true ∧ s.me.valloc = 32 ∧ (s.me.streams[(0 : Fin 8)] = .unbound) ∧ b.me.streams[(0 : Fin 8)] = kvBound false
    ∧ runs (leaveThread pad) (inPad 0 [0x1000, 0, 0, 1] s) = true
    ∧ runs (writeTrctl 0) s = true := by decide +kernel

theorem test_witness_ForwardingInstructions :
    let s := mapped (start id)
    let sup := mapped (start fun t => { t with status := 1 })
    -- line 0x20000 / 64 forwarded to the line after it
    let f := { s with marks := [(0x20000 / 64, Mark.forwarded)], mem := Memory.writeBytes s.mem 0x20000 (bytesOfNat 8 0x20040) }
    runs (finalPlace 8) s = true ∧ runs (do let a ← finalPlace 8; let b ← finalPlace pad; pure (a == b)) s = true
    ∧ (match translate s.agent .load 8 s with | .ok l _ => l.place == .phys 0x20008 | .error _ _ => false) = true
    ∧ (follow s 2 0 (0x20000 / 64)).isSome = true ∧ (follow f 2 0 (0x20000 / 64)).map (·.2) = some 1
    ∧ follow { f with marks := f.marks ++ [(0x20000 / 64 + 1, Mark.forwarded), (0, Mark.forwarded)] } 2 0 (0x20000 / 64) = none
    ∧ sup.me.status.getLsbD 0 = true ∧ 0x1FFFFFFE0000000 ≤ pad.toNat ∧ pad.toNat < 2 ^ 57
    ∧ (match finalPlace 8 sup with | .ok x _ => x.1 == .phys 0x20008 | .error _ _ => false) = true
    ∧ (match translate sup.agent .plain 8 sup with | .ok l _ => l.place == .phys 0x20008 | .error _ _ => false) = true
    ∧ regionOf 0x20000 = .hbm ∧ 0x20000 % 32768 = 0 ∧ markOf { sup with marks := [(0x20000 / 64, .transit)] } (0x20000 / 64) = some .transit
    ∧ markOf f (0x20000 / 64) = some .forwarded
    -- a job descriptor at the pad, its checks and its effects
    ∧ pad.toNat % 64 = 0
    ∧ (match quadsAt s.agent .sequencer pad 8 (inPad 0 [0x10000, 0x20000, 1, 0] s) with | .ok q _ => darnOk q | .error _ _ => false) = true
    ∧ (match quadsAt s.agent .sequencer pad 8 (inPad 0 [1, 0x20000, 1, 0] s) with | .ok q _ => darnOk q | .error _ _ => true) = false
    ∧ (s.part 0).darn.length < 16
    ∧ runs (do
        let _ ← translate s.agent .store pad
        releaseAt .device false
        storeN s.agent .sequencer (pad + 32) 8 0) s = true := by decide +kernel

/-- A relocation job of one line from the page at 0 to that at 0x8000, at the head of partition 0. -/
def darnState (line : Option (Nat × Nat × Nat)) (moved : Nat) (failed : Option Nat) : State :=
  let m := mapped (start id)
  let j : DarnJob := { desc := pad, src := 0, dst := 0x8000, count := 1, joinctr := 0, ctx := m.me.ctx, moved := moved, line := line
                       failed := failed }
  mapPart 0 (fun p => { p with darn := [j] }) (inMem 0x18008 [0xFF + 5 <<< 17] m)

theorem test_witness_RelocationMoves :
    let s := darnState none 0 none
    (s.part 0).darn.head?.isSome = true ∧ (∀ r : Fin 16, r ≠ 0 → (s.part r).darn = []) ∧ (∀ r : Fin 16, r ≠ 0 → darnWork s r = false)
    ∧ ((s.part 0).darn.head?.any fun j => runs (do
        let a ← darnLine j j.src
        let b ← darnLine j j.dst
        pure (a, b)) s && (match darnLine j j.src s with | .ok (.ok (l, no)) _ => l == 0x20000 / 64 && !no | _ => false)
        && (match darnLine j 0x10000 s with | .ok (.error _) _ => true | _ => false)) = true
    ∧ markOf s (0x20000 / 64) = none ∧ markOf { s with marks := [(0x20000 / 64, .transit)] } (0x20000 / 64) ≠ none
    ∧ isBad s.bad 2048 = false ∧ isBad [(2048, 0)] 2048 = true ∧ (2049 : Nat) < 2 ^ 46 ∧ s.transit = []
    ∧ ((darnState none 1 none).part 0).darn.head?.any (fun j => decide (j.count ≤ j.moved) && j.line.isNone) = true
    -- the end of the job: a status at a mapped address
    ∧ runs (endJob s.me.ctx 0 32 (2 ^ 62 + 1) 0) s = true := by decide +kernel

theorem test_witness_HomeAgentsAndWriteback :
    let s := start id
    let l : Line := { valid := 1, dirty := 1, data := 5 }
    let d := mapCore 0 (fun k => { k with l1 := [(7, l)] }) s
    (l1Line d 0 7).dirty ≠ 0 ∧ (l1Line s 0 7).dirty = 0 ∧ regionOf (64 * 7) = .hbm ∧ markOf s 7 = none
    ∧ markOf { s with marks := [(7, .transit)] } 7 = some .transit
    ∧ (bufLine (mapCluster 0 (fun k => { k with buffer := [(7, l)] }) s) 0 7).isDirty 0 = true := by decide +kernel
theorem test_witness_KvInstructions :
    let s := kvState (2 ^ 32 - 1) ((·.writeX 1 pad) ∘ (·.writeX 2 1))
    let one := kvState (2 ^ 32) id
    let table (s : State) := match readTable s.agent pad s with | .ok q _ => q | .error _ _ => none
    let q : List Nat := [3, 0, 0, 0x100002]
    let pops (s : State) : M (Option Nat) := undone (popFrame s.agent s.me.ctx s.me.kvmbase)
    s.me.kvmbase.getLsbD 0 = true ∧ (start id).me.kvmbase.getLsbD 0 = false ∧ runs (releaseAt .device false) s = true
    -- `kvalloc`: an empty pool, a frame, and a record that cannot be accessed
    ∧ (match pops s s with | .ok k _ => k == none | .error _ _ => false) = true
    ∧ (match pops one one with | .ok k _ => k == some 0 | .error _ _ => false) = true
    ∧ fails (pops one) (inMem 0x28000 [0x8000] one) = some causePage
    -- `kvcommit`: the count, and a length that stays below 2^32 or does not
    ∧ (s.me.readX 2).toNat = 1 ∧ 65536 < (65537#64).toNat
    ∧ (match atomicAt s.agent .device pad 4 (fun l => if l + 1 < 2 ^ 32 then some (l + 1) else none) (inPad 0 q s) with
        | .ok old _ => old == 3
        | .error _ _ => false) = true
    ∧ (match atomicAt s.agent .device pad 4 (fun l => if l + 1 < 2 ^ 32 then some (l + 1) else none) (inPad 0 [2 ^ 32 - 1] s) with
        | .ok old _ => old == 2 ^ 32 - 1
        | .error _ _ => false) = true
    -- jobs: a descriptor that keeps its map, one that does not, and one that names more chains than its table has
    ∧ (match mangleCheck [pad, 0x10000, 0, 0, 0, 0, 0, 0] (inPad 0 q s) with | .ok b _ => b | .error _ _ => false) = true
    ∧ (match mangleCheck [pad, 0x30000, 0, 0, 0, 0, 0, 0] (inPad 0 q s) with | .ok b _ => b | .error _ _ => true) = false
    ∧ mangleOk [0, 0, 0, 0, 0, 0, 0, 0] = false ∧ launderOk [0, 0] = true ∧ launderOk [1, 0] = false
    ∧ (s.part 0).mangle.length < 16 ∧ (s.part 0).launder.length < 16
    ∧ runs (do storeN s.agent .sequencer (pad + 24) 8 0; releaseAt .device false) s = true
    ∧ (kvState 0 fun t => { t with status := 1 }).me.status.getLsbD 0 = true
    -- bindings: the register is free, or is not; the table is none, has the chain, or has not
    ∧ s.me.valloc = 32 ∧ s.me.binding 24 = .unbound ∧ (kvState 0 (·.setBinding 24 (kvBound false))).me.binding 24 ≠ .unbound
    ∧ table s = none ∧ (table (inPad 0 q s)).map (·.nlh) = some 2 ∧ (table (inPad 0 q s)).map (·.hd) = some 32
    ∧ runs (releaseFor s.agent .device false) (refreshTo (coreOf s.cur) (scopeLevel .device) false s) = true
    ∧ runs (undone do
        let _ ← registerReader s.agent s.me.kvmbase
        loadN s.agent .device (pad + 64) 8) s = true
    ∧ fails (undone do
        let _ ← registerReader s.agent s.me.kvmbase
        loadN s.agent .device (pad + 0x3FFFC0 + 64) 8) s = some causeAccess := by decide +kernel

/-- A slot configured for a table of BF16 rows of 32 elements; the records and the rows lie in the scratchpad. -/
theorem test_witness_kvapp :
    let v := inMem 0x28000 [(pad + 0x8000).toNat, (pad + 0x10000).toNat, 1, 2 ^ 32] (inPad 0 [0, 0, 0, 0x100001] (kvState 0 fun t => { t.writeX 1 pad with vtype := 0x0023, vl := 32 }))
    v.me.ew = 16 ∧ v.me.fmt = .bf16 ∧ v.me.vill = false ∧ v.me.vstate ≠ 0 ∧ v.me.opsOk [v.me.opw 2, v.me.opw 3] = true
    ∧ v.me.opsOk [v.me.opw 24, v.me.opw 25] = true ∧ (streaming 0x0004 2 true []).me.opsOk [v.me.opw 24, v.me.opw 25] = false
    ∧ fillAll v.me [v.me.opw 2, v.me.opw 3] 32 (fun _ => true) = .ready
    ∧ (let t := (streaming 0x0004 2 false [.inl 1, .inr (7, 0x40)]).me
       fillAll t [t.opw 24, t.opw 25] 2 (fun _ => true) = .stop 1 7 0x40)
    ∧ (let t := (streaming 0x0004 2 false [.inl 1]).me
       fillAll t [t.opw 24, t.opw 25] 2 (fun _ => true) = .unfilled)
    ∧ (match readTable v.vagent pad v with
        | .ok (some tab) u => tab.nlh == 1 && tab.hd == 32 && tab.bytes == 2 && runs (releaseAt .device false) u
        | _ => false) = true
    ∧ (match readTable v.vagent pad v with
        | .ok (some tab) u => runs (undone do
            let page ← stagePage pad tab 0 0 0 0
            stageToken tab page 0 0 (fun e => e) (fun e => e)) u
        | _ => false) = true
    ∧ (match readTable v.vagent pad v with
        | .ok (some tab) u => fails (undone (stagePage pad tab 0 0 0 0)) (inMem 0x28018 [2 ^ 32 - 1] u) == some causeKvPool
        | _ => false) = true := by decide +kernel

theorem test_witness_KvJobs :
    let s := kvState 0 id
    let m (chain : Nat) (failed : Option Nat) (runs : Option (List MangleRun)) : MangleJob :=
      { desc := 0, table := pad, ch0 := 0, nch := 1, joinctr := 0, ctx := s.me.ctx, kvm := 0x28001, chain := chain, runs := runs, evicted := 0
        compacted := 0, failed := failed }
    let l (stage : Nat) (failed : Option Nat) : LaunderJob :=
      { desc := 0, joinctr := 0, ctx := s.me.ctx, kvm := 0x28001, stage := stage, phase := 0, mendedFrames := [], mended := 0, freed := 0, failed := failed }
    let w (j : MangleJob) := mapPart 0 (fun p => { p with mangle := [j] }) s
    ((w (m 0 none none)).part 0).mangle = [m 0 none none] ∧ (∀ r : Fin 16, r ≠ 0 → mangleWork (w (m 0 none none)) r = false)
    -- a walk that faults, a run that ends at once, a job that has ended
    ∧ fails (mangleWalk { m 0 none none with table := 0x8000 }) s = some causePage
    ∧ runs (mangleRun { m 0 none none with table := 0x40 } { pred := 0, pages := [] } []) (inMem 0x20040 [0, 0, 0, 0x10100001] s) = true
    ∧ (m 0 none (some [])).runs = some [] ∧ (m 1 none none).nch ≤ (m 1 none none).chain ∧ (m 0 (some 2) none).failed ≠ none
    ∧ runs (storeN (deviceAgent s.me.ctx) .device 24 8 (2 ^ 62)) s = true ∧ fails (storeN (deviceAgent s.me.ctx) .device 0x8018 8 0) s = some causePage
    ∧ runs (decrementAt (deviceAgent s.me.ctx) .device 64) s = true ∧ fails (decrementAt (deviceAgent s.me.ctx) .device 0x8000) s = some causePage
    ∧ ((mapPart 0 (fun p => { p with launder := [l 0 none] }) s).part 0).launder = [l 0 none]
    ∧ runs (launderPhase (l 0 none)) s = true ∧ runs (launderMark (l 1 none)) (inMem 0x28000 [0, 0x10000000, 1, 0, 0] s) = true
    ∧ runs (freeFrames (List.range 1) (l 3 none)) s = true ∧ fails (launderPhase (l 0 none)) { s with bad := [(0x28000 / 64, 0)] } = some causeData
    ∧ 4 ≤ (l 4 none).stage ∧ (l 0 (some 1)).failed ≠ none := by decide +kernel

/-- R313: a page of a chain that is not its tail, with three tokens of the masses 1, 2 and 6; a mean of three times 1/2. -/
theorem test_witness_selection :
    let tab : SeqTable := { len := 100, nlh := 1, phase := 1, scaled := false, hd := 32, fmt := 1, decay := 0x3F800000, theta := 0x3F000000
                            evictions := 1, window := 0, sinks := 1, link := 0 }
    let pg : KvPageWalk := { page := 0x8000, head := { next := 0x10000, used := 3, pos0 := 0 }, live := true
                             slots := [(0, 0x3F800000), (1, 0x3F800000), (2, 0x40C00000)] }
    (match fp32.decode false tab.theta with | .fin t => t.neg == false && t.m != 0 | _ => false) = true
    ∧ candidates tab 0x10000 pg = [1] ∧ selectSlots tab 0x10000 1 [pg, pg] = [(0x8000, [1]), (0x8000, [])]
    ∧ runsOf 0 [(0x8000, [1]), (0x10000, []), (0x18000, [0]), (0x20000, [3])]
      = [{ pred := 0, pages := [(0x8000, [1])] }, { pred := 0x10000, pages := [(0x18000, [0]), (0x20000, [3])] }] := by decide +kernel

/-- A descriptor of a copy of one byte. -/
def copyQuads : List Nat := [pad.toNat, (pad + 64).toNat, 0, 0, 1, 0, 1, 0, 0, 0, 1, 0, 0, 0, 0, 0]

theorem test_witness_CopyAndStreams :
    let s := startVec 0x0002 1 ((·.writeX 1 pad) ∘ (·.writeX 2 5))
    let d (l : List Nat) := match quadsAt s.agent .sequencer pad 16 (inPad 0 l s) with | .ok q _ => some q | .error _ _ => none
    let sink := streaming 0x0004 2 true []
    let h (src : Source) : HeldAccess := { part := some 0, owner := some 0, core := some 0, src := src, tick := 0, ord := 0, addr := 0, act := .write [] }
    let kv := kvState 0 fun t => { t.setBinding 24 (kvBound false) with vtype := 0x0023, vl := 32 }
    s.me.vstate ≠ 0 ∧ s.me.vill = false ∧ (s.me.readX 1).toNat % 128 = 0 ∧ (pad + 64).toNat % 128 ≠ 0
    ∧ (d copyQuads).any (fun q => (copyOpOf s 0 pad q).isSome) = true ∧ (d [1]).any (fun q => (copyOpOf s 0 pad q).isNone) = true
    ∧ (s.core 0).copies.length < 128
    ∧ ¬ ((mapCore 0 (fun k => { k with copies := List.replicate 128 (aCopy 0 0) }) s).core 0).copies.length < 128
    ∧ runs (do storeN s.agent .sequencer (pad + 112) 8 0; releaseFor s.agent .core false) s = true
    ∧ (s.me.readX 2).toNat < 2 ^ 40 ∧ 2 ^ 40 ≤ (0x10000000000#64).toNat ∧ runs (releaseFor s.agent (engineScope s.me.scope) false) s = true
    -- `sbind`: a valid descriptor, and one that is not; `sunbind` of a stream of each kind
    ∧ s.me.valloc = 32 ∧ runs (bindStream 24 (pad + 128)) (inPad 128 [pad.toNat, 4, 1, 0, 4] s) = true
    ∧ fails (bindStream 24 (pad + 128)) s = some causeOperand
    ∧ s.me.binding 24 = .unbound ∧ (streaming 0x0004 2 false []).me.binding 24 ≠ .unbound
    ∧ heldOp sink 0 (.stream 24) = false ∧ heldOp { sink with transit := [h (.stream 24)] } 0 (.stream 24) = true
    ∧ kv.me.binding 24 = kvBound false ∧ kv.me.vstate ≠ 0 ∧ kv.me.vill = false ∧ runs (countMine 0x28001 0 (-1)) kv = true
    ∧ (s.slot 0).busy = true ∧ deviceStopped s = false ∧ runs (fillStreams 0) (streaming 0x0004 2 false []) = true := by decide +kernel

theorem test_witness_copy_progress :
    let s := start id
    let w (o : CopyOp) := mapCore 0 (fun k => { k with copies := [o] }) s
    let o := aCopy pad (pad + 64)
    let tc : CopyOp := { o with isTcopy := true, desc := pad + 1024 }
    let h (src : Source) : HeldAccess := { part := some 0, owner := some 0, core := some 0, src := src, tick := 0, ord := 0, addr := 0, act := .write [] }
    -- a multicast: in its windows, past them, and of a core that the partition does not own
    padOffset (pad + 64).toNat = some 64 ∧ padOffset 0x1000 = none ∧ (s.core 0).owner = some 0 ∧ (s.core 1).owner ≠ some 0
    -- the progress of a copy: all of it, a part of it, and one that meets a fault
    ∧ o.mayRun (w o) 0 0 = true ∧ ((w o).core 0).copies[0]? = some o ∧ ((w o).core 0).copies[1]? = none
    ∧ (match planCopy 0 0 o 4 0 (beginCopy 0 0 o (w o)) with
        | .ok (xs, none) u => xs.length == 4 && goes (endCopy 0 0 o 4 none u)
        | _ => false) = true
    ∧ runs (do let (xs, _) ← planCopy 0 0 { o with op := 1 } 1 0; forList xs (performCopy 0 { o with op := 1 })) (w { o with op := 1 }) = true
    ∧ (match planCopy 0 0 (aCopy pad (pad + 0x3FFFFE)) 4 0 (w (aCopy pad (pad + 0x3FFFFE))) with
        | .ok (xs, some (e, _)) _ => xs.length == 2 && e == 2
        | _ => false) = true
    -- the cut of aligned eight bytes (R181): element 3 lies in the bytes of element 2, an element 2 from 62 on does not in those of element 1
    ∧ (o.addresses 2).2.toNat / 8 = (o.addresses 3).2.toNat / 8 ∧ ((aCopy pad (pad + 62)).addresses 1).2.toNat / 8 ≠ ((aCopy pad (pad + 62)).addresses 2).2.toNat / 8
    -- its end, action by action; and an end that waits for a write that is held
    ∧ heldOp (w tc) 0 (.copy tc.number) = false ∧ tc.pins = []
    ∧ runs (do
        releaseFor (tc.agent 0) tc.scope false
        let _ ← attempt (storeN (tc.agent 0) tc.scope (tc.desc + 112) 8 (2 ^ 62 + 4))
        signal (tc.agent 0) tc.scope tc.sig tc.sigaddr) (w tc) = true
    ∧ runs (endCopy 0 0 tc 4 none) (w tc) = true ∧ runs (endCopy 0 0 tc 2 (some (2, 1, pad))) (w tc) = true
    ∧ (match endCopy 0 0 o 4 none { w o with transit := [h (.copy 0)] } with | .error (.wait _) _ => true | _ => false) = true := by
  decide +kernel

/-- A record of an MZERO of one row and eight columns, whose await `kind` names a quad at the scratchpad's start. -/
def zeroQuads (kind : Nat) : List Nat := [5 + kind * 64, 0, 0, 0, if kind = 0 then 0 else pad.toNat, 0, 0, 0]

/-- A tile task of that record. -/
def aTask (kind : Nat) (met running stop : Bool) : TileTask :=
  { seq := 0, number := 0, fences := [], ctx := (start id).me.ctx, kvm := 0, record := pad, q := #v[BitVec.ofNat 64 (5 + kind * 64), 0, 0, 0,
      if kind = 0 then 0 else pad, 0, 0, 0, 0x7000001, 0, 0, 0x8000000000000, 0, 0, 0, 0], ptab := [], met0 := met, met1 := true
    due := !met, lastRead := 0, began := 0, engines := if running then [0] else [], running := running, row := 0, ofl := false, nv := false, stop := stop, pins := [], strip := 0 }

def tasked (t : TileTask) : State := mapCluster 0 (fun k => { k with tasks := [t] }) (start id)

theorem test_witness_TileTasks :
    let s := start (·.writeX 1 pad)
    let d (l : List Nat) := match quadsAt s.agent .sequencer pad 16 (inPad 0 l s) with | .ok q _ => some q | .error _ _ => none
    pad.toNat % 128 = 0 ∧ (d (zeroQuads 0)).any (fun q => recordOk s q) = true ∧ (d [6]).any (fun q => recordOk s q) = false
    ∧ (2 ^ 63 + 5) / 2 ^ 62 = 2
    ∧ (mayUse 0 0).any (fun e => decide (16 ≤ engineLoad s 0 e)) = false
    ∧ (mayUse 0 0).any (fun e => decide (16 ≤ engineLoad (mapCluster 0 (fun k => { k with tasks := List.replicate 16 (aTask 0 true false false) }) s) 0 e)) = true
    ∧ runs (do storeN s.agent .sequencer (pad + 64) 8 1; storeN s.agent .sequencer pad 8 5; releaseFor s.agent .core false) s = true
    -- the pointer table of a chain
    ∧ runs (collect (List.range 1) fun k => do
        let x ← loadN s.agent .sequencer (pad + BitVec.ofNat 64 (8 * k)) 8
        pure (BitVec.ofNat 64 x)) s = true
    -- the awaits, the placement, the start and the end
    ∧ (match readAwait 0 (aTask 1 false false false) 0 (tasked (aTask 1 false false false)) with | .ok b _ => b | .error _ _ => false) = true
    ∧ (match readAwait 0 (aTask 1 false false false) 0 (inPad 0 [1] (tasked (aTask 1 false false false))) with | .ok b _ => b | .error _ _ => true) = false
    ∧ fails (readAwait 0 { aTask 1 false false false with q := (aTask 1 false false false).q.set 4 0 } 0) (tasked (aTask 1 false false false)) = some causePage
    ∧ (aTask 1 false false false).due = true ∧ (aTask 0 true false false).due = false
    ∧ placement (tasked (aTask 0 true false false)) 0 (aTask 0 true false false) = some [0]
    ∧ placement (mapCluster 0 (fun k => { k with tasks := [aTask 0 true false false, aTask 0 true true false] }) s) 0 (aTask 0 true false false) = none
    ∧ (aTask 0 true false false).ready s = true ∧ (aTask 1 false false false).ready s = false ∧ replayMode s 0 = 0
    ∧ runs (forList [0] fun e => acquireFor ((aTask 0 true false false).agent 0 e) .core false) s = true
    ∧ snapshotOk (aTask 0 true true false) = true ∧ snapshotOk { aTask 0 true true false with q := (aTask 0 true true false).q.set 8 0 } = false
    ∧ runs (endTile 0 0 3 5 0) (tasked (aTask 0 true true false)) = true ∧ runs (endTile 0 0 2 0 0) (tasked (aTask 0 true false true)) = true
    ∧ (aTask 0 true true false).rows = 1
    ∧ (match firstBadRow 0 0 (aTask 0 true true false) [0] (tasked (aTask 0 true true false)) with | .ok b _ => b.isNone | .error _ _ => false) = true
    ∧ runs (do performRow 0 0 0; endTile 0 0 1 0 1) (tasked (aTask 0 true true false)) = true
    ∧ runs (do
        let outs ← collect (aTask 0 true true false).engines (rowOn 0 0 (aTask 0 true true false) 0)
        forList outs (writeRow 0 (aTask 0 true true false))) (tasked (aTask 0 true true false)) = true := by decide +kernel

/-- A host queue of partition 0 with one record available at the page of address 0, which holds these quads. -/
def queuedRecord (quads : List Nat) : State :=
  inMem 0x20000 quads (mapPart 0 (fun p => { p with queues := p.queues.set 0 { avail := 1, ci := 0, base := 0, size := 16 } })
    (mapped (mapCore 0 (fun k => { k with owner := some 0 }) State.reset)))

/-- A start record of one sequencer for partition 0: entry 0x1000, one unit, valloc 8. -/
def startQuads : List Nat := [0x1000, 0, 1, 0, 0x09000001]

theorem test_witness_Scheduling :
    let s := queuedRecord startQuads
    let r : ContRec := { addr := 0x40, code := 0x1000, frame := 0, joinctr := 0, request := 1, alloc := 8, elastic := false, vceil := 0, level := 0
                         prio := 0, part := 0, xdone := 0, awaited := none, bound := none, since := 0, spilled := none }
    let a : Awaited := { ctr := pad, ctx := {}, core := 0, last := 0, poked := true, logged := false }
    let c := mapCluster 0 (fun k => { k with queue := [r] }) (mapCore 0 (fun k => { k with owner := some 0 }) State.reset)
    (s.part 0).pstate ≠ 2 ∧ deviceStopped s = false ∧ ((s.part 0).queues[(0 : Fin 8)]).avail ≠ 0
    ∧ (∀ m : Fin 8, m ≠ 0 → ((s.part 0).queues[m]).avail = 0) ∧ entryVa ((s.part 0).queues[(0 : Fin 8)]) = 0
    ∧ fails (quadsAt (hostAgent s 0) .system 0x8000 16) s = some causePage
    ∧ runs (loadN (hostAgent s 0) .system 0 8) s = true
    ∧ (startLevels (startQuads.map (BitVec.ofNat 64))).isSome = true ∧ startLevels [0x1001] = none ∧ startQuads.getD 2 0 / 2 ^ 12 % 16 = 0
    ∧ (startLevels (startQuads.map (BitVec.ofNat 64))).any (fun ls => (placeLaunch s { part := 0, request := 1, shrinks := false } ls).isSome) = true
    -- a pick, the ageing of a record, and the reread of a counter
    ∧ choosePick State.reset 0 = none ∧ (choosePick (replayIdle 0 c) 0).map (fun x => (x.1.addr, x.2.1, x.2.2.2)) = some (0x40, 0, true)
    ∧ replayMode (replayIdle 0 c) 0 ≠ 2 ∧ (c.cluster 0).queue[0]? = some r
    ∧ r.level < 3 ∧ 2 ^ 16 ≤ { c with cycle := 65536 }.cycle - r.since ∧ { c with cycle := 65535 }.cycle - r.since < 2 ^ 16
    ∧ (a.poked = true ∨ a.last + 1024 ≤ c.cycle) ∧ ¬ ({ a with poked := false }.poked = true ∨ a.last + 1024 ≤ { c with cycle := 1023 }.cycle)
    ∧ (match (do
          let l ← translate { ctx := a.ctx, core := some a.core, cluster := some 0, seq := none } .load a.ctr
          readLoc { ctx := a.ctx, core := none, cluster := some 0, seq := none } .cluster l 8 a.ctr : M Nat) c with
        | .ok v _ => v == 0
        | .error _ _ => false) = true
    ∧ fails (translate { ctx := a.ctx, core := some a.core, cluster := some 0, seq := none } .load 0) c = some causePage := by decide +kernel

/-- A record in the spill region, in a good line and in a bad one; the room of a level; a partition with and without work. -/
theorem test_witness_spilled_records :
    let r : ContRec := { addr := 0x40, code := 0x1000, frame := 0, joinctr := 0, request := 1, alloc := 8, elastic := false, vceil := 0, level := 0
                         prio := 0, part := 0, xdone := 0, awaited := none, bound := none, since := 0, spilled := none }
    let c := mapCluster 0 (fun k => { k with queue := [r] }) State.reset
    spillBad c r = false ∧ spillBad { c with bad := [(64, 0)] } { r with spilled := some 0x1000 } = true
    ∧ spillEntries 0x1001 = 170 ∧ (refillHead 0 0 0 64 c).1.isNone = true ∧ hasWork (start id) 0 = true := by decide +kernel

theorem test_witness_no_work : hasWork State.reset 0 = false := by
  simp [hasWork, State.slot, State.cluster, State.reset, allSeqs, allClusters]

theorem test_witness_TraceAndProfile :
    let s := start id
    let on := mapCore 0 (fun k => { k with trctl := 0x109 }) s
    let p (ctl cnt : Word) := { start (fun t => { t with smpctl := ctl, smpcnt := cnt }) with dbgsess := 1 }
    let r : Ring := { size := 128, desc := 0x40, base := 0x1000 }
    let e : ProfEntry := { part := 0, reason := 0, pc := 0x1000, count := 1 }
    let filled (n : Nat) (x : ProfEntry) := mapCore 0 (fun k => { k with profile := [(e.index, x)], profBuf := List.replicate n e }) s
    (on.core 0).trctl.getLsbD 0 = true ∧ (on.core 0).trctl.getLsbD 3 = true ∧ (on.core 0).trctl.getLsbD (8 + on.cur.val % 4) = true
    -- a ring with space, one that is full, one whose record is the sixty-fourth, and one that has lost records
    ∧ ringFull s r = false ∧ ringFull s { r with head := 128 } = true ∧ ({ r with unpub := 63 } : Ring).unpub ≥ 63
    ∧ ringFull s { r with lostSince := 3 } = false ∧ 2 ^ 23 ≤ { s with cycle := 2 ^ 23 }.cycle - r.last
    ∧ ringFull (ringStore 32 r 0 [] s).2 (ringStore 32 r 0 [] s).1 = false
    ∧ ((mapCore 0 (fun k => { k with trace := r }) s).core 0).trace.size ≠ 0
    -- the entry of a key: absent, its own, and another's, with room in the buffer and without
    ∧ ((s.core 0).profile.find? fun x => x.1 == e.index) = none ∧ ((filled 0 e).core 0).profile.find? (fun x => x.1 == e.index) = some (e.index, e)
    ∧ ({ e with pc := 0x2000 } : ProfEntry).key ≠ e.key ∧ ((filled 0 e).core 0).profBuf.length < 8 ∧ 8 ≤ ((filled 8 e).core 0).profBuf.length
    ∧ (s.part 0).profReg = 0 ∧ ((mapPart 0 (fun t => { t with profReg := 0x40 }) s).part 0).profReg ≠ 0
    ∧ (s.part 0).prof = false ∧ ((mapPart 0 (fun t => { t with prof := true }) s).part 0).prof = true
    -- a sampling counter: off, counting, at its wrap with a session and traced samples, or without
    ∧ ((p 0x80 0).slot 0).smpctl.getLsbD 7 = true ∧ ((p 0x80 0).slot 0).smpctl.toNat % 16 = 0 ∧ ((p 0 0).slot 0).smpctl.getLsbD 7 = false
    ∧ ((p 0x80 (-1)).slot 0).smpcnt = BitVec.allOnes 64 ∧ traced (mapCore 0 (fun k => { k with trctl := 0x111 }) (p 0x80 (-1))) 0 4 = true
    ∧ traced s 0 4 = false
    -- a replay: no pick named, one named that is not possible while another record is ready
    ∧ namedPick s 0 = none
    ∧ (namedPick (mapCluster 0 (fun k => { k with rpctl := 2, replay := { size := 128, desc := 0x40 } }) (inMem 0x50 [1] s)) 0).isSome = true
    ∧ choosePick s 0 = none := by decide +kernel

theorem test_witness_HostRegisters :
    let s := start id
    let d (s : State) (k : Nat) := deviceQuad s (8 * k)
    let q := inMem 0 [0x80, 16, 3, 1] s
    -- a queue descriptor at the physical address 0, of 16 entries and consumer index 3
    (s.part 0).pstate ≠ 2 ∧ (d q 7 = 0 ∧ d q 6 = 0 ∧ d q 5 = 0 ∧ d q 4 = 0 ∧ d q 3 / 8 = 0 ∧ d q 1 = 2 ^ 4 ∧ d q 0 % 128 = 0 ∧ d q 3 % 2 = 1)
    ∧ d s 1 = 0 ∧ (19#32 - BitVec.ofNat 32 (d q 2)).toNat ≤ d q 1 ∧ d q 1 < (20#32 - BitVec.ofNat 32 (d q 2)).toNat
    ∧ ringOk (inMem 0x40 [0x1000, 128] s) 0x40 = true ∧ ringOk s 0x40 = false ∧ (0x40#64 &&& 0xFFFFFFFFFFFC0) ≠ 0
    ∧ (State.reset.part 0).pstate ≠ 2 ∧ ((start id).slot 0).busy = true ∧ ((start id).slot 0).part = 0
    ∧ (192#64).toNat % 256 = 192 ∧ ((s.core 0).owner = some 0 ∧ (s.slot 0).busy = true ∧ (s.slot 1).busy = false ∧ (s.core 1).owner = none)
    ∧ 1000 ≤ (1000#64).toNat % 2 ^ 12 ∧ (2800#64).toNat % 2 ^ 12 ≤ 2800 ∧ 2800 < (2801#64).toNat % 2 ^ 12
    ∧ ({ s with dbgsess := 1 } : State).dbgsess.getLsbD 0 = true ∧ (0#64).getLsbD 0 = false
    ∧ (∀ m : Fin 8, 0x40 + 8 * m.val < 0x80) ∧ regAt 1 0x10 = some .qtab
    ∧ regAt 0 0x10 = some .qtab ∧ regAt 0 0x2000 = some (.passign 0) ∧ regAt 1 0x1008 = none ∧ regAt 0 0x18 = none := by decide +kernel

theorem test_witness_PartitionLifecycle :
    let s := mapPart 0 (fun t => { t with wdog := 1 }) (start id)
    let due (s : State) : Bool := (s.part 0).wdog != 0 && decide ((s.part 0).wdog.toNat * 2 ^ 16 ≤ s.cycle - (s.part 0).progress)
      && (s.slot 0).busy && (s.slot 0).part == 0
    let n := mapCore 5 (fun k => { k with newOwner := some (some 3) }) s
    due { s with cycle := 65536 } = true ∧ due { s with cycle := 65535 } = false
    ∧ (s.core 0).owner = some 0 ∧ (State.reset.part 0).pstate = 0 ∧ ((mapPart 0 (fun t => { t with pstate := 2 }) s).part 0).pstate = 2
    ∧ (s.core 5).passign.toNat % 32 / 16 = 0 ∧ (3#64).getLsbD 4 = false ∧ (0x13#64).getLsbD 4 = true
    ∧ (n.core 5).newOwner = some (some 3) ∧ coreDrained n 5 = true ∧ coreDrained n 0 = false ∧ (n.core 0).newOwner = none := by decide +kernel

theorem test_witness_HostTraffic :
    let s := mapped State.reset
    let x : Extent := { base := 2 ^ 50, units := 1, part := 0, shared := false, releasing := true }
    let r : PageReq := { part := 0, pasid := 5, page := 7, owner := some 0, src := .scalar, failed := false }
    let g : Agent := { ctx := { part := 0, hpasid := 0x80000005 }, core := some 0, cluster := some 0, seq := some 0, src := .scalar }
    let moving (l : Nat) := mapPart 0 (fun t => { t with darn := [{ desc := 0, src := 0, dst := 0, count := 1, joinctr := 0, ctx := {}, moved := 0
                                                                    line := some (l, 1, 0), failed := none }] }) s
    localBase ≤ pad.toNat ∧ (0x200000000000000#64).toNat / 2 ^ 57 ≠ 0
    ∧ runs (do let l ← translate (hostAgent s 0) .load 8; readByte (hostAgent s 0) .system l 8) s = true
    ∧ runs (do let l ← translate (hostAgent s 0) .store 8; writeLocBytes (hostAgent s 0) .system l [5] 8) s = true
    ∧ fails (translate (hostAgent s 0) .load 0x8000) s = some causePage ∧ fails (translate (hostAgent s 0) .store 0x8000) s = some causePage
    ∧ (s.part 0).peers.getLsbD 3 = false ∧ ((mapPart 0 (fun t => { t with peers := 8 }) s).part 0).peers.getLsbD 3 = true
    ∧ runs (homeRead {} (hbmTop - 1) 1 0) s = true
    ∧ runs (do let l ← translate (hostAgent s 0) .store 8; canWrite l 8) s = true
    -- a page of the host: no request, one that is out, one that has failed, and the page in the cache
    ∧ regionOf (2 ^ 51 + 7 * 4096) = .host ∧ g.ctx.hpasid.getLsbD 31 = true ∧ r.isOf g 7 = true ∧ s.pri = []
    ∧ (g.ctx.part, g.ctx.hpasid.extractLsb' 0 20, 7) ∉ s.atc ∧ [r].find? (·.isOf g 7) = some r
    ∧ ([r].find? fun r => !r.failed && (r.owner == some 0 || r.owner == none)) = some r
    -- the drain of an extent: a line of it that moves, and none
    ∧ x.holds (64 * (2 ^ 50 / 64)) = true ∧ x.holds 64 = false ∧ ((moving (2 ^ 50 / 64)).part 0).darn ≠ [] ∧ (s.part 0).darn = []
    ∧ s.extasgn.getLsbD 4 = false ∧ ({ s with extasgn := 0x12 } : State).extasgn.getLsbD 4 = true ∧ nextPosition s 4194304 = some (2 ^ 50)
    ∧ nextPosition s 4194305 = none ∧ nextPosition { s with extents := [x] } 2 = some (2 ^ 50 + 2 ^ 28)
    ∧ s.extents = [] ∧ [x].find? (·.releasing) = some x ∧ s.transit = [] := by decide +kernel

theorem test_witness_Management :
    State.reset.bstat = 0 ∧ ({ State.reset with bstat := 1 } : State).bstat ≠ 0
    ∧ moveAllowed .challenge { State.reset with bstat := 1 } = true ∧ moveAllowed .challenge State.reset = false
    ∧ 110 ≤ 110 % 256 ∧ 109 % 256 < 110 := by decide +kernel

/-- A mapped thread at U with the word of `addi x3, x0, 7` at its program counter, whose turn comes next. -/
def oneTurn (w : Nat) : State :=
  inMem 0x21000 [w] (mapped { start (fun t => t) with script := [.seq 0] })

theorem test_witness_StepRunsDecoded :
    let s := oneTurn 0x000700C2
    let u : State := { s with script := [], ticks := 1 }
    let w : Held := { word := 0x0000001B, kind := .counts, since := 0 }
    s.script = [.seq 0] ∧ (s.slot 0).busy = true ∧ deviceStopped s = false ∧ preemptDue (s.slot 0) = false ∧ (s.slot 0).waiting = none
    ∧ driftFull s 0 = false ∧ (State.reset.slot 0).busy = false ∧ deviceStopped { s with tripped := true } = true
    ∧ preemptDue ((start fun t => { t with pmPending := [.host 0] }).slot 0) = true
    ∧ (match fetchWord u with | .ok w _ => decide (decode w = .ok (.addi 3 0 7)) | .error _ _ => false) = true
    ∧ (match fetchWord { oneTurn 0 with script := [], ticks := 1 } with
        | .ok w _ => (match decode w with | .error _ => true | .ok _ => false)
        | .error _ _ => false) = true
    ∧ fails fetchWord (start fun t => { t with pc := 0x8000 }) = some causePage
    ∧ aheadOfLead u 0 = false ∧ decode w.word = .ok (.wait 0 0 0 0)
    ∧ (match translate u.agent .fetch 0x1000 u with | .ok l _ => l.place == .phys 0x21000 | .error _ _ => false) = true
    ∧ deliveredWord u = none ∧ fetchCache u = [] ∧ quiet s = true
    ∧ (match homeRead u.agent.writer 0x21000 4 0x1000 u with | .ok b _ => b.length == 4 | .error _ _ => false) = true
    -- words that the gang has been given, a frozen cycle, a register with an error that the instruction reads
    ∧ deliveredWord (mapCluster 0 (fun k => { k with gangs := k.gangs.set 0 (some { members := 3, path := [(0x1000, some 5)], base := 5, hold := none }) })
        (ganged (some 5) none none none id)) = some 5
    ∧ ((mapCore 0 (fun k => { k with frozen := some 0 }) u).core 0).frozen = some u.cycle
    ∧ passesChecks (.addi 3 0 7) 0x000700C2 u.me = true ∧ passesChecks .eret 0 u.me = false
    ∧ (regUse (.addi 3 1 7)).reads u.me (.x 1) = true ∧ (regUse (.addi 3 1 7)).reads u.me (.x 2) = false ∧ badRegExists (.x 1) = true
    ∧ moveAllowed .powerCheck u = true ∧ moveAllowed (.partitionReset 0) u = false ∧ moveAllowed (.partitionReset 0) { u with bstat := 1 } = true
    -- two members of a gang: the one behind the lead waits for it at a transfer of control, and drift is bounded
    ∧ aheadOfLead (mapSlot 4 (fun t => { t with gpos := some 5 }) (ganged (some 5) (some 5) none none id)) 4 = true
    ∧ driftFull (ganged (some 37) (some 5) none none id) 0 = true ∧ driftFull (ganged (some 36) (some 5) none none id) 0 = false := by
  decide +kernel

theorem test_witness_EncodeDecode :
    (Instr.loopi 0xFF 1).wf = true ∧ (Instr.loopi 0xFF 1).hasWord = true ∧ decode 0x00000002 = .ok (.addi 0 0 0) := by decide +kernel

theorem test_witness_StoresKeepTheirForm :
    let s : State := { State.reset with script := [.seq 0] }
    Memory.wf s.mem = true ∧ (∀ c : Fin 192, Sparse.wf 0 (s.core c).pad = true ∧ Sparse.wf 0 (s.core c).acc = true)
    ∧ (match step s with | .next _ => true | _ => false) = true := by decide +kernel

theorem test_witness_EveryInstructionEnds :
    deviceStopped State.reset = false
    ∧ (match step { start id with script := [.seq 0], tripped := true } with | .fault f => f == .deviceStopped | _ => false) = true := by decide +kernel

theorem test_witness_HandlerAddressIsTheSupervisors :
    (encode (.csrrw 1 0x1004 2)).isSome = true ∧ (start id).me.status.getLsbD 0 = false
    ∧ (after (.csrrw 1 0x1004 2) (start id) fun t => (t.slot 0).evec) = some 0x8000 := by decide +kernel

theorem test_witness_AddressTranslation :
    let s := mapped (start id)
    let leaf (l : Nat) : State := inMem 0x18000 [l] s
    let walked (s : State) := match walk s.agent 8 3 0 s with | .ok x _ => some (x.lvl, x.leaf, x.entry) | .error _ _ => none
    let set (old new : Word) (s : State) := match setBits s.agent 0x18000 old new 8 s with | .ok b _ => some b | .error _ _ => none
    2 ^ 57 ≤ (0x200000000000000#64).toNat ∧ localBase ≤ pad.toNat ∧ pad.toNat < 2 ^ 57 ∧ s.agent.core = some 0 ∧ (hostAgent s 0).core = none
    ∧ (s.core 0).owner = some 0 ∧ (s.core 1).owner ≠ some 0
    ∧ runs (homeQuad s.agent.writer 0 8) s = true ∧ fails (homeQuad s.agent.writer 0 8) { s with bad := [(0, 0)] } = some causeData
    ∧ walked s = some (0, 0x18000, 0x800FF) ∧ walked (leaf 0x800FE) = none ∧ walked (leaf 0x800FD) = none ∧ s.cached = []
    ∧ (walk s.agent 0x8000 3 0 s |> fun | .error _ _ => true | .ok _ _ => false) = true
    ∧ regionOf 0x20008 = .hbm ∧ allowedAt s .load 0x20008 = true ∧ allowedAt s .load (2 ^ 50) = false
    -- a leaf that goes on as it is, one whose bits are set, and one that has changed meanwhile
    ∧ withAD .store 0x800FF = 0x800FF ∧ withAD .store 0x8003F ≠ 0x8003F ∧ set 0x8003F 0x800FF (leaf 0x8003F) = some true
    ∧ set 0x8003F 0x800FF (leaf 0x8001F) = some false
    ∧ fails (setBits s.agent 0x18000 0x8003F 0x800FF 8) { leaf 0x8003F with bad := [(0x18000 / 64, 0)] } = none
    ∧ (match setBits s.agent 0x18000 0x8003F 0x800FF 8 { leaf 0x8003F with marks := [(0x18000 / 64, .transit)] } with
        | .error (.wait _) _ => true
        | _ => false) = true
    -- an entry that the caches keep
    ∧ (match translate s.agent .load 8 s with
        | .ok _ u => u.cached.length == 4 && (cachedNode u u.agent 8 3 0).isSome
        | .error _ _ => false) = true := by decide +kernel
/-! ## Threads, engines, scheduling and the host -/

/-- The first instruction after reset: `addi x3, x0, 7` placed where the machine fetches. -/
theorem test_step_runs_a_word : stepped (State.reset.withFetchWord 32 0x000700C2) (·.me.readX 3) = some 7 := by decide +kernel
theorem test_step_runs_a_reserved_word : stepped (State.reset.withFetchWord 32 0) (fun s => (s.me.ecause, s.me.etval)) = some (1, 0) := by
  decide +kernel

theorem test_tspawn_enqueues :
    after (.tspawn 1) (inPad 0 [0x1000, 0x55, 0, 1] (start (·.writeX 1 pad)))
      (fun s => ((s.cluster 0).queue.map fun r => (r.addr, r.code, r.frame, r.request), s.me.pc)) = some ([(pad, 0x1000, 0x55, 1)], 0x1004) := by
  decide +kernel
theorem test_tspawn_misaligned : after (.tspawn 1) (start (·.writeX 1 (pad + 16))) (·.me.ecause) = some 6 := by decide +kernel
theorem test_texit_counts_down :
    after .texit (inPad 0 [2] (start fun t => { t with xjoin := pad })) (fun s => (padQuad 0 s, (s.slot 0).busy)) = some (1, false) := by
  decide +kernel
theorem test_hwpub_publishes :
    after (.hwpub 1 2) (inPad 0 [1, 4, 0, 0] (start ((·.writeX 1 pad) ∘ (·.writeX 2 4)))) (fun s => (padQuad 0 s, padQuad 16 s)) = some (4, 1) := by
  decide +kernel
theorem test_pick_starts_a_thread :
    let r : ContRec := { addr := 0x40, code := 0x1000, frame := 9, joinctr := 0x80, request := 2, alloc := 8, elastic := false, vceil := 0, level := 0
                         prio := 0, part := 3, xdone := 0, awaited := none, bound := none, since := 0, spilled := none }
    after (.ctsPick 0) (mapCluster 0 (fun k => { k with queue := [r] }) (mapCore 5 (fun k => { k with owner := some 3 }) State.reset))
      (fun s => let t := s.slot 20
        ((t.busy, t.pc, t.readX 4, t.readX 5), t.lpart, (s.cluster 0).queue.length)) = some ((true, 0x1000, 9, 0x80), 0xFFFF, 0) := by decide +kernel
theorem test_ageing_raises_the_level :
    let r : ContRec := { addr := 0x40, code := 0, frame := 0, joinctr := 0, request := 1, alloc := 8, elastic := false, vceil := 0, level := 1
                         prio := 1, part := 0, xdone := 0, awaited := none, bound := none, since := 0, spilled := none }
    after (.recordAging 0 0) { mapCluster 0 (fun k => { k with queue := [r] }) State.reset with cycle := 65536 }
      (fun s => (s.cluster 0).queue.map fun r => (r.level, r.since)) = some [(2, 65536)] := by decide +kernel

theorem test_gjoin_without_a_gang : after (.gjoin 3) (start id) (·.me.pc) = some 0x100C := by decide +kernel
theorem test_gjoin_of_the_lead_holds :
    after (.gjoin 3) (ganged (some 5) none none none id) (fun s => (s.me.pc, s.me.waiting.map (·.kind), (s.gangOf 0).bind fun g => g.hold.map (·.label)))
      = some (0x1000, some .gang, some 0x100C) := by decide +kernel
theorem test_lgrow_takes_free_units : after (.lgrow 1) (start (·.writeX 1 2)) (·.me.pending) = some 0xFFFFFF := by decide +kernel
theorem test_lgrow_of_nothing : after (.lgrow 1) (start id) (fun s => (s.me.ecause, s.me.etval)) = some (2, 0) := by decide +kernel
theorem test_lane_retire : after (.laneRetire 0 3) (mapCore 0 (fun k => { k with laneErrors := [3] }) (start id)) (fun s => ((s.core 0).lanemap, s.me.pending)) = some (8, 0xF7) := by decide +kernel
theorem test_bar_waits : after (.bar 0) (launched id) (fun s => (s.me.pc, s.me.waiting.map (·.kind))) = some (0x1000, some .barrier) := by
  decide +kernel
/-- R206: the last arrival of a phase flips it and reloads the count. -/
theorem test_arrive_ends_the_phase : after (.arrive 1) (inPad 0 [1, 3] (start (·.writeX 1 pad))) (padQuad 0) = some (2 ^ 32 + 3) := by decide +kernel

theorem test_preemption_is_a_trap :
    after (.preemptionTaken 0) (start fun t => { t with pmPending := [.seq 5] }) (fun s => (s.me.pc, s.me.epc, s.me.ecause, s.me.etval))
      = some (0x8000, 0x1000, 18, 5) := by decide +kernel
theorem test_hpmreq_of_an_idle_slot : after (.hpmreqWrite 0 0x105) State.reset (fun s => (s.part 0).hpmResult) = some 2 := by decide +kernel

theorem test_peq_of_the_scratchpad : after (.peq 2 1 3) (start ((·.writeX 1 pad) ∘ (·.writeX 3 (pad + 8)))) (·.me.readC 2) = some false := by
  decide +kernel
theorem test_darn_issues :
    after (.darn 1) (inPad 0 [0x10000, 0x20000, 2, 0, 7] (start (·.writeX 1 pad))) (fun s => ((s.part 0).darn.map fun j => (j.src, j.dst, j.count), padQuad 32 s))
      = some ([(0x10000, 0x20000, 2)], 0) := by decide +kernel
theorem test_darn_begins_a_line :
    after (.darnLineMove 0) (darnState none 0 none) (fun s => (markOf s 2048, (s.part 0).darn.map (·.line)))
      = some (some Mark.transit, [some (2048, 0x28000 / 64, 0)]) := by decide +kernel
theorem test_a_held_write_performs :
    after (.homeAgentAccess 0) { State.reset with transit := [{ part := none, owner := none, core := none, src := .unit, tick := 0, ord := 0, addr := 4, act := .write [7] }] }
      (fun s => (Memory.read s.mem 4, s.transit.length)) = some (7, 0) := by decide +kernel
theorem test_l1_writeback :
    after (.l1Writeback 0 7) (mapCore 0 (fun k => { k with l1 := [(7, { valid := 1, dirty := 1, data := 5 })] }) State.reset)
      (fun s => ((l1Line s 0 7).dirty, (bufLine s 0 7).byte 0, (bufLine s 0 7).isDirty 0)) = some (0, 5, true) := by decide +kernel

theorem test_kvalloc_of_an_empty_pool : after (.kvalloc 3) (kvState (2 ^ 32 - 1) (·.writeX 3 9)) (·.me.readX 3) = some 0 := by decide +kernel
theorem test_kvalloc_disabled : after (.kvalloc 3) (start id) (fun s => (s.me.ecause, s.me.etval)) = some (2, 0) := by decide +kernel
theorem test_vkvpos : after (.vkvpos 0 3 24) (kvState 0 fun t => { t.setBinding 24 (kvBound true) with vtype := 0x000C, vl := 2 }) (got 3 32 2 ·.me)
    = some [3, 2 ^ 32 - 1] := by decide +kernel
theorem test_sunbind_zeroes : after (.sunbind 0) (streaming 0x0004 2 false []) (fun s => s.me.binding 24) = some .unbound := by decide +kernel

theorem test_copy_of_zeros :
    after (.copyOperationEnd 0 0 4) (inPad 64 [2 ^ 64 - 1] (mapCore 0 (fun k => { k with copies := [{ aCopy 0 (pad + 64) with op := 1, total := 1 }] }) (start id)))
      (fun s => (padQuad 64 s, (s.core 0).copies.length)) = some (2 ^ 64 - 256, 0) := by decide +kernel
theorem test_mzero_clears_a_row :
    after (.tileTaskEnd 0 0 1) (mapCore 0 (fun k => { k with acc := [(0, 5), (7, 5), (8, 5)] }) (tasked (aTask 0 true true false)))
      (fun s => ((s.core 0).acc, (s.cluster 0).tasks.length, padQuad 0 s / 2 ^ 62)) = some ([(8, 5)], 0, 1) := by decide +kernel

theorem test_qpi_makes_records_available :
    after (.qpiWrite 0 0 5) (inMem 0 [0x80, 16, 3, 1] State.reset) (fun s => ((s.part 0).queues[(0 : Fin 8)]).avail) = some 2 := by decide +kernel
theorem test_core_changes_owner :
    after (.coreOwnerChange 5) (mapCore 5 (fun k => { k with newOwner := some (some 3), pad := [(0, 1)] }) State.reset)
      (fun s => ((s.core 5).owner, (s.core 5).pad)) = some (some 3, []) := by decide +kernel
theorem test_passign : after (.passignWrite 5 0x13) State.reset (fun s => (s.core 5).newOwner) = some (some (some 3)) := by decide +kernel
theorem test_unmask_sends :
    after (.msixVectorUnmask 0 1) (mapPart 0 (fun t => { t with pba := 2, msix := t.msix.set 1 { addr := 8, data := 9, masked := true } }) State.reset)
      (fun s => (s.outbox, (s.part 0).pba)) = some ([.msix 0 1 8 9], 0) := by decide +kernel
theorem test_extent_is_placed :
    after (.extentOffer 2 false) { State.reset with extasgn := 0x13 } (fun s => s.extents.map fun x => (x.base, x.units, x.part)) = some [(2 ^ 50, 2, 3)] := by
  decide +kernel
theorem test_pwrlim_out_of_range : after (.pwrlimWrite 999) State.reset (·.pwrlim) = some 2800 := by decide +kernel

end Sys2Proof.Tests
end

/-! SUPPORT. A read of memory that stops changes no slot either: its trap can be kept for later, as the prefetcher of a KV
chain does (R306). -/

namespace Sys2Proof.Laws

open Sys2Proof Sys2Proof.Machine

/-- An action that, when it stops, leaves the slots. -/
def KeepsStopped {α : Type} (m : M α) : Prop := ∀ s e t, m s = .error e t → SameSlots s t

namespace KeepsStopped

theorem pure {α : Type} (a : α) : KeepsStopped (pure a : M α) := by
  intro s e t h; cases h

theorem getS : KeepsStopped getS := by intro s e t h; cases h
theorem modS (f : State → State) : KeepsStopped (modS f) := by intro s e t h; cases h
theorem waitFor {α : Type} (k : HoldKind) : KeepsStopped (waitFor k : M α) := by
  intro s e t h; cases h; exact SameSlots.refl s

theorem check (b : Bool) (c : Nat) (v : Word) : KeepsStopped (check b c v) := by
  intro s e t h
  unfold Machine.check at h
  split at h
  · cases h
  · cases h; exact SameSlots.refl s

theorem bind {α β : Type} {m : M α} {f : α → M β} (k : Keeps m) (h : KeepsStopped m) (g : ∀ a, KeepsStopped (f a)) :
    KeepsStopped (m >>= f) := by
  intro s e t x
  rw [bind_run] at x
  split at x
  · rename_i a u ha
    exact (k s a u ha).trans (g a u e t x)
  · rename_i ha
    cases x
    exact h _ _ _ ha

theorem forList {α : Type} (l : List α) {f : α → M Unit} (k : ∀ a, Keeps (f a)) (h : ∀ a, KeepsStopped (f a)) :
    KeepsStopped (forList l f) := by
  induction l with
  | nil => intro s e t x; cases x
  | cons a r ih =>
    intro s e t x
    unfold Machine.forList at x
    split at x
    · rename_i u ha
      exact (k a s _ u ha).trans (ih u e t x)
    · rename_i ha
      cases x
      exact h a _ _ _ ha

theorem collect {α β : Type} (l : List α) {f : α → M β} (k : ∀ a, Keeps (f a)) (h : ∀ a, KeepsStopped (f a)) :
    KeepsStopped (collect l f) := by
  induction l with
  | nil => intro s e t x; cases x
  | cons a r ih =>
    intro s e t x
    unfold Machine.collect at x
    split at x
    · rename_i b u ha
      split at x
      · cases x
      · rename_i hr
        cases x
        exact (k a s b u ha).trans (ih u _ _ hr)
    · rename_i ha
      cases x
      exact h a _ _ _ ha

/-! ## At a home agent -/

theorem homeRead (w : Writer) (pa n : Nat) (va : Word) : KeepsStopped (homeRead w pa n va) := by
  intro s e t h
  unfold Machine.homeRead at h
  split at h
  · cases h; exact SameSlots.refl s
  · split at h
    · cases h; exact same_takeTurn _ _ _
    · split at h
      · cases h; exact SameSlots.refl s
      · cases h

theorem homeWrite (w : Writer) (pa : Nat) (b : List Byte) (va : Word) : KeepsStopped (homeWrite w pa b va) := by
  intro s e t h
  unfold Machine.homeWrite at h
  split at h
  · cases h; exact SameSlots.refl s
  · split at h
    · cases h; exact SameSlots.refl s
    · split at h
      · split at h
        · cases h; exact SameSlots.refl s
        · cases h
      · cases h

theorem homeSettled (w : Writer) (pa : Nat) (va : Word) : KeepsStopped (homeSettled w pa va) := by
  intro s e t h
  unfold Machine.homeSettled at h
  split at h
  · cases h; exact SameSlots.refl s
  · split at h
    · cases h; exact same_takeTurn _ _ _
    · cases h

theorem homeQuad (w : Writer) (pa : Nat) (va : Word) : KeepsStopped (homeQuad w pa va) := by
  intro s e t h
  unfold Machine.homeQuad at h
  split at h
  · cases h
  · rename_i x; cases h; exact homeRead _ _ _ _ _ _ _ x

theorem asOne {α : Type} (w : Writer) (pa : Nat) (va : Word) {m : M α} (k : KeepsStopped m) :
    KeepsStopped (asOne w pa va m) := by
  intro s e t h
  unfold Machine.asOne at h
  split at h
  · rename_i x; cases h; exact homeSettled _ _ _ _ _ _ x
  · rename_i s1 x
    have k1 := Keeps.homeSettled _ _ _ _ _ _ x
    split at h
    · exact k1.trans (k _ _ _ h)
    · dsimp only at h
      split at h
      · cases h
      · rename_i y
        cases h
        refine k1.trans (SameSlots.trans (t := { s1 with transit := _ }) ⟨rfl, rfl⟩ ((k _ _ _ y).trans ?_))
        exact ⟨(drain_same _ _).slots, (drain_same _ _).cur⟩

/-! ## Translation -/

theorem entryFault {α : Type} (a : Agent) (va : Word) {m : M α} (k : KeepsStopped m) : KeepsStopped (entryFault a va m) := by
  intro s e t h
  unfold Machine.entryFault at h
  split at h
  · rename_i x
    split at h <;> (cases h; exact k _ _ _ x)
  · exact k _ _ _ h

theorem readEntry (a : Agent) (pa : Nat) (va : Word) : KeepsStopped (readEntry a pa va) := by
  intro s e t h
  exact (same_settleLine a pa 8 s).trans (entryFault a va (homeQuad _ _ _) _ _ _ h)

theorem nodeAt (a : Agent) (va : Word) (lvl pa : Nat) : KeepsStopped (nodeAt a va lvl pa) := by
  intro s e t h
  unfold Machine.nodeAt at h
  split at h
  · cases h
  · exact readEntry _ _ _ _ _ _ h

theorem walk (a : Agent) (va : Word) (lvl t : Nat) : KeepsStopped (walk a va lvl t) := by
  induction lvl generalizing t with
  | zero =>
    intro s e u h
    unfold Machine.walk at h
    dsimp only at h
    split at h
    · rename_i x; cases h; exact nodeAt _ _ _ _ _ _ _ x
    · rename_i x
      have k := Keeps.nodeAt _ _ _ _ _ _ _ x
      split at h
      · cases h; exact k
      · split at h
        · cases h
        · cases h; exact k
  | succ l ih =>
    intro s e u h
    unfold Machine.walk at h
    dsimp only at h
    split at h
    · rename_i x; cases h; exact nodeAt _ _ _ _ _ _ _ x
    · rename_i x
      have k := Keeps.nodeAt _ _ _ _ _ _ _ x
      split at h
      · cases h; exact k
      · split at h
        · cases h
        · split at h
          · cases h; exact k
          · split at h
            · rename_i y; cases h; exact k.trans (ih _ _ _ _ y)
            · cases h

theorem hostPage (a : Agent) (pa : Nat) (va : Word) : KeepsStopped (hostPage a pa va) := by
  intro s e t h
  unfold Machine.hostPage at h
  split at h
  · dsimp only at h
    split at h
    · cases h
    · split at h
      · split at h <;> (cases h; exact ⟨rfl, rfl⟩)
      · split at h
        · cases h; exact ⟨rfl, rfl⟩
        · cases h
  · cases h

theorem peerPage (pa : Nat) (va : Word) : KeepsStopped (peerPage pa va) := by
  intro s e t h
  unfold Machine.peerPage at h
  split at h
  · dsimp only at h
    split at h
    · cases h
    · cases h; exact SameSlots.refl s
  · cases h

theorem locOf (a : Agent) (pa : Nat) (va : Word) (leaf : Nat) (e : Word) : KeepsStopped (locOf a pa va leaf e) :=
  bind (Keeps.hostPage _ _ _) (hostPage _ _ _) fun _ => bind (Keeps.peerPage _ _) (peerPage _ _) fun _ => pure _

theorem setBits (a : Agent) (leaf : Nat) (old new va : Word) : KeepsStopped (setBits a leaf old new va) := by
  unfold Machine.setBits
  split
  · exact pure _
  · refine entryFault _ _ (asOne _ _ _ (bind (Keeps.homeQuad _ _ _) (homeQuad _ _ _) fun q => ?_))
    dsimp only
    split
    · exact bind (Keeps.homeWrite _ _ _ _) (homeWrite _ _ _ _) fun _ =>
        bind (Keeps.modS fun _ => same_showEntry _ _ _ _) (modS _) fun _ => pure _
    · exact pure _

theorem walkTranslate (a : Agent) (k : AccKind) (va : Word) (n : Nat) : KeepsStopped (walkTranslate a k va n) := by
  induction n with
  | zero => exact waitFor _
  | succ n ih =>
    unfold Machine.walkTranslate
    refine bind (Keeps.walk _ _ _ _) (walk _ _ _ _) fun w => bind (Keeps.check _ _ _) (check _ _ _) fun _ =>
      bind (Keeps.check _ _ _) (check _ _ _) fun _ => bind (Keeps.setBits _ _ _ _ _) (setBits _ _ _ _ _) fun b => ?_
    cases b
    · exact ih
    · exact bind Keeps.getS getS fun _ => bind (Keeps.check _ _ _) (check _ _ _) fun _ =>
        bind (Keeps.modS fun _ => same_remember _ _ _ _ _) (modS _) fun _ => locOf _ _ _ _ _

theorem cachedTranslate (a : Agent) (k : AccKind) (va : Word) (c : Cached) : KeepsStopped (cachedTranslate a k va c) := by
  unfold Machine.cachedTranslate
  refine bind (Keeps.check _ _ _) (check _ _ _) fun _ => bind (Keeps.setBits _ _ _ _ _) (setBits _ _ _ _ _) fun b => ?_
  cases b
  · exact walkTranslate _ _ _ _
  · refine bind Keeps.getS getS fun _ => bind (Keeps.check _ _ _) (check _ _ _) fun _ =>
      bind (Keeps.modS fun s => ?_) (modS _) fun _ => locOf _ _ _ _ _
    split
    · exact SameSlots.refl s
    · exact same_keepEntry _ _

/-- A translation that stops leaves the slots. -/
theorem translate (a : Agent) (k : AccKind) (va : Word) : KeepsStopped (translate a k va) := by
  intro s e t h
  unfold Machine.translate at h
  split at h
  · cases h; exact SameSlots.refl s
  · split at h
    · split at h
      · cases h; exact SameSlots.refl s
      · cases h
    · split at h
      · exact cachedTranslate _ _ _ _ _ _ _ h
      · exact walkTranslate _ _ _ _ _ _ _ h

/-! ## Reads at the levels of the caches -/

theorem homeGran (w : Writer) (pa : Nat) (va : Word) : KeepsStopped (homeGran w pa va) := by
  intro s e t h
  unfold Machine.homeGran at h
  split at h
  · cases h
  · cases h
  · exact homeRead _ _ _ _ _ _ _ h

theorem bufGran (w : Writer) (cl : ClusterId) (ord n g : Nat) (va : Word) : KeepsStopped (bufGran w cl ord n g va) := by
  intro s e t h
  unfold Machine.bufGran at h
  dsimp only at h
  split at h
  · split at h <;> cases h
    exact SameSlots.refl s
  · split at h
    · rename_i x; cases h; exact homeGran _ _ _ _ _ _ x
    · cases h

theorem fillL1 (w : Writer) (c : CoreId) (ord n : Nat) (va : Word) : KeepsStopped (fillL1 w c ord n va) := by
  refine forList _ (fun g => ?_) fun g => ?_
  · intro s x t h
    dsimp only at h
    split at h
    · cases h; exact SameSlots.refl s
    · split at h
      · cases h
      · rename_i e
        cases h
        exact (Keeps.bufGran _ _ _ _ _ _ _ _ _ e).trans ⟨rfl, rfl⟩
  · intro s e t h
    dsimp only at h
    split at h
    · cases h
    · split at h
      · rename_i x; cases h; exact bufGran _ _ _ _ _ _ _ _ _ x
      · cases h

/-- A granule comes from the home at level 3 and where the agent has no cache, from the cluster's buffer at level 2, and
from the core's L1 otherwise. -/
theorem levelGran (a : Agent) (lvl ord n g : Nat) (va : Word) : KeepsStopped (levelGran a lvl ord n g va) := by
  have home : KeepsStopped (fun s => match Machine.homeGran { a.writer with ord := ord } (64 * n + g) va s with
      | .ok b u => (.ok b (showRead a lvl ord n g b u) : EStateM.Result Stop State (List Byte))
      | .error e u => .error e u) := by
    intro s e t h
    dsimp only at h
    split at h
    · cases h
    · rename_i y; cases h; exact homeGran _ _ _ _ _ _ y
  have buf (k : ClusterId) : KeepsStopped (fun s => match Machine.bufGran a.writer k ord n g va s with
      | .ok b u => (.ok b (showRead a lvl ord n g b u) : EStateM.Result Stop State (List Byte))
      | .error e u => .error e u) := by
    intro s e t h
    dsimp only at h
    split at h
    · cases h
    · rename_i y; cases h; exact bufGran _ _ _ _ _ _ _ _ _ y
  have l1 (k : CoreId) : KeepsStopped (fun s => match Machine.fillL1 a.writer k ord n va s with
      | .ok _ u => (.ok ((l1Line u k n).bytesAt g 8) u : EStateM.Result Stop State (List Byte))
      | .error e u => .error e u) := by
    intro s e t h
    dsimp only at h
    split at h
    · cases h
    · rename_i y; cases h; exact fillL1 _ _ _ _ _ _ _ _ y
  obtain ⟨x, c, cl, q, r⟩ := a
  rcases c with _ | c <;> rcases cl with _ | cl <;> rcases lvl with _ | _ | _ | _ | lvl
  exacts [home, home, home, home, home, home, home, buf cl, home, home,
    l1 c, l1 c, l1 c, home, l1 c, l1 c, l1 c, buf cl, home, l1 c]

theorem readGran (a : Agent) (lvl ord pa k : Nat) (va : Word) : KeepsStopped (readGran a lvl ord pa k va) := by
  intro s0 e t h
  unfold Machine.readGran at h
  dsimp only at h
  have key : SameSlots s0 (if ord = 1 then pushDown a.core a.cluster a.queue (pa / 64) (gatherAt a.core a.cluster (pa / 64) s0)
      else gatherAt a.core a.cluster (pa / 64) s0) := by
    split
    · exact (same_gatherAt _ _ _ _).trans (same_pushDown _ _ _ _ _)
    · exact same_gatherAt _ _ _ _
  generalize (if ord = 1 then pushDown a.core a.cluster a.queue (pa / 64) (gatherAt a.core a.cluster (pa / 64) s0)
      else gatherAt a.core a.cluster (pa / 64) s0) = s1 at key h
  split at h
  · cases h; exact key
  · split at h
    · cases h; exact key
    · split at h
      · cases h
      · split at h
        · rename_i x; cases h; exact key.trans (levelGran _ _ _ _ _ _ _ _ _ x)
        · cases h

theorem strongOrder (a : Agent) (ord : Nat) : KeepsStopped (strongOrder a ord) := by
  intro s e t h
  unfold Machine.strongOrder at h
  split at h
  · cases h; exact SameSlots.refl s
  · cases h

theorem readBytes (a : Agent) (sc : Scope) (l : Loc) (n : Nat) (va : Word) : KeepsStopped (readBytes a sc l n va) := by
  unfold Machine.readBytes
  split
  · intro s e t h
    dsimp only at h
    split at h
    · cases h; exact SameSlots.refl s
    · cases h
  · exact bind (Keeps.strongOrder _ _) (strongOrder _ _) fun _ =>
      bind (Keeps.collect _ fun _ => Keeps.readGran _ _ _ _ _ _) (collect _ (fun _ => Keeps.readGran _ _ _ _ _ _)
        fun _ => readGran _ _ _ _ _ _) fun _ => pure _

theorem readLoc (a : Agent) (sc : Scope) (l : Loc) (n : Nat) (va : Word) : KeepsStopped (readLoc a sc l n va) :=
  bind (Keeps.readBytes _ _ _ _ _) (readBytes _ _ _ _ _) fun _ => pure _

/-- Words read in a row, up to the one that stops. -/
theorem quadsAt (a : Agent) (sc : Scope) (va : Word) (n : Nat) : KeepsStopped (quadsAt a sc va n) :=
  bind (Keeps.translate _ _ _) (translate _ _ _) fun _ =>
    collect _ (fun _ => (Keeps.readLoc _ _ _ _ _).bind fun _ => Keeps.pure _)
      fun _ => bind (Keeps.readLoc _ _ _ _ _) (readLoc _ _ _ _ _) fun _ => pure _

end KeepsStopped

/-! ## The links of a KV chain (R306, R310) -/

theorem Keeps.quadsAt (a : Agent) (sc : Scope) (va : Word) (n : Nat) : Keeps (quadsAt a sc va n) :=
  (Keeps.translate _ _ _).bind fun _ => Keeps.collect _ fun _ => (Keeps.readLoc _ _ _ _ _).bind fun _ => Keeps.pure _

theorem Keeps.readHead (a : Agent) (kvm : Word) (k : Nat) (bad : Word) : Keeps (readHead a kvm k bad) := by
  intro s x t h
  unfold Machine.readHead at h
  split at h
  · rename_i e
    split at h
    · cases h; exact Keeps.quadsAt _ _ _ _ _ _ _ e
    · cases h
  · cases h

theorem KeepsStopped.readHead (a : Agent) (kvm : Word) (k : Nat) (bad : Word) : KeepsStopped (readHead a kvm k bad) := by
  intro s e t h
  unfold Machine.readHead at h
  split at h
  · rename_i x
    split at h
    · cases h
    · cases h; exact Keeps.quadsAt _ _ _ _ _ _ _ x
  · rename_i x; cases h; exact KeepsStopped.quadsAt _ _ _ _ _ _ _ x

/-- The way to the next token changes no slot, whether it meets the token, the end of the chain or a fault. -/
theorem Keeps.seekToken (a : Agent) (kvm : Word) (n : Nat) (page : Word) (slot : Nat) : Keeps (seekToken a kvm n page slot) := by
  induction n generalizing page slot with
  | zero =>
    intro s x t h
    unfold Machine.seekToken at h
    split at h
    · cases h; exact SameSlots.refl s
    · dsimp only at h
      split at h
      · rename_i e; cases h; exact KeepsStopped.readHead _ _ _ _ _ _ _ e
      · cases h
      · rename_i e
        split at h <;> (cases h; exact Keeps.readHead _ _ _ _ _ _ _ e)
  | succ n ih =>
    intro s x t h
    unfold Machine.seekToken at h
    split at h
    · cases h; exact SameSlots.refl s
    · dsimp only at h
      split at h
      · rename_i e; cases h; exact KeepsStopped.readHead _ _ _ _ _ _ _ e
      · cases h
      · rename_i e
        have k := Keeps.readHead _ _ _ _ _ _ _ e
        split at h
        · cases h; exact k
        · exact k.trans (ih _ _ _ _ _ h)

theorem Keeps.nextPlace (a : Agent) (b : KvBinding) (kvm : Word) : Keeps (nextPlace a b kvm) := by
  unfold Machine.nextPlace
  split
  · exact Keeps.pure _
  · split
    · exact Keeps.pure _
    · refine (Keeps.seekToken _ _ _ _ _).bind fun k => ?_
      cases k <;> exact Keeps.pure _

end Sys2Proof.Laws

/-! SUPPORT. The parts of a CSR instruction: its checks, its read, its write, and how it ends (R13, R29, R35, R49, R100). -/

namespace Sys2Proof.Laws

open Sys2Proof Sys2Proof.Machine

/-! ## The numbers -/

/-- The CSR that the number in a CSR instruction names: from 8192 on there are none (R29). -/
def csrNamed (n : BitVec 14) : Option Csr := if n.toNat < 8192 then csrOf n.toNat else none

theorem csrNamed_eq (n : BitVec 14) : (if 2 ≤ n.toNat / 4096 then none else csrOf n.toNat) = csrNamed n := by
  unfold csrNamed
  by_cases h : n.toNat < 8192
  · rw [if_pos h, if_neg (by omega)]
  · rw [if_neg h, if_pos (by omega)]

theorem csrOf_of_csrNamed {n : BitVec 14} {c : Csr} (h : csrNamed n = some c) : csrOf n.toNat = some c := by
  unfold csrNamed at h
  split at h
  · exact h
  · cases h

/-- A run of CSRs gives members of the run only. -/
theorem csrRun_eq_some {k n lo : Nat} {f : Fin k → Csr} {c : Csr} (h : csrRun n lo f = some c) : ∃ i, c = f i := by
  unfold csrRun at h
  split at h
  · cases h; exact ⟨_, rfl⟩
  · cases h

/-- The vector CSRs are those with the numbers 0 to 4 (R100). -/
theorem firstUse_of_csrOf {n : Nat} {c : Csr} (h : csrOf n = some c) : c.firstUse = decide (n ≤ 4) := by
  by_cases hn : n ≤ 4
  · interval_cases n <;> (cases h; rfl)
  · rw [decide_eq_false hn]
    unfold csrOf at h
    split at h
    case h_55 =>
      obtain ⟨a, ha, rfl⟩ := List.exists_of_findSome?_eq_some h
      simp only [List.mem_cons, List.not_mem_nil, or_false] at ha
      rcases ha with e | e | e | e | e | e | e | e | e | e <;> (obtain ⟨i, rfl⟩ := csrRun_eq_some e.symm; rfl)
    all_goals cases h; revert hn; decide

/-! ## Sequences -/

theorem bind_ok {α β : Type} {x : M α} {f : α → M β} {s u : State} {a : α} (h : x s = .ok a u) : (x >>= f) s = f a u := by
  rw [bind_run, h]

theorem bind_error {α β : Type} {x : M α} {f : α → M β} {s u : State} {e : Stop} (h : x s = .error e u) :
    (x >>= f) s = .error e u := by
  rw [bind_run, h]

/-! ## The checks (steps 1 to 3 of R35) -/

section
variable {n : BitVec 14} {s : State} {c : Csr} (w : IWord)

theorem csrChecked_unassigned (h : csrNamed n = none) : csrChecked n w s = .error (.trap causeIllegal (w.zeroExtend 64)) s := by
  unfold csrChecked
  rw [bind_ok (getMe_run s), csrNamed_eq, h]
  rfl

/-- The checks of an assigned number are those of the level and of the vector unit, in this order. -/
theorem csrChecked_assigned (h : csrNamed n = some c) : csrChecked n w s = (do
    check (n.toNat < 4096 || s.me.sup) causePrivilege (w.zeroExtend 64)
    check (s.me.sup || s.me.vstate != 0 || !c.firstUse) causeFirstUse (w.zeroExtend 64)
    pure c : M Csr) s := by
  unfold csrChecked
  rw [bind_ok (getMe_run s), csrNamed_eq, h]

theorem csrChecked_level (h : csrNamed n = some c) (hn : 4096 ≤ n.toNat) (hs : s.me.sup = false) :
    csrChecked n w s = .error (.trap causePrivilege (w.zeroExtend 64)) s := by
  rw [csrChecked_assigned w h, bind_error (check_fail _ _ _ _ _)]
  simp [hs, hn]

theorem csrChecked_firstUse (h : csrNamed n = some c) (hn : n.toNat ≤ 4) (hs : s.me.sup = false) (hv : s.me.vstate = 0) :
    csrChecked n w s = .error (.trap causeFirstUse (w.zeroExtend 64)) s := by
  have vec : c.firstUse = true := by rw [firstUse_of_csrOf (csrOf_of_csrNamed h), decide_eq_true hn]
  have low : n.toNat < 4096 := by omega
  rw [csrChecked_assigned w h, bind_ok (check_pass _ _ _ _ (by simp [low])), bind_error (check_fail _ _ _ _ _)]
  simp [hs, hv, vec]

theorem csrChecked_passes (h : csrNamed n = some c) (hn : n.toNat < 4096 ∨ s.me.sup = true)
    (hv : s.me.sup = true ∨ ¬ n.toNat ≤ 4 ∨ s.me.vstate ≠ 0) : csrChecked n w s = .ok c s := by
  rw [csrChecked_assigned w h, bind_ok (check_pass _ _ _ _ (by simpa using hn)), bind_ok (check_pass _ _ _ _ _), pure_run]
  rw [firstUse_of_csrOf (csrOf_of_csrNamed h)]
  rcases hv with hv | hv | hv
  · simp [hv]
  · simp [hv]
  · have on : ¬ s.me.vstate = 0#2 := hv
    simp [on]

end

/-! ## The read -/

theorem Keeps.readSkv (n : Fin 8) : Keeps (readSkv n) := by
  unfold Machine.readSkv
  refine Keeps.getS.bind fun s => ?_
  split
  · exact Keeps.pure _
  · exact Keeps.pure _
  · exact (Keeps.nextPlace _ _ _).bind fun _ => Keeps.pure _

/-- A read of a CSR changes nothing of its slot but the list of `ttres`, whose head it takes (R332). -/
theorem csrRead_slot {c : Csr} {s u : State} {v : Word} (h : csrRead c s = .ok v u) :
    u.me = { s.me with ttres := u.me.ttres } := by
  unfold csrRead at h
  dsimp only at h
  split at h
  · cases h; simp
  · rw [(Keeps.readSkv _ _ _ _ h).me]
  · cases h; rfl

/-! ## The write -/

/-- The CSR takes writes of the thread (R29). -/
def TakesWrites (c : Csr) (t : Slot) : Prop := c.access = .all ∨ (c.access = .superOnly ∧ t.sup = true)

/-- A write of `lpidxN` that traps at either level (R18; assumption 27). -/
def BadIndex (c : Csr) (v : Word) (t : Slot) : Prop := ∃ n, c = .lpidx n ∧ (v &&& ~~~c.mask ≠ 0 ∨ t.lpdepth ≤ n.val)

section
variable {c : Csr} {v : Word} {u : State} (w : IWord)

theorem csrWrite_taken (h : TakesWrites c u.me) : csrWrite c v w u = csrWritable c v w u := by
  unfold csrWrite
  rw [bind_ok (getMe_run _)]
  rcases h with h | ⟨h, hs⟩
  · simp only [h]
  · simp only [h, hs, if_true]

/-- A write that is not taken runs at most the checks of `lpidxN`. -/
theorem csrWrite_untaken (h : ¬ TakesWrites c u.me) : csrWrite c v w u =
    if c.access = .superOnly then (do lpidxChecks c v w; pure false : M Bool) u else .ok false u := by
  unfold csrWrite
  rw [bind_ok (getMe_run _)]
  cases hc : c.access
  case readOnly => rfl
  case superOnly =>
    have hs : u.me.sup = false := by
      by_contra hs
      exact h (.inr ⟨hc, by simpa using hs⟩)
    simp [hs]
  case all => exact absurd (.inl hc) h

/-- What the checks of `lpidxN` do to any CSR. -/
theorem lpidxChecks_good (h : ¬ BadIndex c v u.me) : lpidxChecks c v w u = .ok () u := by
  unfold lpidxChecks
  rw [bind_ok (getMe_run _)]
  split
  · rename_i n
    refine check_pass _ _ _ _ ?_
    by_contra hb
    refine h ⟨n, rfl, ?_⟩
    by_cases hm : v &&& ~~~(Csr.lpidx n).mask = 0
    · right; simpa [hm] using hb
    · exact .inl hm
  · rfl

theorem lpidxChecks_bad (h : BadIndex c v u.me) : lpidxChecks c v w u = .error (.trap causeOperand (w.zeroExtend 64)) u := by
  obtain ⟨n, rfl, h⟩ := h
  refine check_fail _ _ _ _ ?_
  rcases h with h | h
  · rw [beq_false_of_ne h, Bool.false_and]
  · rw [decide_eq_false (by omega), Bool.and_false]

theorem csrWrite_ignored (h : ¬ TakesWrites c u.me) (hb : ¬ BadIndex c v u.me) : csrWrite c v w u = .ok false u := by
  rw [csrWrite_untaken w h]
  split
  · rw [bind_ok (lpidxChecks_good w hb)]; rfl
  · rfl

theorem csrWrite_badIndex (h : ¬ TakesWrites c u.me) (hb : BadIndex c v u.me) :
    csrWrite c v w u = .error (.trap causeOperand (w.zeroExtend 64)) u := by
  have hc : c.access = .superOnly := by obtain ⟨n, rfl, -⟩ := hb; rfl
  rw [csrWrite_untaken w h, if_pos hc, bind_error (lpidxChecks_bad w hb)]

/-- A write with a reserved bit set traps (R13). -/
theorem csrWrite_reserved (h : TakesWrites c u.me) (hm : v &&& ~~~c.mask ≠ 0) :
    csrWrite c v w u = .error (.trap causeOperand (w.zeroExtend 64)) u := by
  rw [csrWrite_taken w h]
  unfold csrWritable
  rw [bind_ok (getS_run u), bind_error (check_fail _ _ _ _ (beq_false_of_ne hm))]

/-- What a write traps for before it has any effect. -/
theorem csrWrite_traps (h : TakesWrites c u.me ∧ v &&& ~~~c.mask ≠ 0 ∨ ¬ TakesWrites c u.me ∧ BadIndex c v u.me) :
    csrWrite c v w u = .error (.trap causeOperand (w.zeroExtend 64)) u := by
  rcases h with ⟨ht, hm⟩ | ⟨ht, hb⟩
  · exact csrWrite_reserved w ht hm
  · exact csrWrite_badIndex w ht hb

end

/-! ## The instruction -/

section
variable {func : Nat} {rd rs1 : Reg} {n : BitVec 14} {reads writes : Bool} {f : Word → Word → Word} {s u y : State} {c : Csr}
  {old : Word}

/-- What the instruction writes to the CSR when it has read `old`; the old value is what rs1 gives where rd names it too (R49). -/
def csrNew (rd rs1 : Reg) (reads : Bool) (f : Word → Word → Word) (old : Word) (t : Slot) : Word :=
  f old (if reads = true ∧ rd = rs1 ∧ rd ≠ 0 then old else t.readX rs1)

/-- What the instruction leaves in its slot when it has read `old`. -/
def csrDest (rd : Reg) (reads : Bool) (old : Word) (t : Slot) : Slot := if reads then t.writeX rd old else t

/-- A CSR instruction in one line of actions. -/
theorem csrInstr_eq : csrInstr func rd rs1 n reads writes f = run (wordCsr func n rs1 rd) (
    csrChecked n (wordCsr func n rs1 rd) >>= fun c =>
    (if reads then csrRead c else pure 0) >>= fun old =>
    getX rs1 >>= fun b =>
    (if writes then csrWrite c (f old (if reads && rd == rs1 && rd != 0 then old else b)) (wordCsr func n rs1 rd) else pure false)
      >>= fun ended =>
    if ended then pure .ended else (if reads then setX rd old else pure ()) >>= fun _ => pure .next) := by
  cases reads <;> cases writes <;> rfl

/-- A CSR instruction that fails its checks traps. -/
theorem csrInstr_unchecked {k : Nat} {a : Word} (h : csrChecked n (wordCsr func n rs1 rd) s = .error (.trap k a) s) :
    csrInstr func rd rs1 n reads writes f s = .next (takeTrap k a s.me.pc (turnsOver s s)) := by
  rw [csrInstr_eq]
  unfold run
  rw [bind_error h]

theorem csrDest_run (rd : Reg) (reads : Bool) (old : Word) (y : State) :
    (if reads then setX rd old else pure () : M Unit) y = .ok () (mapMe (csrDest rd reads old) y) := by
  cases reads
  · exact congrArg (EStateM.Result.ok ()) (mapMe_id y).symm
  · rfl

section
variable (hc : csrChecked n (wordCsr func n rs1 rd) s = .ok c s) (hr : (if reads then csrRead c else pure 0) s = .ok old u)
include hc hr

/-- A CSR instruction that passes its checks reads and writes; what the write does decides how it ends. -/
theorem csrInstr_checked : csrInstr func rd rs1 n reads writes f s = run (wordCsr func n rs1 rd) (fun _ => (
    (if writes then csrWrite c (csrNew rd rs1 reads f old u.me) (wordCsr func n rs1 rd) else pure false) >>= fun ended =>
    if ended then pure .ended else (if reads then setX rd old else pure ()) >>= fun _ => pure .next) u) s := by
  have src : csrNew rd rs1 reads f old u.me = f old (if reads && rd == rs1 && rd != 0 then old else u.me.readX rs1) := by
    simp [csrNew, and_assoc]
  rw [csrInstr_eq, src]
  unfold run
  rw [bind_ok hc, bind_ok hr, bind_ok (getX_run rs1 u)]

/-- An instruction whose write goes through sets its destination and retires, unless the thread has ended. -/
theorem csrInstr_writes {ended : Bool}
    (hw : (if writes then csrWrite c (csrNew rd rs1 reads f old u.me) (wordCsr func n rs1 rd) else pure false) u = .ok ended y) :
    csrInstr func rd rs1 n reads writes f s =
      .next (if ended then turnsOver s y else retire .next (turnsOver s (mapMe (csrDest rd reads old) y))) := by
  rw [csrInstr_checked hc hr]
  unfold run
  rw [bind_ok hw]
  cases ended
  · rw [if_neg Bool.false_ne_true, bind_ok (csrDest_run rd reads old y)]
    rfl
  · rfl

/-- An instruction whose write traps. -/
theorem csrInstr_refused {k : Nat} {a : Word}
    (hw : (if writes then csrWrite c (csrNew rd rs1 reads f old u.me) (wordCsr func n rs1 rd) else pure false) u
      = .error (.trap k a) y) :
    csrInstr func rd rs1 n reads writes f s = .next (takeTrap k a s.me.pc (turnsOver s y)) := by
  rw [csrInstr_checked hc hr]
  unfold run
  rw [bind_error hw]

end

/-- The read of a CSR instruction, made or not, leaves all of the slot but the list of `ttres`. -/
theorem csrOld_slot (hr : (if reads then csrRead c else pure 0) s = .ok old u) : u.me = { s.me with ttres := u.me.ttres } := by
  cases reads
  · cases hr; rfl
  · exact csrRead_slot hr

/-- What is written does not depend on what the read has changed. -/
theorem csrNew_read (hr : (if reads then csrRead c else pure 0) s = .ok old u) :
    csrNew rd rs1 reads f old u.me = csrNew rd rs1 reads f old s.me := by
  rw [csrOld_slot hr]; rfl

theorem takesWrites_read (hr : (if reads then csrRead c else pure 0) s = .ok old u) : TakesWrites c u.me ↔ TakesWrites c s.me := by
  rw [csrOld_slot hr]; rfl

theorem badIndex_read {v : Word} (hr : (if reads then csrRead c else pure 0) s = .ok old u) :
    BadIndex c v u.me ↔ BadIndex c v s.me := by
  rw [csrOld_slot hr]; rfl

/-- The three CSR instructions are `csrInstr`, and their encodings are its word (R49). -/
theorem exec_csr {i : Instr} {w : IWord}
    (hi : (i = .csrrw rd n rs1 ∧ reads = (rd != 0) ∧ writes = true ∧ f = fun _ b => b)
      ∨ (i = .csrrs rd n rs1 ∧ reads = true ∧ writes = (rs1 != 0) ∧ f = fun t b => t ||| b)
      ∨ (i = .csrrc rd n rs1 ∧ reads = true ∧ writes = (rs1 != 0) ∧ f = fun t b => t &&& ~~~b))
    (hw : encode i = some w) : ∃ func, wordCsr func n rs1 rd = w ∧ ∀ s, exec i s = csrInstr func rd rs1 n reads writes f s := by
  rcases hi with ⟨rfl, rfl, rfl, rfl⟩ | ⟨rfl, rfl, rfl, rfl⟩ | ⟨rfl, rfl, rfl, rfl⟩
  · exact ⟨0, Option.some.inj hw, fun _ => rfl⟩
  · exact ⟨1, Option.some.inj hw, fun _ => rfl⟩
  · exact ⟨2, Option.some.inj hw, fun _ => rfl⟩

end

/-- Settles O38: the checks come first; what the write does in the state that the read has left decides how the instruction
ends, and the read changes nothing that the write's own checks look at. -/
theorem csrInstructions : Obligations.CsrInstructions := by
  unfold Obligations.CsrInstructions
  intro s rd rs1 n i reads writes f hi w hw
  obtain ⟨func, rfl, hx⟩ := exec_csr hi hw
  have checked {k : Nat} {a : Word} (h : csrChecked n (wordCsr func n rs1 rd) s = .error (.trap k a) s) : traps i s k a :=
    (hx s).trans (csrInstr_unchecked h)
  refine ⟨fun h => checked (csrChecked_unassigned _ h), fun c h => ⟨fun hn hs => checked (csrChecked_level _ h hn hs),
    fun hs hn hv => checked (csrChecked_firstUse _ h hn hs hv), ?_⟩⟩
  intro hn hv old u ho v takes written badIndex
  have hc := csrChecked_passes (wordCsr func n rs1 rd) h hn hv
  have hr : (if reads then csrRead c else pure 0) s = .ok old u := by
    cases reads
    · obtain ⟨rfl, rfl⟩ := ho; rfl
    · exact ho
  have ht : TakesWrites c u.me ↔ takes := takesWrites_read hr
  have hb : BadIndex c v u.me ↔ badIndex := badIndex_read hr
  have wrote {ended : Bool} {y : State}
      (h : (if writes then csrWrite c v (wordCsr func n rs1 rd) else pure false) u = .ok ended y) :
      exec i s = .next (if ended then turnsOver s y else retire .next (turnsOver s (mapMe written y))) := by
    rw [hx]
    exact csrInstr_writes hc hr ((csrNew_read (f := f) hr).symm ▸ h)
  have refused {k : Nat} {a : Word} {y : State}
      (h : (if writes then csrWrite c v (wordCsr func n rs1 rd) else pure false) u = .error (.trap k a) y) :
      exec i s = .next (takeTrap k a s.me.pc (turnsOver s y)) := by
    rw [hx]
    exact csrInstr_refused hc hr ((csrNew_read (f := f) hr).symm ▸ h)
  refine ⟨fun hd => ?_, fun hd hbad => ?_, fun hd htakes _ => ?_⟩
  · have nothing : (if writes then csrWrite c v (wordCsr func n rs1 rd) else pure false) u = .ok false u := by
      rcases hd with hd | ⟨htakes, hgood⟩
      · rw [hd]; rfl
      · cases writes
        · rfl
        · exact csrWrite_ignored _ (ht.not.mpr htakes) (hb.not.mpr hgood)
    exact ⟨_, wrote nothing, retire_next _⟩
  · subst hd
    rw [← ht, ← hb] at hbad
    exact refused (csrWrite_traps _ hbad)
  · subst hd
    have same : csrWrite c v (wordCsr func n rs1 rd) u = csrWritable c v (wordCsr func n rs1 rd) u :=
      csrWrite_taken _ (ht.mpr htakes)
    refine ⟨fun ended y hy => ⟨?_, ?_⟩, fun k a y hy => refused (same.trans hy)⟩
    · rintro rfl
      exact ⟨_, wrote (same.trans hy), retire_next _⟩
    · rintro rfl
      exact wrote (same.trans hy)

end Sys2Proof.Laws

/-! SUPPORT. The fields of an instruction word (R33): what each format's field reads of the word that the encoder builds from
its fields, that every word is built from its fields, and that the coded fields (R20, R39, R47, R51, R52, R54, R59, R61) are
read back as they were written. -/

namespace Sys2Proof.Laws

open Sys2Proof

/-! ## Parts of a concatenation -/

/-- Every vector is the concatenation of two parts. -/
theorem exists_append {m n : Nat} (x : BitVec (m + n)) : ∃ (hi : BitVec m) (lo : BitVec n), x = hi ++ lo :=
  ⟨x.extractLsb' n m, x.extractLsb' 0 n, BitVec.extractLsb'_append_extractLsb'.symm⟩

theorem exists_append3 {l m n : Nat} (x : BitVec (l + m + n)) : ∃ (hi : BitVec l) (mid : BitVec m) (lo : BitVec n), x = hi ++ mid ++ lo := by
  obtain ⟨y, lo, rfl⟩ := exists_append x
  obtain ⟨hi, mid, rfl⟩ := exists_append y
  exact ⟨hi, mid, lo, rfl⟩

theorem exists_append4 {l m n k : Nat} (x : BitVec (l + m + n + k)) :
    ∃ (a : BitVec l) (b : BitVec m) (c : BitVec n) (d : BitVec k), x = a ++ b ++ c ++ d := by
  obtain ⟨y, d, rfl⟩ := exists_append x
  obtain ⟨a, b, c, rfl⟩ := exists_append3 y
  exact ⟨a, b, c, d, rfl⟩

/-- A vector is its number. -/
theorem eq_ofNat {n k : Nat} {x : BitVec n} (h : x.toNat = k) : x = BitVec.ofNat n k := by
  rw [← h, BitVec.ofNat_toNat, BitVec.setWidth_eq]

section
variable {l m n k : Nat} (x : BitVec l) (y : BitVec m) (z : BitVec n) (t : BitVec k)

theorem parts2 : (x ++ y).extractLsb' m l = x ∧ (x ++ y).extractLsb' 0 m = y :=
  ⟨BitVec.extractLsb'_append_eq_left, BitVec.extractLsb'_append_eq_right⟩

/-- What lies above the last part of a concatenation. -/
theorem above_last (i j : Nat) : (x ++ y).extractLsb' (m + i) j = x.extractLsb' i j :=
  (BitVec.extractLsb'_append_eq_of_le (Nat.le_add_right m i)).trans (by rw [Nat.add_sub_cancel_left])

theorem parts3 : (x ++ y ++ z).extractLsb' (n + m) l = x ∧ (x ++ y ++ z).extractLsb' (n + 0) m = y
    ∧ (x ++ y ++ z).extractLsb' 0 n = z :=
  ⟨(above_last _ z m l).trans (parts2 x y).1, (above_last _ z 0 m).trans (parts2 x y).2, (parts2 _ z).2⟩

theorem parts4 : (x ++ y ++ z ++ t).extractLsb' (k + (n + m)) l = x ∧ (x ++ y ++ z ++ t).extractLsb' (k + (n + 0)) m = y
    ∧ (x ++ y ++ z ++ t).extractLsb' (k + 0) n = z ∧ (x ++ y ++ z ++ t).extractLsb' 0 k = t :=
  have ⟨hx, hy, hz⟩ := parts3 x y z
  ⟨(above_last _ t _ l).trans hx, (above_last _ t _ m).trans hy, (above_last _ t _ n).trans hz, (parts2 _ t).2⟩
end

/-! ## The five fields of every word (R33), and the two of the W format -/

section
variable (f : BitVec 11) (c b a : Reg) (o : BitVec 6)

@[simp] theorem pack_fields : f11 (pack f c b a o) = f ∧ rs2 (pack f c b a o) = c ∧ rs1 (pack f c b a o) = b
    ∧ rd (pack f c b a o) = a ∧ op (pack f c b a o) = o := by
  have low {m n i l : Nat} (x : BitVec m) (y : BitVec n) (h : i + l ≤ n) : (x ++ y).extractLsb' i l = y.extractLsb' i l :=
    BitVec.extractLsb'_append_eq_of_add_le h
  have past2 {i l : Nat} (h : i + l ≤ 16) : (pack f c b a o).extractLsb' i l = (b ++ (a ++ o)).extractLsb' i l :=
    (low f _ (by omega)).trans (low c _ h)
  exact ⟨(parts2 f _).1, (low f _ (by decide)).trans (parts2 c _).1, (past2 (by decide)).trans (parts2 b _).1,
    (past2 (by decide)).trans ((low b _ (by decide)).trans (parts2 a o).1),
    (past2 (by decide)).trans ((low b _ (by decide)).trans (parts2 a o).2)⟩
end

/-- Every word is built from its five fields. -/
theorem exists_pack (w : IWord) : ∃ f c b a o, w = pack f c b a o := by
  obtain ⟨f, x, rfl⟩ := exists_append (m := 11) (n := 21) w
  obtain ⟨c, x, rfl⟩ := exists_append (m := 5) (n := 16) x
  obtain ⟨b, x, rfl⟩ := exists_append (m := 5) (n := 11) x
  obtain ⟨a, o, rfl⟩ := exists_append (m := 5) (n := 6) x
  exact ⟨f, c, b, a, o, rfl⟩

/-- The word of the W format with the same fields. -/
theorem packW_eq_pack (f : BitVec 10) (h : BitVec 1) (c b a : Reg) (o : BitVec 6) :
    packW f (h ++ (c ++ (b ++ a))) o = pack (f ++ h) c b a o := by
  have cba : (c ++ (b ++ a)) ++ o = c ++ (b ++ (a ++ o)) :=
    (BitVec.append_assoc (x₁ := c) (x₂ := b ++ a) (x₃ := o)).trans (congrArg (c ++ ·) (BitVec.append_assoc (x₁ := b) (x₂ := a) (x₃ := o)))
  have hcba : (h ++ (c ++ (b ++ a))) ++ o = h ++ (c ++ (b ++ (a ++ o))) :=
    (BitVec.append_assoc (x₁ := h) (x₂ := c ++ (b ++ a)) (x₃ := o)).trans (congrArg (h ++ ·) cba)
  exact (congrArg (f ++ ·) hcba).trans (BitVec.append_assoc (x₁ := f) (x₂ := h) (x₃ := c ++ (b ++ (a ++ o)))).symm

section
variable (f : BitVec 10) (m : BitVec 16) (o : BitVec 6)

theorem exists_wBits : ∃ (h : BitVec 1) (c b a : Reg), m = h ++ (c ++ (b ++ a)) ∧ packW f m o = pack (f ++ h) c b a o := by
  obtain ⟨h, x, rfl⟩ := exists_append (m := 1) (n := 15) m
  obtain ⟨c, x, rfl⟩ := exists_append (m := 5) (n := 10) x
  obtain ⟨b, a, rfl⟩ := exists_append (m := 5) (n := 5) x
  exact ⟨h, c, b, a, rfl, packW_eq_pack f h c b a o⟩

@[simp] theorem func_packW : (f11 (packW f m o)).extractLsb' 1 10 = f := by
  obtain ⟨h, c, b, a, -, e⟩ := exists_wBits f m o
  simp only [e, pack_fields]
  exact (parts2 f h).1

@[simp] theorem wBits_packW : wBits (packW f m o) = m := by
  obtain ⟨h, c, b, a, rfl, e⟩ := exists_wBits f m o
  simp only [e, wBits, pack_fields]
  exact congrArg (· ++ (c ++ (b ++ a))) (parts2 f h).2

@[simp] theorem op_packW : op (packW f m o) = o := by
  obtain ⟨h, c, b, a, -, e⟩ := exists_wBits f m o
  simp only [e, pack_fields]
end

/-! ## Parts of the fields, format by format -/

@[simp] theorem shift_parts (k : BitVec 5) (s : BitVec 6) : BitVec.extractLsb' (n := 11) 6 5 (k ++ s) = k
    ∧ BitVec.extractLsb' (n := 11) 0 6 (k ++ s) = s := parts2 k s
@[simp] theorem fp_parts (k : BitVec 7) (m : BitVec 3) (p : BitVec 1) : BitVec.extractLsb' (n := 11) 4 7 (k ++ m ++ p) = k
    ∧ BitVec.extractLsb' (n := 11) 1 3 (k ++ m ++ p) = m ∧ BitVec.extractLsb' (n := 11) 0 1 (k ++ m ++ p) = p := parts3 k m p
@[simp] theorem fma_parts (m : BitVec 3) (k : BitVec 2) (p : BitVec 1) (r : BitVec 5) :
    BitVec.extractLsb' (n := 11) 8 3 (m ++ k ++ p ++ r) = m ∧ BitVec.extractLsb' (n := 11) 6 2 (m ++ k ++ p ++ r) = k
    ∧ BitVec.extractLsb' (n := 11) 5 1 (m ++ k ++ p ++ r) = p ∧ BitVec.extractLsb' (n := 11) 0 5 (m ++ k ++ p ++ r) = r :=
  parts4 m k p r
@[simp] theorem csr_parts (k : BitVec 2) (n : BitVec 9) : BitVec.extractLsb' (n := 11) 9 2 (k ++ n) = k
    ∧ BitVec.extractLsb' (n := 11) 0 9 (k ++ n) = n := parts2 k n
@[simp] theorem vcfg_parts (k : BitVec 1) (n : BitVec 10) : BitVec.extractLsb' (n := 11) 10 1 (k ++ n) = k
    ∧ BitVec.extractLsb' (n := 11) 0 10 (k ++ n) = n := parts2 k n
@[simp] theorem v_parts (k : BitVec 5) (m k' : BitVec 3) : BitVec.extractLsb' (n := 11) 6 5 (k ++ m ++ k') = k
    ∧ BitVec.extractLsb' (n := 11) 3 3 (k ++ m ++ k') = m ∧ BitVec.extractLsb' (n := 11) 0 3 (k ++ m ++ k') = k' := parts3 k m k'
@[simp] theorem vFields_pack (k : BitVec 5) (m k' : BitVec 3) (c b a : Reg) (o : BitVec 6) :
    vF5 (pack (k ++ m ++ k') c b a o) = k ∧ vMode (pack (k ++ m ++ k') c b a o) = m ∧ vK (pack (k ++ m ++ k') c b a o) = k' := by
  simp [vF5, vMode, vK]
theorem vmMode_eq (w : IWord) : vmMode w = vMode w := rfl
@[simp] theorem vmem_parts (i : BitVec 2) (k m k' : BitVec 3) :
    BitVec.extractLsb' (n := 11) 6 5 (i ++ k ++ m ++ k') = i ++ k
    ∧ BitVec.extractLsb' (n := 11) 3 3 (i ++ k ++ m ++ k') = m ∧ BitVec.extractLsb' (n := 11) 0 3 (i ++ k ++ m ++ k') = k' :=
  parts3 (i ++ k) m k'
@[simp] theorem vquad_parts (k : BitVec 6) (r : BitVec 5) : BitVec.extractLsb' (n := 11) 5 6 (k ++ r) = k
    ∧ BitVec.extractLsb' (n := 11) 0 5 (k ++ r) = r := parts2 k r
@[simp] theorem copy_parts (k : BitVec 9) (q : BitVec 2) : BitVec.extractLsb' (n := 11) 2 9 (k ++ q) = k
    ∧ BitVec.extractLsb' (n := 11) 0 2 (k ++ q) = q := parts2 k q
@[simp] theorem reg_parts (h : BitVec 2) (l : BitVec 3) : BitVec.extractLsb' (n := 5) 3 2 (h ++ l) = h
    ∧ BitVec.extractLsb' (n := 5) 0 3 (h ++ l) = l := parts2 h l
@[simp] theorem reg_parts' (h : BitVec 3) (l : BitVec 2) : BitVec.extractLsb' (n := 5) 2 3 (h ++ l) = h
    ∧ BitVec.extractLsb' (n := 5) 0 2 (h ++ l) = l := parts2 h l
@[simp] theorem loop_parts (h : BitVec 4) (l : BitVec 1) : BitVec.extractLsb' (n := 5) 1 4 (h ++ l) = h
    ∧ BitVec.extractLsb' (n := 5) 0 1 (h ++ l) = l := parts2 h l
@[simp] theorem wait_parts (t c s l : BitVec 4) : BitVec.extractLsb' (n := 16) 12 4 (t ++ c ++ s ++ l) = t
    ∧ BitVec.extractLsb' (n := 16) 8 4 (t ++ c ++ s ++ l) = c ∧ BitVec.extractLsb' (n := 16) 4 4 (t ++ c ++ s ++ l) = s
    ∧ BitVec.extractLsb' (n := 16) 0 4 (t ++ c ++ s ++ l) = l := parts4 t c s l
@[simp] theorem fence_parts (z : BitVec 10) (u : BitVec 1) (o : BitVec 2) (s : BitVec 3) :
    BitVec.extractLsb' (n := 16) 6 10 (z ++ u ++ o ++ s) = z ∧ BitVec.extractLsb' (n := 16) 5 1 (z ++ u ++ o ++ s) = u
    ∧ BitVec.extractLsb' (n := 16) 3 2 (z ++ u ++ o ++ s) = o ∧ BitVec.extractLsb' (n := 16) 0 3 (z ++ u ++ o ++ s) = s :=
  parts4 z u o s
@[simp] theorem qfence_parts (z : BitVec 11) (t : BitVec 1) (q : BitVec 4) :
    BitVec.extractLsb' (n := 16) 5 11 (z ++ t ++ q) = z ∧ BitVec.extractLsb' (n := 16) 4 1 (z ++ t ++ q) = t
    ∧ BitVec.extractLsb' (n := 16) 0 4 (z ++ t ++ q) = q := parts3 z t q

/-- R52: a `qfence` names a queue. -/
theorem qfence_nonzero (z : BitVec 11) (t : BitVec 1) (q : BitVec 4) :
    BitVec.extractLsb' (n := 16) 0 5 (z ++ t ++ q) ≠ 0 ↔ (q != 0 || t != 0) = true := by
  have assoc : z ++ t ++ q = z ++ (t ++ q) := BitVec.append_assoc (x₁ := z) (x₂ := t) (x₃ := q)
  have low : BitVec.extractLsb' (n := 16) 0 5 (z ++ t ++ q) = t ++ q := (congrArg (BitVec.extractLsb' 0 5) assoc).trans (parts2 z (t ++ q)).2
  have nonzero : ∀ (t : BitVec 1) (q : BitVec 4), t ++ q ≠ 0 ↔ (q != 0 || t != 0) = true := by decide
  rw [low]
  exact nonzero t q

/-! ## Immediates -/

@[simp] theorem imm16_parts (h : BitVec 11) (l : BitVec 5) : immHi16 (h ++ l) = h ∧ immLo16 (h ++ l) = l := parts2 h l
@[simp] theorem off21_parts (f : BitVec 11) (c b a : Reg) (o : BitVec 6) : (off21 (pack f c b a o)).extractLsb' 10 11 = f
    ∧ (off21 (pack f c b a o)).extractLsb' 5 5 = c ∧ (off21 (pack f c b a o)).extractLsb' 0 5 = b := by
  have low (i l : Nat) (h : i + l ≤ 10) : BitVec.extractLsb' i l (f ++ (c ++ b)) = (c ++ b).extractLsb' i l :=
    BitVec.extractLsb'_append_eq_of_add_le h
  simp only [off21, pack_fields]
  exact ⟨(parts2 f _).1, (low 5 5 (by decide)).trans (parts2 c b).1, (low 0 5 (by decide)).trans (parts2 c b).2⟩
@[simp] theorem imm13_parts (h : BitVec 11) (l : BitVec 2) : BitVec.extractLsb' (n := 13) 2 11 (h ++ l) = h
    ∧ BitVec.extractLsb' (n := 13) 0 2 (h ++ l) = l := parts2 h l
@[simp] theorem imm14_parts (h : BitVec 11) (l : BitVec 3) : BitVec.extractLsb' (n := 14) 3 11 (h ++ l) = h
    ∧ BitVec.extractLsb' (n := 14) 0 3 (h ++ l) = l := parts2 h l
@[simp] theorem csrNo_parts (h : BitVec 9) (l : BitVec 5) : BitVec.extractLsb' (n := 14) 5 9 (h ++ l) = h
    ∧ BitVec.extractLsb' (n := 14) 0 5 (h ++ l) = l := parts2 h l
@[simp] theorem image_parts (h : BitVec 10) (l : BitVec 5) : BitVec.extractLsb' (n := 15) 5 10 (h ++ l) = h
    ∧ BitVec.extractLsb' (n := 15) 0 5 (h ++ l) = l := parts2 h l
@[simp] theorem count_parts (h : BitVec 3) (m : BitVec 5) (l : BitVec 4) : BitVec.extractLsb' (n := 12) 9 3 (h ++ m ++ l) = h
    ∧ BitVec.extractLsb' (n := 12) 4 5 (h ++ m ++ l) = m ∧ BitVec.extractLsb' (n := 12) 0 4 (h ++ m ++ l) = l := parts3 h m l

/-- An immediate is the concatenation of the parts that the encoder makes of it. -/
@[simp] theorem imm16_join (i : BitVec 16) : immHi16 i ++ immLo16 i = i := BitVec.extractLsb'_append_extractLsb' (w := 11) (len := 5)
@[simp] theorem off21_join (i : BitVec 21) (a : Reg) (o : BitVec 6) :
    off21 (pack (i.extractLsb' 10 11) (i.extractLsb' 5 5) (i.extractLsb' 0 5) a o) = i := by
  have low : i.extractLsb' 5 5 ++ i.extractLsb' 0 5 = i.extractLsb' 0 10 := BitVec.extractLsb'_append_extractLsb'_eq_extractLsb' rfl
  simp only [off21, pack_fields]
  exact (congrArg (i.extractLsb' 10 11 ++ ·) low).trans (BitVec.extractLsb'_append_extractLsb' (w := 11) (len := 10))
@[simp] theorem imm13_join (i : BitVec 13) : i.extractLsb' 2 11 ++ i.extractLsb' 0 2 = i :=
  BitVec.extractLsb'_append_extractLsb' (w := 11) (len := 2)
@[simp] theorem imm14_join (i : BitVec 14) : i.extractLsb' 3 11 ++ i.extractLsb' 0 3 = i :=
  BitVec.extractLsb'_append_extractLsb' (w := 11) (len := 3)
@[simp] theorem csrNo_join (i : BitVec 14) : i.extractLsb' 5 9 ++ i.extractLsb' 0 5 = i :=
  BitVec.extractLsb'_append_extractLsb' (w := 9) (len := 5)
@[simp] theorem image_join (i : BitVec 15) : i.extractLsb' 5 10 ++ i.extractLsb' 0 5 = i :=
  BitVec.extractLsb'_append_extractLsb' (w := 10) (len := 5)
@[simp] theorem count_join (i : BitVec 12) : i.extractLsb' 9 3 ++ i.extractLsb' 4 5 ++ i.extractLsb' 0 4 = i :=
  have high : i.extractLsb' 9 3 ++ i.extractLsb' 4 5 = i.extractLsb' 4 8 := BitVec.extractLsb'_append_extractLsb'_eq_extractLsb' rfl
  (congrArg (· ++ i.extractLsb' 0 4) high).trans (BitVec.extractLsb'_append_extractLsb' (w := 8) (len := 4))

/-! ## Coded fields -/

section
variable {b : BitVec 3}
theorem rm_eq_some {m : RM} : RM.ofBits b = some m ↔ b = m.toBits := by cases m <;> revert b <;> decide
theorem scope_eq_some {c : Scope} : Scope.ofBits b = some c ↔ b = c.toBits := by cases c <;> revert b <;> decide
theorem intWidth_eq_some {i : IntWidth} : IntWidth.ofBits b = some i ↔ b = i.toBits := by cases i <;> revert b <;> decide
theorem vamoMode_eq_some {m : VamoMode} : VamoMode.ofBits b = some m ↔ b = m.toBits := by cases m <;> revert b <;> decide
end

section
variable {b : BitVec 2}
theorem fenceOrder_eq_some {o : FenceOrder} : FenceOrder.ofBits b = some o ↔ b = o.toBits := by cases o <;> revert b <;> decide
theorem idxWidth_eq_some {i : IdxWidth} : IdxWidth.ofBits b = some i ↔ b = i.toBits := by cases i <;> revert b <;> decide
theorem allocN_eq_some {n : AllocN} : AllocN.ofBits b = some n ↔ b = n.toBits := by cases n <;> revert b <;> decide
end

theorem srcFmt_eq_some {b : BitVec 5} {f : SrcFmt} : SrcFmt.ofBits b = some f ↔ b = f.toBits := by cases f <;> revert b <;> decide

@[simp] theorem rm_toBits (m : RM) : RM.ofBits m.toBits = some m := rm_eq_some.mpr rfl
@[simp] theorem scope_toBits (c : Scope) : Scope.ofBits c.toBits = some c := scope_eq_some.mpr rfl
@[simp] theorem intWidth_toBits (i : IntWidth) : IntWidth.ofBits i.toBits = some i := intWidth_eq_some.mpr rfl
@[simp] theorem vamoMode_toBits (m : VamoMode) : VamoMode.ofBits m.toBits = some m := vamoMode_eq_some.mpr rfl
@[simp] theorem fenceOrder_toBits (o : FenceOrder) : FenceOrder.ofBits o.toBits = some o := fenceOrder_eq_some.mpr rfl
@[simp] theorem idxWidth_toBits (i : IdxWidth) : IdxWidth.ofBits i.toBits = some i := idxWidth_eq_some.mpr rfl
@[simp] theorem allocN_toBits (n : AllocN) : AllocN.ofBits n.toBits = some n := allocN_eq_some.mpr rfl
@[simp] theorem srcFmt_toBits (f : SrcFmt) : SrcFmt.ofBits f.toBits = some f := srcFmt_eq_some.mpr rfl

@[simp] theorem prec_toBits (p : Prec) : Prec.ofBits p.toBits = p := by cases p <;> rfl
@[simp] theorem prec_ofBits (b : BitVec 1) : (Prec.ofBits b).toBits = b := by revert b; decide
@[simp] theorem amoWidth_toBits (wd : AmoWidth) : AmoWidth.ofBits wd.toBits = wd := by cases wd <;> rfl
@[simp] theorem amoWidth_ofBits (b : BitVec 1) : (AmoWidth.ofBits b).toBits = b := by revert b; decide
@[simp] theorem order_toBits (o : Order) : Order.ofBits o.toBits = o := by cases o <;> rfl
@[simp] theorem order_ofBits (b : BitVec 2) : (Order.ofBits b).toBits = b := by revert b; decide

/-- The three bits rsz and rep of a vector instruction (R39). -/
def repMode (r : Rep) : BitVec 3 := r.rsz ++ r.repBit

theorem rep_eq_some {m : BitVec 3} {r : Rep} : Rep.ofBits (m.extractLsb' 0 1) (m.extractLsb' 1 2) = some r ↔ m = repMode r := by
  cases r <;> revert m <;> decide

@[simp] theorem rep_repMode (r : Rep) : Rep.ofBits ((repMode r).extractLsb' 0 1) ((repMode r).extractLsb' 1 2) = some r :=
  rep_eq_some.mpr rfl

@[simp] theorem append_repMode (f : BitVec 5) (r : Rep) (k : BitVec 3) : f ++ r.rsz ++ r.repBit ++ k = f ++ repMode r ++ k :=
  congrArg (· ++ k) (BitVec.append_assoc (x₁ := f) (x₂ := r.rsz) (x₃ := r.repBit))

/-- The fields rsz and rep of a vector word are parts of the three bits between them (R38, R39). -/
@[simp] theorem vRep_eq (w : IWord) : vRep w = (vMode w).extractLsb' 0 1 := by
  ext i hi
  simp [vRep, vMode, show i < 3 by omega]
@[simp] theorem vRsz_eq (w : IWord) : vRsz w = (vMode w).extractLsb' 1 2 := by
  ext i hi
  simp [vRsz, vMode, show 1 + i < 3 by omega, show 4 + i = 3 + (1 + i) by omega]

end Sys2Proof.Laws

/-! SUPPORT. The decoders answer only with instructions whose word they were given (R34 to R61), major by major. Each proof splits
the fields of the word as the major's format does, then follows the arms of the decoder: the function code of an arm is that
of the encoder's word, and each check of the arm says what another field of that word is. -/

namespace Sys2Proof.Laws

open Sys2Proof

/-- A word is the encoding of a well-formed instruction. -/
def IsWord (w : IWord) (i : Instr) : Prop := i.wf = true ∧ i.hasWord = true ∧ encode i = some w

/-- Where a decoder answers a word with an instruction, the word is the encoding of that instruction. -/
def Sound (w : IWord) (r : Except DecodeError Instr) : Prop := ∀ i, r = .ok i → IsWord w i

section
variable {w : IWord}

theorem isWord_of {w' : IWord} {i : Instr} (wf : i.wf = true) (has : i.hasWord = true) (he : encode i = some w') (e : w' = w) :
    IsWord w i := ⟨wf, has, e ▸ he⟩

theorem sound_error (e : DecodeError) : Sound w (.error e) := by rintro _ ⟨⟩
theorem sound_ok (i : Instr) : Sound w (.ok i) ↔ IsWord w i := ⟨fun h => h i rfl, by rintro h _ ⟨⟩; exact h⟩
theorem sound_ite {p : Prop} [Decidable p] {r : Except DecodeError Instr} (e : DecodeError) :
    Sound w (if p then r else .error e) ↔ (p → Sound w r) := by split <;> simp [sound_error, *]
theorem sound_orReject {α : Type} (o : Option α) (e : DecodeError) (k : α → Except DecodeError Instr) :
    Sound w (orReject o e k) ↔ ∀ a, o = some a → Sound w (k a) := by cases o <;> simp [orReject, sound_error]
end

/-- R61: a vector atomic in the mode `unit` has no rs2. -/
theorem vamo_wf {m : VamoMode} {r : Reg} : (m != .unit || r == 0) = true ↔ m ≠ .unit ∨ r = 0 := by simp

section
variable (f : BitVec 11) (c b a : Reg)

theorem decodeAlu_sound : Sound (pack f c b a 1#6) (decodeAlu (pack f c b a 1#6)) := by
  simp only [decodeAlu, pack_fields]
  split
  case h_31 => exact sound_error _
  all_goals
    obtain rfl := eq_ofNat ‹_›
    simp only [sound_ok, sound_ite]
    intros
    exact isWord_of rfl rfl rfl (by simp [-BitVec.reduceAppend, *])

theorem decodeLoad_sound : Sound (pack f c b a 8#6) (decodeLoad (pack f c b a 8#6)) := by
  obtain ⟨ch, cl, rfl⟩ := exists_append (m := 2) (n := 3) c
  simp only [decodeLoad, imm13, pack_fields, reg_parts]
  split
  case h_8 => exact sound_error _
  all_goals
    obtain rfl := eq_ofNat ‹_›
    simp only [sound_ok]
    exact isWord_of rfl rfl rfl (by simp [-BitVec.reduceAppend])

theorem decodeStore_sound : Sound (pack f c b a 9#6) (decodeStore (pack f c b a 9#6)) := by
  obtain ⟨ch, cl, rfl⟩ := exists_append (m := 3) (n := 2) c
  simp only [decodeStore, imm14, pack_fields, reg_parts']
  split
  case h_5 => exact sound_error _
  all_goals
    obtain rfl := eq_ofNat ‹_›
    simp only [sound_ok]
    exact isWord_of rfl rfl rfl (by simp [-BitVec.reduceAppend])

theorem decodeBranch_sound : Sound (pack f c b a 10#6) (decodeBranch (pack f c b a 10#6)) := by
  obtain ⟨ah, al, rfl⟩ := exists_append (m := 2) (n := 3) a
  simp only [decodeBranch, cD, dHi, pack_fields, reg_parts]
  split
  case h_3 => exact sound_error _
  all_goals
    obtain rfl := eq_ofNat ‹_›
    simp only [sound_ok]
    exact isWord_of rfl rfl rfl (by simp [-BitVec.reduceAppend])

theorem decodeCmp_sound : Sound (pack f c b a 14#6) (decodeCmp (pack f c b a 14#6)) := by
  obtain ⟨ah, al, rfl⟩ := exists_append (m := 2) (n := 3) a
  obtain ⟨bh, bl, rfl⟩ := exists_append (m := 2) (n := 3) b
  obtain ⟨ch, cl, rfl⟩ := exists_append (m := 2) (n := 3) c
  simp only [decodeCmp, cD, cA, cB, dHi, aHi, bHi, pack_fields, reg_parts]
  split
  case h_12 => exact sound_error _
  all_goals
    obtain rfl := eq_ofNat ‹_›
    simp only [sound_ok, sound_ite]
    intros
    exact isWord_of rfl rfl rfl (by simp [-BitVec.reduceAppend, *])

theorem decodeCmpiA_sound : Sound (pack f c b a 15#6) (decodeCmpiA (pack f c b a 15#6)) := by
  obtain ⟨ah, al, rfl⟩ := exists_append (m := 2) (n := 3) a
  simp only [decodeCmpiA, dHi, cD, imm16, pack_fields, reg_parts]
  split
  case h_5 => exact sound_error _
  all_goals
    obtain rfl := eq_ofNat ‹_›
    simp only [sound_ok]
    exact isWord_of rfl rfl rfl (by simp [-BitVec.reduceAppend])

theorem decodeCmpiB_sound : Sound (pack f c b a 16#6) (decodeCmpiB (pack f c b a 16#6)) := by
  obtain ⟨ah, al, rfl⟩ := exists_append (m := 2) (n := 3) a
  simp only [decodeCmpiB, dHi, cD, imm16, pack_fields, reg_parts]
  split
  case h_5 => exact sound_error _
  all_goals
    obtain rfl := eq_ofNat ‹_›
    simp only [sound_ok]
    exact isWord_of rfl rfl rfl (by simp [-BitVec.reduceAppend])

theorem decodeShiftImm_sound : Sound (pack f c b a 17#6) (decodeShiftImm (pack f c b a 17#6)) := by
  obtain ⟨k, s, rfl⟩ := exists_append (m := 5) (n := 6) f
  simp only [decodeShiftImm, pack_fields, shift_parts]
  split
  case h_5 => exact sound_error _
  all_goals
    obtain rfl := eq_ofNat ‹_›
    simp only [sound_ok, sound_ite]
    intros
    exact isWord_of rfl rfl rfl (by simp [-BitVec.reduceAppend, *])

theorem decodeLoop_sound : Sound (pack f c b a 21#6) (decodeLoop (pack f c b a 21#6)) := by
  obtain ⟨ah, al, rfl⟩ := exists_append (m := 4) (n := 1) a
  obtain ⟨ch, cl, rfl⟩ := exists_append (m := 2) (n := 3) c
  simp only [decodeLoop, imm13, pack_fields, loop_parts, reg_parts]
  split
  case h_3 => exact sound_error _
  case h_1 =>
    obtain rfl := eq_ofNat ‹_›
    simp only [sound_ok, sound_ite]
    rintro ⟨rfl, ha, he⟩
    exact isWord_of (bne_iff_ne.mpr he) rfl rfl (by simp [-BitVec.reduceAppend, ha])
  case h_2 =>
    obtain rfl := eq_ofNat ‹_›
    simp only [sound_ok, sound_ite]
    intro he
    exact isWord_of (bne_iff_ne.mpr he) rfl rfl (by simp [-BitVec.reduceAppend])

theorem decodeFp_sound : Sound (pack f c b a 22#6) (decodeFp (pack f c b a 22#6)) := by
  obtain ⟨k, m, p, rfl⟩ := exists_append3 (l := 7) (m := 3) (n := 1) f
  obtain ⟨ah, al, rfl⟩ := exists_append (m := 2) (n := 3) a
  simp only [decodeFp, fpRm, fpPrec, dHi, cD, pack_fields, fp_parts, reg_parts]
  split
  case h_23 => exact sound_error _
  all_goals
    obtain rfl := eq_ofNat ‹_›
    simp only [sound_ok, sound_ite, sound_orReject, rm_eq_some]
    intros
    exact isWord_of rfl rfl rfl (by simp [-BitVec.reduceAppend, *])

theorem decodeFma_sound : Sound (pack f c b a 23#6) (decodeFma (pack f c b a 23#6)) := by
  obtain ⟨m, k, p, r, rfl⟩ := exists_append4 (l := 3) (m := 2) (n := 1) (k := 5) f
  simp only [decodeFma, pack_fields, fma_parts]
  split
  case h_5 => exact sound_error _
  all_goals
    obtain rfl := eq_ofNat ‹_›
    simp only [sound_ok, sound_orReject, rm_eq_some]
    intros
    exact isWord_of rfl rfl rfl (by simp [-BitVec.reduceAppend, *])

theorem decodeCsr_sound : Sound (pack f c b a 24#6) (decodeCsr (pack f c b a 24#6)) := by
  obtain ⟨k, n, rfl⟩ := exists_append (m := 2) (n := 9) f
  simp only [decodeCsr, csrNo, pack_fields, csr_parts]
  split
  case h_4 => exact sound_error _
  all_goals
    obtain rfl := eq_ofNat ‹_›
    simp only [sound_ok]
    exact isWord_of rfl rfl rfl (by simp [-BitVec.reduceAppend])

theorem decodeSystem_sound : Sound (pack f c b a 25#6) (decodeSystem (pack f c b a 25#6)) := by
  simp only [decodeSystem, pack_fields]
  split
  case h_7 => exact sound_error _
  all_goals
    obtain rfl := eq_ofNat ‹_›
    simp only [sound_ok, sound_ite]
    intros
    exact isWord_of rfl rfl rfl (by simp [-BitVec.reduceAppend, *])

theorem decodeAtomic_sound : Sound (pack f c b a 26#6) (decodeAtomic (pack f c b a 26#6)) := by
  obtain ⟨m, k, p, r, rfl⟩ := exists_append4 (l := 3) (m := 2) (n := 1) (k := 5) f
  simp only [decodeAtomic, pack_fields, fma_parts]
  split
  case h_15 => exact sound_error _
  case h_12 | h_13 =>
    obtain rfl := eq_ofNat ‹_›
    simp only [sound_ok, sound_ite, sound_orReject, scope_eq_some]
    rintro sc rfl ⟨rfl, ho⟩
    exact isWord_of (congrArg (!·) ho) rfl rfl (by simp [-BitVec.reduceAppend])
  all_goals
    obtain rfl := eq_ofNat ‹_›
    simp only [sound_ok, sound_ite, sound_orReject, scope_eq_some]
    intros
    exact isWord_of rfl rfl rfl (by simp [-BitVec.reduceAppend, *])

theorem decodeTask_sound : Sound (pack f c b a 28#6) (decodeTask (pack f c b a 28#6)) := by
  simp only [decodeTask, pack_fields]
  split
  case h_5 => exact sound_error _
  all_goals
    obtain rfl := eq_ofNat ‹_›
    simp only [sound_ok, sound_ite]
    intros
    exact isWord_of rfl rfl rfl (by simp [-BitVec.reduceAppend, *])

theorem decodeGang_sound : Sound (pack f c b a 29#6) (decodeGang (pack f c b a 29#6)) := by
  obtain ⟨bh, bl, rfl⟩ := exists_append (m := 2) (n := 3) b
  obtain ⟨ch, cl, rfl⟩ := exists_append (m := 3) (n := 2) c
  simp only [decodeGang, aHi, cA, pack_fields, reg_parts, reg_parts']
  split
  case h_9 => exact sound_error _
  all_goals
    obtain rfl := eq_ofNat ‹_›
    simp only [sound_ok, sound_ite, sound_orReject, allocN_eq_some]
    intros
    exact isWord_of rfl rfl rfl (by simp [-BitVec.reduceAppend, *])

theorem decodeFwd_sound : Sound (pack f c b a 30#6) (decodeFwd (pack f c b a 30#6)) := by
  obtain ⟨ah, al, rfl⟩ := exists_append (m := 2) (n := 3) a
  simp only [decodeFwd, dHi, cD, pack_fields, reg_parts]
  split
  case h_6 => exact sound_error _
  all_goals
    obtain rfl := eq_ofNat ‹_›
    simp only [sound_ok, sound_ite]
    intros
    exact isWord_of rfl rfl rfl (by simp [-BitVec.reduceAppend, *])

theorem decodeKv_sound : Sound (pack f c b a 31#6) (decodeKv (pack f c b a 31#6)) := by
  obtain ⟨ah, al, rfl⟩ := exists_append (m := 2) (n := 3) a
  simp only [decodeKv, dHi, cD, pack_fields, reg_parts]
  split
  case h_8 => exact sound_error _
  all_goals
    obtain rfl := eq_ofNat ‹_›
    simp only [sound_ok, sound_ite]
    intros
    exact isWord_of rfl rfl rfl (by simp [-BitVec.reduceAppend, *])

theorem decodeVcfg_sound : Sound (pack f c b a 32#6) (decodeVcfg (pack f c b a 32#6)) := by
  obtain ⟨k, n, rfl⟩ := exists_append (m := 1) (n := 10) f
  simp only [decodeVcfg, pack_fields, vcfg_parts]
  split
  case h_3 => exact sound_error _
  all_goals
    obtain rfl := eq_ofNat ‹_›
    simp only [sound_ok]
    exact isWord_of rfl rfl rfl (by simp [-BitVec.reduceAppend])

theorem decodeVint_sound : Sound (pack f c b a 33#6) (decodeVint (pack f c b a 33#6)) := by
  obtain ⟨k, m, n, rfl⟩ := exists_append3 (l := 5) (m := 3) (n := 3) f
  obtain ⟨ah, al, rfl⟩ := exists_append (m := 2) (n := 3) a
  simp only [decodeVint, vRep_eq, vRsz_eq, dHi, cD, pack_fields, vFields_pack, reg_parts]
  split
  case h_33 => exact sound_error _
  case h_31 =>
    obtain rfl := eq_ofNat ‹_›
    simp only [sound_ok, sound_ite, sound_orReject, rep_eq_some]
    rintro r rfl hn
    exact isWord_of (bne_iff_ne.mpr hn) rfl rfl (by simp [-BitVec.reduceAppend])
  all_goals
    obtain rfl := eq_ofNat ‹_›
    simp only [sound_ok, sound_ite, sound_orReject, rep_eq_some]
    intros
    exact isWord_of rfl rfl rfl (by simp [-BitVec.reduceAppend, *])

theorem decodeVfp_sound : Sound (pack f c b a 34#6) (decodeVfp (pack f c b a 34#6)) := by
  obtain ⟨k, m, n, rfl⟩ := exists_append3 (l := 5) (m := 3) (n := 3) f
  obtain ⟨ah, al, rfl⟩ := exists_append (m := 2) (n := 3) a
  simp only [decodeVfp, vRep_eq, vRsz_eq, dHi, cD, pack_fields, vFields_pack, reg_parts]
  split
  case h_24 => exact sound_error _
  all_goals
    obtain rfl := eq_ofNat ‹_›
    simp only [sound_ok, sound_ite, sound_orReject, rep_eq_some]
    intros
    exact isWord_of rfl rfl rfl (by simp [-BitVec.reduceAppend, *])

theorem decodeVfma_sound : Sound (pack f c b a 35#6) (decodeVfma (pack f c b a 35#6)) := by
  obtain ⟨k, m, n, rfl⟩ := exists_append3 (l := 5) (m := 3) (n := 3) f
  simp only [decodeVfma, vRep_eq, vRsz_eq, pack_fields, vFields_pack]
  split
  case h_11 => exact sound_error _
  all_goals
    obtain rfl := eq_ofNat ‹_›
    simp only [sound_ok, sound_orReject, rep_eq_some]
    intros
    exact isWord_of rfl rfl rfl (by simp [-BitVec.reduceAppend, *])

theorem decodeVcvt_sound : Sound (pack f c b a 36#6) (decodeVcvt (pack f c b a 36#6)) := by
  obtain ⟨k, m, n, rfl⟩ := exists_append3 (l := 5) (m := 3) (n := 3) f
  obtain ⟨ch, cl, rfl⟩ := exists_append (m := 2) (n := 3) c
  simp only [decodeVcvt, bHi, cB, pack_fields, vFields_pack, reg_parts]
  split
  case h_7 => exact sound_error _
  all_goals
    obtain rfl := eq_ofNat ‹_›
    simp only [sound_ok, sound_ite, sound_orReject, srcFmt_eq_some, intWidth_eq_some]
    intros
    exact isWord_of rfl rfl rfl (by simp [-BitVec.reduceAppend, *])

theorem decodeVmask_sound : Sound (pack f c b a 37#6) (decodeVmask (pack f c b a 37#6)) := by
  obtain ⟨k, m, n, rfl⟩ := exists_append3 (l := 5) (m := 3) (n := 3) f
  obtain ⟨ah, al, rfl⟩ := exists_append (m := 2) (n := 3) a
  obtain ⟨bh, bl, rfl⟩ := exists_append (m := 2) (n := 3) b
  obtain ⟨ch, cl, rfl⟩ := exists_append (m := 2) (n := 3) c
  simp only [decodeVmask, cD, cA, cB, dHi, aHi, bHi, pack_fields, vFields_pack, reg_parts]
  split
  case h_18 => exact sound_error _
  all_goals
    obtain rfl := eq_ofNat ‹_›
    simp only [sound_ok, sound_ite]
    intros
    exact isWord_of rfl rfl rfl (by simp [-BitVec.reduceAppend, *])

theorem decodeVred_sound : Sound (pack f c b a 38#6) (decodeVred (pack f c b a 38#6)) := by
  obtain ⟨k, m, n, rfl⟩ := exists_append3 (l := 5) (m := 3) (n := 3) f
  obtain ⟨ch, cl, rfl⟩ := exists_append (m := 2) (n := 3) c
  simp only [decodeVred, bHi, cB, pack_fields, vFields_pack, reg_parts]
  split
  case h_16 => exact sound_error _
  all_goals
    obtain rfl := eq_ofNat ‹_›
    simp only [sound_ok, sound_ite]
    intros
    exact isWord_of rfl rfl rfl (by simp [-BitVec.reduceAppend, *])

theorem decodeVstr_sound : Sound (pack f c b a 39#6) (decodeVstr (pack f c b a 39#6)) := by
  obtain ⟨k, m, n, rfl⟩ := exists_append3 (l := 5) (m := 3) (n := 3) f
  obtain ⟨ah, al, rfl⟩ := exists_append (m := 2) (n := 3) a
  simp only [decodeVstr, vRep_eq, vRsz_eq, dHi, cD, pack_fields, vFields_pack, reg_parts]
  split
  case h_9 => exact sound_error _
  all_goals
    obtain rfl := eq_ofNat ‹_›
    simp only [sound_ok, sound_ite, sound_orReject, rep_eq_some]
    intros
    exact isWord_of rfl rfl rfl (by simp [-BitVec.reduceAppend, *])

theorem decodeVload_sound : Sound (pack f c b a 40#6) (decodeVload (pack f c b a 40#6)) := by
  obtain ⟨i, k, m, n, rfl⟩ := exists_append4 (l := 2) (m := 3) (n := 3) (k := 3) f
  obtain ⟨ah, al, rfl⟩ := exists_append (m := 2) (n := 3) a
  simp only [decodeVload, vF5, vmMode, vK, dHi, cD, pack_fields, vmem_parts, reg_parts]
  split
  case h_7 => exact sound_error _
  all_goals
    obtain ⟨rfl, rfl⟩ := And.intro (eq_ofNat ‹k.toNat = _›) (eq_ofNat ‹m.toNat = _›)
    simp only [sound_ok, sound_ite, sound_orReject, idxWidth_eq_some]
    intros
    exact isWord_of rfl rfl rfl (by simp [-BitVec.reduceAppend, *])

theorem decodeVstore_sound : Sound (pack f c b a 41#6) (decodeVstore (pack f c b a 41#6)) := by
  obtain ⟨i, k, m, n, rfl⟩ := exists_append4 (l := 2) (m := 3) (n := 3) (k := 3) f
  obtain ⟨ah, al, rfl⟩ := exists_append (m := 2) (n := 3) a
  simp only [decodeVstore, vF5, vmMode, vK, dHi, cD, pack_fields, vmem_parts, reg_parts]
  split
  case h_7 => exact sound_error _
  all_goals
    obtain ⟨rfl, rfl⟩ := And.intro (eq_ofNat ‹k.toNat = _›) (eq_ofNat ‹m.toNat = _›)
    simp only [sound_ok, sound_ite, sound_orReject, idxWidth_eq_some]
    intros
    exact isWord_of rfl rfl rfl (by simp [-BitVec.reduceAppend, *])

theorem decodeVamo_sound : Sound (pack f c b a 42#6) (decodeVamo (pack f c b a 42#6)) := by
  obtain ⟨k, m, n, rfl⟩ := exists_append3 (l := 5) (m := 3) (n := 3) f
  simp only [decodeVamo, vmMode_eq, pack_fields, vFields_pack]
  split
  case h_11 => exact sound_error _
  all_goals
    obtain rfl := eq_ofNat ‹_›
    simp only [sound_ok, sound_ite, sound_orReject, vamoMode_eq_some]
    rintro _ rfl hr
    exact isWord_of (vamo_wf.mpr hr) rfl rfl (by simp [-BitVec.reduceAppend])

theorem decodeVquad_sound : Sound (pack f c b a 43#6) (decodeVquad (pack f c b a 43#6)) := by
  obtain ⟨k, n, rfl⟩ := exists_append (m := 6) (n := 5) f
  simp only [decodeVquad, pack_fields, vquad_parts]
  split
  case h_7 => exact sound_error _
  all_goals
    obtain rfl := eq_ofNat ‹_›
    simp only [sound_ok]
    exact isWord_of rfl rfl rfl (by simp [-BitVec.reduceAppend])

theorem decodeCopy_sound : Sound (pack f c b a 44#6) (decodeCopy (pack f c b a 44#6)) := by
  obtain ⟨k, n, rfl⟩ := exists_append (m := 9) (n := 2) f
  obtain ⟨ah, al, rfl⟩ := exists_append (m := 2) (n := 3) a
  simp only [decodeCopy, cpQ, dHi, cD, pack_fields, copy_parts, reg_parts]
  split
  case h_5 => exact sound_error _
  all_goals
    obtain rfl := eq_ofNat ‹_›
    simp only [sound_ok, sound_ite]
    intros
    exact isWord_of rfl rfl rfl (by simp [-BitVec.reduceAppend, *])

theorem decodeStage_sound : Sound (pack f c b a 45#6) (decodeStage (pack f c b a 45#6)) := by
  simp only [decodeStage, pack_fields]
  split
  case h_8 => exact sound_error _
  all_goals
    obtain rfl := eq_ofNat ‹_›
    simp only [sound_ok, sound_ite]
    intros
    exact isWord_of rfl rfl rfl (by simp [-BitVec.reduceAppend, *])
end

theorem decodeSync_sound (f : BitVec 10) (m : BitVec 16) : Sound (packW f m 27#6) (decodeSync (packW f m 27#6)) := by
  simp only [decodeSync, func_packW, wBits_packW]
  split
  case h_4 => exact sound_error _
  all_goals
    obtain rfl := eq_ofNat ‹_›
    simp only [sound_ok, sound_ite, sound_orReject, fenceOrder_eq_some, scope_eq_some]
  case h_1 =>
    obtain ⟨t, c, s, l, rfl⟩ := exists_append4 (l := 4) (m := 4) (n := 4) (k := 4) m
    exact isWord_of rfl rfl rfl (by simp)
  case h_2 =>
    obtain ⟨z, u, o, s, rfl⟩ := exists_append4 (l := 10) (m := 1) (n := 2) (k := 3) m
    simp only [fence_parts]
    rintro o rfl s rfl rfl
    exact isWord_of rfl rfl rfl rfl
  case h_3 =>
    obtain ⟨z, t, q, rfl⟩ := exists_append3 (l := 11) (m := 1) (n := 4) m
    simp only [qfence_parts]
    rintro ⟨rfl, h⟩
    exact isWord_of ((qfence_nonzero 0 t q).mp h) rfl rfl rfl

/-- A word that decodes is the encoding of what it decodes to, which is well formed (R34, R40). -/
theorem decode_sound (w : IWord) : Sound w (decode w) := by
  obtain ⟨f, c, b, a, o, rfl⟩ := exists_pack w
  simp only [decode, pack_fields]
  split
  case h_44 => exact sound_error _
  all_goals obtain rfl := eq_ofNat ‹_›
  case h_2 | h_3 | h_4 | h_5 | h_13 => exact (sound_ok _).mpr (isWord_of rfl rfl rfl (by simp [imm16]))
  case h_6 | h_7 | h_12 => exact (sound_ok _).mpr (isWord_of rfl rfl rfl (by simp))
  case h_11 =>
    rw [sound_ite, sound_ok]
    rintro rfl
    exact isWord_of rfl rfl rfl (by simp)
  case h_43 =>
    rw [sound_ite, sound_ok]
    rintro rfl
    exact isWord_of rfl rfl rfl (by simp [imm16])
  case h_24 =>
    obtain ⟨f, h, rfl⟩ := exists_append (m := 10) (n := 1) f
    rw [← packW_eq_pack]
    exact decodeSync_sound f _
  exacts [decodeAlu_sound f c b a, decodeLoad_sound f c b a, decodeStore_sound f c b a, decodeBranch_sound f c b a,
    decodeCmp_sound f c b a, decodeCmpiA_sound f c b a, decodeCmpiB_sound f c b a, decodeShiftImm_sound f c b a,
    decodeLoop_sound f c b a, decodeFp_sound f c b a, decodeFma_sound f c b a, decodeCsr_sound f c b a,
    decodeSystem_sound f c b a, decodeAtomic_sound f c b a, decodeTask_sound f c b a, decodeGang_sound f c b a,
    decodeFwd_sound f c b a, decodeKv_sound f c b a, decodeVcfg_sound f c b a, decodeVint_sound f c b a,
    decodeVfp_sound f c b a, decodeVfma_sound f c b a, decodeVcvt_sound f c b a, decodeVmask_sound f c b a,
    decodeVred_sound f c b a, decodeVstr_sound f c b a, decodeVload_sound f c b a, decodeVstore_sound f c b a,
    decodeVamo_sound f c b a, decodeVquad_sound f c b a, decodeCopy_sound f c b a, decodeStage_sound f c b a]

end Sys2Proof.Laws

/-! The round trip of the encoder and the decoder (R33 to R61): an instruction's word decodes to it, and, with the decoders'
soundness, a word that decodes is the word of what it decodes to. -/

namespace Sys2Proof.Laws

open Sys2Proof

/-! ## The major opcode chooses the decoder (R40) -/

section
variable (f : BitVec 11) (c b a : Reg)

@[simp] theorem decode_alu : decode (pack f c b a 1#6) = decodeAlu (pack f c b a 1#6) := by simp only [decode, pack_fields]; rfl
@[simp] theorem decode_load : decode (pack f c b a 8#6) = decodeLoad (pack f c b a 8#6) := by simp only [decode, pack_fields]; rfl
@[simp] theorem decode_store : decode (pack f c b a 9#6) = decodeStore (pack f c b a 9#6) := by simp only [decode, pack_fields]; rfl
@[simp] theorem decode_branch : decode (pack f c b a 10#6) = decodeBranch (pack f c b a 10#6) := by simp only [decode, pack_fields]; rfl
@[simp] theorem decode_cmp : decode (pack f c b a 14#6) = decodeCmp (pack f c b a 14#6) := by simp only [decode, pack_fields]; rfl
@[simp] theorem decode_cmpiA : decode (pack f c b a 15#6) = decodeCmpiA (pack f c b a 15#6) := by simp only [decode, pack_fields]; rfl
@[simp] theorem decode_cmpiB : decode (pack f c b a 16#6) = decodeCmpiB (pack f c b a 16#6) := by simp only [decode, pack_fields]; rfl
@[simp] theorem decode_shiftImm : decode (pack f c b a 17#6) = decodeShiftImm (pack f c b a 17#6) := by simp only [decode, pack_fields]; rfl
@[simp] theorem decode_loop : decode (pack f c b a 21#6) = decodeLoop (pack f c b a 21#6) := by simp only [decode, pack_fields]; rfl
@[simp] theorem decode_fp : decode (pack f c b a 22#6) = decodeFp (pack f c b a 22#6) := by simp only [decode, pack_fields]; rfl
@[simp] theorem decode_fma : decode (pack f c b a 23#6) = decodeFma (pack f c b a 23#6) := by simp only [decode, pack_fields]; rfl
@[simp] theorem decode_csr : decode (pack f c b a 24#6) = decodeCsr (pack f c b a 24#6) := by simp only [decode, pack_fields]; rfl
@[simp] theorem decode_system : decode (pack f c b a 25#6) = decodeSystem (pack f c b a 25#6) := by simp only [decode, pack_fields]; rfl
@[simp] theorem decode_atomic : decode (pack f c b a 26#6) = decodeAtomic (pack f c b a 26#6) := by simp only [decode, pack_fields]; rfl
@[simp] theorem decode_task : decode (pack f c b a 28#6) = decodeTask (pack f c b a 28#6) := by simp only [decode, pack_fields]; rfl
@[simp] theorem decode_gang : decode (pack f c b a 29#6) = decodeGang (pack f c b a 29#6) := by simp only [decode, pack_fields]; rfl
@[simp] theorem decode_fwd : decode (pack f c b a 30#6) = decodeFwd (pack f c b a 30#6) := by simp only [decode, pack_fields]; rfl
@[simp] theorem decode_kv : decode (pack f c b a 31#6) = decodeKv (pack f c b a 31#6) := by simp only [decode, pack_fields]; rfl
@[simp] theorem decode_vcfg : decode (pack f c b a 32#6) = decodeVcfg (pack f c b a 32#6) := by simp only [decode, pack_fields]; rfl
@[simp] theorem decode_vint : decode (pack f c b a 33#6) = decodeVint (pack f c b a 33#6) := by simp only [decode, pack_fields]; rfl
@[simp] theorem decode_vfp : decode (pack f c b a 34#6) = decodeVfp (pack f c b a 34#6) := by simp only [decode, pack_fields]; rfl
@[simp] theorem decode_vfma : decode (pack f c b a 35#6) = decodeVfma (pack f c b a 35#6) := by simp only [decode, pack_fields]; rfl
@[simp] theorem decode_vcvt : decode (pack f c b a 36#6) = decodeVcvt (pack f c b a 36#6) := by simp only [decode, pack_fields]; rfl
@[simp] theorem decode_vmask : decode (pack f c b a 37#6) = decodeVmask (pack f c b a 37#6) := by simp only [decode, pack_fields]; rfl
@[simp] theorem decode_vred : decode (pack f c b a 38#6) = decodeVred (pack f c b a 38#6) := by simp only [decode, pack_fields]; rfl
@[simp] theorem decode_vstr : decode (pack f c b a 39#6) = decodeVstr (pack f c b a 39#6) := by simp only [decode, pack_fields]; rfl
@[simp] theorem decode_vload : decode (pack f c b a 40#6) = decodeVload (pack f c b a 40#6) := by simp only [decode, pack_fields]; rfl
@[simp] theorem decode_vstore : decode (pack f c b a 41#6) = decodeVstore (pack f c b a 41#6) := by simp only [decode, pack_fields]; rfl
@[simp] theorem decode_vamo : decode (pack f c b a 42#6) = decodeVamo (pack f c b a 42#6) := by simp only [decode, pack_fields]; rfl
@[simp] theorem decode_vquad : decode (pack f c b a 43#6) = decodeVquad (pack f c b a 43#6) := by simp only [decode, pack_fields]; rfl
@[simp] theorem decode_copy : decode (pack f c b a 44#6) = decodeCopy (pack f c b a 44#6) := by simp only [decode, pack_fields]; rfl
@[simp] theorem decode_stage : decode (pack f c b a 45#6) = decodeStage (pack f c b a 45#6) := by simp only [decode, pack_fields]; rfl
end

@[simp] theorem decode_sync (f : BitVec 10) (m : BitVec 16) : decode (packW f m 27#6) = decodeSync (packW f m 27#6) := by
  rw [decode, op_packW]; rfl

/-! ## The round trip -/

/-- A well-formed instruction with a word has an encoding, and that decodes to it: by the instruction, major by major. -/
theorem decode_encode (i : Instr) (wf : i.wf = true) (hw : i.hasWord = true) : ∃ w, encode i = some w ∧ decode w = .ok i := by
  cases i
  case add | sub | and | or | xor | andn | sll | srl | sra | mul | mulh | mulhu | mulhsu | div | divu | rem | remu | min | max
      | minu | maxu | clz | ctz | pop | bswap | sh1add | sh2add | sh3add | rotl | rotr =>
    exact ⟨_, rfl, by simp [-BitVec.reduceAppend, decodeAlu]⟩
  case addi | andi | ori | xori | jalr => exact ⟨_, rfl, by simp [decode, imm16]⟩
  case ldhi | pcadd | jal | bs => exact ⟨_, rfl, by simp [decode]⟩
  case ldB | ldH | ldW | ldD | ldBu | ldHu | ldWu => exact ⟨_, rfl, by simp [-BitVec.reduceAppend, decodeLoad, imm13]⟩
  case stB | stH | stW | stD => exact ⟨_, rfl, by simp [-BitVec.reduceAppend, decodeStore, imm14]⟩
  case bt | bf => exact ⟨_, rfl, by simp [-BitVec.reduceAppend, decodeBranch, dHi, cD]⟩
  case cmpeq | cmpne | cmplt | cmpge | cmpltu | cmpgeu | cand | cor | cxor | candn | cget =>
    exact ⟨_, rfl, by simp [-BitVec.reduceAppend, decodeCmp, dHi, aHi, bHi, cD, cA, cB]⟩
  case cmpeqi | cmpnei | cmplti | cmpgei => exact ⟨_, rfl, by simp [-BitVec.reduceAppend, decodeCmpiA, dHi, cD, imm16]⟩
  case cmpltui | cmpgeui | cmpgti | cmplei => exact ⟨_, rfl, by simp [-BitVec.reduceAppend, decodeCmpiB, dHi, cD, imm16]⟩
  case slli | srli | srai | rotli => exact ⟨_, rfl, by simp [-BitVec.reduceAppend, decodeShiftImm]⟩
  case loop rs1 e =>
    have : e ≠ 0#13 := bne_iff_ne.mp wf
    exact ⟨_, rfl, by simp [-BitVec.reduceAppend, decodeLoop, imm13, this]⟩
  case loopi n e =>
    have : e ≠ 0#13 := bne_iff_ne.mp wf
    exact ⟨_, rfl, by simp [-BitVec.reduceAppend, decodeLoop, imm13, this]⟩
  case fadd | fsub | fmul | fdiv | fsqrt | fmin | fmax | fsgnj | fsgnjn | fsgnjx | ftol | ftolu | ftow | ftowu | ltof | lutof
      | fprec | fclass | feq | flt | fle | fadd2 =>
    exact ⟨_, rfl, by simp [-BitVec.reduceAppend, decodeFp, orReject, fpRm, fpPrec, dHi, cD]⟩
  case fmadd | fmsub | fnmadd | fnmsub => exact ⟨_, rfl, by simp [-BitVec.reduceAppend, decodeFma, orReject]⟩
  case csrrw | csrrs | csrrc => exact ⟨_, rfl, by simp [-BitVec.reduceAppend, decodeCsr, csrNo]⟩
  case ecall | ebreak | eret | ptflush | icflush | nopSys => exact ⟨_, rfl, by simp [-BitVec.reduceAppend, decodeSystem]⟩
  case amoswap | amoadd | amoand | amoor | amoxor | amomin | amomax | amominu | amomaxu | amofadd | amocas | amominp =>
    exact ⟨_, rfl, by simp [-BitVec.reduceAppend, decodeAtomic, orReject]⟩
  case amold | amost =>
    have order := (Bool.not_eq_true' _).mp wf
    exact ⟨_, rfl, by simp [-BitVec.reduceAppend, decodeAtomic, orReject, order]⟩
  case wait => exact ⟨_, rfl, by simp [-BitVec.reduceAppend, decodeSync]⟩
  case fence => exact ⟨_, rfl, by simp [-BitVec.reduceAppend, decodeSync, orReject]⟩
  case qfence queues tt =>
    have named := (qfence_nonzero 0 tt queues).mpr wf
    exact ⟨_, rfl, by simpa [-BitVec.reduceAppend, decodeSync] using named⟩
  case texit | tspawn | tjoin | hwpub => exact ⟨_, rfl, by simp [-BitVec.reduceAppend, decodeTask]⟩
  case gjoin | gdetach | lgrow | lshrink | valloc | bar | arrive | await =>
    exact ⟨_, rfl, by simp [-BitVec.reduceAppend, decodeGang, orReject, aHi, cA]⟩
  case darn | peq | fwdres | fwdmend | fwdrel => exact ⟨_, rfl, by simp [-BitVec.reduceAppend, decodeFwd, dHi, cD]⟩
  case kvalloc | kvapp | kvcommit | sbindkvK | sbindkvV | mangle | launder => exact ⟨_, rfl, by simp [-BitVec.reduceAppend, decodeKv, dHi, cD]⟩
  case setvl | setvlc => exact ⟨_, rfl, by simp [-BitVec.reduceAppend, decodeVcfg]⟩
  case vmerge k _ _ _ =>
    have masked : k ≠ 0#3 := bne_iff_ne.mp wf
    exact ⟨_, rfl, by simp [-BitVec.reduceAppend, decodeVint, orReject, masked]⟩
  case vadd | vsub | vrsub | vmul | vmulh | vmulhu | vand | vor | vxor | vsll | vsrl | vsra | vmin | vmax | vminu | vmaxu | vsadd
      | vsaddu | vssub | vssubu | vdiv | vdivu | vrem | vremu | vcmpeq | vcmpne | vcmplt | vcmpltu | vcmple | vcmpleu | vmv =>
    exact ⟨_, rfl, by simp [-BitVec.reduceAppend, decodeVint, orReject, dHi, cD]⟩
  case vfadd | vfsub | vfmul | vfdiv | vfmin | vfmax | vfsgnj | vfsgnjn | vfsgnjx | vfsqrt | vfrecip | vfrsqrt | vfexp2 | vflog2
      | vftanh | vfclass | vfcmpeq | vfcmpne | vfcmplt | vfcmple | vfcmpgt | vfcmpge | vfmaxexp =>
    exact ⟨_, rfl, by simp [-BitVec.reduceAppend, decodeVfp, orReject, dHi, cD]⟩
  case vfmacc | vfnmacc | vfmsac | vfnmsac | vfwmacc | vfdot4 | vl6mul | vl6dot | vmacc | vwmacc =>
    exact ⟨_, rfl, by simp [-BitVec.reduceAppend, decodeVfma, orReject]⟩
  case vcvt | vcvti | vcvtu | vcvtsr | vquant | vdequant =>
    exact ⟨_, rfl, by simp [-BitVec.reduceAppend, decodeVcvt, orReject, cB, bHi]⟩
  case kand | kor | kxor | kandn | knot | kpop | kfirst | vcompress | vexpand | vprefpop | vconflict | vslideup | vslidedown
      | vrgather | vid | vmvx | vmvxs =>
    exact ⟨_, rfl, by simp [-BitVec.reduceAppend, decodeVmask, dHi, aHi, bHi, cD, cA, cB]⟩
  case vredsum | vredmin | vredmax | vredminu | vredmaxu | vredand | vredor | vredxor | vfredsum | vfredsum2 | vfredmin | vfredmax
      | vtopk | vsegscan | vfsegscan =>
    exact ⟨_, rfl, by simp [-BitVec.reduceAppend, decodeVred, bHi, cB]⟩
  case vbcmp | vbeq | vbfind | vqmix | vhacc | vnfa | vkvmass | vkvpos =>
    exact ⟨_, rfl, by simp [-BitVec.reduceAppend, decodeVstr, orReject, dHi, cD]⟩
  case vld | vlds | vldxo | vldx | vldk | vldw =>
    exact ⟨_, rfl, by simp [-BitVec.reduceAppend, decodeVload, orReject, vF5, vmMode, vK, dHi, cD]⟩
  case vst | vsts | vstxo | vstx | vstk | vstw =>
    exact ⟨_, rfl, by simp [-BitVec.reduceAppend, decodeVstore, orReject, vF5, vmMode, vK, dHi, cD]⟩
  case vamoadd | vamoand | vamoor | vamoxor | vamomin | vamomax | vamominu | vamomaxu | vamoswap | vamofadd =>
    have unit := vamo_wf.mp wf
    exact ⟨_, rfl, by simpa [-BitVec.reduceAppend, decodeVamo, orReject, vmMode_eq, or_iff_not_imp_left] using unit⟩
  case vfmadd | vfmsub | vfnmadd | vfnmsub | vbsel | vmadd => exact ⟨_, rfl, by simp [-BitVec.reduceAppend, decodeVquad]⟩
  case tcopy | copy1d | sbind | sunbind => exact ⟨_, rfl, by simp [-BitVec.reduceAppend, decodeCopy, cpQ, dHi, cD]⟩
  case tqtile | mstage | mchain | mdense | mload | mstore | mzero => exact ⟨_, rfl, by simp [-BitVec.reduceAppend, decodeStage]⟩
  case tmark => exact ⟨_, rfl, by simp [decode, imm16]⟩
  all_goals cases hw


/-- A word that decodes to a well-formed instruction: the instruction's own. -/
theorem decode_of_encode {i : Instr} {w : IWord} (wf : i.wf = true) (he : encode i = some w) (hw : i.hasWord = true) :
    decode w = .ok i := by
  obtain ⟨v, hv, hd⟩ := decode_encode i wf hw
  rwa [Option.some.inj (he.symm.trans hv)]

/-- A word is its four bytes (R32). -/
theorem wordOfBytes_byteOfWord (w : IWord) :
    wordOfBytes (byteOfWord w 0) (byteOfWord w 1) (byteOfWord w 2) (byteOfWord w 3) = w := by
  have low : byteOfWord w 1 ++ byteOfWord w 0 = w.extractLsb' 0 16 := BitVec.extractLsb'_append_extractLsb'_eq_extractLsb' rfl
  have mid : byteOfWord w 2 ++ w.extractLsb' 0 16 = w.extractLsb' 0 24 := BitVec.extractLsb'_append_extractLsb'_eq_extractLsb' rfl
  exact (congrArg (byteOfWord w 3 ++ ·) ((congrArg (byteOfWord w 2 ++ ·) low).trans mid)).trans
    (BitVec.extractLsb'_append_extractLsb' (w := 8) (len := 24))

theorem decodeTableWord_of_decode {w : IWord} {i : Instr} (h : decode w = .ok i) : decodeTableWord 32 w.toNat = some i := by
  simp [decodeTableWord, wordOfBytes_byteOfWord, h, w.isLt]

/-- Settles O55: `decode_encode` for each instruction, and `decode_sound` for each word. -/
theorem encodeDecode : Obligations.EncodeDecode := by
  unfold Obligations.EncodeDecode
  refine ⟨fun i wf hw => ?_, decode_sound⟩
  obtain ⟨w, he, hd⟩ := decode_encode i wf hw
  exact ⟨w, he, hd, decodeTableWord_of_decode hd⟩

/-- Settles O54: the words are the encodings of the instructions that the spec names for them, which are well formed; the others
fail a check of their major's decoder. -/
theorem workedEncodings : Obligations.WorkedEncodings := by
  unfold Obligations.WorkedEncodings
  have word {i : Instr} {w : IWord} (wf : i.wf = true) (hw : i.hasWord = true) (he : encode i = some w) : decode w = .ok i :=
    decode_of_encode wf he hw
  refine ⟨word rfl rfl rfl, word rfl rfl rfl, word rfl rfl rfl, word rfl rfl rfl, word rfl rfl rfl, word rfl rfl rfl,
    word rfl rfl rfl, word rfl rfl rfl, word rfl rfl rfl, word rfl rfl rfl, word rfl rfl rfl, word rfl rfl rfl,
    word rfl rfl rfl, word rfl rfl rfl, ⟨_, rfl⟩, ⟨_, rfl⟩, ⟨_, rfl⟩⟩

end Sys2Proof.Laws

/-! SUPPORT. The system instructions (R50, R102, R225), a word that is no instruction (R34) and a fetch fault (R319). -/

namespace Sys2Proof.Laws

open Sys2Proof Sys2Proof.Machine

/-! ## What a release cleans changes no slot -/

theorem same_drainQueue (q : SeqId) (uo : Bool) (s : State) : SameSlots s (drainQueue q uo s) := by
  unfold drainQueue
  apply same_foldl
  intro s e
  exact same_stqBack q e.1 uo s

theorem same_cleanL1 (c : CoreId) (uo : Bool) (s : State) : SameSlots s (cleanL1 c uo s) := by
  unfold cleanL1
  apply same_foldl
  intro s e
  exact same_l1Back c e.1 uo s

theorem same_cleanBuffer (cl : ClusterId) (uo : Bool) (s : State) : SameSlots s (cleanBuffer cl uo s) := by
  unfold cleanBuffer
  apply same_foldl
  intro s e
  exact same_bufBack cl e.1 uo s

theorem same_cleanTo (q : Option SeqId) (c : CoreId) (lvl : Nat) (uo : Bool) (s : State) :
    SameSlots s (cleanTo q c lvl uo s) := by
  have hq : SameSlots s (match q with | some q => drainQueue q uo s | none => s) := by
    cases q with
    | none => exact SameSlots.refl s
    | some q => exact same_drainQueue q uo s
  unfold cleanTo
  split
  · exact SameSlots.refl s
  · dsimp only
    split
    · exact hq
    · split
      · exact hq.trans (same_cleanL1 c uo _)
      · exact (hq.trans (same_cleanL1 c uo _)).trans (same_cleanBuffer _ uo _)

theorem Keeps.releaseAt (sc : Scope) (uo : Bool) : Keeps (releaseAt sc uo) := by
  intro s a t h
  unfold Machine.releaseAt at h
  dsimp only at h
  split at h
  · cases h
  · cases h; exact same_cleanTo _ _ _ _ _

/-! ## `ecall` and `ebreak` retire before their trap -/

/-- An instruction that retires and then traps. -/
theorem traps_after {i : Instr} {s : State} {c : Nat} (h : exec i s = .next (retire (.thenTrap c) (turnsOver s s))) :
    ∃ t, RetiresTo (turnsOver s s) t ∧ exec i s = .next (takeTrap c s.me.pc t.me.pc t) := by
  refine ⟨retire .next (turnsOver s s), retire_next _, h.trans ?_⟩
  unfold retire
  rw [turnsOver_me]

/-! ## `ptflush` -/

theorem guardS_run (w : IWord) (s : State) : guardS w s = check s.me.sup causePrivilege (w.zeroExtend 64) s := rfl

/-- A partition is in the middle of an access or of a moving line (R225). -/
theorem midAccess_iff (s : State) (p : PartId) :
    midAccess s p = true ↔ (∃ h ∈ s.transit, h.part = some p) ∨ ∃ j ∈ (s.part p).darn, j.line ≠ none := by
  simp [midAccess, Option.isSome_iff_ne_none]

/-- The actions of `ptflush` on a state at supervisor level. -/
theorem ptflush_run (rs1 rs2 : Reg) (s : State) (h : s.me.status.getLsbD 0 = true) :
    exec (.ptflush rs1 rs2) s = run (wordSys 3 rs2 rs1) (do
      if midAccess s s.me.part then waitFor .transit
      modS (dropCached s.me.part (if rs1 = 0 then none else some (s.me.readX rs1))
        (if rs2 = 0 then none else some (s.me.readX rs2)))
      pure .next) s := by
  show execPtflush rs1 rs2 s = _
  unfold execPtflush run
  rw [bind_run, guardS_run, check_pass s.me.sup _ _ _ h]
  rfl

/-- The cached translations that stay (R225): those of other partitions, and those that the address or the ASID does not
match, where one is given. -/
theorem mem_dropCached (p : PartId) (va asid : Word) (rs1 rs2 : Reg) (s : State) (e : Cached) :
    e ∈ (dropCached p (if rs1 = 0 then none else some va) (if rs2 = 0 then none else some asid) s).cached ↔
      e ∈ s.cached ∧ ¬ (e.part = p ∧ (rs1 = 0 ∨ e.vpage = va.toNat / 2 ^ (15 + 12 * e.level))
        ∧ (rs2 = 0 ∨ e.asid = none ∨ e.asid = some (asid.extractLsb' 0 16))) := by
  unfold dropCached
  rw [List.mem_filter, ← Nat.shiftRight_eq_div_pow]
  refine and_congr_right fun _ => ?_
  by_cases h1 : rs1 = 0#5 <;> by_cases h2 : rs2 = 0#5 <;> cases e.asid <;> simp [h1, h2, imp_iff_not_or, or_assoc]

/-! ## The statement -/

/-- Settles O30: `ecall` and `ebreak` retire into their trap; `ptflush` traps, waits, or filters the cached translations;
`icflush` releases at device scope and empties the two fetch caches. -/
theorem systemInstructions : Obligations.SystemInstructions := by
  unfold Obligations.SystemInstructions
  intro s rs1 rs2 w c a
  refine ⟨traps_after rfl, traps_after rfl, ?_, ?_, ?_, ?_, completes_simple rfl, rfl, rfl⟩
  · intro v hv hu
    have hw : wordSys 3 rs2 rs1 = v := Option.some.inj hv
    refine traps_run (w := wordSys 3 rs2 rs1) rfl ?_
    rw [bind_run, guardS_run, check_fail s.me.sup _ _ _ hu, hw]
  · intro hs busy
    refine holds_run (ptflush_run rs1 rs2 s hs) ?_
    rw [if_pos ((midAccess_iff _ _).mpr busy), bind_run, waitFor_run]
  · intro hs busy
    refine ⟨_, completesAs_run (ptflush_run rs1 rs2 s hs) ?_, mem_dropCached s.me.part (s.me.readX rs1) (s.me.readX rs2) rs1 rs2 s⟩
    rw [if_neg fun h => busy ((midAccess_iff _ _).mp h)]
    rfl
  · intro u hu
    refine completesAs_run (w := wordSys 4 0 0) rfl ?_
    rw [← (Keeps.releaseAt _ _ s () u hu).2, bind_run, hu]
    rfl

end Sys2Proof.Laws

/-! SUPPORT. The passing of time: what the cycles of a step change of the machine (R339 to R345), and what they do not. -/

namespace Sys2Proof.Laws

open Sys2Proof Sys2Proof.Machine

/-! ## The fields that the writers of rings and the counters leave alone -/

/-- Beside slots, cores, clusters, partitions and memory, all is the same. -/
def SameRest (s t : State) : Prop :=
  t = { s with slots := t.slots, cores := t.cores, clusters := t.clusters, parts := t.parts
               mem := t.mem, transit := t.transit, bad := t.bad }

theorem SameRest.refl (s : State) : SameRest s s := rfl

theorem SameRest.trans {s t u : State} (h : SameRest s t) (g : SameRest t u) : SameRest s u := by
  unfold SameRest at h g ⊢; rw [g, h]

theorem SameRest.cycle {s t : State} (h : SameRest s t) : t.cycle = s.cycle := by rw [h]
theorem SameRest.script {s t : State} (h : SameRest s t) : t.script = s.script := by rw [h]
theorem SameRest.ticks {s t : State} (h : SameRest s t) : t.ticks = s.ticks := by rw [h]
theorem SameRest.tripped {s t : State} (h : SameRest s t) : t.tripped = s.tripped := by rw [h]
theorem SameRest.bstat {s t : State} (h : SameRest s t) : t.bstat = s.bstat := by rw [h]

/-- The rest is the same after as many cycles more. -/
theorem SameRest.cycleAfter {s t : State} (h : SameRest s t) (n : Nat) :
    SameRest { s with cycle := s.cycle + n } { t with cycle := t.cycle + n } := by
  unfold SameRest at h ⊢; rw [h]

theorem SameButMemory.sameRest {s t : State} (h : SameButMemory s t) : SameRest s t := by
  unfold SameRest; rw [h]

theorem Quiet.sameRest {s t : State} (h : Quiet s t) : SameRest s t := by
  unfold SameRest; rw [h.rest]

theorem rest_mapCore (c : CoreId) (f : Core → Core) (s : State) : SameRest s (mapCore c f s) := rfl
theorem rest_mapPart (p : PartId) (f : Part → Part) (s : State) : SameRest s (mapPart p f s) := rfl
theorem rest_mapCluster (c : ClusterId) (f : Cluster → Cluster) (s : State) : SameRest s (mapCluster c f s) := rfl

theorem rest_foldl {α : Type} (f : State → α → State) (h : ∀ s a, SameRest s (f s a)) (l : List α) (s : State) :
    SameRest s (l.foldl f s) := by
  induction l generalizing s with
  | nil => exact SameRest.refl s
  | cons a l ih => exact (h s a).trans (ih _)

/-! ## The writers of rings -/

theorem arrive_same (w : Writer) (pa : Nat) (a : HeldAct) (s : State) : SameButMemory s (arrive w pa a s) := by
  unfold arrive
  split
  · rfl
  · exact performAct_same _ _ _

theorem rest_deviceWrite (pa : Nat) (bs : List Byte) (s : State) : SameRest s (deviceWrite pa bs s) := by
  unfold deviceWrite deviceAct
  split
  · exact SameRest.refl s
  · exact (arrive_same _ _ _ _).sameRest

theorem rest_ringPublish (r : Ring) (s : State) : SameRest s (ringPublish r s).2 := rest_deviceWrite _ _ s

theorem rest_ringDrop (n : Nat) (r : Ring) (s : State) : SameRest s (ringDrop n r s).2 := rest_deviceWrite _ _ s

theorem rest_ringStore (z : Nat) (r : Ring) (time : Nat) (quads : List Word) (s : State) :
    SameRest s (ringStore z r time quads s).2 := by
  unfold ringStore
  dsimp only
  split
  · exact (rest_deviceWrite _ _ s).trans (rest_ringPublish _ _)
  · exact rest_deviceWrite _ _ s

theorem rest_ringPut (z n : Nat) (r : Ring) (time : Nat) (quads : List Word) (s : State) :
    SameRest s (ringPut z n r time quads s).2 := by
  unfold ringPut
  split
  · exact rest_ringDrop _ _ s
  · exact rest_ringStore _ _ _ _ s

theorem rest_syncFirst (r : Ring) (time : Nat) (s : State) : SameRest s (syncFirst r time s).2 := by
  unfold syncFirst
  split
  · exact rest_ringStore _ _ _ _ s
  · exact SameRest.refl s

theorem rest_traceWrite (r : Ring) (time : Nat) (quads : List Word) (s : State) : SameRest s (traceWrite r time quads s).2 := by
  unfold traceWrite
  dsimp only
  split
  · exact rest_ringDrop _ _ s
  · split
    · exact (rest_syncFirst r time s).trans (rest_ringDrop _ _ _)
    · exact (rest_syncFirst r time s).trans (rest_ringStore _ _ _ _ _)

theorem rest_traceLost (r : Ring) (time : Nat) (s : State) : SameRest s (traceLost r time s).2 := by
  unfold traceLost
  dsimp only
  split
  · exact SameRest.refl s
  · split
    · exact rest_syncFirst r time s
    · exact (rest_syncFirst r time s).trans (rest_ringStore _ _ _ _ _)

theorem rest_foldl_traceWrite (l : List (Nat × List Word)) (a : Ring × State) :
    SameRest a.2 (l.foldl (fun a e => traceWrite a.1 e.1 e.2 a.2) a).2 := by
  induction l generalizing a with
  | nil => exact SameRest.refl _
  | cons e l ih => exact (rest_traceWrite a.1 e.1 e.2 a.2).trans (ih _)

theorem rest_closeRing (time : Nat) (r : Ring) (s : State) : SameRest s (closeRing time r s).2 := by
  unfold closeRing
  dsimp only
  exact (rest_traceLost _ time s).trans (rest_foldl_traceWrite _ _)

theorem rest_closeTrace (c : CoreId) (s : State) : SameRest s (closeTrace c s) := by
  unfold closeTrace
  dsimp only
  have h := rest_closeRing s.cycle (s.core c).trace s
  split
  · exact rest_mapCore _ _ s
  · refine SameRest.trans ?_ (rest_mapCore _ _ _)
    split
    · exact h.trans (rest_ringPublish _ _)
    · exact h

theorem rest_publishProfile (p : PartId) (s : State) : SameRest s (publishProfile p s) := by
  unfold publishProfile
  dsimp only
  split
  · exact SameRest.refl s
  · exact (rest_ringPublish _ s).trans (rest_mapPart _ _ _)

theorem rest_publishReplay (cl : ClusterId) (s : State) : SameRest s (publishReplay cl s) := by
  unfold publishReplay
  dsimp only
  split
  · exact (rest_ringPublish _ s).trans (rest_mapCluster _ _ _)
  · exact SameRest.refl s

theorem rest_publishOverdue (s : State) : SameRest s (publishOverdue s) := by
  unfold publishOverdue
  dsimp only
  generalize allParts = ps
  generalize allClusters = cs
  refine (rest_foldl _ (fun s p => ?_) ps s).trans (rest_foldl _ (fun s cl => ?_) cs _)
  · split
    · exact rest_publishProfile p s
    · exact SameRest.refl s
  · split
    · exact rest_publishReplay cl s
    · exact SameRest.refl s

/-! ## The profile tables and the sampling counters -/

theorem rest_spillEntry (e : ProfEntry) (s : State) : SameRest s (spillEntry e s) := by
  unfold spillEntry
  split
  · exact SameRest.refl s
  · have put := rest_ringPut 16 e.count (s.part e.part).profRing s.cycle
      [BitVec.ofNat 64 (2 ^ 63 + e.key), BitVec.ofNat 64 e.count] s
    revert put
    generalize ringPut _ _ _ _ _ s = x
    obtain ⟨r, t⟩ := x
    exact fun put => put.trans (rest_mapPart _ _ t)

theorem rest_drainProfile (c : CoreId) (s : State) : SameRest s (drainProfile c s) := by
  unfold drainProfile
  exact (rest_mapCore c _ s).trans (rest_foldl _ (fun s e => rest_spillEntry e s) _ _)

theorem rest_profileCycle (q : SeqId) (i : Nat) (s : State) : SameRest s (profileCycle q i s) := by
  unfold profileCycle
  dsimp only
  split
  · exact rest_mapCore _ _ s
  · split
    · exact rest_mapCore _ _ s
    · split
      · exact rest_mapCore _ _ s
      · split
        · exact SameRest.refl s
        · exact (rest_ringDrop _ _ s).trans (rest_mapPart _ _ _)

theorem rest_profileCycleOf (p : PartId) (i : Nat) (s : State) : SameRest s (profileCycleOf p i s) := by
  unfold profileCycleOf
  exact rest_foldl _ (fun s q => rest_profileCycle q i s) _ s

theorem rest_sampleCycle (q : SeqId) (i : Nat) (s : State) : SameRest s (sampleCycle q i s) := by
  unfold sampleCycle
  dsimp only
  split
  · exact (quiet_countEventAs _ _ _ _ _ s).sameRest
  · split
    · exact (quiet_countEventAs _ _ _ _ _ s).sameRest
    · exact SameRest.refl s
  · exact SameRest.refl s

/-! ## Cycles pass -/

/-- A cycle counts one, and of the rest changes only what the counters and the writers of rings write. -/
theorem rest_passCycle (i : Nat) (s : State) : SameRest { s with cycle := s.cycle + 1 } (passCycle i s) := by
  have drains (s : State) (c : CoreId) : SameRest s (if (s.core c).profBuf.isEmpty
      || s.free .stall (1024 * i + 768 + c.val) % 2 == 0 then s else drainProfile c s) := by
    split
    · exact SameRest.refl s
    · exact rest_drainProfile c s
  have profiles (s : State) (p : PartId) : SameRest s (if (s.part p).prof then profileCycleOf p i s else s) := by
    split
    · exact rest_profileCycleOf p i s
    · exact SameRest.refl s
  have samples (s : State) (q : SeqId) :
      SameRest s (if (s.slot q).busy && (s.slot q).smpctl.getLsbD 7 then sampleCycle q i s else s) := by
    split
    · exact rest_sampleCycle q i s
    · exact SameRest.refl s
  unfold passCycle
  dsimp only
  generalize allCores = cs
  generalize allParts = ps
  generalize allSeqs = qs
  exact (((((rest_foldl _ drains cs s).trans (rest_foldl _ profiles ps _)).trans
    (rest_foldl _ samples qs _)).trans (rest_foldl _ (fun s c => rest_closeTrace c s) cs _)).trans
    (rest_publishOverdue _)).cycleAfter 1

theorem rest_passCycles (i n : Nat) (s : State) : SameRest { s with cycle := s.cycle + n } (passCycles i n s) := by
  induction n generalizing i s with
  | zero => exact SameRest.refl s
  | succ n ih =>
    have h := ((rest_passCycle i s).cycleAfter n).trans (ih (i + 1) (passCycle i s))
    unfold passCycles
    rwa [Nat.add_assoc, Nat.add_comm 1 n] at h

theorem passTime_quiet {s : State} (n : Nat) (h : quiet s = true) : passTime n s = { s with cycle := s.cycle + n } := by
  unfold passTime; rw [if_pos h]

/-- Time that passes counts its cycles, and of the rest changes only what the counters and the writers of rings write. -/
theorem rest_passTime (n : Nat) (s : State) : SameRest { s with cycle := s.cycle + n } (passTime n s) := by
  unfold passTime
  split
  · exact SameRest.refl _
  · exact rest_passCycles 0 n s

end Sys2Proof.Laws

/-! SUPPORT. Every instruction and every move ends in a next state: the outcomes of the shapes that the meanings have, of
each move that is made of several, and of the dispatch. -/

namespace Sys2Proof.Laws

open Sys2Proof Sys2Proof.Machine

/-- An outcome is a next state. -/
def Ends (o : Host.Outcome State Fault Refusal) : Prop := ∃ t, o = .next t

/-! ## The shapes of a meaning -/

theorem ends_next (t : State) : Ends (.next t) := ⟨t, rfl⟩

/-- A choice between two outcomes. -/
theorem ends_ite {c : Prop} [Decidable c] {a b : Host.Outcome State Fault Refusal} (ha : Ends a) (hb : Ends b) :
    Ends (if c then a else b) := by
  split
  · exact ha
  · exact hb

/-- An instruction that is run: it retires, traps, waits, or discards its partition. -/
theorem ends_run (w : IWord) (m : M Flow) (s : State) : Ends (run w m s) := by
  unfold run
  split <;> exact ends_next _

theorem ends_event (m : M Unit) (s : State) : Ends (event m s) := by
  unfold event
  split <;> exact ends_next _

/-- A waiting instruction that tries again ends as its meaning does. -/
theorem ends_resume {q : SeqId} {kinds : List HoldKind} {m : IWord → State → Host.Outcome State Fault Refusal}
    (h : ∀ w s, Ends (m w s)) (s : State) : Ends (resume q kinds m s) := by
  unfold resume
  split
  · exact ends_ite (h _ _) (ends_next s)
  · exact ends_next s

/-! ## Instructions and register writes that are neither -/

theorem ends_branchIf (sense : Bool) (n : CBit) (off : BitVec 21) (s : State) : Ends (branchIf sense n off s) :=
  ends_ite (ends_next _) (ends_next _)

theorem ends_fprec (p : Prec) (rm : RM) (rd rs1 : Reg) (s : State) : Ends (execFprec p rm rd rs1 s) := by
  cases p <;> exact ends_next _

theorem ends_csrRow (n : Nat) (v : Word) (s : State) : Ends (csrRow n v s) := by
  unfold csrRow
  dsimp only
  split <;> exact ends_next _

theorem ends_ttresRead (rd : Reg) (s : State) : Ends (execTtresRead rd s) := by
  unfold execTtresRead
  dsimp only
  split <;> exact ends_next _

/-! ## The schedulers and the allocators -/

theorem ends_startRecordAdmission (p : PartId) (s : State) : Ends (execStartRecordAdmission p s) :=
  ends_ite (ends_next _) (ends_next _)

theorem ends_ctsPick (cl : ClusterId) (s : State) : Ends (execCtsPick cl s) := by
  unfold execCtsPick
  refine ends_ite (ends_next s) ?_
  dsimp only
  split <;> exact ends_next _

theorem ends_recordAging (cl : ClusterId) (idx : Nat) (s : State) : Ends (execRecordAging cl idx s) := by
  unfold execRecordAging
  split
  · exact ends_next s
  · exact ends_ite (ends_next _) (ends_next s)

theorem ends_joinCounterReread (cl : ClusterId) (idx : Nat) (s : State) : Ends (execJoinCounterReread cl idx s) := by
  unfold execJoinCounterReread
  split
  · exact ends_next s
  · split
    · exact ends_next s
    · exact ends_ite (ends_next s) (ends_ite (ends_next _) (ends_event _ s))

theorem ends_gjoinRejoin (cl : ClusterId) (stream : Fin 4) (s : State) : Ends (execGjoinRejoin cl stream s) := by
  unfold execGjoinRejoin
  split
  · exact ends_next s
  · refine ends_ite (ends_next _) (ends_ite (ends_next s) ?_)
    split <;> exact ends_next _

theorem ends_replayDivergence (cl : ClusterId) (s : State) : Ends (execReplayDivergence cl s) := by
  unfold execReplayDivergence
  split
  · exact ends_next _
  · exact ends_ite (ends_next _) (ends_next s)

theorem ends_preemptionTaken (q : SeqId) (s : State) : Ends (execPreemptionTaken q s) :=
  ends_ite (ends_next _) (ends_next s)

/-! ## A waiting instruction tries again -/

theorem ends_gjoinTimeout (q : SeqId) (s : State) : Ends (execGjoinTimeout q s) :=
  ends_resume (fun _ _ => ends_run _ _ _) s

theorem ends_barrierRelease (launch participant : Nat) (level : BitVec 3) (s : State) :
    Ends (execBarrierRelease launch participant level s) := by
  unfold execBarrierRelease
  split
  · exact ends_next s
  · refine ends_resume (fun w s => ?_) s
    split
    · exact ends_run _ _ s
    · exact ends_next s

theorem ends_awaitPhaseChange (q : SeqId) (s : State) : Ends (execAwaitPhaseChange q s) :=
  ends_resume (fun _ _ => ends_run _ _ _) s

theorem ends_waitConditionMet (q : SeqId) (s : State) : Ends (execWaitConditionMet q s) :=
  ends_resume (fun _ _ => ends_run _ _ _) s

theorem ends_setvlcResume (q : SeqId) (s : State) : Ends (execSetvlcResume q s) :=
  ends_resume (fun _ _ => ends_run _ _ _) s

theorem ends_issueCapacityFreed (q : SeqId) (s : State) : Ends (execIssueCapacityFreed q s) := by
  refine ends_resume (fun w s => ?_) s
  split
  · exact ends_ite (ends_run _ _ s) (ends_run _ _ s)
  · split
    · exact ends_next s
    · generalize (f11 w).toNat = n
      match n with
      | 0 | 1 | 2 | 3 | 4 | 5 | _ + 6 => exact ends_run _ _ s

theorem ends_spillSpaceFreed (q : SeqId) (s : State) : Ends (execSpillSpaceFreed q s) := by
  refine ends_resume (fun w s => ?_) s
  split
  · split <;> exact ends_run _ _ s
  · generalize ((f11 w).extractLsb' 9 2).toNat = n
    match n with
    | 0 | 1 | _ + 2 => exact ends_run _ _ s

theorem ends_jobQueueRoom (q : SeqId) (s : State) : Ends (execJobQueueRoom q s) :=
  ends_resume (fun _ _ => ends_ite (ends_run _ _ _) (ends_ite (ends_run _ _ _) (ends_run _ _ _))) s

theorem ends_streamFill (q : SeqId) (s : State) : Ends (execStreamFill q s) :=
  ends_ite (ends_event _ s) (ends_next s)

/-! ## The engines and the jobs -/

theorem ends_copyOperationEnd (c : CoreId) (idx upto : Nat) (s : State) : Ends (execCopyOperationEnd c idx upto s) := by
  unfold execCopyOperationEnd
  split
  · exact ends_next s
  · exact ends_ite (ends_next s) (ends_event _ s)

theorem ends_tileTaskReady (cl : ClusterId) (idx : Nat) (s : State) : Ends (execTileTaskReady cl idx s) := by
  unfold execTileTaskReady
  split
  · exact ends_next s
  · exact ends_ite (ends_next s) (ends_event _ s)

theorem ends_tileTaskStart (cl : ClusterId) (idx : Nat) (s : State) : Ends (execTileTaskStart cl idx s) := by
  unfold execTileTaskStart
  split
  · exact ends_next s
  · split
    · exact ends_next s
    · exact ends_ite (ends_next s) (ends_event _ s)

theorem ends_tileTaskEnd (cl : ClusterId) (idx upto : Nat) (s : State) : Ends (execTileTaskEnd cl idx upto s) := by
  unfold execTileTaskEnd
  split
  · exact ends_next s
  · exact ends_ite (ends_ite (ends_event _ s) (ends_next s)) (ends_event _ s)

theorem ends_homeAgentAccess (line : Nat) (s : State) : Ends (execHomeAgentAccess line s) := by
  unfold execHomeAgentAccess
  split <;> exact ends_next _

theorem ends_darnLineMove (p : PartId) (s : State) : Ends (execDarnLineMove p s) := by
  unfold execDarnLineMove
  refine ends_ite (ends_next s) ?_
  split
  · exact ends_next s
  · split
    · exact ends_next _
    · exact ends_event _ s

theorem ends_darnJobEnd (p : PartId) (s : State) : Ends (execDarnJobEnd p s) := by
  unfold execDarnJobEnd
  split
  · exact ends_next s
  · exact ends_ite (ends_next s) (ends_event _ s)

theorem ends_mangleRun (p : PartId) (s : State) : Ends (execMangleRun p s) := by
  unfold execMangleRun
  refine ends_ite (ends_next s) ?_
  split
  · exact ends_next s
  · exact ends_event _ s

theorem ends_mangleJobEnd (p : PartId) (s : State) : Ends (execMangleJobEnd p s) := by
  unfold execMangleJobEnd
  split
  · exact ends_next s
  · exact ends_ite (ends_next s) (ends_event _ s)

theorem ends_launderPass (p : PartId) (s : State) : Ends (execLaunderPass p s) := by
  unfold execLaunderPass
  split
  · exact ends_next s
  · exact ends_ite (ends_event _ s) (ends_event _ s)

/-! ## The host and the device -/

theorem ends_coreOwnerChange (c : CoreId) (s : State) : Ends (execCoreOwnerChange c s) := by
  unfold execCoreOwnerChange
  split
  · exact ends_next s
  · exact ends_ite (ends_next _) (ends_next s)

theorem ends_extentReleaseDone (s : State) : Ends (execExtentReleaseDone s) := by
  unfold execExtentReleaseDone
  split
  · exact ends_next s
  · exact ends_ite (ends_next s) (ends_next _)

theorem ends_extentOffer (units : Nat) (shared : Bool) (s : State) : Ends (execExtentOffer units shared s) := by
  unfold execExtentOffer
  dsimp only
  split <;> exact ends_next _

theorem ends_bar0RegisterWrite (p : PartId) (off : Nat) (dword : Bool) (v : Word) (s : State) :
    Ends (execBar0RegisterWrite p off dword v s) := by
  unfold execBar0RegisterWrite
  split
  · exact ends_next s
  · exact ends_ite (ends_next _) (ends_ite (ends_ite (ends_next s) (ends_next _)) (ends_next _))

theorem ends_bar2HostRead (p : PartId) (addr : Word) (len : Nat) (s : State) : Ends (execBar2HostRead p addr len s) := by
  unfold execBar2HostRead
  dsimp only
  split <;> exact ends_next _

theorem ends_bar2HostWrite (p : PartId) (addr : Word) (data : List Byte) (s : State) :
    Ends (execBar2HostWrite p addr data s) := by
  unfold execBar2HostWrite
  dsimp only
  split <;> exact ends_next _

theorem ends_peerRequest (p : PartId) (peer : Fin 32) (addr : Word) (len : Nat) (data : List Byte) (s : State) :
    Ends (execPeerRequest p peer addr len data s) := by
  unfold execPeerRequest
  dsimp only
  refine ends_ite ?_ (ends_next _)
  split <;> exact ends_next _

theorem ends_kolnarPortDown (port : Nat) (s : State) : Ends (execKolnarPortDown port s) :=
  ends_ite (ends_next _) (ends_next s)

theorem ends_priPageResponse (q : SeqId) (ok : Bool) (s : State) : Ends (execPriPageResponse q ok s) := by
  unfold execPriPageResponse
  split
  · exact ends_next s
  · exact ends_ite (ends_next _) (ends_next _)

theorem ends_pcieCompletionTimeout (q : SeqId) (s : State) : Ends (execPcieCompletionTimeout q s) := by
  unfold execPcieCompletionTimeout
  split <;> exact ends_next _

theorem ends_powerCheck (s : State) : Ends (execPowerCheck s) := by
  unfold execPowerCheck
  exact ends_ite (ends_next _) (ends_next _)

/-! ## The dispatch -/

/-- Every instruction of the table and every move ends in a next state. -/
theorem ends_exec (i : Instr) (s : State) : Ends (exec i s) := by
  cases i
  case add | sub | and | or | xor | andn | sll | srl | sra | mul | mulh | mulhu | mulhsu | div | divu | rem | remu | min |
    max | minu | maxu | clz | ctz | pop | bswap | sh1add | sh2add | sh3add | rotl | rotr | addi | andi | ori | xori | ldhi |
    pcadd | slli | srli | srai | rotli | jal | cmpeq | cmpne | cmplt | cmpge | cmpltu | cmpgeu | cand | cor | cxor | candn |
    cget | cmpeqi | cmpnei | cmplti | cmpgei | cmpltui | cmpgeui | cmpgti | cmplei | loopBackEdge | fadd | fsub | fmul | fdiv
    | fsqrt | fmin | fmax | fsgnj | fsgnjn | fsgnjx | ftol | ftolu | ftow | ftowu | ltof | lutof | fclass | feq | flt | fle |
    fadd2 | fmadd | fmsub | fnmadd | fnmsub | ecall | ebreak | nopSys | qfence | gdetach | l1Writeback | traceHeadPublish |
    sampleCounterWrap | watchdogExpiry | uncorrectableStateError | laneRetire | qpiWrite | partitionReset |
    functionLevelReset | partitionResetDone | profileFlush | hpmreqWrite | flogWrite | profWrite | spillWrite | passignWrite
    | dbgsessWrite | pwrlimWrite | extrelWrite | atsInvalidation | perstRelease | firmwareUpdateStage | getVersion |
    getCapabilities | negotiateAlgorithms | getDigests | getCertificate | challenge | getMeasurements | thermalThrottle |
    thermalTrip | illegalInstruction | instructionFetchFault | deviceReset | msixVectorUnmask | profileCycleCount => exact ends_next _
  case ldB | ldH | ldW | ldD | ldBu | ldHu | ldWu | stB | stH | stW | stD | bs | jalr | loop | loopi | csrrw | csrrs | csrrc
    | eret | ptflush | icflush | amoswap | amoadd | amoand | amoor | amoxor | amomin | amomax | amominu | amomaxu | amofadd |
    amocas | amold | amost | amominp | wait | fence | texit | tspawn | tjoin | hwpub | gjoin | lgrow | lshrink | valloc | bar
    | arrive | await | darn | peq | fwdres | fwdmend | fwdrel | kvalloc | kvapp | kvcommit | sbindkvK | sbindkvV | mangle |
    launder | setvl | setvlc | vadd | vsub | vrsub | vmul | vmulh | vmulhu | vand | vor | vxor | vsll | vsrl | vsra | vmin |
    vmax | vminu | vmaxu | vsadd | vsaddu | vssub | vssubu | vdiv | vdivu | vrem | vremu | vcmpeq | vcmpne | vcmplt | vcmpltu
    | vcmple | vcmpleu | vmerge | vmv | vfadd | vfsub | vfmul | vfdiv | vfmin | vfmax | vfsgnj | vfsgnjn | vfsgnjx | vfsqrt |
    vfrecip | vfrsqrt | vfexp2 | vflog2 | vftanh | vfclass | vfcmpeq | vfcmpne | vfcmplt | vfcmple | vfcmpgt | vfcmpge |
    vfmaxexp | vfmacc | vfnmacc | vfmsac | vfnmsac | vfwmacc | vfdot4 | vl6mul | vl6dot | vmacc | vwmacc | vcvt | vcvti |
    vcvtu | vcvtsr | vquant | vdequant | kand | kor | kxor | kandn | knot | kpop | kfirst | vcompress | vexpand | vprefpop |
    vconflict | vslideup | vslidedown | vrgather | vid | vmvx | vmvxs | vredsum | vredmin | vredmax | vredminu | vredmaxu |
    vredand | vredor | vredxor | vfredsum | vfredsum2 | vfredmin | vfredmax | vtopk | vsegscan | vfsegscan | vbcmp | vbeq |
    vbfind | vqmix | vhacc | vnfa | vkvmass | vkvpos | vld | vlds | vldxo | vldx | vldk | vldw | vst | vsts | vstxo | vstx |
    vstk | vstw | vamoadd | vamoand | vamoor | vamoxor | vamomin | vamomax | vamominu | vamomaxu | vamoswap | vamofadd |
    vfmadd | vfmsub | vfnmadd | vfnmsub | vbsel | vmadd | tcopy | copy1d | sbind | sunbind | tqtile | mstage | mchain |
    mdense | mload | mstore | mzero | tmark => exact ends_run _ _ _
  case vtypeWrite | vlWrite | vstartWrite | vallocWrite | vstateWrite | lpcntWrite | lpidxWrite | lpdepthWrite | lpbegWrite |
    lpendWrite | gjtimeoutWrite | frmWrite | statusWrite | ptbaseWrite | asidWrite | heatbaseWrite | kvmbaseWrite |
    lanemapWrite | sdescWrite | sposWrite | skvWrite | pmreqWrite | tleaveWrite | xjoinWrite | xdoneWrite | trctlWrite |
    rpctlWrite => exact ends_csrRow _ _ _
  case bt | bf => exact ends_branchIf _ _ _ s
  case fprec => exact ends_fprec _ _ _ _ s
  case ttresRead => exact ends_ttresRead _ s
  case startRecordAdmission => exact ends_startRecordAdmission _ s
  case ctsPick => exact ends_ctsPick _ s
  case recordAging => exact ends_recordAging _ _ s
  case joinCounterReread => exact ends_joinCounterReread _ _ s
  case gjoinTimeout => exact ends_gjoinTimeout _ s
  case gjoinRejoin => exact ends_gjoinRejoin _ _ s
  case barrierRelease launch participant level => exact ends_barrierRelease launch participant level s
  case awaitPhaseChange => exact ends_awaitPhaseChange _ s
  case waitConditionMet => exact ends_waitConditionMet _ s
  case setvlcResume => exact ends_setvlcResume _ s
  case issueCapacityFreed => exact ends_issueCapacityFreed _ s
  case spillSpaceFreed => exact ends_spillSpaceFreed _ s
  case jobQueueRoom => exact ends_jobQueueRoom _ s
  case streamFill => exact ends_streamFill _ s
  case preemptionTaken => exact ends_preemptionTaken _ s
  case copyOperationEnd => exact ends_copyOperationEnd _ _ _ s
  case tileTaskReady => exact ends_tileTaskReady _ _ s
  case tileTaskStart => exact ends_tileTaskStart _ _ s
  case tileTaskEnd => exact ends_tileTaskEnd _ _ _ s
  case homeAgentAccess => exact ends_homeAgentAccess _ s
  case darnLineMove => exact ends_darnLineMove _ s
  case darnJobEnd => exact ends_darnJobEnd _ s
  case mangleRun => exact ends_mangleRun _ s
  case mangleJobEnd => exact ends_mangleJobEnd _ s
  case launderPass => exact ends_launderPass _ s
  case replayDivergence => exact ends_replayDivergence _ s
  case coreOwnerChange => exact ends_coreOwnerChange _ s
  case extentReleaseDone => exact ends_extentReleaseDone s
  case extentOffer => exact ends_extentOffer _ _ s
  case bar0RegisterWrite => exact ends_bar0RegisterWrite _ _ _ _ s
  case bar2HostRead => exact ends_bar2HostRead _ _ _ s
  case bar2HostWrite => exact ends_bar2HostWrite _ _ _ s
  case peerRequest => exact ends_peerRequest _ _ _ _ _ s
  case kolnarPortDown => exact ends_kolnarPortDown _ s
  case priPageResponse => exact ends_priPageResponse _ _ s
  case pcieCompletionTimeout => exact ends_pcieCompletionTimeout _ s
  case powerCheck => exact ends_powerCheck s

end Sys2Proof.Laws

/-! SUPPORT. A step ends in a next state, or faults because the device has stopped (R361, R364). -/

namespace Sys2Proof.Laws

open Sys2Proof Sys2Proof.Machine

theorem ends_execChecked (i : Instr) (w : IWord) (s : State) : Ends (execChecked i w s) :=
  ends_ite (ends_exec i s) (ends_ite (ends_next _) (ends_exec i _))

theorem ends_issue (s : State) : Ends (issue s) := by
  unfold issue
  split
  case h_1 => exact ends_exec _ _
  case h_2 => exact ends_next _
  case h_3 => exact ends_next _
  case h_4 => exact ends_ite (ends_next _) (ends_execChecked _ _ _)

/-- The move of a sequencer on a device that has not stopped. -/
theorem ends_stepSeq (q : SeqId) (s : State) (h : deviceStopped s = false) : Ends (stepSeq q s) := by
  have running : ¬ deviceStopped { s with cur := q } = true := fun e => Bool.false_ne_true (h.symm.trans e)
  unfold stepSeq
  dsimp only
  refine ends_ite (ends_next _) ?_
  rw [if_neg running]
  refine ends_ite (ends_exec _ _) ?_
  split
  · exact ends_exec _ _
  · exact ends_ite (ends_next _) (ends_issue _)

/-- The move of a sequencer ends in a next state, or faults because the device has stopped. -/
theorem stepSeq_ends_or_stopped (q : SeqId) (s : State) :
    Ends (stepSeq q s) ∨ (stepSeq q s = .fault .deviceStopped ∧ deviceStopped s = true) := by
  cases h : deviceStopped s
  case false => exact .inl (ends_stepSeq q s h)
  case true =>
    have stopped : deviceStopped { s with cur := q } = true := h
    unfold stepSeq
    dsimp only
    split
    · exact .inl (ends_next _)
    · exact .inr ⟨rfl, rfl⟩

/-- Time that passes stops no device, and starts none. -/
theorem deviceStopped_tick (s : State) : deviceStopped (tick s) = deviceStopped s := by
  have h := rest_passTime (s.free .elapsed 0) { s with ticks := s.ticks + 1 }
  unfold tick deviceStopped
  rw [h.tripped, h.bstat]

theorem deviceStopped_nextMove (s : State) : deviceStopped (nextMove s).2 = deviceStopped s := by
  unfold nextMove
  split <;> rfl

/-- A step ends in a next state, or faults because the device has stopped. -/
theorem step_ends_or_stopped (s : State) :
    Ends (step s) ∨ (step s = .fault .deviceStopped ∧ deviceStopped s = true) := by
  unfold step
  rw [← deviceStopped_nextMove s, ← deviceStopped_tick]
  obtain ⟨t, s1⟩ := nextMove s
  dsimp only
  cases t
  case seq q => exact stepSeq_ends_or_stopped q (tick s1)
  case event i => exact .inl (ends_ite (ends_exec i _) (ends_next _))
  all_goals exact .inl (ends_next _)

/-- Settles O58: every meaning is run to a next state, and the one fault of a step is that of a stopped device. -/
theorem everyInstructionEnds : Obligations.EveryInstructionEnds := by
  unfold Obligations.EveryInstructionEnds
  refine ⟨ends_exec, fun s => ?_⟩
  rcases step_ends_or_stopped s with ⟨t, h⟩ | ⟨h, stopped⟩
  · refine ⟨fun _ => ⟨t, h⟩, fun r e => ?_, fun f e => ?_⟩
    · cases h.symm.trans e
    · cases h.symm.trans e
  · refine ⟨fun running => absurd (running.symm.trans stopped) Bool.false_ne_true, fun r e => ?_, fun f e => ?_⟩
    · cases h.symm.trans e
    · cases h.symm.trans e
      exact ⟨rfl, stopped⟩

end Sys2Proof.Laws

/-! SUPPORT. What a step does, case by case: the move that the script names, the move of a sequencer (R326, R344), the issue of
an instruction (R34, R158, R334), and the fetch of its word (R50, R156). -/

namespace Sys2Proof.Laws

open Sys2Proof Sys2Proof.Machine

/-! ## The move that the script names -/

section
variable {s : State} {rest : List Turn}

theorem nextMove_script {t : Turn} (h : s.script = t :: rest) : nextMove s = (t, { s with script := rest }) := by
  unfold nextMove; rw [h]

theorem step_seq {q : SeqId} (h : s.script = .seq q :: rest) : step s = stepSeq q (tick { s with script := rest }) := by
  unfold step; rw [nextMove_script h]

theorem step_event {i : Instr} (h : s.script = .event i :: rest) :
    step s = if moveAllowed i (tick { s with script := rest }) then exec i (tick { s with script := rest })
      else .next (tick { s with script := rest }) := by
  unfold step; rw [nextMove_script h]

theorem step_registerError {q : SeqId} {r : BadReg} (h : s.script = .registerError q r :: rest) :
    step s = .next (strikeRegister q r (tick { s with script := rest })) := by
  unfold step; rw [nextMove_script h]; rfl

theorem step_lineError {l : Nat} (h : s.script = .lineError l :: rest) :
    step s = .next { tick { s with script := rest } with bad := markBad l (tick { s with script := rest }).bad } := by
  unfold step; rw [nextMove_script h]; rfl

theorem step_registerRead {p : PartId} {off len : Nat} (h : s.script = .registerRead p off len :: rest) :
    step s = .next (hostRead p off len (tick { s with script := rest })) := by
  unfold step; rw [nextMove_script h]; rfl

end

/-! ## The move of a sequencer -/

section
variable {q : SeqId} {s u : State} (hu : u = { s with cur := q })
include hu

theorem stepSeq_empty (busy : u.me.busy = false) : stepSeq q s = .next u := by
  subst hu
  exact if_pos busy

theorem stepSeq_stopped (busy : u.me.busy = true) (stopped : deviceStopped u = true) : stepSeq q s = .fault .deviceStopped := by
  subst hu
  unfold stepSeq
  dsimp only
  rw [if_neg (by simp [busy]), if_pos stopped]

variable (busy : u.me.busy = true) (on : deviceStopped u = false)
include busy on

theorem stepSeq_preempt (due : preemptDue u.me = true) : stepSeq q s = exec (.preemptionTaken q) u := by
  subst hu
  unfold stepSeq
  dsimp only
  rw [if_neg (by simp [busy]), if_neg (by simp [on]), if_pos due]

variable (due : preemptDue u.me = false)
include due

theorem stepSeq_again {h : Held} (waits : u.me.waiting = some h) : stepSeq q s = exec (instrOf h.word) u := by
  subst hu
  unfold stepSeq
  dsimp only
  rw [if_neg (by simp [busy]), if_neg (by simp [on]), if_neg (by simp [due]), waits]

variable (fresh : u.me.waiting = none)
include fresh

/-- The member that is far ahead, or whose cycle is frozen, idles. -/
theorem stepSeq_idles (stays : driftFull u q = true ∨ (u.core (coreOf q)).frozen = some u.cycle) : stepSeq q s = .next u := by
  subst hu
  unfold stepSeq
  dsimp only
  rw [if_neg (by simp [busy]), if_neg (by simp [on]), if_neg (by simp [due]), fresh]
  exact if_pos (by simpa using stays)

theorem stepSeq_issue (active : ¬ (driftFull u q = true ∨ (u.core (coreOf q)).frozen = some u.cycle)) :
    stepSeq q s = issue u := by
  subst hu
  unfold stepSeq
  dsimp only
  rw [if_neg (by simp [busy]), if_neg (by simp [on]), if_neg (by simp [due]), fresh]
  exact if_neg (by simpa using active)

end

/-! ## The issue of an instruction -/

theorem instrOf_ok {w : IWord} {i : Instr} (h : decode w = .ok i) : instrOf w = i := by
  unfold instrOf; rw [h]

theorem instrOf_error {w : IWord} {e : DecodeError} (h : decode w = .error e) : instrOf w = .illegalInstruction w := by
  unfold instrOf; rw [h]

/-- The member's next program counter is its lead's to decide (R158): the instruction is held back. -/
def heldBack (v : State) (i : Instr) : Prop :=
  aheadOfLead v v.cur = true ∧ (transfersControl i = true ∨ endsBody v.me = true)

section
variable {u x : State}

theorem issue_trap {c : Nat} {a : Word} (h : fetchWord u = .error (.trap c a) x) :
    issue u = exec (.instructionFetchFault c a) (dropTurns x.cur x) := by
  unfold issue; rw [h]

theorem issue_wait {k : HoldKind} (h : fetchWord u = .error (.wait k) x) : issue u = .next x := by
  unfold issue; rw [h]

theorem issue_fatal {p : PartId} {a : Word} (h : fetchWord u = .error (.fatal p a) x) :
    issue u = .next (discardPart p 1 a x) := by
  unfold issue; rw [h]

theorem issue_held {w : IWord} (h : fetchWord u = .ok w x) (held : heldBack (dropTurns x.cur x) (instrOf w)) :
    issue u = .next (dropTurns x.cur x) := by
  unfold issue
  rw [h]
  exact if_pos (by simpa [heldBack] using held)

theorem issue_runs {w : IWord} (h : fetchWord u = .ok w x) (free : ¬ heldBack (dropTurns x.cur x) (instrOf w)) :
    issue u = execChecked (instrOf w) w (dropTurns x.cur x) := by
  unfold issue
  rw [h]
  exact if_neg (by simpa [heldBack] using free)

end

section
variable {i : Instr} {w : IWord} {v : State}

/-- What consumes a bad register passes steps 1 to 4 of R35 and reads one. -/
theorem consumesBad_iff (t : Slot) :
    consumesBad i w t = true ↔ passesChecks i w t = true ∧ ∃ r ∈ t.bad, (regUse i).reads t r = true := by
  simp [consumesBad]

theorem execChecked_good (good : v.me.bad = []) : execChecked i w v = exec i v := if_pos good

theorem execChecked_consumes (c : consumesBad i w v.me = true) :
    execChecked i w v = .next (takeTrap causeData (BitVec.allOnes 64) v.me.pc v) := by
  have bad : v.me.bad ≠ [] := by
    obtain ⟨-, r, hr, -⟩ := (consumesBad_iff v.me).mp c
    exact List.ne_nil_of_mem hr
  unfold execChecked
  rw [if_neg bad, if_pos c, registerTrap]

theorem execChecked_notes (bad : v.me.bad ≠ []) (c : ¬ consumesBad i w v.me = true) :
    execChecked i w v = exec i (noteOverwrites i v) := by
  unfold execChecked
  rw [if_neg bad, if_neg c]

/-- A word that is no instruction consumes no register: it traps by itself (R34). -/
theorem execChecked_illegal : execChecked (.illegalInstruction w) w v =
    exec (.illegalInstruction w) (if v.me.bad = [] then v else noteOverwrites (.illegalInstruction w) v) := by
  split
  case isTrue good => exact execChecked_good good
  case isFalse bad => exact execChecked_notes bad fun c => Bool.false_ne_true ((consumesBad_iff v.me).mp c).1

end

section
variable {u x : State} {w : IWord} (h : fetchWord u = .ok w x)
include h

/-- A word that decodes: its instruction is held back, runs, or traps by the bad register that it reads. -/
theorem issue_decoded {i : Instr} (hi : decode w = .ok i) :
    let v := dropTurns x.cur x
    let consumes := ∃ r ∈ v.me.bad, (regUse i).reads v.me r = true
    (heldBack v i → issue u = .next v)
    ∧ (¬ heldBack v i → v.me.bad = [] → issue u = exec i v)
    ∧ (¬ heldBack v i → passesChecks i w v.me = true → consumes →
        issue u = .next (takeTrap causeData (BitVec.allOnes 64) v.me.pc v))
    ∧ (¬ heldBack v i → v.me.bad ≠ [] → passesChecks i w v.me = false ∨ ¬ consumes → issue u = exec i (noteOverwrites i v)) := by
  obtain rfl := instrOf_ok hi
  intro v consumes
  refine ⟨issue_held h, fun free good => ?_, fun free passes reads => ?_, fun free bad spared => ?_⟩
  · rw [issue_runs h free, execChecked_good good]
  · rw [issue_runs h free, execChecked_consumes ((consumesBad_iff v.me).mpr ⟨passes, reads⟩)]
  · have c : ¬ consumesBad (instrOf w) w v.me = true := by
      rw [consumesBad_iff]
      rintro ⟨passes, reads⟩
      exact spared.elim (fun fails => Bool.false_ne_true (fails.symm.trans passes)) (fun none => none reads)
    rw [issue_runs h free, execChecked_notes bad c]

theorem issue_undecoded {e : DecodeError} (he : decode w = .error e) :
    let v := dropTurns x.cur x
    ¬ heldBack v (.illegalInstruction w) →
      issue u = exec (.illegalInstruction w) (if v.me.bad = [] then v else noteOverwrites (.illegalInstruction w) v) := by
  intro v free
  rw [← instrOf_error he] at free
  rw [issue_runs h free, instrOf_error he, execChecked_illegal]

end

/-! ## The fetch of a word -/

/-- The number of a concatenation. -/
theorem toNat_append_add {n m : Nat} (x : BitVec n) (y : BitVec m) : (x ++ y).toNat = 2 ^ m * x.toNat + y.toNat := by
  rw [BitVec.toNat_append, Nat.shiftLeft_eq, Nat.mul_comm, Nat.two_pow_add_eq_or_of_lt y.isLt]

/-- A word is the number of its bytes, the lowest first. -/
theorem wordOfBytes_eq (b0 b1 b2 b3 : Byte) : BitVec.ofNat 32 (natOfBytes [b0, b1, b2, b3]) = wordOfBytes b0 b1 b2 b3 := by
  apply BitVec.eq_of_toNat_eq
  unfold wordOfBytes
  simp only [natOfBytes, BitVec.toNat_ofNat, toNat_append_add]
  omega

theorem fetchWord_delivered {u : State} {w : IWord} (h : deliveredWord u = some w) : fetchWord u = .ok w u := by
  unfold fetchWord; rw [h]

section
variable {u v : State} {l : Loc} {pa : Nat}

/-- A word that the front end has not delivered is fetched through a cache, and delivered. -/
theorem fetchWord_cached {w : IWord} {y : State} (none : deliveredWord u = none) (hl : translate u.agent .fetch u.me.pc u = .ok l v)
    (place : l.place = .phys pa) (h : cachedFetch pa u.me.pc v = .ok w y) : fetchWord u = .ok w (deliver w y) := by
  unfold fetchWord
  rw [none]
  dsimp only
  rw [bind_run, hl]
  dsimp only
  rw [place]
  dsimp only
  rw [bind_run, h]
  rfl

end

/-- The words that a fetch keeps change neither slots nor memory. -/
theorem keepFetched_same (pa : Nat) (w : IWord) (s : State) :
    (keepFetched pa w s).slots = s.slots ∧ (keepFetched pa w s).mem = s.mem := by
  unfold keepFetched
  split <;> exact ⟨rfl, rfl⟩

theorem deliver_same (w : IWord) (s : State) : (deliver w s).slots = s.slots ∧ (deliver w s).mem = s.mem := by
  unfold deliver
  split <;> exact ⟨rfl, rfl⟩

section
variable {v x : State} {pa : Nat} {pc : Word} {bs : List Byte}

/-- The fetch takes memory's word where the cache holds none. -/
theorem cachedFetch_memory (old : (fetchCache (settleLine v.agent pa 4 v)).find? (fun e => e.1 == pa) = none)
    (h : homeRead (settleLine v.agent pa 4 v).agent.writer pa 4 pc (settleLine v.agent pa 4 v) = .ok bs x) :
    cachedFetch pa pc v = .ok (BitVec.ofNat 32 (natOfBytes bs)) (keepFetched pa (BitVec.ofNat 32 (natOfBytes bs)) x) := by
  unfold cachedFetch
  dsimp only
  rw [old, h]

/-- Where the cache holds a word, the fetch takes that one or memory's. -/
theorem cachedFetch_old {e : Nat × IWord} (old : (fetchCache (settleLine v.agent pa 4 v)).find? (fun e => e.1 == pa) = some e)
    (h : homeRead (settleLine v.agent pa 4 v).agent.writer pa 4 pc (settleLine v.agent pa 4 v) = .ok bs x) :
    ∃ y, cachedFetch pa pc v = .ok (BitVec.ofNat 32 (natOfBytes bs)) y ∨ cachedFetch pa pc v = .ok e.2 y := by
  unfold cachedFetch
  dsimp only
  rw [old, h]
  split
  case h_1 heq _ =>
    cases heq
    exact ⟨_, .inr rfl⟩
  case h_2 => exact ⟨_, .inl rfl⟩

end

section
variable {u v x : State} {l : Loc} {pa : Nat} {b0 b1 b2 b3 : Byte} (front : deliveredWord u = none)
  (hl : translate u.agent .fetch u.me.pc u = .ok l v) (place : l.place = .phys pa)
  (h : homeRead (settleLine v.agent pa 4 v).agent.writer pa 4 u.me.pc (settleLine v.agent pa 4 v) = .ok [b0, b1, b2, b3] x)
include front hl place h

theorem fetchWord_memory (old : ((fetchCache (settleLine v.agent pa 4 v)).find? fun e => e.1 == pa).map (·.2) = none) :
    ∃ y, fetchWord u = .ok (wordOfBytes b0 b1 b2 b3) y ∧ y.slots = x.slots ∧ y.mem = x.mem := by
  have hw := fetchWord_cached front hl place (cachedFetch_memory (Option.map_eq_none_iff.mp old) h)
  rw [wordOfBytes_eq] at hw
  exact ⟨_, hw, (deliver_same _ _).1.trans (keepFetched_same _ _ _).1, (deliver_same _ _).2.trans (keepFetched_same _ _ _).2⟩

theorem fetchWord_either {w : IWord}
    (old : ((fetchCache (settleLine v.agent pa 4 v)).find? fun e => e.1 == pa).map (·.2) = some w) :
    ∃ y, fetchWord u = .ok (wordOfBytes b0 b1 b2 b3) y ∨ fetchWord u = .ok w y := by
  obtain ⟨e, he, rfl⟩ := Option.map_eq_some_iff.mp old
  obtain ⟨y, memory | cache⟩ := cachedFetch_old he h
  · rw [wordOfBytes_eq] at memory
    exact ⟨_, .inl (fetchWord_cached front hl place memory)⟩
  · exact ⟨_, .inr (fetchWord_cached front hl place cache)⟩

end

/-! ## Registers that are struck, and that the host reads -/

theorem strikeRegister_eq (q : SeqId) (r : BadReg) (s : State) : strikeRegister q r s = if badRegExists r = true
    then mapSlot q (fun t => { t with bad := if r ∈ t.bad then t.bad else t.bad ++ [r] }) s else s := by
  simp [strikeRegister]

theorem readAnswered_iff (s : State) (p : PartId) (off : Nat) : readAnswered s p off = true ↔
    s.bstat.toNat % 16 = 1 ∨ (s.bstat.toNat % 16 = 2 ∧ regAt p (off / 8 * 8) = some .bstat) := by
  simp [readAnswered, Word.field]

/-! ## The statement -/

/-- Settles O53: the cases of the step, of the sequencer's move, of the issue, and of the fetch. -/
theorem stepRunsDecoded : Obligations.StepRunsDecoded := by
  unfold Obligations.StepRunsDecoded
  intro s rest passed now
  have time := rest_passTime passed { s with script := rest, ticks := s.ticks + 1 }
  refine ⟨time.cycle, time.script, time.ticks, fun h => passTime_quiet passed h, ?_, ?_, ?_, fun l h => step_lineError h, ?_⟩
  · intro q hs u m ready idles runs holds
    have seq : step s = stepSeq q now := step_seq hs
    have issues (h : runs) : step s = issue u := by
      obtain ⟨⟨busy, on, due⟩, fresh, active⟩ := h
      exact seq.trans (stepSeq_issue rfl busy on due fresh active)
    refine ⟨fun busy => seq.trans (stepSeq_empty rfl busy), fun busy off => seq.trans (stepSeq_stopped rfl busy off),
      fun busy on due => seq.trans (stepSeq_preempt rfl busy on due), ?_, ?_, ?_, ?_, ?_, ?_, ?_,
      fun w => fetchWord_delivered, ?_⟩
    · rintro h i ⟨busy, on, due⟩ waits hi
      rw [seq, stepSeq_again rfl busy on due waits, instrOf_ok hi]
    · rintro ⟨busy, on, due⟩ fresh stays
      exact seq.trans (stepSeq_idles rfl busy on due fresh stays)
    · intro w x i hr hw hi
      rw [issues hr]
      exact issue_decoded hw hi
    · intro w x e hr hw he
      rw [issues hr]
      exact issue_undecoded hw he
    · exact fun c a x hr hw => (issues hr).trans (issue_trap hw)
    · exact fun k x hr hw => (issues hr).trans (issue_wait hw)
    · exact fun p a x hr hw => (issues hr).trans (issue_fatal hw)
    · intro l v pa b0 b1 b2 b3 x front hl place z hx old
      exact ⟨fetchWord_memory front hl place hx, fun w => fetchWord_either front hl place hx⟩
  · intro i hs
    rw [step_event hs]
    exact ⟨fun h => if_pos h, fun h => if_neg fun e => Bool.false_ne_true (h.symm.trans e)⟩
  · intro q r hs
    rw [step_registerError hs, strikeRegister_eq]
    rfl
  · intro p off len hs state answered
    rw [step_registerRead hs]
    have iff := readAnswered_iff now p off
    exact ⟨fun h => congrArg _ (if_pos (iff.mpr h)), fun h => congrArg _ (if_neg fun e => h (iff.mp e))⟩

end Sys2Proof.Laws

/-! SUPPORT. A word of the vector loads goes to their decoder (R40). An `example` is elaborated at once, where a theorem's proof runs
beside the others: so Lean derives the equation of `decode` here once, before the theorems above that need it (`decode_alu` and the
others) all wait for it together, each in a thread with a stack of its own, which takes a compile of the whole text past its memory. -/

namespace Sys2Proof.Laws

open Sys2Proof

example (f : BitVec 11) (c b a : Reg) : decode (pack f c b a 40#6) = decodeVload (pack f c b a 40#6) := by
  simp only [decode, pack_fields]
  rfl

end Sys2Proof.Laws

/-! SUPPORT. Conversions and block scaling (R72, R116, R117): they are element-wise instructions, whose words, classes and operands
are all that tells them apart. -/

namespace Sys2Proof.Laws

open Sys2Proof Sys2Proof.Machine

/-- The signed value of the low bits of a number. -/
theorem sextNat_eq_toInt (n v : Nat) : sextNat n v = (BitVec.ofNat n v).toInt := by
  unfold sextNat
  rw [BitVec.toInt_eq_toNat_cond, BitVec.toNat_ofNat]
  have half : v % 2 ^ n < 2 ^ (n - 1) ↔ 2 * (v % 2 ^ n) < 2 ^ n := by
    cases n with
    | zero => simp
    | succ n => rw [Nat.pow_succ, Nat.add_sub_cancel]; omega
  simp only [half]
  norm_cast

/-- The formats of the block-scaled conversions, as R117 lists them. -/
theorem clsMx_eq (x : Fmt) (w : Nat) : clsMx x w = (x == .e4m3 || x == .e5m2 || x == .e3m2 || x == .e2m3 || x == .e2m1) := by
  cases x <;> rfl

theorem clsInt_eq (x : Fmt) (w : Nat) : clsInt x w = (x == .int || x == .uint) := by
  cases x <;> rfl

section

variable (i : Instr) (s : State) {k : KReg} {vd vs1 : Reg} {f5 : Nat}

/-- A conversion (R116) is an element-wise instruction with one source, whose elements have a width of their own. -/
theorem vconvert_elementwise {src : BitVec 5} {sw : Nat} {ok : Slot → Bool} (val : Slot → Nat → FVal) (mode : Slot → Nat → Rnd)
    (hi : exec i s = vconvert (wordVM f5 0 k src vs1 vd 0x24) k vd vs1 sw ok val mode s)
    (hw : encode i = some (pack (BitVec.ofNat 5 f5 ++ 0#3 ++ k) src vs1 vd 36#6)) :
    elementwise i s (ok s.me) [{ r := vs1, quarters := 4 * sw }, s.me.dst vd] k vd s.me.ew s.me.vl s.me.vlmax 1 fun e =>
      convert (numFmtOf s.me.fmt s.me.ew) (mode s.me e) s.me.ftz (val s.me (s.me.read { r := vs1, quarters := 4 * sw } sw e)) := by
  refine elementwise_run (cls := clsAny) (os := fun t => [{ r := vs1, quarters := 4 * sw }, t.dst vd])
    hi (hw.trans (congrArg some (wordVM_pack ..).symm)) rfl ?_
  simp [Slot.dst]

/-- Block scaling (R117) is an element-wise instruction of the formats that take a scale. -/
theorem scaled_elementwise {os : Slot → List VOp} {vs2 : Reg} {g : Unit → M Flow} {dw : Nat} {f : Nat → FRes}
    (hi : exec i s = run (wordVM f5 0 k vs2 vs1 vd 0x24)
      (vecChecks (wordVM f5 0 k vs2 vs1 vd 0x24) clsMx os (fun _ => true) >>= g) s)
    (hw : encode i = some (pack (BitVec.ofNat 5 f5 ++ 0#3 ++ k) vs2 vs1 vd 36#6))
    (hm : g () s = elementLoop (os s.me) k vd dw s.me.vl s.me.vlmax 1 f s)
    (one : ∀ a ∈ os s.me, ∀ b ∈ os s.me, a.dest = true → b.dest = true → a.r = b.r) :
    elementwise i s (s.me.fmt == .e4m3 || s.me.fmt == .e5m2 || s.me.fmt == .e3m2 || s.me.fmt == .e2m3 || s.me.fmt == .e2m1)
      (os s.me) k vd dw s.me.vl s.me.vlmax 1 f := by
  have run := elementwise_run hi (hw.trans (congrArg some (wordVM_pack ..).symm)) hm one
  rwa [clsMx_eq, Bool.and_true] at run

end

/-- Settles O15: each conversion is `vconvert` with its own reading of the source and its own rounding, and the block-scaled ones
are the loop with two sources. -/
theorem vectorConversions : Obligations.VectorConversions := by
  unfold Obligations.VectorConversions
  intro s k vd vs1 vs2 src iw t w fm isMx from' fw
  refine ⟨?vcvt, ?vcvti, ?vcvtu, ?vcvtsr, ?vquant, ?vdequant⟩
  case vcvt =>
    exact vconvert_elementwise (.vcvt k vd vs1 src) s (fun t => fmtValue src.toFmt fw t.ftz) (fun t _ => t.frmMode) rfl rfl
  case vcvti =>
    have signed (a : Nat) : fvalOfInt (BitVec.ofNat iw.bits a).toInt = fvalOfInt (intOf true iw.bits a) :=
      congrArg fvalOfInt (sextNat_eq_toInt ..).symm
    simp only [from', signed]
    exact vconvert_elementwise (.vcvti k vd vs1 iw) s (fun _ a => fvalOfInt (intOf true iw.bits a)) (fun t _ => t.frmMode) rfl rfl
  case vcvtu =>
    exact vconvert_elementwise (.vcvtu k vd vs1 iw) s (fun _ a => fvalOfInt (intOf false iw.bits a)) (fun t _ => t.frmMode) rfl rfl
  case vcvtsr =>
    rw [← clsInt_eq t.fmt t.ew]
    exact vconvert_elementwise (.vcvtsr k vd vs1 src) s (fun t => fmtValue src.toFmt fw t.ftz)
      (fun t e => .sr (srDraw t.srseed e)) rfl rfl
  case vquant =>
    exact scaled_elementwise (.vquant k vd vs1 vs2) s (os := fun t => [{ r := vs1, quarters := 128 }, { r := vs2, quarters := 1 }, t.dst vd])
      rfl rfl rfl (by simp [Slot.dst])
  case vdequant =>
    refine scaled_elementwise (.vdequant k vd vs1 vs2) s (os := fun t =>
      [t.opw vs1, { r := vs2, quarters := 1 }, { r := vd, quarters := 128, dest := true }]) rfl rfl ?_ (by simp [Slot.opw])
    simp only [Bool.or_eq_true, decide_eq_true_eq]
    rfl

end Sys2Proof.Laws

/-! SUPPORT. What vector loads and stores share (R64, R120 to R123): the passes over elements change no slot; a pass that stops has
done what stands before the stop; and which elements of a range that is. -/

namespace Sys2Proof.Laws

open Sys2Proof Sys2Proof.Machine

/-! ## The passes change no slot -/

/-- An action that leaves the slots, however it ends. -/
abbrev Leaves {α : Type} (m : M α) : Prop := Keeps m ∧ KeepsStopped m

namespace Leaves

variable {α β : Type}

theorem done {m : M α} (h : Leaves m) : Keeps m := h.1
theorem stopped {m : M α} (h : Leaves m) : KeepsStopped m := h.2
theorem pure (a : α) : Leaves (pure a : M α) := ⟨Keeps.pure a, KeepsStopped.pure a⟩
theorem getS : Leaves getS := ⟨Keeps.getS, KeepsStopped.getS⟩
theorem check (b : Bool) (c : Nat) (v : Word) : Leaves (check b c v) := ⟨Keeps.check b c v, KeepsStopped.check b c v⟩

theorem bind {m : M α} {f : α → M β} (h : Leaves m) (g : ∀ a, Leaves (f a)) : Leaves (m >>= f) :=
  ⟨h.done.bind fun a => (g a).done, KeepsStopped.bind h.done h.stopped fun a => (g a).stopped⟩

theorem collect (l : List α) {f : α → M β} (h : ∀ a, Leaves (f a)) : Leaves (collect l f) :=
  ⟨Keeps.collect l fun a => (h a).done, KeepsStopped.collect l (fun a => (h a).done) fun a => (h a).stopped⟩

theorem translate (a : Agent) (k : AccKind) (va : Word) : Leaves (translate a k va) :=
  ⟨Keeps.translate a k va, KeepsStopped.translate a k va⟩

theorem readBytes (a : Agent) (sc : Scope) (l : Loc) (n : Nat) (va : Word) : Leaves (readBytes a sc l n va) :=
  ⟨Keeps.readBytes a sc l n va, KeepsStopped.readBytes a sc l n va⟩

theorem readLoc (a : Agent) (sc : Scope) (l : Loc) (n : Nat) (va : Word) : Leaves (readLoc a sc l n va) :=
  (readBytes a sc l n va).bind fun _ => pure _

theorem canWrite (l : Loc) (va : Word) : Leaves (canWrite l va) := by
  refine ⟨Keeps.canWrite l va, fun s e t h => ?_⟩
  unfold Machine.canWrite at h
  split at h
  · cases h
  · split at h
    · split at h <;> cases h
      exact SameSlots.refl s
    · split at h <;> cases h
      exact SameSlots.refl s
    · cases h

/-- A look at what a read would find leaves nothing of the read behind. -/
theorem peek (m : M (List Byte)) : Leaves (peek m) := by
  constructor
  all_goals
    intro s x t h
    unfold Machine.peek at h
    split at h <;> cases h
    exact SameSlots.refl s

/-- A trap that is kept for later changes no slot either. -/
theorem tryM {m : M α} (h : Leaves m) : Leaves (tryM m) := by
  constructor
  all_goals
    intro s x t e
    unfold Machine.tryM at e
    split at e <;> cases e
  · rename_i run; exact h.done _ _ _ run
  · rename_i run; exact h.stopped _ _ _ run
  · rename_i run; exact h.stopped _ _ _ run

theorem untilTrap (l : List α) {f : α → M β} (h : ∀ a, Leaves (f a)) : Leaves (untilTrap l f) := by
  induction l with
  | nil => exact pure _
  | cons a r ih =>
    unfold Machine.untilTrap
    refine (h a).tryM.bind fun x => ?_
    cases x
    · exact pure _
    · exact ih.bind fun _ => pure _

theorem planElem (a : Agent) (k : AccKind) (sc : Scope) (far : Bool) (e : Nat) (ps : List Piece) :
    Leaves (planElem a k sc far e ps) := by
  refine (collect _ fun p => ?_).bind fun _ => pure _
  refine (check _ _ _).bind fun _ => (translate _ _ _).bind fun l => (check _ _ _).bind fun _ => (canWrite _ _).bind fun _ => ?_
  dsimp only
  split
  · exact (peek _).bind fun _ => pure _
  · exact pure _

theorem plan (k : AccKind) (sc : Scope) (far : Bool) (es : List (Nat × List Piece)) : Leaves (plan k sc far es) :=
  getS.bind fun _ => (untilTrap _ fun _ => planElem _ _ _ _ _ _).bind fun _ => pure _

theorem readPlanned (sc : Scope) (x : Planned) : Leaves (readPlanned sc x) :=
  getS.bind fun _ => (collect _ fun _ => (readLoc _ _ _ _ _).bind fun _ => pure _).bind fun _ => pure _

theorem readAll (sc : Scope) (xs : List Planned) (stop : Option (Nat × Nat × Word)) : Leaves (readAll sc xs stop) :=
  (untilTrap _ fun _ => (readPlanned _ _).bind fun _ => pure _).bind fun _ => pure _

end Leaves

theorem Keeps.writePlanned (sc : Scope) (v : Nat) (x : Planned) : Keeps (writePlanned sc v x) := by
  refine Keeps.forList _ fun p => Keeps.getS.bind fun s => ?_
  dsimp only
  split
  · exact Keeps.writeLoc _ _ _ _ _ _
  · split
    · exact Keeps.pure _
    · exact (Keeps.rmwLoc _ _ _ _ _ _).bind fun _ => Keeps.pure _

/-! ## How far a pass comes -/

/-- A pass that goes through a list up to the first trap: `name` says of a result which entry it belongs to, and `key` of an
entry. What is left of the list begins with the entry that trapped, and is empty where none did. -/
theorem untilTrap_prefix {α β γ : Type} {key : α → γ} {name : β → γ} {f : α → M β}
    (own : ∀ a s b t, f a s = .ok b t → name b = key a) {l : List α} {s u : State} {bs : List β} {stop : Option (α × Nat × Word)}
    (h : untilTrap l f s = .ok (bs, stop) u) :
    ∃ rest, l.map key = bs.map name ++ rest ∧ rest.head? = stop.map fun x => key x.1 := by
  induction l generalizing s bs with
  | nil => cases h; exact ⟨[], rfl, rfl⟩
  | cons a r ih =>
    unfold untilTrap at h
    rw [bind_run] at h
    unfold Machine.tryM at h
    cases hf : f a s with
    | ok b t =>
      rw [hf] at h
      dsimp only at h
      rw [bind_run] at h
      split at h
      · rename_i x t' hr
        cases h
        obtain ⟨rest, e, first⟩ := ih hr
        exact ⟨rest, by rw [List.map_cons, e, List.map_cons, own a s b t hf]; rfl, first⟩
      · cases h
    | error e t =>
      rw [hf] at h
      cases e with
      | trap c v => cases h; exact ⟨(a :: r).map key, rfl, rfl⟩
      | wait k => cases h
      | fatal p v => cases h

theorem planElem_index {a : Agent} {k : AccKind} {sc : Scope} {far : Bool} {e : Nat} {ps : List Piece} {s t : State} {x : Planned}
    (h : planElem a k sc far e ps s = .ok x t) : x.e = e := by
  unfold planElem at h
  rw [bind_run] at h
  split at h <;> cases h
  rfl

/-- Planning has come to the element that stopped it, or to the end. -/
theorem plan_prefix {k : AccKind} {sc : Scope} {far : Bool} {es : List (Nat × List Piece)} {s u : State} {xs : List Planned}
    {stop : Option (Nat × Nat × Word)} (h : plan k sc far es s = .ok (xs, stop) u) :
    ∃ rest, es.map (·.1) = xs.map (·.e) ++ rest ∧ rest.head? = stop.map (·.1) := by
  unfold plan at h
  rw [bind_run, getS_run] at h
  dsimp only at h
  rw [bind_run] at h
  split at h
  · rename_i r t hr
    obtain ⟨ok, st⟩ := r
    cases h
    obtain ⟨rest, e, first⟩ := untilTrap_prefix (key := (·.1)) (name := (·.e)) (fun _ _ _ _ => planElem_index) hr
    exact ⟨rest, e, by rw [first, Option.map_map]; rfl⟩
  · cases h

/-- Planning and reading together have come to the first element that either could not pass, or to the end. -/
theorem readAll_prefix {k : AccKind} {sc : Scope} {far : Bool} {es : List (Nat × List Piece)} {s u z : State} {xs : List Planned}
    {stop1 stop : Option (Nat × Nat × Word)} {vals : List (Nat × Nat)} (hp : plan k sc far es s = .ok (xs, stop1) u)
    (hr : readAll sc xs stop1 u = .ok (vals, stop) z) :
    ∃ rest, es.map (·.1) = vals.map (·.1) ++ rest ∧ rest.head? = stop.map (·.1) := by
  obtain ⟨rest1, e1, first1⟩ := plan_prefix hp
  unfold readAll at hr
  rw [bind_run] at hr
  split at hr
  · rename_i r t ht
    obtain ⟨vs, stop2⟩ := r
    cases hr
    have own (x : Planned) (s : State) (b : Nat × Nat) (t : State)
        (h : (do let n ← readPlanned sc x; pure (x.e, n) : M (Nat × Nat)) s = .ok b t) : b.1 = x.e := by
      rw [bind_run] at h
      split at h <;> cases h
      rfl
    obtain ⟨rest2, e2, first2⟩ := untilTrap_prefix (key := Planned.e) (name := Prod.fst) own ht
    refine ⟨rest2 ++ rest1, by rw [e1, e2, List.append_assoc], ?_⟩
    cases stop2 with
    | none =>
      rw [Option.map_none, List.head?_eq_none_iff] at first2
      rw [first2, List.nil_append, first1]
      rfl
    | some y => rw [List.head?_append, first2]; rfl
  · cases hr

theorem elemRange_eq_range' (lo hi : Nat) : elemRange lo hi = List.range' lo (hi - lo) := by
  rw [elemRange, List.range_eq_range', List.map_add_range', Nat.add_zero]

theorem elemRange_split {lo e hi : Nat} (h1 : lo ≤ e) (h2 : e < hi) : elemRange lo hi = elemRange lo e ++ e :: elemRange (e + 1) hi := by
  have length : hi - lo = (e - lo) + (hi - (e + 1) + 1) := by omega
  have place : lo + 1 * (e - lo) = e := by omega
  simp only [elemRange_eq_range']
  rw [← List.range'_succ, length, ← List.range'_append, place]

/-- Of the active elements of a range in index order, those before element `e` are the active ones below it. -/
theorem active_prefix {act : Nat → Bool} {lo hi : Nat} {done rest : List Nat} {stop : Option Nat}
    (h : (elemRange lo hi).filter act = done ++ rest) (first : rest.head? = stop) :
    done = (elemRange lo (stop.getD hi)).filter act ∧ ∀ e, stop = some e → lo ≤ e ∧ e < hi ∧ act e = true := by
  subst first
  cases rest with
  | nil =>
    rw [List.append_nil] at h
    exact ⟨h.symm, by rintro e ⟨⟩⟩
  | cons e rest =>
    have mem : e ∈ (elemRange lo hi).filter act := by rw [h]; simp
    rw [List.mem_filter, mem_elemRange] at mem
    obtain ⟨⟨le, lt⟩, on⟩ := mem
    rw [elemRange_split le lt, List.filter_append, List.filter_cons_of_pos on] at h
    have below : e ∉ (elemRange lo e).filter act := by simp [mem_elemRange]
    have above : e ∉ (elemRange (e + 1) hi).filter act := by simp [mem_elemRange]
    refine ⟨((List.append_cons_inj_of_notMem below above).mp h).1.symm, ?_⟩
    rintro _ ⟨⟩
    exact ⟨le, lt, on⟩

/-- The element at which a pass over the elements of an instruction ends: at its stop, or past the last one. -/
def reached (t : Slot) : Option (Nat × Nat × Word) → Nat
  | some (e, _) => e
  | none => t.vl

/-- A pass over the active elements of an instruction has done those below the element that it has reached, and where it stops
there, that is one of them. -/
theorem reached_prefix {t : Slot} {k : KReg} {m : VAddr} {base : Word} {done rest : List Nat} {stop : Option (Nat × Nat × Word)}
    (h : (elemPieces t k m base t.ew).map (·.1) = done ++ rest) (first : rest.head? = stop.map (·.1)) :
    done = (elemRange t.vstart (reached t stop)).filter (t.kbit k)
      ∧ ∀ e c a, stop = some (e, c, a) → e < t.vl ∧ t.kbit k e = true := by
  have active : (elemPieces t k m base t.ew).map (·.1) = (elemRange t.vstart t.vl).filter (t.kbit k) := by
    unfold elemPieces Slot.activeElems
    rw [List.map_map]
    exact List.map_id _
  obtain ⟨below, at'⟩ := active_prefix (active.symm.trans h) first
  refine ⟨?_, ?_⟩
  · cases stop <;> exact below
  · rintro e c a rfl
    exact (at' e rfl).2

end Sys2Proof.Laws

/-! SUPPORT. How a vector instruction that accesses memory begins, ends and stops: beside what tracing and sampling change, each
changes only its slot (R24, R27, R320, R340, R344). -/

namespace Sys2Proof.Laws

open Sys2Proof Sys2Proof.Machine

/-! ## What tracing and sampling change -/

/-- State `u` is `a` but for the records of a core's trace unit and the sampling counter of the running slot. -/
abbrev Counted (a u : State) : Prop :=
  Quiet a u ∧ OthersStay a u ∧ ∃ x y, u.me = { a.me with smpctl := x, smpcnt := y }

namespace Counted

variable {a u v : State}

theorem quiet (h : Counted a u) : Quiet a u := h.1
theorem others (h : Counted a u) : OthersStay a u := h.2.1
theorem me (h : Counted a u) : ∃ x y, u.me = { a.me with smpctl := x, smpcnt := y } := h.2.2

theorem trans (h : Counted a u) (g : Counted u v) : Counted a v := by
  obtain ⟨_, _, hm⟩ := h.me
  obtain ⟨x, y, gm⟩ := g.me
  refine ⟨h.quiet.trans g.quiet, fun q hq hw => ?_, x, y, by rw [gm, hm]⟩
  have same := h.others q hq hw
  rw [g.others q (by rw [h.quiet.cur]; exact hq) (by rw [same]; exact hw), same]

/-- A change of the running slot that does not look at the sampling counter may come before. -/
theorem mapMe {f : Slot → Slot} (h : Counted a u)
    (blind : ∀ (t : Slot) x y, f { t with smpctl := x, smpcnt := y } = { f t with smpctl := x, smpcnt := y }) :
    Counted (mapMe f a) (mapMe f u) := by
  obtain ⟨x, y, hm⟩ := h.me
  have fm : f u.me = { f a.me with smpctl := x, smpcnt := y } := by rw [hm, blind]
  refine ⟨quiet_mapMe_both _ _ h.quiet ?_, fun q hq hw => ?_, x, y, by rw [me_mapMe, me_mapMe, fm]⟩
  · rw [fm]; rfl
  · have other : q ≠ a.cur := hq
    rw [slot_mapMe_ne _ _ _ other] at hw ⊢
    rw [slot_mapMe_ne _ _ _ (by rw [h.quiet.cur]; exact other)]
    exact h.others q other hw

theorem frame (h : Counted a u) : RetireFrame a u := ⟨h.quiet.slots, h.others, h.quiet.cores, h.quiet.clusters, h.quiet.parts, h.quiet.rest⟩

end Counted

theorem counted_countEvent (e n : Nat) (pc : Word) (s : State) : Counted s (countEvent s.cur e n pc s) :=
  ⟨quiet_countEventAs _ _ _ _ _ _, fun q hq _ => slot_countEventAs_ne _ q _ _ _ _ _ hq, countEventAs_me e n 0 pc s⟩

theorem traceVec_counted (kind pipe : Nat) (q2 : Word) (s : State) : ∃ u, traceVec kind pipe q2 s = .ok () u ∧ Counted s u := by
  obtain ⟨u, run, q, slots⟩ := traceVec_run kind pipe q2 s
  exact ⟨u, run, q, fun r _ _ => slot_of_slots slots r, s.me.smpctl, s.me.smpcnt, me_of_slots slots q.cur⟩

/-- The event of a load that missed (R344). -/
theorem counted_endLoad (s : State) : Counted s (endLoad s) := by
  unfold endLoad
  split
  · exact counted_countEvent 4 1 s.me.pc s
  · exact ⟨Quiet.refl s, fun _ _ _ => rfl, s.me.smpctl, s.me.smpcnt, rfl⟩

/-! ## The beginning, the end and the stop -/

theorem beginVec_counted (mem : Bool) (s : State) : ∃ u, beginVec mem s = .ok () u ∧ Counted (mapMe (vectorBegun s.ticks) s) u
    ∧ u.me = vectorBegun s.ticks s.me := by
  obtain ⟨u, run, q, slots⟩ := beginVec_run mem s
  have me := me_of_slots slots q.cur
  refine ⟨u, run, ⟨q, fun r _ _ => slot_of_slots slots r, ?_⟩, by rw [me, me_mapMe]⟩
  exact ⟨(mapMe (vectorBegun s.ticks) s).me.smpctl, (mapMe (vectorBegun s.ticks) s).me.smpcnt, me⟩

/-- The slot of an instruction without stream operands that has gone through. -/
def memoryDone (writes : Bool) (t : Slot) : Slot := { vectorDone t with vstate := if writes then 3 else t.vstate }

/-- The slot of an instruction without stream operands that has stopped at `place`. -/
def memoryStopped (place : Nat) (t : Slot) : Slot := { t with vstart := place, vbegun := none, vstate := 3 }

theorem closeVec_counted (writes mem : Bool) (n : Nat) {s : State} (on : s.me.vstate ≠ 0) :
    ∃ u, closeVec writes mem [] n s = .ok () u ∧ Counted (mapMe (memoryDone writes) s) u := by
  obtain ⟨u, x, y, run, q, o, me⟩ := closeVec_run writes mem [] n s
  have fin : vecEnd writes [] s.me = memoryDone writes s.me := by
    cases writes
    · rfl
    · exact dirtyVec_eq (vectorDone s.me) on
  rw [mapMe_congr fin] at q o
  exact ⟨u, run, q, o, x, y, by rw [me, me_mapMe, fin]⟩

theorem stopVec_counted {α : Type} (mem : Bool) (n place c : Nat) (a : Word) {s : State} (on : s.me.vstate ≠ 0) :
    ∃ u, (stopVec mem [] n place c a : M α) s = .error (.trap c a) u ∧ Counted (mapMe (memoryStopped place) s) u := by
  obtain ⟨t, run, traced⟩ := traceVec_counted 1 (s.vpipe mem) (BitVec.ofNat 64 (1 <<< 40 + place <<< 20 + s.me.vl)) s
  have counted : Counted s (countEvent s.cur 2 n s.me.pc t) := by
    rw [← traced.quiet.cur]
    exact traced.trans (counted_countEvent 2 n s.me.pc t)
  refine ⟨_, ?_, counted.mapMe (f := memoryStopped place) fun _ _ _ => rfl⟩
  have still : (countEvent s.cur 2 n s.me.pc t).me.vstate ≠ 0 := by
    obtain ⟨x, y, me⟩ := counted.me
    rw [me]
    exact on
  unfold stopVec stopWith
  rw [bind_run, getS_run]
  dsimp only
  rw [bind_run, run]
  dsimp only
  rw [bind_run, modS_run]
  dsimp only
  rw [bind_run, modMe_run]
  dsimp only
  rw [trap_run]
  congr 1
  exact mapMe_congr (dirtyVec_eq { (countEvent s.cur 2 n s.me.pc t).me with vstart := place, vbegun := none } still)

/-! ## What becomes of the instruction -/

/-- An instruction that has gone through, and has left `u`. -/
theorem completesAs_counted {i : Instr} {s a u : State} (h : exec i s = .next (retire .next (turnsOver s u))) (c : Counted a u) :
    completesAs i s a := by
  obtain ⟨x, y, me⟩ := c.me
  refine ⟨_, h, retires_next c.quiet c.others ?_ ?_ ?_ ?_⟩
  all_goals rw [me]
  rfl

/-- An instruction without stream operands that has stopped, and has left `u`. -/
theorem stopsAt_counted {i : Instr} {s z u : State} {place c : Nat} {a : Word}
    (h : exec i s = .next (takeTrap c a s.me.pc (turnsOver s u))) (counted : Counted (mapMe (memoryStopped place) z) u)
    (streams : z.me.streams = s.me.streams) : stopsAt i s [] z place c a := by
  obtain ⟨x, y, me⟩ := counted.me
  have same : u.me.streams = z.me.streams := by rw [me, me_mapMe]; rfl
  refine ⟨u, h, ?_, fun r => ?_⟩
  · rw [mapMe_congr (g := memoryStopped place) (by rw [same]; rfl)]
    exact counted.frame
  · show u.me.binding r = s.me.binding r
    unfold Slot.binding
    rw [same, streams]

/-! ## The checks -/

/-- The checks of an instruction that `guardVec` guards and that has a limit of its own. -/
theorem guarded_run {α : Type} (w : IWord) (ok : Slot → Bool) (g : Slot → M α) (s : State) :
    (do
      guardVec w
      let t ← getMe
      check (ok t) causeOperand (w.zeroExtend 64)
      g t) s
    = if s.me.vstate = 0 then .error (.trap causeFirstUse (w.zeroExtend 64)) s
      else if s.me.vill = true then .error (.trap causeIllegal (w.zeroExtend 64)) s
      else if ok s.me = true then g s.me s
      else .error (.trap causeOperand (w.zeroExtend 64)) s := by
  rw [bind_run, guardVec_run]
  by_cases off : s.me.vstate = 0
  · rw [if_pos off, if_pos off]
  · rw [if_neg off, if_neg off]
    by_cases ill : s.me.vill = true
    · rw [if_pos ill, if_pos ill]
    · rw [if_neg ill, if_neg ill]
      dsimp only
      rw [bind_run, getMe_run]
      dsimp only
      rw [bind_run]
      by_cases pass : ok s.me = true
      · rw [if_pos pass, check_pass _ _ _ _ pass]
      · rw [if_neg pass, check_fail _ _ _ _ (by simpa using pass)]

end Sys2Proof.Laws

/-! SUPPORT. The vector loads of elements (R106, R120 to R122): their checks, and what they write of the elements that were read. -/

namespace Sys2Proof.Laws

open Sys2Proof Sys2Proof.Machine

/-! ## The elements written -/

/-- Two elements of a group share no bit, so that it does not matter which is written first. -/
theorem setElem_comm (t : Slot) (r w : Nat) {d e : Nat} (ne : d ≠ e) (a b : Nat) :
    (t.setElem r w d a).setElem r w e b = (t.setElem r w e b).setElem r w d a := by
  have lanes : ((t.setElem r w d a).setElem r w e b).lanes = ((t.setElem r w e b).setElem r w d a).lanes := by
    refine Vector.ext fun l hl => BitVec.eq_of_getLsbD_eq fun j _ => ?_
    have apart : ¬ (inElement t r w d l j ∧ inElement t r w e l j) := fun h => ne (inElement_unique h.1 h.2)
    have left := setElem_bit (t.setElem r w d a) r w e b ⟨l, hl⟩ j
    have right := setElem_bit (t.setElem r w e b) r w d a ⟨l, hl⟩ j
    rw [setElem_bit t, setElem_laneCount, setElem_slice] at left right
    refine left.trans (Eq.trans ?_ right.symm)
    by_cases inE : inElement t r w e l j
    · have notD := fun inD => apart ⟨inD, inE⟩
      unfold inElement at inE notD
      rw [if_pos inE, if_neg notD, if_pos inE]
    · unfold inElement at inE
      rw [if_neg inE, if_neg inE]
  exact congrArg (fun l => ({ t with lanes := l } : Slot)) lanes

/-- The pass of a load over the elements that its mask leaves out. -/
def zeroPass (act zero : Nat → Bool) (r w : Nat) (t : Slot) (e : Nat) : Slot :=
  if act e then t else if zero e then t.setElem r w e 0 else t

theorem zeroPasses_setElem (act zero : Nat → Bool) (r w a b : Nat) (es : List Nat) (h : a ∉ es) (t : Slot) :
    es.foldl (zeroPass act zero r w) (t.setElem r w a b) = (es.foldl (zeroPass act zero r w) t).setElem r w a b := by
  induction es generalizing t with
  | nil => rfl
  | cons e es ih =>
    rw [List.mem_cons, not_or] at h
    have step : zeroPass act zero r w (t.setElem r w a b) e = (zeroPass act zero r w t e).setElem r w a b := by
      unfold zeroPass
      split_ifs
      · rfl
      · exact setElem_comm t r w h.1 b 0
      · rfl
    rw [List.foldl_cons, step, ih h.2]
    rfl

/-- To zero the elements left out and then to write the others is one pass over all of them. -/
theorem zeroPasses_then_write (act zero : Nat → Bool) (r w : Nat) (f : Nat → Nat) (es : List Nat) (nd : es.Nodup) (t : Slot) :
    (es.filter act).foldl (fun t e => t.setElem r w e (f e)) (es.foldl (zeroPass act zero r w) t)
      = es.foldl (pass act zero r w fun e => ⟨f e, 0⟩) t := by
  induction es generalizing t with
  | nil => rfl
  | cons a es ih =>
    obtain ⟨fresh, nd⟩ := List.nodup_cons.mp nd
    rw [List.foldl_cons, List.foldl_cons]
    by_cases on : act a = true
    · have kept : zeroPass act zero r w t a = t := if_pos on
      have written : pass act zero r w (fun e => ⟨f e, 0⟩) t a = t.setElem r w a (f a) := by
        simp [pass, on, Slot.raise]
      rw [List.filter_cons_of_pos on, List.foldl_cons, kept, ← zeroPasses_setElem _ _ _ _ _ _ _ fresh, ih nd, written]
    · have same : pass act zero r w (fun e => ⟨f e, 0⟩) t a = zeroPass act zero r w t a := by
        simp [pass, zeroPass, on]
      rw [List.filter_cons_of_neg on, ih nd, same]

theorem lookup_of_mem {vals : List (Nat × Nat)} (nd : (vals.map (·.1)).Nodup) {x : Nat × Nat} (h : x ∈ vals) :
    vals.lookup x.1 = some x.2 := by
  induction vals with
  | nil => cases h
  | cons y vals ih =>
    obtain ⟨fresh, tail⟩ := List.nodup_cons.mp nd
    rcases List.mem_cons.mp h with rfl | h
    · exact List.lookup_cons_self
    · have ne : (x.1 == y.1) = false := by
        rw [beq_eq_false_iff_ne]
        intro same
        exact fresh (List.mem_map.mpr ⟨x, h, same⟩)
      rw [List.lookup_cons, ne]
      exact ih tail h

/-- Writing each value at its index is writing, at each index, the value that is looked up there. -/
theorem writes_lookup (r w : Nat) (vals : List (Nat × Nat)) (nd : (vals.map (·.1)).Nodup) (t : Slot) :
    vals.foldl (fun t x => t.setElem r w x.1 x.2) t
      = (vals.map (·.1)).foldl (fun t e => t.setElem r w e ((vals.lookup e).getD 0)) t := by
  rw [List.foldl_map]
  refine List.foldl_ext _ _ _ fun t x hx => ?_
  rw [lookup_of_mem nd hx]
  rfl

theorem pass_maskedToZero (t : Slot) (k : KReg) (r w : Nat) (f : Nat → FRes) :
    pass (t.kbit k) (fun _ => t.maskZero) r w f = pass (t.kbit k) (t.maskedToZero k) r w f := by
  funext t' e
  by_cases on : t.kbit k e = true
  · simp [pass, on]
  · simp [pass, Slot.maskedToZero, on]

/-- The elements that a load writes and zeroes: as the loop of R106, and where it stops, those below its stop and no tail. -/
def loadedElements (t : Slot) (k : KReg) : Option (Nat × Nat × Word) → Elements
  | none => .masked t k t.vl t.vlmax
  | some (e, _) => { Elements.masked t k e 0 with tail := 0 }

theorem loadedElements_d (t : Slot) (k : KReg) (stop : Option (Nat × Nat × Word)) : (loadedElements t k stop).d = reached t stop := by
  cases stop <;> rfl

/-- What `vload` writes of the values read by a slot `t`, in the slot `t'` that the instruction has come to. -/
def putLoaded (t : Slot) (k : KReg) (v : Reg) (vals : List (Nat × Nat)) (stop : Option (Nat × Nat × Word)) (t' : Slot) : Slot :=
  let masked := (elemRange t.vstart (reached t stop)).foldl (zeroPass (t.kbit k) (fun _ => t.maskZero) v.toNat t.ew) t'
  let written := vals.foldl (fun t' x => t'.setElem v.toNat t.ew x.1 x.2) masked
  if t.tailZero && stop.isNone then (elemRange t.vl t.vlmax).foldl (fun t' e => t'.setElem v.toNat t.ew e 0) written else written

/-- The result of a load for element `e`: the value read, without flags. -/
def loadResult (vals : List (Nat × Nat)) (e : Nat) : FRes := ⟨(vals.lookup e).getD 0, 0⟩

theorem loadResult_flags (x : Elements) (vals : List (Nat × Nat)) : x.flags (loadResult vals) = 0 := by
  simp [Elements.flags, loadResult]

/-- The values read are written as the loop of R106 writes its results. -/
theorem putLoaded_eq_looped {t t' : Slot} {k : KReg} {v : Reg} {vals : List (Nat × Nat)} {stop : Option (Nat × Nat × Word)}
    (tz : t'.tailZero = t.tailZero) (keys : vals.map (·.1) = (elemRange t.vstart (reached t stop)).filter (t.kbit k)) :
    putLoaded t k v vals stop t' = looped t' v t.ew (loadedElements t k stop) (loadResult vals) := by
  have nd : (vals.map (·.1)).Nodup := by rw [keys]; exact (nodup_elemRange _ _).filter _
  unfold putLoaded looped
  dsimp only
  rw [writes_lookup _ _ _ nd, keys, zeroPasses_then_write _ _ _ _ _ _ (nodup_elemRange _ _), pass_maskedToZero, tz, loadedElements_d]
  cases stop with
  | none => rw [Option.isNone_none, Bool.and_true]; rfl
  | some x =>
    rw [Option.isNone_some, Bool.and_false, if_neg Bool.false_ne_true]
    exact (ite_self _).symm

/-- What a load leaves of the registers of a slot whose instruction has begun: the elements written, and nothing else. -/
theorem putLoaded_begun {t : Slot} {k : KReg} {v : Reg} {vals : List (Nat × Nat)} {stop : Option (Nat × Nat × Word)} (n : Nat)
    (keys : vals.map (·.1) = (elemRange t.vstart (reached t stop)).filter (t.kbit k)) :
    ∃ lanes, writtenInto t lanes v t.ew (loadedElements t k stop) (loadResult vals)
      ∧ putLoaded t k v vals stop (vectorBegun n t) = { vectorBegun n t with lanes := lanes } := by
  have tz : (vectorBegun n t).tailZero = t.tailZero := by rw [vectorBegun_frame]; rfl
  obtain ⟨left, bits, others⟩ := looped_spec (vectorBegun n t) v t.ew (loadedElements t k stop) (loadResult vals)
  refine ⟨_, writtenInto_begun n ⟨bits, others⟩, ?_⟩
  rw [loadResult_flags, show ∀ g : FFlags, g ||| 0 = g from fun g => BitVec.or_zero] at left
  exact (putLoaded_eq_looped tz keys).trans left

/-! ## How a load runs -/

/-- The end of a load that has read `n` elements. -/
def finishLoad (n : Nat) : Option (Nat × Nat × Word) → M Flow
  | some (e, c, a) => stopVec true [] n e c a
  | none => do
    endVec true [] n
    pure .next

/-- What `vload` does when its checks have passed. -/
def loadElements (t : Slot) (k : KReg) (v : Reg) (base : Word) (m : VAddr) : M Flow := do
  let (xs, stop1) ← plan .load t.scope true (elemPieces t k m base t.ew)
  let (vals, stop) ← readAll t.scope xs stop1
  beginVec true
  heatOf m.heat (xs.take vals.length)
  modMe (putLoaded t k v vals stop)
  finishLoad vals.length stop

theorem vload_run (w : IWord) (k : KReg) (v rs1 : Reg) (mode : Slot → VAddr) (s : State) : vload w k v rs1 mode s
    = if s.me.vstate = 0 then .error (.trap causeFirstUse (w.zeroExtend 64)) s
      else if s.me.vill = true then .error (.trap causeIllegal (w.zeroExtend 64)) s
      else if (memOpsOk s.me v (mode s.me) && indexApart s.me v (mode s.me)) = true then
        loadElements s.me k v (s.me.readX rs1) (mode s.me) s
      else .error (.trap causeOperand (w.zeroExtend 64)) s :=
  guarded_run w (fun t => memOpsOk t v (mode t) && indexApart t v (mode t))
    (fun t => loadElements t k v (t.readX rs1) (mode t)) s

/-! ## Heat -/

theorem same_countHeat (k : HeatKind) (l : Loc) (s : State) : SameSlots s (countHeat k l s) := by
  unfold countHeat
  dsimp only
  split
  · exact SameSlots.refl s
  · split
    · exact SameSlots.refl s
    · split
      · exact SameSlots.refl s
      · exact same_deviceAct _ _ _

/-- Counting heat changes no slot. -/
theorem same_heated (k : HeatKind) (xs : List Planned) (s : State) : SameSlots s (heated k xs s) :=
  same_foldl _ (fun s x => by
    split
    · exact same_countHeat _ _ _
    · exact SameSlots.refl s) xs s

/-! ## A load as a whole -/

theorem same_startLoad (s : State) : SameSlots s (startLoad s) := by
  unfold startLoad
  split <;> exact ⟨rfl, rfl⟩

theorem finishLoad_none {n : Nat} {s u : State} (h : closeVec true true [] n s = .ok () u) : finishLoad n none s = .ok .next u := by
  show (closeVec true true [] n >>= fun _ => pure .next : M Flow) s = _
  rw [bind_run, h]
  rfl

/-- The rest of a load after its elements have been read: what it writes, and then its end. -/
theorem loadElements_run {t : Slot} {k : KReg} {v : Reg} {base : Word} {m : VAddr} {s u z : State} {xs : List Planned}
    {stop1 stop : Option (Nat × Nat × Word)} {vals : List (Nat × Nat)} (slot : s.me = t)
    (hp : plan .load t.scope true (elemPieces t k m base t.ew) s = .ok (xs, stop1) u)
    (hr : readAll t.scope xs stop1 u = .ok (vals, stop) z)
    (keys : vals.map (·.1) = (elemRange t.vstart (reached t stop)).filter (t.kbit k)) :
    ∃ z' lanes, RetireFrame (mapMe (vectorBegun z.ticks) z) z' ∧ z'.me = vectorBegun z.ticks t
      ∧ writtenInto t lanes v t.ew (loadedElements t k stop) (loadResult vals)
      ∧ loadElements t k v base m s = finishLoad vals.length stop
          (mapMe (fun t => { t with lanes := lanes }) (heated m.heat (xs.take vals.length) z')) := by
  have zme : z.me = t := (((Leaves.plan _ _ _ _).done _ _ _ hp).trans ((Leaves.readAll _ _ _).done _ _ _ hr)).me.trans slot
  obtain ⟨z', begun, counted, me⟩ := beginVec_counted true z
  rw [zme] at me
  have hot : (heated m.heat (xs.take vals.length) z').me = vectorBegun z.ticks t := (same_heated _ _ _).me.trans me
  obtain ⟨lanes, written, put⟩ := putLoaded_begun (v := v) z.ticks keys
  refine ⟨z', lanes, counted.frame, me, written, ?_⟩
  unfold loadElements
  rw [bind_run, hp]
  dsimp only
  rw [bind_run, hr]
  dsimp only
  rw [bind_run, begun]
  dsimp only
  rw [bind_run, show heatOf m.heat (xs.take vals.length) z' = .ok () (heated m.heat (xs.take vals.length) z') from rfl]
  dsimp only
  rw [bind_run, modMe_run]
  dsimp only
  rw [mapMe_congr (f := putLoaded t k v vals stop) (g := fun t => { t with lanes := lanes })]
  rw [hot, put]

/-- The checks of a load come first (R35): each trap has the instruction's word as its value, and comes before any effect. -/
theorem vload_traps {i : Instr} {s : State} {wd : IWord} {k : KReg} {v rs1 : Reg} {mode : Slot → VAddr}
    (hi : exec i s = run wd (asLoad (vload wd k v rs1 mode)) s) {c : Nat}
    (hc : (s.me.vstate = 0 ∧ c = causeFirstUse) ∨ (s.me.vstate ≠ 0 ∧ s.me.vill = true ∧ c = causeIllegal)
      ∨ (s.me.vstate ≠ 0 ∧ s.me.vill = false ∧ (memOpsOk s.me v (mode s.me) && indexApart s.me v (mode s.me)) = false
        ∧ c = causeOperand)) :
    exec i s = .next (takeTrap c (wd.zeroExtend 64) s.me.pc (turnsOver s (endLoad (startLoad s)))) := by
  have stops : vload wd k v rs1 mode (startLoad s) = .error (.trap c (wd.zeroExtend 64)) (startLoad s) := by
    rw [vload_run, (same_startLoad s).me]
    obtain ⟨off, rfl⟩ | ⟨on, ill, rfl⟩ | ⟨on, valid, bad, rfl⟩ := hc
    · rw [if_pos off]
    · rw [if_neg on, if_pos ill]
    · rw [if_neg on, if_neg (by rw [valid]; exact Bool.false_ne_true), if_neg (by rw [bad]; exact Bool.false_ne_true)]
  rw [hi]
  unfold run asLoad
  rw [stops]

/-- A load that goes through reads every active element, and one that stops those below its stop; both write them as R106
says. -/
theorem vload_does {i : Instr} {s : State} {wd : IWord} {k : KReg} {v rs1 : Reg} {mode : Slot → VAddr}
    (hi : exec i s = run wd (asLoad (vload wd k v rs1 mode)) s) (on : s.me.vstate ≠ 0) (valid : s.me.vill = false)
    (ok : (memOpsOk s.me v (mode s.me) && indexApart s.me v (mode s.me)) = true) {u z : State} {xs : List Planned}
    {stop1 stop : Option (Nat × Nat × Word)} {vals : List (Nat × Nat)}
    (hp : plan .load s.me.scope true (elemPieces s.me k (mode s.me) (s.me.readX rs1) s.me.ew) (startLoad s) = .ok (xs, stop1) u)
    (hr : readAll s.me.scope xs stop1 u = .ok (vals, stop) z) :
    vals.map (·.1) = (elemRange s.me.vstart (reached s.me stop)).filter (s.me.kbit k)
    ∧ (∀ e c a, stop = some (e, c, a) → e < s.me.vl ∧ s.me.kbit k e = true)
    ∧ ∃ z' lanes, RetireFrame (mapMe (vectorBegun z.ticks) z) z'
      ∧ writtenInto s.me lanes v s.me.ew (loadedElements s.me k stop) (loadResult vals)
      ∧ (stop = none → completesAs i s (mapMe (fun t => { vectorDone t with lanes := lanes, vstate := 3 })
          (heated (mode s.me).heat (xs.take vals.length) z')))
      ∧ ∀ e c a, stop = some (e, c, a) → stopsAt i s [] (mapMe (fun t => { t with lanes := lanes })
          (heated (mode s.me).heat (xs.take vals.length) z')) e c a := by
  obtain ⟨rest, split, first⟩ := readAll_prefix hp hr
  obtain ⟨keys, place⟩ := reached_prefix split first
  refine ⟨keys, place, ?_⟩
  obtain ⟨z', lanes, frame, me, written, runs⟩ := loadElements_run (v := v) (same_startLoad s).me hp hr keys
  refine ⟨z', lanes, frame, written, ?_⟩
  generalize hh : heated (mode s.me).heat (xs.take vals.length) z' = h at runs
  have hme : h.me = vectorBegun z.ticks s.me := by rw [← hh, (same_heated _ _ _).me, me]
  have whole : vload wd k v rs1 mode (startLoad s) = finishLoad vals.length stop (mapMe (fun t => { t with lanes := lanes }) h) := by
    rw [vload_run, (same_startLoad s).me, if_neg on, if_neg (by rw [valid]; exact Bool.false_ne_true), if_pos ok, runs]
  have still : (mapMe (fun t => { t with lanes := lanes }) h).me.vstate ≠ 0 := by
    rw [me_mapMe, hme]
    exact vectorBegun_on _ on
  constructor
  · rintro rfl
    obtain ⟨y, ends, counted⟩ := closeVec_counted true true vals.length still
    rw [mapMe_mapMe] at counted
    refine completesAs_counted (u := endLoad y) ?_ (counted.trans (counted_endLoad y))
    rw [hi]
    unfold run asLoad
    rw [whole, finishLoad_none ends]
  · rintro e c a rfl
    obtain ⟨y, ends, counted⟩ := stopVec_counted (α := Flow) true vals.length e c a still
    refine stopsAt_counted (u := endLoad y) ?_ (counted.trans (counted_endLoad y)) ?_
    · rw [hi]
      unfold run asLoad
      rw [whole, show finishLoad vals.length (some (e, c, a)) = stopVec true [] vals.length e c a from rfl, ends]
    · rw [me_mapMe, hme, vectorBegun_frame]

/-! ## The addresses -/

/-- An element that is packed does not use the address of its own (R64). -/
theorem piecesOf_address {w : Nat} {a b : Word} (h : w = 4 ∨ w = 6 ∨ a = b) (base : Word) (e : Nat) :
    piecesOf base w e a = piecesOf base w e b := by
  obtain rfl | rfl | rfl := h <;> rfl

theorem ew_cases (t : Slot) : t.ew = 4 ∨ t.ew = 6 ∨ 8 ∣ t.ew := by
  unfold Slot.ew ewBits
  split <;> decide

/-- Elements of whole bytes lie one after the other in a unit-stride access (R120). -/
theorem piecesOf_unit (t : Slot) (base : Word) (e : Nat) :
    piecesOf base t.ew e (VAddr.unit.addr t base t.ew e) = piecesOf base t.ew e (base + BitVec.ofNat 64 (e * (t.ew / 8))) :=
  piecesOf_address ((ew_cases t).imp_right fun h => h.imp_right fun bytes => by
    rw [← Nat.mul_div_assoc e bytes]; rfl) base e

/-- The offset of an indexed access is a signed number of the width of its index (R61, R120). -/
theorem indexed_addr (t : Slot) (base : Word) (w e iw : Nat) (r : Reg) :
    (VAddr.indexed r iw).addr t base w e = base + (BitVec.ofNat iw (t.elem r.toNat iw e)).signExtend 64 := by
  show base + BitVec.ofInt 64 (sextNat iw (t.elem r.toNat iw e)) = _
  rw [sextNat_eq_toInt]
  rfl

/-- Settles O21: each of the loads is `vload` with its own addresses. -/
theorem vectorLoads : Obligations.VectorLoads := by
  unfold Obligations.VectorLoads
  intro s k v rs1 rs2 vs2 iw t w base loads
  have load {i : Instr} {wd : IWord} {mode : Slot → VAddr} {addr : Nat → Word}
      (hi : exec i s = run wd (asLoad (vload wd k v rs1 mode)) s) (hw : encode i = some wd)
      (address : ∀ e, piecesOf base w e ((mode t).addr t base w e) = piecesOf base w e (addr e)) : loads i (mode t) addr := by
    refine ⟨fun w' hw' c hc => ?_, fun on valid ok xs stop1 u vals stop z hp hr => ?_⟩
    · obtain rfl := Option.some.inj (hw.symm.trans hw')
      exact vload_traps hi hc
    · have pieces : elemPieces t k (mode t) base w
          = ((elemRange t.vstart t.vl).filter (t.kbit k)).map fun e => (e, piecesOf base w e (addr e)) :=
        List.map_congr_left fun e _ => by rw [address]
      rw [← pieces] at hp
      obtain ⟨keys, place, z', lanes, frame, written, through, stopped⟩ := vload_does hi on valid ok hp hr
      refine ⟨z', frame, ?_⟩
      cases stop with
      | none => exact ⟨keys, lanes, written, through rfl⟩
      | some x =>
        obtain ⟨e, c, a⟩ := x
        obtain ⟨below, active⟩ := place e c a rfl
        exact ⟨keys, below, active, lanes, written, stopped e c a rfl⟩
  have word (iw : BitVec 2) (mode : Nat) (b : Reg) :
      some (pack (iw ++ 0#3 ++ BitVec.ofNat 3 mode ++ k) b rs1 v 40#6) = some (wordVMem iw 0 mode k b rs1 v 0x28) :=
    congrArg some (wordVMem_pack ..).symm
  refine ⟨?unit, ?strided, ?ordered, ?unordered⟩
  case unit => exact load (mode := fun _ => .unit) rfl (word 0 0 0) (piecesOf_unit t base)
  case strided => exact load (mode := fun t => .strided (t.readX rs2)) rfl (word 0 1 rs2) fun _ => rfl
  case ordered =>
    exact load (mode := fun t => .indexed vs2 (idxBits t.ew iw)) rfl (word iw.toBits 2 vs2) fun e => by rw [indexed_addr]
  case unordered =>
    exact load (mode := fun t => .indexed vs2 (idxBits t.ew iw)) rfl (word iw.toBits 3 vs2) fun e => by rw [indexed_addr]

end Sys2Proof.Laws

/-! SUPPORT. The vector stores of elements (R120 to R123, R320): the order in which they perform, and how an instruction ends that
performs its elements one after the other. -/

namespace Sys2Proof.Laws

open Sys2Proof Sys2Proof.Machine

/-! ## The order -/

theorem mem_ins {α : Type} {key : α → Nat} {a x : α} {l : List α} (h : x ∈ sortByKey.ins key a l) : x = a ∨ x ∈ l := by
  induction l with
  | nil => exact .inl (List.mem_singleton.mp h)
  | cons b l ih =>
    unfold sortByKey.ins at h
    split at h
    · exact List.mem_cons.mp h
    · rcases List.mem_cons.mp h with rfl | h
      · exact .inr List.mem_cons_self
      · exact (ih h).imp_right (List.mem_cons_of_mem b)

theorem mem_sortByKey {α : Type} {key : α → Nat} {x : α} {l : List α} (h : x ∈ sortByKey key l) : x ∈ l := by
  have grow : ∀ (l r : List α), x ∈ l.foldl (fun r a => sortByKey.ins key a r) r → x ∈ r ∨ x ∈ l := by
    intro l
    induction l with
    | nil => exact fun r h => .inl h
    | cons a l ih =>
      intro r h
      rcases ih _ h with h | h
      · rcases mem_ins h with rfl | h
        · exact .inr List.mem_cons_self
        · exact .inl h
      · exact .inr (List.mem_cons_of_mem a h)
  exact (grow l [] h).resolve_left List.not_mem_nil

/-- The order of R123 names no element but those that it orders. -/
theorem mem_storeOrder {s : State} {unordered : Bool} {xs : List Planned} {x : Planned} (h : x ∈ storeOrder s unordered xs) : x ∈ xs := by
  rcases List.mem_append.mp h with h | h
  · exact List.mem_of_mem_filter (mem_sortByKey h)
  · exact List.mem_of_mem_filter h

/-! ## Performing -/

theorem untilStop_all {α : Type} {l : List α} {f : α → M Unit} {s u : State} (h : forList l f s = .ok () u) :
    untilStop l f s = .ok (l, none) u := by
  induction l generalizing s with
  | nil => cases h; rfl
  | cons a l ih =>
    unfold forList at h
    unfold untilStop
    split at h
    · rename_i t ha
      rw [ha]
      dsimp only
      rw [ih h]
    · cases h

theorem le_foldl_max (l : List Nat) (n : Nat) : n ≤ l.foldl max n ∧ ∀ m ∈ l, m ≤ l.foldl max n := by
  induction l generalizing n with
  | nil => exact ⟨Nat.le_refl n, fun m hm => absurd hm List.not_mem_nil⟩
  | cons a l ih =>
    obtain ⟨start, inner⟩ := ih (max n a)
    refine ⟨(Nat.le_max_left n a).trans start, fun m hm => ?_⟩
    rcases List.mem_cons.mp hm with rfl | hm
    · exact (Nat.le_max_right n m).trans start
    · exact inner m hm

/-- The elements whose heat is counted when all of `order` have performed: those that do not lie above the stop. -/
def countedOf (order : List Planned) (stop : Option (Nat × Nat × Word)) : List Planned :=
  order.filter fun x => decide (x.e < match stop with | some (e, _) => e + 1 | none => (order.map (·.e + 1)).foldl max 0)

theorem countedOf_none (order : List Planned) : countedOf order none = order :=
  List.filter_eq_self.mpr fun x hx => decide_eq_true ((le_foldl_max _ 0).2 (x.e + 1) (List.mem_map_of_mem hx))

theorem countedOf_some {order : List Planned} {e c : Nat} {a : Word} (apart : ∀ x ∈ order, x.e ≠ e) :
    countedOf order (some (e, c, a)) = order.filter fun x => decide (x.e < e) :=
  List.filter_congr fun x hx => decide_eq_decide.mpr (by have := apart x hx; dsimp only; omega)

/-- The heat of elements, if the instruction counts heat. -/
def heatedBy (heat : Option HeatKind) (xs : List Planned) (z : State) : State :=
  match heat with
  | some k => heated k xs z
  | none => z

theorem same_heatedBy (heat : Option HeatKind) (xs : List Planned) (z : State) : SameSlots z (heatedBy heat xs z) := by
  cases heat
  · exact SameSlots.refl z
  · exact same_heated _ _ _

/-- The end of an instruction whose elements have performed. -/
def finishPerform (n scale : Nat) : Option (Nat × Nat × Word) → M Flow
  | some (e, c, a) => stopVec true [] n (scale * e) c a
  | none => do
    closeVec false true [] n
    pure .next

theorem finishPerform_none {n scale : Nat} {s u : State} (h : closeVec false true [] n s = .ok () u) :
    finishPerform n scale none s = .ok .next u := by
  show (closeVec false true [] n >>= fun _ => pure .next : M Flow) s = _
  rw [bind_run, h]
  rfl

theorem finishPerform_some (n scale e c : Nat) (a : Word) :
    finishPerform n scale (some (e, c, a)) = stopVec true [] n (scale * e) c a := rfl

section

variable {heat : Option HeatKind} {scale : Nat} {weight : List Planned → Nat} {order : List Planned}
  {stop : Option (Nat × Nat × Word)} {put : Planned → M Unit}

theorem performAll_run {s u z : State} (begun : beginVec true s = .ok () u) (performed : forList order put u = .ok () z) :
    performAll true [] heat scale weight order stop put s
      = finishPerform (weight (countedOf order stop)) scale stop (heatedBy heat (countedOf order stop) z) := by
  unfold performAll
  rw [bind_run, begun]
  dsimp only
  rw [bind_run, untilStop_all performed]
  cases heat <;> cases stop <;> rfl

theorem streamsAfter_nil (t : Slot) : streamsAfter t [] = t.streams :=
  streams_ext { t with streams := streamsAfter t [] } t fun q => by
    rw [binding_streamsAfter, List.any_nil, if_neg Bool.false_ne_true]

/-- A store leaves vector state as its beginning has left it (log entry 61), and no stream moves. -/
theorem vectorPast_begun (n : Nat) {s : State} (on : s.me.vstate ≠ 0) :
    vectorPast s [] (vectorBegun n s.me) = memoryDone false (vectorBegun n s.me) := by
  have after : vstateAfter s.me [] = (vectorBegun n s.me).vstate := (vstateAfter_eq n rfl on).symm
  have streams : (vectorBegun n s.me).streams = s.me.streams := by rw [vectorBegun_frame]
  unfold vectorPast memoryDone
  rw [after, streamsAfter_nil, ← streams]
  rfl

/-- An instruction that begins, performs its elements in an order and ends, in a state that its planning has left. -/
theorem performAll_performs {i : Instr} {s u : State} {w : IWord} {m : M Flow} (hi : exec i s = run w m s)
    (hm : m s = performAll true [] heat scale weight order stop put u) (slots : SameSlots s u) (on : s.me.vstate ≠ 0)
    (keeps : ∀ x, Keeps (put x)) (apart : ∀ e c a, stop = some (e, c, a) → ∀ x ∈ order, x.e ≠ e) :
    performs i s [] heat scale order stop u put := by
  obtain ⟨u', begun, counted, me⟩ := beginVec_counted true u
  refine ⟨u', counted.frame, fun z performed => ?_⟩
  have runs := hm.trans (performAll_run begun performed)
  have hot (xs : List Planned) : (heatedBy heat xs z).me = vectorBegun u.ticks s.me := by
    rw [(same_heatedBy heat xs z).me, (Keeps.forList order keeps _ _ _ performed).me, me, slots.me]
  have still (xs : List Planned) : (heatedBy heat xs z).me.vstate ≠ 0 := by
    rw [hot]
    exact vectorBegun_on _ on
  have streams (xs : List Planned) : (heatedBy heat xs z).me.streams = s.me.streams := by rw [hot, vectorBegun_frame]
  cases stop with
  | none =>
    rw [countedOf_none] at runs
    obtain ⟨y, ends, left⟩ := closeVec_counted false true (weight order) (still order)
    refine completesAs_counted (u := y) ?_ ?_
    · rw [hi]
      unfold run
      rw [runs, finishPerform_none ends]
    · have past : vectorPast s [] (heatedBy heat order z).me = memoryDone false (heatedBy heat order z).me := by
        rw [hot, vectorPast_begun _ on]
      rw [← mapMe_congr past] at left
      exact left
  | some x =>
    obtain ⟨e, c, a⟩ := x
    rw [countedOf_some (apart e c a rfl)] at runs
    obtain ⟨y, ends, left⟩ := stopVec_counted (α := Flow) true (weight (order.filter fun x => decide (x.e < e))) (scale * e) c a (still _)
    refine stopsAt_counted (u := y) ?_ left (streams _)
    rw [hi]
    unfold run
    rw [runs, finishPerform_some, ends]

end

/-! ## The elements above a stop -/

theorem collect_mem {α β : Type} {l : List α} {f : α → M β} {s u : State} {bs : List β} (h : collect l f s = .ok bs u) :
    ∀ b ∈ bs, ∃ a ∈ l, ∃ s t, f a s = .ok b t := by
  induction l generalizing s bs with
  | nil => cases h; exact fun b hb => absurd hb List.not_mem_nil
  | cons a l ih =>
    unfold collect at h
    split at h
    · rename_i b t ha
      split at h
      · rename_i r v hr
        cases h
        intro b' hb
        rcases List.mem_cons.mp hb with rfl | hb
        · exact ⟨a, List.mem_cons_self, s, t, ha⟩
        · obtain ⟨a', ha', rest⟩ := ih hr b' hb
          exact ⟨a', List.mem_cons_of_mem a ha', rest⟩
      · cases h
    · cases h

theorem tryM_ok {α : Type} {m : M α} {s t : State} {a : α} (h : tryM m s = .ok (.ok a) t) : m s = .ok a t := by
  unfold Machine.tryM at h
  split at h <;> cases h
  assumption

theorem filterMap_sublist {α β : Type} {f g : α → Option β} (h : ∀ a b, f a = some b → g a = some b) (l : List α) :
    (l.filterMap f).Sublist (l.filterMap g) := by
  induction l with
  | nil => exact List.Sublist.refl _
  | cons a l ih =>
    cases hf : f a with
    | some b =>
      rw [List.filterMap_cons_some hf, List.filterMap_cons_some (h a b hf)]
      exact ih.cons_cons b
    | none =>
      rw [List.filterMap_cons_none hf]
      cases hg : g a with
      | some b => rw [List.filterMap_cons_some hg]; exact ih.cons b
      | none => rw [List.filterMap_cons_none hg]; exact ih

/-- The plan of an element above a stop, if it has one. -/
def plannedAbove : Except (Nat × Word) Planned → Option Planned
  | .ok x => some x
  | .error _ => none

/-- An element above a stop that an unordered store has performed, as a free value of state `s` says (R122). -/
def performedAbove (s : State) : Except (Nat × Word) Planned → Option Planned
  | .ok x => if s.free .aboveStop x.e % 2 = 1 then some x else none
  | .error _ => none

theorem performedAbove_planned (s : State) (r : Except (Nat × Word) Planned) (x : Planned) (h : performedAbove s r = some x) :
    plannedAbove r = some x := by
  cases r with
  | error e => cases h
  | ok y =>
    unfold performedAbove at h
    dsimp only at h
    split at h
    · exact h
    · cases h

/-! ## A store as a whole -/

/-- What `vstore` does when its checks have passed. -/
def storeElements (t : Slot) (k : KReg) (v : Reg) (base : Word) (unordered : Bool) (m : VAddr) : M Flow := do
  let es := elemPieces t k m base t.ew
  let (xs, stop) ← plan .store t.scope true es
  let a := (← getS).vagent
  let above ← match stop, unordered with
    | some (e, _), true => collect (es.filter fun x => decide (e < x.1)) fun x => tryM (planElem a .store t.scope true x.1 x.2)
    | _, _ => pure []
  let s ← getS
  performAll true [] (some m.heat) 1 List.length (storeOrder s unordered (xs ++ above.filterMap (performedAbove s))) stop fun x =>
    writePlanned t.scope (t.elem v.toNat t.ew x.e) x

theorem vstore_run (w : IWord) (k : KReg) (v rs1 : Reg) (unordered : Bool) (mode : Slot → VAddr) (s : State) :
    vstore w k v rs1 unordered mode s
    = if s.me.vstate = 0 then .error (.trap causeFirstUse (w.zeroExtend 64)) s
      else if s.me.vill = true then .error (.trap causeIllegal (w.zeroExtend 64)) s
      else if memOpsOk s.me v (mode s.me) = true then
        storeElements s.me k v (s.me.readX rs1) unordered (mode s.me) s
      else .error (.trap causeOperand (w.zeroExtend 64)) s :=
  guarded_run w (fun t => memOpsOk t v (mode t)) (fun t => storeElements t k v (t.readX rs1) unordered (mode t)) s

section

variable {t : Slot} {k : KReg} {v : Reg} {base : Word} {m : VAddr} {s u : State} {xs : List Planned}

/-- Without elements above a stop that may have performed, the elements planned perform in the order of R123. -/
theorem storeElements_planned {unordered : Bool} {stop : Option (Nat × Nat × Word)}
    (hp : plan .store t.scope true (elemPieces t k m base t.ew) s = .ok (xs, stop) u) (h : unordered = false ∨ stop = none) :
    storeElements t k v base unordered m s = performAll true [] (some m.heat) 1 List.length (storeOrder u unordered xs) stop
      (fun x => writePlanned t.scope (t.elem v.toNat t.ew x.e) x) u := by
  unfold storeElements
  rw [bind_run, hp]
  dsimp only
  rw [bind_run, getS_run]
  have none_above := congrArg (fun l => performAll true [] (some m.heat) 1 List.length (storeOrder u unordered l) stop
    (fun x => writePlanned t.scope (t.elem v.toNat t.ew x.e) x) u) (List.append_nil xs)
  obtain rfl | rfl := h
  · cases stop <;> exact none_above
  · cases unordered <;> exact none_above

/-- An unordered store that stops may have performed some of the elements above its stop that can be accessed (R122). -/
theorem storeElements_above {e c : Nat} {a : Word} {above : List (Except (Nat × Word) Planned)} {u1 : State}
    (hp : plan .store t.scope true (elemPieces t k m base t.ew) s = .ok (xs, some (e, c, a)) u)
    (ha : collect ((elemPieces t k m base t.ew).filter fun x => decide (e < x.1))
      (fun x => tryM (planElem u.vagent .store t.scope true x.1 x.2)) u = .ok above u1) :
    storeElements t k v base true m s = performAll true [] (some m.heat) 1 List.length
      (storeOrder u1 true (xs ++ above.filterMap (performedAbove u1))) (some (e, c, a))
      (fun x => writePlanned t.scope (t.elem v.toNat t.ew x.e) x) u1 := by
  unfold storeElements
  rw [bind_run, hp]
  dsimp only
  rw [bind_run, getS_run]
  dsimp only
  rw [bind_run, ha]
  rfl

/-- The elements above a stop lie above it. -/
theorem planned_above {sc : Scope} {ag : Agent} {es : List (Nat × List Piece)} {e : Nat} {above : List (Except (Nat × Word) Planned)}
    {u1 : State} (ha : collect (es.filter fun x => decide (e < x.1)) (fun x => tryM (planElem ag .store sc true x.1 x.2)) u
      = .ok above u1) {x : Planned} (hx : x ∈ above.filterMap (performedAbove u1)) : e < x.e := by
  obtain ⟨r, hr, chosen⟩ := List.mem_filterMap.mp hx
  cases r with
  | error e => cases chosen
  | ok y =>
    obtain rfl : y = x := Option.some.inj (performedAbove_planned _ _ _ chosen)
    obtain ⟨p, hp, s, t, run⟩ := collect_mem ha _ hr
    rw [planElem_index (tryM_ok run)]
    exact of_decide_eq_true (List.mem_filter.mp hp).2

end

/-- The traps of an instruction whose own limits are all that `guardVec` leaves to check (R35). -/
theorem vectorTraps_of_checks {i : Instr} {s : State} {wd : IWord} {m : M Flow} {ok : Bool} {r : EStateM.Result Stop State Flow}
    (hi : exec i s = run wd m s) (hw : encode i = some wd)
    (hm : m s = if s.me.vstate = 0 then .error (.trap causeFirstUse (wd.zeroExtend 64)) s
      else if s.me.vill = true then .error (.trap causeIllegal (wd.zeroExtend 64)) s
      else if ok = true then r else .error (.trap causeOperand (wd.zeroExtend 64)) s) : vectorTraps i s ok [] := by
  intro w h
  obtain rfl := Option.some.inj (hw.symm.trans h)
  refine ⟨fun off => traps_run hi ?_, fun on ill => traps_run hi ?_, fun on valid bad => traps_run hi ?_⟩
  · rw [hm, if_pos off]
  · rw [hm, if_neg on, if_pos ill]
  · have bad : ok = false := (Bool.and_true ok).symm.trans bad
    rw [hm, if_neg on, if_neg (by rw [valid]; exact Bool.false_ne_true), if_neg (by rw [bad]; exact Bool.false_ne_true)]

/-- Settles O22: each of the stores is `vstore` with its own addresses, in index order or in none. -/
theorem vectorStores : Obligations.VectorStores := by
  unfold Obligations.VectorStores
  intro s k v rs1 rs2 vs2 iw t w base stores
  have store {i : Instr} {wd : IWord} {unordered : Bool} {mode : Slot → VAddr} {addr : Nat → Word}
      (hi : exec i s = run wd (vstore wd k v rs1 unordered mode) s) (hw : encode i = some wd)
      (address : ∀ e, piecesOf base w e ((mode t).addr t base w e) = piecesOf base w e (addr e)) :
      stores i unordered (mode t) addr := by
    have pieces : elemPieces t k (mode t) base w
        = ((elemRange t.vstart t.vl).filter (t.kbit k)).map fun e => (e, piecesOf base w e (addr e)) :=
      List.map_congr_left fun e _ => by rw [address]
    refine ⟨vectorTraps_of_checks hi hw (vstore_run wd k v rs1 unordered mode s), fun on valid ok xs stop u hp => ?_⟩
    rw [← pieces] at hp
    have runs : vstore wd k v rs1 unordered mode s = storeElements t k v base unordered (mode t) s := by
      rw [vstore_run, if_neg on, if_neg (by rw [valid]; exact Bool.false_ne_true), if_pos ok]
    have slots : SameSlots s u := (Leaves.plan _ _ _ _).done _ _ _ hp
    have keeps (x : Planned) : Keeps (writePlanned t.scope (t.elem v.toNat w x.e) x) := Keeps.writePlanned _ _ _
    obtain ⟨rest, split, first⟩ := plan_prefix hp
    obtain ⟨keys, place⟩ := reached_prefix split first
    have below {e c : Nat} {a : Word} (stops : stop = some (e, c, a)) (x : Planned) (hx : x ∈ xs) : x.e < e := by
      have mem := List.mem_map_of_mem (f := Planned.e) hx
      rw [keys, stops] at mem
      exact ((mem_elemRange _ _ _).mp (List.mem_of_mem_filter mem)).2
    refine ⟨keys.trans (by cases stop <;> rfl), place, fun plain => ?_, ?_⟩
    · refine performAll_performs hi (runs.trans (storeElements_planned hp plain)) slots on keeps fun e c a stops x hx => ?_
      exact Nat.ne_of_lt (below stops x (mem_storeOrder hx))
    · intro e c a above u1 free stops ha
      subst free stops
      rw [← pieces] at ha
      refine ⟨above.filterMap (performedAbove u1), filterMap_sublist (performedAbove_planned u1) above, ?_⟩
      have slots1 : SameSlots u u1 := (Leaves.collect _ fun x => (Leaves.planElem _ _ _ _ _ _).tryM).done _ _ _ ha
      refine performAll_performs hi (runs.trans (storeElements_above hp ha)) (slots.trans slots1) on keeps ?_
      rintro _ _ _ ⟨⟩ x hx
      rcases List.mem_append.mp (mem_storeOrder hx) with hx | hx
      · exact Nat.ne_of_lt (below rfl x hx)
      · exact Nat.ne_of_gt (planned_above ha hx)
  have word (iw : BitVec 2) (mode : Nat) (b : Reg) :
      some (pack (iw ++ 0#3 ++ BitVec.ofNat 3 mode ++ k) b rs1 v 41#6) = some (wordVMem iw 0 mode k b rs1 v 0x29) :=
    congrArg some (wordVMem_pack ..).symm
  refine ⟨?vst, ?vsts, ?vstxo, ?vstx⟩
  case vst => exact store (mode := fun _ => .unit) rfl (word 0 0 0) (piecesOf_unit t base)
  case vsts => exact store (mode := fun t => .strided (t.readX rs2)) rfl (word 0 1 rs2) fun _ => rfl
  case vstxo =>
    exact store (mode := fun t => .indexed vs2 (idxBits t.ew iw)) rfl (word iw.toBits 2 vs2) fun e => by rw [indexed_addr]
  case vstx =>
    exact store (mode := fun t => .indexed vs2 (idxBits t.ew iw)) rfl (word iw.toBits 3 vs2) fun e => by rw [indexed_addr]

end Sys2Proof.Laws

/-! SUPPORT. The scalar instructions that cannot stop (R82 to R87): each writes one register or one condition bit. -/

namespace Sys2Proof.Laws

open Sys2Proof Sys2Proof.Machine

/-! ## What a simple instruction writes -/

/-- An instruction whose only effect on its slot is a write of `f` to a register. -/
theorem writesX_of_simple {i : Instr} {s : State} {rd : Reg} {f : Slot → Word} {v : Word}
    (hi : exec i s = simple (fun t => t.writeX rd (f t)) s) (hv : f s.me = v) : writesX i s rd v := by
  have run := completes_simple hi
  unfold writesX completes at run ⊢
  rwa [mapMe_congr (g := (·.writeX rd v)) (congrArg (s.me.writeX rd) hv)] at run

/-- An instruction whose only effect on its slot is a write of `f` to a condition bit. -/
theorem writesC_of_simple {i : Instr} {s : State} {n : CBit} {f : Slot → Bool} {b : Bool}
    (hi : exec i s = simple (fun t => t.writeC n (f t)) s) (hb : f s.me = b) : writesC i s n b := by
  have run := completes_simple hi
  unfold writesC completes at run ⊢
  rwa [mapMe_congr (g := (·.writeC n b)) (congrArg (s.me.writeC n) hb)] at run

/-! ## Products, minima and scaled sums in the words of R82 -/

theorem mulh_highHalf (a b : Word) :
    highOf (a.toInt * b.toInt) = (a.signExtend 128 * b.signExtend 128).extractLsb' 64 64 := by
  rw [highOf_mul, signExtend_ofInt, signExtend_ofInt]

theorem mulhu_highHalf (a b : Word) :
    highOf (a.toNat * b.toNat) = (a.zeroExtend 128 * b.zeroExtend 128).extractLsb' 64 64 := by
  rw [highOf_mul, zeroExtend_ofInt, zeroExtend_ofInt]

theorem mulhsu_highHalf (a b : Word) :
    highOf (a.toInt * b.toNat) = (a.signExtend 128 * b.zeroExtend 128).extractLsb' 64 64 := by
  rw [highOf_mul, signExtend_ofInt, zeroExtend_ofInt]

theorem rotateLeft_sh6 (a b : Word) : a.rotateLeft (sh6 b) = a <<< (b.toNat % 64) ||| a >>> (64 - b.toNat % 64) :=
  rotateLeft_shifts a _ (Nat.mod_lt _ (by decide))

theorem rotateRight_sh6 (a b : Word) : a.rotateRight (sh6 b) = a >>> (b.toNat % 64) ||| a <<< (64 - b.toNat % 64) :=
  rotateRight_shifts a _ (Nat.mod_lt _ (by decide))

theorem ite_toInt_lt {α : Type} (a b : Word) (x y : α) : (if a.toInt < b.toInt then x else y) = if a.slt b then x else y := by
  rw [BitVec.slt_eq_decide]; simp only [decide_eq_true_eq]

theorem ite_toNat_lt {α : Type} (a b : Word) (x y : α) : (if a.toNat < b.toNat then x else y) = if a.ult b then x else y := by
  rw [BitVec.ult_eq_decide]; simp only [decide_eq_true_eq]

/-- A left shift is a product (the scaled sums `sh1add` to `sh3add`). -/
theorem shiftLeft_eq_mul (a : Word) (k : Nat) : a <<< k = BitVec.ofNat 64 (2 ^ k) * a := by
  apply BitVec.eq_of_toNat_eq
  rw [BitVec.toNat_shiftLeft, BitVec.toNat_mul, BitVec.toNat_ofNat, Nat.mod_mul_mod, Nat.shiftLeft_eq, Nat.mul_comm]

/-- Settles O2: each operation is an `alu2` or `alu1`, and its function is the one that R82 or R83 names. -/
theorem aluResults : Obligations.AluResults := by
  unfold Obligations.AluResults
  intro s rd rs1 rs2 a b n
  exact ⟨
    -- sums and bitwise operations
    writesX_of_simple rfl rfl, writesX_of_simple rfl rfl, writesX_of_simple rfl rfl, writesX_of_simple rfl rfl, writesX_of_simple rfl rfl,
    writesX_of_simple rfl rfl,
    -- shifts and rotates
    writesX_of_simple rfl rfl, writesX_of_simple rfl rfl, writesX_of_simple rfl rfl,
    writesX_of_simple rfl (rotateLeft_sh6 a b), writesX_of_simple rfl (rotateRight_sh6 a b),
    -- products
    writesX_of_simple rfl (mul_lowHalf a b), writesX_of_simple rfl (mulh_highHalf a b), writesX_of_simple rfl (mulhu_highHalf a b),
    writesX_of_simple rfl (mulhsu_highHalf a b),
    -- quotients and remainders
    writesX_of_simple rfl (divSigned_eq a b), writesX_of_simple rfl (divUnsigned_eq a b), writesX_of_simple rfl (remSigned_eq a b),
    writesX_of_simple rfl (remUnsigned_eq a b),
    -- minima and maxima
    writesX_of_simple rfl (ite_toInt_lt a b a b), writesX_of_simple rfl (ite_toInt_lt a b b a), writesX_of_simple rfl (ite_toNat_lt a b a b),
    writesX_of_simple rfl (ite_toNat_lt a b b a),
    -- bits and bytes of one register
    writesX_of_simple rfl (leadingZeros_eq a), writesX_of_simple rfl (trailingZeros_eq a), writesX_of_simple rfl (onesIn_eq a),
    writesX_of_simple rfl (swapBytes_eq a),
    -- scaled sums
    writesX_of_simple rfl (congrArg (· + b) (shiftLeft_eq_mul a 1)), writesX_of_simple rfl (congrArg (· + b) (shiftLeft_eq_mul a 2)),
    writesX_of_simple rfl (congrArg (· + b) (shiftLeft_eq_mul a 3))⟩

/-! ## Immediates -/

/-- A sign-extended 21-bit immediate shifted by 16 is its concatenation with 16 zeros, extended (R84). -/
theorem simm_shiftLeft (j : BitVec 21) : simm j <<< 16 = (j ++ 0#16).signExtend 64 := by
  apply BitVec.eq_of_getLsbD_eq
  intro k hk
  have sign : (j ++ 0#16).msb = j.msb := by
    rw [BitVec.msb_eq_getLsbD_last, BitVec.msb_eq_getLsbD_last, BitVec.getLsbD_append]; rfl
  rw [simm, BitVec.getLsbD_shiftLeft, BitVec.getLsbD_signExtend, BitVec.getLsbD_signExtend, BitVec.getLsbD_append, sign]
  rcases Nat.lt_or_ge k 16 with low | high
  · simp [low, show k < 37 by omega]
  · simp [hk, show ¬ k < 16 by omega, show k - 16 < 64 by omega, show k - 16 < 21 ↔ k < 37 by omega]

theorem toInt_simm (i : BitVec 16) : (simm i).toInt = i.toInt := BitVec.toInt_signExtend_of_le (by decide)
theorem toNat_zimm (i : BitVec 16) : (zimm i).toNat = i.toNat := by
  unfold zimm; simp; omega

theorem decide_toInt_lt (a b : Word) : decide (a.toInt < b.toInt) = a.slt b := (BitVec.slt_eq_decide ..).symm
theorem decide_toInt_le (a b : Word) : decide (a.toInt ≤ b.toInt) = !b.slt a := by
  rw [BitVec.slt_eq_decide, ← decide_not]; simp only [not_lt]
theorem decide_toNat_le (a b : Word) : decide (a.toNat ≤ b.toNat) = !b.ult a := by
  rw [BitVec.ult_eq_decide, ← decide_not]; simp only [not_lt]

/-- Settles O3: each immediate form and compare is `simple`, with a comparison of numbers for one of words. -/
theorem immediatesAndComparisons : Obligations.ImmediatesAndComparisons := by
  unfold Obligations.ImmediatesAndComparisons
  refine ⟨?immediates, ?conditions⟩
  case immediates =>
    intro s rd rs1 i j sh a n
    refine ⟨writesX_of_simple rfl rfl, writesX_of_simple rfl rfl, writesX_of_simple rfl rfl, writesX_of_simple rfl rfl, ?ldhi, ?pcadd,
      writesX_of_simple rfl rfl, writesX_of_simple rfl rfl, writesX_of_simple rfl rfl, writesX_of_simple rfl (rotateLeft_shifts a n sh.isLt)⟩
    case ldhi => exact writesX_of_simple rfl (simm_shiftLeft j)
    case pcadd => exact writesX_of_simple rfl (congrArg (s.me.pc + ·) (simm_shiftLeft j))
  case conditions =>
    intro s n c d rd rs1 rs2 i a b si zi p q
    exact ⟨
      -- two registers
      writesC_of_simple rfl rfl, writesC_of_simple rfl rfl, writesC_of_simple rfl (decide_toInt_lt a b), writesC_of_simple rfl (decide_toInt_le b a),
      writesC_of_simple rfl (BitVec.ult_eq_decide ..).symm, writesC_of_simple rfl (decide_toNat_le b a),
      -- a register and an immediate
      writesC_of_simple rfl rfl, writesC_of_simple rfl rfl,
      writesC_of_simple rfl (toInt_simm i ▸ decide_toInt_lt a si), writesC_of_simple rfl (toInt_simm i ▸ decide_toInt_le si a),
      writesC_of_simple rfl (toInt_simm i ▸ decide_toInt_lt si a), writesC_of_simple rfl (toInt_simm i ▸ decide_toInt_le a si),
      writesC_of_simple rfl (toNat_zimm i ▸ (BitVec.ult_eq_decide ..).symm), writesC_of_simple rfl (toNat_zimm i ▸ decide_toNat_le zi a),
      -- condition logic
      writesC_of_simple rfl rfl, writesC_of_simple rfl rfl, writesC_of_simple rfl rfl, writesC_of_simple rfl rfl,
      writesX_of_simple rfl rfl⟩

end Sys2Proof.Laws

/-! SUPPORT. Branches, jumps, the strip branch and hardware loops (R88 to R91), and the way out of a trap (R101, R102). -/

namespace Sys2Proof.Laws

open Sys2Proof Sys2Proof.Machine

/-! ## Checks -/

/-- A check that holds, and what follows it. -/
theorem check_bind_pass {α : Type} {b : Bool} (h : b = true) (c : Nat) (v : Word) (f : Unit → M α) (s : State) :
    (check b c v >>= f) s = f () s := by
  rw [bind_run, check_pass b _ _ _ h]

/-- A check that fails: nothing follows. -/
theorem check_bind_fail {α : Type} {b : Bool} (h : b = false) (c : Nat) (v : Word) (f : Unit → M α) (s : State) :
    (check b c v >>= f) s = .error (.trap c v) s := by
  rw [bind_run, check_fail _ _ _ _ h]

/-! ## Branches and jumps (R88, R89) -/

section

variable {i : Instr} {s : State} {sense : Bool} {n : CBit} {off : BitVec 21} (hi : exec i s = branchIf sense n off s)
include hi

theorem branchIf_taken (h : s.me.readC n = sense) : jumps i s id (target s.me.pc off) true := by
  refine jumps_goto ?_
  rw [hi, branchIf, if_pos h, mapMe_id]

theorem branchIf_passed (h : s.me.readC n ≠ sense) : completes i s id := by
  refine ⟨retire .next (turnsOver s s), ?_, ?_⟩
  · rw [hi, branchIf, if_neg h]
  · rw [mapMe_id]; exact retire_next _

end

/-- The low two bits are those of the remainder by 4. -/
theorem lowBits_eq_zero (a : Word) : (a.extractLsb' 0 2 == 0) = decide (a.toNat % 4 = 0) := by
  rw [Bool.eq_iff_iff, beq_iff_eq, decide_eq_true_eq, ← BitVec.toNat_inj, BitVec.extractLsb'_toNat]
  rfl

/-- Settles O5: a branch retires with the transfer or without it, as its bit says; `jal` always with it, `jalr` where its target
is aligned. -/
theorem branchesAndJumps : Obligations.BranchesAndJumps := by
  unfold Obligations.BranchesAndJumps
  intro s n off rd rs1 imm t a
  refine ⟨fun set => ⟨branchIf_taken rfl set, branchIf_passed rfl (by rw [set]; decide)⟩,
    fun clear => ⟨branchIf_passed rfl (by rw [clear]; decide), branchIf_taken rfl clear⟩, jumps_goto rfl, ?_, ?_⟩
  · intro aligned
    have low : ((s.me.readX rs1 + simm imm).extractLsb' 0 2 == 0) = true := (lowBits_eq_zero a).trans (decide_eq_true aligned)
    refine jumps_run (w := wordI imm rs1 rd 0x0D) rfl ?_
    simp only [bind_run, getMe_run, check_pass _ _ _ _ low]
    rfl
  · intro unaligned
    have low : ((s.me.readX rs1 + simm imm).extractLsb' 0 2 == 0) = false := (lowBits_eq_zero a).trans (decide_eq_false unaligned)
    refine traps_run (w := wordI imm rs1 rd 0x0D) rfl ?_
    simp only [bind_run, getMe_run, check_fail _ _ _ _ low]
    rfl

/-! ## The strip branch (R90) -/

/-- The actions of a strip branch, as c7 has it. -/
theorem bs_passes (off : BitVec 21) (s : State) (c7 : s.me.readC 7 = false) :
    completes (.bs off) s fun t => { t with spt := s.me.spt.filter fun e => e.addr != s.me.pc } := by
  refine completes_run (w := wordOff off 15 0x0B) rfl ?_
  rw [bind_run, getMe_run]
  dsimp only
  rw [c7, mapMe_congr (g := fun t => { t with spt := t.spt.filter fun e => e.addr != t.pc }) rfl]
  rfl

section

variable {off : BitVec 21} {s : State} (c7 : s.me.readC 7 = true)
include c7

theorem bs_takes {l : List SptEntry} (h : stripPass s.me.spt s.me.pc s.me.captured = some l) :
    jumps (.bs off) s (fun t => { t with spt := l }) (target s.me.pc off) true := by
  refine jumps_run (w := wordOff off 15 0x0B) rfl ?_
  rw [bind_run, getMe_run]
  dsimp only
  rw [c7, h]
  rfl

theorem bs_traps (h : stripPass s.me.spt s.me.pc s.me.captured = none) : traps (.bs off) s causeNoProgress s.me.setvlAddr := by
  refine traps_run (w := wordOff off 15 0x0B) rfl ?_
  rw [bind_run, getMe_run]
  dsimp only
  rw [c7, h]
  rfl

end

section

variable {l : List SptEntry} {pc n : Word} {e : SptEntry}

theorem stripPass_new (h : (l.find? fun e => e.addr == pc) = none) :
    stripPass l pc n = some ({ addr := pc, count := n, strikes := 0 } :: l.take 3) := by
  simp only [stripPass, h]

theorem stripPass_progress (h : (l.find? fun e => e.addr == pc) = some e) (less : n.toNat < e.count.toNat) :
    stripPass l pc n = some ({ e with count := n, strikes := 0 } :: l.filter fun e => e.addr != pc) := by
  simp only [stripPass, h, if_pos less]

theorem stripPass_strike (h : (l.find? fun e => e.addr == pc) = some e) (more : e.count.toNat ≤ n.toNat) (first : e.strikes ≠ 1) :
    stripPass l pc n = some ({ e with strikes := e.strikes + 1 } :: l.filter fun e => e.addr != pc) := by
  simp only [stripPass, h, if_neg (Nat.not_lt.mpr more), if_neg (show ¬ e.strikes + 1 = 2 by omega)]

theorem stripPass_stuck (h : (l.find? fun e => e.addr == pc) = some e) (more : e.count.toNat ≤ n.toNat) (second : e.strikes = 1) :
    stripPass l pc n = none := by
  simp only [stripPass, h, if_neg (Nat.not_lt.mpr more), second, if_true]

end

/-- Settles O6: with c7 set, the branch does what `stripPass` makes of the table; with c7 clear it drops its entry. -/
theorem stripBranch : Obligations.StripBranch := by
  unfold Obligations.StripBranch
  intro s off m old rest takes
  refine ⟨bs_passes off s, fun c7 => ⟨?new, ?progress, ?strike, ?stuck⟩⟩
  case new => exact fun h => bs_takes c7 (stripPass_new h)
  case progress => exact fun e h less => bs_takes c7 (stripPass_progress h less)
  case strike => exact fun e h more first => bs_takes c7 (stripPass_strike h more first)
  case stuck => exact fun e h more second => bs_traps c7 (stripPass_stuck h more second)

/-! ## Hardware loops (R91) -/

/-- The level that encloses a loop with the end `e` ends before it. -/
def endsBeyond (t : Slot) (e : Word) : Prop := t.lpdepth ≠ 0 ∧ (t.level (t.lpdepth - 1)).fin.toNat < e.toNat

/-- A slot that has entered a loop with the count `n` and the end `e`. -/
def loopEntered (n : Nat) (e : Word) (t : Slot) : Slot :=
  { t.setLevel t.lpdepth { beg := t.pc + 4, fin := e, cnt := BitVec.ofNat 32 (n - 1), idx := 0 } with lpdepth := t.lpdepth + 1 }

theorem endsBeyond_iff (t : Slot) (e : Word) :
    endsBeyond t e ↔ (t.lpdepth == 0 || decide (e.toNat ≤ (t.level (t.lpdepth - 1)).fin.toNat)) = false := by
  simp [endsBeyond]

section

variable {n : Nat} {off : BitVec 13} {s : State}

theorem enterLoop_big (big : 2 ^ 32 ≤ n) : enterLoop n off s = .error (.trap causeOperand (BitVec.ofNat 64 n)) s := by
  unfold enterLoop
  rw [bind_run, getMe_run]
  exact check_bind_fail (decide_eq_false (by omega)) ..

/-- A count that is allowed: the end is checked, and then the loop is skipped or entered. -/
theorem enterLoop_small (small : n < 2 ^ 32) : enterLoop n off s = (do
    check (s.me.lpdepth == 0 || decide ((s.me.pc + zimm off * 4).toNat ≤ (s.me.level (s.me.lpdepth - 1)).fin.toNat)) causeOperand
      (s.me.pc + zimm off * 4)
    if n = 0 then pure (.edgeAt (s.me.pc + zimm off * 4))
    else do
      check (decide (s.me.lpdepth < 6)) causeLoop s.me.pc
      modMe (loopEntered n (s.me.pc + zimm off * 4))
      pure .next : M Flow) s := by
  unfold enterLoop
  rw [bind_run, getMe_run]
  exact check_bind_pass (decide_eq_true (by omega)) ..

theorem enterLoop_beyond (small : n < 2 ^ 32) (beyond : endsBeyond s.me (s.me.pc + zimm off * 4)) :
    enterLoop n off s = .error (.trap causeOperand (s.me.pc + zimm off * 4)) s := by
  rw [enterLoop_small small]
  exact check_bind_fail ((endsBeyond_iff _ _).mp beyond) ..

theorem enterLoop_inside (small : n < 2 ^ 32) (inside : ¬ endsBeyond s.me (s.me.pc + zimm off * 4)) :
    enterLoop n off s = (if n = 0 then pure (.edgeAt (s.me.pc + zimm off * 4))
      else do
        check (decide (s.me.lpdepth < 6)) causeLoop s.me.pc
        modMe (loopEntered n (s.me.pc + zimm off * 4))
        pure .next : M Flow) s := by
  rw [enterLoop_small small]
  exact check_bind_pass (Bool.not_eq_false _ ▸ mt (endsBeyond_iff _ _).mpr inside) ..

end

/-- `loop` and `loopi` enter a loop with their count. -/
theorem exec_loop {s : State} {i : Instr} {n : Nat} {off : BitVec 13}
    (h : (∃ rs1, i = .loop rs1 off ∧ n = (s.me.readX rs1).toNat) ∨ (∃ k, i = .loopi k off ∧ n = k.toNat)) :
    ∃ w, exec i s = run w (enterLoop n off) s := by
  rcases h with ⟨rs1, rfl, rfl⟩ | ⟨k, rfl, rfl⟩
  · refine ⟨wordLoop rs1 off, ?_⟩
    show run _ (getX rs1 >>= fun a => enterLoop a.toNat off) s = _
    unfold run
    rw [bind_run, getX_run]
  · exact ⟨_, rfl⟩

/-- Settles O7: the checks of `enterLoop` in order, and then the skip, the full stack or the new level. -/
theorem hardwareLoopEntry : Obligations.HardwareLoopEntry := by
  unfold Obligations.HardwareLoopEntry
  intro s i n off h m e beyond
  obtain ⟨w, hi⟩ := exec_loop h
  refine ⟨?big, ?beyond, ?skip, ?full, ?enter⟩
  case big => exact fun big => traps_run hi (enterLoop_big big)
  case beyond => exact fun small far => traps_run hi (enterLoop_beyond small far)
  case skip =>
    intro inside zero
    refine ⟨retire (.edgeAt e) (turnsOver s s), ?_, retire_edgeAt e _⟩
    rw [hi]
    unfold run
    rw [enterLoop_inside (by omega) inside, if_pos zero]
    rfl
  case full =>
    intro small inside some deep
    refine traps_run hi ?_
    rw [enterLoop_inside small inside, if_neg some]
    exact check_bind_fail (decide_eq_false (Nat.not_lt.mpr deep)) ..
  case enter =>
    intro small inside some room
    have run : completes i s (loopEntered n e) := by
      refine completes_run hi ?_
      rw [enterLoop_inside small inside, if_neg some]
      exact check_bind_pass (decide_eq_true room) ..
    unfold completes at run ⊢
    rwa [mapMe_congr (f := loopEntered n e) rfl] at run

/-! ## Trap entry and return (R101, R102, R318) -/

theorem status_entry (t : Slot) :
    ((if t.sup then 4#64 else 0#64) ||| 1#64) = if t.status.getLsbD 0 then 5 else 1 := by
  unfold Slot.sup
  cases t.status.getLsbD 0 <;> rfl

theorem status_return (v : Word) : v >>> 2 &&& 3 = BitVec.ofNat 64 (v.toNat / 4 % 4) := by
  apply BitVec.eq_of_toNat_eq
  have low : v.toNat / 4 &&& 3 = v.toNat / 4 % 4 := Nat.and_two_pow_sub_one_eq_mod _ 2
  have fits : v.toNat / 4 % 4 < 2 ^ 64 := by omega
  rw [BitVec.toNat_and, BitVec.toNat_ushiftRight, Nat.shiftRight_eq_div_pow, BitVec.toNat_ofNat, Nat.mod_eq_of_lt fits]
  exact low

/-- An instruction that is run through to a return resumes as one that transfers control and pops no level. -/
theorem jumps_resume {i : Instr} {s : State} {f : Slot → Slot} {w : IWord} {m : M Flow} {a : Word}
    (h : exec i s = run w m s) (hm : m s = .ok (.resumeAt a) (mapMe f s)) : jumps i s f a false := by
  refine jumps_goto ?_
  rw [h]
  unfold run
  rw [hm]
  rfl

theorem returnFromTrap_aligned {s : State} (h : s.me.epc.toNat % 4 = 0) : returnFromTrap s =
    .ok (.resumeAt s.me.epc) (mapMe (fun t => { t with status := BitVec.ofNat 64 (t.status.toNat / 4 % 4) }) s) := by
  unfold returnFromTrap
  rw [bind_run, getMe_run]
  refine (check_bind_pass ((lowBits_eq_zero _).trans (decide_eq_true h)) ..).trans ?_
  simp only [← status_return]
  rfl

theorem returnFromTrap_unaligned {s : State} (h : s.me.epc.toNat % 4 ≠ 0) :
    returnFromTrap s = .error (.trap causeMisaligned s.me.epc) s := by
  unfold returnFromTrap
  rw [bind_run, getMe_run]
  exact check_bind_fail ((lowBits_eq_zero _).trans (decide_eq_false h)) ..

/-- Settles O29: trap entry by its definition, and `eret` by its two checks. -/
theorem trapEntryAndReturn : Obligations.TrapEntryAndReturn := by
  unfold Obligations.TrapEntryAndReturn
  refine ⟨?entry, ?eret⟩
  case entry =>
    intro s c v e t
    refine ⟨rfl, fun q other => slot_mapMe_ne _ _ _ other, ?_⟩
    rw [← status_entry]
    exact me_mapMe _ _
  case eret =>
    intro s sup
    have super (h : sup = true) : (guardS (wordSys 2 0 0) >>= fun _ => returnFromTrap) s = returnFromTrap s := by
      rw [bind_run, guardS_run, check_pass s.me.sup _ _ _ h]
    refine ⟨?_, fun h unaligned => traps_run rfl ((super h).trans (returnFromTrap_unaligned unaligned)),
      fun h aligned => jumps_resume rfl ((super h).trans (returnFromTrap_aligned aligned))⟩
    intro w hw user
    have word : wordSys 2 0 0 = w := Option.some.inj hw
    refine traps_run (w := wordSys 2 0 0) rfl ?_
    rw [← word, bind_run, guardS_run, check_fail s.me.sup _ _ _ user]

end Sys2Proof.Laws

/-! SUPPORT. Scalar loads and stores (R94): the alignment trap, and the one access. -/

namespace Sys2Proof.Laws

open Sys2Proof Sys2Proof.Machine

/-! ## How many bytes a read gives -/

theorem natOfBytes_lt (bs : List Byte) : natOfBytes bs < 256 ^ bs.length := by
  induction bs with
  | nil => simp [natOfBytes]
  | cons b r ih =>
    have byte : b.toNat < 256 := b.isLt
    rw [natOfBytes, List.length_cons, Nat.pow_succ]
    omega

/-- What an action tells of each of its results, it tells of the list that it collects. -/
theorem collect_map {α β γ : Type} {f : α → M β} {p : α → γ} {q : β → γ} (h : ∀ a s b t, f a s = .ok b t → q b = p a)
    {l : List α} {s t : State} {bs : List β} (e : collect l f s = .ok bs t) : bs.map q = l.map p := by
  induction l generalizing s bs with
  | nil => cases e; rfl
  | cons a r ih =>
    unfold collect at e
    split at e
    · rename_i b u hb
      split at e
      · rename_i cs v hc
        cases e
        rw [List.map_cons, List.map_cons, h _ _ _ _ hb, ih hc]
      · cases e
    · cases e

theorem readGran_length {a : Agent} {lvl ord pa k : Nat} {va : Word} {s t : State} {bs : List Byte}
    (h : readGran a lvl ord pa k va s = .ok bs t) : bs.length = k := by
  unfold readGran at h
  dsimp only at h
  generalize (if ord = 1 then pushDown a.core a.cluster a.queue (pa / 64) (gatherAt a.core a.cluster (pa / 64) s)
    else gatherAt a.core a.cluster (pa / 64) s) = u at h
  split at h
  · cases h
  · split at h
    · cases h
    · split at h
      · cases h; simp
      · split at h
        · cases h
        · cases h; simp

/-- The granules of an access make up its length. -/
theorem granules_sum (f pa n : Nat) (h : n ≤ f) : ((granules f pa n).map (·.2)).sum = n := by
  induction f generalizing pa n with
  | zero => rw [Nat.le_zero.mp h]; rfl
  | succ f ih =>
    unfold granules
    split
    · next zero => rw [zero]; rfl
    · next some =>
      have rest := ih (pa + min n (8 - pa % 8)) (n - min n (8 - pa % 8)) (by omega)
      simp only [List.map_cons, List.map_map, List.sum_cons, Function.comp_def, rest]
      omega

theorem readBytes_length {a : Agent} {sc : Scope} {l : Loc} {n : Nat} {va : Word} {s t : State} {bs : List Byte}
    (h : readBytes a sc l n va s = .ok bs t) : bs.length = n := by
  unfold readBytes at h
  cases place : l.place with
  | pad c o =>
    simp only [place] at h
    split at h
    · cases h
    · cases h; simp
  | phys pa =>
    simp only [place, bind_run] at h
    split at h
    · split at h
      · rename_i gs u hg
        cases h
        have lengths : gs.map List.length = (granules n pa n).map (·.2) := collect_map (fun _ _ _ _ r => readGran_length r) hg
        rw [List.length_flatten, lengths, granules_sum _ _ _ (Nat.le_refl n)]
      · cases h
    · cases h

/-- A number of `n` bytes that has been read. -/
theorem readLoc_lt {a : Agent} {sc : Scope} {l : Loc} {n v : Nat} {va : Word} {s t : State}
    (h : readLoc a sc l n va s = .ok v t) : v < 2 ^ (8 * n) := by
  unfold readLoc at h
  rw [bind_run] at h
  split at h
  · rename_i bs u hb
    cases h
    have bound := natOfBytes_lt bs
    rwa [readBytes_length hb, show 256 = 2 ^ 8 from rfl, ← Nat.pow_mul] at bound
  · cases h

/-! ## Loads -/

/-- The extension of what a load has read. -/
def extended (n : Nat) (signed : Bool) (v : Nat) : Word :=
  if signed then (BitVec.ofNat (8 * n) v).signExtend 64 else (BitVec.ofNat (8 * n) v).zeroExtend 64

theorem extended_eq {n v : Nat} (signed : Bool) (h : v < 2 ^ (8 * n)) :
    BitVec.ofInt 64 (if signed then sextNat (8 * n) v else v) = extended n signed v := by
  cases signed with
  | true => rw [if_pos rfl, sextNat_eq_toInt]; rfl
  | false =>
    apply BitVec.eq_of_toNat_eq
    rw [if_neg Bool.false_ne_true]
    simp [extended, Nat.mod_eq_of_lt h]

/-- The actions of a load at an address, after its start. -/
def loadAt (a : Agent) (n : Nat) (signed : Bool) (rd : Reg) (va : Word) : M Flow := do
  check (va.toNat % n == 0) causeAlignment va
  let v ← loadN a .sequencer va n
  setX rd (BitVec.ofInt 64 (if signed then sextNat (8 * n) v else v))
  pure .next

theorem load_eq (code n : Nat) (signed : Bool) (rd rs1 : Reg) (imm : BitVec 13) (s : State) : load code n signed rd rs1 imm s
    = run (wordLd imm code rs1 rd) (asLoad (loadAt s.agent n signed rd (s.me.readX rs1 + imm.signExtend 64))) s := by
  have slots := same_startLoad s
  have agent : (startLoad s).agent = s.agent := by unfold State.agent; rw [slots.me, slots.2]
  unfold load run asLoad
  rw [bind_run, getS_run]
  dsimp only
  rw [slots.me, agent]
  rfl

section

variable {a : Agent} {n : Nat} {signed : Bool} {rd : Reg} {va : Word} {s : State}

theorem loadAt_unaligned (h : va.toNat % n ≠ 0) : loadAt a n signed rd va s = .error (.trap causeAlignment va) s :=
  check_bind_fail (beq_eq_false_iff_ne.mpr h) ..

theorem loadAt_fault (h : va.toNat % n = 0) {e : Stop} {u : State} (fault : loadN a .sequencer va n s = .error e u) :
    loadAt a n signed rd va s = .error e u := by
  refine (check_bind_pass (beq_iff_eq.mpr h) ..).trans ?_
  rw [bind_run, fault]

theorem loadAt_done (h : va.toNat % n = 0) {l : Loc} {u w : State} {v : Nat} (ht : translate a .load va s = .ok l u)
    (hr : readLoc a .sequencer l n va u = .ok v w) :
    loadAt a n signed rd va s = .ok .next (mapMe (·.writeX rd (extended n signed v)) w) := by
  have value : loadN a .sequencer va n s = .ok v w := by
    unfold loadN
    rw [bind_run, ht]
    exact hr
  refine (check_bind_pass (beq_iff_eq.mpr h) ..).trans ?_
  rw [bind_run, value]
  dsimp only
  rw [extended_eq signed (readLoc_lt hr)]
  rfl

end

/-- What becomes of a load that traps: what it missed is counted all the same (R344). -/
theorem run_asLoad_trap {w : IWord} {m : M Flow} {s u : State} {c : Nat} {v : Word}
    (h : m (startLoad s) = .error (.trap c v) u) :
    run w (asLoad m) s = .next (takeTrap c v s.me.pc (turnsOver s (endLoad u))) := by
  unfold run asLoad
  rw [h]

theorem completesAs_asLoad {i : Instr} {w : IWord} {m : M Flow} {s u : State} (hi : exec i s = run w (asLoad m) s)
    (h : m (startLoad s) = .ok .next u) : completesAs i s u := by
  refine completesAs_counted (u := endLoad u) ?_ (counted_endLoad u)
  rw [hi]
  unfold run asLoad
  rw [h]

/-! ## Stores -/

/-- The actions of a store at an address. -/
def storeAt (a : Agent) (n v : Nat) (va : Word) : M Flow := do
  check (va.toNat % n == 0) causeAlignment va
  storeN a .sequencer va n v
  pure .next

theorem store_eq (code n : Nat) (rs1 data : Reg) (imm : BitVec 14) (s : State) : store code n rs1 data imm s
    = run (wordSt imm code rs1 data) (storeAt s.agent n (s.me.readX data).toNat (s.me.readX rs1 + imm.signExtend 64)) s := by
  unfold store run
  rw [bind_run, getS_run]
  rfl

section

variable {a : Agent} {n v : Nat} {va : Word} {s : State}

theorem storeAt_unaligned (h : va.toNat % n ≠ 0) : storeAt a n v va s = .error (.trap causeAlignment va) s :=
  check_bind_fail (beq_eq_false_iff_ne.mpr h) ..

theorem storeAt_fault (h : va.toNat % n = 0) {e : Stop} {u : State} (fault : storeN a .sequencer va n v s = .error e u) :
    storeAt a n v va s = .error e u := by
  refine (check_bind_pass (beq_iff_eq.mpr h) ..).trans ?_
  rw [bind_run, fault]

theorem storeAt_done (h : va.toNat % n = 0) {l : Loc} {u w : State} (ht : translate a .store va s = .ok l u)
    (hw : writeLoc a .sequencer l n v va u = .ok () w) : storeAt a n v va s = .ok .next w := by
  refine (check_bind_pass (beq_iff_eq.mpr h) ..).trans ?_
  unfold storeN
  rw [bind_run, bind_run, ht]
  dsimp only
  rw [hw]
  rfl

end

/-! ## The statement -/

/-- Each of the loads is `load` with its width and its extension. -/
theorem exec_load {i : Instr} {rd rs1 : Reg} {imm : BitVec 13} {n : Nat} {signed : Bool}
    (h : (i = .ldB rd rs1 imm ∧ n = 1 ∧ signed = true) ∨ (i = .ldH rd rs1 imm ∧ n = 2 ∧ signed = true)
      ∨ (i = .ldW rd rs1 imm ∧ n = 4 ∧ signed = true) ∨ (i = .ldD rd rs1 imm ∧ n = 8 ∧ signed = true)
      ∨ (i = .ldBu rd rs1 imm ∧ n = 1 ∧ signed = false) ∨ (i = .ldHu rd rs1 imm ∧ n = 2 ∧ signed = false)
      ∨ (i = .ldWu rd rs1 imm ∧ n = 4 ∧ signed = false)) (s : State) :
    ∃ code, exec i s = load code n signed rd rs1 imm s := by
  obtain ⟨rfl, rfl, rfl⟩ | ⟨rfl, rfl, rfl⟩ | ⟨rfl, rfl, rfl⟩ | ⟨rfl, rfl, rfl⟩ | ⟨rfl, rfl, rfl⟩ | ⟨rfl, rfl, rfl⟩
    | ⟨rfl, rfl, rfl⟩ := h
  exacts [⟨0, rfl⟩, ⟨1, rfl⟩, ⟨2, rfl⟩, ⟨3, rfl⟩, ⟨4, rfl⟩, ⟨5, rfl⟩, ⟨6, rfl⟩]

/-- Each of the stores is `store` with its width. -/
theorem exec_store {i : Instr} {rs1 data : Reg} {imm : BitVec 14} {n : Nat}
    (h : (i = .stB rs1 data imm ∧ n = 1) ∨ (i = .stH rs1 data imm ∧ n = 2) ∨ (i = .stW rs1 data imm ∧ n = 4)
      ∨ (i = .stD rs1 data imm ∧ n = 8)) (s : State) : ∃ code, exec i s = store code n rs1 data imm s := by
  obtain ⟨rfl, rfl⟩ | ⟨rfl, rfl⟩ | ⟨rfl, rfl⟩ | ⟨rfl, rfl⟩ := h
  exacts [⟨0, rfl⟩, ⟨1, rfl⟩, ⟨2, rfl⟩, ⟨3, rfl⟩]

/-- Settles O9: after the alignment check a load or store is its one access, and a load counts what it missed. -/
theorem scalarLoadsAndStores : Obligations.ScalarLoadsAndStores := by
  unfold Obligations.ScalarLoadsAndStores
  refine ⟨?loads, ?stores⟩
  case loads =>
    intro s i rd rs1 imm n signed h a
    obtain ⟨code, hi⟩ := exec_load h s
    replace hi := hi.trans (load_eq ..)
    exact ⟨fun unaligned => hi.trans (run_asLoad_trap (loadAt_unaligned unaligned)),
      fun aligned l u v w ht hr => completesAs_asLoad hi (loadAt_done aligned ht hr),
      fun aligned c e u fault => hi.trans (run_asLoad_trap (loadAt_fault aligned fault))⟩
  case stores =>
    intro s i rs1 data imm n h a
    obtain ⟨code, hi⟩ := exec_store h s
    replace hi := hi.trans (store_eq ..)
    refine ⟨fun unaligned => traps_run hi (storeAt_unaligned unaligned),
      fun aligned l u w ht hw => completesAs_run hi (storeAt_done aligned ht hw), fun aligned c e u fault => ?_⟩
    rw [hi]
    unfold run
    rw [storeAt_fault aligned fault]

end Sys2Proof.Laws

/-! SUPPORT. Fused, widening, dot and quad forms (R112 to R115): they are element-wise instructions, of which the accumulating ones
read their destination as the third source. -/

namespace Sys2Proof.Laws

open Sys2Proof Sys2Proof.Machine

/-! ## Format classes -/

theorem clsFp_eq (x : Fmt) (w : Nat) : clsFp x w = (x == .fp32 || x == .fp16 || x == .bf16) := by
  cases x <;> rfl

theorem clsMx8_eq (x : Fmt) (w : Nat) : clsMx8 x w = (x == .e4m3 || x == .e5m2) := by
  cases x <;> rfl

theorem clsL6_eq (x : Fmt) (w : Nat) : clsL6 x w = (x == .l6) := by
  cases x <;> rfl

/-! ## Operands and results as numbers -/

/-- An operand is read at its width. -/
theorem read_lt (t : Slot) (o : VOp) (w e : Nat) : t.read o w e < 2 ^ w := by
  have elem (r e : Nat) : t.elem r w e < 2 ^ w := BitVec.isLt _
  have low (v : Nat) : v % 2 ^ w < 2 ^ w := Nat.mod_lt _ (Nat.two_pow_pos w)
  unfold Slot.read
  split
  · exact elem _ _
  · dsimp only
    split
    · split
      · exact low _
      · exact low _
      · exact Nat.two_pow_pos w
    · exact elem _ _

theorem encodeInt_eq (n : Nat) (i : Int) : encodeInt n i = (BitVec.ofInt n i).toNat := by
  rw [BitVec.toNat_ofInt]
  norm_cast

theorem intOf_eq (signed : Bool) (w v : Nat) :
    intOf signed w v = if signed then (BitVec.ofNat w v).toInt else ((BitVec.ofNat w v).toNat : Int) := by
  unfold intOf
  rw [sextNat_eq_toInt, BitVec.toNat_ofNat]

/-- The selection of bits by a third number (`vbsel`). -/
theorem select_eq {w a b c : Nat} (ha : a < 2 ^ w) (hb : b < 2 ^ w) (hc : c < 2 ^ w) :
    (c &&& a) ||| ((2 ^ w - 1 - c) &&& b)
      = ((BitVec.ofNat w c &&& BitVec.ofNat w a) ||| (~~~BitVec.ofNat w c &&& BitVec.ofNat w b)).toNat := by
  simp only [BitVec.toNat_or, BitVec.toNat_and, BitVec.toNat_not, BitVec.toNat_ofNat, Nat.mod_eq_of_lt ha, Nat.mod_eq_of_lt hb,
    Nat.mod_eq_of_lt hc]

/-! ## The shapes -/

section

variable {i : Instr} {s : State} {rep : Rep} {k : KReg} {vd vs1 vs2 vs3 : Reg} {f5 : Nat} {cls : Fmt → Nat → Bool} {ok : Bool}

/-- An accumulating instruction. -/
theorem vacc_elementwise {dq dw : Nat → Nat} {q d ratio : Nat} {f : Slot → (Nat → Nat) → (Nat → Nat) → Nat → Nat → FRes}
    {g : Nat → Nat → FRes}
    (hi : exec i s = vacc (wordV f5 rep k vs2 vs1 vd 0x23) cls rep k vd vs1 vs2 dq dw ratio f s)
    (hw : encode i = some (pack (BitVec.ofNat 5 f5 ++ rep.rsz ++ rep.repBit ++ k) vs2 vs1 vd 35#6))
    (hok : cls s.me.fmt s.me.ew = ok) (hq : dq s.me.ew = q) (hd : dw s.me.ew = d)
    (hf : f s.me (fun j => if j < s.me.vl then s.me.read (s.me.opw vs1) s.me.ew j else 0)
      (fun j => if j < s.me.vl then s.me.read { s.me.opw vs2 with rep := rep } s.me.ew j else 0) = g) :
    elementwise i s ok [s.me.opw vs1, { s.me.opw vs2 with rep := rep }, { r := vd, quarters := q, wide := ratio != 1 },
        { r := vd, quarters := q, wide := ratio != 1, dest := true }] k vd d
      ((s.me.vl + ratio - 1) / ratio) ((s.me.vlmax + ratio - 1) / ratio) ratio fun e => g e (s.me.elem vd.toNat d e) := by
  subst hq hd hf
  have run := elementwise_run (cls := cls) (extra := fun _ => true) (os := fun t => [t.opw vs1, { t.opw vs2 with rep := rep },
      { r := vd, quarters := dq t.ew, wide := ratio != 1 }, { r := vd, quarters := dq t.ew, wide := ratio != 1, dest := true }])
    hi (hw.trans (congrArg some (wordV_pack ..).symm)) rfl (by simp [Slot.opw])
  rwa [hok, Bool.and_true] at run

/-- A quad form. -/
theorem vquad_elementwise {f6 : Nat} {f : Slot → Nat → Nat → Nat → FRes} {g : Nat → Nat → Nat → FRes}
    (hi : exec i s = vquad f6 cls vd vs1 vs2 vs3 f s)
    (hw : encode i = some (pack (BitVec.ofNat 6 f6 ++ vs3) vs2 vs1 vd 43#6)) (hok : cls s.me.fmt s.me.ew = ok)
    (hf : ∀ a b c, a < 2 ^ s.me.ew → b < 2 ^ s.me.ew → c < 2 ^ s.me.ew → f s.me a b c = g a b c) :
    elementwise i s ok [s.me.opw vs1, s.me.opw vs2, s.me.opw vs3, s.me.dst vd] 0 vd s.me.ew s.me.vl s.me.vlmax 1 fun e =>
      g (s.me.read (s.me.opw vs1) s.me.ew e) (s.me.read (s.me.opw vs2) s.me.ew e) (s.me.read (s.me.opw vs3) s.me.ew e) := by
  have run := elementwise_run (cls := cls) (extra := fun _ => true) (os := fun t => [t.opw vs1, t.opw vs2, t.opw vs3, t.dst vd])
    hi hw rfl (by simp [Slot.opw, Slot.dst])
  rw [hok, Bool.and_true] at run
  have same (e : Nat) := hf _ _ _ (read_lt s.me (s.me.opw vs1) s.me.ew e) (read_lt s.me (s.me.opw vs2) s.me.ew e)
    (read_lt s.me (s.me.opw vs3) s.me.ew e)
  simpa only [same] using run

/-- An instruction of two sources. -/
theorem vec2_elementwise {op : Nat} {f : Slot → Nat → Nat → Nat → FRes}
    (hi : exec i s = vec2 (wordV f5 rep k vs2 vs1 vd op) cls rep k vd vs1 vs2 f s)
    (hw : encode i = some (pack (BitVec.ofNat 5 f5 ++ rep.rsz ++ rep.repBit ++ k) vs2 vs1 vd (BitVec.ofNat 6 op)))
    (hok : cls s.me.fmt s.me.ew = ok) :
    elementwise i s ok [s.me.opw vs1, { s.me.opw vs2 with rep := rep }, s.me.dst vd] k vd s.me.ew s.me.vl s.me.vlmax 1 fun e =>
      f s.me e (s.me.read (s.me.opw vs1) s.me.ew e) (s.me.read { s.me.opw vs2 with rep := rep } s.me.ew e) := by
  have run := elementwise_run (cls := cls) (extra := fun _ => true)
    (os := fun t => [t.opw vs1, { t.opw vs2 with rep := rep }, t.dst vd])
    hi (hw.trans (congrArg some (wordV_pack ..).symm)) rfl (by simp [Slot.opw, Slot.dst])
  rwa [hok, Bool.and_true] at run

end

/-- Settles O14: the accumulating forms are `vacc`, the quad forms `vquad`, and `vl6mul` a `vec2`, each with its class and its
function of the elements. -/
theorem vectorFusedForms : Obligations.VectorFusedForms := by
  unfold Obligations.VectorFusedForms
  intro s rep k vd vs1 vs2 vs3 t w b2 isInt isFp x r av bv acc fused quad quadFused int
  have fp : clsFp t.fmt w = isFp := clsFp_eq ..
  have ints : clsInt t.fmt w = isInt := clsInt_eq ..
  have accumulates {i : Instr} {f5 : Nat} {cls : Fmt → Nat → Bool} {ok : Bool} {dq dw : Nat → Nat} {q d ratio : Nat}
      {f : Slot → (Nat → Nat) → (Nat → Nat) → Nat → Nat → FRes} {g : Nat → Nat → FRes}
      (hi : exec i s = vacc (wordV f5 rep k vs2 vs1 vd 0x23) cls rep k vd vs1 vs2 dq dw ratio f s)
      (hw : encode i = some (pack (BitVec.ofNat 5 f5 ++ rep.rsz ++ rep.repBit ++ k) vs2 vs1 vd 35#6))
      (hok : cls t.fmt w = ok) (hq : dq w = q) (hd : dw w = d) (hf : f t av bv = g) : acc i ok q d ratio g :=
    vacc_elementwise hi hw hok hq hd hf
  have quads {i : Instr} {f6 : Nat} {cls : Fmt → Nat → Bool} {ok : Bool} {f : Slot → Nat → Nat → Nat → FRes} {g : Nat → Nat → Nat → FRes}
      (hi : exec i s = vquad f6 cls vd vs1 vs2 vs3 f s) (hw : encode i = some (pack (BitVec.ofNat 6 f6 ++ vs3) vs2 vs1 vd 43#6))
      (hok : cls t.fmt w = ok) (hf : ∀ a b c, a < 2 ^ w → b < 2 ^ w → c < 2 ^ w → f t a b c = g a b c) : quad i ok g :=
    vquad_elementwise hi hw hok hf
  have fma {i : Instr} {f5 : Nat} {np nc : Bool} (hi : exec i s = vfma f5 rep k vd vs1 vs2 np nc s)
      (hw : encode i = some (pack (BitVec.ofNat 5 f5 ++ rep.rsz ++ rep.repBit ++ k) vs2 vs1 vd 35#6)) : fused i np nc :=
    accumulates hi hw fp rfl rfl rfl
  have quadFma {i : Instr} {f6 : Nat} {np nc : Bool} (hi : exec i s = vquadFma f6 vd vs1 vs2 vs3 np nc s)
      (hw : encode i = some (pack (BitVec.ofNat 6 f6 ++ vs3) vs2 vs1 vd 43#6)) : quadFused i np nc :=
    quads hi hw fp fun _ _ _ _ _ _ => rfl
  clear_value acc quad
  refine ⟨?vfmacc, ?vfnmacc, ?vfmsac, ?vfnmsac, ?vfwmacc, ?vfdot4, ?vl6mul, ?vl6dot, ?vmacc, ?vwmacc, ?vfmadd, ?vfmsub, ?vfnmadd,
    ?vfnmsub, ?vbsel, ?vmadd⟩
  case vfmacc => exact fma rfl rfl
  case vfnmacc => exact fma rfl rfl
  case vfmsac => exact fma rfl rfl
  case vfnmsac => exact fma rfl rfl
  case vfwmacc => exact accumulates (.refl (execVfwmacc rep k vd vs1 vs2 s)) rfl (congrArg (· && w == 16) fp) rfl rfl rfl
  case vfdot4 => exact accumulates (.refl (execVfdot4 rep k vd vs1 vs2 s)) rfl (clsMx8_eq ..) rfl rfl rfl
  case vl6mul => exact vec2_elementwise (i := .vl6mul rep k vd vs1 vs2) (.refl (execVl6mul rep k vd vs1 vs2 s)) rfl (clsL6_eq ..)
  case vl6dot => exact accumulates (.refl (execVl6dot rep k vd vs1 vs2 s)) rfl (clsL6_eq ..) rfl rfl rfl
  case vmacc => exact accumulates (.refl (execVmacc rep k vd vs1 vs2 s)) rfl ints rfl rfl rfl
  case vwmacc =>
    refine accumulates (.refl (execVwmacc rep k vd vs1 vs2 s)) rfl (congrArg (· && decide (w ≤ 32)) ints) rfl rfl ?_
    funext e c
    rw [encodeInt_eq, intOf_eq, intOf_eq]
  case vfmadd => exact quadFma rfl rfl
  case vfmsub => exact quadFma rfl rfl
  case vfnmadd => exact quadFma rfl rfl
  case vfnmsub => exact quadFma rfl rfl
  case vbsel =>
    exact quads (.refl (execVbsel vd vs1 vs2 vs3 s)) rfl rfl fun _ _ _ ha hb hc => congrArg (FRes.mk · 0) (select_eq ha hb hc)
  case vmadd => exact quads (.refl (execVmadd vd vs1 vs2 vs3 s)) rfl ints fun _ _ _ _ _ _ => rfl

end Sys2Proof.Laws

/-! SUPPORT. The vector configuration (R90, R104, R105, R172, R343): a lane change leaves the running thread where it is, and the
end of `setvl` and `setvlc` opens a strip. -/

namespace Sys2Proof.Laws

open Sys2Proof Sys2Proof.Machine

/-! ## A lane change (R104, R152) -/

/-- The thread of a slot is where it was, or a new one has started there, whose breakpoint is off (R31). -/
def StaysOrStarts (q : SeqId) (s t : State) : Prop :=
  t.cur = s.cur ∧ ((t.slot q).bpctl = 0 ∨ ((t.slot q).pc = (s.slot q).pc ∧ (t.slot q).bpctl = (s.slot q).bpctl))

namespace StaysOrStarts

variable {q : SeqId} {s t u : State}

theorem refl (q : SeqId) (s : State) : StaysOrStarts q s s := ⟨rfl, .inr ⟨rfl, rfl⟩⟩

theorem trans (h : StaysOrStarts q s t) (g : StaysOrStarts q t u) : StaysOrStarts q s u := by
  obtain ⟨hc, hs⟩ := h
  obtain ⟨gc, gs⟩ := g
  refine ⟨gc.trans hc, ?_⟩
  rcases gs with off | ⟨gp, gb⟩
  · exact .inl off
  · rcases hs with off | ⟨hp, hb⟩
    · exact .inl (gb.trans off)
    · exact .inr ⟨gp.trans hp, gb.trans hb⟩

theorem of_same (h : SameSlots s t) : StaysOrStarts q s t :=
  ⟨h.2, .inr (by rw [slot_of_slots h.1]; exact ⟨rfl, rfl⟩)⟩

theorem mapSlot (r : SeqId) {f : Slot → Slot} (h : ∀ t, (f t).bpctl = 0 ∨ ((f t).pc = t.pc ∧ (f t).bpctl = t.bpctl)) (s : State) :
    StaysOrStarts q s (mapSlot r f s) := by
  refine ⟨rfl, ?_⟩
  by_cases e : q = r
  · rw [e, slot_mapSlot_self]; exact h _
  · rw [slot_mapSlot_ne _ _ _ _ e]; exact .inr ⟨rfl, rfl⟩

theorem foldl {α : Type} {f : State → α → State} (h : ∀ s a, StaysOrStarts q s (f s a)) (l : List α) (s : State) :
    StaysOrStarts q s (l.foldl f s) := by
  induction l generalizing s with
  | nil => exact refl q s
  | cons a r ih => exact (h s a).trans (ih _)

theorem takeUnitsOf (r : SeqId) (n : Nat) (s : State) : StaysOrStarts q s (takeUnitsOf r n s) := by
  refine mapSlot r ?_ s
  exact fun _ => .inr ⟨rfl, rfl⟩

theorem shrinkFor (f : Nat) (l : List SeqId) (need : Nat) (s : State) : StaysOrStarts q s (shrinkFor f l need s) := by
  induction f generalizing l need s with
  | zero => exact refl q s
  | succ f ih =>
    unfold Machine.shrinkFor
    split
    · exact refl q s
    · split
      · exact refl q s
      · refine StaysOrStarts.trans ?_ (ih _ _ _)
        split
        · exact refl q s
        · exact takeUnitsOf _ _ s

theorem replaceLost (c : CoreId) (s : State) : StaysOrStarts q s (replaceLost c s) := by
  refine foldl (fun s r => ?_) _ s
  split
  · exact refl q s
  · split
    · refine mapSlot r ?_ s
      exact fun _ => .inr ⟨rfl, rfl⟩
    · dsimp only
      split
      · exact refl q s
      · exact shrinkFor _ _ _ s

theorem elasticGrant (c : CoreId) (s : State) : StaysOrStarts q s (elasticGrant c s) := by
  unfold Machine.elasticGrant
  dsimp only
  split
  · exact refl q s
  · split
    · exact refl q s
    · refine mapSlot _ ?_ s
      exact fun _ => .inr ⟨rfl, rfl⟩

/-- The record that has waited on the core may start in any of its slots. -/
theorem startWaiting (c : CoreId) (w : CoreWait) (s : State) : StaysOrStarts q s (startWaiting c w s) := by
  unfold Machine.startWaiting
  split
  · exact mapSlot _ (fun _ => .inl rfl) (mapCore c (fun t => { t with coreWait := none }) s)
  · exact refl q s

theorem reconsider (c : CoreId) (s : State) : StaysOrStarts q s (reconsider c s) := by
  unfold Machine.reconsider
  dsimp only
  generalize hu : (busySeqs s c).foldl _ s = u
  have again : StaysOrStarts q s u := by
    rw [← hu]
    refine foldl (fun v r => ?_) _ s
    refine mapSlot r ?_ v
    exact fun _ => .inr ⟨rfl, rfl⟩
  refine (again.trans (replaceLost c u)).trans ?_
  split
  · exact elasticGrant c _
  · generalize hv : Machine.shrinkFor 4 _ _ (Machine.replaceLost c u) = v
    have shrunk : StaysOrStarts q (Machine.replaceLost c u) v := hv ▸ shrinkFor _ _ _ _
    refine shrunk.trans ?_
    split
    · exact (startWaiting _ _ _).trans (elasticGrant _ _)
    · exact refl q _

theorem applyLanes (r : SeqId) (s : State) : StaysOrStarts q s (applyLanes r s) := by
  unfold Machine.applyLanes
  dsimp only
  refine StaysOrStarts.trans ?_ (reconsider _ _)
  split
  · exact refl q s
  · exact mapSlot r (f := fun t => { t with
      lpart := (s.slot r).pending &&& ~~~(s.core (coreOf r)).lanemap
      lanes := Vector.replicate 64 0, masks := Vector.replicate 8 0 }) (fun _ => .inr ⟨rfl, rfl⟩) s

end StaysOrStarts

/-! ## The end of `setvl` and `setvlc` -/

/-- The slot that a grant `g` under the image `img` leaves (R104): configured, with the destination, c7 and a new strip. -/
def stripOpened (rd : Reg) (img captured chidx : Word) (g : Nat) (u : Slot) : Slot :=
  let v := ({ u with vtype := if u.vlmaxOf img = 0 then villWord else img, vl := if u.vlmaxOf img = 0 then 0 else g } : Slot).cutMasks
  { (v.writeX rd (BitVec.ofNat 64 v.vl)).writeC 7 (v.vl != 0) with
    vstart := 0, vstate := 3, chidx := chidx, setvlAddr := u.pc, captured := captured, strip := u.strip + 1 }

/-- A slot at the strip that its breakpoint names (R343). -/
def stripBreaks (u : Slot) : Bool :=
  !u.sup && (Word.field u.bpctl 32 2 == 2 || (Word.field u.bpctl 32 2 == 1 && u.bpaddr == u.pc
    && (u.bpctl.extractLsb' 0 32 == u.strip || u.bpctl.extractLsb' 0 32 == BitVec.allOnes 32)))

/-- An instruction completes with `u` as its effect, and traps afterwards where a strip breakpoint is met. -/
def endsStrip (i : Instr) (s u : State) : Prop :=
  (stripBreaks u.me = false → completesAs i s u)
  ∧ (stripBreaks u.me = true → ∃ t, RetiresTo (turnsOver s u) t ∧ exec i s = .next (takeTrap causeBreak s.me.pc t.me.pc t))

/-- The last actions of `setvl` and `setvlc`. -/
def grantStrip (chained : Bool) (rd : Reg) (img captured chidx : Word) (g : Nat) : M Flow := do
  modMe fun t => { t.configure img g with chidx := chidx }
  openStrip chained rd captured

theorem configure_eq (t : Slot) (img : Word) (g : Nat) : t.configure img g
    = ({ t with vtype := if t.vlmaxOf img = 0 then villWord else img, vl := if t.vlmaxOf img = 0 then 0 else g } : Slot).cutMasks := by
  unfold Slot.configure
  split <;> rfl

theorem writeX_chidx (t : Slot) (r : Reg) (v c : Word) : ({ t with chidx := c } : Slot).writeX r v = { t.writeX r v with chidx := c } := by
  unfold Slot.writeX
  split <;> rfl

theorem writeC_chidx (t : Slot) (n : CBit) (b : Bool) (c : Word) :
    ({ t with chidx := c } : Slot).writeC n b = { t.writeC n b with chidx := c } := by
  unfold Slot.writeC
  split <;> rfl

theorem stripBreaks_off {u : Slot} (h : u.bpctl = 0) : stripBreaks u = false := by
  unfold stripBreaks
  rw [h]
  simp [Word.field]

/-- The slot after the configuration and after the opening. -/
theorem openedSlot_eq (rd : Reg) (img captured chidx : Word) (g : Nat) (u : Slot) :
    (let t := { u.configure img g with chidx := chidx }
     let t := (t.writeX rd (BitVec.ofNat 64 t.vl)).writeC 7 (t.vl != 0)
     ({ t with vstart := 0, vstate := 3, setvlAddr := t.pc, captured := captured, strip := t.strip + 1 } : Slot))
      = stripOpened rd img captured chidx g u := by
  unfold stripOpened
  rw [configure_eq]
  generalize hv : ({ u with vtype := if u.vlmaxOf img = 0 then villWord else img, vl := if u.vlmaxOf img = 0 then 0 else g } : Slot).cutMasks = v
  have hp : v.pc = u.pc := by rw [← hv]; rfl
  have hs : v.strip = u.strip := by rw [← hv]; rfl
  dsimp only
  rw [writeX_chidx, writeC_chidx]
  dsimp only
  rw [writeC_pc, writeX_pc, writeC_strip, writeX_strip, hp, hs]

/-- A trace record leaves the slots. -/
theorem counted_pushTrace (c : CoreId) (quads : List Word) (s : State) : Counted s (pushTrace c quads s) :=
  ⟨quiet_traceAt c s.cycle quads s, fun _ _ _ => rfl, s.me.smpctl, s.me.smpcnt, rfl⟩

/-- The end of `openStrip`. -/
theorem breakFlow_run (b : Bool) (s : State) :
    (if b then pure (.thenTrap causeBreak) else pure .next : M Flow) s = .ok (if b then .thenTrap causeBreak else .next) s := by
  cases b <;> rfl

theorem grantStrip_run (chained : Bool) (rd : Reg) (img captured chidx : Word) (g : Nat) (s : State) :
    ∃ v, grantStrip chained rd img captured chidx g s
        = .ok (if stripBreaks (stripOpened rd img captured chidx g s.me) then .thenTrap causeBreak else .next) v
      ∧ Counted (mapMe (stripOpened rd img captured chidx g) s) v := by
  unfold grantStrip openStrip
  rw [bind_run, modMe_run]
  dsimp only
  rw [bind_run, modMe_run]
  dsimp only
  rw [mapMe_mapMe, mapMe_congr (openedSlot_eq rd img captured chidx g s.me), ← me_mapMe s (stripOpened rd img captured chidx g)]
  generalize mapMe (stripOpened rd img captured chidx g) s = x
  rw [bind_run, getS_run]
  dsimp only
  have ends {y : State} (h : Counted x y) : Counted x (countEvent x.cur 5 1 x.me.pc y) := by
    rw [← h.quiet.cur]
    exact h.trans (counted_countEvent 5 1 x.me.pc y)
  have same : Counted x x := ⟨Quiet.refl x, fun _ _ _ => rfl, x.me.smpctl, x.me.smpcnt, rfl⟩
  by_cases on : traced x x.cur 2 = true
  · rw [if_pos on, bind_run, modS_run]
    dsimp only
    rw [bind_run, modS_run]
    exact ⟨_, breakFlow_run (stripBreaks x.me) _, ends (counted_pushTrace _ _ x)⟩
  · rw [if_neg on, bind_run, modS_run]
    exact ⟨_, breakFlow_run (stripBreaks x.me) _, ends same⟩

/-- Where a thread is and which breakpoint it has, a strip keeps. -/
theorem stripOpened_keeps (rd : Reg) (img captured chidx : Word) (g : Nat) (u : Slot) :
    (stripOpened rd img captured chidx g u).pc = u.pc ∧ (stripOpened rd img captured chidx g u).bpctl = u.bpctl := by
  unfold stripOpened
  dsimp only
  rw [writeC_pc, writeX_pc, writeC_bpctl, writeX_bpctl]
  exact ⟨rfl, rfl⟩

/-- An instruction that has come to `t`, where it opens its strip, ends so. -/
theorem ends_grantStrip {i : Instr} {s t : State} {w : IWord} {m : M Flow} {chained : Bool} {rd : Reg} {img captured chidx : Word}
    {g : Nat} (hi : exec i s = run w m s) (hm : m s = grantStrip chained rd img captured chidx g t)
    (here : t.me.bpctl = 0 ∨ t.me.pc = s.me.pc) : endsStrip i s (mapMe (stripOpened rd img captured chidx g) t) := by
  obtain ⟨v, hv, counted⟩ := grantStrip_run chained rd img captured chidx g t
  obtain ⟨hp, hb⟩ := stripOpened_keeps rd img captured chidx g t.me
  obtain ⟨x, y, me⟩ := counted.me
  have ran : exec i s = .next (retire (if stripBreaks (stripOpened rd img captured chidx g t.me) then .thenTrap causeBreak else .next)
      (turnsOver s v)) := by
    rw [hi, run, hm, hv]
  unfold endsStrip
  rw [me_mapMe]
  refine ⟨fun no => ?_, fun yes => ?_⟩
  · rw [if_neg (by rw [no]; decide)] at ran
    exact completesAs_counted ran counted
  · rw [if_pos yes] at ran
    have pc : v.me.pc = s.me.pc := by
      rw [me, me_mapMe]
      refine here.elim (fun off => ?_) fun same => hp.trans same
      rw [stripBreaks_off (hb.trans off)] at yes
      cases yes
    refine ⟨retire .next (turnsOver s v), ?_, ran.trans ?_⟩
    · refine retires_next counted.quiet counted.others ?_ ?_ ?_ ?_
      all_goals rw [me]
      rfl
    · unfold retire
      rw [turnsOver_me, pc]

/-- What opens a strip of a length that the slot gives (R104). -/
theorem openStrip_grantStrip (chained : Bool) (rd : Reg) (img captured chidx : Word) (g : Slot → Nat) (t : State) :
    (do modMe fun v => { v.configure img (g v) with chidx := chidx }
        openStrip chained rd captured : M Flow) t = grantStrip chained rd img captured chidx (g t.me) t := rfl

/-! ## The checks and the waits -/

theorem guardVecOn_off {α : Type} {s : State} (h : s.me.vstate = 0) (w : IWord) (f : Unit → M α) :
    (guardVecOn w >>= f) s = .error (.trap causeFirstUse (w.zeroExtend 64)) s :=
  bind_error (check_fail _ _ _ s (by rw [h]; rfl))

theorem guardVecOn_on {α : Type} {s : State} (h : s.me.vstate ≠ 0) (w : IWord) (f : Unit → M α) :
    (guardVecOn w >>= f) s = f () s :=
  bind_ok (check_pass _ _ _ s (bne_iff_ne.mpr h))

/-- Where a lane change of the running thread leaves it. -/
theorem applyLanes_at (s : State) : (applyLanes s.cur s).me.bpctl = 0 ∨ (applyLanes s.cur s).me.pc = s.me.pc := by
  obtain ⟨cur, stays⟩ := StaysOrStarts.applyLanes (q := s.cur) s.cur s
  have me : (applyLanes s.cur s).me = (applyLanes s.cur s).slot s.cur := by
    show (applyLanes s.cur s).slot _ = _
    rw [cur]
  rw [me]
  exact stays.imp id fun ⟨pc, _⟩ => pc

/-! ## `setvl` -/

/-- The actions of `setvl`. -/
def setvlActions (rd rs1 : Reg) (image : BitVec 15) (s : State) : M Flow := do
  if !s.vecDone then waitFor .transit
  if nextLanes s s.cur = 0 then waitFor .lane
  modS (applyLanes s.cur)
  modMe fun t => { t.configure (zimm image) (roundGrant (zimm image) (min (s.me.readX rs1).toNat (t.vlmaxOf (zimm image)))) with chidx := 0 }
  openStrip false rd (s.me.readX rs1)

theorem setvl_run (rd rs1 : Reg) (image : BitVec 15) {s : State} (on : s.me.vstate ≠ 0) :
    exec (.setvl rd rs1 image) s = run (wordVcfg 0 image rs1 rd) (setvlActions rd rs1 image s) s := by
  show execSetvl rd rs1 image s = _
  unfold execSetvl
  dsimp only
  unfold run
  rw [guardVecOn_on on]
  rfl

theorem setvl_off (rd rs1 : Reg) (image : BitVec 15) {s : State} (off : s.me.vstate = 0) :
    traps (.setvl rd rs1 image) s causeFirstUse ((wordVcfg 0 image rs1 rd).zeroExtend 64) :=
  traps_run (.refl (execSetvl rd rs1 image s)) (guardVecOn_off off _ _)

theorem setvl_busy (rd rs1 : Reg) (image : BitVec 15) {s : State} (on : s.me.vstate ≠ 0) (busy : s.vecDone = false) :
    holdsFor (.setvl rd rs1 image) s .transit := by
  refine holds_run (setvl_run rd rs1 image on) ?_
  unfold setvlActions
  rw [busy]
  rfl

theorem setvl_noLanes (rd rs1 : Reg) (image : BitVec 15) {s : State} (on : s.me.vstate ≠ 0) (done : s.vecDone = true)
    (none : nextLanes s s.cur = 0) : holdsFor (.setvl rd rs1 image) s .lane := by
  refine holds_run (setvl_run rd rs1 image on) ?_
  unfold setvlActions
  rw [done, if_pos none]
  rfl

theorem setvl_ends (rd rs1 : Reg) (image : BitVec 15) {s : State} (on : s.me.vstate ≠ 0) (done : s.vecDone = true)
    (some : nextLanes s s.cur ≠ 0) :
    endsStrip (.setvl rd rs1 image) s (mapMe (stripOpened rd (zimm image) (s.me.readX rs1) 0
      (roundGrant (zimm image) (min (s.me.readX rs1).toNat ((applyLanes s.cur s).me.vlmaxOf (zimm image))))) (applyLanes s.cur s)) := by
  refine ends_grantStrip (chained := false) (setvl_run rd rs1 image on) ?_ (applyLanes_at s)
  unfold setvlActions
  simp only [done, Bool.not_true, Bool.false_eq_true, if_false, if_neg some]
  rw [bind_ok (modS_run _ s)]
  exact openStrip_grantStrip false rd (zimm image) (s.me.readX rs1) 0 _ (applyLanes s.cur s)

/-! ## `setvlc` -/

/-- The thread waits at a chain record that it has read (R172). -/
def stalled (t : Slot) : Bool := match t.waiting with | some h => h.kind == .chain | none => false

/-- The slot with the lanes that `setvlc` uses (R104): a stalled one has taken them already. -/
def chainSlot (s : State) : Slot := { s.me with lpart := if stalled s.me then s.me.lpart else nextLanes s s.cur }

/-- The lane change of `setvlc`, which a stalled one has made already (R172). -/
def laneChange (s v : State) : State := if stalled s.me then v else applyLanes s.cur v

/-- The lane change as an action. -/
def laneAction (s : State) : M Unit := if stalled s.me then pure () else modS (applyLanes s.cur)

/-- The scope of the accesses of `setvlc`. -/
def chainScope (image : BitVec 15) : Scope := (Scope.ofBits (image.extractLsb' 12 3)).getD .device

/-- `setvlc` after the decision over its record: it waits, or takes `g` elements (R172). -/
def chainTaken (rd rs1 : Reg) (image : BitVec 15) (s : State) (total cons : Nat) : Option Nat → M Flow
  | none => do
    laneAction s
    waitFor .chain
  | some g => do
    if 0 < g then storeN s.agent (chainScope image) (s.me.readX rs1 + 24) 8 (cons + g)
    laneAction s
    grantStrip true rd (zimm image) (BitVec.ofNat 64 (total - cons)) (BitVec.ofNat 64 cons) g

/-- `setvlc` after it has read the quads of its record. -/
def chainRead (rd rs1 : Reg) (image : BitVec 15) (s : State) (q : List Word) : M Flow := do
  check (Word.field (q.getD 2 0) 1 63 == 0) causeOperand (s.me.readX rs1)
  acquireAt (chainScope image) false
  chainTaken rd rs1 image s (q.getD 1 0).toNat (q.getD 3 0).toNat
    (chainGrant (chainSlot s) (zimm image) (q.getD 0 0).toNat (q.getD 1 0).toNat (q.getD 3 0).toNat)

/-- `setvlc` after its checks and waits. -/
def chainActions (rd rs1 : Reg) (image : BitVec 15) (s : State) : M Flow :=
  if (chainSlot s).vlmaxOf (zimm image) = 0 then do
    laneAction s
    grantStrip true rd (zimm image) 0 0 0
  else (if stalled s.me then waitAs .chain else id) do
    let q ← quadsAt s.agent (chainScope image) (s.me.readX rs1) 4
    chainRead rd rs1 image s q

/-- The actions of `setvlc`. -/
def setvlcActions (rd rs1 : Reg) (image : BitVec 15) (s : State) : M Flow := do
  check ((s.me.readX rs1).toNat % 32 == 0) causeAlignment (s.me.readX rs1)
  if !stalled s.me && !s.vecDone then waitFor .transit
  if !stalled s.me && nextLanes s s.cur == 0 then waitFor .lane
  chainActions rd rs1 image s

theorem setvlc_run (rd rs1 : Reg) (image : BitVec 15) {s : State} (on : s.me.vstate ≠ 0) :
    exec (.setvlc rd rs1 image) s = run (wordVcfg 1 image rs1 rd) (setvlcActions rd rs1 image s) s := by
  show execSetvlc rd rs1 image s = _
  unfold execSetvlc
  dsimp only
  unfold run
  rw [guardVecOn_on on]
  rfl

theorem setvlc_off (rd rs1 : Reg) (image : BitVec 15) {s : State} (off : s.me.vstate = 0) :
    traps (.setvlc rd rs1 image) s causeFirstUse ((wordVcfg 1 image rs1 rd).zeroExtend 64) :=
  traps_run (.refl (execSetvlc rd rs1 image s)) (guardVecOn_off off _ _)

section
variable (rd rs1 : Reg) (image : BitVec 15) {s : State} (on : s.me.vstate ≠ 0)
include on

theorem setvlc_misaligned (odd : (s.me.readX rs1).toNat % 32 ≠ 0) :
    traps (.setvlc rd rs1 image) s causeAlignment (s.me.readX rs1) :=
  traps_run (setvlc_run rd rs1 image on) (check_bind_fail (beq_eq_false_iff_ne.mpr odd) _ _ _ s)

variable (even : (s.me.readX rs1).toNat % 32 = 0)
include even

theorem setvlc_busy (first : stalled s.me = false) (busy : s.vecDone = false) : holdsFor (.setvlc rd rs1 image) s .transit := by
  refine holds_run (setvlc_run rd rs1 image on) ?_
  unfold setvlcActions
  rw [check_bind_pass (beq_iff_eq.mpr even), first, busy]
  rfl

theorem setvlc_noLanes (first : stalled s.me = false) (done : s.vecDone = true) (none : nextLanes s s.cur = 0) :
    holdsFor (.setvlc rd rs1 image) s .lane := by
  refine holds_run (setvlc_run rd rs1 image on) ?_
  unfold setvlcActions
  rw [check_bind_pass (beq_iff_eq.mpr even), first, done, none]
  rfl

theorem setvlc_goes (goes : stalled s.me = true ∨ s.vecDone = true ∧ nextLanes s s.cur ≠ 0) :
    exec (.setvlc rd rs1 image) s = run (wordVcfg 1 image rs1 rd) (chainActions rd rs1 image s) s := by
  rw [setvlc_run rd rs1 image on]
  unfold run setvlcActions
  rw [check_bind_pass (beq_iff_eq.mpr even)]
  rcases goes with again | ⟨done, lanes⟩
  · simp only [again, Bool.not_true, Bool.false_and, Bool.false_eq_true, if_false]
  · simp only [done, beq_eq_false_iff_ne.mpr lanes, Bool.not_true, Bool.and_false, Bool.false_eq_true, if_false]

end

/-! ### What becomes of the record -/

theorem laneAction_run (s v : State) : laneAction s v = .ok () (laneChange s v) := by
  unfold laneAction laneChange
  split <;> rfl

/-- Where the lane change leaves the running thread. -/
theorem laneChange_at {s v : State} (same : SameSlots s v) :
    (laneChange s v).me.bpctl = 0 ∨ (laneChange s v).me.pc = s.me.pc := by
  have me : v.me = s.me := me_of_slots same.1 same.2
  unfold laneChange
  split
  · exact .inr (congrArg _ me)
  · rw [← same.2, ← me]
    exact applyLanes_at v

theorem same_refreshTo (c : CoreId) (lvl : Nat) (uo : Bool) (s : State) : SameSlots s (refreshTo c lvl uo s) := by
  unfold refreshTo
  split
  · exact SameSlots.refl s
  · dsimp only
    have near : SameSlots s (dropL1 c uo (cleanL1 c uo s)) := same_cleanL1 c uo s
    split
    · exact near
    · exact near.trans (same_cleanBuffer _ uo _)

/-- Only a wait becomes another wait. -/
theorem waitAs_run {α : Type} {m : M α} {s : State} (h : ∀ k u, m s = .error (.wait k) u → k = .chain) (b : Bool) :
    (if b then waitAs .chain else id) m s = m s := by
  cases b with
  | false => rfl
  | true =>
    show waitAs .chain m s = m s
    unfold waitAs
    split
    next k u hm => rw [hm, h k u hm]
    next => rfl

/-- The last actions always go through. -/
theorem grantStrip_ne_wait {chained : Bool} {rd : Reg} {img captured chidx : Word} {g : Nat} {s u : State} {k : HoldKind} :
    grantStrip chained rd img captured chidx g s ≠ .error (.wait k) u := by
  obtain ⟨v, hv, -⟩ := grantStrip_run chained rd img captured chidx g s
  rw [hv]
  exact fun h => nomatch h

theorem field_zimm (image : BitVec 15) : Word.field (zimm image) 0 3 = 1 ↔ image.extractLsb' 0 3 = 1 := by
  unfold Word.field zimm
  rw [← BitVec.toNat_inj]
  simp

theorem roundGrant_zimm (image : BitVec 15) (g : Nat) :
    roundGrant (zimm image) g = if image.extractLsb' 0 3 = 1 ∧ 4 ≤ g then g - g % 4 else g := by
  unfold roundGrant
  exact if_congr (and_congr_left' (field_zimm image)) rfl rfl

theorem roundGrant_pos (img : Word) {g : Nat} (h : 0 < g) : 0 < roundGrant img g := by
  unfold roundGrant
  split
  · omega
  · exact h

section
variable (rd rs1 : Reg) (image : BitVec 15) {s : State} (on : s.me.vstate ≠ 0) (even : (s.me.readX rs1).toNat % 32 = 0)
  (goes : stalled s.me = true ∨ s.vecDone = true ∧ nextLanes s s.cur ≠ 0)
include on even goes

/-- A configuration without a VLMAX opens a strip of no element. -/
theorem setvlc_noVlmax (zero : (chainSlot s).vlmaxOf (zimm image) = 0) :
    endsStrip (.setvlc rd rs1 image) s (mapMe (stripOpened rd (zimm image) 0 0 0) (laneChange s s)) := by
  refine ends_grantStrip (chained := true) (setvlc_goes rd rs1 image on even goes) ?_ (laneChange_at (SameSlots.refl s))
  unfold chainActions
  rw [if_pos zero, bind_ok (laneAction_run s s)]

variable (vlmax : (chainSlot s).vlmaxOf (zimm image) ≠ 0) {hw total q2 cons : Word} {u : State}
  (read : quadsAt s.agent (chainScope image) (s.me.readX rs1) 4 s = .ok [hw, total, q2, cons] u)
include vlmax read

omit on even goes in
/-- What the record's quads lead to is what the instruction comes to: its only wait is that of the chain. -/
theorem setvlc_read {r : EStateM.Result Stop State Flow} (ran : chainRead rd rs1 image s [hw, total, q2, cons] u = r)
    (chain : ∀ k v, r = .error (.wait k) v → k = .chain) : chainActions rd rs1 image s s = r := by
  unfold chainActions
  rw [if_neg vlmax, waitAs_run, bind_ok read, ran]
  rw [bind_ok read, ran]
  exact chain

/-- A record whose third quad is not that of a chain (R172). -/
theorem setvlc_badRecord (bad : Word.field q2 1 63 ≠ 0) :
    exec (.setvlc rd rs1 image) s = .next (takeTrap causeOperand (s.me.readX rs1) s.me.pc (turnsOver s u)) := by
  have fails : chainRead rd rs1 image s [hw, total, q2, cons] u = .error (.trap causeOperand (s.me.readX rs1)) u :=
    check_bind_fail (beq_eq_false_iff_ne.mpr bad) _ _ _ u
  rw [setvlc_goes rd rs1 image on even goes, run,
    setvlc_read rd rs1 image vlmax read fails fun _ _ h => nomatch h]

variable (good : Word.field q2 1 63 = 0)
include good

omit on even goes vlmax read in
/-- A good record is read with an acquire, and then the decision over it is taken. -/
theorem chainRead_run {d : Option Nat} (decision : chainGrant (chainSlot s) (zimm image) hw.toNat total.toNat cons.toNat = d) :
    chainRead rd rs1 image s [hw, total, q2, cons] u
      = chainTaken rd rs1 image s total.toNat cons.toNat d (refreshTo (coreOf u.cur) (scopeLevel (chainScope image)) false u) := by
  rw [← decision]
  exact check_bind_pass (beq_iff_eq.mpr good) _ _ _ u

/-- A record that grants nothing yet (R172). -/
theorem setvlc_stalls (waits : chainGrant (chainSlot s) (zimm image) hw.toNat total.toNat cons.toNat = none) :
    ∃ h, exec (.setvlc rd rs1 image) s = .next (mapMe (fun m => { m with waiting := some h })
        (turnsOver s (laneChange s (refreshTo (coreOf u.cur) (scopeLevel (chainScope image)) false u)))) ∧ h.kind = .chain := by
  have ran := chainRead_run rd rs1 image (u := u) good waits
  have stop := setvlc_read rd rs1 image vlmax read (ran.trans (bind_ok (laneAction_run s _)))
    fun k v h => by cases h; rfl
  rw [setvlc_goes rd rs1 image on even goes, run, stop]
  exact ⟨_, rfl, by split <;> [split <;> rfl; rfl]⟩

/-- A record that grants `g` elements (R172). -/
theorem setvlc_grants {g : Nat} (grant : chainGrant (chainSlot s) (zimm image) hw.toNat total.toNat cons.toNat = some g) {y : State}
    (taken : (if 0 < g then storeN s.agent (chainScope image) (s.me.readX rs1 + 24) 8 (cons.toNat + g) else pure () : M Unit)
      (refreshTo (coreOf u.cur) (scopeLevel (chainScope image)) false u) = .ok () y) :
    endsStrip (.setvlc rd rs1 image) s (mapMe (stripOpened rd (zimm image) (BitVec.ofNat 64 (total.toNat - cons.toNat))
      (BitVec.ofNat 64 cons.toNat) g) (laneChange s y)) := by
  have same : SameSlots s y := by
    have fresh := (Keeps.quadsAt _ _ _ _ _ _ _ read).trans (same_refreshTo (coreOf u.cur) (scopeLevel (chainScope image)) false u)
    refine fresh.trans ?_
    by_cases pos : 0 < g
    · rw [if_pos pos] at taken
      exact Keeps.storeN _ _ _ _ _ _ _ _ taken
    · rw [if_neg pos] at taken
      exact Keeps.pure _ _ _ _ taken
  have step : chainTaken rd rs1 image s total.toNat cons.toNat (some g) (refreshTo (coreOf u.cur) (scopeLevel (chainScope image)) false u)
      = grantStrip true rd (zimm image) (BitVec.ofNat 64 (total.toNat - cons.toNat)) (BitVec.ofNat 64 cons.toNat) g (laneChange s y) := by
    show (if 0 < g then _ else _ : M Flow) _ = _
    by_cases pos : 0 < g
    · rw [if_pos pos] at taken ⊢
      exact (bind_ok taken).trans (bind_ok (laneAction_run s y))
    · rw [if_neg pos] at taken ⊢
      cases taken
      exact bind_ok (laneAction_run s _)
  have ran := (chainRead_run rd rs1 image good grant).trans step
  exact ends_grantStrip (setvlc_goes rd rs1 image on even goes)
    (setvlc_read rd rs1 image vlmax read ran fun _ _ h => absurd h grantStrip_ne_wait) (laneChange_at same)

end

/-! ## The decision over a record (R172) -/

theorem chainGrant_used {t : Slot} {img : Word} {hw total cons : Nat} (used : total ≤ cons) :
    chainGrant t img hw total cons = some 0 := by
  unfold chainGrant
  dsimp only
  rw [if_pos used]

theorem chainGrant_waits {t : Slot} {img : Word} {hw total cons : Nat} (left : cons < total)
    (wait : hw ≤ cons ∨ Word.field img 0 3 = 1 ∧ min hw total - cons < 4 ∧ 4 ≤ total - cons) :
    chainGrant t img hw total cons = none := by
  unfold chainGrant
  dsimp only
  rw [if_neg (by omega), if_pos (wait.imp_left fun h => (Nat.min_le_left _ _).trans h)]

theorem chainGrant_some {t : Slot} {img : Word} {hw total cons : Nat} (left : cons < total) (ready : cons < hw)
    (enough : ¬ (Word.field img 0 3 = 1 ∧ min hw total - cons < 4 ∧ 4 ≤ total - cons)) :
    chainGrant t img hw total cons = some (roundGrant img (min (min hw total - cons) (t.vlmaxOf img))) := by
  unfold chainGrant
  dsimp only
  rw [if_neg (by omega), if_neg (not_or.mpr ⟨by omega, enough⟩)]

/-! ## `valloc` (R105) -/

/-- The slot with a new allotment, where VLMAX does not count yet. -/
def cleared (n : Nat) (m : Slot) : Slot :=
  { m with valloc := n, lanes := Vector.replicate 64 0, masks := Vector.replicate 8 0, vl := 0, vstart := 0 }

/-- The slot after an allotment. -/
def allotted (n : Nat) (m : Slot) : Slot :=
  let v : Slot := { cleared n m with vstate := 3 }
  { v with vtype := if v.vill = false ∧ v.vlmax = 0 then villWord else v.vtype }

/-- A slot that the lack of a VLMAX makes invalid, as the model and as the statement say it: VLMAX does not depend on
`vstate`. -/
theorem allotted_eq (n : Nat) (m : Slot) :
    ({ (if !(cleared n m).vill && (cleared n m).vlmax == 0 then { cleared n m with vtype := villWord } else cleared n m) with vstate := 3 } : Slot)
      = allotted n m := by
  show _ = ({ cleared n m with vstate := 3, vtype := if (cleared n m).vill = false ∧ (cleared n m).vlmax = 0 then villWord else (cleared n m).vtype } : Slot)
  generalize cleared n m = v
  by_cases h : v.vill = false ∧ v.vlmax = 0
  · rw [if_pos (by rw [h.1, h.2]; rfl)]
    rw [if_pos h]
  · rw [if_neg (by simpa using h)]
    rw [if_neg h]

/-- An allotment after the waits. -/
theorem allot_run (n : Nat) {s : State} (done : s.vecDone = true) :
    allot n s = (do
      check (n == 32 || !(s.me.streams.toList.any Binding.bound)) causeOperand (BitVec.ofNat 64 n)
      modMe fun t => if !(cleared n t).vill && (cleared n t).vlmax == 0 then { cleared n t with vtype := villWord } else cleared n t : M Unit) s := by
  unfold allot
  rw [bind_ok (getS_run s)]
  simp only [done, Bool.not_true, Bool.false_eq_true, if_false]
  rfl

section
variable (n : AllocN) {s : State}

theorem valloc_busy (busy : s.vecDone = false) : holdsFor (.valloc n) s .transit := by
  refine holds_run (.refl (execValloc n s)) (bind_error ?_)
  unfold allot
  rw [bind_run, getS_run]
  dsimp only
  rw [busy]
  rfl

variable (done : s.vecDone = true)
include done

theorem valloc_bound (part : n.regs ≠ 32) (bound : s.me.streams.toList.any Binding.bound = true) :
    traps (.valloc n) s causeOperand (BitVec.ofNat 64 n.regs) := by
  refine traps_run (.refl (execValloc n s)) (bind_error ?_)
  rw [allot_run n.regs done]
  refine check_bind_fail ?_ _ _ _ s
  rw [bound, beq_eq_false_iff_ne.mpr part]
  rfl

theorem valloc_completes (free : n.regs = 32 ∨ s.me.streams.toList.any Binding.bound = false) :
    completes (.valloc n) s (allotted n.regs) := by
  have ok : (n.regs == 32 || !(s.me.streams.toList.any Binding.bound)) = true := by
    rcases free with whole | none
    · rw [whole]; rfl
    · rw [none, Bool.not_false, Bool.or_true]
  refine completes_run (.refl (execValloc n s)) ((bind_ok ((allot_run n.regs done).trans (check_bind_pass ok _ _ _ s))).trans ?_)
  rw [bind_run, modMe_run]
  dsimp only
  rw [mapMe_mapMe, mapMe_congr (allotted_eq n.regs s.me)]
  rfl

end

/-! ## The obligation -/

/-- The lanes that `setvlc` would use allow it to go on, unless it has taken them already. -/
theorem goes_of_lpart {s : State} (goes : stalled s.me = true ∨ s.vecDone = true ∧ (chainSlot s).lpart ≠ 0) :
    stalled s.me = true ∨ s.vecDone = true ∧ nextLanes s s.cur ≠ 0 := by
  by_cases again : stalled s.me = true
  · exact .inl again
  · refine goes.imp_right fun ⟨done, lanes⟩ => ⟨done, ?_⟩
    have first : (chainSlot s).lpart = nextLanes s s.cur := if_neg again
    exact first ▸ lanes

/-- The third quad of a chain record names nothing but its lowest bit (R172). -/
theorem field_chain (q : Word) : Word.field q 1 63 = q.toNat / 2 := by
  unfold Word.field
  rw [Nat.shiftRight_eq_div_pow]
  have := q.isLt
  omega

theorem ofNat_sub_toNat {a b : Word} (h : b.toNat ≤ a.toNat) : BitVec.ofNat 64 (a.toNat - b.toNat) = a - b := by
  bv_omega

/-- Settles O28: each clause is one branch of the instruction's actions. A lane change can give the running slot to a record
that waits for the core (R31); the breakpoint of the thread that starts there is off, so that a strip breakpoint is always
that of the instruction's own thread. -/
theorem vectorConfiguration : Obligations.VectorConfiguration := by
  unfold Obligations.VectorConfiguration
  intro s rd rs1 image n
  refine ⟨⟨fun off w hw => ?_, fun on => ⟨setvl_busy rd rs1 image on, setvl_noLanes rd rs1 image on, fun done lanes => ?_⟩⟩,
    ⟨fun off w hw => ?_, fun on => ⟨setvlc_misaligned rd rs1 image on, fun even =>
      ⟨setvlc_busy rd rs1 image on even, ?_, ?_, fun goes vlmax hw total q2 cons u read => ⟨?_, ?_⟩⟩⟩⟩,
    valloc_busy n, fun done => valloc_bound n done, fun done => valloc_completes n done⟩
  · cases hw
    exact setvl_off rd rs1 image off
  · have ends := setvl_ends rd rs1 image on done lanes
    rw [roundGrant_zimm] at ends
    exact ends
  · cases hw
    exact setvlc_off rd rs1 image off
  · intro first done none
    exact setvlc_noLanes rd rs1 image on even first done ((if_neg (by rw [first]; decide)).symm.trans none)
  · intro goes zero
    exact setvlc_noVlmax rd rs1 image on even (goes_of_lpart goes) zero
  · intro bad
    exact setvlc_badRecord rd rs1 image on even (goes_of_lpart goes) vlmax read (field_chain q2 ▸ bad)
  · intro good
    have good := (field_chain q2).trans good
    have goes := goes_of_lpart goes
    refine ⟨fun used => ?_, fun left wait => ?_, fun left ready enough y stored => ?_⟩
    · have ends := setvlc_grants rd rs1 image on even goes vlmax read good (chainGrant_used used) rfl
      rw [Nat.sub_eq_zero_of_le used, BitVec.ofNat_toNat, BitVec.setWidth_eq] at ends
      exact ends
    · refine setvlc_stalls rd rs1 image on even goes vlmax read good (chainGrant_waits left (wait.imp_right ?_))
      exact And.imp_left (field_zimm image).mpr
    · have grant := chainGrant_some (t := chainSlot s) left ready fun h => enough (h.imp_left (field_zimm image).mp)
      have pos := roundGrant_pos (zimm image) (g := min (min hw.toNat total.toNat - cons.toNat) ((chainSlot s).vlmaxOf (zimm image)))
        (lt_min (Nat.sub_pos_of_lt (lt_min ready left)) (Nat.pos_of_ne_zero vlmax))
      rw [roundGrant_zimm] at grant pos
      have ends := setvlc_grants rd rs1 image on even goes vlmax read good grant ((congrFun (if_pos pos) _).trans stored)
      rw [ofNat_sub_toNat left.le, BitVec.ofNat_toNat, BitVec.setWidth_eq] at ends
      exact ends

end Sys2Proof.Laws

/-! SUPPORT. A near store and the loads of its sequencer (R95): what it puts into the line of the store queue, and what a load
takes from the caches, under which a line with several names has one copy (R240). -/

namespace Sys2Proof.Laws

open Sys2Proof Sys2Proof.Machine

/-! ## The bytes that a store puts into a line -/

theorem line_isDirty_put (l : Line) (i k : Nat) (b : Byte) (u : Bool) :
    (l.put i b true u).isDirty k = (l.isDirty k || (decide (k = i) && decide (k < 64))) := bit_set l.dirty i k

/-- Bytes put one after the other, each as written, from position `i + m` on. -/
theorem putEach_spec (bs : List Byte) (uo : Nat → Bool) (i m k : Nat) (l : Line) (h : i + m + bs.length ≤ 64) :
    let l' := (bs.zipIdx m).foldl (fun l e => l.put (i + e.2) e.1 true (uo e.2)) l
    if i + m ≤ k ∧ k < i + m + bs.length then l'.isDirty k = true ∧ l'.byte k = bs.getD (k - (i + m)) 0
    else l'.isDirty k = l.isDirty k ∧ l'.byte k = l.byte k := by
  induction bs generalizing m l with
  | nil =>
    rw [if_neg (by simp)]
    exact ⟨rfl, rfl⟩
  | cons c r ih =>
    simp only [List.length_cons] at h
    have rest := ih (m + 1) (l.put (i + m) c true (uo m)) (by omega)
    rw [List.zipIdx_cons, List.foldl_cons]
    dsimp only at rest ⊢
    simp only [List.length_cons]
    by_cases here : k = i + m
    · rw [if_neg (by omega)] at rest
      rw [if_pos (by omega), rest.1, rest.2, here]
      refine ⟨by rw [line_isDirty_put]; simp; omega, ?_⟩
      rw [line_byte_put_self _ _ _ _ _ (by omega), Nat.sub_self]
      rfl
    · rw [line_isDirty_put, decide_eq_false here, Bool.false_and, Bool.or_false, line_byte_put_ne _ _ _ _ _ _ here] at rest
      by_cases later : i + (m + 1) ≤ k ∧ k < i + (m + 1) + r.length
      · rw [if_pos later] at rest
        rw [if_pos (by omega), rest.1, rest.2]
        refine ⟨rfl, ?_⟩
        rw [show k - (i + m) = k - (i + (m + 1)) + 1 by omega, List.getD_cons_succ]
      · rw [if_neg later] at rest
        rw [if_neg (by omega)]
        exact rest

theorem line_write_within {l : Line} {a : Agent} {ord n i k : Nat} {bs : List Byte} {s : State} (h : i + bs.length ≤ 64)
    (within : i ≤ k ∧ k < i + bs.length) :
    (l.write a ord n i bs s).isDirty k = true ∧ (l.write a ord n i bs s).byte k = bs.getD (k - i) 0 := by
  have spec := putEach_spec bs (fun j => ord == 2 && !rcDirty a n (i + j) s) i 0 k l h
  simp only [Nat.add_zero, if_pos within] at spec
  exact spec

theorem line_write_outside {l : Line} {a : Agent} {ord n i k : Nat} {bs : List Byte} {s : State} (h : i + bs.length ≤ 64)
    (outside : ¬ (i ≤ k ∧ k < i + bs.length)) :
    (l.write a ord n i bs s).isDirty k = l.isDirty k ∧ (l.write a ord n i bs s).byte k = l.byte k := by
  have spec := putEach_spec bs (fun j => ord == 2 && !rcDirty a n (i + j) s) i 0 k l h
  simp only [Nat.add_zero, if_neg outside] at spec
  exact spec

/-- The bytes of a number, each. -/
theorem bytesOfNat_getD (n v i : Nat) (h : i < n) : (bytesOfNat n v).getD i 0 = BitVec.ofNat 8 (v / 256 ^ i) := by
  induction n generalizing v i with
  | zero => omega
  | succ n ih =>
    cases i with
    | zero => simp [bytesOfNat]
    | succ i =>
      rw [bytesOfNat, List.getD_cons_succ, ih _ _ (by omega), Nat.div_div_eq_div_mul, Nat.pow_succ']

/-! ## The copies of a line under its names (R240) -/

/-- Two names of one line lead to one place. -/
theorem sameLine_iff (s : State) (m n : Nat) :
    sameLine s m n = true ↔ (follow s 64 0 m).map (·.1) = (follow s 64 0 n).map (·.1) := by
  unfold sameLine
  rw [Bool.or_eq_true, beq_iff_eq, beq_iff_eq]
  exact ⟨fun h => h.elim (fun e => e ▸ rfl) id, .inr⟩

/-- A name of one line is no name of another. -/
theorem sameLine_of_other {s : State} {k m n : Nat} (other : sameLine s n m = false) (h : sameLine s k m = true) : sameLine s k n = false := by
  rw [Bool.eq_false_iff] at other ⊢
  intro g
  rw [Ne, sameLine_iff] at other
  rw [sameLine_iff] at h g
  exact other (g.symm.trans h)

theorem follow_congr {s t : State} (marks : t.marks = s.marks) (mem : t.mem = s.mem) (h n line : Nat) :
    follow t h n line = follow s h n line := by
  induction h generalizing n line with
  | zero => unfold follow markOf; rw [marks]
  | succ h ih =>
    have record : recordTarget t line = recordTarget s line := by unfold recordTarget rawQuad; rw [mem]
    have mark : markOf t line = markOf s line := by unfold markOf; rw [marks]
    unfold follow
    rw [mark]
    dsimp only
    rw [record, ih]

theorem sameLine_congr {s t : State} (marks : t.marks = s.marks) (mem : t.mem = s.mem) (m n : Nat) : sameLine t m n = sameLine s m n := by
  unfold sameLine
  rw [follow_congr marks mem, follow_congr marks mem]

/-- The entries of a cache under other names of a line. -/
def namesOf (s : State) (n : Nat) (ls : List (Nat × Line)) : List (Nat × Line) := ls.filter fun e => e.1 != n && sameLine s e.1 n

/-- A line with the bytes that another entry has written. -/
def joinLine (l : Line) (e : Nat × Line) : Line :=
  (List.range 64).foldl (fun (l : Line) i => if e.2.isDirty i && !l.isDirty i then l.put i (e.2.byte i) true (e.2.isUo i) else l) l

/-- What a cache holds of a line under all its names. -/
def joined (s : State) (n : Nat) (ls : List (Nat × Line)) : Line :=
  if s.marks.isEmpty then lineIn ls n else (namesOf s n ls).foldl joinLine (lineIn ls n)

theorem gather_eq (s : State) (n : Nat) (ls : List (Nat × Line)) : gather s n ls
    = if s.marks.isEmpty then ls else if (namesOf s n ls).isEmpty then ls
      else putLine (ls.filter fun e => !((namesOf s n ls).any fun o => o.1 == e.1)) n ((namesOf s n ls).foldl joinLine (lineIn ls n)) := rfl

/-- The names of a line do not see a write under its own name, or under a name of another line. -/
theorem namesOf_putLine {s : State} {n k : Nat} (other : k = n ∨ sameLine s k n = false) (ls : List (Nat × Line)) (l : Line) :
    namesOf s n (putLine ls k l) = namesOf s n ls := by
  have out (v : Line) : ((k, v).1 != n && sameLine s (k, v).1 n) = false := by
    rcases other with rfl | other
    · simp
    · simp [other]
  unfold namesOf putLine Sparse.set
  split
  · unfold Sparse.erase
    rw [List.filter_filter]
    refine List.filter_congr fun e _ => ?_
    by_cases he : e.1 = k
    · have := out e.2
      rw [← he] at this
      simp [this]
    · simp [he]
  · induction ls with
    | nil => rw [Sparse.insert, List.filter_cons, if_neg (by rw [out]; decide)]
    | cons e r ih =>
      obtain ⟨j, w⟩ := e
      unfold Sparse.insert
      split
      · rw [List.filter_cons, if_neg (by rw [out]; decide)]
      · split
        · next same =>
          subst same
          rw [List.filter_cons, if_neg (by rw [out]; decide), List.filter_cons, if_neg (by rw [out]; decide)]
        · rw [List.filter_cons, ih, List.filter_cons]

/-- A cache has one copy of a line once it has gathered it. -/
theorem lineIn_gather (s : State) (n : Nat) (ls : List (Nat × Line)) : lineIn (gather s n ls) n = joined s n ls := by
  rw [gather_eq]
  unfold joined
  split
  · rfl
  · split
    · next none => rw [List.isEmpty_iff.mp none]; rfl
    · exact lineIn_putLine_self _ _ _

/-- What a cache has under no other name of a line it still has when others are left out. -/
theorem lineIn_filter (ls : List (Nat × Line)) {p : Nat × Line → Bool} {n : Nat} (keeps : ∀ v, p (n, v) = true) :
    lineIn (ls.filter p) n = lineIn ls n := by
  unfold lineIn
  induction ls with
  | nil => rfl
  | cons e r ih =>
    obtain ⟨k, w⟩ := e
    rw [List.filter_cons]
    by_cases same : k = n
    · subst same
      rw [if_pos (keeps w), Sparse.get, Sparse.get, if_pos rfl, if_pos rfl]
    · split
      · rw [Sparse.get, Sparse.get, if_neg same, if_neg same, ih]
      · rw [Sparse.get, if_neg same, ih]

/-- Keys that a gathering drops are names of the line. -/
theorem namesOf_any {s : State} {n k : Nat} {ls : List (Nat × Line)} (h : ((namesOf s n ls).any fun o => o.1 == k) = true) :
    k ≠ n ∧ sameLine s k n = true := by
  rw [List.any_eq_true] at h
  obtain ⟨o, ho, key⟩ := h
  have name := (List.mem_filter.mp ho).2
  rw [beq_iff_eq] at key
  rw [key, Bool.and_eq_true, bne_iff_ne] at name
  exact name

/-- No other name is left. -/
theorem namesOf_gather_self (s : State) (n : Nat) (ls : List (Nat × Line)) (some : s.marks.isEmpty = false) :
    namesOf s n (gather s n ls) = [] := by
  rw [gather_eq, some, if_neg (by decide)]
  split
  · next none => exact List.isEmpty_iff.mp none
  · rw [namesOf_putLine (.inl rfl)]
    unfold namesOf
    rw [List.filter_filter, List.filter_eq_nil_iff]
    intro e he
    by_cases name : (e.1 != n && sameLine s e.1 n) = true
    · have listed : ((ls.filter fun e => e.1 != n && sameLine s e.1 n).any fun o => o.1 == e.1) = true :=
        List.any_eq_true.mpr ⟨e, List.mem_filter.mpr ⟨he, name⟩, beq_self_eq_true _⟩
      simp [listed]
    · simp [name]

/-- A second gathering finds the one copy. -/
theorem joined_gather_self (s : State) (n : Nat) (ls : List (Nat × Line)) : joined s n (gather s n ls) = joined s n ls := by
  rw [← lineIn_gather s n ls, joined]
  split
  · rfl
  · next some => rw [namesOf_gather_self s n ls (Bool.eq_false_iff.mpr some)]; rfl

section
variable {s : State} {n k : Nat} (ne : k ≠ n) (other : sameLine s k n = false)
include other

/-- The names of one line do not see the gathering of another. -/
theorem namesOf_gather_other (ls : List (Nat × Line)) : namesOf s n (gather s k ls) = namesOf s n ls := by
  rw [gather_eq]
  split
  · rfl
  · split
    · rfl
    · rw [namesOf_putLine (.inr other)]
      unfold namesOf
      rw [List.filter_filter]
      refine List.filter_congr fun e _ => ?_
      by_cases name : sameLine s e.1 n = true
      · have kept : ((ls.filter fun e => e.1 != k && sameLine s e.1 k).any fun o => o.1 == e.1) = false :=
          Bool.eq_false_iff.mpr fun listed =>
            Bool.eq_false_iff.mp (sameLine_of_other other name) (namesOf_any (s := s) (n := k) (ls := ls) listed).2
        simp [kept]
      · simp [name]

include ne

theorem lineIn_gather_other (ls : List (Nat × Line)) : lineIn (gather s k ls) n = lineIn ls n := by
  rw [gather_eq]
  split
  · rfl
  · split
    · rfl
    · rw [lineIn_putLine_ne _ _ _ _ ne.symm]
      refine lineIn_filter ls fun v => ?_
      have self : sameLine s n n = true := (sameLine_iff s n n).mpr rfl
      rw [Bool.not_eq_true', Bool.eq_false_iff]
      exact fun listed => Bool.eq_false_iff.mp (sameLine_of_other other self) (namesOf_any listed).2

theorem joined_gather_other (ls : List (Nat × Line)) : joined s n (gather s k ls) = joined s n ls := by
  unfold joined
  rw [namesOf_gather_other other, lineIn_gather_other ne other]

theorem joined_putLine_other (ls : List (Nat × Line)) (l : Line) : joined s n (putLine ls k l) = joined s n ls := by
  unfold joined
  rw [namesOf_putLine (.inr other), lineIn_putLine_ne _ _ _ _ ne.symm]

end

/-- A line written after its gathering is the one copy. -/
theorem joined_putLine_self (s : State) (n : Nat) (ls : List (Nat × Line)) (l : Line) :
    joined s n (putLine (gather s n ls) n l) = l := by
  unfold joined
  rw [lineIn_putLine_self]
  split
  · rfl
  · next some => rw [namesOf_putLine (.inl rfl), namesOf_gather_self s n ls (Bool.eq_false_iff.mpr some)]; rfl

/-! ## The caches of a position -/

section
variable (c : CoreId) (cl : ClusterId) (n : Nat) (s : State)

theorem gather_unmarked {s : State} (none : s.marks.isEmpty = true) (n : Nat) (ls : List (Nat × Line)) : gather s n ls = ls := by
  rw [gather_eq, if_pos none]

theorem gatherAt_l1 : ((gatherAt (some c) (some cl) n s).core c).l1 = gather s n (s.core c).l1 := by
  unfold gatherAt
  split
  · next none => rw [gather_unmarked none]
  · simp

theorem gatherAt_stq (f : Fin 4) : ((gatherAt (some c) (some cl) n s).core c).stq[f] = gather s n (s.core c).stq[f] := by
  unfold gatherAt
  split
  · next none => rw [gather_unmarked none]
  · simp

theorem gatherAt_buffer : ((gatherAt (some c) (some cl) n s).cluster cl).buffer = gather s n (s.cluster cl).buffer := by
  unfold gatherAt
  split
  · next none => rw [gather_unmarked none]
  · simp

end

/-- Only what stands in cores and clusters differs. -/
def OnlyNear (s t : State) : Prop := t = { s with cores := t.cores, clusters := t.clusters }

namespace OnlyNear

variable {s t u : State}

theorem refl (s : State) : OnlyNear s s := rfl
theorem trans (h : OnlyNear s t) (g : OnlyNear t u) : OnlyNear s u := by unfold OnlyNear at h g ⊢; rw [g, h]
theorem symm (h : OnlyNear s t) : OnlyNear t s := by unfold OnlyNear at h ⊢; rw [h]
theorem mapCore (c : CoreId) (f : Core → Core) (s : State) : OnlyNear s (mapCore c f s) := rfl
theorem mapCluster (c : ClusterId) (f : Cluster → Cluster) (s : State) : OnlyNear s (mapCluster c f s) := rfl

theorem gatherAt (c : CoreId) (cl : ClusterId) (n : Nat) (s : State) : OnlyNear s (gatherAt (some c) (some cl) n s) := by
  unfold Machine.gatherAt
  split
  · exact refl s
  · exact (mapCore c _ s).trans (mapCluster cl _ _)

theorem marks (h : OnlyNear s t) : t.marks = s.marks := by rw [h]
theorem mem (h : OnlyNear s t) : t.mem = s.mem := by rw [h]
theorem cur (h : OnlyNear s t) : t.cur = s.cur := by rw [h]
theorem agent (h : OnlyNear s t) : t.agent = s.agent := by rw [h]; rfl

theorem joined (h : OnlyNear s t) (n : Nat) (ls : List (Nat × Line)) : joined t n ls = joined s n ls := by
  unfold Laws.joined namesOf
  simp only [h.marks, sameLine_congr h.marks h.mem]

theorem gather (h : OnlyNear s t) (n : Nat) (ls : List (Nat × Line)) : gather t n ls = gather s n ls := by
  rw [gather_eq, gather_eq]
  unfold namesOf
  simp only [h.marks, sameLine_congr h.marks h.mem]

end OnlyNear

/-- Two states agree on what the L1 of a core and the buffer of a cluster hold of a line, and on all beyond them. -/
structure AgreesAt (c : CoreId) (cl : ClusterId) (n : Nat) (s t : State) : Prop where
  rest : OnlyNear s t
  l1 : l1Line t c n = l1Line s c n
  buf : bufLine t cl n = bufLine s cl n

namespace AgreesAt

variable {c : CoreId} {cl : ClusterId} {n : Nat} {s t : State}

theorem setL1 (h : AgreesAt c cl n s t) (l : Line) : AgreesAt c cl n (setL1 c n l s) (setL1 c n l t) where
  rest := ((OnlyNear.mapCore _ _ s).symm.trans h.rest).trans (OnlyNear.mapCore _ _ t)
  l1 := by rw [l1Line_setL1_self, l1Line_setL1_self]
  buf := h.buf

theorem setBuf (h : AgreesAt c cl n s t) (l : Line) : AgreesAt c cl n (setBuf cl n l s) (setBuf cl n l t) where
  rest := ((OnlyNear.mapCluster _ _ s).symm.trans h.rest).trans (OnlyNear.mapCluster _ _ t)
  l1 := h.l1
  buf := by unfold bufLine Machine.setBuf; simp

theorem noteMiss (h : AgreesAt c cl n s t) : AgreesAt c cl n (noteMiss c s) (noteMiss c t) where
  rest := ((OnlyNear.mapCore _ _ s).symm.trans h.rest).trans (OnlyNear.mapCore _ _ t)
  l1 := by have := h.l1; unfold l1Line Machine.noteMiss at *; simpa using this
  buf := h.buf

end AgreesAt

/-! ## What a fill takes from beyond the L1 -/

section
variable {c : CoreId} {cl : ClusterId} {n : Nat} {s t : State}

theorem homeRead_agrees (h : OnlyNear s t) {w : Writer} {pa k : Nat} {va : Word} {bs : List Byte} {u : State}
    (ok : homeRead w pa k va s = .ok bs u) : u = s ∧ homeRead w pa k va t = .ok bs t := by
  unfold homeRead at ok ⊢
  rw [follow_congr h.marks h.mem]
  obtain ⟨cores, clusters, rfl⟩ : ∃ a b, t = { s with cores := a, clusters := b } := ⟨_, _, h⟩
  split at ok
  · cases ok
  · next l hops _ =>
    split at ok
    · cases ok
    · next free =>
      split at ok
      · cases ok
      · next good =>
        cases ok
        exact ⟨rfl, (if_neg free).trans (if_neg good)⟩

/-- The home answers by what is beyond the caches, and a read that goes through changes nothing. -/
theorem homeGran_agrees (h : OnlyNear s t) {w : Writer} {pa : Nat} {va : Word} {bs : List Byte} {u : State}
    (ok : homeGran w pa va s = .ok bs u) : u = s ∧ homeGran w pa va t = .ok bs t := by
  have free (k : Free) (i : Nat) : t.free k i = s.free k i := by rw [h]; rfl
  unfold homeGran at ok ⊢
  cases region : regionOf pa
  all_goals simp only [region, free] at ok ⊢
  case host => cases ok; exact ⟨rfl, rfl⟩
  case peer => cases ok; exact ⟨rfl, rfl⟩
  all_goals exact homeRead_agrees h ok

theorem bufGran_agrees (h : AgreesAt c cl n s t) {w : Writer} {ord g : Nat} {va : Word} {bs : List Byte} {u : State}
    (ok : bufGran w cl ord n g va s = .ok bs u) : ∃ v, bufGran w cl ord n g va t = .ok bs v ∧ AgreesAt c cl n u v := by
  unfold bufGran at ok ⊢
  dsimp only at ok ⊢
  rw [h.buf]
  by_cases hit : (bufLine s cl n).hits ord g 8 = true
  · rw [if_pos hit] at ok ⊢
    by_cases bad : (bufLine s cl n).bad.isSome = true
    · rw [if_pos bad] at ok
      cases ok
    · rw [if_neg bad] at ok ⊢
      cases ok
      exact ⟨t, rfl, h⟩
  · rw [if_neg hit] at ok ⊢
    split at ok
    · cases ok
    · next hs s' home =>
      obtain ⟨rfl, home'⟩ := homeGran_agrees h.rest home
      rw [home']
      cases ok
      dsimp only
      rw [h.buf]
      exact ⟨_, rfl, h.setBuf _⟩

/-- One granule of a fill. -/
def fillGran (w : Writer) (c : CoreId) (ord n : Nat) (va : Word) (g : Nat) : M Unit := fun s =>
  if (l1Line s c n).hits ord g 8 then .ok () s
  else match bufGran w (clusterOfCore c) ord n g va s with
    | .error e s' => .error e s'
    | .ok bs s' => .ok () (noteMiss c (setL1 c n ((l1Line s' c n).update true ord g bs) s'))

theorem fillGran_agrees (h : AgreesAt c (clusterOfCore c) n s t) {w : Writer} {ord g : Nat} {va : Word} {u : State}
    (ok : fillGran w c ord n va g s = .ok () u) :
    ∃ v, fillGran w c ord n va g t = .ok () v ∧ AgreesAt c (clusterOfCore c) n u v := by
  unfold fillGran at ok ⊢
  rw [h.l1]
  by_cases hit : (l1Line s c n).hits ord g 8 = true
  · rw [if_pos hit] at ok ⊢
    cases ok
    exact ⟨t, rfl, h⟩
  · rw [if_neg hit] at ok ⊢
    split at ok
    · cases ok
    · next bs s' below =>
      obtain ⟨t', below', h'⟩ := bufGran_agrees h below
      rw [below']
      cases ok
      dsimp only
      rw [h'.l1]
      exact ⟨_, rfl, (h'.setL1 _).noteMiss⟩

theorem fillL1_agrees (h : AgreesAt c (clusterOfCore c) n s t) {w : Writer} {ord : Nat} {va : Word} {u : State}
    (ok : fillL1 w c ord n va s = .ok () u) : ∃ v, fillL1 w c ord n va t = .ok () v ∧ AgreesAt c (clusterOfCore c) n u v := by
  change forList ((List.range 8).map (8 * ·)) (fillGran w c ord n va) s = .ok () u at ok
  show ∃ v, forList ((List.range 8).map (8 * ·)) (fillGran w c ord n va) t = .ok () v ∧ _
  generalize (List.range 8).map (8 * ·) = gs at ok ⊢
  induction gs generalizing s t with
  | nil => cases ok; exact ⟨t, rfl, h⟩
  | cons g gs ih =>
    rw [forList] at ok ⊢
    dsimp only at ok ⊢
    split at ok
    · next s' first =>
      obtain ⟨t', first', h'⟩ := fillGran_agrees h first
      rw [first']
      exact ih h' ok
    · cases ok

end

/-! ## What a load takes -/

/-- A state whose running sequencer's caches have gathered a line. -/
def gathered (s : State) (n : Nat) : State := gatherAt (some (coreOf s.cur)) (some (clusterOf s.cur)) n s

/-- What a load of the running sequencer takes of byte `i` of a line that its caches have gathered. -/
def loadedByte (s : State) (ord n i : Nat) (va : Word) : Option Byte :=
  let l := l1Line s (coreOf s.cur) n
  if (stqLine s s.cur n).isDirty i then some ((stqLine s s.cur n).byte i)
  else if (l.isDirty i || l.hit ord i) && l.bad.isSome then none
  else match fillL1 s.agent.writer (coreOf s.cur) ord n va s with
    | .ok _ u => some (((l1Line u (coreOf s.cur) n).bytesAt (i / 8 * 8) 8).getD (i - i / 8 * 8) 0)
    | .error _ _ => none

theorem onlyNear_gathered (s : State) (n : Nat) : OnlyNear s (gathered s n) := OnlyNear.gatherAt _ _ _ _

/-- The place of a near load is not beyond the levels that its sequencer passes. -/
theorem levelFor_near {s : State} {l : Loc} {pa : Nat} (place : l.place = .phys pa) (near : nearPlace l = true) :
    l.ord ≠ 1 ∧ levelFor s.agent .sequencer l pa = 0 := by
  unfold nearPlace at near
  rw [place] at near
  dsimp only at near
  rw [Bool.and_eq_true, bne_iff_ne] at near
  obtain ⟨ord, region⟩ := near
  refine ⟨ord, ?_⟩
  unfold levelFor
  rw [if_neg ord]
  split
  · next peer => rw [peer] at region; cases region
  · rfl

theorem nearByte_zero (s u : State) (n i : Nat) : nearByte s.agent.core s.agent.cluster s.agent.queue 0 n i u
    = if (stqLine u s.cur n).isDirty i then some ((stqLine u s.cur n).byte i) else none := by
  show nearByte (some (coreOf s.cur)) (some (clusterOf s.cur)) (some s.cur) 0 n i u = _
  unfold nearByte
  simp

theorem badByte_zero (s u : State) (ord n i : Nat) : badByte s.agent 0 ord n i u
    = (!(stqLine u s.cur n).isDirty i
      && (((l1Line u (coreOf s.cur) n).isDirty i || (l1Line u (coreOf s.cur) n).hit ord i) && (l1Line u (coreOf s.cur) n).bad.isSome)) := by
  show (!(stqLine u s.cur n).isDirty i && (if (l1Line u (coreOf s.cur) n).isDirty i || (true && (l1Line u (coreOf s.cur) n).hit ord i)
    then (l1Line u (coreOf s.cur) n).bad.isSome else ((bufLine u (clusterOf s.cur) n).bad.isSome && false && _))) = _
  rw [Bool.true_and, Bool.and_false, Bool.false_and, Bool.if_false_right, Bool.decide_eq_true]

/-- The caches of the running sequencer have gathered a line, as `readGran` does it first. -/
theorem gatherAt_agent (s : State) (n : Nat) : gatherAt s.agent.core s.agent.cluster n s = gathered s n := rfl

theorem levelGran_zero (s u : State) (ord n g : Nat) (va : Word) : levelGran s.agent 0 ord n g va u
    = match fillL1 s.agent.writer (coreOf s.cur) ord n va u with
      | .ok _ v => .ok ((l1Line v (coreOf s.cur) n).bytesAt g 8) v
      | .error e v => .error e v := rfl

/-- A near load of one byte in its granule. -/
theorem readGran_loadedByte {s : State} {ord pa : Nat} {va : Word} (rc : ord ≠ 1) :
    (match readGran s.agent 0 ord pa 1 va s with | .ok bs _ => some (bs.headD 0) | .error _ _ => none)
      = loadedByte (gathered s (pa / 64)) ord (pa / 64) (pa % 64) va := by
  have agent := (onlyNear_gathered s (pa / 64)).agent
  have cur := (onlyNear_gathered s (pa / 64)).cur
  unfold readGran loadedByte badNear
  rw [agent, cur]
  dsimp only
  rw [if_neg rc, if_neg fun h => rc h.1, gatherAt_agent]
  simp only [List.range_one, List.map_cons, List.map_nil, List.any_cons, List.any_nil, List.all_cons, List.all_nil, Nat.add_zero,
    Bool.or_false, Bool.and_true, badByte_zero, nearByte_zero, levelGran_zero]
  by_cases written : (stqLine (gathered s (pa / 64)) s.cur (pa / 64)).isDirty (pa % 64) = true
  · simp [written]
  · rw [Bool.not_eq_true] at written
    simp only [written, Bool.false_eq_true, if_false, Bool.not_false, Bool.true_and, Option.isSome_none]
    by_cases bad : (((l1Line (gathered s (pa / 64)) (coreOf s.cur) (pa / 64)).isDirty (pa % 64)
        || (l1Line (gathered s (pa / 64)) (coreOf s.cur) (pa / 64)).hit ord (pa % 64))
        && (l1Line (gathered s (pa / 64)) (coreOf s.cur) (pa / 64)).bad.isSome) = true
    · rw [if_pos bad, if_pos bad]
    · rw [if_neg bad, if_neg bad]
      cases fillL1 s.agent.writer (coreOf s.cur) ord (pa / 64) va (gathered s (pa / 64)) <;> rfl

/-- An access within 8 aligned bytes is one granule (R181). -/
theorem granules_one {pa n : Nat} (some : 0 < n) (fits : n ≤ 8 - pa % 8) : granules n pa n = [(0, n)] := by
  have none (f pa : Nat) : granules f pa 0 = [] := by cases f <;> rfl
  obtain ⟨f, rfl⟩ : ∃ f, n = f + 1 := ⟨n - 1, by omega⟩
  rw [granules, if_neg (by omega)]
  dsimp only
  rw [Nat.min_eq_left fits, Nat.sub_self, none]
  rfl

theorem strongOrder_weak {ord : Nat} (rc : ord ≠ 1) (a : Agent) (s : State) : strongOrder a ord s = .ok () s := if_neg fun h => rc h.1

/-- A near load of one byte. -/
theorem seen_phys {s : State} {l : Loc} {pa : Nat} (place : l.place = .phys pa) (near : nearPlace l = true) :
    seen s l = loadedByte (gathered s (pa / 64)) l.ord (pa / 64) (pa % 64) 0 := by
  obtain ⟨rc, level⟩ := levelFor_near (s := s) place near
  rw [← readGran_loadedByte rc]
  unfold seen readByte readBytes
  rw [place]
  dsimp only
  rw [level, granules_one (by omega) (by omega), bind_run, bind_ok (strongOrder_weak rc _ s), bind_run, collect, collect]
  dsimp only
  rw [Nat.add_zero, BitVec.add_zero]
  cases readGran s.agent 0 l.ord pa 1 0 s with
  | error e u => rfl
  | ok bs u => simp [pure_run]

/-- A load takes the same of a byte where the caches agree on its line, and the store queue on the byte. -/
theorem loadedByte_agrees {s t : State} {q : SeqId} {ord n i : Nat} {va : Word} {b : Byte} (cur : s.cur = q)
    (h : AgreesAt (coreOf q) (clusterOf q) n s t) (dirty : (stqLine t q n).isDirty i = (stqLine s q n).isDirty i)
    (byte : (stqLine t q n).byte i = (stqLine s q n).byte i) (taken : loadedByte s ord n i va = some b) :
    loadedByte t ord n i va = some b := by
  subst cur
  unfold loadedByte at taken ⊢
  rw [h.rest.cur, h.rest.agent]
  dsimp only at taken ⊢
  rw [dirty, byte, h.l1]
  by_cases queued : (stqLine s s.cur n).isDirty i = true
  · rw [if_pos queued] at taken ⊢
    exact taken
  · rw [if_neg queued] at taken ⊢
    by_cases bad : (((l1Line s (coreOf s.cur) n).isDirty i || (l1Line s (coreOf s.cur) n).hit ord i)
        && (l1Line s (coreOf s.cur) n).bad.isSome) = true
    · rw [if_pos bad] at taken
      cases taken
    · rw [if_neg bad] at taken ⊢
      split at taken
      · next a u fill =>
        obtain ⟨v, fill', h'⟩ := fillL1_agrees h fill
        rw [fill']
        dsimp only
        rw [h'.l1]
        exact taken
      · cases taken

/-! ## What a store leaves -/

/-- The running sequencer has written its line `k`, which its caches have gathered. -/
def written (s : State) (k : Nat) (w : Line) : State := setStq s.cur k w (gathered s k)

theorem onlyNear_written (s : State) (k : Nat) (w : Line) : OnlyNear s (written s k w) :=
  (onlyNear_gathered s k).trans (show OnlyNear _ (setStq _ _ _ _) from rfl)

section
variable {s t : State} {l : Loc} {pa n v : Nat} {va : Word}

/-- The state after a near write of bytes to memory: they stand in the store queue. -/
def queuedWrite (s : State) (ord pa : Nat) (bs : List Byte) : State :=
  written s (pa / 64)
    ((stqLine (gathered s (pa / 64)) s.cur (pa / 64)).write s.agent ord (pa / 64) (pa % 64) bs (gathered s (pa / 64)))

theorem writeGran_zero (s : State) (ord pa : Nat) (bs : List Byte) (va : Word) :
    writeGran s.agent 0 ord pa bs va s = .ok () (queuedWrite s ord pa bs) := rfl

theorem writeLoc_phys (place : l.place = .phys pa) (near : nearPlace l = true) (some : 0 < n) (fits : n ≤ 8 - pa % 8)
    (ok : writeLoc s.agent .sequencer l n v va s = .ok () t) : t = queuedWrite s l.ord pa (bytesOfNat n v) := by
  obtain ⟨rc, level⟩ := levelFor_near (s := s) place near
  unfold writeLoc writeLocBytes at ok
  rw [bind_run] at ok
  split at ok
  · next a u can =>
    have same : u = s := by
      unfold canWrite at can
      rw [place] at can
      dsimp only at can
      split at can
      · split at can <;> cases can
        rfl
      · split at can <;> cases can
        rfl
      · cases can
        rfl
    subst same
    unfold writeBytesAt at ok
    rw [place] at ok
    dsimp only at ok
    rw [bytesOfNat_length, granules_one some fits, bind_ok (strongOrder_weak rc _ u), level, forList] at ok
    dsimp only at ok
    rw [Nat.add_zero, List.drop_zero, List.take_of_length_le (by rw [bytesOfNat_length]), writeGran_zero] at ok
    cases ok
    rfl
  · cases ok

end

/-! ### The caches afterwards -/

section
variable {s t : State} {k n : Nat} {w : Line} (other : k = n ∨ k ≠ n ∧ sameLine s k n = false)

include other in
/-- What caches hold of a line after they have gathered it: the same that they held after they have gathered another. -/
theorem joined_gather (ls : List (Nat × Line)) : joined s n (gather s k ls) = joined s n ls := by
  rcases other with rfl | ⟨ne, other⟩
  · exact joined_gather_self s k ls
  · exact joined_gather_other ne other ls

theorem gathered_l1 (s : State) (n : Nat) : ((gathered s n).core (coreOf s.cur)).l1 = gather s n (s.core (coreOf s.cur)).l1 :=
  gatherAt_l1 _ _ _ _

/-- The store queue of a sequencer. -/
def storeQueue (s : State) (q : SeqId) : List (Nat × Line) := (s.core (coreOf q)).stq[slotFin q]

theorem gathered_stq (s : State) (n : Nat) : storeQueue (gathered s n) s.cur = gather s n (storeQueue s s.cur) :=
  gatherAt_stq _ _ _ _ _

theorem gathered_buffer (s : State) (n : Nat) :
    ((gathered s n).cluster (clusterOf s.cur)).buffer = gather s n (s.cluster (clusterOf s.cur)).buffer :=
  gatherAt_buffer _ _ _ _

theorem l1Line_gathered (s : State) (n : Nat) : l1Line (gathered s n) (coreOf s.cur) n = joined s n (s.core (coreOf s.cur)).l1 := by
  unfold l1Line
  rw [gathered_l1, lineIn_gather]

theorem bufLine_gathered (s : State) (n : Nat) :
    bufLine (gathered s n) (clusterOf s.cur) n = joined s n (s.cluster (clusterOf s.cur)).buffer := by
  unfold bufLine
  rw [gathered_buffer, lineIn_gather]

theorem stqLine_gathered (s : State) (n : Nat) : stqLine (gathered s n) s.cur n = joined s n (storeQueue s s.cur) := by
  show lineIn (storeQueue (gathered s n) s.cur) n = _
  rw [gathered_stq, lineIn_gather]

theorem setStq_l1 (q : SeqId) (n : Nat) (w : Line) (s : State) (c : CoreId) : ((setStq q n w s).core c).l1 = (s.core c).l1 := by
  unfold setStq
  by_cases h : c = coreOf q
  · rw [h, core_mapCore_self]
  · rw [core_mapCore_ne _ _ _ _ h]

theorem setStq_stq (q : SeqId) (n : Nat) (w : Line) (s : State) :
    storeQueue (setStq q n w s) q = putLine (storeQueue s q) n w := by
  unfold storeQueue setStq
  rw [core_mapCore_self]
  simp

theorem stqLine_written_self (s : State) (k : Nat) (w : Line) : stqLine (gathered (written s k w) k) s.cur k = w := by
  have now := stqLine_gathered (written s k w) k
  rw [(onlyNear_written s k w).cur, (onlyNear_written s k w).joined] at now
  rw [now, written, setStq_stq, gathered_stq, joined_putLine_self]

theorem stqLine_written_other (s : State) {k n : Nat} (w : Line) (ne : k ≠ n) (other : sameLine s k n = false) :
    stqLine (gathered (written s k w) n) s.cur n = stqLine (gathered s n) s.cur n := by
  have now := stqLine_gathered (written s k w) n
  rw [(onlyNear_written s k w).cur, (onlyNear_written s k w).joined] at now
  rw [now, written, setStq_stq, gathered_stq, joined_putLine_other ne other, joined_gather_other ne other, stqLine_gathered]

/-- The caches of the running sequencer agree on a line where they held the same of it under all its names. -/
theorem agrees_gathered {s t : State} {n : Nat} (near : OnlyNear s t)
    (l1 : joined s n (t.core (coreOf s.cur)).l1 = joined s n (s.core (coreOf s.cur)).l1)
    (buf : joined s n (t.cluster (clusterOf s.cur)).buffer = joined s n (s.cluster (clusterOf s.cur)).buffer) :
    AgreesAt (coreOf s.cur) (clusterOf s.cur) n (gathered s n) (gathered t n) := by
  refine ⟨((onlyNear_gathered s n).symm.trans near).trans (onlyNear_gathered _ n), ?_, ?_⟩
  · have now := l1Line_gathered t n
    rw [near.cur, near.joined, l1] at now
    rw [now, l1Line_gathered]
  · have now := bufLine_gathered t n
    rw [near.cur, near.joined, buf] at now
    rw [now, bufLine_gathered]

theorem agrees_written (s : State) {k n : Nat} (w : Line) (other : k = n ∨ k ≠ n ∧ sameLine s k n = false) :
    AgreesAt (coreOf s.cur) (clusterOf s.cur) n (gathered s n) (gathered (written s k w) n) := by
  refine agrees_gathered (onlyNear_written s k w) ?_ ?_
  · rw [written, setStq_l1, gathered_l1, joined_gather other]
  · have same : (written s k w).cluster (clusterOf s.cur) = (gathered s k).cluster (clusterOf s.cur) := rfl
    rw [same, gathered_buffer, joined_gather other]

end

/-! ### Reading it back -/

/-- Addresses of 8 aligned bytes name one region (R218). -/
theorem regionOf_congr {a b : Nat} (h : a / 8 = b / 8) : regionOf a = regionOf b := by
  have below (c : Nat) : a < 8 * c ↔ b < 8 * c := by omega
  have above (c : Nat) : 8 * c ≤ a ↔ 8 * c ≤ b := by omega
  have index : (a - 0xC000000000000) / 2 ^ 44 = (b - 0xC000000000000) / 2 ^ 44 := by omega
  have rest : (a - 0xC000000000000) % 2 ^ 44 < hbmTop ↔ (b - 0xC000000000000) % 2 ^ 44 < hbmTop := by unfold hbmTop; omega
  unfold regionOf
  have h1 : a < hbmTop ↔ b < hbmTop := below 0x1400000000
  have h2 := above 0x800000000000
  have h3 := below 0x1000000000000
  have h4 := above 0x1000000000000
  have h5 := below 0x1800000000000
  have h6 := above 0x1800000000000
  have h7 := below 0x1C00000000000
  simp only [h1, h2, h3, h4, h5, h6, h7, index, rest]

theorem nearPlace_plus {l : Loc} {pa i : Nat} (place : l.place = .phys pa) (within : (pa + i) / 8 = pa / 8) (near : nearPlace l = true) :
    nearPlace (l.plus i) = true := by
  have moved : (l.plus i).place = .phys (pa + i) := by unfold Loc.plus; rw [place]
  have ord : (l.plus i).ord = l.ord := rfl
  unfold nearPlace at near ⊢
  rw [place] at near
  rw [moved, ord]
  dsimp only at near ⊢
  rw [regionOf_congr within]
  exact near

section
variable {s : State} {l m : Loc} {pa pb n v : Nat} {bs : List Byte} {b : Byte}

/-- A byte that a near store has written. -/
theorem seen_queuedWrite_within {i : Nat} (place : l.place = .phys pa) (near : nearPlace l = true) (fits : bs.length ≤ 8 - pa % 8)
    (inside : i < bs.length) : seen (queuedWrite s l.ord pa bs) (l.plus i) = some (bs.getD i 0) := by
  have moved : (l.plus i).place = .phys (pa + i) := by unfold Loc.plus; rw [place]
  have line : (pa + i) / 64 = pa / 64 := by omega
  have byte : (pa + i) % 64 = pa % 64 + i := by omega
  rw [seen_phys moved (nearPlace_plus place (by omega) near), line, byte]
  unfold loadedByte
  dsimp only
  have cur : (gathered (queuedWrite s l.ord pa bs) (pa / 64)).cur = s.cur :=
    (onlyNear_gathered _ _).cur.trans (onlyNear_written _ _ _).cur
  obtain ⟨dirty, value⟩ := line_write_within (l := stqLine (gathered s (pa / 64)) s.cur (pa / 64)) (a := s.agent) (ord := l.ord)
    (n := pa / 64) (i := pa % 64) (k := pa % 64 + i) (bs := bs) (s := gathered s (pa / 64)) (by omega) (by omega)
  rw [cur, queuedWrite, stqLine_written_self, if_pos dirty, value, Nat.add_sub_cancel_left]

/-- A byte of memory that a near store has not written. -/
theorem seen_queuedWrite_other {ord : Nat} (place : m.place = .phys pb) (near : nearPlace m = true) (fits : bs.length ≤ 8 - pa % 8)
    (line : pa / 64 = pb / 64 ∨ pa / 64 ≠ pb / 64 ∧ sameLine s (pa / 64) (pb / 64) = false) (out : ∀ i < bs.length, pb ≠ pa + i)
    (before : seen s m = some b) : seen (queuedWrite s ord pa bs) m = some b := by
  rw [seen_phys place near] at before ⊢
  have kept : (stqLine (gathered (queuedWrite s ord pa bs) (pb / 64)) s.cur (pb / 64)).isDirty (pb % 64)
        = (stqLine (gathered s (pb / 64)) s.cur (pb / 64)).isDirty (pb % 64)
      ∧ (stqLine (gathered (queuedWrite s ord pa bs) (pb / 64)) s.cur (pb / 64)).byte (pb % 64)
        = (stqLine (gathered s (pb / 64)) s.cur (pb / 64)).byte (pb % 64) := by
    rcases line with same | ⟨ne, other⟩
    · rw [← same, queuedWrite, stqLine_written_self]
      refine line_write_outside (by omega) fun inside => out (pb % 64 - pa % 64) (by omega) (by omega)
    · rw [queuedWrite, stqLine_written_other s _ ne other]
      exact ⟨rfl, rfl⟩
  exact loadedByte_agrees (onlyNear_gathered s (pb / 64)).cur (agrees_written s _ line) kept.1 kept.2 before

end

/-! ### Scratchpads -/

theorem seen_pad {s : State} {l : Loc} {c : CoreId} {o : Nat} (place : l.place = .pad c o) :
    seen s l = if isBad (s.core c).badPad (o / 64) then none else some (padByte s c o) := by
  have read : readBytes s.agent .sequencer l 1 0 s
      = if isBad (s.core c).badPad (o / 64) then .error (.trap causeData 0) s else .ok [padByte s c o] s := by
    unfold readBytes
    rw [place]
    simp
  unfold seen readByte
  rw [bind_run, read]
  by_cases bad : isBad (s.core c).badPad (o / 64) = true
  · rw [if_pos bad, if_pos bad]
  · rw [if_neg bad, if_neg bad]
    rfl

/-- A write to memory leaves the scratchpads. -/
theorem core_queuedWrite (s : State) (ord pa : Nat) (bs : List Byte) (c : CoreId) :
    ((queuedWrite s ord pa bs).core c).pad = (s.core c).pad ∧ ((queuedWrite s ord pa bs).core c).badPad = (s.core c).badPad := by
  have gathers : ((gathered s (pa / 64)).core c).pad = (s.core c).pad ∧ ((gathered s (pa / 64)).core c).badPad = (s.core c).badPad := by
    unfold gathered gatherAt
    split
    · exact ⟨rfl, rfl⟩
    · dsimp only
      rw [core_mapCluster]
      by_cases own : c = coreOf s.cur
      · rw [own, core_mapCore_self]
        exact ⟨rfl, rfl⟩
      · rw [core_mapCore_ne _ _ _ _ own]
        exact ⟨rfl, rfl⟩
  unfold queuedWrite written setStq
  by_cases own : c = coreOf s.cur
  · rw [own, core_mapCore_self, ← own]
    exact gathers
  · rw [core_mapCore_ne _ _ _ _ own]
    exact gathers

/-- The state after a write of bytes to a scratchpad. -/
def padWritten (s : State) (c : CoreId) (o : Nat) (bs : List Byte) : State :=
  bs.zipIdx.foldl (fun s e => padPut c (o + e.2) e.1 s) s

theorem writeLoc_pad {s t : State} {l : Loc} {c : CoreId} {o n v : Nat} {va : Word} (place : l.place = .pad c o)
    (ok : writeLoc s.agent .sequencer l n v va s = .ok () t) : t = padWritten s c o (bytesOfNat n v) := by
  unfold writeLoc writeLocBytes canWrite writeBytesAt at ok
  rw [place] at ok
  cases ok
  rfl

/-- An error that is left after a write was there before. -/
theorem isBad_overwritten {line off len k : Nat} {l : List (Nat × BitVec 64)} (h : isBad (overwritten line off len l) k = true) :
    isBad l k = true := by
  unfold isBad overwritten at *
  rw [List.any_eq_true] at h ⊢
  obtain ⟨e, he, key⟩ := h
  obtain ⟨e', he', made⟩ := List.mem_filterMap.mp he
  refine ⟨e', he', ?_⟩
  split at made
  · next same =>
    dsimp only at made
    split at made
    · cases made
    · cases made
      rw [same]
      exact key
  · cases made
    exact key

theorem padByte_padPut (c d : CoreId) (o k : Nat) (b : Byte) (s : State) :
    padByte (padPut c o b s) d k = if d = c ∧ k = o then b else padByte s d k := by
  unfold padByte padPut
  by_cases own : d = c
  · rw [own, core_mapCore_self, get_set]
    simp
  · rw [core_mapCore_ne _ _ _ _ own, if_neg fun h => own h.1]

/-- The bytes of a scratchpad after a write of several from byte `m` of it on. -/
theorem padByte_padPuts (c d : CoreId) (o m k : Nat) (bs : List Byte) (s : State) :
    padByte ((bs.zipIdx m).foldl (fun s e => padPut c (o + e.2) e.1 s) s) d k
      = if d = c ∧ o + m ≤ k ∧ k < o + m + bs.length then bs.getD (k - (o + m)) 0 else padByte s d k := by
  induction bs generalizing m s with
  | nil => simp
  | cons b r ih =>
    rw [List.zipIdx_cons, List.foldl_cons, ih, padByte_padPut]
    simp only [List.length_cons]
    by_cases here : d = c ∧ k = o + m
    · obtain ⟨rfl, rfl⟩ := here
      rw [if_neg fun h => by omega, if_pos ⟨rfl, rfl⟩, Nat.sub_self]
      exact (if_pos ⟨rfl, by omega, by omega⟩).symm
    · rw [if_neg here]
      by_cases later : d = c ∧ o + (m + 1) ≤ k ∧ k < o + (m + 1) + r.length
      · rw [if_pos later, if_pos ⟨later.1, by omega, by omega⟩, show k - (o + m) = k - (o + (m + 1)) + 1 by omega, List.getD_cons_succ]
      · rw [if_neg later, if_neg]
        rintro ⟨own, low, high⟩
        have ne : k ≠ o + m := fun e => here ⟨own, e⟩
        exact later ⟨own, by omega, by omega⟩

theorem padByte_padWritten (s : State) (c d : CoreId) (o k : Nat) (bs : List Byte) :
    padByte (padWritten s c o bs) d k = if d = c ∧ o ≤ k ∧ k < o + bs.length then bs.getD (k - o) 0 else padByte s d k :=
  padByte_padPuts c d o 0 k bs s

/-- Only scratchpads differ, and they have no errors that they had not before. -/
structure OnlyPads (s t : State) : Prop where
  rest : t = { s with cores := t.cores }
  l1 : ∀ d, (t.core d).l1 = (s.core d).l1
  stq : ∀ q, storeQueue t q = storeQueue s q
  errors : ∀ d k, isBad (t.core d).badPad k = true → isBad (s.core d).badPad k = true

theorem OnlyPads.padPut (c : CoreId) (o : Nat) (b : Byte) (s : State) : OnlyPads s (padPut c o b s) where
  rest := rfl
  l1 d := by
    unfold Machine.padPut
    by_cases own : d = c
    · rw [own, core_mapCore_self]
    · rw [core_mapCore_ne _ _ _ _ own]
  stq q := by
    unfold storeQueue Machine.padPut
    by_cases own : coreOf q = c
    · rw [own, core_mapCore_self]
    · rw [core_mapCore_ne _ _ _ _ own]
  errors d k h := by
    unfold Machine.padPut at h
    by_cases own : d = c
    · rw [own, core_mapCore_self] at h
      rw [own]
      exact isBad_overwritten h
    · rwa [core_mapCore_ne _ _ _ _ own] at h

theorem OnlyPads.trans {s t u : State} (h : OnlyPads s t) (g : OnlyPads t u) : OnlyPads s u where
  rest := by have := g.rest; rw [h.rest] at this; exact this
  l1 d := (g.l1 d).trans (h.l1 d)
  stq q := (g.stq q).trans (h.stq q)
  errors d k e := h.errors d k (g.errors d k e)

theorem onlyPads_padWritten (s : State) (c : CoreId) (o : Nat) (bs : List Byte) : OnlyPads s (padWritten s c o bs) := by
  unfold padWritten
  generalize bs.zipIdx = es
  induction es generalizing s with
  | nil => exact ⟨rfl, fun _ => rfl, fun _ => rfl, fun _ _ h => h⟩
  | cons e r ih => exact (OnlyPads.padPut c (o + e.2) e.1 s).trans (ih _)

theorem OnlyPads.near {s t : State} (h : OnlyPads s t) : OnlyNear s t := by
  unfold OnlyNear
  rw [h.rest]

/-- A near load of memory does not see what a scratchpad takes. -/
theorem OnlyPads.seen_phys {s t : State} {m : Loc} {pb : Nat} (h : OnlyPads s t) (place : m.place = .phys pb)
    (near : nearPlace m = true) {b : Byte} (before : seen s m = some b) : seen t m = some b := by
  rw [Laws.seen_phys place near] at before ⊢
  have clusters : t.clusters = s.clusters := by rw [h.rest]
  have agrees : AgreesAt (coreOf s.cur) (clusterOf s.cur) (pb / 64) (gathered s (pb / 64)) (gathered t (pb / 64)) := by
    refine agrees_gathered h.near (by rw [h.l1]) ?_
    unfold State.cluster
    rw [clusters]
  have queue : stqLine (gathered t (pb / 64)) s.cur (pb / 64) = stqLine (gathered s (pb / 64)) s.cur (pb / 64) := by
    have now := stqLine_gathered t (pb / 64)
    rw [h.near.cur, h.near.joined, h.stq] at now
    rw [now, stqLine_gathered]
  exact loadedByte_agrees (onlyNear_gathered s (pb / 64)).cur agrees (by rw [queue]) (by rw [queue]) before

/-! ## The obligation -/

theorem storageOf_plus_phys {s : State} {l : Loc} {pa i : Nat} (place : l.place = .phys pa) (line : (pa + i) / 64 = pa / 64) :
    storageOf s (l.plus i) = .inr (((follow s 64 0 (pa / 64)).map fun e => 64 * e.1 + (pa + i) % 64).getD (pa + i)) := by
  unfold storageOf Loc.plus
  rw [place]
  dsimp only
  rw [line]

/-- A store within 8 aligned bytes (R94). -/
theorem aligned_fits {a n : Nat} (size : n = 1 ∨ n = 2 ∨ n = 4 ∨ n = 8) (even : a % n = 0) : n ≤ 8 - a % 8 := by
  rcases size with rfl | rfl | rfl | rfl <;> omega

section
variable {s t : State} {l m : Loc} {c : CoreId} {o pa n v : Nat} {va : Word}

/-- The two halves of the statement for a scratchpad. -/
theorem padWritten_readBack (place : l.place = .pad c o) (size : n = 1 ∨ n = 2 ∨ n = 4 ∨ n = 8) (even : o % n = 0)
    (good : isBad (s.core c).badPad (o / 64) = false) {i : Nat} (inside : i < n) :
    seen (padWritten s c o (bytesOfNat n v)) (l.plus i) = some (BitVec.ofNat 8 (v / 256 ^ i)) := by
  have fits := aligned_fits size even
  have moved : (l.plus i).place = .pad c (o + i) := by unfold Loc.plus; rw [place]
  have still := mt ((onlyPads_padWritten s c o (bytesOfNat n v)).errors c (o / 64)) (by rw [good]; decide)
  rw [seen_pad moved, show (o + i) / 64 = o / 64 by omega, if_neg still, padByte_padWritten,
    if_pos ⟨rfl, by omega, by rw [bytesOfNat_length]; omega⟩, Nat.add_sub_cancel_left, bytesOfNat_getD _ _ _ inside]

theorem padWritten_other (place : l.place = .pad c o) (near : nearPlace m = true)
    (out : ∀ i, i < n → storageOf s m ≠ storageOf s (l.plus i)) {b : Byte} (before : seen s m = some b) :
    seen (padWritten s c o (bytesOfNat n v)) m = some b := by
  have pads := onlyPads_padWritten s c o (bytesOfNat n v)
  cases there : m.place with
  | phys pb => exact pads.seen_phys there near before
  | pad d k =>
    rw [seen_pad there] at before ⊢
    split at before
    · cases before
    · next good =>
      rw [if_neg (mt (pads.errors d _) good), padByte_padWritten, if_neg]
      · exact before
      · rintro ⟨rfl, low, high⟩
        rw [bytesOfNat_length] at high
        refine out (k - o) (by omega) ?_
        unfold storageOf Loc.plus
        rw [there, place]
        dsimp only
        rw [Nat.add_sub_cancel' low]

theorem queuedWrite_readBack (place : l.place = .phys pa) (near : nearPlace l = true) (size : n = 1 ∨ n = 2 ∨ n = 4 ∨ n = 8)
    (even : pa % n = 0) {i : Nat} (inside : i < n) :
    seen (queuedWrite s l.ord pa (bytesOfNat n v)) (l.plus i) = some (BitVec.ofNat 8 (v / 256 ^ i)) := by
  have fits := aligned_fits size even
  rw [seen_queuedWrite_within place near (by rw [bytesOfNat_length]; exact fits) (by rw [bytesOfNat_length]; exact inside),
    bytesOfNat_getD _ _ _ inside]

theorem queuedWrite_other (place : l.place = .phys pa) (near : nearPlace m = true) (fits : n ≤ 8 - pa % 8)
    (apart : ¬ aliased s l m) (out : ∀ i, i < n → storageOf s m ≠ storageOf s (l.plus i)) {b : Byte} (before : seen s m = some b) :
    seen (queuedWrite s l.ord pa (bytesOfNat n v)) m = some b := by
  cases there : m.place with
  | pad d k =>
    obtain ⟨pad, errors⟩ := core_queuedWrite s l.ord pa (bytesOfNat n v) d
    rw [seen_pad there] at before ⊢
    unfold padByte at before ⊢
    rw [pad, errors]
    exact before
  | phys pb =>
    have line : pa / 64 = pb / 64 ∨ pa / 64 ≠ pb / 64 ∧ sameLine s (pa / 64) (pb / 64) = false := by
      by_cases same : pa / 64 = pb / 64
      · exact .inl same
      · refine .inr ⟨same, Bool.eq_false_iff.mpr fun names => apart ?_⟩
        unfold aliased
        rw [place, there]
        exact ⟨same, names⟩
    refine seen_queuedWrite_other there near (by rw [bytesOfNat_length]; exact fits) line (fun i inside here => ?_) before
    rw [bytesOfNat_length] at inside
    refine out i inside ?_
    rw [storageOf_plus_phys place (by omega), ← here]
    unfold storageOf
    rw [there]
    dsimp only
    rw [show pb / 64 = pa / 64 by omega]

end

/-- Settles O10: a near store to memory stands in the store queue, which gives its bytes back first, and the caches agree on every
other line as they did, since a gathering takes in only names of its own line; a scratchpad is read and written directly. -/
theorem storedBytesAreReadBack : Obligations.StoredBytesAreReadBack := by
  unfold Obligations.StoredBytesAreReadBack
  intro s t l n v va size _ even near ok
  have slots (q : SeqId) : t.slot q = s.slot q := slot_of_slots (Keeps.writeLoc _ _ _ _ _ _ s () t ok).1 q
  cases place : l.place with
  | pad c o =>
    obtain rfl := writeLoc_pad place ok
    have even : o % n = 0 := by unfold placeAddress at even; rw [place] at even; exact even
    refine ⟨fun good i inside => padWritten_readBack place size even (good c o rfl) inside,
      fun m b there _ out before => padWritten_other place there out before, slots, ?_⟩
    exact (onlyPads_padWritten s c o _).near.mem
  | phys pa =>
    have even : pa % n = 0 := by unfold placeAddress at even; rw [place] at even; exact even
    obtain rfl := writeLoc_phys place near (by omega) (aligned_fits size even) ok
    refine ⟨fun _ i inside => queuedWrite_readBack place near size even inside,
      fun m b there apart out before => queuedWrite_other place there (aligned_fits size even) apart out before, slots, ?_⟩
    exact (onlyNear_written s _ _).mem

end Sys2Proof.Laws

/-! SUPPORT. Vector integer arithmetic (R108, R109): each result of the model is a number that the element encodes modulo 2^W, and
here it is the operation on bit vectors that the rule names. -/

namespace Sys2Proof.Laws

open Sys2Proof Sys2Proof.Machine

/-! ## Operands -/

/-- An operand as a bit vector of its width. -/
theorem toNat_ofNat_read (t : Slot) (o : VOp) (w e : Nat) : (BitVec.ofNat w (t.read o w e)).toNat = t.read o w e := by
  rw [BitVec.toNat_ofNat, Nat.mod_eq_of_lt (read_lt t o w e)]

/-- The signed value of an element. -/
theorem sv_toNat {w : Nat} (a : BitVec w) : sv w a.toNat = a.toInt := by
  rw [sv, intOf, if_pos rfl, sextNat_eq_toInt, BitVec.ofNat_toNat, BitVec.setWidth_eq]

/-! ## Results -/

section
variable {w : Nat} (a b : BitVec w)

theorem ofInt_toNat : BitVec.ofInt w (a.toNat : Int) = a := by
  rw [BitVec.ofInt_natCast, BitVec.ofNat_toNat, BitVec.setWidth_eq]

theorem ofInt_sub (x y : Int) : BitVec.ofInt w (x - y) = BitVec.ofInt w x - BitVec.ofInt w y := by
  rw [Int.sub_eq_add_neg, BitVec.ofInt_add, BitVec.ofInt_neg, BitVec.sub_eq_add_neg]

theorem ofInt_toNat_add : BitVec.ofInt w ((a.toNat + b.toNat : Nat) : Int) = a + b := by
  rw [Nat.cast_add, BitVec.ofInt_add, ofInt_toNat, ofInt_toNat]

theorem ofInt_toNat_sub : BitVec.ofInt w ((a.toNat : Int) - b.toNat) = a - b := by
  rw [ofInt_sub, ofInt_toNat, ofInt_toNat]

theorem ofInt_toNat_mul : BitVec.ofInt w ((a.toNat * b.toNat : Nat) : Int) = a * b := by
  rw [Nat.cast_mul, BitVec.ofInt_mul, ofInt_toNat, ofInt_toNat]

/-- The high half of a number of twice the width. -/
theorem ofInt_div_two_pow (p : Int) : BitVec.ofInt w (p / 2 ^ w) = (BitVec.ofInt (2 * w) p).extractLsb' w w := by
  have pos : (0 : Int) < 2 ^ w := by positivity
  have high : p % 2 ^ (2 * w) / 2 ^ w % 2 ^ w = p / 2 ^ w % 2 ^ w := by
    rw [two_mul, pow_add, Int.emod_def p, mul_assoc, Int.sub_mul_ediv_left _ _ pos.ne', Int.sub_mul_emod_self_left]
  apply BitVec.eq_of_toNat_eq
  rw [BitVec.extractLsb'_toNat, BitVec.toNat_ofInt, BitVec.toNat_ofInt, Nat.shiftRight_eq_div_pow]
  zify
  rw [Int.toNat_of_nonneg (Int.emod_nonneg _ (by positivity)), Int.toNat_of_nonneg (Int.emod_nonneg _ (by positivity))]
  exact high.symm

theorem ofInt_toInt_mulh :
    BitVec.ofInt w (a.toInt * b.toInt / 2 ^ w) = (a.signExtend (2 * w) * b.signExtend (2 * w)).extractLsb' w w := by
  rw [ofInt_div_two_pow, BitVec.ofInt_mul]
  rfl

theorem ofInt_toNat_mulh :
    BitVec.ofInt w ((a.toNat * b.toNat / 2 ^ w : Nat) : Int) = (a.zeroExtend (2 * w) * b.zeroExtend (2 * w)).extractLsb' w w := by
  have extend (c : BitVec w) : c.zeroExtend (2 * w) = BitVec.ofInt (2 * w) c.toNat := by
    rw [BitVec.ofInt_natCast, BitVec.ofNat_toNat]
  push_cast
  rw [ofInt_div_two_pow, BitVec.ofInt_mul, extend, extend]

theorem ofInt_toNat_shiftLeft (n : Nat) : BitVec.ofInt w ((a.toNat <<< n : Nat) : Int) = a <<< n := by
  apply BitVec.eq_of_toNat_eq
  rw [BitVec.ofInt_natCast, BitVec.toNat_ofNat, BitVec.toNat_shiftLeft]

theorem ofInt_toNat_shiftRight (n : Nat) : BitVec.ofInt w ((a.toNat >>> n : Nat) : Int) = a >>> n := by
  rw [← BitVec.toNat_ushiftRight, ofInt_toNat]

theorem ofInt_toInt_div_two_pow (n : Nat) : BitVec.ofInt w (a.toInt / 2 ^ n) = a.sshiftRight n := by
  rw [BitVec.sshiftRight, Int.shiftRight_eq_div_pow]
  norm_cast

theorem ofInt_min_toInt : BitVec.ofInt w (min a.toInt b.toInt) = if a.slt b then a else b := by
  rw [BitVec.slt_eq_decide, min_def_lt, apply_ite (BitVec.ofInt w), BitVec.ofInt_toInt, BitVec.ofInt_toInt]
  simp only [decide_eq_true_eq]

theorem ofInt_max_toInt : BitVec.ofInt w (max a.toInt b.toInt) = if a.slt b then b else a := by
  rw [BitVec.slt_eq_decide, max_def_lt, apply_ite (BitVec.ofInt w), BitVec.ofInt_toInt, BitVec.ofInt_toInt]
  simp only [decide_eq_true_eq]

theorem ofInt_min_toNat : BitVec.ofInt w ((min a.toNat b.toNat : Nat) : Int) = if a.ult b then a else b := by
  rw [BitVec.ult_eq_decide, min_def_lt, ← apply_ite BitVec.toNat, ofInt_toNat]
  simp only [decide_eq_true_eq]

theorem ofInt_max_toNat : BitVec.ofInt w ((max a.toNat b.toNat : Nat) : Int) = if a.ult b then b else a := by
  rw [BitVec.ult_eq_decide, max_def_lt, ← apply_ite BitVec.toNat, ofInt_toNat]
  simp only [decide_eq_true_eq]

theorem ofInt_tdiv : BitVec.ofInt w (a.toInt.tdiv b.toInt) = a.sdiv b := by
  apply BitVec.eq_of_toInt_eq
  rw [BitVec.toInt_sdiv, BitVec.toInt_ofInt]

theorem ofInt_tmod : BitVec.ofInt w (a.toInt.tmod b.toInt) = a - b * a.sdiv b := by
  rw [Int.tmod_def, ofInt_sub, BitVec.ofInt_mul, ofInt_tdiv, BitVec.ofInt_toInt, BitVec.ofInt_toInt]

theorem ofInt_toNat_div : BitVec.ofInt w ((a.toNat / b.toNat : Nat) : Int) = a / b := by
  rw [← BitVec.toNat_udiv, ofInt_toNat]

theorem ofInt_toNat_mod : BitVec.ofInt w ((a.toNat % b.toNat : Nat) : Int) = a - b * (a / b) := by
  rw [Int.natCast_mod, Int.emod_def, ← Int.natCast_div, ofInt_sub, BitVec.ofInt_mul, ofInt_toNat_div, ofInt_toNat, ofInt_toNat]

/-- A division by zero has a result of its own (R108). -/
theorem ofInt_ite_toNat_eq_zero (x y : Int) :
    BitVec.ofInt w (if b.toNat = 0 then x else y) = if b = 0 then BitVec.ofInt w x else BitVec.ofInt w y := by
  rw [apply_ite (BitVec.ofInt w)]
  simp only [BitVec.toNat_eq, BitVec.ofNat_eq_ofNat, BitVec.toNat_ofNat, Nat.zero_mod]

theorem ofInt_neg_one : BitVec.ofInt w (-1) = BitVec.allOnes w := by
  rw [← BitVec.neg_one_eq_allOnes, BitVec.ofInt_neg]
  rfl

end

/-! ## The shapes -/

section
variable {i : Instr} {s : State} {rep : Rep} {k : KReg} {vd vs1 vs2 : Reg} {f5 : Nat}

/-- An integer instruction of two sources, its result `g` in bit vectors. -/
theorem vint2_elementwise {f : Nat → Nat → Nat → Int} {g : BitVec s.me.ew → BitVec s.me.ew → BitVec s.me.ew}
    (hi : exec i s = vint2 f5 rep k vd vs1 vs2 f s)
    (hw : encode i = some (pack (BitVec.ofNat 5 f5 ++ rep.rsz ++ rep.repBit ++ k) vs2 vs1 vd 33#6))
    (hg : ∀ a b : BitVec s.me.ew, BitVec.ofInt s.me.ew (f s.me.ew a.toNat b.toNat) = g a b) :
    elementwise i s (s.me.fmt == .int || s.me.fmt == .uint) [s.me.opw vs1, { s.me.opw vs2 with rep := rep }, s.me.dst vd] k vd
      s.me.ew s.me.vl s.me.vlmax 1 fun e =>
      ⟨(g (BitVec.ofNat s.me.ew (s.me.read (s.me.opw vs1) s.me.ew e))
        (BitVec.ofNat s.me.ew (s.me.read { s.me.opw vs2 with rep := rep } s.me.ew e))).toNat, 0⟩ := by
  have run := vec2_elementwise hi hw (clsInt_eq s.me.fmt s.me.ew)
  simp only [← hg, toNat_ofNat_read]
  simpa only [encodeInt_eq] using run

/-- The selection of R109: no mask governs it, and the mask register's bits choose the source. -/
theorem vmerge_elementwise : elementwise (.vmerge rep k vd vs1 vs2) s true
    [s.me.opw vs1, { s.me.opw vs2 with rep := rep }, s.me.dst vd] 0 vd s.me.ew s.me.vl s.me.vlmax 1 fun e =>
      ⟨if s.me.kbit k e then s.me.read { s.me.opw vs2 with rep := rep } s.me.ew e else s.me.read (s.me.opw vs1) s.me.ew e, 0⟩ :=
  elementwise_run (cls := clsAny) (extra := fun _ => true) (os := fun t => [t.opw vs1, { t.opw vs2 with rep := rep }, t.dst vd])
    rfl (congrArg some (wordV_pack 30 rep k vs2 vs1 vd 0x21).symm) rfl (by simp [Slot.opw, Slot.dst])

theorem vmv_elementwise : elementwise (.vmv rep k vd vs2) s true [{ s.me.opw vs2 with rep := rep }, s.me.dst vd] k vd
    s.me.ew s.me.vl s.me.vlmax 1 fun e => ⟨s.me.read { s.me.opw vs2 with rep := rep } s.me.ew e, 0⟩ :=
  elementwise_run (cls := clsAny) (extra := fun _ => true) (os := fun t => [{ t.opw vs2 with rep := rep }, t.dst vd])
    rfl (congrArg some (wordV_pack 31 rep k vs2 0 vd 0x21).symm) rfl (by simp [Slot.opw, Slot.dst])

end

/-- Settles O11: each of the arithmetic instructions is `vint2` with a function of numbers, which modulo 2^W is the operation on
bit vectors; `vmerge` and `vmv` copy elements. -/
theorem vectorIntegerArithmetic : Obligations.VectorIntegerArithmetic := by
  unfold Obligations.VectorIntegerArithmetic
  intro s rep k vd vs1 vs2 t w b2 os isInt lo hi clamp gives int
  have ints {i : Instr} {f5 : Nat} {f : Nat → Nat → Nat → Int} {g : BitVec w → BitVec w → BitVec w}
      (hi : exec i s = vint2 f5 rep k vd vs1 vs2 f s)
      (hw : encode i = some (pack (BitVec.ofNat 5 f5 ++ rep.rsz ++ rep.repBit ++ k) vs2 vs1 vd 33#6))
      (hg : ∀ a b : BitVec w, BitVec.ofInt w (f w a.toNat b.toNat) = g a b) : int i g :=
    vint2_elementwise hi hw hg
  -- a function of the signed values
  have signed {f : Int → Int → Int} {g : BitVec w → BitVec w → BitVec w} (hf : ∀ a b : BitVec w, BitVec.ofInt w (f a.toInt b.toInt) = g a b)
      (a b : BitVec w) : BitVec.ofInt w (f (sv w a.toNat) (sv w b.toNat)) = g a b := by
    rw [sv_toNat, sv_toNat, hf]
  -- a function that divides
  have divides {x y : BitVec w → BitVec w → Int} {g h : BitVec w → BitVec w → BitVec w} (zero : ∀ a b, BitVec.ofInt w (x a b) = g a b)
      (other : ∀ a b, BitVec.ofInt w (y a b) = h a b) (a b : BitVec w) :
      BitVec.ofInt w (if b.toNat = 0 then x a b else y a b) = if b = 0 then g a b else h a b := by
    rw [ofInt_ite_toNat_eq_zero, zero, other]
  clear_value int
  refine ⟨?vadd, ?vsub, ?vrsub, ?vmul, ?vmulh, ?vmulhu, ?vand, ?vor, ?vxor, ?vsll, ?vsrl, ?vsra, ?vmin, ?vmax, ?vminu, ?vmaxu,
    ?vsadd, ?vsaddu, ?vssub, ?vssubu, ?vdiv, ?vdivu, ?vrem, ?vremu, ?vmerge, vmv_elementwise⟩
  case vadd => exact ints (.refl (execVadd rep k vd vs1 vs2 s)) rfl ofInt_toNat_add
  case vsub => exact ints (.refl (execVsub rep k vd vs1 vs2 s)) rfl ofInt_toNat_sub
  case vrsub => exact ints (.refl (execVrsub rep k vd vs1 vs2 s)) rfl fun a b => ofInt_toNat_sub b a
  case vmul => exact ints (.refl (execVmul rep k vd vs1 vs2 s)) rfl ofInt_toNat_mul
  case vmulh => exact ints (.refl (execVmulh rep k vd vs1 vs2 s)) rfl (signed (f := fun x y => x * y / 2 ^ w) ofInt_toInt_mulh)
  case vmulhu => exact ints (.refl (execVmulhu rep k vd vs1 vs2 s)) rfl ofInt_toNat_mulh
  case vand => exact ints (.refl (execVand rep k vd vs1 vs2 s)) rfl fun a b => ofInt_toNat (a &&& b)
  case vor => exact ints (.refl (execVor rep k vd vs1 vs2 s)) rfl fun a b => ofInt_toNat (a ||| b)
  case vxor => exact ints (.refl (execVxor rep k vd vs1 vs2 s)) rfl fun a b => ofInt_toNat (a ^^^ b)
  case vsll => exact ints (.refl (execVsll rep k vd vs1 vs2 s)) rfl fun a b => ofInt_toNat_shiftLeft a _
  case vsrl => exact ints (.refl (execVsrl rep k vd vs1 vs2 s)) rfl fun a b => ofInt_toNat_shiftRight a _
  case vsra => exact ints (.refl (execVsra rep k vd vs1 vs2 s)) rfl fun a b => (sv_toNat a) ▸ ofInt_toInt_div_two_pow a _
  case vmin => exact ints (.refl (execVmin rep k vd vs1 vs2 s)) rfl (signed ofInt_min_toInt)
  case vmax => exact ints (.refl (execVmax rep k vd vs1 vs2 s)) rfl (signed ofInt_max_toInt)
  case vminu => exact ints (.refl (execVminu rep k vd vs1 vs2 s)) rfl ofInt_min_toNat
  case vmaxu => exact ints (.refl (execVmaxu rep k vd vs1 vs2 s)) rfl ofInt_max_toNat
  case vsadd =>
    exact ints (.refl (execVsadd rep k vd vs1 vs2 s)) rfl (signed (f := fun x y => clampInt true w (x + y)) fun _ _ => rfl)
  case vsaddu => exact ints (.refl (execVsaddu rep k vd vs1 vs2 s)) rfl fun _ _ => rfl
  case vssub =>
    exact ints (.refl (execVssub rep k vd vs1 vs2 s)) rfl (signed (f := fun x y => clampInt true w (x - y)) fun _ _ => rfl)
  case vssubu => exact ints (.refl (execVssubu rep k vd vs1 vs2 s)) rfl fun _ _ => rfl
  case vdiv => exact ints (.refl (execVdiv rep k vd vs1 vs2 s)) rfl (divides (fun _ _ => ofInt_neg_one) (signed ofInt_tdiv))
  case vdivu => exact ints (.refl (execVdivu rep k vd vs1 vs2 s)) rfl (divides (fun _ _ => ofInt_neg_one) ofInt_toNat_div)
  case vrem => exact ints (.refl (execVrem rep k vd vs1 vs2 s)) rfl (divides (fun a _ => ofInt_toNat a) (signed ofInt_tmod))
  case vremu => exact ints (.refl (execVremu rep k vd vs1 vs2 s)) rfl (divides (fun a _ => ofInt_toNat a) ofInt_toNat_mod)
  case vmerge =>
    have run := vmerge_elementwise (s := s) (rep := rep) (k := k) (vd := vd) (vs1 := vs1) (vs2 := vs2)
    simpa only [gives, toNat_ofNat_read, apply_ite BitVec.toNat] using run

end Sys2Proof.Laws

/-! SUPPORT. Vector floating point (R110, R111, R118): the instructions of one and of two sources, the sign forms and the block
scale, in every configuration that R20 allows; and a configuration that R20 rules out, in which the sign forms differ. -/

namespace Sys2Proof.Laws

open Sys2Proof Sys2Proof.Machine

/-! ## The magnitude bits of an element -/

/-- A width that R20 lists for a format of `VFP` is that of its bits. -/
theorem width_of_fmtWidthOk {f : Fmt} {w : Nat} (fp : (f == .fp32 || f == .fp16 || f == .bf16) = true) (listed : fmtWidthOk f w = true) :
    (fltOf f).width = w ∧ (fltOf f).flushed = true := by
  cases f with
  | fp32 | fp16 | bf16 => exact ⟨(beq_iff_eq.mp listed).symm, rfl⟩
  | _ => exact absurd fp (by decide)

/-- A configuration with a VLMAX has a width that R20 lists (R21, R23). -/
theorem fmtWidthOk_of_vlmaxOf {t : Slot} (nonzero : t.vlmaxOf t.vtype ≠ 0) : fmtWidthOk t.fmt t.ew = true := by
  unfold Slot.vlmaxOf at nonzero
  unfold Slot.fmt Slot.ew
  dsimp only at nonzero
  split at nonzero
  · exact absurd rfl nonzero
  · next f code =>
    rw [code, Option.getD_some]
    by_contra unlisted
    rw [Bool.eq_false_iff.mpr unlisted, Bool.false_and] at nonzero
    exact nonzero rfl

/-- The exponent field is 0 where the magnitude lies below the first normal one. -/
theorem exponent_eq_zero (bits f n : Nat) : (bits >>> f) % 2 ^ n = 0 ↔ bits % 2 ^ (n + f) < 2 ^ f := by
  rw [Nat.shiftRight_eq_div_pow, ← Nat.mod_mul_right_div_self, ← pow_add, Nat.add_comm f n,
    Nat.div_eq_zero_iff_lt (Nat.two_pow_pos f)]

/-- The magnitude bits of a format that FTZ flushes, by its width. -/
theorem magnitude_eq {x : FFmt} {w : Nat} (width : x.width = w) (flushed : x.flushed = true) (ftz : Bool) (bits : Nat) :
    x.magnitude ftz bits
      = if ftz && decide (bits % 2 ^ (w - 1) < 2 ^ x.fw) then 0 else bits % 2 ^ (w - 1) := by
  have bitsOf : w - 1 = x.ew + x.fw := by rw [← width, FFmt.width]; omega
  simp only [FFmt.magnitude, flushed, Bool.and_true, bitsOf, Bool.and_eq_true, beq_iff_eq, exponent_eq_zero, decide_eq_true_eq]

/-- The magnitude bits of `a` under the sign `neg` (R96). -/
theorem magnitude_add_sign {x : FFmt} {w : Nat} (width : x.width = w) (flushed : x.flushed = true) (ftz neg : Bool) (a : Nat) :
    x.magnitude ftz a + (if neg then 2 ^ (w - 1) else 0)
      = (if ftz && decide (a % 2 ^ (w - 1) < 2 ^ x.fw) then 0 else a % 2 ^ (w - 1)) + neg.toNat * 2 ^ (w - 1) := by
  rw [magnitude_eq width flushed]
  cases neg <;> simp

/-! ## The blocks of `vfmaxexp` -/

theorem elemRange_eq_Ico (lo hi : Nat) : elemRange lo hi = List.Ico lo hi := elemRange_eq_range' lo hi

/-- The elements of a block that count (R118): of its 32, those below `vl` that the mask selects. -/
theorem block_elements (n v : Nat) (p : Nat → Bool) :
    (elemRange (32 * n) (min (32 * n + 32) v)).filter p
      = ((List.range 32).map (32 * n + ·)).filter fun e => decide (e < v) && p e := by
  have block : (List.range 32).map (32 * n + ·) = List.Ico (32 * n) (32 * n + 32) := by
    rw [← elemRange_eq_Ico, elemRange, Nat.add_sub_cancel_left]
  rw [block, elemRange_eq_Ico, ← List.Ico.filter_lt, List.filter_filter]
  simp only [Bool.and_comm]

/-! ## The shapes -/

section
variable {i : Instr} {s : State} {rep : Rep} {k : KReg} {vd vs1 vs2 rs2 : Reg} {f5 : Nat}

/-- What an instruction computes matters only where its checks pass. -/
theorem elementwise_congr {ok : Bool} {os : List VOp} {w d dmax ratio : Nat} {f g : Nat → FRes}
    (same : s.me.vill = false → ok = true → f = g) (run : elementwise i s ok os k vd w d dmax ratio f) :
    elementwise i s ok os k vd w d dmax ratio g :=
  ⟨run.1, fun ready pass => same ready.2.1 pass ▸ run.2 ready pass⟩

/-- An instruction of one source. -/
theorem vfp1_elementwise {f : FFmt → Rnd → Bool → Nat → FRes} (hi : exec i s = vfp1 f5 k vd vs1 f s)
    (hw : encode i = some (pack (BitVec.ofNat 5 f5 ++ 0#3 ++ k) 0 vs1 vd 34#6)) :
    elementwise i s (s.me.fmt == .fp32 || s.me.fmt == .fp16 || s.me.fmt == .bf16) [s.me.opw vs1, s.me.dst vd] k vd s.me.ew s.me.vl s.me.vlmax 1
      fun e => f (fltOf s.me.fmt) s.me.frmMode s.me.ftz (s.me.read (s.me.opw vs1) s.me.ew e) := by
  have run := elementwise_run (cls := clsFp) (extra := fun _ => true) (os := fun t => [t.opw vs1, t.dst vd])
    hi (hw.trans (congrArg some (wordVM_pack ..).symm)) rfl (by simp [Slot.opw, Slot.dst])
  rwa [clsFp_eq, Bool.and_true] at run

/-- A sign form, in a configuration whose width R20 lists. -/
theorem vsign_elementwise {f : Bool → Bool → Bool} (listed : s.me.vill = false → fmtWidthOk s.me.fmt s.me.ew = true)
    (hi : exec i s = vsign f5 rep k vd vs1 vs2 f s)
    (hw : encode i = some (pack (BitVec.ofNat 5 f5 ++ rep.rsz ++ rep.repBit ++ k) vs2 vs1 vd 34#6)) :
    elementwise i s (s.me.fmt == .fp32 || s.me.fmt == .fp16 || s.me.fmt == .bf16)
      [s.me.opw vs1, { s.me.opw vs2 with rep := rep }, s.me.dst vd] k vd s.me.ew s.me.vl s.me.vlmax 1 fun e =>
      let a := s.me.read (s.me.opw vs1) s.me.ew e
      let b := s.me.read { s.me.opw vs2 with rep := rep } s.me.ew e
      let magnitude := a % 2 ^ (s.me.ew - 1)
      ⟨(if s.me.ftz && decide (magnitude < 2 ^ (fltOf s.me.fmt).fw) then 0 else magnitude)
        + (f (a.testBit (s.me.ew - 1)) (b.testBit (s.me.ew - 1))).toNat * 2 ^ (s.me.ew - 1), 0⟩ := by
  refine elementwise_congr (fun valid fp => ?_) (vec2_elementwise hi hw (clsFp_eq s.me.fmt s.me.ew))
  obtain ⟨width, flushed⟩ := width_of_fmtWidthOk fp (listed valid)
  funext e
  exact congrArg (FRes.mk · 0) (magnitude_add_sign width flushed ..)

/-- The block scales of R118. -/
theorem vfmaxexp_does : vectorDoes (.vfmaxexp k vd vs1 rs2) s
    ((s.me.fmt == .fp32 || s.me.fmt == .fp16 || s.me.fmt == .bf16) && s.me.fresh)
    (fillAll s.me [s.me.opw vs1, { r := vd, quarters := 32, dest := true }] s.me.vl (s.me.kbit k)) (· / 32)
    [s.me.opw vs1, { r := vd, quarters := 32, dest := true }] vd 8
    { act := fun _ => true, zero := fun _ => false, lo := s.me.firstLeft (s.me.vstart / 32)
      d := (s.me.vl + 31) / 32, tail := (s.me.vl + 31) / 32, dmax := (s.me.vlmax + 31) / 32 } fun n =>
    ⟨blockScale ((((List.range 32).map (32 * n + ·)).filter fun e => decide (e < s.me.vl) && s.me.kbit k e).map fun e =>
      (fltOf s.me.fmt).decode s.me.ftz (s.me.read (s.me.opw vs1) s.me.ew e)) rs2.toNat, 0⟩ := by
  have run := vectorDoes_run (i := .vfmaxexp k vd vs1 rs2) (s := s) (cls := clsFp) (extra := fun t => t.fresh)
    (os := fun t => [t.opw vs1, { r := vd, quarters := 32, dest := true }])
    rfl (congrArg some (wordVM_pack 22 0 k rs2 vs1 vd 0x22).symm) rfl (by simp [Slot.opw])
  simp only [clsFp_eq, block_elements] at run
  exact run

end

/-- The scale byte of a block in the words of R118. -/
theorem blockScale_map {α : Type} (a : α → FVal) (block : List α) (emax : Nat) : blockScale (block.map a) emax
    = if block.any (fun e => match a e with | .fin _ => false | _ => true) then 0xFF
      else match (block.filterMap fun e => match a e with | .fin v => if v.m = 0 then none else some v.log2 | _ => none).max? with
        | none => 0x7F
        | some m => (min 254 (max 0 (m - emax + 127))).toNat := by
  unfold blockScale
  rw [List.any_map, List.filterMap_map]
  rfl

/-! ## The statement where the width is one of R20 -/

/-- R110, R111 and R118 in the words of the obligation, for the states that R21 allows: with `vill` = 0, the element width is one that
R20 lists for the format. -/
theorem vectorFloatingPoint_of_fmtWidthOk (s : State) (rep : Rep) (k : KReg) (vd vs1 vs2 rs2 : Reg)
    (listed : s.me.vill = false → fmtWidthOk s.me.fmt s.me.ew = true) :
    let t := s.me
    let w := t.ew
    let b2 : VOp := { t.opw vs2 with rep := rep }
    let isFp := t.fmt == .fp32 || t.fmt == .fp16 || t.fmt == .bf16
    let x := fltOf t.fmt
    let r := t.frmMode
    let av (e : Nat) : Nat := t.read (t.opw vs1) w e
    let bv (e : Nat) : Nat := t.read b2 w e
    let a (e : Nat) := x.decode t.ftz (av e)
    let b (e : Nat) := x.decode t.ftz (bv e)
    let two (i : Instr) (f : Nat → FRes) : Prop :=
      elementwise i s isFp [t.opw vs1, b2, t.dst vd] k vd w t.vl t.vlmax 1 f
    let one (i : Instr) (f : Nat → FRes) : Prop :=
      elementwise i s isFp [t.opw vs1, t.dst vd] k vd w t.vl t.vlmax 1 f
    let signed (f : Bool → Bool → Bool) (e : Nat) : FRes :=
      let magnitude := av e % 2 ^ (w - 1)
      ⟨(if t.ftz && decide (magnitude < 2 ^ x.fw) then 0 else magnitude)
        + (f ((av e).testBit (w - 1)) ((bv e).testBit (w - 1))).toNat * 2 ^ (w - 1), 0⟩
    two (.vfadd rep k vd vs1 vs2) (fun e => x.add r t.ftz (a e) (b e))
    ∧ two (.vfsub rep k vd vs1 vs2) (fun e => x.sub r t.ftz (a e) (b e))
    ∧ two (.vfmul rep k vd vs1 vs2) (fun e => x.mul r t.ftz (a e) (b e))
    ∧ two (.vfdiv rep k vd vs1 vs2) (fun e => x.div r t.ftz (a e) (b e))
    ∧ two (.vfmin rep k vd vs1 vs2) (fun e => x.minmax false (a e) (b e))
    ∧ two (.vfmax rep k vd vs1 vs2) (fun e => x.minmax true (a e) (b e))
    ∧ two (.vfsgnj rep k vd vs1 vs2) (signed fun _ y => y)
    ∧ two (.vfsgnjn rep k vd vs1 vs2) (signed fun _ y => !y)
    ∧ two (.vfsgnjx rep k vd vs1 vs2) (signed fun y z => y ^^ z)
    ∧ one (.vfsqrt k vd vs1) (fun e => x.sqrt r t.ftz (a e))
    ∧ one (.vfrecip k vd vs1) (fun e => x.recip r t.ftz (a e))
    ∧ one (.vfrsqrt k vd vs1) (fun e => x.rsqrt r t.ftz (a e))
    ∧ one (.vfexp2 k vd vs1) (fun e => x.exp2 r t.ftz (a e))
    ∧ one (.vflog2 k vd vs1) (fun e => x.log2 r t.ftz (a e))
    ∧ one (.vftanh k vd vs1) (fun e => x.tanh r t.ftz (a e))
    ∧ one (.vfclass k vd vs1) (fun e => ⟨x.classify t.ftz (av e), 0⟩)
    ∧ (let os := [t.opw vs1, { r := vd, quarters := 32, dest := true }]
       let d := (t.vl + 31) / 32
       vectorDoes (.vfmaxexp k vd vs1 rs2) s (isFp && t.fresh) (fillAll t os t.vl (t.kbit k)) (· / 32) os vd 8
         { act := fun _ => true, zero := fun _ => false, lo := t.firstLeft (t.vstart / 32)
           d := d, tail := d, dmax := (t.vlmax + 31) / 32 } fun n =>
           let block := (List.range 32).map (32 * n + ·) |>.filter fun e => decide (e < t.vl) && t.kbit k e
           let expts := block.filterMap fun e => match a e with | .fin v => if v.m = 0 then none else some v.log2 | _ => none
           ⟨if block.any (fun e => match a e with | .fin _ => false | _ => true) then 0xFF
            else match expts.max? with
              | none => 0x7F
              | some m => (min 254 (max 0 (m - rs2.toNat + 127))).toNat, 0⟩) := by
  intro t w b2 isFp x r av bv a b two one signed
  have twos {i : Instr} {f5 : Nat} {f : FFmt → Rnd → Bool → FVal → FVal → FRes} (hi : exec i s = vfp2 f5 rep k vd vs1 vs2 f s)
      (hw : encode i = some (pack (BitVec.ofNat 5 f5 ++ rep.rsz ++ rep.repBit ++ k) vs2 vs1 vd 34#6)) :
      two i fun e => f x r t.ftz (a e) (b e) :=
    vec2_elementwise hi hw (clsFp_eq t.fmt w)
  have signs {i : Instr} {f5 : Nat} {f : Bool → Bool → Bool} (hi : exec i s = vsign f5 rep k vd vs1 vs2 f s)
      (hw : encode i = some (pack (BitVec.ofNat 5 f5 ++ rep.rsz ++ rep.repBit ++ k) vs2 vs1 vd 34#6)) : two i (signed f) :=
    vsign_elementwise listed hi hw
  have ones {i : Instr} {f5 : Nat} {f : FFmt → Rnd → Bool → Nat → FRes} (hi : exec i s = vfp1 f5 k vd vs1 f s)
      (hw : encode i = some (pack (BitVec.ofNat 5 f5 ++ 0#3 ++ k) 0 vs1 vd 34#6)) : one i fun e => f x r t.ftz (av e) :=
    vfp1_elementwise hi hw
  clear_value two one
  refine ⟨?vfadd, ?vfsub, ?vfmul, ?vfdiv, ?vfmin, ?vfmax, ?vfsgnj, ?vfsgnjn, ?vfsgnjx, ?vfsqrt, ?vfrecip, ?vfrsqrt, ?vfexp2, ?vflog2,
    ?vftanh, ?vfclass, ?vfmaxexp⟩
  case vfadd => exact twos (.refl (execVfadd rep k vd vs1 vs2 s)) rfl
  case vfsub => exact twos (.refl (execVfsub rep k vd vs1 vs2 s)) rfl
  case vfmul => exact twos (.refl (execVfmul rep k vd vs1 vs2 s)) rfl
  case vfdiv => exact twos (.refl (execVfdiv rep k vd vs1 vs2 s)) rfl
  case vfmin => exact twos (f := fun x _ _ => x.minmax false) (.refl (execVfmin rep k vd vs1 vs2 s)) rfl
  case vfmax => exact twos (f := fun x _ _ => x.minmax true) (.refl (execVfmax rep k vd vs1 vs2 s)) rfl
  case vfsgnj => exact signs (f := fun _ y => y) (.refl (execVfsgnj rep k vd vs1 vs2 s)) rfl
  case vfsgnjn => exact signs (f := fun _ y => !y) (.refl (execVfsgnjn rep k vd vs1 vs2 s)) rfl
  case vfsgnjx => exact signs (.refl (execVfsgnjx rep k vd vs1 vs2 s)) rfl
  case vfsqrt => exact ones (f := fun x r z a => x.sqrt r z (x.decode z a)) (.refl (execVfsqrt k vd vs1 s)) rfl
  case vfrecip => exact ones (f := fun x r z a => x.recip r z (x.decode z a)) (.refl (execVfrecip k vd vs1 s)) rfl
  case vfrsqrt => exact ones (f := fun x r z a => x.rsqrt r z (x.decode z a)) (.refl (execVfrsqrt k vd vs1 s)) rfl
  case vfexp2 => exact ones (f := fun x r z a => x.exp2 r z (x.decode z a)) (.refl (execVfexp2 k vd vs1 s)) rfl
  case vflog2 => exact ones (f := fun x r z a => x.log2 r z (x.decode z a)) (.refl (execVflog2 k vd vs1 s)) rfl
  case vftanh => exact ones (f := fun x r z a => x.tanh r z (x.decode z a)) (.refl (execVftanh k vd vs1 s)) rfl
  case vfclass => exact ones (f := fun x _ z a => ⟨x.classify z a, 0⟩) (.refl (execVfclass k vd vs1 s)) rfl
  case vfmaxexp =>
    have run := vfmaxexp_does (s := s) (k := k) (vd := vd) (vs1 := vs1) (rs2 := rs2)
    simp only [blockScale_map] at run
    exact run

/-! ## The statement beyond R20 -/

theorem keepsSlot_me_of_retireFrame {s t : State} (h : RetireFrame s t) : keepsSlot s.me t.me := by
  have cur : t.cur = s.cur := by rw [h.rest]
  have slot := h.slots s.cur
  unfold State.me
  rwa [cur]

theorem elem_of_keepsSlot {a b : Slot} (h : keepsSlot a b) (r w e : Nat) : b.elem r w e = a.elem r w e := by
  rw [h]
  rfl

/-- The value of an element that a vector instruction computes. -/
theorem elem_of_vectorWrites {i : Instr} {s t : State} {os : List VOp} {vd : Reg} {w e : Nat} {x : Elements} {f : Nat → FRes}
    (writes : vectorWrites i s os vd w x f) (ran : exec i s = .next t) (holds : holdsElement s.me vd.toNat w e)
    (computes : x.computes e) (kept : ¬ x.clears s.me e) : t.me.elem vd.toNat w e = (f e).bits % 2 ^ w := by
  obtain ⟨lanes, ⟨values, -⟩, u, ran', retires⟩ := writes
  obtain rfl : u = t := by rw [ran] at ran'; injection ran' with same; exact same.symm
  rw [elem_of_keepsSlot (keepsSlot_me_of_retireFrame retires.frame), turnsOver_me, me_mapMe]
  exact (values e holds).2 computes kept

/-- A state whose `vtype` names FP32 with elements of 8 bits and has `vill` = 0, where R21 has `vill` = 1. Element 0 of v1 and of v2
is 0x80. -/
def narrowFp32 : State :=
  mapMe (fun t => ({ t with vstate := 1, valloc := 32, lpart := 1, vtype := 0x0012, vl := 1 }.setElem 1 8 0 0x80).setElem 2 8 0 0x80)
    State.reset

/-- The checks of R35 let the instruction pass, and its sources are registers. -/
theorem narrowFp32_ready :
    let t := narrowFp32.me
    let os := [t.opw 1, t.opw 2, t.dst 3]
    (t.vstate ≠ 0 ∧ t.vill = false ∧ t.opsOk os = true) ∧ (t.fmt = .fp32 ∧ t.ew = 8)
    ∧ fillState t os 0 1 = .ready ∧ t.sinkOf os = none := by decide +kernel

/-- `vfsgnj` takes all 31 magnitude bits of FP32, and so carries the sign out of the element. -/
theorem vfsgnj_narrowFp32 : ∃ t, exec (.vfsgnj .none 0 3 1 2) narrowFp32 = .next t ∧ t.me.elem 3 8 0 = 0 := by
  have ran : (match exec (.vfsgnj .none 0 3 1 2) narrowFp32 with | .next t => t.me.elem 3 8 0 == 0 | _ => false) = true := by
    decide +kernel
  split at ran
  · next t next => exact ⟨t, next, beq_iff_eq.mp ran⟩
  · cases ran

/-- Refutes O13: it asks every state, also one that pairs FP32 with 8-bit elements, for magnitudes of W - 1 bits. There `vfsgnj`
of 0x80 and 0x80 has the magnitude 0 and the sign 1 by the statement, and the model, whose magnitude is the format's, writes 0. The
statement lacks the hypothesis that W is a width of the format (R20, R21); with it all of it holds, by
`vectorFloatingPoint_of_fmtWidthOk`. -/
theorem not_vectorFloatingPoint : ¬ Obligations.VectorFloatingPoint := by
  unfold Obligations.VectorFloatingPoint
  intro holds
  obtain ⟨-, -, -, -, -, -, sign, -⟩ := holds narrowFp32 .none 0 3 1 2 0
  obtain ⟨ready, ⟨fmt, ew⟩, filled, sink⟩ := narrowFp32_ready
  obtain ⟨t, ran, elem⟩ := vfsgnj_narrowFp32
  have writes := (sign.2 ready (by rw [fmt]; rfl)).2.1 filled sink
  have value := elem_of_vectorWrites (e := 0) writes ran (by unfold holdsElement; decide +kernel)
    (by unfold Elements.computes; decide +kernel) (by unfold Elements.clears; decide +kernel)
  rw [ew] at value
  exact absurd (elem.symm.trans value) (by decide +kernel)

end Sys2Proof.Laws

/-! SUPPORT. The string instructions and `vqmix` (R144, R145): an element as its bytes, the lowest first, and the comparison at the
first byte that differs as the order of lists. -/

namespace Sys2Proof.Laws

open Sys2Proof Sys2Proof.Machine

/-! ## Elements as strings of bytes -/

/-- The bytes of an element, as R144 numbers them. -/
theorem elemBytes_eq (w v : Nat) : elemBytes w v = (List.range (w / 8)).map fun i => v / 256 ^ i % 256 := by
  refine List.map_congr_left fun i _ => ?_
  rw [Nat.shiftRight_eq_div_pow, Nat.pow_mul]

theorem elemBytes_length (w v : Nat) : (elemBytes w v).length = w / 8 := by
  rw [elemBytes, List.length_map, List.length_range]

/-- The first byte of an element that has one. -/
theorem elemBytes_headD {w : Nat} (h : 8 ≤ w) (v : Nat) : (elemBytes w v).headD 0 = v % 256 := by
  obtain ⟨n, bytes⟩ : ∃ n, w / 8 = n + 1 := ⟨w / 8 - 1, by omega⟩
  rw [elemBytes, bytes, List.range_succ_eq_map]
  rfl

/-- Strings of one length compare as lists do. -/
theorem compareBytes_zip {a b : List Nat} (h : a.length = b.length) :
    compareBytes (a.zip b) = if a = b then 0 else if a < b then -1 else 1 := by
  induction a generalizing b with
  | nil => rw [List.eq_nil_of_length_eq_zero h.symm]; rfl
  | cons x a ih =>
    cases b with
    | nil => cases h
    | cons y b =>
      rw [List.zip_cons_cons, compareBytes, ih (Nat.succ.inj h)]
      simp only [List.cons.injEq, List.cons_lt_cons_iff]
      rcases Nat.lt_trichotomy x y with less | rfl | greater
      · simp [less, Nat.ne_of_lt less]
      · simp
      · simp [greater, Nat.lt_asymm greater, Nat.ne_of_gt greater]

/-- The encoding of a comparison's outcome. -/
theorem encodeInt_compareBytes {w : Nat} {a b : List Nat} (h : a.length = b.length) :
    encodeInt w (compareBytes (a.zip b)) = if a = b then 0 else if a < b then 2 ^ w - 1 else 1 % 2 ^ w := by
  rw [compareBytes_zip h, encodeInt_eq]
  split
  · exact congrArg BitVec.toNat (BitVec.ofInt_ofNat w 0) |>.trans (Nat.zero_mod _)
  · split
    · rw [ofInt_neg_one, BitVec.toNat_allOnes]
    · exact congrArg BitVec.toNat (BitVec.ofInt_ofNat w 1)

/-- The place of a byte in an element, or the number of its bytes, needs no more bits than the element has. -/
theorem encodeInt_findIdx (w v : Nat) (p : Nat → Bool) :
    encodeInt w (((elemBytes w v).findIdx? p).getD (w / 8) : Nat) = ((elemBytes w v).findIdx? p).getD (w / 8) := by
  have bound : ((elemBytes w v).findIdx? p).getD (w / 8) ≤ w / 8 := by
    cases found : (elemBytes w v).findIdx? p with
    | none => exact Nat.le_refl _
    | some i =>
      obtain ⟨lt, -⟩ := List.findIdx?_eq_some_iff_getElem.mp found
      rw [elemBytes_length] at lt
      exact Nat.le_of_lt lt
  rw [encodeInt_eq, BitVec.ofInt_natCast, BitVec.toNat_ofNat, Nat.mod_eq_of_lt]
  calc _ ≤ w / 8 := bound
    _ ≤ w := Nat.div_le_self w 8
    _ < 2 ^ w := Nat.lt_two_pow_self

/-! ## The shapes -/

section
variable {i : Instr} {s : State} {k : KReg} {vd vs1 vs2 : Reg} {f5 : Nat}

theorem clsString_eq (x : Fmt) (w : Nat) : clsString x w = ((x == .int || x == .uint) && decide (8 ≤ w)) := by
  rw [clsString, clsInt_eq]

theorem clsInt64_eq (x : Fmt) (w : Nat) : clsInt64 x w = ((x == .int || x == .uint) && w == 64) := by
  rw [clsInt64, clsInt_eq]

/-- A string instruction that writes a register; its result matters only for elements that have a byte. -/
theorem vstring_elementwise {f : Nat → List Nat → List Nat → Int} {g : Nat → FRes} (hi : exec i s = vstring f5 k vd vs1 vs2 f s)
    (hw : encode i = some (pack (BitVec.ofNat 5 f5 ++ 0#3 ++ k) vs2 vs1 vd 39#6))
    (hg : 8 ≤ s.me.ew → ∀ e, ⟨encodeInt s.me.ew (f s.me.ew (elemBytes s.me.ew (s.me.read (s.me.opw vs1) s.me.ew e))
      (elemBytes s.me.ew (s.me.read (s.me.opw vs2) s.me.ew e))), 0⟩ = g e) :
    elementwise i s ((s.me.fmt == .int || s.me.fmt == .uint) && decide (8 ≤ s.me.ew)) [s.me.opw vs1, s.me.opw vs2, s.me.dst vd]
      k vd s.me.ew s.me.vl s.me.vlmax 1 g := by
  have run := elementwise_run (cls := clsString) (extra := fun _ => true) (os := fun t => [t.opw vs1, t.opw vs2, t.dst vd])
    hi (hw.trans (congrArg some (wordVM_pack ..).symm)) rfl (by simp [Slot.opw, Slot.dst])
  rw [clsString_eq, Bool.and_true] at run
  refine elementwise_congr (fun _ ok => funext fun e => hg ?_ e) run
  exact of_decide_eq_true (Bool.and_eq_true_iff.mp ok).2

end

/-- Settles O25: `vbcmp` and `vbfind` are `vstring`, `vbeq` is `vecCmp` and `vqmix` is `vec2`, each on the bytes or the numbers that the
elements are. -/
theorem vectorStrings : Obligations.VectorStrings := by
  unfold Obligations.VectorStrings
  intro s rep k kd vd vs1 vs2 t w isInt bytes lower a b os mix
  have string (v : Nat) : elemBytes w v = bytes v := elemBytes_eq w v
  refine ⟨?vbcmp, ?vbeq, ?vbfind, ?vqmix⟩
  case vbcmp =>
    refine vstring_elementwise (.refl (execVbcmp k vd vs1 vs2 s)) rfl fun _ e => ?_
    rw [encodeInt_compareBytes (by rw [elemBytes_length, elemBytes_length]), string, string]
  case vbeq =>
    have run := maskDoes_run (i := .vbeq k kd vs1 vs2) (s := s) (cls := clsString) (extra := fun _ => true)
      (os := fun t => [t.opw vs1, t.opw vs2]) (.refl (execVbeq k kd vs1 vs2 s)) (congrArg some (wordVM_pack ..).symm) rfl (by simp [Slot.opw])
    rw [clsString_eq, Bool.and_true] at run
    simp only [elemBytes_eq] at run
    exact run
  case vbfind =>
    refine vstring_elementwise (.refl (execVbfind k vd vs1 vs2 s)) rfl fun wide e => ?_
    rw [encodeInt_findIdx, elemBytes_headD wide, string]
  case vqmix => exact vec2_elementwise (i := .vqmix rep k vd vs1 vs2) (.refl (execVqmix rep k vd vs1 vs2 s)) rfl (clsInt64_eq ..)

end Sys2Proof.Laws

/-! SUPPORT. Vector instructions that write no vector register and no mask (R24, R27, R270, R271): how they end, whether their operands
are registers or streams. -/

namespace Sys2Proof.Laws

open Sys2Proof Sys2Proof.Machine

/-! ## The streams at the end -/

/-- At most one of the operands is a destination. -/
abbrev OneDest (os : List VOp) : Prop := ∀ a ∈ os, ∀ b ∈ os, a.dest = true → b.dest = true → a.r = b.r

/-- An instruction without destinations has no write stream. -/
theorem sinkOf_eq_none {t : Slot} {os : List VOp} (h : ∀ o ∈ os, o.dest = true → (t.binding o.r.toNat).bound = false) :
    t.sinkOf os = none := by
  rw [Slot.sinkOf, Option.map_eq_none_iff, List.find?_eq_none]
  intro o ho both
  obtain ⟨dest, bound⟩ := Bool.and_eq_true_iff.mp both
  rw [h o ho dest] at bound
  cases bound

/-- Where the operand checks pass, the streams at the end are those of R270 and R271. -/
theorem pops_of_opsOk {t : Slot} {os : List VOp} (ok : t.opsOk os = true) (one : OneDest os) :
    (t.streamsOf os ++ (t.sinkOf os).toList).foldl (fun t n => t.setBinding n ((t.binding n).pop t.vl)) t
      = { t with streams := streamsAfter t os } := by
  cases sink : t.sinkOf os with
  | none => rw [← sink]; exact pops_streams t os sink
  | some n => rw [← sink]; exact pops_sink t os n sink one (opsOk_sep ok)

/-- `vstate` of an instruction that writes no register and no mask, also where a write stream is among its operands. -/
theorem vstateAfter_moved (n : Nat) {t : Slot} {os : List VOp} (on : t.vstate ≠ 0) :
    (if !(t.streamsOf os ++ (t.sinkOf os).toList).isEmpty then 3 else (vectorBegun n t).vstate) = vstateAfter t os := by
  cases sink : t.sinkOf os with
  | none => rw [Option.toList_none, List.append_nil]; exact vstateAfter_eq n sink on
  | some r =>
    rw [if_pos (by simp), vstateAfter, if_neg]
    rintro ⟨-, unbound⟩
    rw [sinkOf_eq_none fun o ho _ => unbound o ho] at sink
    cases sink

/-! ## The end -/

/-- What is left of an instruction that has written a scalar register only. -/
def scalarDone (s : State) (os : List VOp) (r : Reg) (v : Word) (t : Slot) : Slot :=
  { vectorDone (t.writeX r v) with vstate := vstateAfter s.me os, streams := streamsAfter s.me os }

theorem writeX_frame (t : Slot) (r : Reg) (v : Word) : t.writeX r v = { t with x := (t.writeX r v).x } := by
  unfold Slot.writeX
  split <;> rfl

/-- A write of a scalar register does not look at the vector state. -/
theorem writeX_x_congr {a b : Slot} (h : a.x = b.x) (r : Reg) (v : Word) : (a.writeX r v).x = (b.writeX r v).x := by
  unfold Slot.writeX
  split
  · exact h
  · dsimp only; rw [h]

theorem vecEnd_scalar (n : Nat) {s : State} {os : List VOp} (ready : vectorReady s os) (one : OneDest os) (r : Reg) (v : Word) :
    vecEnd false os ((vectorBegun n s.me).writeX r v) = scalarDone s os r v s.me := by
  obtain ⟨on, -, ok⟩ := ready
  have begun := vectorBegun_frame n s.me
  have still := vectorBegun_on n on
  have after := vstateAfter_moved n (os := os) on
  generalize vectorBegun n s.me = g at begun still after
  have frame := writeX_frame g r v
  have x : (g.writeX r v).x = (s.me.writeX r v).x := writeX_x_congr (by rw [begun]) r v
  rw [x] at frame
  have whole : g.writeX r v = { s.me with vbegun := g.vbegun, vstate := g.vstate, x := (s.me.writeX r v).x } :=
    frame.trans (congrArg (fun t : Slot => { t with x := (s.me.writeX r v).x }) begun)
  rw [vecEnd_of (by rw [whole]; exact still) (by rw [whole]; exact pops_of_opsOk ok one), whole]
  unfold scalarDone
  rw [writeX_frame s.me r v]
  exact congrArg (fun q => ({ vectorDone { s.me with x := (s.me.writeX r v).x } with
    vstate := q, streams := streamsAfter s.me os } : Slot)) after

/-- An instruction that begins, writes one scalar register and ends. -/
theorem scalar_completes {i : Instr} {s : State} {wd : IWord} {m : M Flow} {mem : Bool} {os : List VOp} {n : Nat} {r : Reg} {v : Word}
    (hi : exec i s = run wd m s) (ready : vectorReady s os) (one : OneDest os)
    (hm : m s = (do
      beginVec mem
      setX r v
      closeVec false mem os n
      pure .next : M Flow) s) : completes i s (scalarDone s os r v) := by
  obtain ⟨u, begun, quiet, slots⟩ := beginVec_run mem s
  have me : u.me = vectorBegun s.ticks s.me := (me_of_slots slots quiet.cur).trans (me_mapMe _ _)
  obtain ⟨z, ends, retires⟩ := closed_run (F := scalarDone s os r v) (mem := mem) (n := n) quiet slots (vecEnd_scalar s.ticks ready one r v)
  refine ⟨_, ?_, retires⟩
  rw [hi]
  unfold run
  rw [hm, bind_run, begun]
  dsimp only
  rw [bind_run, setX_run]
  dsimp only
  rw [bind_run, mapMe_congr (g := fun _ => (vectorBegun s.ticks s.me).writeX r v) (by rw [me]), ends]
  rfl

/-- A write of x0 does nothing (R15). -/
theorem setX_zero (v : Word) : setX 0 v = pure () := by
  funext s
  have same : mapMe (·.writeX 0 v) s = s := (mapMe_congr (g := id) rfl).trans (mapMe_id s)
  rw [setX_run, same]
  rfl

/-- An instruction that begins and ends, and writes nothing. -/
theorem untouched_completes {i : Instr} {s : State} {wd : IWord} {m : M Flow} {mem : Bool} {os : List VOp} {n : Nat}
    (hi : exec i s = run wd m s) (ready : vectorReady s os) (one : OneDest os)
    (hm : m s = (do
      beginVec mem
      closeVec false mem os n
      pure .next : M Flow) s) :
    completes i s fun t => { vectorDone t with vstate := vstateAfter s.me os, streams := streamsAfter s.me os } :=
  scalar_completes (mem := mem) (n := n) (r := 0) (v := 0) hi ready one (by simp only [hm, setX_zero, pure_bind])

/-- Only what becomes of the running slot matters. -/
theorem completes_congr {i : Instr} {s : State} {f g : Slot → Slot} (same : f s.me = g s.me) (h : completes i s f) : completes i s g := by
  unfold completes at h ⊢
  rwa [mapMe_congr same] at h

end Sys2Proof.Laws

/-! SUPPORT. Mask logic, and the instructions that read a mask into a scalar register (R129, R130). -/

namespace Sys2Proof.Laws

open Sys2Proof Sys2Proof.Machine

section
variable {i : Instr} {s : State} {kd ka kb : KReg} {rd : Reg} {f5 : Nat}

/-- Without operands there is no stream to wait for. -/
theorem fillState_nil (t : Slot) (k : KReg) (ratio : Nat) : fillState t [] k ratio = .ready := rfl

/-- A mask logic instruction writes the bits from `vstart` to `vl`, under no mask. -/
theorem maskLogic_maskDoes {fa fb fd : Reg} {f : Bool → Bool → Bool} (hi : exec i s = maskLogic (wordVM f5 0 0 fb fa fd 37) kd ka kb f s)
    (hw : encode i = some (pack (BitVec.ofNat 5 f5 ++ 0#3 ++ 0#3) fb fa fd 37#6)) :
    maskDoes i s true .ready [] kd (.masked s.me 0 s.me.vl s.me.vlmax) fun e => (f (s.me.kbit ka e) (s.me.kbit kb e), 0) := by
  have run : maskDoes i s true (fillState s.me [] 0 1) [] kd (.masked s.me 0 s.me.vl s.me.vlmax)
      fun e => (f (s.me.kbit ka e) (s.me.kbit kb e), 0) := by
    refine maskDoes_run (cls := clsAny) (extra := fun _ => true) (os := fun _ => []) hi
      (hw.trans (congrArg some (wordVM_pack ..).symm)) ?_ fun _ ho => absurd ho List.not_mem_nil
    rw [bind_run, getMe_run]
  rwa [fillState_nil] at run

/-- An instruction that reads a mask writes a scalar register and nothing else. -/
theorem maskCount_completes {a : Reg} {f : Slot → Word} (hi : exec i s = maskCount (wordVM f5 0 0 0 a rd 37) rd f s)
    (hw : encode i = some (pack (BitVec.ofNat 5 f5 ++ 0#3 ++ 0#3) 0 a rd 37#6)) :
    vectorTraps i s true [] ∧ (vectorReady s [] →
      completes i s fun m => { vectorDone (m.writeX rd (f s.me)) with vstate := vstateAfter s.me [] }) := by
  refine ⟨vectorTraps_run (cls := clsAny) (extra := fun _ => true) (os := fun _ => []) hi
    (hw.trans (congrArg some (wordVM_pack ..).symm)), fun ready => ?_⟩
  refine completes_congr ?_ (scalar_completes (mem := false) (r := rd) (v := f s.me) (n := s.me.vl - s.me.vstart) hi ready
    (fun _ ho => absurd ho List.not_mem_nil) ?_)
  · unfold scalarDone
    rw [streamsAfter_nil, writeX_frame]
    rfl
  · rw [bind_run, vecChecks_pass (os := fun _ => []) ready rfl]
    rfl

end

/-- The lowest selected element comes first. -/
theorem selected_head {t : Slot} {k : KReg} {e : Nat} (below : e < t.vl) (set : t.kbit k e = true)
    (first : ∀ d, d < e → t.kbit k d = false) : (t.selected k).head? = some e := by
  have found : (List.range t.vl).find? (t.kbit k) = some e := by
    rw [List.find?_range_eq_some]
    exact ⟨set, List.mem_range.mpr below, fun d hd => by rw [first d hd]; rfl⟩
  rw [Slot.selected, List.head?_filter, found]

theorem selected_eq_nil {t : Slot} {k : KReg} (clear : ∀ e, e < t.vl → t.kbit k e = false) : t.selected k = [] := by
  rw [Slot.selected, List.filter_eq_nil_iff]
  intro e he
  rw [clear e (List.mem_range.mp he)]
  exact Bool.false_ne_true

/-- Settles O16: the mask logic instructions are `maskLogic`, and `kpop` and `kfirst` read the selected elements. -/
theorem maskInstructions : Obligations.MaskInstructions := by
  unfold Obligations.MaskInstructions
  intro s kd ka kb rd t a b logic counts set
  have kfirst := maskCount_completes (i := .kfirst rd ka) (s := s) (.refl (execKfirst rd ka s)) rfl
  refine ⟨?kand, ?kor, ?kxor, ?kandn, ?knot, ?kpop, ?found, ?none⟩
  case kand => exact maskLogic_maskDoes (.refl (execKand kd ka kb s)) rfl
  case kor => exact maskLogic_maskDoes (.refl (execKor kd ka kb s)) rfl
  case kxor => exact maskLogic_maskDoes (.refl (execKxor kd ka kb s)) rfl
  case kandn => exact maskLogic_maskDoes (f := fun a b => a && !b) (.refl (execKandn kd ka kb s)) rfl
  case knot => exact maskLogic_maskDoes (kb := 0) (f := fun a _ => !a) (.refl (execKnot kd ka s)) rfl
  case kpop =>
    exact maskCount_completes (i := .kpop rd ka) (f := fun t => BitVec.ofNat 64 (t.selected ka).length) (.refl (execKpop rd ka s)) rfl
  case found =>
    intro e below set first
    rw [selected_head below set first] at kfirst
    exact kfirst
  case none =>
    intro clear
    rw [selected_eq_nil clear] at kfirst
    exact kfirst

end Sys2Proof.Laws

/-! SUPPORT. Compaction, expansion, slides, gathers and the moves of element 0 (R131 to R137): loops with the sources that each element
takes, and instructions that write one scalar register or nothing. -/

namespace Sys2Proof.Laws

open Sys2Proof Sys2Proof.Machine

/-! ## The shapes -/

section
variable {i : Instr} {s : State} {k ka : KReg} {vd vs1 vs2 : Reg} {f5 : Nat}

/-- A source and a destination. -/
theorem oneDest_of_eq_dst {t : Slot} {os : List VOp} {vd : Reg} (h : ∀ o ∈ os, o.dest = true → o = t.dst vd) : OneDest os :=
  fun a ha b hb da db => by rw [h a ha da, h b hb db]

/-- An element-wise instruction of the integer class without a vector source. -/
theorem vindex_elementwise {g : Unit → M Flow} {f : Nat → FRes} {b a : Reg}
    (hi : exec i s = run (wordVM f5 0 k b a vd 37)
      (vecChecks (wordVM f5 0 k b a vd 37) clsInt (fun t => [t.dst vd]) (fun _ => true) >>= g) s)
    (hw : encode i = some (pack (BitVec.ofNat 5 f5 ++ 0#3 ++ k) b a vd 37#6))
    (hm : g () s = elementLoop [s.me.dst vd] k vd s.me.ew s.me.vl s.me.vlmax 1 f s) :
    elementwise i s (s.me.fmt == .int || s.me.fmt == .uint) [s.me.dst vd] k vd s.me.ew s.me.vl s.me.vlmax 1 f := by
  have run := elementwise_run hi (hw.trans (congrArg some (wordVM_pack ..).symm)) hm (oneDest_of_eq_dst (vd := vd) (t := s.me) (by simp))
  rwa [clsInt_eq, Bool.and_true] at run

/-- The elements of a move: `first` is the first that may be written, and `src` names what each takes (R135, R136). -/
def movedElements (t : Slot) (k : KReg) (vs1 : Reg) (fill : Fill) (first : Nat) (src : Nat → Option Nat) : Elements where
  act e := t.kbit k e && decide (first ≤ e)
    && (match src e with | some j => t.reaches (t.opw vs1) fill j | none => true)
    && (decide (t.vstart ≤ e) || match src e with | some j => (t.binding vs1.toNat).bound && decide (t.vstart ≤ j) | none => false)
  zero e := !t.kbit k e && t.maskZero && decide (first ≤ e) && decide (t.vstart ≤ e)
  lo := t.firstLeft 0
  d := t.vl
  tail := t.vl
  dmax := t.vlmax

theorem vmove_does {os : Slot → List VOp} {ok : Slot → Bool} {first : Slot → Nat} {src : Slot → Nat → Option Nat} {b : Reg}
    (hi : exec i s = vmove (wordVM f5 0 k b vs1 vd 37) k vd vs1 os ok first src s)
    (hw : encode i = some (pack (BitVec.ofNat 5 f5 ++ 0#3 ++ k) b vs1 vd 37#6))
    (one : ∀ o ∈ os s.me, o.dest = true → o = s.me.dst vd) :
    vectorDoes i s (ok s.me) (fillAll s.me (os s.me) s.me.vl (s.me.kbit k)) id (os s.me) vd s.me.ew
      (movedElements s.me k vs1 (fillAll s.me (os s.me) s.me.vl (s.me.kbit k)) (first s.me) (src s.me)) fun e =>
      ⟨match src s.me e with | some j => s.me.read (s.me.opw vs1) s.me.ew j | none => 0, 0⟩ :=
  vectorDoes_run (cls := clsAny) (extra := ok) (os := os) hi (hw.trans (congrArg some (wordVM_pack ..).symm)) rfl (oneDest_of_eq_dst one)

end

/-- What a resolved search leaves of its result. -/
theorem match_option_getD (o : Option Nat) (d : Nat) : (match o with | some j => j | none => d) = o.getD d := by
  cases o <;> rfl

section
variable {i : Instr} {s : State} {wd : IWord} {m : M Flow} {os : List VOp} {n e c : Nat} {a : Word}

/-- An instruction that stops at an element whose fill met a fault before it has written anything. -/
theorem stopped_unwritten (hi : exec i s = run wd m s) (on : s.me.vstate ≠ 0)
    (hm : m s = (do
      beginVec false
      stopVec false os n e c a : M Flow) s) :
    ∃ u, exec i s = .next (takeTrap c a s.me.pc (turnsOver s u)) ∧ u.me.vstart = e ∧ u.me.x = s.me.x ∧ u.me.lanes = s.me.lanes := by
  obtain ⟨u1, begun, quiet, slots⟩ := beginVec_run false s
  have me : u1.me = vectorBegun s.ticks s.me := (me_of_slots slots quiet.cur).trans (me_mapMe _ _)
  have frame := vectorBegun_frame s.ticks s.me
  obtain ⟨u, stops, kept, -⟩ := stopped_run (α := Flow) (os := os) (n := n) (e := e) (c := c) (a := a)
    (F := fun u t => { t with vstart := e, vstate := 3, streams := u.me.streams, vbegun := none, vstop := u.me.vstop })
    quiet slots (vectorBegun_on s.ticks on) (by rw [frame]) fun u => congrArg
      (fun t : Slot => { t with vstart := e, vstate := 3, streams := u.me.streams, vbegun := none, vstop := u.me.vstop }) frame
  have same : mapMe (fun _ => vectorBegun s.ticks s.me) u1 = u1 := (mapMe_congr (g := id) me.symm).trans (mapMe_id u1)
  have slot := keepsSlot_me_of_retireFrame kept
  rw [me_mapMe] at slot
  refine ⟨u, ?_, ?_, ?_, ?_⟩
  · rw [hi]
    unfold run
    rw [hm, bind_run, begun]
    dsimp only
    rw [← same, stops]
  all_goals rw [slot]

end

/-- What `vmvxs` moves to a scalar register (R137). -/
theorem ofInt_intOf (signed : Bool) (w v : Nat) : BitVec.ofInt 64 (intOf signed w v)
    = if signed then (BitVec.ofNat w v).signExtend 64 else (BitVec.ofNat w v).zeroExtend 64 := by
  rw [intOf_eq]
  cases signed
  · exact (BitVec.ofInt_natCast ..).trans (BitVec.ofNat_toNat ..)
  · rfl

/-- What `vmvxs` does when its checks have passed and it has not to wait. -/
def moveToScalar (t : Slot) (rd src : Reg) (fill : Fill) : M Flow := do
  beginVec false
  match fill with
  | .stop e c a => stopVec false [t.opw src] (e - t.vstart) e c a
  | _ => do
    setX rd (BitVec.ofInt 64 (intOf (t.fmt == .int) t.ew (t.read (t.opw src) t.ew 0)))
    closeVec false false [t.opw src] (t.vl - t.vstart)
    pure .next

theorem vmvxs_run {s : State} (rd src : Reg) (ready : vectorReady s [s.me.opw src]) :
    ∃ m : M Flow, (exec (.vmvxs rd src) s = run (wordVM 16 0 0 0 src rd 37) m s) ∧ m s
      = if fillAll s.me [s.me.opw src] (max s.me.vl 1) (fun _ => true) = .unfilled then .error (.wait .stream) s
        else moveToScalar s.me rd src (fillAll s.me [s.me.opw src] (max s.me.vl 1) fun _ => true) s := by
  refine ⟨_, .refl (execVmvxs rd src s), ?_⟩
  rw [bind_run, vecChecks_pass (os := fun t => [t.opw src]) ready rfl]
  dsimp only
  rw [bind_run, getMe_run]
  dsimp only
  split <;> rfl

/-! ## The statement -/

/-- Settles O17: the instructions of R131 to R136 are loops, each with the source that an element takes, and those of R137 move element 0
or write indices; `vmvx` that is not to write and `vmvxs` end without a vector write. -/
theorem vectorPermutations : Obligations.VectorPermutations := by
  unfold Obligations.VectorPermutations
  intro s k ka vd vs1 vs2 rs2 t w isInt os v n before fill moves sel untouched chosen
  have pair : OneDest os := oneDest_of_eq_dst (t := t) (vd := vd) (by simp [os, Slot.opw])
  refine ⟨?vcompress, ?vexpand, ?vprefpop, ?vconflict, ?vslideup, ?vslidedown, ?vrgather, ?vid, ?vmvx, ?vmvxs⟩
  case vcompress =>
    exact vectorDoes_run (i := .vcompress k vd vs1) (s := s) (cls := clsAny) (extra := fun t => t.packOk k vd vs1) (os := fun t => [t.opw vs1, t.dst vd])
      (.refl (execVcompress k vd vs1 s)) (congrArg some (wordVM_pack ..).symm) rfl pair
  case vexpand =>
    exact vectorDoes_run (i := .vexpand k vd vs1) (s := s) (cls := clsAny) (extra := fun t => t.packOk k vd vs1) (os := fun t => [t.opw vs1, t.dst vd])
      (l := t.plainLoop id k t.vl t.vlmax)
      (.refl (execVexpand k vd vs1 s)) (congrArg some (wordVM_pack ..).symm) rfl pair
  case vprefpop => exact vindex_elementwise (.refl (execVprefpop k vd ka s)) rfl (by rw [bind_run, getMe_run])
  case vconflict =>
    have run := elementwise_run (i := .vconflict k vd vs1) (s := s) (cls := clsInt) (os := fun t => [t.opw vs1, t.dst vd])
      (extra := fun t => decide (8 ≤ t.ew) && decide (t.vl < 2 ^ t.ew) && t.fresh && t.disjoint vd vs1) (k := k)
      (.refl (execVconflict k vd vs1 s)) (congrArg some (wordVM_pack ..).symm) (by rw [bind_run, getMe_run]) pair
    rw [clsInt_eq] at run
    exact elementwise_congr (fun _ _ => funext fun e => congrArg (FRes.mk · 0) (match_option_getD _ _)) run
  case vslideup =>
    exact vmove_does (os := fun t => [t.opw vs1, t.dst vd]) (ok := fun t => t.disjoint vd vs1) (first := fun t => (t.readX rs2).toNat)
      (src := fun t e => some (e - (t.readX rs2).toNat)) (.refl (execVslideup k vd vs1 rs2 s)) rfl (by simp [Slot.opw])
  case vslidedown =>
    exact vmove_does (os := fun t => [t.opw vs1, t.dst vd]) (ok := fun _ => true) (first := fun _ => 0)
      (src := fun t e => if e + (t.readX rs2).toNat < t.vl then some (e + (t.readX rs2).toNat) else none)
      (.refl (execVslidedown k vd vs1 rs2 s)) rfl (by simp [Slot.opw])
  case vrgather =>
    exact vmove_does (os := fun t => [t.opw vs1, t.opw vs2, t.dst vd]) (ok := fun t => t.disjoint vd vs1 && t.disjoint vd vs2) (first := fun _ => 0)
      (src := fun t e => if t.read (t.opw vs2) t.ew e < t.vl then some (t.read (t.opw vs2) t.ew e) else none)
      (.refl (execVrgather k vd vs1 vs2 s)) rfl (by simp [Slot.opw])
  case vid => exact vindex_elementwise (.refl (execVid k vd s)) rfl (by rw [bind_run, getMe_run])
  case vmvx =>
    have one : OneDest [t.dst vd] := oneDest_of_eq_dst (t := t) (vd := vd) (by simp)
    split
    · next first =>
      refine vectorDoes_run (i := .vmvx vd vs1) (cls := clsAny) (extra := fun _ => true) (os := fun t => [t.dst vd])
        (l := { lo := 0, d := 1, tail := 0, dmax := 0, act := fun _ => true, active := fun _ => true, top := 1 })
        (.refl (execVmvx vd vs1 s)) (congrArg some (wordVM_pack ..).symm) ?_ one
      rw [bind_run, getMe_run]
      dsimp only
      rw [if_pos first]
    · next later =>
      refine ⟨vectorTraps_run (cls := clsAny) (extra := fun _ => true) (os := fun t => [t.dst vd])
        (.refl (execVmvx vd vs1 s)) (congrArg some (wordVM_pack ..).symm), fun ready _ => ?_⟩
      refine untouched_completes (mem := false) (n := 0) (.refl (execVmvx vd vs1 s)) ready one ?_
      rw [bind_run, vecChecks_pass (os := fun t => [t.dst vd]) ready rfl]
      dsimp only
      rw [bind_run, getMe_run]
      dsimp only
      rw [if_neg later]
  case vmvxs =>
    intro os filled bits
    have one : OneDest os := oneDest_of_eq_dst (t := t) (vd := vd) (by simp [os, Slot.opw])
    refine ⟨vectorTraps_run (cls := clsAny) (extra := fun _ => true) (os := fun t => [t.opw vs1])
      (.refl (execVmvxs vd vs1 s)) (congrArg some (wordVM_pack ..).symm), fun ready => ?_⟩
    obtain ⟨m, hi, runs⟩ := vmvxs_run vd vs1 ready
    refine ⟨fun wait => holds_run hi (runs.trans (if_pos wait)), fun e c a stop => ?_, fun full => ?_⟩
    · refine stopped_unwritten hi ready.1 (os := os) (n := e - t.vstart) (runs.trans ?_)
      rw [show fillAll s.me [s.me.opw vs1] (max s.me.vl 1) (fun _ => true) = .stop e c a from stop, if_neg Fill.noConfusion]
      rfl
    · refine completes_congr ?_ (scalar_completes (mem := false) (os := os) (n := t.vl - t.vstart) (r := vd)
        (v := BitVec.ofInt 64 (intOf (t.fmt == .int) w (v 0))) hi ready one (runs.trans ?_))
      · rw [ofInt_intOf]
        rfl
      · rw [show fillAll s.me [s.me.opw vs1] (max s.me.vl 1) (fun _ => true) = .ready from full, if_neg Fill.noConfusion]
        rfl

end Sys2Proof.Laws

/-! SUPPORT. Reductions and segmented scans (R138 to R142): a reduction is a fold over the active elements as bit vectors, and writes
element 0 and the tail. -/

namespace Sys2Proof.Laws

open Sys2Proof Sys2Proof.Machine

/-! ## Folds in the words of R139 -/

/-- A fold of numbers that an operation on bit vectors describes. -/
theorem foldl_toNat {w : Nat} {g : Nat → Nat → Nat} {f : BitVec w → BitVec w → BitVec w}
    (hom : ∀ a b, g a.toNat b.toNat = (f a b).toNat) (xs : List (BitVec w)) (y : BitVec w) :
    (xs.map BitVec.toNat).foldl g y.toNat = (xs.foldl f y).toNat := by
  induction xs generalizing y with
  | nil => rfl
  | cons x xs ih => rw [List.map_cons, List.foldl_cons, List.foldl_cons, hom, ih]

/-- The same for the elements of an operand. -/
theorem foldl_read {t : Slot} {w : Nat} {g : Nat → Nat → Nat} {f : BitVec w → BitVec w → BitVec w}
    (hom : ∀ a b, g a.toNat b.toNat = (f a b).toNat) (o p : VOp) (es : List Nat) (e : Nat) :
    (es.map (t.read o w)).foldl g (t.read p w e)
      = (((es.map (t.read o w)).map (BitVec.ofNat w)).foldl f (BitVec.ofNat w (t.read p w e))).toNat := by
  rw [← foldl_toNat hom, List.map_map, List.map_map, toNat_ofNat_read]
  simp only [Function.comp_def, toNat_ofNat_read]

section
variable {w : Nat} (a b : BitVec w)

theorem sv_ite_lt : (if sv w b.toNat < sv w a.toNat then b.toNat else a.toNat) = (if b.slt a then b else a).toNat := by
  rw [sv_toNat, sv_toNat, BitVec.slt_eq_decide, apply_ite BitVec.toNat]
  simp only [decide_eq_true_eq]

theorem sv_ite_gt : (if sv w a.toNat < sv w b.toNat then b.toNat else a.toNat) = (if a.slt b then b else a).toNat := by
  rw [sv_toNat, sv_toNat, BitVec.slt_eq_decide, apply_ite BitVec.toNat]
  simp only [decide_eq_true_eq]

theorem min_toNat : min a.toNat b.toNat = (if b.ult a then b else a).toNat := by
  rw [BitVec.ult_eq_decide, apply_ite BitVec.toNat, min_comm, min_def_lt]
  simp only [decide_eq_true_eq]

theorem max_toNat : max a.toNat b.toNat = (if a.ult b then b else a).toNat := by
  rw [BitVec.ult_eq_decide, apply_ite BitVec.toNat, max_def_lt]
  simp only [decide_eq_true_eq]

end

/-! ## Segments -/

/-- The active elements of a segment, up to the element that ends it (R142). -/
theorem segment_eq (t : Slot) (k kh : KReg) (e : Nat) :
    t.segment k kh e = (List.range (e + 1)).filter fun j =>
      decide (((((List.range (e + 1)).filter (t.kbit kh)).getLast?).getD 0) ≤ j) && t.kbit k j := by
  unfold Slot.segment
  have upTo (h : Nat) : elemRange h (e + 1) = (List.range (e + 1)).filter fun j => decide (h ≤ j) := by
    rw [← List.Ico.zero_bot, List.Ico.filter_le, Nat.zero_max, elemRange_eq_Ico]
  dsimp only
  rw [upTo, List.filter_filter]
  simp only [Bool.and_comm]

/-! ## The shapes -/

/-- `vfredsum2` takes FP32 of the floating-point class (R141). -/
theorem clsFp_fp32 (x : Fmt) (w : Nat) (b : Bool) : (clsFp x w && (b && x == .fp32)) = (x == .fp32 && b) := by
  cases x <;> cases b <;> rfl

section
variable {i : Instr} {s : State} {k kh : KReg} {vd vs1 vs2 : Reg} {f5 : Nat}

/-- What a reduction writes: the results `out`, from element 0 on, with the flags `fl`; and nothing where `vl` is 0. -/
def reduces (i : Instr) (s : State) (k : KReg) (vd vs1 vs2 : Reg) (ok : Bool) (out : List Nat) (fl : FFlags) : Prop :=
  let t := s.me
  let os := [t.opw vs1, t.opw vs2, t.dst vd]
  if t.vl = 0 then vectorTraps i s ok os ∧ (vectorReady s os → ok = true →
    completes i s fun m => { vectorDone m with vstate := vstateAfter t os, streams := streamsAfter t os })
  else vectorDoes i s ok (fillAll t os t.vl (t.kbit k)) (fun _ => 0) os vd t.ew
    { act := fun _ => true, zero := fun _ => false, lo := t.firstLeft 0, d := out.length, tail := out.length, dmax := t.vlmax }
    fun e => ⟨out.getD e 0, fl⟩

theorem reduce_reduces {cls : Fmt → Nat → Bool} {more : Slot → Bool} {f : Slot → List Nat → (Nat → Nat) → List Nat × FFlags}
    {ok : Bool} {out : List Nat} {fl : FFlags}
    (hi : exec i s = reduce (wordVM f5 0 k vs2 vs1 vd 0x26) cls more k vd vs1 vs2 f s)
    (hw : encode i = some (pack (BitVec.ofNat 5 f5 ++ 0#3 ++ k) vs2 vs1 vd 38#6))
    (hok : (cls s.me.fmt s.me.ew && (s.me.fresh && more s.me)) = ok)
    (hf : f s.me ((s.me.selected k).map (s.me.read (s.me.opw vs1) s.me.ew)) (s.me.read (s.me.opw vs2) s.me.ew) = (out, fl)) :
    reduces i s k vd vs1 vs2 ok out fl := by
  subst hok
  have word := hw.trans (congrArg some (wordVM_pack f5 0 k vs2 vs1 vd 0x26).symm)
  have one : OneDest [s.me.opw vs1, s.me.opw vs2, s.me.dst vd] := oneDest_of_eq_dst (t := s.me) (vd := vd) (by simp [Slot.opw])
  unfold reduces
  dsimp only
  split
  · next none =>
    refine ⟨vectorTraps_run (extra := fun t => t.fresh && more t) (os := fun t => [t.opw vs1, t.opw vs2, t.dst vd]) hi word,
      fun ready ok => untouched_completes (mem := false) (n := 0) hi ready one ?_⟩
    rw [bind_run, vecChecks_pass (extra := fun t => t.fresh && more t) (os := fun t => [t.opw vs1, t.opw vs2, t.dst vd]) ready ok]
    dsimp only
    rw [bind_run, getMe_run]
    dsimp only
    rw [if_pos none]
  · next some =>
    refine vectorDoes_run (extra := fun t => t.fresh && more t) (os := fun t => [t.opw vs1, t.opw vs2, t.dst vd])
      (l := { lo := s.me.firstLeft 0, d := out.length, tail := out.length, dmax := s.me.vlmax, upto := fun _ => 0
              act := fun _ => true, active := s.me.kbit k, top := s.me.vl }) hi word ?_ one
    rw [bind_run, getMe_run]
    dsimp only
    rw [if_neg some, hf]

/-- An integer reduction is a fold of bit vectors. -/
theorem reduceInt_reduces {g : Nat → Nat → Nat → Nat} {f : BitVec s.me.ew → BitVec s.me.ew → BitVec s.me.ew}
    (hi : exec i s = reduceInt f5 k vd vs1 vs2 g s)
    (hw : encode i = some (pack (BitVec.ofNat 5 f5 ++ 0#3 ++ k) vs2 vs1 vd 38#6))
    (hom : ∀ a b, g s.me.ew a.toNat b.toNat = (f a b).toNat) :
    reduces i s k vd vs1 vs2 ((s.me.fmt == .int || s.me.fmt == .uint) && s.me.fresh)
      [((((s.me.selected k).map (s.me.read (s.me.opw vs1) s.me.ew)).map (BitVec.ofNat s.me.ew)).foldl f
        (BitVec.ofNat s.me.ew (s.me.read (s.me.opw vs2) s.me.ew 0))).toNat] 0 := by
  refine reduce_reduces hi hw (by rw [clsInt_eq, Bool.and_true]) ?_
  rw [foldl_read hom]

/-- A minimum or a maximum (R140). -/
theorem reduceMinMax_reduces {isMax : Bool} (hi : exec i s = reduceMinMax f5 k vd vs1 vs2 isMax s)
    (hw : encode i = some (pack (BitVec.ofNat 5 f5 ++ 0#3 ++ k) vs2 vs1 vd 38#6)) :
    let r := foldMinMax (fltOf s.me.fmt) isMax (((s.me.selected k).map (s.me.read (s.me.opw vs1) s.me.ew)
      ++ [s.me.read (s.me.opw vs2) s.me.ew 0]).map ((fltOf s.me.fmt).decode s.me.ftz))
    reduces i s k vd vs1 vs2 ((s.me.fmt == .fp32 || s.me.fmt == .fp16 || s.me.fmt == .bf16) && s.me.fresh) [r.bits] r.flags := by
  unfold reduceMinMax at hi
  exact reduce_reduces hi hw (by rw [clsFp_eq, Bool.and_true]) rfl

/-- A segmented scan. -/
theorem segScan_elementwise {cls : Fmt → Nat → Bool} {f : Slot → List Nat → FRes} {ok : Bool}
    (hi : exec i s = segScan f5 cls k kh vd vs1 f s)
    (hw : encode i = some (pack (BitVec.ofNat 5 f5 ++ 0#3 ++ k) (kField kh) vs1 vd 38#6))
    (hok : cls s.me.fmt s.me.ew = ok) :
    elementwise i s (ok && s.me.fresh) [s.me.opw vs1, s.me.dst vd] k vd s.me.ew s.me.vl s.me.vlmax 1 fun e =>
      f s.me (((List.range (e + 1)).filter fun j =>
        decide (((((List.range (e + 1)).filter (s.me.kbit kh)).getLast?).getD 0) ≤ j) && s.me.kbit k j).map
          (s.me.read (s.me.opw vs1) s.me.ew)) := by
  subst hok
  have run := elementwise_run (extra := fun t => t.fresh) (os := fun t => [t.opw vs1, t.dst vd]) (k := k) hi
    (hw.trans (congrArg some (wordVM_pack ..).symm)) (by rw [bind_run, getMe_run])
    (oneDest_of_eq_dst (t := s.me) (vd := vd) (by simp [Slot.opw]))
  simpa only [segment_eq] using run

end

/-- Settles O18: each reduction is `reduce` with its fold, and each scan is `segScan`. -/
theorem vectorReductions : Obligations.VectorReductions := by
  unfold Obligations.VectorReductions
  intro s k kh vd vs1 vs2 t w isInt isFp x from0 os xs y gives int fp vals
  have fps {i : Instr} {f5 : Nat} {f : Slot → List Nat → (Nat → Nat) → List Nat × FFlags} {r : FRes}
      (hi : exec i s = reduce (wordVM f5 0 k vs2 vs1 vd 0x26) clsFp (fun _ => true) k vd vs1 vs2 f s)
      (hw : encode i = some (pack (BitVec.ofNat 5 f5 ++ 0#3 ++ k) vs2 vs1 vd 38#6)) (hf : f t xs y = ([r.bits], r.flags)) : fp i r :=
    reduce_reduces hi hw (by rw [clsFp_eq, Bool.and_true]) hf
  have ints {i : Instr} {f5 : Nat} {g : Nat → Nat → Nat → Nat} {f : BitVec w → BitVec w → BitVec w}
      (hi : exec i s = reduceInt f5 k vd vs1 vs2 g s) (hw : encode i = some (pack (BitVec.ofNat 5 f5 ++ 0#3 ++ k) vs2 vs1 vd 38#6))
      (hom : ∀ a b, g w a.toNat b.toNat = (f a b).toNat) : int i f := reduceInt_reduces hi hw hom
  have minmax {i : Instr} {f5 : Nat} {isMax : Bool} (hi : exec i s = reduceMinMax f5 k vd vs1 vs2 isMax s)
      (hw : encode i = some (pack (BitVec.ofNat 5 f5 ++ 0#3 ++ k) vs2 vs1 vd 38#6)) : fp i (foldMinMax x isMax vals) :=
    reduceMinMax_reduces hi hw
  clear_value int fp
  refine ⟨?vredsum, ?vredmin, ?vredmax, ?vredminu, ?vredmaxu, ?vredand, ?vredor, ?vredxor, ?vfredsum, ?vfredsum2, ?vfredmin, ?vfredmax, ?scans⟩
  case vredsum => exact ints (.refl (execVredsum k vd vs1 vs2 s)) rfl fun a b => (BitVec.toNat_add a b).symm
  case vredmin => exact ints (.refl (execVredmin k vd vs1 vs2 s)) rfl sv_ite_lt
  case vredmax => exact ints (.refl (execVredmax k vd vs1 vs2 s)) rfl sv_ite_gt
  case vredminu => exact ints (.refl (execVredminu k vd vs1 vs2 s)) rfl min_toNat
  case vredmaxu => exact ints (.refl (execVredmaxu k vd vs1 vs2 s)) rfl max_toNat
  case vredand => exact ints (.refl (execVredand k vd vs1 vs2 s)) rfl fun a b => (BitVec.toNat_and a b).symm
  case vredor => exact ints (.refl (execVredor k vd vs1 vs2 s)) rfl fun a b => (BitVec.toNat_or a b).symm
  case vredxor => exact ints (.refl (execVredxor k vd vs1 vs2 s)) rfl fun a b => (BitVec.toNat_xor a b).symm
  case vfredsum =>
    refine fps (.refl (execVfredsum k vd vs1 vs2 s)) rfl ?_
    simp only [vals, List.map_map]
    rfl
  case vfredsum2 =>
    exact reduce_reduces (more := fun t => t.fmt == .fp32) (.refl (execVfredsum2 k vd vs1 vs2 s)) rfl (clsFp_fp32 ..) rfl
  case vfredmin => exact minmax (.refl (execVfredmin k vd vs1 vs2 s)) rfl
  case vfredmax => exact minmax (.refl (execVfredmax k vd vs1 vs2 s)) rfl
  case scans =>
    intro seg scans
    constructor
    · exact segScan_elementwise (i := .vsegscan k vd vs1 kh) (f := fun t xs => ⟨xs.sum % 2 ^ t.ew, 0⟩)
        (.refl (execVsegscan k vd vs1 kh s)) rfl (clsInt_eq ..)
    · exact segScan_elementwise (i := .vfsegscan k vd vs1 kh)
        (f := fun t xs => (fltOf t.fmt).windowRound t.ftz (xs.map fun v => termOf ((fltOf t.fmt).decode t.ftz v)))
        (.refl (execVfsegscan k vd vs1 kh s)) rfl (clsFp_eq ..)

end Sys2Proof.Laws

/-! SUPPORT. Vector atomics (R126, R127): each element is one read-modify-write, of which only the bits of the element's width count. -/

namespace Sys2Proof.Laws

open Sys2Proof Sys2Proof.Machine

/-! ## A read-modify-write depends on the bits that it reads and writes -/

theorem bytesOfNat_mod (n v : Nat) : bytesOfNat n (v % 2 ^ (8 * n)) = bytesOfNat n v := by
  induction n generalizing v with
  | zero => rfl
  | succ n ih =>
    have split : 2 ^ (8 * (n + 1)) = 256 * 2 ^ (8 * n) := by rw [Nat.mul_succ, Nat.pow_add]; omega
    have first : BitVec.ofNat 8 (v % (256 * 2 ^ (8 * n))) = BitVec.ofNat 8 v := by
      apply BitVec.eq_of_toNat_eq
      rw [BitVec.toNat_ofNat, BitVec.toNat_ofNat, Nat.mod_mul_right_mod]
    rw [bytesOfNat, bytesOfNat, split, first, Nat.mod_mul_right_div_self, ih]

/-- Two functions that agree in the bits of an access make the same read-modify-write. -/
theorem rmwLoc_congr {n : Nat} {f g : Nat → Nat} (same : ∀ old, old < 2 ^ (8 * n) → f old % 2 ^ (8 * n) = g old % 2 ^ (8 * n))
    (a : Agent) (sc : Scope) (l : Loc) (va : Word) :
    rmwLoc a sc l n va (fun old => some (f old)) = rmwLoc a sc l n va fun old => some (g old) := by
  have act : (do
      let old ← readLoc a sc l n va
      writeLoc a sc l n (f old) va
      pure old : M Nat) = (do
      let old ← readLoc a sc l n va
      writeLoc a sc l n (g old) va
      pure old) := by
    funext s
    rw [bind_run, bind_run]
    cases read : readLoc a sc l n va s with
    | error e u => rfl
    | ok old u =>
      dsimp only
      rw [writeLoc, writeLoc, ← bytesOfNat_mod n (f old), same old (readLoc_lt read), bytesOfNat_mod]
  unfold rmwLoc
  dsimp only
  rw [act]

/-! ## The parts of a planned element -/

/-- Each result of a pass is that of an entry. -/
theorem untilTrap_mem {α β : Type} {f : α → M β} {l : List α} {s u : State} {bs : List β} {stop : Option (α × Nat × Word)}
    (h : untilTrap l f s = .ok (bs, stop) u) : ∀ b ∈ bs, ∃ a ∈ l, ∃ s t, f a s = .ok b t := by
  induction l generalizing s bs with
  | nil => cases h; exact fun b hb => absurd hb List.not_mem_nil
  | cons a l ih =>
    unfold untilTrap at h
    rw [bind_run] at h
    split at h
    · rename_i r t hr
      cases r with
      | error e => cases h; exact fun b hb => absurd hb List.not_mem_nil
      | ok b =>
        dsimp only at h
        rw [bind_run] at h
        split at h
        · rename_i rest t' hrest
          cases h
          intro b' hb
          rcases List.mem_cons.mp hb with rfl | hb
          · exact ⟨a, List.mem_cons_self, s, t, tryM_ok hr⟩
          · obtain ⟨a', ha', runs⟩ := ih hrest b' hb
            exact ⟨a', List.mem_cons_of_mem a ha', runs⟩
        · cases h
    · cases h

/-- What an action says of its result when it goes through. -/
def Answers {α : Type} (P : α → Prop) (m : M α) : Prop := ∀ s a t, m s = .ok a t → P a

theorem Answers.pure {α : Type} {P : α → Prop} {a : α} (h : P a) : Answers P (pure a : M α) := by
  intro s b t e
  cases e
  exact h

theorem Answers.bind {α β : Type} {P : β → Prop} {m : M α} {f : α → M β} (h : ∀ a, Answers P (f a)) : Answers P (m >>= f) := by
  intro s b t e
  rw [bind_run] at e
  split at e
  · exact h _ _ _ _ e
  · cases e

theorem planElem_pieces {a : Agent} {k : AccKind} {sc : Scope} {far : Bool} {e : Nat} {ps : List Piece} {s t : State} {x : Planned}
    (h : planElem a k sc far e ps s = .ok x t) : x.parts.map (·.2) = ps := by
  unfold planElem at h
  rw [bind_run] at h
  split at h
  · rename_i parts u hp
    cases h
    refine (collect_map (p := id) (fun p => ?part) hp).trans (List.map_id ps)
    case part =>
      refine Answers.bind fun _ => Answers.bind fun l => Answers.bind fun _ => Answers.bind fun _ => ?_
      dsimp only
      split
      · exact Answers.bind fun _ => Answers.pure rfl
      · exact Answers.pure rfl
  · cases h

/-- The pieces of a planned element are those of its entry. -/
theorem plan_pieces {k : AccKind} {sc : Scope} {far : Bool} {es : List (Nat × List Piece)} {s u : State} {xs : List Planned}
    {stop : Option (Nat × Nat × Word)} (h : plan k sc far es s = .ok (xs, stop) u) {x : Planned} (hx : x ∈ xs) :
    ∃ e ∈ es, x.parts.map (·.2) = e.2 := by
  unfold plan at h
  rw [bind_run, getS_run] at h
  dsimp only at h
  rw [bind_run] at h
  split at h
  · rename_i r t hr
    obtain ⟨ok, st⟩ := r
    cases h
    obtain ⟨e, he, _, _, runs⟩ := untilTrap_mem hr x hx
    exact ⟨e, he, planElem_pieces runs⟩
  · cases h

/-- The pieces of elements of whole bytes cover them whole. -/
theorem plan_bytes {t : Slot} {k : KReg} {m : VAddr} {base : Word} {w : Nat} {kind : AccKind} {sc : Scope} {far : Bool} {s u : State}
    {xs : List Planned} {stop : Option (Nat × Nat × Word)} (h : plan kind sc far (elemPieces t k m base w) s = .ok (xs, stop) u)
    (packed : w ≠ 4 ∧ w ≠ 6) {x : Planned} (hx : x ∈ xs) {p : Loc × Piece} (hp : p ∈ x.parts) : p.2.n = w / 8 := by
  obtain ⟨e, he, pieces⟩ := plan_pieces h hx
  obtain ⟨j, -, rfl⟩ := List.mem_map.mp he
  have mem := List.mem_map_of_mem (f := Prod.snd) hp
  rw [pieces, piecesOf, if_neg packed.1, if_neg packed.2, List.mem_singleton] at mem
  rw [mem]

/-! ## Performing the same actions -/

theorem forList_congr {α : Type} {f g : α → M Unit} {l : List α} (same : ∀ a ∈ l, f a = g a) : forList l f = forList l g := by
  induction l with
  | nil => rfl
  | cons a l ih =>
    unfold forList
    rw [same a List.mem_cons_self, ih fun b hb => same b (List.mem_cons_of_mem a hb)]

theorem performs_congr {i : Instr} {s u : State} {os : List VOp} {heat : Option HeatKind} {scale : Nat} {order : List Planned}
    {stop : Option (Nat × Nat × Word)} {f g : Planned → M Unit} (same : ∀ x ∈ order, f x = g x)
    (h : performs i s os heat scale order stop u f) : performs i s os heat scale order stop u g := by
  obtain ⟨v, frame, done⟩ := h
  exact ⟨v, frame, fun z performed => done z (by rwa [forList_congr same])⟩

/-! ## An atomic as a whole -/

/-- The action of an atomic on an element whose operand is `d`. -/
def atomicPut (sc : Scope) (f : Nat → Nat → Nat) (d : Nat → Nat) (x : Planned) : M Unit := forList x.parts fun p => do
  let s ← getS
  let _ ← rmwLoc s.vagent sc p.1 p.2.n p.2.addr fun old => some (f old (d x.e))

theorem Keeps.atomicPut (sc : Scope) (f : Nat → Nat → Nat) (d : Nat → Nat) (x : Planned) : Keeps (atomicPut sc f d x) :=
  Keeps.forList _ fun _ => Keeps.getS.bind fun _ => (Keeps.rmwLoc _ _ _ _ _ _).bind fun _ => Keeps.pure _

theorem atomicPut_congr {f g : Nat → Nat → Nat} {d : Nat → Nat} {x : Planned} {w : Nat} (bytes : ∀ p ∈ x.parts, 8 * p.2.n = w)
    (same : ∀ old, old < 2 ^ w → f old (d x.e) % 2 ^ w = g old (d x.e) % 2 ^ w) (sc : Scope) :
    atomicPut sc f d x = atomicPut sc g d x := by
  refine forList_congr fun p hp => ?_
  have part (a : Agent) := rmwLoc_congr (n := p.2.n) (f := fun old => f old (d x.e)) (g := fun old => g old (d x.e))
    (by rw [bytes p hp]; exact same) a sc p.1 p.2.addr
  simp only [part]

/-- What `vatomic` does when its checks have passed. -/
def atomicElements (t : Slot) (k : KReg) (v : Reg) (base : Word) (far : Bool) (m : VAddr) (f : Nat → Nat → Nat → Nat) : M Flow := do
  let (xs, stop) ← plan .atomic t.scope far (elemPieces t k m base t.ew)
  performAll true [] (some m.heat) 1 List.length xs stop (atomicPut t.scope (f t.ew) (t.elem v.toNat t.ew))

theorem vatomic_run (w : IWord) (k : KReg) (v rs1 : Reg) (ok : Slot → Bool) (far : Bool) (mode : Slot → VAddr)
    (f : Nat → Nat → Nat → Nat) (s : State) : vatomic w k v rs1 ok far mode f s
    = if s.me.vstate = 0 then .error (.trap causeFirstUse (w.zeroExtend 64)) s
      else if s.me.vill = true then .error (.trap causeIllegal (w.zeroExtend 64)) s
      else if (ok s.me && memOpsOk s.me v (mode s.me)) = true then atomicElements s.me k v (s.me.readX rs1) far (mode s.me) f s
      else .error (.trap causeOperand (w.zeroExtend 64)) s :=
  guarded_run w (fun t => ok t && memOpsOk t v (mode t)) (fun t => atomicElements t k v (t.readX rs1) far (mode t) f) s

/-- A vector atomic translates every active element first, and then performs them in index order. -/
theorem vatomic_performs {i : Instr} {s : State} {wd : IWord} {k : KReg} {v rs1 : Reg} {ok : Slot → Bool} {far : Bool}
    {mode : Slot → VAddr} {f : Nat → Nat → Nat → Nat} (hi : exec i s = run wd (vatomic wd k v rs1 ok far mode f) s)
    (on : s.me.vstate ≠ 0) (valid : s.me.vill = false) (pass : (ok s.me && memOpsOk s.me v (mode s.me)) = true) {xs : List Planned}
    {stop : Option (Nat × Nat × Word)} {u : State}
    (hp : plan .atomic s.me.scope far (elemPieces s.me k (mode s.me) (s.me.readX rs1) s.me.ew) s = .ok (xs, stop) u) :
    xs.map (·.e) = (elemRange s.me.vstart (reached s.me stop)).filter (s.me.kbit k)
    ∧ (∀ e c a, stop = some (e, c, a) → e < s.me.vl ∧ s.me.kbit k e = true)
    ∧ performs i s [] (some (mode s.me).heat) 1 xs stop u (atomicPut s.me.scope (f s.me.ew) (s.me.elem v.toNat s.me.ew)) := by
  obtain ⟨rest, split, first⟩ := plan_prefix hp
  obtain ⟨keys, place⟩ := reached_prefix split first
  refine ⟨keys, place, performAll_performs (weight := List.length) hi ?_ ((Leaves.plan _ _ _ _).done _ _ _ hp) on
    (Keeps.atomicPut _ _ _) ?_⟩
  · rw [vatomic_run, if_neg on, if_neg (by rw [valid]; exact Bool.false_ne_true), if_pos pass]
    unfold atomicElements
    rw [bind_run, hp]
  · rintro e c a rfl x hx
    have mem := List.mem_map_of_mem (f := Planned.e) hx
    rw [keys] at mem
    exact Nat.ne_of_lt ((mem_elemRange _ _ _).mp (List.mem_of_mem_filter mem)).2

/-! ## The operations -/

section
variable {w : Nat} (a b : BitVec w)

theorem vamoPick_signed_lt : vamoPick true false w a.toNat b.toNat = (if b.slt a then b else a).toNat := by
  rw [← sv_ite_lt]
  show (if decide (sv w b.toNat < sv w a.toNat) = true then _ else _) = _
  simp only [decide_eq_true_eq]

theorem vamoPick_signed_gt : vamoPick true true w a.toNat b.toNat = (if a.slt b then b else a).toNat := by
  rw [← sv_ite_gt]
  show (if decide (sv w a.toNat < sv w b.toNat) = true then _ else _) = _
  simp only [decide_eq_true_eq]

theorem intOf_unsigned : intOf false w a.toNat = a.toNat := congrArg Nat.cast (Nat.mod_eq_of_lt a.isLt)

theorem vamoPick_unsigned_lt : vamoPick false false w a.toNat b.toNat = (if b.ult a then b else a).toNat := by
  rw [vamoPick, intOf_unsigned, intOf_unsigned, BitVec.ult_eq_decide, apply_ite BitVec.toNat]
  simp

theorem vamoPick_unsigned_gt : vamoPick false true w a.toNat b.toNat = (if a.ult b then b else a).toNat := by
  rw [vamoPick, intOf_unsigned, intOf_unsigned, BitVec.ult_eq_decide, apply_ite BitVec.toNat]
  simp

end

theorem vamoInt_eq (t : Slot) : vamoInt t = ((t.fmt == .int || t.fmt == .uint) && (t.ew == 32 || t.ew == 64)) := by
  rw [vamoInt, clsInt_eq]

/-- Settles O24: each atomic is `vatomic`, whose operation is that of its row on the bits of an element. -/
theorem vectorAtomics : Obligations.VectorAtomics := by
  unfold Obligations.VectorAtomics
  intro s mode k vs3 rs1 rs2 t w base isInt m addr atomic int
  have address (e : Nat) : piecesOf base w e (m.addr t base w e) = piecesOf base w e (addr e) := by
    cases mode
    · exact piecesOf_unit t base e
    · rfl
    · exact congrArg (piecesOf base w e) (indexed_addr t base w e w rs2)
  have pieces : elemPieces t k m base w = ((elemRange t.vstart t.vl).filter (t.kbit k)).map fun e => (e, piecesOf base w e (addr e)) :=
    List.map_congr_left fun e _ => by rw [address]
  have performs {i : Instr} {f5 : Nat} {ok : Slot → Bool} {fits far : Bool} {g : Nat → Nat → Nat → Nat} {f : BitVec w → BitVec w → BitVec w}
      (hi : exec i s = vamo f5 mode k vs3 rs1 rs2 ok far g s)
      (hw : encode i = some (pack (BitVec.ofNat 5 f5 ++ mode.toBits ++ k) rs2 rs1 vs3 42#6)) (hok : ok t = fits)
      (wide : fits = true → w = 32 ∨ w = 64) (hom : ∀ a b : BitVec w, g w a.toNat b.toNat % 2 ^ w = (f a b).toNat) : atomic i fits far f := by
    subst hok
    refine ⟨vectorTraps_of_checks hi (hw.trans ?_) (vatomic_run _ k vs3 rs1 ok far (vamoAddr mode rs2) g s), fun on valid pass xs stop u hp => ?_⟩
    · exact congrArg (fun f => some (pack f rs2 rs1 vs3 42#6)) BitVec.append_assoc
    · rw [← pieces] at hp
      obtain ⟨keys, place, done⟩ := vatomic_performs hi on valid pass hp
      refine ⟨keys.trans (by cases stop <;> rfl), place, performs_congr (fun x hx => ?_) done⟩
      have size := wide (Bool.and_eq_true_iff.mp pass).1
      have bytes (p : Loc × Piece) (hp' : p ∈ x.parts) : 8 * p.2.n = w := by
        rw [plan_bytes hp (by omega) hx hp']
        omega
      refine atomicPut_congr (g := fun a b => (f (BitVec.ofNat w a) (BitVec.ofNat w b)).toNat) bytes (fun old lt => ?_) t.scope
      have operation := hom (BitVec.ofNat w old) (BitVec.ofNat w (t.elem vs3.toNat w x.e))
      have narrow : t.elem vs3.toNat w x.e < 2 ^ w := BitVec.isLt _
      rw [BitVec.toNat_ofNat, BitVec.toNat_ofNat, Nat.mod_eq_of_lt lt, Nat.mod_eq_of_lt narrow] at operation
      rw [Nat.mod_eq_of_lt (BitVec.isLt _)]
      exact operation
  have ints {i : Instr} {f5 : Nat} {far : Bool} {g : Nat → Nat → Nat → Nat} {f : BitVec w → BitVec w → BitVec w}
      (hi : exec i s = vamo f5 mode k vs3 rs1 rs2 vamoInt far g s)
      (hw : encode i = some (pack (BitVec.ofNat 5 f5 ++ mode.toBits ++ k) rs2 rs1 vs3 42#6))
      (hom : ∀ a b : BitVec w, g w a.toNat b.toNat = (f a b).toNat) : int i far f :=
    performs hi hw (vamoInt_eq t) (fun fits => by simpa [isInt] using (Bool.and_eq_true_iff.mp fits).2)
      fun a b => by rw [hom, Nat.mod_eq_of_lt (BitVec.isLt _)]
  clear_value int atomic
  refine ⟨?vamoadd, ?vamoand, ?vamoor, ?vamoxor, ?vamomin, ?vamomax, ?vamominu, ?vamomaxu, ?vamoswap, ?vamofadd⟩
  case vamoadd => exact ints (.refl (execVamoadd mode k vs3 rs1 rs2 s)) rfl fun a b => (BitVec.toNat_add a b).symm
  case vamoand => exact ints (.refl (execVamoand mode k vs3 rs1 rs2 s)) rfl fun a b => (BitVec.toNat_and a b).symm
  case vamoor => exact ints (.refl (execVamoor mode k vs3 rs1 rs2 s)) rfl fun a b => (BitVec.toNat_or a b).symm
  case vamoxor => exact ints (.refl (execVamoxor mode k vs3 rs1 rs2 s)) rfl fun a b => (BitVec.toNat_xor a b).symm
  case vamomin => exact ints (.refl (execVamomin mode k vs3 rs1 rs2 s)) rfl vamoPick_signed_lt
  case vamomax => exact ints (.refl (execVamomax mode k vs3 rs1 rs2 s)) rfl vamoPick_signed_gt
  case vamominu => exact ints (.refl (execVamominu mode k vs3 rs1 rs2 s)) rfl vamoPick_unsigned_lt
  case vamomaxu => exact ints (.refl (execVamomaxu mode k vs3 rs1 rs2 s)) rfl vamoPick_unsigned_gt
  case vamoswap => exact ints (.refl (execVamoswap mode k vs3 rs1 rs2 s)) rfl fun _ _ => rfl
  case vamofadd =>
    intro width
    have runs : exec (.vamofadd mode k vs3 rs1 rs2) s = vamo 9 mode k vs3 rs1 rs2 (fun t => t.fmt == .fp32) false
        (fun _ a b => (fp32.add .rne false (fp32.decode false a) (fp32.decode false b)).bits) s := rfl
    refine performs runs rfl rfl (fun fits => .inl (width (eq_of_beq fits))) fun a b => ?_
    rw [BitVec.toNat_ofNat]

end Sys2Proof.Laws

/-! SUPPORT. Loads and stores of masks and of whole registers (R124, R125): bytes from a base, of which the first that cannot be
accessed stops the instruction. -/

namespace Sys2Proof.Laws

open Sys2Proof Sys2Proof.Machine

/-! ## How a load of a register or a mask ends -/

section
variable {i : Instr} {s z : State} {wd : IWord} {m : M Flow}

theorem load_traps {c : Nat} {a : Word} (hi : exec i s = run wd (asLoad m) s)
    (stops : m (startLoad s) = .error (.trap c a) (startLoad s)) :
    exec i s = .next (takeTrap c a s.me.pc (turnsOver s (endLoad (startLoad s)))) := by
  rw [hi]
  unfold run asLoad
  rw [stops]

theorem load_completes {writes : Bool} {n : Nat} (hi : exec i s = run wd (asLoad m) s) (on : z.me.vstate ≠ 0)
    (runs : m (startLoad s) = (do
      closeVec writes true [] n
      pure .next : M Flow) z) : completesAs i s (mapMe (memoryDone writes) z) := by
  obtain ⟨u, ends, counted⟩ := closeVec_counted writes true n on
  refine completesAs_counted (u := endLoad u) ?_ (counted.trans (counted_endLoad u))
  rw [hi]
  unfold run asLoad
  rw [runs, bind_run, ends]
  rfl

theorem load_stops {n place c : Nat} {a : Word} (hi : exec i s = run wd (asLoad m) s) (on : z.me.vstate ≠ 0)
    (streams : z.me.streams = s.me.streams) (runs : m (startLoad s) = stopVec true [] n place c a z) : stopsAt i s [] z place c a := by
  obtain ⟨u, ends, counted⟩ := stopVec_counted (α := Flow) true n place c a on
  refine stopsAt_counted (u := endLoad u) ?_ (counted.trans (counted_endLoad u)) streams
  rw [hi]
  unfold run asLoad
  rw [runs, ends]

end

/-- How a load traps whose checks are those of a vector instruction that no stream stops. -/
theorem loadTraps_of_checks {i : Instr} {s : State} {wd : IWord} {m : M Flow} {ok : Bool} {r : EStateM.Result Stop State Flow}
    (hi : exec i s = run wd (asLoad m) s) (hw : encode i = some wd)
    (hm : m (startLoad s) = if s.me.vstate = 0 then .error (.trap causeFirstUse (wd.zeroExtend 64)) (startLoad s)
      else if s.me.vill = true then .error (.trap causeIllegal (wd.zeroExtend 64)) (startLoad s)
      else if ok = true then r else .error (.trap causeOperand (wd.zeroExtend 64)) (startLoad s))
    (w : IWord) (h : encode i = some w) (c : Nat) (cause : (s.me.vstate = 0 ∧ c = causeFirstUse)
      ∨ (s.me.vstate ≠ 0 ∧ s.me.vill = true ∧ c = causeIllegal)
      ∨ ((s.me.vstate ≠ 0 ∧ s.me.vill = false) ∧ ok = false ∧ c = causeOperand)) :
    exec i s = .next (takeTrap c (w.zeroExtend 64) s.me.pc (turnsOver s (endLoad (startLoad s)))) := by
  obtain rfl := Option.some.inj (hw.symm.trans h)
  refine load_traps hi ?_
  rcases cause with ⟨off, rfl⟩ | ⟨on, ill, rfl⟩ | ⟨⟨on, valid⟩, bad, rfl⟩
  · rw [hm, if_pos off]
  · rw [hm, if_neg on, if_pos ill]
  · rw [hm, if_neg on, if_neg (by rw [valid]; exact Bool.false_ne_true), if_neg (by rw [bad]; exact Bool.false_ne_true)]

/-! ## The bytes that were read -/

/-- A pass over bytes has come to the byte that stopped it, or to the last one. -/
theorem bytes_prefix {base : Word} {lo hi : Nat} {α : Type} {done rest : List Nat} {stop : Option (Nat × α)}
    (h : (bytePieces base lo hi).map (·.1) = done ++ rest) (first : rest.head? = stop.map (·.1)) :
    done = elemRange lo ((stop.map (·.1)).getD hi) ∧ ∀ e, stop.map (·.1) = some e → e < hi := by
  have all : (bytePieces base lo hi).map (·.1) = (elemRange lo hi).filter fun _ => true := by
    rw [bytePieces, List.map_map, List.filter_true]
    exact List.map_id _
  obtain ⟨below, at'⟩ := active_prefix (all.symm.trans h) first
  rw [List.filter_true] at below
  exact ⟨below, fun e stops => (at' e stops).2.1⟩

/-- A load of bytes after its checks: it plans and reads, writes as `put` says, and ends as `finish` says. -/
def loadBytes (sc : Scope) (es : List (Nat × List Piece)) (put : List (Nat × Nat) → Option (Nat × Nat × Word) → Slot → Slot)
    (finish : List (Nat × Nat) → Option (Nat × Nat × Word) → M Flow) : M Flow := do
  let (xs, stop1) ← plan .load sc true es
  let (vals, stop) ← readAll sc xs stop1
  beginVec true
  heatOf .unit (xs.take vals.length)
  modMe (put vals stop)
  finish vals stop

theorem loadBytes_run {sc : Scope} {es : List (Nat × List Piece)} {s u z : State} {xs : List Planned}
    {stop1 stop : Option (Nat × Nat × Word)} {vals : List (Nat × Nat)} (hp : plan .load sc true es s = .ok (xs, stop1) u)
    (hr : readAll sc xs stop1 u = .ok (vals, stop) z) (put : List (Nat × Nat) → Option (Nat × Nat × Word) → Slot → Slot)
    (finish : List (Nat × Nat) → Option (Nat × Nat × Word) → M Flow) :
    ∃ z', RetireFrame (mapMe (vectorBegun z.ticks) z) z' ∧ (heated .unit (xs.take vals.length) z').me = vectorBegun z.ticks s.me
      ∧ loadBytes sc es put finish s = finish vals stop (mapMe (put vals stop) (heated .unit (xs.take vals.length) z')) := by
  have slots : SameSlots s z := ((Leaves.plan _ _ _ _).done _ _ _ hp).trans ((Leaves.readAll _ _ _).done _ _ _ hr)
  obtain ⟨z', begun, counted, me⟩ := beginVec_counted true z
  refine ⟨z', counted.frame, by rw [(same_heated _ _ _).me, me, slots.me], ?_⟩
  unfold loadBytes
  rw [bind_run, hp]
  dsimp only
  rw [bind_run, hr]
  dsimp only
  rw [bind_run, begun]
  rfl

/-! ## Masks -/

/-- The bits of bytes that follow one another are those from the first of the lowest to the last of the highest. -/
theorem bits_of_bytes (lo hi : Nat) : (elemRange lo hi).flatMap (fun j => (List.range 8).map (8 * j + ·)) = elemRange (8 * lo) (8 * hi) := by
  rcases Nat.lt_or_ge hi lo with empty | le
  · have void (a b : Nat) (h : b ≤ a) : elemRange a b = [] := by rw [elemRange, Nat.sub_eq_zero_of_le h]; rfl
    rw [void lo hi empty.le, void (8 * lo) (8 * hi) (by omega)]
    rfl
  · simp only [elemRange_eq_Ico]
    induction hi, le using Nat.le_induction with
    | base => simp
    | succ hi le ih =>
      have byte : (List.range 8).map (8 * hi + ·) = List.Ico (8 * hi) (8 * (hi + 1)) := by
        rw [← elemRange_eq_Ico, elemRange, Nat.mul_succ, Nat.add_sub_cancel_left]
      rw [List.Ico.succ_top le, List.flatMap_append, ih, List.flatMap_singleton, byte, List.Ico.append_consecutive (by omega) (by omega)]

/-- Bit `e` of a mask, as the bytes read give it. -/
def loadedBit (vals : List (Nat × Nat)) (e : Nat) : Bool × FFlags := (((vals.lookup (e / 8)).getD 0).testBit (e % 8), 0)

/-- What `vldk` writes of the bytes read by a slot `t`, in the slot `t'` that the instruction has come to. -/
def putMask (t : Slot) (kd : KReg) (vals : List (Nat × Nat)) (stop : Option (Nat × Nat × Word)) (t' : Slot) : Slot :=
  let written := vals.foldl (fun t' x => (List.range 8).foldl (fun t' i =>
    if 8 * x.1 + i < t.vl then t'.setKbit kd (8 * x.1 + i) (x.2.testBit i) else t') t') t'
  if t.tailZero && stop.isNone then (elemRange t.vl t.vlmax).foldl (fun t' e => t'.setKbit kd e false) written else written

/-- The bits that `vldk` writes and zeroes: where it stops, those of the bytes below its stop and no tail. -/
def loadedBits (t : Slot) : Option (Nat × Nat × Word) → Elements
  | none => { act := fun _ => true, zero := fun _ => false, lo := t.vstart, d := t.vl, tail := t.vl, dmax := t.vlmax }
  | some (j, _) => { act := fun _ => true, zero := fun _ => false, lo := t.vstart, d := 8 * j, tail := 0, dmax := 0 }

/-- Writing the bits of each byte is writing, at each index, the bit that the bytes give. -/
theorem writes_bits {vals : List (Nat × Nat)} (nd : (vals.map (·.1)).Nodup) (kd : KReg) (vl : Nat) (t : Slot) :
    vals.foldl (fun t' x => (List.range 8).foldl (fun t' i =>
      if 8 * x.1 + i < vl then t'.setKbit kd (8 * x.1 + i) (x.2.testBit i) else t') t') t
    = (((vals.map (·.1)).flatMap fun j => (List.range 8).map (8 * j + ·)).filter fun e => decide (e < vl)).foldl
        (maskPass (fun _ => true) (fun _ => false) kd (loadedBit vals)) t := by
  rw [List.foldl_filter, List.foldl_flatMap, List.foldl_map]
  refine List.foldl_ext _ _ _ fun t' x hx => ?_
  rw [List.foldl_map]
  refine List.foldl_ext _ _ _ fun t' i hi => ?_
  have byte : (8 * x.1 + i) / 8 = x.1 := by have := List.mem_range.mp hi; omega
  have bit : (8 * x.1 + i) % 8 = i := by have := List.mem_range.mp hi; omega
  simp [maskPass, loadedBit, byte, bit, lookup_of_mem nd hx, Slot.raise]

theorem putMask_eq_looped {t t' : Slot} {kd : KReg} {vals : List (Nat × Nat)} {stop : Option (Nat × Nat × Word)}
    (tz : t'.tailZero = t.tailZero) (aligned : t.vstart % 8 = 0)
    (keys : vals.map (·.1) = elemRange (t.vstart / 8) ((stop.map (·.1)).getD ((t.vl + 7) / 8)))
    (below : ∀ j, stop.map (·.1) = some j → j < (t.vl + 7) / 8) :
    putMask t kd vals stop t' = maskLooped t' kd (loadedBits t stop) (loadedBit vals) := by
  have nd : (vals.map (·.1)).Nodup := by rw [keys]; exact nodup_elemRange _ _
  have first : 8 * (t.vstart / 8) = t.vstart := by omega
  unfold putMask maskLooped
  dsimp only
  rw [writes_bits nd, keys, bits_of_bytes, first, elemRange_eq_Ico, List.Ico.filter_lt, ← elemRange_eq_Ico, tz]
  cases stop with
  | none =>
    have last : min (8 * ((none : Option Nat).getD ((t.vl + 7) / 8))) t.vl = t.vl := by
      rw [Option.getD_none]
      omega
    rw [Option.isNone_none, Bool.and_true]
    simp only [Option.map_none, last]
    rfl
  | some x =>
    have last : min (8 * ((some x.1).getD ((t.vl + 7) / 8))) t.vl = 8 * x.1 := by
      have := below x.1 rfl
      rw [Option.getD_some]
      omega
    rw [Option.isNone_some, Bool.and_false, if_neg Bool.false_ne_true]
    simp only [Option.map_some, last]
    exact (ite_self _).symm

theorem putMask_begun {t : Slot} {kd : KReg} {vals : List (Nat × Nat)} {stop : Option (Nat × Nat × Word)} (n : Nat)
    (aligned : t.vstart % 8 = 0)
    (keys : vals.map (·.1) = elemRange (t.vstart / 8) ((stop.map (·.1)).getD ((t.vl + 7) / 8)))
    (below : ∀ j, stop.map (·.1) = some j → j < (t.vl + 7) / 8) :
    ∃ masks, maskedInto t masks kd (loadedBits t stop) (loadedBit vals)
      ∧ putMask t kd vals stop (vectorBegun n t) = { vectorBegun n t with masks := masks } := by
  have tz : (vectorBegun n t).tailZero = t.tailZero := by rw [vectorBegun_frame]; rfl
  have tail : (loadedBits t stop).dmax ≤ (loadedBits t stop).tail ∨ (loadedBits t stop).d ≤ (loadedBits t stop).tail := by
    cases stop
    · exact .inr (Nat.le_refl _)
    · exact .inl (Nat.le_refl _)
  obtain ⟨-, written⟩ := maskLooped_begun n t kd (loadedBits t stop) (loadedBit vals) tail
  obtain ⟨left, -⟩ := maskLooped_spec (vectorBegun n t) kd (loadedBits t stop) (loadedBit vals) tail
  refine ⟨_, written, (putMask_eq_looped tz aligned keys below).trans ?_⟩
  have flags : (loadedBits t stop).flags (fun e => ⟨0, (loadedBit vals e).2⟩) = 0 := by simp [Elements.flags, loadedBit]
  rw [flags, show ∀ g : FFlags, g ||| 0 = g from fun g => BitVec.or_zero] at left
  exact left

/-- The end of `vldk`. -/
def finishMask (t : Slot) (kd : KReg) (_ : List (Nat × Nat)) : Option (Nat × Nat × Word) → M Flow
  | some (j, c, a) => stopVec true [] (t.maskBits j) (8 * j) c a
  | none => do
    closeVec (kd != 0) true [] (t.vl - t.vstart)
    pure .next

theorem vloadMask_run (w : IWord) (kd : KReg) (rs1 : Reg) (s : State) : vloadMask w kd rs1 s
    = if s.me.vstate = 0 then .error (.trap causeFirstUse (w.zeroExtend 64)) s
      else if s.me.vill = true then .error (.trap causeIllegal (w.zeroExtend 64)) s
      else if (s.me.vstart % 8 == 0) = true then
        loadBytes s.me.scope (bytePieces (s.me.readX rs1) (s.me.vstart / 8) ((s.me.vl + 7) / 8)) (putMask s.me kd) (finishMask s.me kd) s
      else .error (.trap causeOperand (w.zeroExtend 64)) s :=
  guarded_run w (fun t => t.vstart % 8 == 0)
    (fun t => loadBytes t.scope (bytePieces (t.readX rs1) (t.vstart / 8) ((t.vl + 7) / 8)) (putMask t kd) (finishMask t kd)) s

/-- What `vldk` leaves of its slot. -/
theorem memoryDone_masks (n : Nat) {t : Slot} (on : t.vstate ≠ 0) (kd : KReg) (masks : Vector (BitVec 524288) 8) :
    memoryDone (kd != 0) { vectorBegun n t with masks := masks }
      = { vectorDone (vectorBegun n t) with masks := masks, vstate := if kd = 0 then vstateAfter t [] else 3 } := by
  have after : vstateAfter t [] = (vectorBegun n t).vstate := (vstateAfter_eq n rfl on).symm
  unfold memoryDone
  by_cases zero : kd = 0
  · subst zero
    rw [if_pos rfl, after]
    rfl
  · rw [if_neg zero, if_pos (by simpa using zero)]
    rfl

section
variable {i : Instr} {s u z : State} {wd : IWord} {kd : KReg} {v rs1 : Reg} {xs : List Planned} {stop1 stop : Option (Nat × Nat × Word)}
  {vals : List (Nat × Nat)}

/-- A load of a mask moves every byte, and one that stops those below its stop. -/
theorem vloadMask_does (hi : exec i s = run wd (asLoad (vloadMask wd kd rs1)) s) (on : s.me.vstate ≠ 0) (valid : s.me.vill = false)
    (aligned : s.me.vstart % 8 = 0)
    (hp : plan .load s.me.scope true (bytePieces (s.me.readX rs1) (s.me.vstart / 8) ((s.me.vl + 7) / 8)) (startLoad s) = .ok (xs, stop1) u)
    (hr : readAll s.me.scope xs stop1 u = .ok (vals, stop) z) :
    ∃ z' masks, RetireFrame (mapMe (vectorBegun z.ticks) z) z' ∧ maskedInto s.me masks kd (loadedBits s.me stop) (loadedBit vals)
      ∧ (stop = none → completesAs i s (mapMe (fun m => { vectorDone m with
          masks := masks, vstate := if kd = 0 then vstateAfter s.me [] else 3 }) (heated .unit (xs.take vals.length) z')))
      ∧ ∀ j c a, stop = some (j, c, a) →
          stopsAt i s [] (mapMe (fun m => { m with masks := masks }) (heated .unit (xs.take vals.length) z')) (8 * j) c a := by
  obtain ⟨rest, split, first⟩ := readAll_prefix hp hr
  obtain ⟨keys, below⟩ := bytes_prefix split first
  obtain ⟨masks, written, put⟩ := putMask_begun (kd := kd) z.ticks aligned keys below
  obtain ⟨z', frame, me, runs⟩ := loadBytes_run hp hr (putMask s.me kd) (finishMask s.me kd)
  rw [(same_startLoad s).me] at me
  refine ⟨z', masks, frame, written, ?_⟩
  generalize heated .unit (xs.take vals.length) z' = h at me runs ⊢
  rw [mapMe_congr (g := fun m => { m with masks := masks }) (by rw [me]; exact put)] at runs
  have whole : vloadMask wd kd rs1 (startLoad s) = finishMask s.me kd vals stop (mapMe (fun m => { m with masks := masks }) h) := by
    rw [vloadMask_run, (same_startLoad s).me, if_neg on, if_neg (by rw [valid]; exact Bool.false_ne_true),
      if_pos (by rw [aligned]; rfl), runs]
  have still : (mapMe (fun m => { m with masks := masks }) h).me.vstate ≠ 0 := by
    rw [me_mapMe, me]
    exact vectorBegun_on _ on
  constructor
  · rintro rfl
    have done := load_completes hi still whole
    rwa [mapMe_mapMe, mapMe_congr (g := fun m => { vectorDone m with
      masks := masks, vstate := if kd = 0 then vstateAfter s.me [] else 3 }) (by rw [me]; exact memoryDone_masks _ on kd masks)] at done
  · rintro j c a rfl
    exact load_stops hi still (by rw [me_mapMe, me, vectorBegun_frame]) whole

/-! ## Whole registers -/

/-- What `vldw` writes of the bytes read. -/
def putBytes (v : Reg) (vals : List (Nat × Nat)) (_ : Option (Nat × Nat × Word)) (t : Slot) : Slot :=
  vals.foldl (fun t' x => t'.setElem v.toNat 8 x.1 x.2) t

/-- The bytes of a register that `vldw` writes, up to byte `hi`. -/
def loadedBytes (t : Slot) (hi : Nat) : Elements :=
  { act := fun _ => true, zero := fun _ => false, lo := t.vstart, d := hi, tail := 0, dmax := 0 }

theorem putBytes_begun {t : Slot} {hi : Nat} (n : Nat) (keys : vals.map (·.1) = elemRange t.vstart hi) :
    ∃ lanes, writtenInto t lanes v 8 (loadedBytes t hi) (loadResult vals)
      ∧ putBytes v vals stop (vectorBegun n t) = { vectorBegun n t with lanes := lanes } := by
  obtain ⟨left, bits, others⟩ := looped_spec (vectorBegun n t) v 8 (loadedBytes t hi) (loadResult vals)
  rw [loadResult_flags, show ∀ g : FFlags, g ||| 0 = g from fun g => BitVec.or_zero] at left
  refine ⟨_, writtenInto_begun n ⟨bits, others⟩, Eq.trans ?_ left⟩
  have nd : (vals.map (·.1)).Nodup := by rw [keys]; exact nodup_elemRange _ _
  unfold putBytes looped
  rw [writes_lookup _ _ _ nd, keys]
  have void : elemRange 0 0 = [] := rfl
  simp only [loadedBytes, void, List.foldl_nil, ite_self]
  refine List.foldl_ext _ _ _ fun t' e _ => ?_
  simp [pass, loadResult, Slot.raise]

/-- The end of `vldw`. -/
def finishBytes (vals : List (Nat × Nat)) : Option (Nat × Nat × Word) → M Flow
  | some (j, c, a) => stopVec true [] vals.length j c a
  | none => do
    endVec true [] vals.length
    pure .next

/-- The checks of a whole-register transfer (R125). -/
theorem wholeChecks_run {α : Type} (w : IWord) (v : Reg) (base : Word) (g : Unit → M α) (s : State) :
    (wholeChecks w v base >>= g) s
    = if s.me.vstate = 0 then .error (.trap causeFirstUse (w.zeroExtend 64)) s
      else if s.me.vill = true then .error (.trap causeIllegal (w.zeroExtend 64)) s
      else if (decide (v.toNat < s.me.valloc) && !(s.me.binding v.toNat).bound) = true then
        if base.toNat % 64 = 0 then g () s else .error (.trap causeAlignment base) s
      else .error (.trap causeOperand (w.zeroExtend 64)) s := by
  have checks := guarded_run w (fun t => decide (v.toNat < t.valloc) && !(t.binding v.toNat).bound)
    (fun _ => check (base.toNat % 64 == 0) causeAlignment base) s
  rw [bind_run, show wholeChecks w v base s = _ from checks]
  split_ifs with off ill pass aligned
  · rfl
  · rfl
  · rw [check_pass _ _ _ _ (beq_iff_eq.mpr aligned)]
  · rw [check_fail _ _ _ _ (beq_eq_false_iff_ne.mpr aligned)]
  · rfl

theorem vloadWhole_run (w : IWord) (v rs1 : Reg) (s : State) : vloadWhole w v rs1 s
    = if s.me.vstate = 0 then .error (.trap causeFirstUse (w.zeroExtend 64)) s
      else if s.me.vill = true then .error (.trap causeIllegal (w.zeroExtend 64)) s
      else if (decide (v.toNat < s.me.valloc) && !(s.me.binding v.toNat).bound) = true then
        if (s.me.readX rs1).toNat % 64 = 0 then
          loadBytes s.me.scope (bytePieces (s.me.readX rs1) s.me.vstart s.me.regBytes) (putBytes v) finishBytes s
        else .error (.trap causeAlignment (s.me.readX rs1)) s
      else .error (.trap causeOperand (w.zeroExtend 64)) s :=
  wholeChecks_run w v (s.me.readX rs1) (fun _ =>
    loadBytes s.me.scope (bytePieces (s.me.readX rs1) s.me.vstart s.me.regBytes) (putBytes v) finishBytes) s

/-- A load of a register moves every byte, and one that stops those below its stop. -/
theorem vloadWhole_does (hi : exec i s = run wd (asLoad (vloadWhole wd v rs1)) s) (on : s.me.vstate ≠ 0) (valid : s.me.vill = false)
    (pass : (decide (v.toNat < s.me.valloc) && !(s.me.binding v.toNat).bound) = true) (aligned : (s.me.readX rs1).toNat % 64 = 0)
    (hp : plan .load s.me.scope true (bytePieces (s.me.readX rs1) s.me.vstart s.me.regBytes) (startLoad s) = .ok (xs, stop1) u)
    (hr : readAll s.me.scope xs stop1 u = .ok (vals, stop) z) :
    ∃ z' lanes, RetireFrame (mapMe (vectorBegun z.ticks) z) z'
      ∧ writtenInto s.me lanes v 8 (loadedBytes s.me ((stop.map (·.1)).getD s.me.regBytes)) (loadResult vals)
      ∧ (stop = none → completesAs i s (mapMe (fun m => { vectorDone m with lanes := lanes, vstate := 3 })
          (heated .unit (xs.take vals.length) z')))
      ∧ ∀ j c a, stop = some (j, c, a) →
          stopsAt i s [] (mapMe (fun m => { m with lanes := lanes }) (heated .unit (xs.take vals.length) z')) j c a := by
  obtain ⟨rest, split, first⟩ := readAll_prefix hp hr
  obtain ⟨keys, -⟩ := bytes_prefix split first
  obtain ⟨lanes, written, put⟩ := putBytes_begun (v := v) (stop := stop) z.ticks keys
  obtain ⟨z', frame, me, runs⟩ := loadBytes_run hp hr (putBytes v) finishBytes
  rw [(same_startLoad s).me] at me
  refine ⟨z', lanes, frame, written, ?_⟩
  generalize heated .unit (xs.take vals.length) z' = h at me runs ⊢
  rw [mapMe_congr (g := fun m => { m with lanes := lanes }) (by rw [me]; exact put)] at runs
  have whole : vloadWhole wd v rs1 (startLoad s) = finishBytes vals stop (mapMe (fun m => { m with lanes := lanes }) h) := by
    rw [vloadWhole_run, (same_startLoad s).me, if_neg on, if_neg (by rw [valid]; exact Bool.false_ne_true), if_pos pass,
      if_pos aligned, runs]
  have still : (mapMe (fun m => { m with lanes := lanes }) h).me.vstate ≠ 0 := by
    rw [me_mapMe, me]
    exact vectorBegun_on _ on
  constructor
  · rintro rfl
    have done := load_completes (writes := true) hi still whole
    rwa [mapMe_mapMe] at done
  · rintro j c a rfl
    exact load_stops hi still (by rw [me_mapMe, me, vectorBegun_frame]) whole

/-! ## Stores -/

/-- Page by page, no element is named but those that are planned. -/
theorem mem_pageOrder {s : State} {xs : List Planned} {x : Planned} (h : x ∈ pageOrder s xs) : x ∈ xs := by
  unfold pageOrder at h
  obtain ⟨l, hl, hx⟩ := List.mem_flatten.mp h
  obtain ⟨g, -, rfl⟩ := List.mem_map.mp hl
  exact List.mem_of_mem_filter (mem_storeOrder hx)

/-- A store of bytes after its checks. -/
def storeBytes (sc : Scope) (es : List (Nat × List Piece)) (scale : Nat) (weight : List Planned → Nat) (put : Planned → M Unit) : M Flow := do
  let (xs, stop) ← plan .store sc true es
  let s ← getS
  performAll true [] (some .unit) scale weight (pageOrder s xs) stop put

theorem storeBytes_performs {m : M Flow} {sc : Scope} {es : List (Nat × List Piece)} {lo hi' scale : Nat} {weight : List Planned → Nat}
    {put : Planned → M Unit} (hi : exec i s = run wd m s) (hm : m s = storeBytes sc es scale weight put s) (on : s.me.vstate ≠ 0)
    (keeps : ∀ x, Keeps (put x)) (range : es.map (·.1) = elemRange lo hi') (hp : plan .store sc true es s = .ok (xs, stop) u) :
    performs i s [] (some .unit) scale (pageOrder u xs) stop u put := by
  refine performAll_performs (weight := weight) hi ?_ ((Leaves.plan _ _ _ _).done _ _ _ hp) on keeps ?_
  · rw [hm]
    unfold storeBytes
    rw [bind_run, hp]
    rfl
  · rintro e c a rfl x hx
    obtain ⟨rest, split, first⟩ := plan_prefix hp
    rw [range, ← List.filter_true (elemRange lo hi')] at split
    obtain ⟨keys, -⟩ := active_prefix split first
    rw [List.filter_true] at keys
    have mem := List.mem_map_of_mem (f := Planned.e) (mem_pageOrder hx)
    rw [keys] at mem
    exact Nat.ne_of_lt ((mem_elemRange _ _ _).mp mem).2

end

/-- The bytes of a mask that `vstk` stores, each with as many bits as lie below `vl`. -/
def maskPieces (t : Slot) (kd : KReg) (base : Word) : List (Nat × List Piece) :=
  (bytePieces base (t.vstart / 8) ((t.vl + 7) / 8)).map fun x => (x.1, x.2.map fun p => { p with bits := (maskByte t kd x.1).2 })

/-- What `vstk` does when its checks have passed. -/
def storeMaskBytes (kd : KReg) (rs1 : Reg) (t : Slot) : M Flow :=
  storeBytes t.scope (maskPieces t kd (t.readX rs1)) 8 (fun l => (l.map fun x => (maskByte t kd x.e).2).sum)
    fun x => writePlanned t.scope (maskByte t kd x.e).1 x

theorem vstoreMask_run (w : IWord) (kd : KReg) (rs1 : Reg) (s : State) : vstoreMask w kd rs1 s
    = if s.me.vstate = 0 then .error (.trap causeFirstUse (w.zeroExtend 64)) s
      else if s.me.vill = true then .error (.trap causeIllegal (w.zeroExtend 64)) s
      else if (s.me.vstart % 8 == 0) = true then storeMaskBytes kd rs1 s.me s
      else .error (.trap causeOperand (w.zeroExtend 64)) s :=
  guarded_run w (fun t => t.vstart % 8 == 0) (storeMaskBytes kd rs1) s

theorem vstoreWhole_run (w : IWord) (v rs1 : Reg) (s : State) : vstoreWhole w v rs1 s
    = if s.me.vstate = 0 then .error (.trap causeFirstUse (w.zeroExtend 64)) s
      else if s.me.vill = true then .error (.trap causeIllegal (w.zeroExtend 64)) s
      else if (decide (v.toNat < s.me.valloc) && !(s.me.binding v.toNat).bound) = true then
        if (s.me.readX rs1).toNat % 64 = 0 then
          storeBytes s.me.scope (bytePieces (s.me.readX rs1) s.me.vstart s.me.regBytes) 1 List.length
            (fun x => writePlanned s.me.scope (s.me.elem v.toNat 8 x.e) x) s
        else .error (.trap causeAlignment (s.me.readX rs1)) s
      else .error (.trap causeOperand (w.zeroExtend 64)) s :=
  wholeChecks_run w v (s.me.readX rs1) (fun _ =>
    storeBytes s.me.scope (bytePieces (s.me.readX rs1) s.me.vstart s.me.regBytes) 1 List.length
      fun x => writePlanned s.me.scope (s.me.elem v.toNat 8 x.e) x) s

theorem bytePieces_range (base : Word) (lo hi : Nat) : (bytePieces base lo hi).map (·.1) = elemRange lo hi := by
  rw [bytePieces, List.map_map]
  exact List.map_id _

theorem maskPieces_range (t : Slot) (kd : KReg) (base : Word) :
    (maskPieces t kd base).map (·.1) = elemRange (t.vstart / 8) ((t.vl + 7) / 8) := by
  rw [maskPieces, List.map_map]
  exact bytePieces_range base _ _

theorem maskPieces_eq (t : Slot) (kd : KReg) (base : Word) : maskPieces t kd base
    = (elemRange (t.vstart / 8) ((t.vl + 7) / 8)).map fun j =>
        (j, [{ addr := base + BitVec.ofNat 64 j, n := 1, bits := min 8 (t.vl - 8 * j) }]) := by
  rw [maskPieces, bytePieces, List.map_map]
  rfl

/-! ## The transfers -/

/-- Settles O23: a transfer of a mask and one of a register are loads and stores of bytes, and a byte of a mask is eight of its bits. -/
theorem maskAndRegisterTransfers : Obligations.MaskAndRegisterTransfers := by
  unfold Obligations.MaskAndRegisterTransfers
  intro s v rs1 kd t base on loadTraps checks bytes loaded whole regBytes
  have word (mode op : Nat) (d : Reg) : some (pack (0#2 ++ BitVec.ofNat 3 mode ++ 0#3 ++ 0#3) 0#5 rs1 d (BitVec.ofNat 6 op))
      = some (wordVMem 0 mode 0 0 0 rs1 d op) := congrArg some (wordVMem_pack 0 mode 0 0 0 rs1 d op).symm
  have same : (startLoad s).me = s.me := (same_startLoad s).me
  have loadMask : exec (.vldk kd rs1) s = run (wordVMem 0 1 0 0 0 rs1 (kField kd) 0x28)
      (asLoad (vloadMask (wordVMem 0 1 0 0 0 rs1 (kField kd) 0x28) kd rs1)) s := rfl
  have storeMask : exec (.vstk kd rs1) s = run (wordVMem 0 1 0 0 0 rs1 (kField kd) 0x29)
      (vstoreMask (wordVMem 0 1 0 0 0 rs1 (kField kd) 0x29) kd rs1) s := rfl
  have loadWhole : exec (.vldw v rs1) s = run (wordVMem 0 2 0 0 0 rs1 v 0x28)
      (asLoad (vloadWhole (wordVMem 0 2 0 0 0 rs1 v 0x28) v rs1)) s := rfl
  have storeWhole : exec (.vstw v rs1) s = run (wordVMem 0 2 0 0 0 rs1 v 0x29)
      (vstoreWhole (wordVMem 0 2 0 0 0 rs1 v 0x29) v rs1) s := rfl
  refine ⟨?maskChecks, ?maskLoads, ?maskTraps, ?maskStores, ?wholeChecks, ?unaligned, ?wholeLoads, ?wholeTraps, ?wholeStores⟩
  case maskChecks => exact loadTraps_of_checks loadMask (word 1 0x28 (kField kd)) (by rw [vloadMask_run, same])
  case maskTraps => exact vectorTraps_of_checks storeMask (word 1 0x29 (kField kd)) (vstoreMask_run _ kd rs1 s)
  case wholeChecks => exact loadTraps_of_checks loadWhole (word 2 0x28 v) (by rw [vloadWhole_run, same])
  case wholeTraps => exact vectorTraps_of_checks storeWhole (word 2 0x29 v) (vstoreWhole_run _ v rs1 s)
  case maskLoads =>
    rintro ⟨on, valid⟩ aligned xs stop1 u vals stop z hp hr
    obtain ⟨z', masks, frame, written, through, stopped⟩ := vloadMask_does loadMask on valid aligned hp hr
    refine ⟨z', frame, ?_⟩
    cases stop with
    | none => exact ⟨masks, written, through rfl⟩
    | some x => exact ⟨masks, written, stopped _ _ _ rfl⟩
  case maskStores =>
    rintro ⟨on, valid⟩ aligned xs stop u n hp
    rw [show ((elemRange (t.vstart / 8) ((t.vl + 7) / 8)).map fun j =>
      (j, [({ addr := base + BitVec.ofNat 64 j, n := 1, bits := n j } : Piece)])) = maskPieces t kd base from (maskPieces_eq t kd base).symm] at hp
    have runs : vstoreMask (wordVMem 0 1 0 0 0 rs1 (kField kd) 0x29) kd rs1 s = storeMaskBytes kd rs1 s.me s := by
      rw [vstoreMask_run, if_neg on, if_neg (by rw [valid]; exact Bool.false_ne_true), if_pos (by rw [aligned]; rfl)]
    exact storeBytes_performs storeMask runs on (fun x => Keeps.writePlanned _ _ _) (maskPieces_range t kd base) hp
  case unaligned =>
    rintro ⟨on, valid⟩ pass odd
    have ok : ¬ s.me.vill = true := by rw [valid]; exact Bool.false_ne_true
    constructor
    · refine load_traps loadWhole ?_
      rw [vloadWhole_run, same, if_neg on, if_neg ok, if_pos pass, if_neg odd]
    · refine traps_run storeWhole ?_
      rw [vstoreWhole_run, if_neg on, if_neg ok, if_pos pass, if_neg odd]
  case wholeLoads =>
    rintro ⟨on, valid⟩ pass aligned xs stop1 u vals stop z hp hr
    obtain ⟨z', lanes, frame, written, through, stopped⟩ := vloadWhole_does loadWhole on valid pass aligned hp hr
    refine ⟨z', frame, ?_⟩
    cases stop with
    | none => exact ⟨lanes, written, through rfl⟩
    | some x => exact ⟨lanes, written, stopped _ _ _ rfl⟩
  case wholeStores =>
    rintro ⟨on, valid⟩ pass aligned xs stop u hp
    have runs : vstoreWhole (wordVMem 0 2 0 0 0 rs1 v 0x29) v rs1 s
        = storeBytes s.me.scope (bytePieces (s.me.readX rs1) s.me.vstart s.me.regBytes) 1 List.length
            (fun x => writePlanned s.me.scope (s.me.elem v.toNat 8 x.e) x) s := by
      rw [vstoreWhole_run, if_neg on, if_neg (by rw [valid]; exact Bool.false_ne_true), if_pos pass, if_pos aligned]
    exact storeBytes_performs storeWhole runs on (fun x => Keeps.writePlanned _ _ _) (bytePieces_range _ _ _) hp

end Sys2Proof.Laws

/-! SUPPORT. Vector instructions that access memory and read streams: how they end, and how they stop (R24, R270, R271). -/

namespace Sys2Proof.Laws

open Sys2Proof Sys2Proof.Machine

/-- An instruction gives up the places that it has had since it began, wherever its accesses have brought it. -/
theorem turnsOver_of_sameSlots {s z : State} (same : SameSlots s z) (u : State) : turnsOver z u = turnsOver s u := by
  unfold turnsOver
  rw [same.me, same.2]

section
variable {i : Instr} {s z u : State} {wd : IWord} {m : M Flow} {mem writes : Bool} {os : List VOp} {n e c : Nat} {a : Word}
  {g : Slot} {B F : Slot → Slot}

theorem closed_completesAs (hi : exec i s = run wd m s)
    (hm : m s = (do
      closeVec writes mem os n
      pure .next : M Flow) z) : completesAs i s (mapMe (vecEnd writes os) z) := by
  obtain ⟨y, a, b, ends, quiet, others, me⟩ := closeVec_run writes mem os n z
  refine completesAs_counted (u := y) ?_ ⟨quiet, others, a, b, by rw [me, me_mapMe]⟩
  rw [hi]
  unfold run
  rw [hm, bind_run, ends]
  rfl

/-- An instruction that begins where its accesses have brought it, and then writes its registers. -/
theorem begun_completesAs (hi : exec i s = run wd m s) (same : SameSlots s z) (begun : Quiet (mapMe B z) u)
    (slots : u.slots = (mapMe B z).slots) (fin : vecEnd writes os g = F z.me)
    (hm : m s = (do
      closeVec writes mem os n
      pure .next : M Flow) (mapMe (fun _ => g) u)) : completesAs i s (mapMe F z) := by
  obtain ⟨y, ends, retires⟩ := closed_run (mem := mem) (n := n) begun slots fin
  rw [turnsOver_of_sameSlots same, turnsOver_of_sameSlots same] at retires
  refine ⟨_, ?_, retires⟩
  rw [hi]
  unfold run
  rw [hm, bind_run, ends]
  rfl

/-- The frame of a retirement is `Quiet` with what it says of the other slots. -/
theorem frame_of_quiet {s t : State} (quiet : Quiet s t) (others : OthersStay s t) : RetireFrame s t :=
  ⟨quiet.slots, others, quiet.cores, quiet.clusters, quiet.parts, quiet.rest⟩

/-- A slot `t` at the stop of a vector instruction that leaves `y`. -/
def slotStopped (e : Nat) (y t : Slot) : Slot :=
  { t with vstart := e, vbegun := none, vstate := 3, streams := y.streams, vstop := y.vstop }

theorem begun_stopsAt (hi : exec i s = run wd m s) (nonempty : os ≠ []) (begun : Quiet (mapMe B z) u)
    (slots : u.slots = (mapMe B z).slots) (on : g.vstate ≠ 0) (streams : g.streams = s.me.streams)
    (fin : ∀ y, slotStopped e y g = slotStopped e y (F z.me))
    (hm : m s = stopVec mem os n e c a (mapMe (fun _ => g) u)) : stopsAt i s os (mapMe F z) e c a := by
  have me := me_mapMe u fun _ => g
  obtain ⟨y, stops, quiet, others, bindings⟩ := stopVec_run (α := Flow) false mem os n e c a (mapMe (fun _ => g) u) (by rw [me]; exact on)
  have binding (r : Nat) : g.binding r = s.me.binding r := by unfold Slot.binding; rw [streams]
  have streamsOf : g.streamsOf os = s.me.streamsOf os := by unfold Slot.streamsOf; simp only [binding]
  have cur : u.cur = z.cur := begun.cur
  rw [mapMe_mapMe, mapMe_congr (g := fun _ => slotStopped e y.me (F z.me)) (fin y.me)] at quiet
  refine ⟨y, ?_, ?_, fun r => ?_⟩
  · rw [hi]
    unfold run
    rw [hm, show stopVec mem os n e c a (mapMe (fun _ => g) u) = _ from stops]
  · rw [mapMe_mapMe, mapMe_congr (g := fun _ => slotStopped e y.me (F z.me)) (by simp only [slotStopped, if_neg nonempty])]
    have both : Quiet (mapMe (fun _ => slotStopped e y.me (F z.me)) (mapMe B z)) (mapMe (fun _ => slotStopped e y.me (F z.me)) u) :=
      quiet_mapMe_both _ _ begun (keepsSlot_refl _)
    rw [mapMe_mapMe] at both
    refine frame_of_quiet (both.trans quiet) fun r other still => ?_
    change r ≠ z.cur at other
    have otherU : r ≠ u.cur := by rw [cur]; exact other
    have slot : (mapMe (fun _ => g) u).slot r = z.slot r := by
      rw [slot_mapMe_ne _ _ _ otherU, slot_of_slots slots, slot_mapMe_ne _ _ _ other]
    have stays : (mapMe (fun _ => slotStopped e y.me (F z.me)) z).slot r = z.slot r := slot_mapMe_ne _ _ _ other
    rw [stays] at still ⊢
    rw [← slot]
    exact others r otherU (by rw [slot]; exact still)
  · rw [bindings r, me, streamsOf, binding]

end

/-! ## An instruction that begins and passes over its elements -/

/-- Where an instruction stops: at the element that stopped its pass, or else at the fault that its fill met. -/
def firstStop : Option (Nat × Nat × Word) → Fill → Option (Nat × Nat × Word)
  | none, .stop e c a => some (e, c, a)
  | x, _ => x

/-- How far the pass of an instruction goes: to the fault that its fill met, or to `vl`. -/
def filledTo (t : Slot) : Fill → Nat
  | .stop e _ _ => min e t.vl
  | _ => t.vl

/-- The end of an instruction whose pass has done `n` elements. -/
def finishPass (writes : Bool) (os : List VOp) (n : Nat) : Option (Nat × Nat × Word) → M Flow
  | some (e, c, a) => stopVec true os n e c a
  | none => do
    closeVec writes true os n
    pure .next

/-- The end of an instruction that writes no register and no mask. -/
theorem vecEnd_past (n : Nat) {s : State} {os : List VOp} (ready : vectorReady s os) (one : OneDest os) :
    vecEnd false os (vectorBegun n s.me) = vectorPast s os (vectorBegun n s.me) := by
  obtain ⟨on, -, ok⟩ := ready
  have begun := vectorBegun_frame n s.me
  have still := vectorBegun_on n on
  have after := vstateAfter_moved n (os := os) on
  generalize vectorBegun n s.me = g at begun still after ⊢
  rw [vecEnd_of still (by rw [begun]; exact pops_of_opsOk ok one), begun]
  exact congrArg (fun q => ({ vectorDone { s.me with vbegun := g.vbegun, vstate := g.vstate } with
    streams := streamsAfter s.me os, vstate := q } : Slot)) after

/-- Where the fill stands at a fault, the fault is at an element below `vl`. -/
theorem fillScan_stop_mem {t : Slot} {ns : List Nat} {act : Nat → Bool} {es : List Nat} {e c : Nat} {a : Word}
    (h : fillScan t ns act es = .stop e c a) : e ∈ es ∧ act e = true := by
  induction es with
  | nil => cases h
  | cons d es ih =>
    unfold fillScan at h
    dsimp only at h
    split at h
    · cases h
    · split at h
      · split at h
        · rename_i on
          cases h
          exact ⟨List.mem_cons_self, on⟩
        · exact (ih h).imp_left (List.mem_cons_of_mem d)
      · exact (ih h).imp_left (List.mem_cons_of_mem d)

theorem fillState_stop {t : Slot} {os : List VOp} {k : KReg} {e c : Nat} {a : Word} (h : fillState t os k 1 = .stop e c a) :
    t.vstart ≤ e ∧ e < t.vl := by
  unfold fillState at h
  dsimp only at h
  split at h
  · cases h
  · split at h
    · rename_i scan
      cases h
      have mem := (fillScan_stop_mem scan).1
      rw [mem_elemRange, Nat.one_mul] at mem
      rwa [Nat.div_one]
    · rename_i other
      exact absurd h (other _ _ _)

end Sys2Proof.Laws

/-! SUPPORT. Aggregation into a hash table in the own scratchpad (R146, R147). -/

namespace Sys2Proof.Laws

open Sys2Proof Sys2Proof.Machine

/-! ## Quads of the own scratchpad -/

theorem leaves_ownQuad (o : Nat) (va : Word) : Leaves (ownQuad o va) :=
  ⟨fun s a t h => (Leaves.readLoc s.agent .core _ 8 va).done s a t h, fun s e t h => (Leaves.readLoc s.agent .core _ 8 va).stopped s e t h⟩

/-- A write to a scratchpad never stops. -/
theorem leaves_writePad (a : Agent) (sc : Scope) (c : CoreId) (o ord n v : Nat) (va : Word) :
    Leaves (writeLoc a sc { place := .pad c o, ord := ord } n v va) :=
  (Leaves.canWrite _ va).bind fun _ => ⟨Keeps.writeBytesAt a sc _ _ va, KeepsStopped.modS _⟩

theorem leaves_putOwnQuad (o v : Nat) (va : Word) : Leaves (putOwnQuad o v va) :=
  ⟨fun s a t h => (leaves_writePad s.agent .core _ o _ 8 v va).done s a t h,
    fun s e t h => (leaves_writePad s.agent .core _ o _ 8 v va).stopped s e t h⟩

/-! ## A probe sequence -/

theorem leaves_probeTable (h : HashTable) (d : Word) (key v : Nat) (l : List Nat) : Leaves (probeTable h d key v l) := by
  induction l with
  | nil => exact Leaves.pure false
  | cons j l ih =>
    unfold probeTable
    refine (leaves_ownQuad _ d).bind fun k => ?_
    split_ifs
    · exact (leaves_ownQuad _ d).bind fun _ => (leaves_putOwnQuad _ _ d).bind fun _ => Leaves.pure _
    · exact (leaves_putOwnQuad _ _ d).bind fun _ => (leaves_putOwnQuad _ _ d).bind fun _ => Leaves.pure _
    · exact ih

section
variable {h : HashTable} {d : Word} {key v : Nat} {ks : Nat → Nat} {s : State}

/-- The offset of the slot that probe `n` of a key looks at (R147). -/
def probeOffset (h : HashTable) (key n : Nat) : Nat := h.base + 16 * (((qmix64 (BitVec.ofNat 64 key) h.seed).toNat + n) % h.slots)

/-- Slots that hold other keys are passed over. -/
theorem probeTable_append {before : List Nat} (rest : List Nat)
    (taken : ∀ n ∈ before, ks n ≠ key ∧ ks n ≠ emptyKey ∧ ownQuad (probeOffset h key n) d s = .ok (ks n) s) :
    probeTable h d key v (before ++ rest) s = probeTable h d key v rest s := by
  induction before with
  | nil => rfl
  | cons j before ih =>
    obtain ⟨other, full, reads⟩ := taken j List.mem_cons_self
    rw [← ih fun n hn => taken n (List.mem_cons_of_mem j hn), List.cons_append, probeTable]
    unfold probeOffset at reads
    rw [bind_run, reads]
    dsimp only
    rw [if_neg other, if_neg full]

/-- The slot that holds the key is updated. -/
theorem probeTable_match {j old : Nat} {rest : List Nat} {u : State} (reads : ownQuad (probeOffset h key j) d s = .ok key s)
    (value : ownQuad (probeOffset h key j + 8) d s = .ok old s)
    (writes : putOwnQuad (probeOffset h key j + 8) (h.update old v) d s = .ok () u) :
    probeTable h d key v (j :: rest) s = .ok true u := by
  unfold probeOffset at reads value writes
  rw [probeTable]
  rw [bind_run, reads]
  dsimp only
  rw [if_pos rfl, bind_run, value]
  dsimp only
  rw [bind_run, writes]
  rfl

/-- An empty slot takes the key and its first value. -/
theorem probeTable_empty {j : Nat} {rest : List Nat} {u z : State} (reads : ownQuad (probeOffset h key j) d s = .ok emptyKey s)
    (other : emptyKey ≠ key) (claims : putOwnQuad (probeOffset h key j) key d s = .ok () u)
    (writes : putOwnQuad (probeOffset h key j + 8) (h.first v) d u = .ok () z) :
    probeTable h d key v (j :: rest) s = .ok true z := by
  unfold probeOffset at reads claims writes
  rw [probeTable]
  rw [bind_run, reads]
  dsimp only
  rw [if_neg other, if_pos rfl, bind_run, claims]
  dsimp only
  rw [bind_run, writes]
  rfl

/-- A table of which every slot that is probed holds another key takes nothing. -/
theorem probeTable_full (taken : ∀ n, n < h.probes → ks n ≠ key ∧ ks n ≠ emptyKey ∧ ownQuad (probeOffset h key n) d s = .ok (ks n) s) :
    probeTable h d key v (List.range h.probes) s = .ok false s := by
  have passed := probeTable_append (v := v) [] fun n hn => taken n (List.mem_range.mp hn)
  rwa [List.append_nil] at passed

/-- Where the slots of the probes before `j` hold other keys, the sequence comes to probe `j`. -/
theorem probeTable_reaches {j : Nat} (lt : j < h.probes)
    (taken : ∀ n, n < j → ks n ≠ key ∧ ks n ≠ emptyKey ∧ ownQuad (probeOffset h key n) d s = .ok (ks n) s) :
    ∃ rest, probeTable h d key v (List.range h.probes) s = probeTable h d key v (j :: rest) s := by
  obtain ⟨m, more⟩ := Nat.exists_eq_add_of_lt lt
  refine ⟨(List.range m).map fun i => j + (i + 1), ?_⟩
  have split : List.range h.probes = List.range j ++ j :: (List.range m).map fun i => j + (i + 1) := by
    rw [more, Nat.add_assoc, List.range_add, List.range_succ_eq_map, List.map_cons, List.map_map]
    rfl
  rw [split]
  exact probeTable_append _ fun n hn => taken n (List.mem_range.mp hn)

end

/-! ## The instruction -/

section
variable {s : State} {k : KReg} {xt vs1 vs2 : Reg}

/-- `vhacc` after its checks. -/
def aggregateAt (k : KReg) (xt vs1 vs2 : Reg) : M Flow := do
  let d ← getX xt
  let s ← getS
  match (if d.toNat % 32 = 0 then ownOffset s d 32 else none) with
  | none => trap causeOperand d
  | some o => do
    let q ← collect [0, 1, 2, 3] fun i => ownQuad (o + 8 * i) d
    let w64 (i : Nat) : Word := BitVec.ofNat 64 (q.getD i 0)
    match hashTableOf s (w64 0) (w64 1) (w64 2) (w64 3) with
    | none => trap causeOperand d
    | some h => aggregate h d k vs1 vs2 [s.me.opw vs1, s.me.opw vs2]

theorem aggregateAt_unplaced (bad : (s.me.readX xt).toNat % 32 ≠ 0 ∨ ownOffset s (s.me.readX xt) 32 = none) :
    aggregateAt k xt vs1 vs2 s = .error (.trap causeOperand (s.me.readX xt)) s := by
  have place : (if (s.me.readX xt).toNat % 32 = 0 then ownOffset s (s.me.readX xt) 32 else none) = none := by
    rcases bad with odd | outside
    · rw [if_neg odd]
    · rw [outside, ite_self]
  unfold aggregateAt
  rw [bind_run, getX_run]
  dsimp only
  rw [bind_run, getS_run]
  dsimp only
  rw [place]
  rfl

/-- The table that the quads `q` of a descriptor describe. -/
def tableOf (s : State) (q : List Nat) : Option HashTable :=
  hashTableOf s (BitVec.ofNat 64 (q.getD 0 0)) (BitVec.ofNat 64 (q.getD 1 0)) (BitVec.ofNat 64 (q.getD 2 0)) (BitVec.ofNat 64 (q.getD 3 0))

theorem aggregateAt_placed {o : Nat} {q : List Nat} (aligned : (s.me.readX xt).toNat % 32 = 0)
    (place : ownOffset s (s.me.readX xt) 32 = some o)
    (reads : collect [0, 1, 2, 3] (fun n => ownQuad (o + 8 * n) (s.me.readX xt)) s = .ok q s) :
    aggregateAt k xt vs1 vs2 s = match tableOf s q with
      | none => .error (.trap causeOperand (s.me.readX xt)) s
      | some h => aggregate h (s.me.readX xt) k vs1 vs2 [s.me.opw vs1, s.me.opw vs2] s := by
  unfold aggregateAt tableOf
  rw [bind_run, getX_run]
  dsimp only
  rw [bind_run, getS_run]
  dsimp only
  rw [if_pos aligned, place]
  dsimp only
  rw [bind_run, reads]
  dsimp only
  cases hashTableOf s _ _ _ _ <;> rfl

/-- One element of `vhacc`: its probe sequence, and a trap where no slot took it. -/
def aggregateElement (t : Slot) (h : HashTable) (d : Word) (vs1 vs2 : Reg) (e : Nat) : M Unit := do
  let took ← probeTable h d (t.read (t.opw vs1) 64 e) (t.read (t.opw vs2) 64 e) (List.range h.probes)
  check took causeTable d

/-- The elements that `vhacc` aggregates. -/
def aggregated (t : Slot) (k : KReg) (vs1 : Reg) (fill : Fill) : List Nat :=
  (elemRange t.vstart (filledTo t fill)).filter fun e => t.kbit k e && t.read (t.opw vs1) 64 e != emptyKey

theorem leaves_aggregate (t : Slot) (h : HashTable) (d : Word) (vs1 vs2 : Reg) (l : List Nat) :
    Leaves (untilTrap l (aggregateElement t h d vs1 vs2)) :=
  Leaves.untilTrap l fun _ => (leaves_probeTable h d _ _ _).bind fun _ => Leaves.check _ _ _

variable {h : HashTable} {d : Word} {os : List VOp}

theorem aggregate_unfilled (unfilled : fillState s.me os k 1 = .unfilled) :
    aggregate h d k vs1 vs2 os s = .error (.wait .stream) s := by
  unfold aggregate
  rw [bind_run, getMe_run]
  dsimp only
  rw [if_pos unfilled]
  rfl

theorem aggregate_run {u z : State} {done : List Unit} {stop : Option (Nat × Nat × Word)} (filled : fillState s.me os k 1 ≠ .unfilled)
    (begun : beginVec true s = .ok () u)
    (pass : untilTrap (aggregated s.me k vs1 (fillState s.me os k 1)) (aggregateElement s.me h d vs1 vs2) u = .ok (done, stop) z) :
    aggregate h d k vs1 vs2 os s = finishPass false os done.length (firstStop stop (fillState s.me os k 1)) z := by
  unfold aggregate
  rw [bind_run, getMe_run]
  dsimp only
  rw [if_neg filled, bind_run, begun]
  dsimp only
  refine (bind_ok pass).trans ?_
  dsimp only
  cases stop with
  | some x => rfl
  | none => cases fillState s.me os k 1 <;> rfl

/-- `vhacc` passes over the active elements with keys, and ends where its pass does. -/
theorem aggregate_does {i : Instr} {wd : IWord} {m : M Flow} {u z : State} {done : List Unit} {stop : Option (Nat × Nat × Word)}
    (hi : exec i s = run wd m s) (hm : m s = aggregate h d k vs1 vs2 os s) (ready : vectorReady s os) (one : OneDest os) (nonempty : os ≠ [])
    (filled : fillState s.me os k 1 ≠ .unfilled) (begun : beginVec true s = .ok () u) (me : u.me = vectorBegun s.ticks s.me)
    (pass : untilTrap (aggregated s.me k vs1 (fillState s.me os k 1)) (aggregateElement s.me h d vs1 vs2) u = .ok (done, stop) z) :
    match firstStop stop (fillState s.me os k 1) with
    | some (e, c, a) => stopsAt i s os z e c a
    | none => completesAs i s (mapMe (vectorPast s os) z) := by
  have slot : z.me = vectorBegun s.ticks s.me := ((leaves_aggregate _ _ _ _ _ _).done _ _ _ pass).me.trans me
  have runs := hm.trans (aggregate_run filled begun pass)
  cases at' : firstStop stop (fillState s.me os k 1) with
  | none =>
    rw [at'] at runs
    have done := closed_completesAs hi runs
    rwa [mapMe_congr (g := vectorPast s os) (by rw [slot]; exact vecEnd_past _ ready one)] at done
  | some x =>
    obtain ⟨e, c, a⟩ := x
    rw [at'] at runs
    have same : mapMe id z = z := mapMe_id z
    have here : mapMe (fun _ => z.me) z = z := (mapMe_congr (g := id) rfl).trans same
    have stops := begun_stopsAt (F := id) (B := id) (z := z) (u := z) (g := z.me) hi nonempty (by rw [same]; exact Quiet.refl z)
      (by rw [same]) (by rw [slot]; exact vectorBegun_on _ ready.1) (by rw [slot, vectorBegun_frame]) (fun _ => rfl)
      (by rw [here]; exact runs)
    rwa [same] at stops

end

end Sys2Proof.Laws

/-! SUPPORT. The steps of an automaton (R148). -/

namespace Sys2Proof.Laws

open Sys2Proof Sys2Proof.Machine

section
variable {s : State} {t : Slot} {k : KReg} {vd vs1 xt : Reg}

/-- One element of `vnfa`: its states after the step that its symbol makes. -/
def nfaElement (t : Slot) (vd vs1 xt : Reg) (e : Nat) : M (Nat × Nat) := do
  let v := t.read (t.opw vs1) 64 e
  let table := t.readX xt + BitVec.ofNat 64 (4096 * (v / 256 % 1024))
  let start ← loadN (← getS).vagent t.scope (table + 2048) 8
  let step ← loadN (← getS).vagent t.scope (table + BitVec.ofNat 64 (8 * (v % 256))) 8
  pure (e, (2 * t.elem vd.toNat 64 e % 2 ^ 64 ||| start) &&& step)

theorem leaves_loadN (a : Agent) (sc : Scope) (va : Word) (n : Nat) : Leaves (loadN a sc va n) :=
  (Leaves.translate a .load va).bind fun _ => Leaves.readLoc _ _ _ _ _

theorem leaves_nfaElement (t : Slot) (vd vs1 xt : Reg) (e : Nat) : Leaves (nfaElement t vd vs1 xt e) :=
  Leaves.getS.bind fun _ => (leaves_loadN _ _ _ _).bind fun _ => Leaves.getS.bind fun _ => (leaves_loadN _ _ _ _).bind fun _ =>
    Leaves.pure _

/-- An element's result names the element. -/
theorem nfaElement_names {e : Nat} {u z : State} {x : Nat × Nat} (h : nfaElement t vd vs1 xt e u = .ok x z) : x.1 = e := by
  unfold nfaElement at h
  rw [bind_run, getS_run] at h
  dsimp only at h
  rw [bind_run] at h
  split at h
  · rw [bind_run, getS_run] at h
    dsimp only at h
    rw [bind_run] at h
    split at h
    · cases h
      rfl
    · cases h
  · cases h

/-- What `vnfa` writes of the states that its pass computed. -/
def putSteps (t : Slot) (k : KReg) (vd : Reg) (steps : List (Nat × Nat)) (stop : Option (Nat × Nat × Word)) (t' : Slot) : Slot :=
  let written := steps.foldl (fun t' x => t'.setElem vd.toNat 64 x.1 x.2) t'
  let masked := (elemRange t.vstart (reached t stop)).foldl (fun t' e => if t.maskedToZero k e then t'.setElem vd.toNat 64 e 0 else t') written
  if t.tailZero && stop.isNone then (elemRange t.vl t.vlmax).foldl (fun t' e => t'.setElem vd.toNat 64 e 0) masked else masked

/-- The zeroes of R106 change only elements that the mask leaves out. -/
theorem zeroes_eq_zeroPass (t : Slot) (k : KReg) (r w : Nat) (es : List Nat) (t' : Slot) :
    es.foldl (fun t' e => if t.maskedToZero k e then t'.setElem r w e 0 else t') t'
      = (es.filter fun e => !t.kbit k e).foldl (zeroPass (t.kbit k) (fun _ => t.maskZero) r w) t' := by
  rw [List.foldl_filter]
  refine List.foldl_ext _ _ _ fun t' e _ => ?_
  unfold zeroPass Slot.maskedToZero
  cases t.kbit k e <;> simp

theorem zeroPass_eq_zeroes (t : Slot) (k : KReg) (r w : Nat) (es : List Nat) (t' : Slot) :
    es.foldl (zeroPass (t.kbit k) (fun _ => t.maskZero) r w) t'
      = es.foldl (fun t' e => if t.maskedToZero k e then t'.setElem r w e 0 else t') t' := by
  refine List.foldl_ext _ _ _ fun t' e _ => ?_
  unfold zeroPass Slot.maskedToZero
  cases t.kbit k e <;> simp

/-- To write active elements and then to zero the others is to zero them first. -/
theorem writes_then_zeroes (t : Slot) (k : KReg) (r w : Nat) (es : List Nat) (vals : List (Nat × Nat))
    (active : ∀ x ∈ vals, t.kbit k x.1 = true) (t' : Slot) :
    es.foldl (fun t' e => if t.maskedToZero k e then t'.setElem r w e 0 else t') (vals.foldl (fun t' x => t'.setElem r w x.1 x.2) t')
      = vals.foldl (fun t' x => t'.setElem r w x.1 x.2) (es.foldl (zeroPass (t.kbit k) (fun _ => t.maskZero) r w) t') := by
  rw [zeroPass_eq_zeroes, zeroes_eq_zeroPass, zeroes_eq_zeroPass]
  induction vals generalizing t' with
  | nil => rfl
  | cons x vals ih =>
    have out : x.1 ∉ es.filter fun e => !t.kbit k e := by simp [active x List.mem_cons_self]
    rw [List.foldl_cons, List.foldl_cons, ih fun y hy => active y (List.mem_cons_of_mem x hy), zeroPasses_setElem _ _ _ _ _ _ _ out]

theorem putSteps_eq_putLoaded {steps : List (Nat × Nat)} {stop : Option (Nat × Nat × Word)} (wide : t.ew = 64)
    (active : ∀ x ∈ steps, t.kbit k x.1 = true) : putSteps t k vd steps stop = putLoaded t k vd steps stop := by
  funext t'
  unfold putSteps putLoaded
  dsimp only
  rw [wide, writes_then_zeroes t k vd.toNat 64 _ steps active]

/-- The elements whose steps the pass has made are the active ones below the stop. -/
theorem steps_keys {fill : Fill} {u z : State} {steps : List (Nat × Nat)} {stop : Option (Nat × Nat × Word)}
    (fills : ∀ e c a, fill = .stop e c a → e < t.vl)
    (pass : untilTrap ((elemRange t.vstart (filledTo t fill)).filter (t.kbit k)) (nfaElement t vd vs1 xt) u = .ok (steps, stop) z) :
    steps.map (·.1) = (elemRange t.vstart (reached t (firstStop stop fill))).filter (t.kbit k) := by
  obtain ⟨rest, split, first⟩ := untilTrap_prefix (key := id) (name := Prod.fst) (fun _ _ _ _ => nfaElement_names) pass
  rw [List.map_id] at split
  obtain ⟨keys, -⟩ := active_prefix split first
  rw [keys]
  cases stop with
  | some x => rfl
  | none =>
    cases fill with
    | stop e c a =>
      have reach : filledTo t (.stop e c a) = e := Nat.min_eq_left (fills e c a rfl).le
      rw [Option.map_none, Option.getD_none, reach]
      rfl
    | ready => rfl
    | unfilled => rfl

/-- `vnfa` after its checks. -/
def nfaSteps (k : KReg) (vd vs1 xt : Reg) : M Flow := do
  let t ← getMe
  let fill := fillState t [t.opw vs1, t.opw vd, t.dst vd] k 1
  if fill = .unfilled then waitFor .stream
  let (steps, stop) ← untilTrap ((elemRange t.vstart (filledTo t fill)).filter (t.kbit k)) (nfaElement t vd vs1 xt)
  beginVec true
  modMe (putSteps t k vd steps (firstStop stop fill))
  finishPass true [t.opw vs1, t.opw vd, t.dst vd] steps.length (firstStop stop fill)

theorem exec_vnfa : exec (.vnfa k vd vs1 xt) s = run (wordVM 5 0 k xt vs1 vd 39) (do
    vecChecks (wordVM 5 0 k xt vs1 vd 39) clsInt64 (fun t => [t.opw vs1, t.opw vd, t.dst vd])
      (fun t => t.disjoint vd vs1 && (t.readX xt).toNat % 64 == 0)
    nfaSteps k vd vs1 xt) s := rfl

theorem nfaSteps_unfilled (unfilled : fillState s.me [s.me.opw vs1, s.me.opw vd, s.me.dst vd] k 1 = .unfilled) :
    nfaSteps k vd vs1 xt s = .error (.wait .stream) s := by
  unfold nfaSteps
  rw [bind_run, getMe_run]
  dsimp only
  rw [if_pos unfilled]
  rfl

theorem nfaSteps_run {os : List VOp} {fill : Fill} {z u : State} {steps : List (Nat × Nat)} {stop : Option (Nat × Nat × Word)}
    (operands : os = [s.me.opw vs1, s.me.opw vd, s.me.dst vd]) (state : fillState s.me os k 1 = fill) (filled : fill ≠ .unfilled)
    (pass : untilTrap ((elemRange s.me.vstart (filledTo s.me fill)).filter (s.me.kbit k)) (nfaElement s.me vd vs1 xt) s = .ok (steps, stop) z)
    (begun : beginVec true z = .ok () u) :
    nfaSteps k vd vs1 xt s
      = finishPass true os steps.length (firstStop stop fill) (mapMe (putSteps s.me k vd steps (firstStop stop fill)) u) := by
  subst operands
  unfold nfaSteps
  rw [bind_run, getMe_run]
  dsimp only
  rw [state, if_neg filled, bind_ok pass]
  dsimp only
  rw [bind_ok begun, bind_run, modMe_run]

/-- What is left of an instruction that has written lanes. -/
def lanesDone (lanes : Vector (BitVec 32768) 64) (streams : Vector Binding 8) (t : Slot) : Slot :=
  { vectorDone t with lanes := lanes, vstate := 3, streams := streams }

theorem vecEnd_lanes (n : Nat) {os : List VOp} (ready : vectorReady s os) (one : OneDest os) (lanes : Vector (BitVec 32768) 64) :
    vecEnd true os { vectorBegun n s.me with lanes := lanes }
      = lanesDone lanes (streamsAfter s.me os) s.me := by
  obtain ⟨on, -, ok⟩ := ready
  have begun := vectorBegun_frame n s.me
  have still := vectorBegun_on n on
  generalize vectorBegun n s.me = g at begun still ⊢
  have whole : ({ g with lanes := lanes } : Slot) = { s.me with vbegun := g.vbegun, vstate := g.vstate, lanes := lanes } :=
    congrArg (fun t : Slot => { t with lanes := lanes }) begun
  rw [whole]
  exact vecEnd_of (t := { s.me with vbegun := g.vbegun, vstate := g.vstate, lanes := lanes }) still (pops_of_opsOk ok one)

/-- What `vnfa` does once its pass over the active elements has come to `z`: it writes the elements below its stop. -/
theorem nfa_does {i : Instr} {wd : IWord} {m : M Flow} {os : List VOp} {fill : Fill} {z : State} {steps : List (Nat × Nat)}
    {stop : Option (Nat × Nat × Word)} (hi : exec i s = run wd m s) (hm : m s = nfaSteps k vd vs1 xt s)
    (operands : os = [s.me.opw vs1, s.me.opw vd, s.me.dst vd]) (ready : vectorReady s os) (wide : s.me.ew = 64)
    (state : fillState s.me os k 1 = fill) (filled : fill ≠ .unfilled)
    (pass : untilTrap ((elemRange s.me.vstart (filledTo s.me fill)).filter (s.me.kbit k)) (nfaElement s.me vd vs1 xt) s
      = .ok (steps, stop) z) :
    ∃ lanes, writtenInto s.me lanes vd 64 (loadedElements s.me k (firstStop stop fill)) (loadResult steps)
      ∧ match firstStop stop fill with
        | none => completesAs i s (mapMe (lanesDone lanes (streamsAfter s.me os)) z)
        | some (e, c, a) => stopsAt i s os (mapMe (fun t => { t with lanes := lanes }) z) e c a := by
  have slots : SameSlots s z := (Leaves.untilTrap _ (leaves_nfaElement _ _ _ _)).done _ _ _ pass
  obtain ⟨u, begun, quiet, same⟩ := beginVec_run true z
  have me : u.me = vectorBegun z.ticks s.me := by rw [me_of_slots same quiet.cur, me_mapMe, slots.me]
  have runs := hm.trans (nfaSteps_run operands state filled pass begun)
  have keys := steps_keys (fun e c a stops => (fillState_stop (state.trans stops)).2) pass
  have active (x : Nat × Nat) (hx : x ∈ steps) : s.me.kbit k x.1 = true := by
    have mem := List.mem_map_of_mem (f := Prod.fst) hx
    rw [keys] at mem
    exact (List.mem_filter.mp mem).2
  obtain ⟨lanes, written, put⟩ := putLoaded_begun (v := vd) z.ticks keys
  rw [← putSteps_eq_putLoaded wide active] at put
  rw [mapMe_congr (g := fun _ => { vectorBegun z.ticks s.me with lanes := lanes }) (by rw [me]; exact put)] at runs
  rw [wide] at written
  refine ⟨lanes, written, ?_⟩
  cases at' : firstStop stop fill with
  | none =>
    rw [at'] at runs
    have one : OneDest os := by subst operands; simp [OneDest, Slot.opw, Slot.dst]
    have fin : vecEnd true os { vectorBegun z.ticks s.me with lanes := lanes }
        = lanesDone lanes (streamsAfter s.me os) z.me := by rw [slots.me]; exact vecEnd_lanes z.ticks ready one lanes
    exact begun_completesAs (F := lanesDone lanes (streamsAfter s.me os)) hi slots quiet same fin runs
  | some x =>
    obtain ⟨e, c, a⟩ := x
    rw [at'] at runs
    have nonempty : os ≠ [] := by rw [operands]; exact List.cons_ne_nil _ _
    have begun := vectorBegun_frame z.ticks s.me
    have still := vectorBegun_on z.ticks ready.1
    generalize vectorBegun z.ticks s.me = b at begun still runs
    refine begun_stopsAt (F := fun t => { t with lanes := lanes }) (g := { b with lanes := lanes }) hi nonempty quiet same still ?_ ?_ runs
    · show b.streams = s.me.streams
      exact (congrArg Slot.streams begun :)
    · intro y
      rw [slots.me]
      exact (congrArg (fun t : Slot => slotStopped e y { t with lanes := lanes }) begun :)

end

/-- Settles O26: `vhacc` is a pass over its elements of which each goes through its probe sequence, and `vnfa` one that loads two
words for each. -/
theorem hashAndAutomatonSteps : Obligations.HashAndAutomatonSteps := by
  unfold Obligations.HashAndAutomatonSteps
  have kind (t : Slot) : clsInt64 t.fmt t.ew = ((t.fmt == .int || t.fmt == .uint) && t.ew == 64) := clsInt64_eq t.fmt t.ew
  refine ⟨fun s k xt vs1 vs2 => ?hash, fun s k vd vs1 xt => ?automaton⟩
  case hash =>
    intro t i d os ok fill word reach
    have hi : exec i s = run (wordVM 4 0 k vs2 vs1 xt 39) (do
        vecChecks (wordVM 4 0 k vs2 vs1 xt 39) clsInt64 (fun t => [t.opw vs1, t.opw vs2]) fun _ => true
        aggregateAt k xt vs1 vs2) s := rfl
    have hw : encode i = some (wordVM 4 0 k vs2 vs1 xt 39) := congrArg some (wordVM_pack ..).symm
    have fits : (clsInt64 s.me.fmt s.me.ew && true) = ok := by rw [kind, Bool.and_true]
    have checked (ready : vectorReady s os) (pass : ok = true) := bind_ok (f := fun _ => aggregateAt k xt vs1 vs2)
      (vecChecks_pass (wd := wordVM 4 0 k vs2 vs1 xt 39) (os := fun t => [t.opw vs1, t.opw vs2]) (extra := fun _ => true) ready
        (fits.trans pass))
    refine ⟨?traps, fun ready pass => ⟨?unplaced, ?placed⟩, ?full, ?found⟩
    case traps =>
      have traps := vectorTraps_run (extra := fun _ => true) hi hw
      rwa [fits] at traps
    case unplaced => exact fun bad => traps_run hi ((checked ready pass).trans (aggregateAt_unplaced bad))
    case placed =>
      intro o q aligned place reads
      have table := (checked ready pass).trans (aggregateAt_placed (k := k) (vs1 := vs1) (vs2 := vs2) aligned place reads)
      refine ⟨fun bad => traps_run hi (table.trans ?_), fun h good => ?_⟩
      · rw [show tableOf s q = none from bad]
      · rw [show tableOf s q = some h from good] at table
        refine ⟨fun unfilled => holds_run hi (table.trans (aggregate_unfilled unfilled)), fun filled => ?_⟩
        obtain ⟨u, begun, counted, me⟩ := beginVec_counted true s
        refine ⟨u, counted.frame, fun done stop z runs => ?_⟩
        have one : OneDest os := by simp [os, OneDest, Slot.opw]
        have does := aggregate_does hi table ready one (List.cons_ne_nil _ _) filled begun me runs
        cases stop with
        | some x => exact does
        | none =>
          cases at' : fill with
          | stop e c a => rwa [show fillState s.me os k 1 = _ from at'] at does
          | ready => rwa [show fillState s.me os k 1 = _ from at'] at does
          | unfilled => exact absurd at' filled
    case full => exact fun h key v ks taken => probeTable_full taken
    case found =>
      intro h key v j ks at' lt reads taken
      obtain ⟨rest, reaches⟩ := probeTable_reaches (v := v) lt fun n hn => ⟨(taken n hn).1, (taken n hn).2, reads n hn.le⟩
      rw [reaches]
      have here : ownQuad (probeOffset h key j) d s = .ok (ks j) s := reads j (Nat.le_refl j)
      constructor
      · intro same old u value writes
        exact probeTable_match (by rw [here, same]) value writes
      · intro other empty u z claims writes
        change ks j = emptyKey at empty
        exact probeTable_empty (by rw [here, empty]) (by rw [← empty]; exact other) claims writes
  case automaton =>
    intro t i os ok fill
    have hi := exec_vnfa (s := s) (k := k) (vd := vd) (vs1 := vs1) (xt := xt)
    have fits : (clsInt64 s.me.fmt s.me.ew && (s.me.disjoint vd vs1 && (s.me.readX xt).toNat % 64 == 0)) = ok := by rw [kind]
    refine ⟨?traps, fun ready pass => ?_⟩
    case traps =>
      have traps := vectorTraps_run hi (congrArg some (wordVM_pack ..).symm)
      rwa [fits] at traps
    have steps := bind_ok (f := fun _ => nfaSteps k vd vs1 xt) (vecChecks_pass (wd := wordVM 5 0 k xt vs1 vd 39)
      (os := fun t => [t.opw vs1, t.opw vd, t.dst vd]) (extra := fun t => t.disjoint vd vs1 && (t.readX xt).toNat % 64 == 0) ready
      (fits.trans pass))
    have wide : s.me.ew = 64 := by
      obtain ⟨int64, -⟩ := Bool.and_eq_true_iff.mp pass
      exact beq_iff_eq.mp (Bool.and_eq_true_iff.mp int64).2
    refine ⟨fun unfilled => holds_run hi (steps.trans (nfaSteps_unfilled unfilled)), fun filled done stop z runs => ?_⟩
    obtain ⟨lanes, written, ends⟩ := nfa_does hi steps rfl ready wide rfl filled runs
    cases stop with
    | some x => exact ⟨lanes, written, ends⟩
    | none =>
      cases at' : fill with
      | stop e c a =>
        rw [show fillState s.me os k 1 = _ from at'] at written ends
        exact ⟨lanes, written, ends⟩
      | ready =>
        rw [show fillState s.me os k 1 = _ from at'] at written ends
        exact ⟨lanes, written, ends⟩
      | unfilled => exact absurd at' filled

end Sys2Proof.Laws

/-! SUPPORT. The merge of `vtopk` (R143): the order of its entries, and the two registers that it writes. -/

namespace Sys2Proof.Laws

open Sys2Proof Sys2Proof.Machine

/-! ## Sorting -/

section
variable {α β : Type}

theorem ins_map (key : β → Nat) (g : α → β) (a : α) (l : List α) :
    sortByKey.ins key (g a) (l.map g) = (sortByKey.ins (key ∘ g) a l).map g := by
  induction l with
  | nil => rfl
  | cons b l ih =>
    rw [List.map_cons, sortByKey.ins, sortByKey.ins, ih]
    simp only [Function.comp_apply]
    split <;> rfl

/-- To sort what a list names is to sort the list by what it names. -/
theorem sortByKey_map (key : β → Nat) (g : α → β) (l : List α) : sortByKey key (l.map g) = (sortByKey (key ∘ g) l).map g := by
  have grow : ∀ r : List α, (l.map g).foldl (fun r a => sortByKey.ins key a r) (r.map g)
      = (l.foldl (fun r a => sortByKey.ins (key ∘ g) a r) r).map g := by
    induction l with
    | nil => exact fun r => rfl
    | cons a l ih =>
      intro r
      rw [List.map_cons, List.foldl_cons, ins_map, ih, List.foldl_cons]
  exact grow []

theorem ins_perm (key : α → Nat) (a : α) (l : List α) : (sortByKey.ins key a l).Perm (a :: l) := by
  induction l with
  | nil => exact .refl _
  | cons b l ih =>
    rw [sortByKey.ins]
    split
    · exact .refl _
    · exact (ih.cons b).trans (.swap a b l)

theorem sortByKey_perm (key : α → Nat) (l : List α) : (sortByKey key l).Perm l := by
  have grow : ∀ r : List α, (l.foldl (fun r a => sortByKey.ins key a r) r).Perm (r ++ l) := by
    induction l with
    | nil => exact fun r => by rw [List.append_nil]; exact .refl r
    | cons a l ih =>
      exact fun r => (ih _).trans (((ins_perm key a r).append_right l).trans List.perm_middle.symm)
  exact grow []

end

/-- Index `m` stands before index `n`: by their keys, and by the indices where the keys are equal. -/
def sortsBefore (key : Nat → Nat) (m n : Nat) : Prop := key m < key n ∨ (key m = key n ∧ m < n)

theorem ins_sorted {key : Nat → Nat} {a : Nat} {l : List Nat} (sorted : l.Pairwise (sortsBefore key)) (above : ∀ b ∈ l, b < a) :
    (sortByKey.ins key a l).Pairwise (sortsBefore key) := by
  induction l with
  | nil => exact List.pairwise_singleton _ _
  | cons b l ih =>
    obtain ⟨first, rest⟩ := List.pairwise_cons.mp sorted
    rw [sortByKey.ins]
    split
    · rename_i less
      refine List.pairwise_cons.mpr ⟨fun c hc => .inl ?_, sorted⟩
      rcases List.mem_cons.mp hc with rfl | hc
      · exact less
      · rcases first c hc with h | ⟨h, -⟩ <;> omega
    · rename_i notLess
      refine List.pairwise_cons.mpr ⟨fun c hc => ?_, ih rest fun c hc => above c (List.mem_cons_of_mem b hc)⟩
      rcases mem_ins hc with rfl | hc
      · have := above b List.mem_cons_self
        unfold sortsBefore
        omega
      · exact first c hc

/-- The sort is stable. -/
theorem sortByKey_sorted (key : Nat → Nat) {l : List Nat} (ascending : l.Pairwise (· < ·)) :
    (sortByKey key l).Pairwise (sortsBefore key) := by
  have grow : ∀ r : List Nat, r.Pairwise (sortsBefore key) → (∀ b ∈ r, ∀ a ∈ l, b < a) →
      (l.foldl (fun r a => sortByKey.ins key a r) r).Pairwise (sortsBefore key) := by
    induction l with
    | nil => exact fun r sorted _ => sorted
    | cons a l ih =>
      intro r sorted below
      obtain ⟨first, rest⟩ := List.pairwise_cons.mp ascending
      refine ih rest _ (ins_sorted sorted fun b hb => below b hb a List.mem_cons_self) fun b hb c hc => ?_
      rcases mem_ins hb with rfl | hb
      · exact first c hc
      · exact below b hb c (List.mem_cons_of_mem a hc)
  exact grow [] .nil (by simp)

/-- The key by which `vtopk` sorts: the rank of an entry's key, and then its identifier. -/
def topKey (f : Fmt) (x : Nat × Nat) : Nat := topRank f x.1 * 2 ^ 32 + x.2

/-- Indices of a list are ordered as its entries are. -/
def topOrder (f : Fmt) (entries : List (Nat × Nat)) : List Nat :=
  sortByKey (fun n => topKey f (entries.getD n (0, 0))) (List.range entries.length)

theorem topOrder_perm (f : Fmt) (entries : List (Nat × Nat)) : (topOrder f entries).Perm (List.range entries.length) :=
  sortByKey_perm _ _

theorem topOrder_sorted (f : Fmt) (entries : List (Nat × Nat)) :
    (topOrder f entries).Pairwise (sortsBefore fun n => topKey f (entries.getD n (0, 0))) :=
  sortByKey_sorted _ List.pairwise_lt_range

theorem map_getD_range {α : Type} (l : List α) (d : α) : (List.range l.length).map (fun n => l.getD n d) = l := by
  refine List.ext_getElem (by simp) fun n h _ => ?_
  rw [List.length_map, List.length_range] at h
  simp [List.getD_eq_getElem?_getD, h]

/-- Entry `e` of the merge is the one that the order names. -/
theorem topMerge_getD (f : Fmt) {n e : Nat} (entries : List (Nat × Nat)) (enough : n ≤ entries.length) (lt : e < n) :
    (topMerge f n entries).getD e (0, 0) = entries.getD ((topOrder f entries).getD e 0) (0, 0) := by
  have sorted : sortByKey (topKey f) entries = (topOrder f entries).map fun n => entries.getD n (0, 0) := by
    have same := sortByKey_map (topKey f) (fun n => entries.getD n (0, 0)) (List.range entries.length)
    rwa [map_getD_range] at same
  have length : (topOrder f entries).length = entries.length := by rw [(topOrder_perm f entries).length_eq, List.length_range]
  have inside : e < (topOrder f entries).length := by omega
  rw [show topMerge f n entries = (sortByKey (topKey f) entries).take n from rfl, sorted]
  simp [List.getD_eq_getElem?_getD, lt, inside]

theorem topMerge_length (f : Fmt) {n : Nat} (entries : List (Nat × Nat)) (enough : n ≤ entries.length) :
    (topMerge f n entries).length = n := by
  rw [topMerge, List.length_take, (sortByKey_perm _ entries).length_eq, Nat.min_eq_left enough]

/-- Identifiers are below the weight of a rank, so that the sort compares ranks before identifiers. -/
theorem precedes_of_topKey {f : Fmt} {x y : Nat × Nat} (hx : x.2 < 2 ^ 32) (hy : y.2 < 2 ^ 32) {m n : Nat}
    (h : topKey f x < topKey f y ∨ (topKey f x = topKey f y ∧ m < n)) :
    topRank f x.1 < topRank f y.1 ∨ (topRank f x.1 = topRank f y.1 ∧ (x.2 < y.2 ∨ (x.2 = y.2 ∧ m < n))) := by
  unfold topKey at h
  omega

/-! ## Two registers written side by side -/

section
variable {t : Slot} {r r' w : Nat}

/-- Elements that share no bit can be written in either order. -/
theorem setElem_comm_of_apart {d e : Nat} (apart : ∀ l j, inElement t r w d l j → ¬ inElement t r' w e l j) (a b : Nat) :
    (t.setElem r w d a).setElem r' w e b = (t.setElem r' w e b).setElem r w d a := by
  have lanes : ((t.setElem r w d a).setElem r' w e b).lanes = ((t.setElem r' w e b).setElem r w d a).lanes := by
    refine Vector.ext fun l hl => BitVec.eq_of_getLsbD_eq fun j _ => ?_
    have left := setElem_bit (t.setElem r w d a) r' w e b ⟨l, hl⟩ j
    have right := setElem_bit (t.setElem r' w e b) r w d a ⟨l, hl⟩ j
    rw [setElem_bit t, setElem_laneCount, setElem_slice] at left right
    refine left.trans (Eq.trans ?_ right.symm)
    by_cases inE : inElement t r' w e l j
    · have notD : ¬ inElement t r w d l j := fun inD => apart l j inD inE
      unfold inElement at inE notD
      rw [if_pos inE, if_neg notD, if_pos inE]
    · unfold inElement at inE
      rw [if_neg inE, if_neg inE]
  exact congrArg (fun l => ({ t with lanes := l } : Slot)) lanes

/-- The elements `es` of one register share no bit with those of another. -/
def registersApart (t : Slot) (r r' w : Nat) (es : List Nat) : Prop :=
  ∀ d ∈ es, ∀ e ∈ es, ∀ l j, inElement t r w d l j → ¬ inElement t r' w e l j

theorem writes_setElem_of_apart {es : List Nat} {d : Nat} (f : Nat → Nat) (b : Nat)
    (apart : ∀ e ∈ es, ∀ l j, inElement t r w e l j → ¬ inElement t r' w d l j) :
    es.foldl (fun t e => t.setElem r w e (f e)) (t.setElem r' w d b)
      = (es.foldl (fun t e => t.setElem r w e (f e)) t).setElem r' w d b := by
  induction es generalizing t with
  | nil => rfl
  | cons e es ih =>
    rw [List.foldl_cons, List.foldl_cons, ← setElem_comm_of_apart (apart e List.mem_cons_self)]
    exact ih fun e he => apart e (List.mem_cons_of_mem _ he)

/-- To write both elements of each pair is to write one register and then the other. -/
theorem writes_both {es : List Nat} (f g : Nat → Nat) (apart : registersApart t r r' w es) :
    es.foldl (fun t e => (t.setElem r w e (f e)).setElem r' w e (g e)) t
      = es.foldl (fun t e => t.setElem r' w e (g e)) (es.foldl (fun t e => t.setElem r w e (f e)) t) := by
  induction es generalizing t with
  | nil => rfl
  | cons a es ih =>
    have rest : registersApart t r r' w es := fun d hd e he => apart d (List.mem_cons_of_mem a hd) e (List.mem_cons_of_mem a he)
    have step := ih (t := (t.setElem r w a (f a)).setElem r' w a (g a)) rest
    rw [writes_setElem_of_apart (t := t.setElem r w a (f a)) f (g a)
      fun e he => apart e (List.mem_cons_of_mem a he) a List.mem_cons_self] at step
    exact step

/-- An element whose bits have not changed has not changed. -/
theorem elem_of_same_bits {lanes : Vector (BitVec 32768) 64} {e : Nat} (lane : e % t.laneCount < 64)
    (same : ∀ j, inElement t r w e (e % t.laneCount) j →
      (lanes[(⟨e % t.laneCount, lane⟩ : Fin 64)]).getLsbD j = (t.lanes[(⟨e % t.laneCount, lane⟩ : Fin 64)]).getLsbD j) :
    { t with lanes := lanes }.elem r w e = t.elem r w e := by
  refine Nat.eq_of_testBit_eq fun j => ?_
  have after := elem_testBit { t with lanes := lanes } r w e j lane
  rw [after, elem_testBit t r w e j lane]
  by_cases inside : j < w
  · exact congrArg (decide (j < w) && ·) (same (r * t.slice + e / t.laneCount * w + j) ⟨rfl, by omega, by omega⟩)
  · rw [decide_eq_false inside, Bool.false_and, Bool.false_and]

end

section
variable {t : Slot} {v v' : Reg} {w n : Nat}

/-- All elements below `n`. -/
def firstElements (n : Nat) : Elements := { act := fun _ => true, zero := fun _ => false, lo := 0, d := n, tail := 0, dmax := 0 }

theorem elemRange_zero (n : Nat) : elemRange 0 n = List.range n := by simp [elemRange]

/-- A pass that writes an element of each index below `n`. -/
theorem writes_spec (t : Slot) (v : Reg) (w n : Nat) (f : Nat → Nat) : ∃ lanes,
    (List.range n).foldl (fun t e => t.setElem v.toNat w e (f e)) t = { t with lanes := lanes }
    ∧ (∀ e, e < n → holdsElement t v.toNat w e → { t with lanes := lanes }.elem v.toNat w e = f e % 2 ^ w)
    ∧ (∀ (l : Fin 64) (j : Nat), (∀ e, e < n → ¬ inElement t v.toNat w e l.val j) → lanes[l].getLsbD j = t.lanes[l].getLsbD j) := by
  obtain ⟨left, bits, others⟩ := looped_spec t v w (firstElements n) fun e => ⟨f e, 0⟩
  have flags : (firstElements n).flags (fun e => (⟨f e, 0⟩ : FRes)) = 0 := by simp [Elements.flags]
  have keeps (e : Nat) : ¬ (firstElements n).clears t e := by simp [Elements.clears, firstElements]
  rw [flags, show ∀ g : FFlags, g ||| 0 = g from fun g => BitVec.or_zero] at left
  refine ⟨_, Eq.trans ?_ left, fun e lt holds => ?_, fun l j out => others l j fun e written => out e ?_⟩
  · unfold looped
    have void : elemRange 0 0 = [] := rfl
    simp only [firstElements, void, List.foldl_nil, ite_self, elemRange_zero]
    refine List.foldl_ext _ _ _ fun t' e _ => ?_
    simp [pass, Slot.raise]
  · exact (bits e holds).2 ⟨Nat.zero_le e, lt, rfl⟩ (keeps e)
  · exact (written.resolve_right (keeps e)).2.1

/-- Pairs of elements written into two registers that share no bit. -/
theorem writes_pairs {f : Nat → Nat × Nat} (apart : registersApart t v.toNat v'.toNat w (List.range n))
    (holds : ∀ e, e < n → holdsElement t v.toNat w e ∧ holdsElement t v'.toNat w e)
    (small : ∀ e, e < n → (f e).1 < 2 ^ w ∧ (f e).2 < 2 ^ w) : ∃ lanes,
    (List.range n).foldl (fun t e => (t.setElem v.toNat w e (f e).1).setElem v'.toNat w e (f e).2) t = { t with lanes := lanes }
    ∧ (∀ e, e < n → ({ t with lanes := lanes }.elem v.toNat w e, { t with lanes := lanes }.elem v'.toNat w e) = f e)
    ∧ (∀ (l : Fin 64) (j : Nat), (∀ e, e < n → ¬ inElement t v.toNat w e l.val j ∧ ¬ inElement t v'.toNat w e l.val j) →
        lanes[l].getLsbD j = t.lanes[l].getLsbD j) := by
  obtain ⟨first, run, values, still⟩ := writes_spec t v w n fun e => (f e).1
  obtain ⟨lanes, run', values', still'⟩ := writes_spec { t with lanes := first } v' w n fun e => (f e).2
  refine ⟨lanes, ?_, fun e lt => ?_, fun l j out => ?_⟩
  · rw [writes_both (fun e => (f e).1) (fun e => (f e).2) apart, run, run']
  · have kept : { t with lanes := lanes }.elem v.toNat w e = { t with lanes := first }.elem v.toNat w e :=
      elem_of_same_bits (t := { t with lanes := first }) (holds e lt).1.1 fun j inside =>
        still' _ j fun d hd => apart e (List.mem_range.mpr lt) d (List.mem_range.mpr hd) _ j inside
    have key := values e lt (holds e lt).1
    have name := values' e lt (holds e lt).2
    rw [Nat.mod_eq_of_lt (small e lt).1] at key
    rw [Nat.mod_eq_of_lt (small e lt).2] at name
    exact Prod.ext (kept.trans key) name
  · exact (still' l j fun e lt => (out e lt).2).trans (still l j fun e lt => (out e lt).1)

end

end Sys2Proof.Laws

/-! SUPPORT. `vtopk` (R143): the places of its elements, its steps and its end. -/

namespace Sys2Proof.Laws

open Sys2Proof Sys2Proof.Machine

/-! ## Where elements below `vlmax` lie -/

theorem popNat_le (n v : Nat) : popNat n v ≤ n := by
  induction n generalizing v with
  | zero => exact Nat.le_refl 0
  | succ n ih =>
    have := ih (v / 2)
    rw [popNat]
    omega

theorem laneCount_le (t : Slot) : t.laneCount ≤ 64 := popNat_le _ _

theorem vlmaxFor_le (l a g w c : Nat) : vlmaxFor l a g w c ≤ l * (32768 / a * g / w) := by
  unfold vlmaxFor
  split
  · exact Nat.zero_le _
  · dsimp only
    have ceiled : (if c = 0 then l * (32768 / a * g / w) else min (l * (32768 / a * g / w)) (c * l)) ≤ l * (32768 / a * g / w) := by
      split
      · exact Nat.le_refl _
      · exact Nat.min_le_left _ _
    split
    · exact (Nat.sub_le _ _).trans ceiled
    · exact ceiled

theorem vlmax_le (t : Slot) : t.vlmax ≤ t.laneCount * (t.slice * t.group / t.ew) := by
  unfold Slot.vlmax Slot.vlmaxOf
  dsimp only
  split
  · exact Nat.zero_le _
  · split
    · exact Nat.zero_le _
    · split
      · exact vlmaxFor_le _ _ _ _ _
      · exact Nat.zero_le _

section
variable {t : Slot} {e : Nat}

/-- An element below `vlmax` lies within the slice of its lane. -/
theorem element_in_slice (one : t.group = 1) (lt : e < t.vlmax) :
    e % t.laneCount < 64 ∧ e / t.laneCount * t.ew + t.ew ≤ t.slice := by
  have bound := lt.trans_le (vlmax_le t)
  rw [one, Nat.mul_one] at bound
  have lanes : 0 < t.laneCount := Nat.pos_of_ne_zero fun zero => by rw [zero, Nat.zero_mul] at bound; omega
  have row : e / t.laneCount + 1 ≤ t.slice / t.ew := Nat.div_lt_of_lt_mul bound
  refine ⟨(Nat.mod_lt e lanes).trans_le (laneCount_le t), ?_⟩
  calc e / t.laneCount * t.ew + t.ew = (e / t.laneCount + 1) * t.ew := (Nat.succ_mul _ _).symm
    _ ≤ t.slice / t.ew * t.ew := Nat.mul_le_mul_right _ row
    _ ≤ t.slice := Nat.div_mul_le_self _ _

theorem register_in_lane {r : Nat} (fits : r + 1 ≤ t.valloc) : r * t.slice + t.slice ≤ 32768 := by
  rw [← Nat.succ_mul]
  exact (Nat.mul_le_mul_right _ fits).trans (Nat.mul_div_le _ _)

theorem holdsElement_of_vlmax {r : Nat} (one : t.group = 1) (fits : r + 1 ≤ t.valloc) (lt : e < t.vlmax) : holdsElement t r t.ew e := by
  obtain ⟨lane, inside⟩ := element_in_slice one lt
  exact ⟨lane, by have := register_in_lane fits; omega⟩

/-- A register's elements below `vlmax` share no bit with those of a register above it. -/
theorem registersApart_of_vlmax {r r' n : Nat} (one : t.group = 1) (above : r < r') (le : n ≤ t.vlmax) :
    registersApart t r r' t.ew (List.range n) := by
  rintro d hd e - l j ⟨-, -, low⟩ ⟨-, high, -⟩
  obtain ⟨-, inside⟩ := element_in_slice one ((List.mem_range.mp hd).trans_le le)
  have next : r * t.slice + t.slice ≤ r' * t.slice := by
    rw [← Nat.succ_mul]
    exact Nat.mul_le_mul_right _ above
  omega

/-- An operand at the width of a configuration without groups is one register of the allotment. -/
theorem dst_in_allotment {v : Reg} (one : t.group = 1) (ok : t.opOk (t.dst v) = true) : v.toNat + 1 ≤ t.valloc := by
  unfold Slot.opOk Slot.groupOf Slot.dst at ok
  have single : groupFor (t.group * (4 * t.ew)) (4 * t.ew) = 1 := by simp [groupFor, one, List.range_succ_eq_map]
  simp only [single, Bool.and_eq_true, decide_eq_true_eq] at ok
  exact ok.2

end

/-! ## The instruction -/

section
variable {s : State} {t : Slot} {k : KReg} {vd vs1 vs2 : Reg}

/-- The operands of `vtopk`. -/
def topOps (vd vs1 vs2 : Reg) (t : Slot) : List VOp := [t.opw vs1, t.opw vs2, t.opw vd, t.dst vd, t.opw (vd + 1), t.dst (vd + 1)]

/-- The limits of its own of `vtopk`. -/
def topLimits (vd vs1 vs2 : Reg) (t : Slot) : Bool :=
  t.group == 1 && vd.toNat % 2 == 0 && vs1 != vs2 && !([vd, vd + 1].contains vs1) && !([vd, vd + 1].contains vs2) && t.fresh

/-- The list that the pair of registers holds, and then the active candidates. -/
def topEntries (t : Slot) (k : KReg) (vd vs1 vs2 : Reg) : List (Nat × Nat) :=
  ((List.range t.vl).map fun e => (t.elem vd.toNat 32 e, t.elem (vd + 1).toNat 32 e))
    ++ (t.selected k).map fun e => (t.read (t.opw vs1) 32 e, t.read (t.opw vs2) 32 e)

/-- The flag of a signalling NaN among the keys. -/
def topFlags (f : Fmt) (entries : List (Nat × Nat)) : FFlags :=
  flagIf (f == .fp32 && entries.any fun x => (fp32.decode false x.1).isSig) flagNV

/-- What `vtopk` writes: the entries `top`, and zeroes above them. -/
def putTop (t : Slot) (vd : Reg) (top : List (Nat × Nat)) (flags : FFlags) (t' : Slot) : Slot :=
  let listed := (top.zip (List.range t.vl)).foldl (fun t' x => (t'.setElem vd.toNat 32 x.2 x.1.1).setElem (vd + 1).toNat 32 x.2 x.1.2) t'
  let whole := if t.tailZero then (elemRange t.vl t.vlmax).foldl (fun t' e =>
    (t'.setElem vd.toNat 32 e 0).setElem (vd + 1).toNat 32 e 0) listed else listed
  whole.raise flags

/-- `vtopk` after its checks. -/
def topSteps (k : KReg) (vd vs1 vs2 : Reg) : M Flow := do
  let t ← getMe
  let fill := fillAll t (topOps vd vs1 vs2 t) t.vl (t.kbit k)
  if fill = .unfilled then waitFor .stream
  beginVec false
  match fill with
  | .stop e c a => stopVec false (topOps vd vs1 vs2 t) (t.activeCount k t.vstart e) e c a
  | _ => do
    modMe (putTop t vd (topMerge t.fmt t.vl (topEntries t k vd vs1 vs2)) (topFlags t.fmt (topEntries t k vd vs1 vs2)))
    closeVec true false (topOps vd vs1 vs2 t) (t.activeCount k t.vstart t.vl)
    pure .next

theorem exec_vtopk : exec (.vtopk k vd vs1 vs2) s = run (wordVM 12 0 k vs2 vs1 vd 38) (do
    vecChecks (wordVM 12 0 k vs2 vs1 vd 38) (fun f ew => ew == 32 && (f == .fp32 || f == .int || f == .uint)) (topOps vd vs1 vs2)
      (topLimits vd vs1 vs2)
    topSteps k vd vs1 vs2) s := rfl

theorem topSteps_unfilled (unfilled : fillAll s.me (topOps vd vs1 vs2 s.me) s.me.vl (s.me.kbit k) = .unfilled) :
    topSteps k vd vs1 vs2 s = .error (.wait .stream) s := by
  unfold topSteps
  rw [bind_run, getMe_run]
  dsimp only
  rw [if_pos unfilled]
  rfl

theorem topSteps_stop {e c : Nat} {a : Word} (stop : fillAll s.me (topOps vd vs1 vs2 s.me) s.me.vl (s.me.kbit k) = .stop e c a) :
    topSteps k vd vs1 vs2 s = (do
      beginVec false
      stopVec false (topOps vd vs1 vs2 s.me) (s.me.activeCount k s.me.vstart e) e c a : M Flow) s := by
  unfold topSteps
  rw [bind_run, getMe_run]
  dsimp only
  rw [stop]
  rfl

theorem topSteps_ready (ready : fillAll s.me (topOps vd vs1 vs2 s.me) s.me.vl (s.me.kbit k) = .ready) :
    topSteps k vd vs1 vs2 s = (do
      beginVec false
      modMe (putTop s.me vd (topMerge s.me.fmt s.me.vl (topEntries s.me k vd vs1 vs2)) (topFlags s.me.fmt (topEntries s.me k vd vs1 vs2)))
      closeVec true false (topOps vd vs1 vs2 s.me) (s.me.activeCount k s.me.vstart s.me.vl)
      pure .next : M Flow) s := by
  unfold topSteps
  rw [bind_run, getMe_run]
  dsimp only
  rw [ready]
  rfl

/-! ## What it writes -/

/-- How many elements `vtopk` writes. -/
def topWrites (t : Slot) : Nat := if t.tailZero then t.vlmax else t.vl

theorem putTop_eq {top : List (Nat × Nat)} {flags : FFlags} {t' : Slot} (length : top.length = t.vl) (le : t.vl ≤ t.vlmax) :
    putTop t vd top flags t' = ((List.range (topWrites t)).foldl (fun t' e =>
      (t'.setElem vd.toNat 32 e (top.getD e (0, 0)).1).setElem (vd + 1).toNat 32 e (top.getD e (0, 0)).2) t').raise flags := by
  have listed : top.zip (List.range t.vl) = (List.range t.vl).map fun e => (top.getD e (0, 0), e) := by
    refine List.ext_getElem (by simp [length]) fun e h _ => ?_
    have lt : e < top.length := (List.lt_length_left_of_zip h)
    simp [List.getD_eq_getElem?_getD, lt]
  have above (e : Nat) (he : e ∈ elemRange t.vl t.vlmax) : top.getD e (0, 0) = (0, 0) := by
    have := (mem_elemRange _ _ _).mp he
    exact List.getD_eq_default _ _ (by omega)
  unfold putTop topWrites
  dsimp only
  rw [listed, List.foldl_map]
  split
  · have all : List.range t.vlmax = List.range t.vl ++ elemRange t.vl t.vlmax := by
      rw [elemRange, ← List.range_add, Nat.add_sub_cancel' le]
    rw [all, List.foldl_append]
    refine congrArg (Slot.raise · flags) (List.foldl_ext _ _ _ fun t' e he => ?_)
    rw [above e he]
  · rfl

theorem elem_lt (t : Slot) (r w e : Nat) : t.elem r w e < 2 ^ w := BitVec.isLt _

theorem topEntries_lt {x : Nat × Nat} (h : x ∈ topEntries t k vd vs1 vs2) : x.1 < 2 ^ 32 ∧ x.2 < 2 ^ 32 := by
  rcases List.mem_append.mp h with h | h
  · obtain ⟨e, -, rfl⟩ := List.mem_map.mp h
    exact ⟨elem_lt _ _ _ _, elem_lt _ _ _ _⟩
  · obtain ⟨e, -, rfl⟩ := List.mem_map.mp h
    exact ⟨read_lt t (t.opw vs1) 32 e, read_lt t (t.opw vs2) 32 e⟩

/-- What holds of all entries and of a zero holds of each place of a list of them. -/
theorem getD_lt {l : List (Nat × Nat)} (h : ∀ x ∈ l, x.1 < 2 ^ 32 ∧ x.2 < 2 ^ 32) (e : Nat) :
    (l.getD e (0, 0)).1 < 2 ^ 32 ∧ (l.getD e (0, 0)).2 < 2 ^ 32 := by
  rcases Nat.lt_or_ge e l.length with lt | ge
  · rw [List.getD_eq_getElem _ _ lt]
    exact h _ (List.getElem_mem lt)
  · rw [List.getD_eq_default _ _ ge]
    decide

theorem topMerge_lt {f : Fmt} {n : Nat} {entries : List (Nat × Nat)} (h : ∀ x ∈ entries, x.1 < 2 ^ 32 ∧ x.2 < 2 ^ 32) :
    ∀ x ∈ topMerge f n entries, x.1 < 2 ^ 32 ∧ x.2 < 2 ^ 32 :=
  fun x hx => h x (mem_sortByKey (List.mem_of_mem_take hx))

/-- What the checks of `vtopk` say of the places of its pair of registers. -/
structure TopPlaces (t : Slot) (vd : Reg) : Prop where
  wide : t.ew = 32
  single : t.group = 1
  next : (vd + 1).toNat = vd.toNat + 1
  first : vd.toNat + 1 ≤ t.valloc
  second : (vd + 1).toNat + 1 ≤ t.valloc

theorem topPlaces (wide : t.ew = 32) (limits : topLimits vd vs1 vs2 t = true) (ok : t.opsOk (topOps vd vs1 vs2 t) = true) :
    TopPlaces t vd := by
  unfold topLimits at limits
  simp only [Bool.and_eq_true, beq_iff_eq] at limits
  obtain ⟨⟨⟨⟨⟨single, even⟩, -⟩, -⟩, -⟩, -⟩ := limits
  unfold Slot.opsOk at ok
  simp only [Bool.and_eq_true, List.all_eq_true] at ok
  obtain ⟨each, -⟩ := ok
  have lt : vd.toNat < 32 := vd.isLt
  refine ⟨wide, single, ?_, dst_in_allotment single (each (t.dst vd) (by simp [topOps])).1,
    dst_in_allotment single (each (t.dst (vd + 1)) (by simp [topOps])).1⟩
  rw [BitVec.toNat_add, show (1 : Reg).toNat = 1 from rfl]
  omega

/-- `lanes` hold `top`, entry by entry, in the pair of registers at `vd`, zeroes above it where the tail is zeroed, and what they
held elsewhere. -/
def pairsWritten (t : Slot) (lanes : Vector (BitVec 32768) 64) (vd : Reg) (top : List (Nat × Nat)) : Prop :=
  (∀ e, e < topWrites t →
    ({ t with lanes := lanes }.elem vd.toNat 32 e, { t with lanes := lanes }.elem (vd + 1).toNat 32 e) = top.getD e (0, 0))
  ∧ ∀ (l : Fin 64) (j : Nat),
      (∀ e, e < topWrites t → ¬ inElement t vd.toNat 32 e l.val j ∧ ¬ inElement t (vd + 1).toNat 32 e l.val j) →
      lanes[l].getLsbD j = t.lanes[l].getLsbD j

/-- What `vtopk` writes in the slot of an instruction that has begun. -/
theorem putTop_written {top : List (Nat × Nat)} {flags : FFlags} {b v} (places : TopPlaces t vd) (length : top.length = t.vl)
    (le : t.vl ≤ t.vlmax) (small : ∀ x ∈ top, x.1 < 2 ^ 32 ∧ x.2 < 2 ^ 32) : ∃ lanes, pairsWritten t lanes vd top
    ∧ putTop t vd top flags { t with vbegun := b, vstate := v }
      = { t with vbegun := b, vstate := v, lanes := lanes, fflags := t.fflags ||| flags } := by
  obtain ⟨wide, single, next, first, second⟩ := places
  have upto : topWrites t ≤ t.vlmax := by
    unfold topWrites
    split
    · exact Nat.le_refl _
    · exact le
  have apart := registersApart_of_vlmax (t := t) (r := vd.toNat) (r' := (vd + 1).toNat) single (by omega) upto
  have holds (e : Nat) (lt : e < topWrites t) := And.intro (holdsElement_of_vlmax single first (lt.trans_le upto))
    (holdsElement_of_vlmax single second (lt.trans_le upto))
  rw [wide] at apart holds
  obtain ⟨lanes, run, pairs, others⟩ := writes_pairs (t := { t with vbegun := b, vstate := v }) apart holds
    (f := fun e => top.getD e (0, 0)) fun e _ => getD_lt small e
  refine ⟨lanes, ⟨pairs, others⟩, ?_⟩
  rw [putTop_eq length le, run]
  rfl

/-- What is left of a `vtopk` that has gone through. -/
def topDone (lanes : Vector (BitVec 32768) 64) (flags : FFlags) (streams : Vector Binding 8) (t : Slot) : Slot :=
  { vectorDone t with lanes := lanes, fflags := t.fflags ||| flags, vstate := 3, streams := streams }

/-- Both destinations are sources too, and so none of them is a stream. -/
theorem sinkOf_topOps (ok : t.opsOk (topOps vd vs1 vs2 t) = true) : t.sinkOf (topOps vd vs1 vs2 t) = none := by
  refine sinkOf_eq_none fun o ho dest => ?_
  have source : ∃ a ∈ topOps vd vs1 vs2 t, a.dest = false ∧ o.r = a.r := by
    simp only [topOps, List.mem_cons, List.not_mem_nil, or_false] at ho ⊢
    rcases ho with rfl | rfl | rfl | rfl | rfl | rfl
    · cases dest
    · cases dest
    · cases dest
    · exact ⟨t.opw vd, by simp, rfl, rfl⟩
    · cases dest
    · exact ⟨t.opw (vd + 1), by simp, rfl, rfl⟩
  obtain ⟨a, ha, reads, same⟩ := source
  exact opsOk_sep ok o ho a ha dest reads same

theorem vecEnd_top {b v} {lanes : Vector (BitVec 32768) 64} {flags : FFlags} {os : List VOp} (on : v ≠ 0) (sink : t.sinkOf os = none) :
    vecEnd true os { t with vbegun := b, vstate := v, lanes := lanes, fflags := t.fflags ||| flags }
      = topDone lanes flags (streamsAfter t os) t :=
  vecEnd_of (t := { t with vbegun := b, vstate := v, lanes := lanes, fflags := t.fflags ||| flags }) on (pops_streams _ os sink)

/-- A `vtopk` whose sources are filled goes through. -/
theorem vtopk_completes {i : Instr} {wd : IWord} {m : M Flow} (hi : exec i s = run wd m s) (hm : m s = topSteps k vd vs1 vs2 s)
    (ready : vectorReady s (topOps vd vs1 vs2 s.me)) (places : TopPlaces s.me vd)
    (full : fillAll s.me (topOps vd vs1 vs2 s.me) s.me.vl (s.me.kbit k) = .ready) (le : s.me.vl ≤ s.me.vlmax) : ∃ lanes,
    completes i s (topDone lanes (topFlags s.me.fmt (topEntries s.me k vd vs1 vs2)) (streamsAfter s.me (topOps vd vs1 vs2 s.me)))
    ∧ pairsWritten s.me lanes vd (topMerge s.me.fmt s.me.vl (topEntries s.me k vd vs1 vs2)) := by
  obtain ⟨on, -, ok⟩ := ready
  have enough : s.me.vl ≤ (topEntries s.me k vd vs1 vs2).length := by simp [topEntries]
  have small := topMerge_lt (f := s.me.fmt) (n := s.me.vl) fun x (hx : x ∈ topEntries s.me k vd vs1 vs2) => topEntries_lt hx
  obtain ⟨u, begun, quiet, slots⟩ := beginVec_run false s
  have me : u.me = { s.me with vbegun := (vectorBegun s.ticks s.me).vbegun, vstate := (vectorBegun s.ticks s.me).vstate } :=
    ((me_of_slots slots quiet.cur).trans (me_mapMe _ _)).trans (vectorBegun_frame s.ticks s.me)
  have still := vectorBegun_on s.ticks on
  generalize vectorBegun s.ticks s.me = g at me still
  obtain ⟨lanes, written, put⟩ := putTop_written (flags := topFlags s.me.fmt (topEntries s.me k vd vs1 vs2)) (b := g.vbegun)
    (v := g.vstate) places (topMerge_length s.me.fmt _ enough) le small
  obtain ⟨y, ends, retires⟩ := closed_run (mem := false) (n := s.me.activeCount k s.me.vstart s.me.vl) quiet slots
    (vecEnd_top (b := g.vbegun) (lanes := lanes) still (sinkOf_topOps ok))
  rw [← me] at put
  refine ⟨lanes, ⟨_, ?_, retires⟩, written⟩
  rw [hi]
  unfold run
  rw [hm, topSteps_ready full, bind_ok begun, bind_run, modMe_run]
  dsimp only
  rw [mapMe_congr (g := fun _ => _) put, bind_ok ends]
  rfl

end

/-- Settles O19: the merge is a stable sort of the entries by rank and identifier, of which each of the two registers takes its half. -/
theorem topKMerge : Obligations.TopKMerge := by
  unfold Obligations.TopKMerge
  intro s k vd vs1 vs2 t i vi os ok fill entries key name precedes nv
  have hi := exec_vtopk (s := s) (k := k) (vd := vd) (vs1 := vs1) (vs2 := vs2)
  refine ⟨vectorTraps_run hi (congrArg some (wordVM_pack ..).symm), fun ready pass => ?_⟩
  have steps := bind_ok (f := fun _ => topSteps k vd vs1 vs2) (vecChecks_pass (wd := wordVM 12 0 k vs2 vs1 vd 38)
    (os := topOps vd vs1 vs2) (extra := topLimits vd vs1 vs2) (cls := fun f ew => ew == 32 && (f == .fp32 || f == .int || f == .uint))
    ready pass)
  refine ⟨fun unfilled => holds_run hi (steps.trans (topSteps_unfilled unfilled)),
    fun e c a stop => stopped_unwritten hi ready.1 (steps.trans (topSteps_stop stop)), fun full le => ?_⟩
  have places : TopPlaces s.me vd := by
    obtain ⟨cls, limits⟩ := Bool.and_eq_true_iff.mp pass
    exact topPlaces (beq_iff_eq.mp (Bool.and_eq_true_iff.mp cls).1) limits ready.2.2
  obtain ⟨lanes, done, pairs, others⟩ := vtopk_completes hi steps ready places full le
  have enough : t.vl ≤ entries.length := by simp [entries]
  have small (n : Nat) : (entries.getD n (0, 0)).2 < 2 ^ 32 :=
    (getD_lt (fun x (hx : x ∈ topEntries t k vd vs1 vs2) => topEntries_lt hx) n).2
  have upto : t.vl ≤ topWrites t := by
    unfold topWrites
    split
    · exact le
    · exact Nat.le_refl _
  refine ⟨lanes, done, ⟨topOrder t.fmt entries, topOrder_perm _ _, ?_, fun e lt => ?_⟩, fun zeroes e ge lt => ?_, others⟩
  · exact (topOrder_sorted t.fmt entries).imp fun before => precedes_of_topKey (small _) (small _) before
  · exact (pairs e (lt.trans_le upto)).trans (topMerge_getD t.fmt entries enough lt)
  · have zeroed : e < topWrites t := by rw [topWrites, if_pos zeroes]; exact lt
    exact (pairs e zeroed).trans (List.getD_eq_default _ _ ((topMerge_length t.fmt entries enough).trans_le ge))

end Sys2Proof.Laws
